-- ==== Sys2Proof/Word.lean ====
section
/-! DEFINITION. The word types of the part (R9, R39, R66) and their plainest arithmetic. -/

namespace Sys2Proof

/-- One byte of memory. -/
abbrev Byte := BitVec 8

/-- A 32-bit register, special register or instruction word. -/
abbrev Word := BitVec 32

/-- A 64-bit value, held in an even and odd register pair (R39). -/
abbrev DWord := BitVec 64

/-- The two words of a 64-bit value, the low word first (R39). -/
def DWord.words (x : DWord) : Word × Word := (x.truncate 32, (x >>> 32).truncate 32)

/-- A 64-bit value from its low and high words (R39). -/
def DWord.ofWords (lo hi : Word) : DWord := hi ++ lo

end Sys2Proof
end

