-- ==== Sys2Proof/Syntax.lean ====
section
/-! DEFINITION. The instruction syntax: one constructor of Instr per row of spec/opcode_table.json.
Register numbers and immediates are numbers, bounded by WellFormed; code fields are closed types. -/

namespace Sys2Proof

/-- Integer condition codes 0 to 9 of R132. -/
inductive ICond | eq | ne | ltS | leS | gtS | geS | ltN | leN | gtN | geN
deriving DecidableEq, Repr

/-- Float condition codes 0 to 7 of R132. -/
inductive FCond | eq | ne | lt | le | gt | ge | un | ord
deriving DecidableEq, Repr

/-- Integer type codes 0 to 7 of R132. -/
inductive IntTy | s8 | s16 | s32 | s64 | n8 | n16 | n32 | n64
deriving DecidableEq, Repr

/-- LEA scales, fn 7 to 10 (R160). -/
inductive LeaScale | x1 | x2 | x4 | x8
deriving DecidableEq, Repr

/-- FCVT fn 0 to 5, destination first (R132, R169). -/
inductive FcvtKind | f16F32 | bf16F32 | f32F16 | f32Bf16 | bf16F16 | f16Bf16
deriving DecidableEq, Repr

/-- SHFL fn 0 to 3 (R177). -/
inductive ShflMode | idx | up | down | xor
deriving DecidableEq, Repr

/-- VOTE fn 0 to 3 (R179). -/
inductive VoteMode | any | all | bal | eq
deriving DecidableEq, Repr

/-- REDL and SCANL fn 0 to 6 and 8 to 10 (R180). -/
inductive RedOp | add | minS | minN | maxS | maxN | and | or | fadd | fmin | fmax
deriving DecidableEq, Repr

/-- Scopes of a global access, z[4:3] (R133). -/
inductive Scope | dv | cl | sy
deriving DecidableEq, Repr

/-- Access sizes, z[2:0] (R133). -/
inductive Size | b8 | b16 | b32 | b64 | b128
deriving DecidableEq, Repr

/-- Atomic operations, z[3:0] (R134). -/
inductive AtomOp | add | sub | minS | maxS | minN | maxN | and | or | xor | xch | cas | fadd
deriving DecidableEq, Repr

/-- Atomic placements, z[6:5] (R134). -/
inductive Place | auto | near | far | cl
deriving DecidableEq, Repr

/-- Cache levels of PREF and EVICT (R213). -/
inductive Level | l1 | l2 | mc
deriving DecidableEq, Repr

/-- Activation types of MMA (R222). -/
inductive Act | s8 | n8 | bf16 | f16
deriving DecidableEq, Repr

/-- Reason codes 1 to 8 of R138. -/
inductive IllReason
  | major | code | resField | hintKind | xpfx | sequence | target | look
deriving DecidableEq, Repr

/-- What the page walker does an access for: the acc codes 1 to 6 of R353. -/
inductive AccKind | load | store | atomic | fetch | engRead | engWrite
deriving DecidableEq, Repr

/-- A read of the host: whether it is of the system-software class (R268), and its address. -/
structure HostReq where
  system : Bool
  pa : Nat
deriving DecidableEq, Repr

/-- An aligned word written to tdnext (R268, R300): its offset there, its size, its value. -/
structure TdWord where
  off : Nat
  size : Nat
  value : Nat
deriving DecidableEq, Repr

/-- One row of spec/opcode_table.json each; rows with operands stand first. Fields of code words: w the 64-bit major, t the s-register source,
d, a, b the register fields, c code fields, l look, x the x bit (R118). Fields of device steps name the units
that the step concerns and the inputs from outside the part that it carries. -/
inductive Instr
  -- majors 0x00 to 0x09 (R150 to R157)
  | iadd (w t : Bool) (d a b : Nat)
  | iaddc (w t : Bool) (d a b : Nat)
  | isub (w t : Bool) (d a b : Nat)
  | ineg (w t : Bool) (d a : Nat)
  | iabs (w t : Bool) (d a : Nat)
  | iminS (w t : Bool) (d a b : Nat)
  | iminN (w t : Bool) (d a b : Nat)
  | imaxS (w t : Bool) (d a b : Nat)
  | imaxN (w t : Bool) (d a b : Nat)
  | imul (w t : Bool) (d a b : Nat)
  | imulhS (w t : Bool) (d a b : Nat)
  | imulhN (w t : Bool) (d a b : Nat)
  | imad (w t : Bool) (d a b : Nat)
  | idivS (w t : Bool) (d a b : Nat)
  | idivN (w t : Bool) (d a b : Nat)
  | iremS (w t : Bool) (d a b : Nat)
  | iremN (w t : Bool) (d a b : Nat)
  | iand (w t : Bool) (d a b : Nat)
  | ior (w t : Bool) (d a b : Nat)
  | ixor (w t : Bool) (d a b : Nat)
  | inot (w t : Bool) (d a : Nat)
  | shl (w t : Bool) (d a b : Nat)
  | shr (w t : Bool) (d a b : Nat)
  | sra (w t : Bool) (d a b : Nat)
  | rotl (w t : Bool) (d a b : Nat)
  | clz (w t : Bool) (d a : Nat)
  | popc (w t : Bool) (d a : Nat)
  | brev (w t : Bool) (d a : Nat)
  | bfxS (w t : Bool) (d a b : Nat)
  | bfxN (w t : Bool) (d a b : Nat)
  | bfi (w t : Bool) (d a b : Nat)
  | iset (w : Bool) (c : ICond) (t : Bool) (d a b : Nat)
  -- majors 0x0A to 0x0D (R158 to R162)
  | mov (w t : Bool) (d a : Nat)
  | sel (w t : Bool) (d a b : Nat)
  | movsSV (d a : Nat)
  | movsSK (d a : Nat)
  | movsKS (d a : Nat)
  | movsSM (d a : Nat)
  | movsMS (d a : Nat)
  | lea (c : LeaScale) (t : Bool) (d a b : Nat)
  | sadd (d a b : Nat)
  | ssub (d a b : Nat)
  | smul (d a b : Nat)
  | sand (d a b : Nat)
  | sor (d a b : Nat)
  | sxor (d a b : Nat)
  | sshl (d a b : Nat)
  | sshr (d a b : Nat)
  | smov (d a : Nat)
  | slea (d a b : Nat)
  | srdl (d a b : Nat)
  | sset (c : ICond) (d a b : Nat)
  -- majors 0x10 to 0x14 (R163 to R168)
  | fadd (t : Bool) (d a b : Nat)
  | fsub (t : Bool) (d a b : Nat)
  | fmul (t : Bool) (d a b : Nat)
  | ffma (t : Bool) (d a b : Nat)
  | fmin (t : Bool) (d a b : Nat)
  | fmax (t : Bool) (d a b : Nat)
  | fclass (t : Bool) (d a : Nat)
  | fset (c : FCond) (t : Bool) (d a b : Nat)
  | frcp (t : Bool) (d a : Nat)
  | frsq (t : Bool) (d a : Nat)
  | fsqrt (t : Bool) (d a : Nat)
  | fexp2 (t : Bool) (d a : Nat)
  | flog2 (t : Bool) (d a : Nat)
  | fsin (t : Bool) (d a : Nat)
  | fcos (t : Bool) (d a : Nat)
  | ftanh (t : Bool) (d a : Nat)
  | hadd2F16 (t : Bool) (d a b : Nat)
  | hmul2F16 (t : Bool) (d a b : Nat)
  | hfma2F16 (t : Bool) (d a b : Nat)
  | hmax2F16 (t : Bool) (d a b : Nat)
  | hadd2Bf16 (t : Bool) (d a b : Nat)
  | hmul2Bf16 (t : Bool) (d a b : Nat)
  | hfma2Bf16 (t : Bool) (d a b : Nat)
  | hmax2Bf16 (t : Bool) (d a b : Nat)
  -- majors 0x20 to 0x24 (R169 to R175)
  | fcvt (c : FcvtKind) (t : Bool) (d a : Nat)
  | fcvtNp (c : Bool) (d a slot : Nat)
  | f2i (y : IntTy) (t : Bool) (d a : Nat)
  | i2f (y : IntTy) (t : Bool) (d a : Nat)
  | npack (d a slot : Nat)
  | nunpack (d a slot : Nat)
  | scenc (t : Bool) (d a slot : Nat)
  | scdec (t : Bool) (d a slot : Nat)
  -- majors 0x28 to 0x2D (R176 to R182)
  | shfl (c : ShflMode) (t : Bool) (d a b : Nat)
  | putl (c t : Bool) (d a b : Nat)
  | vote (c : VoteMode) (d a : Nat)
  | redl (c : RedOp) (t : Bool) (d a : Nat)
  | scanl (c : RedOp) (t : Bool) (d a : Nat)
  | lpart (c : Nat)
  -- majors 0x30 to 0x34 (R185 to R192)
  | bra (off : Nat)
  | brc (m : Nat) (neg : Bool) (off : Nat)
  | call (off : Nat)
  | brx (a : Nat)
  | join (d : Nat)
  | leave (d : Nat)
  | waitm (d : Nat)
  -- major 0x3F (R122 to R129)
  | xpfx (f4s f4en : Bool) (f4 : Nat) (sat : Bool) (rm : Nat) (zero : Bool) (m : Nat)
  | limm (hi : Bool) (v : Nat)
  | prio (p : Nat)
  | shint (c : Nat)
  -- majors 0x38 to 0x3C (07_isa_memory.md)
  | ld (l : Nat) (x : Bool) (d a : Nat) (c : Scope) (z : Size)
  | lda (l : Nat) (x : Bool) (d a : Nat) (c : Scope) (z : Size)
  | st (l : Nat) (x : Bool) (d a : Nat) (c : Scope) (z : Size)
  | stl (x : Bool) (d a : Nat) (c : Scope) (z : Size)
  | lds (l : Nat) (x : Bool) (d a : Nat) (z : Size)
  | sts (l : Nat) (x : Bool) (d a : Nat) (z : Size)
  | ldw (l : Nat) (x : Bool) (d a : Nat) (z : Size)
  | stw (l : Nat) (x : Bool) (d a : Nat) (z : Size)
  | ldp (l : Nat) (x : Bool) (d a : Nat) (z : Size)
  | stp (l : Nat) (x : Bool) (d a : Nat) (z : Size)
  | atom (l d a : Nat) (p : Place) (w : Bool) (o : AtomOp)
  | red (l d a : Nat) (p : Place) (w : Bool) (o : AtomOp)
  | pref (l : Nat) (x : Bool) (a : Nat) (m : Level)
  | evict (l : Nat) (x : Bool) (a : Nat) (m : Level)
  | ckin (l : Nat) (x : Bool) (a : Nat)
  | rwr (d a m : Nat)
  | arvw (l d a : Nat)
  | bari (x : Bool) (d a : Nat)
  | bara (x : Bool) (a : Nat)
  | bard (x : Bool) (a : Nat)
  | barw (x : Bool) (a : Nat)
  | bart (x : Bool) (d a : Nat)
  | bars (x : Bool) (a : Nat)
  | barq (x : Bool) (d a : Nat)
  -- majors 0x3D and 0x3E (08_isa_engines.md)
  | push (x : Bool) (p f a : Nat)
  | waittl (d a : Nat)
  | tlrd (d a : Nat)
  | ringp (x : Bool) (a r : Nat)
  | ringc (x : Bool) (a r : Nat)
  | ringcRel (x : Bool) (a r : Nat)
  | cont (d a : Nat)
  | mma (l : Nat) (q : Act) (n a slot : Nat)
  | mzero (l n : Nat)
  | mrd (l d n : Nat)
  | mwr (l d n : Nat)
  | trap (h : Bool) (c : Nat)
  | sregr (x : Bool) (d a : Nat)
  | sregw (d a : Nat)
  | waitt (d : Nat)
  | capq (d : Nat)
  -- device steps: Chunks, coherence, landings (04, 07, 13)
  | chunkReady (core slot : Nat)
  | commitBatch (part : Nat)
  | signatureBroadcast (core : Nat)
  | differenceApply (part : Nat)
  | loadReturn (core slot : Nat)
  | mmaRetire (core : Nat) (mismatch : Bool)
  | stwLanding (id : Nat)
  | rwrLanding (id : Nat)
  | kWrite (id : Nat)
  | ringAtCommit (id : Nat)
  | barrierEvent (core bar n : Nat)
  | barrierRelease (core bar : Nat)
  | fenceWaitEnd (core slot : Nat)
  | nclAck (id : Nat)
  | hostWrite (system : Bool) (pa : Nat) (bytes : List (BitVec 8))
  | hostRead (req : HostReq) (n : Nat)
  | parityDifference (src seq stripe off stamp : Nat) (bytes : List (BitVec 8))
  | parityAck (holder seq : Nat)
  -- device steps: engines (08, 15, 16)
  | copy (op : Nat)
  | copyRetire (op : Nat)
  | followOnMma (op : Nat)
  | gather (op : Nat)
  | collRs (op : Nat) (others : List (List (BitVec 8)))
  | collAg (op : Nat) (others : List (List (BitVec 8)))
  | collXorrs (op : Nat) (others : List (List (BitVec 8)))
  | collXorrb (op : Nat) (others : List (List (BitVec 8)))
  | srch (op : Nat)
  | scoreRequest (search idx : Nat)
  | expandRequest (search idx : Nat)
  | scoreReply (search idx : Nat)
  | expandReply (search idx : Nat)
  | refineRequest (search idx : Nat)
  | refineReply (search idx : Nat)
  | merge (search : Nat)
  | updInsert (op : Nat)
  | updDelete (op : Nat)
  | updLink (op : Nat)
  | reclaimInsert (op : Nat)
  | publ (op : Nat)
  | publication (index : Nat)
  | redn (op : Nat)
  | enq (op : Nat)
  | mcast (op : Nat)
  | operationComplete (op : Nat)
  -- device steps: continuations, Teams, Groups, Kernels, images (11, 12, 09)
  | contRoomReserve (core slot : Nat)
  | gathererTimeout (die kernel : Nat) (entry : Nat)
  | teamFormation (kernel : Nat)
  | debugResume (core slot : Nat)
  | activeSetLeave (core slot : Nat)
  | yieldDemotionEnd (core slot : Nat)
  | kernelDispatch (part : Nat)
  | coreLoad (kernel core : Nat)
  | kernelComplete (kernel : Nat)
  | kernelStopped (kernel : Nat)
  | quantumExpiry (kernel cluster : Nat)
  | imageSaveComplete (kernel cluster : Nat)
  | imageRestore (kernel cluster target : Nat)
  | restoreComplete (kernel cluster : Nat)
  -- device steps: commands of R269 that carry a unit (the others stand at the end)
  | migrationComplete (die : Nat)
  -- device steps: window registers with behaviour of their own (09 R268)
  | tdnextWrite (die : Nat) (word : TdWord)
  | tdstatDiscClear (die : Nat) (value : Nat)
  | mcskipClear (die : Nat) (value : Nat)
  | lperiodWrite (die : Nat) (value : Nat)
  | xflgWrite (die : Nat) (value : Nat)
  | xfheadWrite (die : Nat) (value : Nat)
  | captureClear (die unit : Nat)
  | registerWrite (die off size value : Nat)
  -- device steps: Queues, nodes and time (10)
  | tailWrite (queue : Nat)
  | nodeFetch (queue : Nat)
  | nodeComplete (queue seq : Nat)
  | engineNodeTake (queue seq : Nat)
  | joinNode (queue seq : Nat)
  | conditionalNode (queue seq : Nat)
  | timedNodeExpiry (queue seq : Nat)
  | timedHoldLoad (queue seq : Nat)
  | waittWake (core slot : Nat)
  | ppsEdge (sec ns : Nat) (narrow : Bool)
  -- device steps: Pages and memory (14)
  | walkComplete (ctx va : Nat) (acc : AccKind)
  | xfaultRecordWrite (part : Nat)
  | requestResend (core slot : Nat)
  | lineRebuild (line : Nat) (bytes : List (BitVec 8))
  | refresh (stack channel pc bank : Nat)
  | refreshBackoff (stack channel pc bank : Nat)
  -- device steps: Links (16)
  | linkLock (link : Nat)
  | trainingTimeout (link : Nat)
  | trainingRetry (link : Nat)
  | flitReplay (link : Nat)
  | lockLoss (link : Nat)
  | retrainTimeout (link : Nat)
  | packetArrival (src dst seq payload : Nat)
  | packetAck (src dst seq : Nat)
  | resendTimeout (src dst seq : Nat)
  -- device steps: Leases, scores, monitors, power (17, 01)
  | leaseDue (unit : Nat)
  | leaseTestingStart (unit : Nat)
  | patternComplete (unit passBin : Nat)
  | patrolComplete (unit : Nat) (rows : List Nat)
  | rowRepair (unit row : Nat)
  | monitorSample (die unit : Nat) (sample : Int)
  | inputVoltageChange (mv : Nat)
  | thermalTrip (tenths : Nat)
  | watchdogExpiry (die : Nat) (stack : Option Nat)
  -- words that are no instruction, fetch faults, enumeration (05 R138, R117; 09 R268)
  | wordNotInstruction (r : IllReason)
  | nclEnumeration (base : Nat)
  -- code words and device steps without operands. A command of R269 takes the die that waits first with its code (R268), and
  -- a management message stands in the port's buffer (R421)
  | fusedSoftmax
  | ret
  | exit
  | yield
  | nop
  | chk
  | fenceCl
  | fenceDv
  | fenceSy
  | fenceSv
  | tret
  | bkpt
  | synci
  | create
  | read
  | suspend
  | resume
  | kill
  | destroy
  | qopen
  | qclose
  | qresume
  | qread
  | icreate
  | idestroy
  | iread
  | inval
  | migrate
  | xresolve
  | xfail
  | wrpart
  | wrregion
  | mapTakeEffect
  | wrcgrp
  | setcap
  | capTakeEffect
  | readrec
  | readunit
  | cmdUnknown
  | ppsLoss
  | scoreHalving
  | scorePersist
  | powerFaultShutdown
  | mainRestart
  | powerClamp
  | mgmtReadrec
  | readscore
  | readmon
  | resetpart
  | dump
  | readdump
  | mgmtSetcap
  | wrconf
  | mgmtUnknown
  | mctpControl
  | pldmMessage
  | codeFetchFault
  | soloTimeout
  | activeSetPinExpiry
  | leasePreemptTimer
deriving DecidableEq, Repr

end Sys2Proof
end

