-- ==== Sys2Proof/Machine/Bits.lean ====
section
/-! DEFINITION. Bit fields, sign extension, little-endian packing and the exact integer arithmetic of R39, R40 and R152. -/

namespace Sys2Proof.Machine

/-- x[hi:lo] of a number (R12). -/
def field (x hi lo : Nat) : Nat := x / 2 ^ lo % 2 ^ (hi + 1 - lo)

/-- One bit of a number. -/
def bitAt (x i : Nat) : Bool := x / 2 ^ i % 2 == 1

/-- The two's-complement value of the low n bits of x (R39). -/
def signedOf (n x : Nat) : Int :=
  let y := x % 2 ^ n
  if 2 * y < 2 ^ n then (y : Int) else (y : Int) - 2 ^ n

/-- x mod 2^n as a number (R40 without sat). -/
def wrapTo (n : Nat) (x : Int) : Nat := (x % (2 ^ n : Int)).toNat

/-- The signed range of width n clamps x (R40 with sat, R151). -/
def clampSigned (n : Nat) (x : Int) : Int := max (-(2 ^ (n - 1) : Int)) (min x (2 ^ (n - 1) - 1))

/-- The unsigned range of width n clamps x (R40, R48). -/
def clampUnsigned (n : Nat) (x : Int) : Int := max 0 (min x (2 ^ n - 1))

/-- A number as little-endian bytes, n of them (R9). -/
def toBytes : Nat → Nat → List Byte
  | 0, _ => []
  | n + 1, x => BitVec.ofNat 8 x :: toBytes n (x / 256)

/-- The number that little-endian bytes hold (R9). -/
def ofBytes : List Byte → Nat
  | [] => 0
  | b :: bs => b.toNat + 256 * ofBytes bs

/-- The number of one bits among the low n bits (R155). -/
def popCount : Nat → Nat → Nat
  | 0, _ => 0
  | n + 1, x => x % 2 + popCount n (x / 2)

/-- The parity of the number of one bits among the low n bits (R357). -/
def parityOf (n x : Nat) : Bool := popCount n x % 2 == 1

/-- The low n bits of x in reverse order (R155). -/
def reverseBits : Nat → Nat → Nat
  | 0, _ => 0
  | n + 1, x => x % 2 * 2 ^ n + reverseBits n (x / 2)

/-- Leading zero bits of the low n bits of x, from 0 to n (R155). -/
def leadingZeros : Nat → Nat → Nat
  | 0, _ => 0
  | n + 1, x => if bitAt x n then 0 else 1 + leadingZeros n x

/-- The integer condition codes of R132 on operands of width n. -/
def icondHolds (c : ICond) (n a b : Nat) : Bool :=
  match c with
  | .eq => a == b
  | .ne => a != b
  | .ltS => decide (signedOf n a < signedOf n b)
  | .leS => decide (signedOf n a ≤ signedOf n b)
  | .gtS => decide (signedOf n b < signedOf n a)
  | .geS => decide (signedOf n b ≤ signedOf n a)
  | .ltN => decide (a < b)
  | .leN => decide (a ≤ b)
  | .gtN => decide (b < a)
  | .geN => decide (b ≤ a)

/-- Quotient truncated toward zero of IDIV (R152), operands read as signed or unsigned of width n. -/
def idivValue (signed sat : Bool) (n a b : Nat) : Nat :=
  if b = 0 then 2 ^ n - 1
  else if signed then
    let q := Int.tdiv (signedOf n a) (signedOf n b)
    wrapTo n (if sat then clampSigned n q else q)
  else a / b

/-- Remainder of IREM (R152). -/
def iremValue (signed : Bool) (n a b : Nat) : Nat :=
  if b = 0 then a
  else if signed then wrapTo n (Int.tmod (signedOf n a) (signedOf n b))
  else a % b

/-- The shifts and the rotate of R153 at width n with an 8-bit count. -/
def shlValue (n a c : Nat) : Nat := if n ≤ c then 0 else a * 2 ^ c % 2 ^ n
def shrValue (n a c : Nat) : Nat := if n ≤ c then 0 else a / 2 ^ c
def sraValue (n a c : Nat) : Nat := wrapTo n (signedOf n a / 2 ^ (min c (n - 1)))
def rotlValue (n a c : Nat) : Nat :=
  let k := c % n
  a * 2 ^ k % 2 ^ n + a / 2 ^ (n - k)

/-- The field that BFX delivers (R156): control in c, pos c[7:0], len c[15:8]. -/
def bfxValue (signed : Bool) (n a c : Nat) : Nat :=
  let pos := c % 256
  let len := c / 256 % 256
  let hi := min (pos + len) n
  if len = 0 ∨ n ≤ pos then 0
  else
    let x := field a (hi - 1) pos
    if signed then wrapTo n (signedOf (hi - pos) x) else x

/-- The word that BFI delivers (R156). -/
def bfiValue (n a c base : Nat) : Nat :=
  let pos := c % 256
  let len := c / 256 % 256
  let hi := min (pos + len) n
  if len = 0 ∨ n ≤ pos then base
  else base % 2 ^ pos + field a (hi - 1 - pos) 0 * 2 ^ pos + base / 2 ^ hi * 2 ^ hi

/-- Width in bits and signedness of an integer type (R39, R132). -/
def intTyWidth (y : IntTy) : Nat :=
  match y with
  | .s8 => 8 | .n8 => 8 | .s16 => 16 | .n16 => 16 | .s32 => 32 | .n32 => 32 | .s64 => 64 | .n64 => 64

def intTySigned (y : IntTy) : Bool :=
  match y with
  | .s8 => true | .s16 => true | .s32 => true | .s64 => true
  | .n8 => false | .n16 => false | .n32 => false | .n64 => false

/-- The access size in bytes (R133). -/
def sizeBytes (z : Size) : Nat :=
  match z with
  | .b8 => 1 | .b16 => 2 | .b32 => 4 | .b64 => 8 | .b128 => 16

/-- The registers that hold one element of a size (R133). -/
def sizeRegs (z : Size) : Nat :=
  match z with
  | .b8 => 1 | .b16 => 1 | .b32 => 1 | .b64 => 2 | .b128 => 4

end Sys2Proof.Machine
end

