-- ==== Sys2Proof/WellFormed.lean ====
section
/-! DEFINITION. Which terms of Instr are instructions: field bounds and the codes that the tables of R132 to R137 give. A
device step is well formed when the units that it names exist (R15, R16, R20). -/

namespace Sys2Proof

/-- Engine queue codes (R136). -/
def isQueueCode (q : Nat) : Bool := decide (q ≤ 4 ∨ (16 ≤ q ∧ q ≤ 47))

/-- Fields of the three register numbers of a word are 7 bits (R118). -/
def r7 (n : Nat) : Bool := decide (n < 128)

/-- A look field (R120). -/
def isLook (n : Nat) : Bool := decide (n < 16)

/-- Format slots and other 3-bit fields. -/
def is3 (n : Nat) : Bool := decide (n < 8)

/-- Whether the instruction has words of its own (R118); the others are device steps. -/
def Instr.isCode : Instr → Bool
  | .iadd .. | .iaddc .. | .isub .. | .ineg .. | .iabs .. | .iminS .. | .iminN .. | .imaxS .. | .imaxN .. | .imul ..
  | .imulhS .. | .imulhN .. | .imad .. | .idivS .. | .idivN .. | .iremS .. | .iremN .. | .iand .. | .ior .. | .ixor ..
  | .inot .. | .shl .. | .shr .. | .sra .. | .rotl .. | .clz .. | .popc .. | .brev .. | .bfxS .. | .bfxN .. | .bfi ..
  | .iset .. | .mov .. | .sel .. | .movsSV .. | .movsSK .. | .movsKS .. | .movsSM .. | .movsMS .. | .lea .. | .sadd ..
  | .ssub .. | .smul .. | .sand .. | .sor .. | .sxor .. | .sshl .. | .sshr .. | .smov .. | .slea .. | .srdl .. | .sset ..
  | .fadd .. | .fsub .. | .fmul .. | .ffma .. | .fmin .. | .fmax .. | .fclass .. | .fset .. | .frcp .. | .frsq ..
  | .fsqrt .. | .fexp2 .. | .flog2 .. | .fsin .. | .fcos .. | .ftanh .. | .hadd2F16 .. | .hmul2F16 .. | .hfma2F16 ..
  | .hmax2F16 .. | .hadd2Bf16 .. | .hmul2Bf16 .. | .hfma2Bf16 .. | .hmax2Bf16 .. | .fcvt .. | .fcvtNp .. | .f2i .. | .i2f ..
  | .npack .. | .nunpack .. | .scenc .. | .scdec .. | .shfl .. | .putl .. | .vote .. | .redl .. | .scanl .. | .lpart ..
  | .bra .. | .brc .. | .call .. | .brx .. | .ret | .exit | .yield | .nop | .join .. | .leave .. | .waitm .. | .xpfx ..
  | .limm .. | .prio .. | .shint .. | .chk | .ld .. | .lda .. | .st .. | .stl .. | .lds .. | .sts .. | .ldw .. | .stw ..
  | .ldp .. | .stp .. | .atom .. | .red .. | .fenceCl | .fenceDv | .fenceSy | .fenceSv | .pref .. | .evict .. | .ckin ..
  | .rwr .. | .arvw .. | .bari .. | .bara .. | .bard .. | .barw .. | .bart .. | .bars .. | .barq .. | .push .. | .waittl ..
  | .tlrd .. | .ringp .. | .ringc .. | .ringcRel .. | .cont .. | .mma .. | .mzero .. | .mrd .. | .mwr .. | .trap .. | .tret
  | .sregr .. | .sregw .. | .waitt .. | .capq .. | .bkpt | .synci => true
  | _ => false

/-- Barrier operands: an immediate is at most 47 (R135). -/
def barOk (x : Bool) (a : Nat) : Bool := r7 a && (!x || decide (a ≤ 47))

/-- Bounds of the fields of code words, and of the operands of device steps. -/
def Instr.wf : Instr → Bool
  | .iadd _ _ d a b | .iaddc _ _ d a b | .isub _ _ d a b | .iminS _ _ d a b | .iminN _ _ d a b | .imaxS _ _ d a b
  | .imaxN _ _ d a b | .imul _ _ d a b | .imulhS _ _ d a b | .imulhN _ _ d a b | .imad _ _ d a b | .idivS _ _ d a b
  | .idivN _ _ d a b | .iremS _ _ d a b | .iremN _ _ d a b | .iand _ _ d a b | .ior _ _ d a b | .ixor _ _ d a b
  | .shl _ _ d a b | .shr _ _ d a b | .sra _ _ d a b | .rotl _ _ d a b | .bfxS _ _ d a b | .bfxN _ _ d a b
  | .bfi _ _ d a b | .iset _ _ _ d a b | .sel _ _ d a b | .lea _ _ d a b | .sadd d a b | .ssub d a b | .smul d a b
  | .sand d a b | .sor d a b | .sxor d a b | .sshl d a b | .sshr d a b | .slea d a b | .srdl d a b | .sset _ d a b
  | .fadd _ d a b | .fsub _ d a b | .fmul _ d a b | .ffma _ d a b | .fmin _ d a b | .fmax _ d a b | .fset _ _ d a b
  | .hadd2F16 _ d a b | .hmul2F16 _ d a b | .hfma2F16 _ d a b | .hmax2F16 _ d a b | .hadd2Bf16 _ d a b
  | .hmul2Bf16 _ d a b | .hfma2Bf16 _ d a b | .hmax2Bf16 _ d a b | .shfl _ _ d a b | .putl _ _ d a b => r7 d && r7 a && r7 b
  | .ineg _ _ d a | .iabs _ _ d a | .inot _ _ d a | .clz _ _ d a | .popc _ _ d a | .brev _ _ d a | .mov _ _ d a
  | .movsSV d a | .movsSK d a | .movsKS d a | .movsSM d a | .movsMS d a | .smov d a | .fclass _ d a | .frcp _ d a
  | .frsq _ d a | .fsqrt _ d a | .fexp2 _ d a | .flog2 _ d a | .fsin _ d a | .fcos _ d a | .ftanh _ d a | .fcvt _ _ d a
  | .f2i _ _ d a | .i2f _ _ d a | .vote _ d a | .redl _ _ d a | .scanl _ _ d a => r7 d && r7 a
  | .fcvtNp _ d a slot | .npack d a slot | .nunpack d a slot | .scenc _ d a slot | .scdec _ d a slot =>
    r7 d && r7 a && is3 slot
  | .lpart c => is3 c
  | .bra off | .call off => decide (off < 2 ^ 21)
  | .brc m _ off => decide (m < 16) && decide (off < 2 ^ 21)
  | .brx a => r7 a
  | .join d | .leave d | .waitm d | .waitt d | .capq d => r7 d
  | .xpfx _ _ f4 _ rm _ m => r7 f4 && is3 rm && decide (m < 16)
  | .limm _ v => decide (v < 2 ^ 16)
  | .prio p => decide (p < 2 ^ 16)
  | .shint c => decide (c < 4)
  | .ld l _ d a _ _ | .lda l _ d a _ _ | .st l _ d a _ _ | .lds l _ d a _ | .sts l _ d a _ | .ldw l _ d a _
  | .stw l _ d a _ | .ldp l _ d a _ | .stp l _ d a _ => isLook l && r7 d && r7 a
  | .stl _ d a _ _ => r7 d && r7 a
  | .atom l d a p w o =>
    isLook l && r7 d && r7 a && !(w && o == .fadd) && !((p == .far || p == .cl) && l != 0)
  | .red l d a _ w o => isLook l && r7 d && r7 a && !(w && o == .fadd) && o != .cas
  | .pref l _ a _ | .evict l _ a _ | .ckin l _ a => isLook l && r7 a
  | .rwr d a m => r7 d && r7 a && is3 m
  | .arvw l d a => isLook l && r7 d && decide (a < 16)
  | .bari x d a | .bart x d a | .barq x d a => r7 d && barOk x a
  | .bara x a | .bard x a | .barw x a | .bars x a => barOk x a
  | .push _ p f a => decide (p < 16) && is3 f && isQueueCode a
  | .waittl d a | .tlrd d a => r7 d && isQueueCode a
  | .ringp _ a r | .ringc _ a r | .ringcRel _ a r => r7 a && is3 r
  | .cont d a => r7 d && r7 a
  | .mma l _ n a slot => isLook l && is3 n && r7 a && is3 slot
  | .mzero l n => isLook l && is3 n
  | .mrd l d n | .mwr l d n => isLook l && r7 d && is3 n
  | .trap _ c => r7 c
  | .sregr _ d a | .sregw d a => r7 d && decide (a ≤ 20)
  | .chunkReady core slot | .loadReturn core slot | .fenceWaitEnd core slot | .contRoomReserve core slot
  | .debugResume core slot | .activeSetLeave core slot | .yieldDemotionEnd core slot
  | .waittWake core slot | .requestResend core slot => decide (core < 384) && decide (slot < 32)
  | .signatureBroadcast core | .mmaRetire core _ => decide (core < 384)
  | .barrierEvent core bar _ | .barrierRelease core bar => decide (core < 384) && decide (bar < 48)
  | .commitBatch part | .differenceApply part | .kernelDispatch part | .xfaultRecordWrite part =>
    decide (part < 8)
  | .migrationComplete die
  | .tdnextWrite die _ | .tdstatDiscClear die _ | .mcskipClear die _ | .lperiodWrite die _ | .xflgWrite die _
  | .xfheadWrite die _ | .captureClear die _ | .registerWrite die _ _ _ | .gathererTimeout die _ _
  | .watchdogExpiry die _ => decide (die < 4)
  | .tailWrite q | .nodeFetch q => decide (q < 1024)
  | .linkLock l | .trainingTimeout l | .trainingRetry l | .retrainTimeout l => decide (l < 20)
  | .flitReplay l | .lockLoss l => decide (l < 100)
  | .leaseDue u | .leaseTestingStart u | .patternComplete u _ | .patrolComplete u _ | .rowRepair u _ =>
    decide (u < 65536)
  | _ => true

end Sys2Proof
end

