-- ==== Sys2Proof/Decode.lean ====
section
/-! DEFINITION. The decoder of one code word (R117 to R138) and, after it, the encoder of the same tables. Checks that need the
sequence, the launch record or a register value are made at issue. -/

namespace Sys2Proof

open Machine (field bitAt)

/-- The answer of the decoder: an instruction, or the reason of R138. -/
inductive Decoded
  | ok (i : Instr)
  | bad (r : IllReason)
deriving DecidableEq, Repr

/-- The fields of R118 below the major: code fn or look, bit t or x, and three 7-bit fields. -/
structure Fields where
  fn : Nat
  t : Bool
  d : Nat
  a : Nat
  b : Nat
deriving DecidableEq, Repr

/-- The fields of a word (R118). -/
def fieldsOf (w : Nat) : Fields :=
  { fn := field w 25 22, t := bitAt w 21, d := field w 20 14, a := field w 13 7, b := field w 6 0 }

/-- The instruction if the condition on res fields holds, else reason 3. -/
def orRes (c : Bool) (i : Instr) : Decoded := if c then .ok i else .bad .resField

/-- The instruction if the condition on codes holds, else reason 2. -/
def orCode (c : Bool) (d : Decoded) : Decoded := if c then d else .bad .code

/-- Reason 8 when look is nonzero on a word that ends a Chunk. -/
def orLook (l : Nat) (d : Decoded) : Decoded := if l = 0 then d else .bad .look

/-- Integer condition codes (R132). -/
def icondOf : Nat → Option ICond
  | 0 => some .eq | 1 => some .ne | 2 => some .ltS | 3 => some .leS | 4 => some .gtS | 5 => some .geS
  | 6 => some .ltN | 7 => some .leN | 8 => some .gtN | 9 => some .geN | _ => none

def icondCode : ICond → Nat
  | .eq => 0 | .ne => 1 | .ltS => 2 | .leS => 3 | .gtS => 4 | .geS => 5 | .ltN => 6 | .leN => 7 | .gtN => 8 | .geN => 9

/-- Float condition codes (R132). -/
def fcondOf : Nat → Option FCond
  | 0 => some .eq | 1 => some .ne | 2 => some .lt | 3 => some .le | 4 => some .gt | 5 => some .ge | 6 => some .un
  | 7 => some .ord | _ => none

def fcondCode : FCond → Nat
  | .eq => 0 | .ne => 1 | .lt => 2 | .le => 3 | .gt => 4 | .ge => 5 | .un => 6 | .ord => 7

/-- Integer type codes (R132). -/
def intTyOf : Nat → IntTy
  | 0 => .s8 | 1 => .s16 | 2 => .s32 | 3 => .s64 | 4 => .n8 | 5 => .n16 | 6 => .n32 | _ => .n64

def intTyCode : IntTy → Nat
  | .s8 => 0 | .s16 => 1 | .s32 => 2 | .s64 => 3 | .n8 => 4 | .n16 => 5 | .n32 => 6 | .n64 => 7

/-- FCVT fn 0 to 5 (R132). -/
def fcvtOf : Nat → Option FcvtKind
  | 0 => some .f16F32 | 1 => some .bf16F32 | 2 => some .f32F16 | 3 => some .f32Bf16 | 4 => some .bf16F16
  | 5 => some .f16Bf16 | _ => none

def fcvtCode : FcvtKind → Nat
  | .f16F32 => 0 | .bf16F32 => 1 | .f32F16 => 2 | .f32Bf16 => 3 | .bf16F16 => 4 | .f16Bf16 => 5

/-- REDL and SCANL codes (R132). -/
def redOf : Nat → Option RedOp
  | 0 => some .add | 1 => some .minS | 2 => some .minN | 3 => some .maxS | 4 => some .maxN | 5 => some .and | 6 => some .or
  | 8 => some .fadd | 9 => some .fmin | 10 => some .fmax | _ => none

def redCode : RedOp → Nat
  | .add => 0 | .minS => 1 | .minN => 2 | .maxS => 3 | .maxN => 4 | .and => 5 | .or => 6 | .fadd => 8 | .fmin => 9 | .fmax => 10

def shflOf : Nat → Option ShflMode
  | 0 => some .idx | 1 => some .up | 2 => some .down | 3 => some .xor | _ => none

def shflCode : ShflMode → Nat
  | .idx => 0 | .up => 1 | .down => 2 | .xor => 3

def voteOf : Nat → Option VoteMode
  | 0 => some .any | 1 => some .all | 2 => some .bal | 3 => some .eq | _ => none

def voteCode : VoteMode → Nat
  | .any => 0 | .all => 1 | .bal => 2 | .eq => 3

/-- Scopes and sizes of R133. -/
def scopeOf : Nat → Option Scope
  | 0 => some .dv | 1 => some .cl | 2 => some .sy | _ => none

def scopeCode : Scope → Nat
  | .dv => 0 | .cl => 1 | .sy => 2

def sizeOf7 : Nat → Option Size
  | 0 => some .b8 | 1 => some .b16 | 2 => some .b32 | 3 => some .b64 | 4 => some .b128 | _ => none

def sizeCode : Size → Nat
  | .b8 => 0 | .b16 => 1 | .b32 => 2 | .b64 => 3 | .b128 => 4

/-- Atomic operations and placements of R134. -/
def atomOf : Nat → Option AtomOp
  | 0 => some .add | 1 => some .sub | 2 => some .minS | 3 => some .maxS | 4 => some .minN | 5 => some .maxN | 6 => some .and
  | 7 => some .or | 8 => some .xor | 9 => some .xch | 10 => some .cas | 11 => some .fadd | _ => none

def atomCode : AtomOp → Nat
  | .add => 0 | .sub => 1 | .minS => 2 | .maxS => 3 | .minN => 4 | .maxN => 5 | .and => 6 | .or => 7 | .xor => 8 | .xch => 9
  | .cas => 10 | .fadd => 11

def placeOf : Nat → Place
  | 0 => .auto | 1 => .near | 2 => .far | _ => .cl

def placeCode : Place → Nat
  | .auto => 0 | .near => 1 | .far => 2 | .cl => 3

/-- Levels of R213. -/
def levelOf : Nat → Option Level
  | 0 => some .l1 | 1 => some .l2 | 2 => some .mc | _ => none

def levelCode : Level → Nat
  | .l1 => 0 | .l2 => 1 | .mc => 2

/-- Activation types of R136. -/
def actOf : Nat → Act
  | 0 => .s8 | 1 => .n8 | 2 => .bf16 | _ => .f16

def actCode : Act → Nat
  | .s8 => 0 | .n8 => 1 | .bf16 => 2 | .f16 => 3

/-- An optional code, or reason 2. -/
def withCode {α : Type} (o : Option α) (k : α → Decoded) : Decoded :=
  match o with
  | some x => k x
  | none => .bad .code

/-- Majors 0x00 and 0x01. -/
def decAdd (w : Bool) (f : Fields) : Decoded :=
  match f.fn with
  | 0 => .ok (.iadd w f.t f.d f.a f.b)
  | 1 => .ok (.iaddc w f.t f.d f.a f.b)
  | 2 => .ok (.isub w f.t f.d f.a f.b)
  | 3 => orRes (f.b == 0) (.ineg w f.t f.d f.a)
  | 4 => orRes (f.b == 0) (.iabs w f.t f.d f.a)
  | 5 => .ok (.iminS w f.t f.d f.a f.b)
  | 6 => .ok (.iminN w f.t f.d f.a f.b)
  | 7 => .ok (.imaxS w f.t f.d f.a f.b)
  | 8 => .ok (.imaxN w f.t f.d f.a f.b)
  | _ => .bad .code

/-- Majors 0x02 and 0x03. -/
def decMul (w : Bool) (f : Fields) : Decoded :=
  match f.fn with
  | 0 => .ok (.imul w f.t f.d f.a f.b)
  | 1 => .ok (.imulhS w f.t f.d f.a f.b)
  | 2 => .ok (.imulhN w f.t f.d f.a f.b)
  | 3 => .ok (.imad w f.t f.d f.a f.b)
  | 4 => .ok (.idivS w f.t f.d f.a f.b)
  | 5 => .ok (.idivN w f.t f.d f.a f.b)
  | 6 => .ok (.iremS w f.t f.d f.a f.b)
  | 7 => .ok (.iremN w f.t f.d f.a f.b)
  | _ => .bad .code

/-- Majors 0x04 and 0x05. -/
def decLogic (w : Bool) (f : Fields) : Decoded :=
  match f.fn with
  | 0 => .ok (.iand w f.t f.d f.a f.b)
  | 1 => .ok (.ior w f.t f.d f.a f.b)
  | 2 => .ok (.ixor w f.t f.d f.a f.b)
  | 3 => orRes (f.b == 0) (.inot w f.t f.d f.a)
  | 4 => .ok (.shl w f.t f.d f.a f.b)
  | 5 => .ok (.shr w f.t f.d f.a f.b)
  | 6 => .ok (.sra w f.t f.d f.a f.b)
  | 7 => .ok (.rotl w f.t f.d f.a f.b)
  | _ => .bad .code

/-- Majors 0x06 and 0x07. -/
def decBits (w : Bool) (f : Fields) : Decoded :=
  match f.fn with
  | 0 => orRes (f.b == 0) (.clz w f.t f.d f.a)
  | 1 => orRes (f.b == 0) (.popc w f.t f.d f.a)
  | 2 => orRes (f.b == 0) (.brev w f.t f.d f.a)
  | 3 => .ok (.bfxS w f.t f.d f.a f.b)
  | 4 => .ok (.bfxN w f.t f.d f.a f.b)
  | 5 => .ok (.bfi w f.t f.d f.a f.b)
  | _ => .bad .code

/-- Major 0x0A. -/
def decMov (f : Fields) : Decoded :=
  match f.fn with
  | 0 => orRes (f.b == 0) (.mov false f.t f.d f.a)
  | 1 => orRes (f.b == 0 && !f.t) (.movsSV f.d f.a)
  | 2 => orRes (f.b == 0 && !f.t) (.movsSK f.d f.a)
  | 3 => orRes (f.b == 0 && !f.t) (.movsKS f.d f.a)
  | 4 => orRes (f.b == 0 && !f.t) (.movsSM f.d f.a)
  | 5 => orRes (f.b == 0 && !f.t) (.movsMS f.d f.a)
  | 6 => .ok (.sel false f.t f.d f.a f.b)
  | 7 => .ok (.lea .x1 f.t f.d f.a f.b)
  | 8 => .ok (.lea .x2 f.t f.d f.a f.b)
  | 9 => .ok (.lea .x4 f.t f.d f.a f.b)
  | 10 => .ok (.lea .x8 f.t f.d f.a f.b)
  | _ => .bad .code

/-- Major 0x0B. -/
def decMovW (f : Fields) : Decoded :=
  match f.fn with
  | 0 => orRes (f.b == 0) (.mov true f.t f.d f.a)
  | 6 => .ok (.sel true f.t f.d f.a f.b)
  | _ => .bad .code

/-- Major 0x0C. -/
def decScalar (f : Fields) : Decoded :=
  match f.fn with
  | 0 => orRes (!f.t) (.sadd f.d f.a f.b)
  | 1 => orRes (!f.t) (.ssub f.d f.a f.b)
  | 2 => orRes (!f.t) (.smul f.d f.a f.b)
  | 3 => orRes (!f.t) (.sand f.d f.a f.b)
  | 4 => orRes (!f.t) (.sor f.d f.a f.b)
  | 5 => orRes (!f.t) (.sxor f.d f.a f.b)
  | 6 => orRes (!f.t) (.sshl f.d f.a f.b)
  | 7 => orRes (!f.t) (.sshr f.d f.a f.b)
  | 8 => orRes (f.b == 0 && !f.t) (.smov f.d f.a)
  | 9 => orRes (!f.t) (.slea f.d f.a f.b)
  | 10 => orRes (!f.t) (.srdl f.d f.a f.b)
  | _ => .bad .code

/-- Major 0x10. -/
def decFloat (f : Fields) : Decoded :=
  match f.fn with
  | 0 => .ok (.fadd f.t f.d f.a f.b)
  | 1 => .ok (.fsub f.t f.d f.a f.b)
  | 2 => .ok (.fmul f.t f.d f.a f.b)
  | 3 => .ok (.ffma f.t f.d f.a f.b)
  | 4 => .ok (.fmin f.t f.d f.a f.b)
  | 5 => .ok (.fmax f.t f.d f.a f.b)
  | 6 => orRes (f.b == 0) (.fclass f.t f.d f.a)
  | _ => .bad .code

/-- Major 0x12. -/
def decSpecial (f : Fields) : Decoded :=
  match f.fn with
  | 0 => orRes (f.b == 0) (.frcp f.t f.d f.a)
  | 1 => orRes (f.b == 0) (.frsq f.t f.d f.a)
  | 2 => orRes (f.b == 0) (.fsqrt f.t f.d f.a)
  | 3 => orRes (f.b == 0) (.fexp2 f.t f.d f.a)
  | 4 => orRes (f.b == 0) (.flog2 f.t f.d f.a)
  | 5 => orRes (f.b == 0) (.fsin f.t f.d f.a)
  | 6 => orRes (f.b == 0) (.fcos f.t f.d f.a)
  | 7 => orRes (f.b == 0) (.ftanh f.t f.d f.a)
  | _ => .bad .code

/-- Major 0x13. -/
def decHalf (f : Fields) : Decoded :=
  match f.fn with
  | 0 => .ok (.hadd2F16 f.t f.d f.a f.b)
  | 1 => .ok (.hmul2F16 f.t f.d f.a f.b)
  | 2 => .ok (.hfma2F16 f.t f.d f.a f.b)
  | 3 => .ok (.hmax2F16 f.t f.d f.a f.b)
  | _ => .bad .code

/-- Major 0x14. -/
def decBf (f : Fields) : Decoded :=
  match f.fn with
  | 0 => .ok (.hadd2Bf16 f.t f.d f.a f.b)
  | 1 => .ok (.hmul2Bf16 f.t f.d f.a f.b)
  | 2 => .ok (.hfma2Bf16 f.t f.d f.a f.b)
  | 3 => .ok (.hmax2Bf16 f.t f.d f.a f.b)
  | _ => .bad .code

/-- Major 0x20: FCVT, with the slot forms fn 6 and 7. -/
def decFcvt (f : Fields) : Decoded :=
  match f.fn with
  | 6 => orRes (f.b / 8 == 0 && !f.t) (.fcvtNp false f.d f.a (f.b % 8))
  | 7 => orRes (f.b / 8 == 0 && !f.t) (.fcvtNp true f.d f.a (f.b % 8))
  | n => withCode (fcvtOf n) fun c => orRes (f.b == 0) (.fcvt c f.t f.d f.a)

/-- Major 0x23. -/
def decPlane (f : Fields) : Decoded :=
  match f.fn with
  | 0 => orRes (f.b / 8 == 0 && !f.t) (.npack f.d f.a (f.b % 8))
  | 1 => orRes (f.b / 8 == 0 && !f.t) (.nunpack f.d f.a (f.b % 8))
  | _ => .bad .code

/-- Major 0x24. -/
def decScale (f : Fields) : Decoded :=
  match f.fn with
  | 0 => orRes (f.b / 8 == 0) (.scenc f.t f.d f.a (f.b % 8))
  | 1 => orRes (f.b / 8 == 0) (.scdec f.t f.d f.a (f.b % 8))
  | _ => .bad .code

/-- Major 0x33. -/
def decCtl (f : Fields) : Decoded :=
  match f.fn with
  | 0 => orRes (f.b == 0 && f.d == 0 && !f.t) (.brx f.a)
  | 1 => orRes (f.b == 0 && f.a == 0 && f.d == 0 && !f.t) .ret
  | 2 => orRes (f.b == 0 && f.a == 0 && f.d == 0 && !f.t) .exit
  | 3 => orRes (f.b == 0 && f.a == 0 && f.d == 0 && !f.t) .yield
  | 4 => orRes (f.b == 0 && f.a == 0 && f.d == 0 && !f.t) .nop
  | _ => .bad .code

/-- Major 0x34. -/
def decMask (f : Fields) : Decoded :=
  match f.fn with
  | 0 => orRes (f.b == 0 && f.a == 0 && !f.t) (.join f.d)
  | 1 => orRes (f.b == 0 && f.a == 0 && !f.t) (.leave f.d)
  | 2 => orRes (f.b == 0 && f.a == 0 && !f.t) (.waitm f.d)
  | _ => .bad .code

/-- Majors 0x38 and 0x39 (R133): z[6] res, z[5] acquire or release, scope, size. -/
def decGlobal (st : Bool) (f : Fields) : Decoded :=
  withCode (scopeOf (f.b / 8 % 4)) fun c => withCode (sizeOf7 (f.b % 8)) fun z =>
    match st, bitAt f.b 5 with
    | false, false => orRes (f.b / 64 == 0) (.ld f.fn f.t f.d f.a c z)
    | false, true => orRes (f.b / 64 == 0) (.lda f.fn f.t f.d f.a c z)
    | true, false => orRes (f.b / 64 == 0) (.st f.fn f.t f.d f.a c z)
    | true, true => if f.b / 64 == 0 then orLook f.fn (.ok (.stl f.t f.d f.a c z)) else .bad .resField

/-- Major 0x3A (R202). -/
def decLocal (f : Fields) : Decoded :=
  withCode (sizeOf7 (f.b % 8)) fun z =>
    match f.b / 8 % 8 with
    | 0 => orRes (f.b / 64 == 0) (.lds f.fn f.t f.d f.a z)
    | 1 => orRes (f.b / 64 == 0) (.sts f.fn f.t f.d f.a z)
    | 2 => orRes (f.b / 64 == 0) (.ldw f.fn f.t f.d f.a z)
    | 3 => orRes (f.b / 64 == 0) (.stw f.fn f.t f.d f.a z)
    | 4 => orRes (f.b / 64 == 0) (.ldp f.fn f.t f.d f.a z)
    | 5 => orRes (f.b / 64 == 0) (.stp f.fn f.t f.d f.a z)
    | _ => .bad .code

/-- Major 0x3B (R134, R208). -/
def decAtom (f : Fields) : Decoded :=
  withCode (atomOf (f.b % 16)) fun o =>
    let p := placeOf (f.b / 32)
    let w := bitAt f.b 4
    if w && o == .fadd then .bad .code
    else if f.t then orCode (o != .cas) (.ok (.red f.fn f.d f.a p w o))
    else if (p == .far || p == .cl) && f.fn != 0 then .bad .look
    else .ok (.atom f.fn f.d f.a p w o)

/-- A Barrier word: an immediate above 47 has reason 2 (R135). -/
def decBar (f : Fields) (resOk : Bool) (i : Instr) : Decoded :=
  orCode (!f.t || decide (f.a ≤ 47)) (if resOk then orLook f.fn (.ok i) else .bad .resField)

/-- Major 0x3C (R135, R211 to R217): sub z[6:3], mod z[2:0]. A nonzero mod where the table gives 0 has reason 2 for CKIN and reason 3 for
ARVW and the Barriers (log 26). -/
def decCache (f : Fields) : Decoded :=
  let m := f.b % 8
  match f.b / 8 with
  | 0 =>
    let go (i : Instr) : Decoded := if !f.t && f.d == 0 && f.a == 0 then orLook f.fn (.ok i) else .bad .resField
    match m with
    | 0 => go .fenceCl
    | 1 => go .fenceDv
    | 2 => go .fenceSy
    | 3 => go .fenceSv
    | _ => .bad .code
  | 1 => withCode (levelOf m) fun v => orRes (f.d == 0) (.pref f.fn f.t f.a v)
  | 2 => withCode (levelOf m) fun v => orRes (f.d == 0) (.evict f.fn f.t f.a v)
  | 3 => orCode (m == 0) (orRes (f.d == 0) (.ckin f.fn f.t f.a))
  | 4 => if f.t then .bad .resField else orLook f.fn (.ok (.rwr f.d f.a m))
  | 5 => orCode (decide (f.a < 16)) (orRes (!f.t && m == 0) (.arvw f.fn f.d f.a))
  | 6 => decBar f (m == 0) (.bari f.t f.d f.a)
  | 7 => decBar f (m == 0 && f.d == 0) (.bara f.t f.a)
  | 8 => decBar f (m == 0 && f.d == 0) (.bard f.t f.a)
  | 9 => decBar f (m == 0 && f.d == 0) (.barw f.t f.a)
  | 10 => decBar f (m == 0) (.bart f.t f.d f.a)
  | 11 => decBar f (m == 0 && f.d == 0) (.bars f.t f.a)
  | 12 => decBar f (m == 0) (.barq f.t f.d f.a)
  | _ => .bad .code

/-- Major 0x3D (R136, R222, R250 to R255). A nonzero mod where the table gives 0 has reason 3 (log 26). -/
def decEngine (f : Fields) : Decoded :=
  let m := f.b % 8
  match f.b / 8 with
  | 0 => orCode (isQueueCode f.a) (if m == 0 then orLook f.fn (.ok (.push f.t (f.d / 8) (f.d % 8) f.a)) else .bad .resField)
  | 1 => orCode (isQueueCode f.a) (orRes (m == 0 && !f.t && f.fn == 0) (.waittl f.d f.a))
  | 2 => orCode (isQueueCode f.a) (orRes (m == 0 && !f.t && f.fn == 0) (.tlrd f.d f.a))
  | 3 => orRes (f.d == 0 && f.fn == 0) (.ringp f.t f.a m)
  | 4 => if f.d == 0 then orRes (f.fn == 0) (.ringc f.t f.a m) else orRes (f.d == 1 && f.fn == 0) (.ringcRel f.t f.a m)
  | 5 => if m == 0 && !f.t then orLook f.fn (.ok (.cont f.d f.a)) else .bad .resField
  | 6 => orRes (!f.t && f.d / 64 == 0 && !bitAt f.d 3) (.mma f.fn (actOf (f.d / 16 % 4)) (f.d % 8) f.a m)
  | 7 => orRes (m == 0 && !f.t && f.d / 8 == 0 && f.a == 0) (.mzero f.fn (f.d % 8))
  | 8 => orRes (m == 0 && !f.t && f.a / 8 == 0) (.mrd f.fn f.d (f.a % 8))
  | 9 => orRes (m == 0 && !f.t && f.a / 8 == 0) (.mwr f.fn f.d (f.a % 8))
  | _ => .bad .code

/-- Major 0x3E (R137, R256): look and mod are res. -/
def decSystem (f : Fields) : Decoded :=
  let r := f.fn == 0 && f.b % 8 == 0
  match f.b / 8 with
  | 0 => orRes (r && f.d == 0) (.trap f.t f.a)
  | 1 => orRes (r && f.d == 0 && f.a == 0 && !f.t) .tret
  | 2 => orCode (decide (f.a ≤ 20)) (orRes r (.sregr f.t f.d f.a))
  | 3 => orCode (decide (f.a ≤ 20)) (orRes (r && !f.t) (.sregw f.d f.a))
  | 4 => orRes (r && f.a == 0 && !f.t) (.waitt f.d)
  | 5 => orRes (r && f.a == 0 && !f.t) (.capq f.d)
  | 6 => orRes (r && f.d == 0 && f.a == 0 && !f.t) .bkpt
  | 7 => orRes (r && f.d == 0 && f.a == 0 && !f.t) .synci
  | _ => .bad .code

/-- Major 0x3F: hint words (R123 to R129). -/
def decHint (w : Nat) : Decoded :=
  match field w 25 23 with
  | 0 => orRes (field w 22 18 == 0)
      (.xpfx (bitAt w 17) (bitAt w 16) (field w 15 9) (bitAt w 8) (field w 7 5) (bitAt w 4) (field w 3 0))
  | 1 => orRes (field w 22 17 == 0) (.limm (bitAt w 16) (field w 15 0))
  | 2 => orRes (field w 22 16 == 0) (.prio (field w 15 0))
  | 3 =>
    if field w 22 4 == 0 then (if field w 3 0 < 4 then .ok (.shint (field w 3 0)) else .bad .hintKind) else .bad .resField
  | 4 => orRes (field w 22 0 == 0) .chk
  | _ => .bad .hintKind

/-- One code word: the instruction, or the reason of R138. -/
def decode (w : Nat) : Decoded :=
  let f := fieldsOf w
  match field w 31 26 with
  | 0x00 => decAdd false f
  | 0x01 => decAdd true f
  | 0x02 => decMul false f
  | 0x03 => decMul true f
  | 0x04 => decLogic false f
  | 0x05 => decLogic true f
  | 0x06 => decBits false f
  | 0x07 => decBits true f
  | 0x08 => withCode (icondOf f.fn) fun c => .ok (.iset false c f.t f.d f.a f.b)
  | 0x09 => withCode (icondOf f.fn) fun c => .ok (.iset true c f.t f.d f.a f.b)
  | 0x0A => decMov f
  | 0x0B => decMovW f
  | 0x0C => decScalar f
  | 0x0D => withCode (icondOf f.fn) fun c => orRes (!f.t) (.sset c f.d f.a f.b)
  | 0x10 => decFloat f
  | 0x11 => withCode (fcondOf f.fn) fun c => .ok (.fset c f.t f.d f.a f.b)
  | 0x12 => decSpecial f
  | 0x13 => decHalf f
  | 0x14 => decBf f
  | 0x20 => decFcvt f
  | 0x21 => orRes (f.fn / 8 == 0 && f.b == 0) (.f2i (intTyOf (f.fn % 8)) f.t f.d f.a)
  | 0x22 => orRes (f.fn / 8 == 0 && f.b == 0) (.i2f (intTyOf (f.fn % 8)) f.t f.d f.a)
  | 0x23 => decPlane f
  | 0x24 => decScale f
  | 0x28 => withCode (shflOf f.fn) fun c => .ok (.shfl c f.t f.d f.a f.b)
  | 0x29 => orCode (decide (f.fn < 2)) (.ok (.putl (f.fn == 1) f.t f.d f.a f.b))
  | 0x2A => withCode (voteOf f.fn) fun c => orRes (!f.t && f.b == 0) (.vote c f.d f.a)
  | 0x2B => withCode (redOf f.fn) fun c => orRes (f.b == 0) (.redl c f.t f.d f.a)
  | 0x2C => withCode (redOf f.fn) fun c => orRes (f.b == 0) (.scanl c f.t f.d f.a)
  | 0x2D => orCode (f.fn == 0) (orRes (!f.t && f.d == 0 && f.a == 0 && f.b / 8 == 0) (.lpart (f.b % 8)))
  | 0x30 => orRes (f.fn == 0 && !f.t) (.bra (field w 20 0))
  | 0x31 => .ok (.brc f.fn f.t (field w 20 0))
  | 0x32 => orRes (f.fn == 0 && !f.t) (.call (field w 20 0))
  | 0x33 => decCtl f
  | 0x34 => decMask f
  | 0x38 => decGlobal false f
  | 0x39 => decGlobal true f
  | 0x3A => decLocal f
  | 0x3B => decAtom f
  | 0x3C => decCache f
  | 0x3D => decEngine f
  | 0x3E => decSystem f
  | 0x3F => decHint w
  | _ => .bad .major

/-- The decoder on the bytes of a word, lowest address first (R117). A list that is no word has no instruction. -/
def decodeBytes (bs : List (BitVec 8)) : Option Decoded :=
  match bs with
  | [b0, b1, b2, b3] => some (decode (Machine.ofBytes [b0, b1, b2, b3]))
  | _ => none

/-- The instruction that the decoder reads from a row's bits: one 32-bit word, little-endian. A row without bits has none. -/
def decodeTableWord (nbits w : Nat) : Option Instr :=
  if nbits = 32 then
    match decodeBytes (Machine.toBytes 4 w) with
    | some (.ok i) => some i
    | _ => none
  else none

/-- A word of the R or L format from its fields (R118). -/
def word (major fn : Nat) (t : Bool) (d a b : Nat) : Nat :=
  ((((major * 16 + fn) * 2 + t.toNat) * 128 + d) * 128 + a) * 128 + b

/-- A word of the B format (R118). -/
def wordB (major mask : Nat) (neg : Bool) (off : Nat) : Nat := ((major * 16 + mask) * 2 + neg.toNat) * 2 ^ 21 + off

/-- A word of the H format (R118). -/
def wordH (kind payload : Nat) : Nat := (0x3F * 8 + kind) * 2 ^ 23 + payload

/-- The word of a well-formed instruction (R117 to R137). A device step has none. -/
def encode : Instr → Option Nat
  | .iadd w t d a b => some (word (0x00 + w.toNat) 0 t d a b)
  | .iaddc w t d a b => some (word (0x00 + w.toNat) 1 t d a b)
  | .isub w t d a b => some (word (0x00 + w.toNat) 2 t d a b)
  | .ineg w t d a => some (word (0x00 + w.toNat) 3 t d a 0)
  | .iabs w t d a => some (word (0x00 + w.toNat) 4 t d a 0)
  | .iminS w t d a b => some (word (0x00 + w.toNat) 5 t d a b)
  | .iminN w t d a b => some (word (0x00 + w.toNat) 6 t d a b)
  | .imaxS w t d a b => some (word (0x00 + w.toNat) 7 t d a b)
  | .imaxN w t d a b => some (word (0x00 + w.toNat) 8 t d a b)
  | .imul w t d a b => some (word (0x02 + w.toNat) 0 t d a b)
  | .imulhS w t d a b => some (word (0x02 + w.toNat) 1 t d a b)
  | .imulhN w t d a b => some (word (0x02 + w.toNat) 2 t d a b)
  | .imad w t d a b => some (word (0x02 + w.toNat) 3 t d a b)
  | .idivS w t d a b => some (word (0x02 + w.toNat) 4 t d a b)
  | .idivN w t d a b => some (word (0x02 + w.toNat) 5 t d a b)
  | .iremS w t d a b => some (word (0x02 + w.toNat) 6 t d a b)
  | .iremN w t d a b => some (word (0x02 + w.toNat) 7 t d a b)
  | .iand w t d a b => some (word (0x04 + w.toNat) 0 t d a b)
  | .ior w t d a b => some (word (0x04 + w.toNat) 1 t d a b)
  | .ixor w t d a b => some (word (0x04 + w.toNat) 2 t d a b)
  | .inot w t d a => some (word (0x04 + w.toNat) 3 t d a 0)
  | .shl w t d a b => some (word (0x04 + w.toNat) 4 t d a b)
  | .shr w t d a b => some (word (0x04 + w.toNat) 5 t d a b)
  | .sra w t d a b => some (word (0x04 + w.toNat) 6 t d a b)
  | .rotl w t d a b => some (word (0x04 + w.toNat) 7 t d a b)
  | .clz w t d a => some (word (0x06 + w.toNat) 0 t d a 0)
  | .popc w t d a => some (word (0x06 + w.toNat) 1 t d a 0)
  | .brev w t d a => some (word (0x06 + w.toNat) 2 t d a 0)
  | .bfxS w t d a b => some (word (0x06 + w.toNat) 3 t d a b)
  | .bfxN w t d a b => some (word (0x06 + w.toNat) 4 t d a b)
  | .bfi w t d a b => some (word (0x06 + w.toNat) 5 t d a b)
  | .iset w c t d a b => some (word (0x08 + w.toNat) (icondCode c) t d a b)
  | .mov w t d a => some (word (0x0A + w.toNat) 0 t d a 0)
  | .sel w t d a b => some (word (0x0A + w.toNat) 6 t d a b)
  | .movsSV d a => some (word 0x0A 1 false d a 0)
  | .movsSK d a => some (word 0x0A 2 false d a 0)
  | .movsKS d a => some (word 0x0A 3 false d a 0)
  | .movsSM d a => some (word 0x0A 4 false d a 0)
  | .movsMS d a => some (word 0x0A 5 false d a 0)
  | .lea .x1 t d a b => some (word 0x0A 7 t d a b)
  | .lea .x2 t d a b => some (word 0x0A 8 t d a b)
  | .lea .x4 t d a b => some (word 0x0A 9 t d a b)
  | .lea .x8 t d a b => some (word 0x0A 10 t d a b)
  | .sadd d a b => some (word 0x0C 0 false d a b)
  | .ssub d a b => some (word 0x0C 1 false d a b)
  | .smul d a b => some (word 0x0C 2 false d a b)
  | .sand d a b => some (word 0x0C 3 false d a b)
  | .sor d a b => some (word 0x0C 4 false d a b)
  | .sxor d a b => some (word 0x0C 5 false d a b)
  | .sshl d a b => some (word 0x0C 6 false d a b)
  | .sshr d a b => some (word 0x0C 7 false d a b)
  | .smov d a => some (word 0x0C 8 false d a 0)
  | .slea d a b => some (word 0x0C 9 false d a b)
  | .srdl d a b => some (word 0x0C 10 false d a b)
  | .sset c d a b => some (word 0x0D (icondCode c) false d a b)
  | .fadd t d a b => some (word 0x10 0 t d a b)
  | .fsub t d a b => some (word 0x10 1 t d a b)
  | .fmul t d a b => some (word 0x10 2 t d a b)
  | .ffma t d a b => some (word 0x10 3 t d a b)
  | .fmin t d a b => some (word 0x10 4 t d a b)
  | .fmax t d a b => some (word 0x10 5 t d a b)
  | .fclass t d a => some (word 0x10 6 t d a 0)
  | .fset c t d a b => some (word 0x11 (fcondCode c) t d a b)
  | .frcp t d a => some (word 0x12 0 t d a 0)
  | .frsq t d a => some (word 0x12 1 t d a 0)
  | .fsqrt t d a => some (word 0x12 2 t d a 0)
  | .fexp2 t d a => some (word 0x12 3 t d a 0)
  | .flog2 t d a => some (word 0x12 4 t d a 0)
  | .fsin t d a => some (word 0x12 5 t d a 0)
  | .fcos t d a => some (word 0x12 6 t d a 0)
  | .ftanh t d a => some (word 0x12 7 t d a 0)
  | .hadd2F16 t d a b => some (word 0x13 0 t d a b)
  | .hmul2F16 t d a b => some (word 0x13 1 t d a b)
  | .hfma2F16 t d a b => some (word 0x13 2 t d a b)
  | .hmax2F16 t d a b => some (word 0x13 3 t d a b)
  | .hadd2Bf16 t d a b => some (word 0x14 0 t d a b)
  | .hmul2Bf16 t d a b => some (word 0x14 1 t d a b)
  | .hfma2Bf16 t d a b => some (word 0x14 2 t d a b)
  | .hmax2Bf16 t d a b => some (word 0x14 3 t d a b)
  | .fcvt c t d a => some (word 0x20 (fcvtCode c) t d a 0)
  | .fcvtNp c d a slot => some (word 0x20 (6 + c.toNat) false d a slot)
  | .f2i y t d a => some (word 0x21 (intTyCode y) t d a 0)
  | .i2f y t d a => some (word 0x22 (intTyCode y) t d a 0)
  | .npack d a slot => some (word 0x23 0 false d a slot)
  | .nunpack d a slot => some (word 0x23 1 false d a slot)
  | .scenc t d a slot => some (word 0x24 0 t d a slot)
  | .scdec t d a slot => some (word 0x24 1 t d a slot)
  | .shfl c t d a b => some (word 0x28 (shflCode c) t d a b)
  | .putl c t d a b => some (word 0x29 c.toNat t d a b)
  | .vote c d a => some (word 0x2A (voteCode c) false d a 0)
  | .redl c t d a => some (word 0x2B (redCode c) t d a 0)
  | .scanl c t d a => some (word 0x2C (redCode c) t d a 0)
  | .lpart c => some (word 0x2D 0 false 0 0 c)
  | .bra off => some (wordB 0x30 0 false off)
  | .brc m neg off => some (wordB 0x31 m neg off)
  | .call off => some (wordB 0x32 0 false off)
  | .brx a => some (word 0x33 0 false 0 a 0)
  | .ret => some (word 0x33 1 false 0 0 0)
  | .exit => some (word 0x33 2 false 0 0 0)
  | .yield => some (word 0x33 3 false 0 0 0)
  | .nop => some (word 0x33 4 false 0 0 0)
  | .join d => some (word 0x34 0 false d 0 0)
  | .leave d => some (word 0x34 1 false d 0 0)
  | .waitm d => some (word 0x34 2 false d 0 0)
  | .xpfx f4s f4en f4 sat rm zero m => some (wordH 0 (((((((f4s.toNat * 2 + f4en.toNat) * 128 + f4) * 2 + sat.toNat) * 8 + rm) * 2 + zero.toNat) * 16) + m))
  | .limm hi v => some (wordH 1 (hi.toNat * 2 ^ 16 + v))
  | .prio v => some (wordH 2 v)
  | .shint c => some (wordH 3 c)
  | .chk => some (wordH 4 0)
  | .ld l x d a c z => some (word 0x38 l x d a (0 + scopeCode c * 8 + sizeCode z))
  | .lda l x d a c z => some (word 0x38 l x d a (32 + scopeCode c * 8 + sizeCode z))
  | .st l x d a c z => some (word 0x39 l x d a (0 + scopeCode c * 8 + sizeCode z))
  | .stl x d a c z => some (word 0x39 0 x d a (32 + scopeCode c * 8 + sizeCode z))
  | .lds l x d a z => some (word 0x3A l x d a (0 + sizeCode z))
  | .sts l x d a z => some (word 0x3A l x d a (8 + sizeCode z))
  | .ldw l x d a z => some (word 0x3A l x d a (16 + sizeCode z))
  | .stw l x d a z => some (word 0x3A l x d a (24 + sizeCode z))
  | .ldp l x d a z => some (word 0x3A l x d a (32 + sizeCode z))
  | .stp l x d a z => some (word 0x3A l x d a (40 + sizeCode z))
  | .atom l d a p w o => some (word 0x3B l false d a (placeCode p * 32 + w.toNat * 16 + atomCode o))
  | .red l d a p w o => some (word 0x3B l true d a (placeCode p * 32 + w.toNat * 16 + atomCode o))
  | .fenceCl => some (word 0x3C 0 false 0 0 0)
  | .fenceDv => some (word 0x3C 0 false 0 0 1)
  | .fenceSy => some (word 0x3C 0 false 0 0 2)
  | .fenceSv => some (word 0x3C 0 false 0 0 3)
  | .pref l x a m => some (word 0x3C l x 0 a (8 + levelCode m))
  | .evict l x a m => some (word 0x3C l x 0 a (16 + levelCode m))
  | .ckin l x a => some (word 0x3C l x 0 a 24)
  | .rwr d a m => some (word 0x3C 0 false d a (32 + m))
  | .arvw l d a => some (word 0x3C l false d a 40)
  | .bari x d a => some (word 0x3C 0 x d a 48)
  | .bara x a => some (word 0x3C 0 x 0 a 56)
  | .bard x a => some (word 0x3C 0 x 0 a 64)
  | .barw x a => some (word 0x3C 0 x 0 a 72)
  | .bart x d a => some (word 0x3C 0 x d a 80)
  | .bars x a => some (word 0x3C 0 x 0 a 88)
  | .barq x d a => some (word 0x3C 0 x d a 96)
  | .push x p f a => some (word 0x3D 0 x (p * 8 + f) a 0)
  | .waittl d a => some (word 0x3D 0 false d a 8)
  | .tlrd d a => some (word 0x3D 0 false d a 16)
  | .ringp x a r => some (word 0x3D 0 x 0 a (24 + r))
  | .ringc x a r => some (word 0x3D 0 x 0 a (32 + r))
  | .ringcRel x a r => some (word 0x3D 0 x 1 a (32 + r))
  | .cont d a => some (word 0x3D 0 false d a 40)
  | .mma l q n a slot => some (word 0x3D l false (actCode q * 16 + n) a (48 + slot))
  | .mzero l n => some (word 0x3D l false n 0 56)
  | .mrd l d n => some (word 0x3D l false d n 64)
  | .mwr l d n => some (word 0x3D l false d n 72)
  | .trap h c => some (word 0x3E 0 h 0 c 0)
  | .tret => some (word 0x3E 0 false 0 0 8)
  | .sregr x d a => some (word 0x3E 0 x d a 16)
  | .sregw d a => some (word 0x3E 0 false d a 24)
  | .waitt d => some (word 0x3E 0 false d 0 32)
  | .capq d => some (word 0x3E 0 false d 0 40)
  | .bkpt => some (word 0x3E 0 false 0 0 48)
  | .synci => some (word 0x3E 0 false 0 0 56)
  | _ => none

end Sys2Proof
end

