-- ==== Sys2Proof/Config.lean ====
section
/-! DEFINITION. What the part fixes (R16, R20, R25, R94) and the free values that the manual leaves open. A free value is
an opaque constant: no proof can see it. -/

namespace Sys2Proof.Config

/-- Counts of R15, R16, R20 and R25. -/
def nDies : Nat := 4
def clustersPerDie : Nat := 24
def coresPerCluster : Nat := 4
def nCores : Nat := 384
def nStacks : Nat := 16
def poolBytes : Nat := 1048576
def poolUnit : Nat := 16384
def nContexts : Nat := 256
def nQueues : Nat := 1024
def nIndexes : Nat := 256

/-- Whether 0 * infinity + quiet NaN is invalid: left open by IEEE 754-2019, to which R44 refers. -/
opaque fmaZeroInfNanInvalid : Bool

/-- The four hash functions of a signature: quarter, sector address, bit of the quarter (R91: not visible to programs). -/
opaque sigHash : Nat → Nat → Nat

/-- Nanoseconds of wall time that pass in the n-th step beside those of one core clk (no latency is fixed by a rule; R8, R24). -/
opaque extraNs : Nat → Nat

/-- The core clk, in MHz, to which the hardware power clamp steps the clocks down in the n-th step (R35, R419). -/
opaque clampMHz : Nat → Nat

/-- The error of the local oscillator in the n-th step, in parts per 10^9: at most 10 ppm (R301). -/
opaque oscillator : Nat → Int

/-- The n-th free byte (contents that no rule states). -/
opaque freeByte : Nat → Byte

/-- The n-th free word. -/
opaque freeWord : Nat → Word

/-- The firmware image version that retirement records carry (R416). -/
opaque fwVersion : Nat

/-- The PLDM type Platform Monitoring and Control, and the completion code for an unsupported type (R33), which the manual names and
does not number. -/
opaque pldmPlatform : BitVec 6
opaque pldmUnsupported : Byte

/-- The number h from 0 to 63 of sampled mirror issue at the n-th load (R309), taken mod 64. -/
opaque mirrorPick : Nat → Nat

end Sys2Proof.Config
end

