-- ==== Sys2Proof/Machine/Float.lean ====
section
/-! DEFINITION. Binary floating point of R41 to R48 and R163 to R168: exact dyadic values, one rounding, the five conditions of R45. -/

namespace Sys2Proof.Machine

/-- A float format of R41 by its exponent and fraction widths. -/
structure FloatFmt where
  expBits : Nat
  fracBits : Nat
deriving DecidableEq, Repr

def fmtF32 : FloatFmt := ⟨8, 23⟩
def fmtF16 : FloatFmt := ⟨5, 10⟩
def fmtBf16 : FloatFmt := ⟨8, 7⟩

/-- The exponent bias (R41). -/
def fmtBias (f : FloatFmt) : Nat := 2 ^ (f.expBits - 1) - 1

/-- The exponent of the least significant bit of a subnormal (R41: 2^-149 in binary32). -/
def fmtQmin (f : FloatFmt) : Int := 1 - (fmtBias f : Int) - f.fracBits

/-- What the bits of a float stand for: magnitude m * 2^e when finite. -/
inductive FVal
  | nan (sign signalling : Bool)
  | inf (sign : Bool)
  | fin (sign : Bool) (m : Nat) (e : Int)
deriving DecidableEq, Repr

/-- The five conditions of R45. -/
structure Conds where
  invalid : Bool := false
  divZero : Bool := false
  overflow : Bool := false
  underflow : Bool := false
  inexact : Bool := false
deriving DecidableEq, Repr

def condsNone : Conds := {}

def condsOr (a b : Conds) : Conds :=
  { invalid := a.invalid || b.invalid, divZero := a.divZero || b.divZero, overflow := a.overflow || b.overflow,
    underflow := a.underflow || b.underflow, inexact := a.inexact || b.inexact }

/-- The conditions as trapval bits 4:0, invalid at bit 4 (R45). -/
def condsBits (c : Conds) : Nat :=
  (if c.invalid then 16 else 0) + (if c.divZero then 8 else 0) + (if c.overflow then 4 else 0)
    + (if c.underflow then 2 else 0) + (if c.inexact then 1 else 0)

/-- The rounding modes of R44. -/
inductive Rm | rne | rtz | rdn | rup | rmm
deriving DecidableEq, Repr

/-- The mode of an rm code; codes 5 to 7 are none (R44). -/
def rmOfCode (n : Nat) : Option Rm :=
  match n with
  | 0 => some .rne | 1 => some .rtz | 2 => some .rdn | 3 => some .rup | 4 => some .rmm
  | _ => none

/-- A float result and the conditions it met. -/
structure FRes where
  bits : Nat
  conds : Conds := {}
deriving DecidableEq, Repr

/-- The value of the bits in a format (R41). -/
def fdecode (f : FloatFmt) (x : Nat) : FVal :=
  let frac := x % 2 ^ f.fracBits
  let ex := x / 2 ^ f.fracBits % 2 ^ f.expBits
  let sign := x / 2 ^ (f.fracBits + f.expBits) % 2 == 1
  if ex = 2 ^ f.expBits - 1 then
    if frac = 0 then .inf sign else .nan sign (frac < 2 ^ (f.fracBits - 1))
  else if ex = 0 then .fin sign frac (fmtQmin f)
  else .fin sign (2 ^ f.fracBits + frac) (fmtQmin f + (ex - 1))

def signBit (f : FloatFmt) (s : Bool) : Nat := if s then 2 ^ (f.fracBits + f.expBits) else 0

/-- The infinity, zero, largest finite value and canonical quiet NaN of a sign (R41, R43). -/
def finf (f : FloatFmt) (s : Bool) : Nat := signBit f s + (2 ^ f.expBits - 1) * 2 ^ f.fracBits
def fzero (f : FloatFmt) (s : Bool) : Nat := signBit f s
def fmaxFinite (f : FloatFmt) (s : Bool) : Nat := finf f s - 1
def fnan (f : FloatFmt) (s : Bool) : Nat := finf f s + 2 ^ (f.fracBits - 1)

/-- The overflow result of each mode (R44). -/
def overflowBits (f : FloatFmt) (rm : Rm) (s : Bool) : Nat :=
  match rm, s with
  | .rne, s => finf f s
  | .rmm, s => finf f s
  | .rtz, s => fmaxFinite f s
  | .rdn, true => finf f true
  | .rdn, false => fmaxFinite f false
  | .rup, true => fmaxFinite f true
  | .rup, false => finf f false

/-- Whether the discarded part moves the kept magnitude up: odd is the kept lowest bit, cmp the discarded part against half. -/
def roundsUp (rm : Rm) (s odd exact : Bool) (cmp : Ordering) : Bool :=
  if exact then false
  else
    match rm with
    | .rne => cmp == .gt || (cmp == .eq && odd)
    | .rtz => false
    | .rdn => s
    | .rup => !s
    | .rmm => cmp != .lt

/-- Keeps the bits of m * 2^e at and above 2^q (q ≥ e): the kept number and the discarded part. sticky: a nonzero part lies below m. -/
def keepAbove (m : Nat) (sh : Nat) (sticky : Bool) : Nat × Bool × Ordering :=
  if sh = 0 then (m, !sticky, .lt)
  else if m.log2 + 2 < sh then (0, m == 0 && !sticky, .lt)
  else
    let kept := m / 2 ^ sh
    let rest := m % 2 ^ sh
    let half := 2 ^ (sh - 1)
    let cmp := if rest < half then .lt else if rest = half then (if sticky then .gt else .eq) else Ordering.gt
    (kept, rest == 0 && !sticky, cmp)

/-- The magnitude m * 2^e (plus a nonzero part below its last bit when sticky) rounded to multiples of 2^q. -/
def roundAt (rm : Rm) (s : Bool) (m : Nat) (e q : Int) (sticky : Bool) : Nat × Bool :=
  if q ≤ e then (m * 2 ^ (e - q).toNat, !sticky)
  else
    let (kept, exact, cmp) := keepAbove m (q - e).toNat sticky
    (if roundsUp rm s (kept % 2 == 1) exact cmp then kept + 1 else kept, exact)

/-- round() of R44 on a nonzero magnitude m * 2^e, with tininess detected after rounding; a tiny result meets underflow, exact or not (R45).
A sticky caller supplies more bits than the format keeps. -/
def roundMag (f : FloatFmt) (rm : Rm) (s : Bool) (m : Nat) (e : Int) (sticky : Bool) : FRes :=
  let p := f.fracBits + 1
  let top : Int := e + m.log2
  let qFree : Int := top - f.fracBits
  let q := max qFree (fmtQmin f)
  let (k, exact) := roundAt rm s m e q sticky
  let (kF, _) := roundAt rm s m e qFree sticky
  let tiny : Bool := if kF = 2 ^ p then top + 1 < 1 - (fmtBias f : Int) else top < 1 - (fmtBias f : Int)
  let (k', q') := if k = 2 ^ p then (2 ^ f.fracBits, q + 1) else (k, q)
  if k' < 2 ^ f.fracBits then
    { bits := signBit f s + k', conds := { inexact := !exact, underflow := tiny } }
  else
    let ex := (q' - fmtQmin f).toNat + 1
    if 2 ^ f.expBits - 1 ≤ ex then
      { bits := overflowBits f rm s, conds := { overflow := true, inexact := true } }
    else
      { bits := signBit f s + ex * 2 ^ f.fracBits + (k' - 2 ^ f.fracBits),
        conds := { inexact := !exact, underflow := tiny } }

/-- round() of an exact signed value i * 2^e that is not zero, or a zero of the given sign. -/
def roundExact (f : FloatFmt) (rm : Rm) (i : Int) (e : Int) (zeroSign : Bool) : FRes :=
  if i = 0 then { bits := fzero f zeroSign }
  else roundMag f rm (i < 0) i.natAbs e false

/-- The signed integer mantissa of a finite value at exponent e ≤ its own. -/
def alignTo (s : Bool) (m : Nat) (e e0 : Int) : Int :=
  let v : Int := m * 2 ^ (e - e0).toNat
  if s then -v else v

/-- The quiet NaN for operands in the order a, b, c of R43, and whether one signals. -/
def nanOf (f : FloatFmt) (xs : List FVal) : Option FRes :=
  match xs.find? (fun v => match v with | .nan _ _ => true | _ => false) with
  | some (.nan s _) =>
    some { bits := fnan f s, conds := { invalid := xs.any (fun v => match v with | .nan _ g => g | _ => false) } }
  | _ => none

/-- The NaN that an operation creates from operands that are none (R43). -/
def nanMade (f : FloatFmt) : FRes := { bits := fnan f false, conds := { invalid := true } }

/-- The sign of an exact zero sum of x and y (IEEE 754-2019, R44). -/
def zeroSumSign (rm : Rm) (sx sy : Bool) : Bool := if sx = sy then sx else rm == .rdn

/-- a + b with one rounding to f (R163). -/
def faddVal (f : FloatFmt) (rm : Rm) (a b : FVal) : FRes :=
  match nanOf f [a, b] with
  | some r => r
  | none =>
    match a, b with
    | .inf s, .inf s' => if s = s' then { bits := finf f s } else nanMade f
    | .inf s, _ => { bits := finf f s }
    | _, .inf s => { bits := finf f s }
    | .fin sa ma ea, .fin sb mb eb =>
      let e := min ea eb
      roundExact f rm (alignTo sa ma ea e + alignTo sb mb eb e) e (zeroSumSign rm sa sb)
    | _, _ => nanMade f

/-- The value with its sign flipped, NaNs left as they are (FSUB is a + (-b); R43 takes b's own sign for a NaN). -/
def fnegVal (a : FVal) : FVal :=
  match a with
  | .nan s g => .nan s g
  | .inf s => .inf (!s)
  | .fin s m e => .fin (!s) m e

def fsubVal (f : FloatFmt) (rm : Rm) (a b : FVal) : FRes := faddVal f rm a (fnegVal b)

/-- a * b with one rounding (R163). -/
def fmulVal (f : FloatFmt) (rm : Rm) (a b : FVal) : FRes :=
  match nanOf f [a, b] with
  | some r => r
  | none =>
    match a, b with
    | .inf s, .inf s' => { bits := finf f (s != s') }
    | .inf s, .fin s' m _ => if m = 0 then nanMade f else { bits := finf f (s != s') }
    | .fin s m _, .inf s' => if m = 0 then nanMade f else { bits := finf f (s != s') }
    | .fin sa ma ea, .fin sb mb eb =>
      if ma * mb = 0 then { bits := fzero f (sa != sb) }
      else roundMag f rm (sa != sb) (ma * mb) (ea + eb) false
    | _, _ => nanMade f

/-- a * b + c with one rounding (R163). 0 * infinity + quiet NaN gives that NaN; whether it is also invalid is left
open by IEEE 754-2019 and free here. -/
def ffmaVal (f : FloatFmt) (rm : Rm) (a b c : FVal) : FRes :=
  let zeroInf : Bool := match a, b with
    | .inf _, .fin _ m _ => m == 0
    | .fin _ m _, .inf _ => m == 0
    | _, _ => false
  match nanOf f [a, b, c] with
  | some r => if zeroInf then { r with conds := { r.conds with invalid := r.conds.invalid || Config.fmaZeroInfNanInvalid } } else r
  | none =>
    if zeroInf then nanMade f
    else
      match a, b, c with
      | .fin sa ma ea, .fin sb mb eb, .fin sc mc ec =>
        let ep := ea + eb
        let e := min ep ec
        roundExact f rm (alignTo (sa != sb) (ma * mb) ep e + alignTo sc mc ec e) e (zeroSumSign rm (sa != sb) sc)
      | .fin _ _ _, .fin _ _ _, .inf sc => { bits := finf f sc }
      | .inf sa, .inf sb, c => match c with
        | .inf sc => if (sa != sb) = sc then { bits := finf f sc } else nanMade f
        | _ => { bits := finf f (sa != sb) }
      | .inf sa, .fin sb _ _, c => match c with
        | .inf sc => if (sa != sb) = sc then { bits := finf f sc } else nanMade f
        | _ => { bits := finf f (sa != sb) }
      | .fin sa _ _, .inf sb, c => match c with
        | .inf sc => if (sa != sb) = sc then { bits := finf f sc } else nanMade f
        | _ => { bits := finf f (sa != sb) }
      | _, _, _ => nanMade f

/-- Comparison of two values that are not NaN; zeros of both signs are equal. -/
def fcmpVal (a b : FVal) : Ordering :=
  match a, b with
  | .inf s, .inf s' => if s = s' then .eq else if s then .lt else .gt
  | .inf s, _ => if s then .lt else .gt
  | _, .inf s => if s then .gt else .lt
  | .fin sa ma ea, .fin sb mb eb =>
    let e := min ea eb
    compare (alignTo sa ma ea e) (alignTo sb mb eb e)
  | _, _ => .eq

def isNanVal (a : FVal) : Bool := match a with | .nan _ _ => true | _ => false
def isSnanVal (a : FVal) : Bool := match a with | .nan _ g => g | _ => false
def signVal (a : FVal) : Bool := match a with | .nan s _ => s | .inf s => s | .fin s _ _ => s

/-- Strict order with -0.0 below +0.0 (R164). -/
def fltTotal (a b : FVal) : Bool :=
  match fcmpVal a b with
  | .lt => true
  | .gt => false
  | .eq => signVal a && !signVal b

/-- FMIN and FMAX (R164), given the operands' bits. -/
def fminmax (f : FloatFmt) (isMax : Bool) (x y : Nat) : FRes :=
  let a := fdecode f x
  let b := fdecode f y
  let conds : Conds := { invalid := isSnanVal a || isSnanVal b }
  match isNanVal a, isNanVal b with
  | true, true => { bits := fnan f (signVal a), conds := conds }
  | true, false => { bits := y, conds := conds }
  | false, true => { bits := x, conds := conds }
  | false, false => { bits := if isMax then (if fltTotal a b then y else x) else (if fltTotal b a then y else x) }

/-- FCLASS (R165): one bit for the class of x. -/
def fclassBits (f : FloatFmt) (x : Nat) : Nat :=
  match fdecode f x with
  | .inf true => 2 ^ 0
  | .inf false => 2 ^ 7
  | .nan _ true => 2 ^ 8
  | .nan _ false => 2 ^ 9
  | .fin s m _ =>
    if m = 0 then (if s then 2 ^ 3 else 2 ^ 4)
    else if m < 2 ^ f.fracBits then (if s then 2 ^ 2 else 2 ^ 5)
    else (if s then 2 ^ 1 else 2 ^ 6)

/-- FSET (R166): the truth of the condition and whether it is invalid. -/
def fcondHolds (c : FCond) (a b : FVal) : Bool × Conds :=
  let un := isNanVal a || isNanVal b
  let sn := isSnanVal a || isSnanVal b
  let o := fcmpVal a b
  match c with
  | .eq => (!un && o == .eq, { invalid := sn })
  | .ne => (un || o != .eq, { invalid := sn })
  | .lt => (!un && o == .lt, { invalid := un })
  | .le => (!un && o != .gt, { invalid := un })
  | .gt => (!un && o == .gt, { invalid := un })
  | .ge => (!un && o != .lt, { invalid := un })
  | .un => (un, { invalid := sn })
  | .ord => (!un, { invalid := sn })

/-- R46: an overflow to infinity from finite operands delivers the largest finite value under sat. -/
def satResult (f : FloatFmt) (sat : Bool) (ops : List FVal) (r : FRes) : FRes :=
  let finiteOps := ops.all (fun v => match v with | .fin _ _ _ => true | _ => false)
  if sat && finiteOps && r.conds.overflow then
    match fdecode f r.bits with
    | .inf s => { r with bits := fmaxFinite f s }
    | _ => r
  else r

/-- The integer square root of x by its n low result bits, from the top. -/
def isqrtGo : Nat → Nat → Nat → Nat
  | 0, _, r => r
  | n + 1, x, r => if (r + 2 ^ n) * (r + 2 ^ n) ≤ x then isqrtGo n x (r + 2 ^ n) else isqrtGo n x r

def isqrt (x : Nat) : Nat := isqrtGo (x.log2 / 2 + 1) x 0

/-- FRCP (R167): 1/x correctly rounded under rm. -/
def frcpVal (f : FloatFmt) (rm : Rm) (a : FVal) : FRes :=
  match a with
  | .nan s g => { bits := fnan f s, conds := { invalid := g } }
  | .inf s => { bits := fzero f s }
  | .fin s m e =>
    if m = 0 then { bits := finf f s, conds := { divZero := true } }
    else
      let k := m.log2 + f.fracBits + 8
      roundMag f rm s (2 ^ k / m) (-e - k) (2 ^ k % m != 0)

/-- The square root of m * 2^e as a magnitude with extra bits and a sticky flag. -/
def sqrtMag (f : FloatFmt) (m : Nat) (e : Int) : Nat × Int × Bool :=
  let (m1, e1) := if e % 2 = 0 then (m, e) else (2 * m, e - 1)
  let k := f.fracBits + 8
  let x := m1 * 2 ^ (2 * k)
  let r := isqrt x
  (r, e1 / 2 - k, r * r != x)

/-- FSQRT (R167). -/
def fsqrtVal (f : FloatFmt) (rm : Rm) (a : FVal) : FRes :=
  match a with
  | .nan s g => { bits := fnan f s, conds := { invalid := g } }
  | .inf s => if s then nanMade f else { bits := finf f false }
  | .fin s m e =>
    if m = 0 then { bits := fzero f s }
    else if s then nanMade f
    else
      let (r, q, st) := sqrtMag f m e
      roundMag f rm false r q st

/-- FRSQ (R167): 1/sqrt x correctly rounded under rne, exact when representable. -/
def frsqVal (f : FloatFmt) (a : FVal) : FRes :=
  match a with
  | .nan s g => { bits := fnan f s, conds := { invalid := g } }
  | .inf s => if s then nanMade f else { bits := fzero f false }
  | .fin s m e =>
    if m = 0 then { bits := finf f s, conds := { divZero := true } }
    else if s then nanMade f
    else
      let (m1, e1) := if e % 2 = 0 then (m, e) else (2 * m, e - 1)
      let k := m1.log2 + f.fracBits + 8
      let n := 2 ^ (2 * k)
      let r := isqrt (n / m1)
      roundMag f .rne false r (-(e1 / 2) - k) (r * r * m1 != n)

/-- A float to the integer nearest under rm, before any clamp: the integer and whether it is exact (R48). -/
def roundToInt (rm : Rm) (s : Bool) (m : Nat) (e : Int) : Int × Bool :=
  let (k, exact) := roundAt rm s m e 0 false
  (if s then -(k : Int) else k, exact)

/-- F2I (R170): always clamped; invalid on NaN or clamp and then not inexact. -/
def f2iVal (rm : Rm) (y : IntTy) (a : FVal) : Nat × Conds :=
  let w := intTyWidth y
  let clamp := fun x => if intTySigned y then clampSigned w x else clampUnsigned w x
  let big : Int := 2 ^ 70
  match a with
  | .nan _ _ => (0, { invalid := true })
  | .inf s => (wrapTo w (clamp (if s then -big else big)), { invalid := true })
  | .fin s m e =>
    let (i, exact) := roundToInt rm s m e
    if clamp i = i then (wrapTo w i, { inexact := !exact })
    else (wrapTo w (clamp i), { invalid := true })

/-- An integer to a float of format f (R48, R170). -/
def i2fVal (f : FloatFmt) (rm : Rm) (i : Int) : FRes := roundExact f rm i 0 false

/-- One format to another (R48): exact when wider, round() when narrower, a NaN becomes canonical. -/
def fcvtVal (dst : FloatFmt) (rm : Rm) (a : FVal) : FRes :=
  match a with
  | .nan s g => { bits := fnan dst s, conds := { invalid := g } }
  | .inf s => { bits := finf dst s }
  | .fin s m e => if m = 0 then { bits := fzero dst s } else roundMag dst rm s m e false

end Sys2Proof.Machine
end

