-- ==== Sys2Proof/Machine/Mem.lean ====
section
/-! DEFINITION. Memory as a canonical list of cells (R9), and tables keyed by number. -/

namespace Sys2Proof.Machine

/-- Bytes by address: addresses strictly rising, no listed byte 0. An unlisted address reads 0 (log 1). -/
abbrev Memory := List Host.Cell

/-- What an address that no entry lists reads as (log 1). -/
def Memory.unlisted : Byte := 0

/-- One byte. -/
def Memory.read : Memory → Nat → Byte
  | [], _ => Memory.unlisted
  | (a, b) :: r, x => if a = x then b else Memory.read r x

/-- Write one byte, keeping the canonical form. -/
def Memory.write : Memory → Nat → Byte → Memory
  | [], x, v => if v = Memory.unlisted then [] else [(x, v)]
  | (a, b) :: r, x, v =>
    if x < a then (if v = Memory.unlisted then (a, b) :: r else (x, v) :: (a, b) :: r)
    else if x = a then (if v = Memory.unlisted then r else (x, v) :: r)
    else (a, b) :: Memory.write r x v

/-- The canonical form, from a lower bound of the addresses. -/
def Memory.wfFrom : Nat → Memory → Bool
  | _, [] => true
  | lo, (a, b) :: r => decide (lo ≤ a) && b != Memory.unlisted && Memory.wfFrom (a + 1) r

/-- The canonical form. -/
def Memory.wf (m : Memory) : Bool := Memory.wfFrom 0 m

/-- n bytes from address a. -/
def Memory.bytes (m : Memory) (a : Nat) : Nat → List Byte
  | 0 => []
  | n + 1 => m.read a :: Memory.bytes m (a + 1) n

/-- The n-byte little-endian number at a (R9). -/
def Memory.num (m : Memory) (a n : Nat) : Nat := ofBytes (m.bytes a n)

/-- Write a list of bytes from address a upward. -/
def Memory.put (m : Memory) (a : Nat) : List Byte → Memory
  | [] => m
  | b :: bs => Memory.put (m.write a b) (a + 1) bs

/-- Write the n-byte little-endian form of x at a (R9). -/
def Memory.putNum (m : Memory) (a n x : Nat) : Memory := m.put a (toBytes n x)

/-- The range of n bytes from a reads as unlisted. -/
def Memory.clear (m : Memory) (a n : Nat) : Memory := m.filter (fun c => decide (c.1 < a ∨ a + n ≤ c.1))

/-- The listed cells of n bytes from a, counted from 0. -/
def Memory.slice (m : Memory) (a n : Nat) : Memory :=
  (m.filter (fun c => decide (a ≤ c.1 ∧ c.1 < a + n))).map (fun c => (c.1 - a, c.2))

/-- The n bytes from a become those of a slice. -/
def Memory.paste (m : Memory) (a n : Nat) (cells : Memory) : Memory :=
  m.filter (fun c => decide (c.1 < a)) ++ (cells.filter (fun c => decide (c.1 < n))).map (fun c => (a + c.1, c.2))
    ++ m.filter (fun c => decide (a + n ≤ c.1))

/-- The memory that holds a list of bytes from a and nothing else. -/
def Memory.ofList (a : Nat) : List Byte → Memory
  | [] => []
  | b :: bs => if b = Memory.unlisted then Memory.ofList (a + 1) bs else (a, b) :: Memory.ofList (a + 1) bs

/-- A table keyed by number, keys rising. -/
abbrev Tab (α : Type) := List (Nat × α)

def Tab.get? {α : Type} (t : Tab α) (k : Nat) : Option α :=
  match t with
  | [] => none
  | (a, x) :: r => if a = k then some x else Tab.get? r k

def Tab.getD {α : Type} (t : Tab α) (k : Nat) (d : α) : α := (t.get? k).getD d

def Tab.set {α : Type} (t : Tab α) (k : Nat) (v : α) : Tab α :=
  match t with
  | [] => [(k, v)]
  | (a, x) :: r => if k < a then (k, v) :: (a, x) :: r else if k = a then (k, v) :: r else (a, x) :: Tab.set r k v

def Tab.erase {α : Type} (t : Tab α) (k : Nat) : Tab α := t.filter (fun e => e.1 != k)

/-- The lowest number from k up that is no key, among n candidates. -/
def Tab.freeFrom {α : Type} (t : Tab α) (k : Nat) : Nat → Option Nat
  | 0 => none
  | n + 1 => if (t.get? k).isSome then Tab.freeFrom t (k + 1) n else some k

/-- The numbers from a, n of them. -/
def upFrom (a : Nat) : Nat → List Nat
  | 0 => []
  | n + 1 => a :: upFrom (a + 1) n

end Sys2Proof.Machine
end

