-- ==== Sys2Proof/Machine/State.lean ====
section
/-! DEFINITION. State: everything that the manual gives the part, as plain data; Fault, Refusal; State.reset.
Registers v, s, m, k, the special registers of a Group, call rows, scratchpad and tiles lie in the pool (R66, R78) and are
stored there only. -/

namespace Sys2Proof.Machine

/-- Register files of R66 (codes 0 v, 1 s, 2 m, 3 a of R130; k has no lookahead code). -/
inductive RegFile | v | s | m | a | k
deriving DecidableEq, Repr

/-- Roles of Groups (R306). -/
inductive Role | copy | matrix | vector
deriving DecidableEq, Repr

/-- FENCE kinds (R110). -/
inductive FenceKind | cl | dv | sy | sv
deriving DecidableEq, Repr

/-- Group states of R321; Saved and Retired are the image's, or the absence of the Group. A Fenced Group keeps the cluster on which it issued
the fence, whose check-ins it awaits (R110, R111), a Halted one the lanes that stand at its BKPT (R263). -/
inductive GState
  | held | running | committing | fenced (k : FenceKind) (cluster : Nat) | halted (lanes : List Nat)
deriving DecidableEq, Repr

/-- Why a lane's entry is waiting (R324). -/
inductive Wait
  | none
  /-- parked at a WAITM on m(d) (R192) -/
  | waitm (d : Nat)
  /-- parked at a BARS on Team Barrier b (R220) -/
  | bars (b : Nat)
  /-- BARW or BARS committed, arrival not yet counted (R341) -/
  | sent (bar : Nat)
  /-- arrival counted in the phase whose bit is ph (R341) -/
  | phase (bar : Nat) (ph : Bool)
  /-- the phase is complete, and its message is on its way to this core (R341): core Barrier of the home core -/
  | freed (bar : Nat)
  /-- ARVW: counter c below threshold (R216) -/
  | arrival (c thr : Nat)
  /-- WAITTL (R250) -/
  | timeline (q n : Nat)
  /-- RINGP: core ring r, slot not yet empty (R253) -/
  | ringEmpty (r slot : Nat)
  /-- RINGC: slot not yet full -/
  | ringFull (r slot : Nat)
  /-- WAITT (R261) -/
  | time (sec ns : Nat)
  /-- CONT without store room for n records (R255) -/
  | room (n : Nat)
  /-- the entry's word waits for a page walk (R351) -/
  | walk (ctx gran : Nat)
  /-- the entry's access stands in a home's fault queue, under this lane's number (R363) -/
  | parked (lane : Nat)
deriving DecidableEq, Repr

/-- One lane: word address, block priority, wait (R323). -/
structure Lane where
  pc : Nat
  prio : Nat
  wait : Wait
deriving DecidableEq, Repr

/-- XPFX payload (R123). -/
structure Xpfx where
  f4s : Bool
  f4en : Bool
  f4 : Nat
  sat : Bool
  rm : Nat
  zero : Bool
  mask : Nat
deriving DecidableEq, Repr

/-- The hint words of the sequence in progress (R122): words issued, first word, XPFX, LIMMs (hi, value). -/
structure Seq where
  n : Nat
  first : Nat
  xp : Option Xpfx
  limms : List (Bool × Nat)
deriving DecidableEq, Repr

/-- What a fault or trap carries: cause (R73), code, trapval, trappc. -/
structure TrapInfo where
  cause : Nat
  code : Nat
  val : Nat
  pc : Nat
deriving DecidableEq, Repr

/-- A long-latency word in flight (R87, R130): the registers awaited, its window (lanes, words left), the pool writes that its
return makes, whether its return raises UCE, the clk of its issue, and the memory channels that it reads (R418). -/
structure Pend where
  pc : Nat
  regs : List (RegFile × Nat)
  win : Option (List Nat × Nat)
  writes : List (Nat × List Byte)
  uce : Bool
  since : Nat
  chans : List Nat
deriving DecidableEq, Repr

/-- Entries of a write buffer in program order (R90, R92): device stores, near results, far REDs, cluster stores and REDs; a far
element names the word that issued it. -/
inductive BufItem
  | store (sy near : Bool) (pa : Nat) (bytes : List Byte)
  | farRed (pc pa : Nat) (o : AtomOp) (n opnd : Nat)
  | clStore (pa : Nat) (bytes : List Byte)
  | clRed (pa : Nat) (o : AtomOp) (n opnd : Nat)
  /-- a far ATOM element: the result goes to the pool address, with the compare value for cas -/
  | farAtom (pc pa : Nat) (o : AtomOp) (n opnd cmp ret : Nat)
  | clAtom (pa : Nat) (o : AtomOp) (n opnd cmp ret : Nat)
deriving DecidableEq, Repr

/-- Barrier instructions (R217). -/
inductive BarOp
  | init (count : Nat) | arrive | drop | wait | test (d : Nat) | all | query (d : Nat)
deriving DecidableEq, Repr

/-- At-commit effects of a Chunk, in program order (R86, R90). -/
inductive AtCommit
  | kwrite (k val : Nat)
  | push (q : Nat) (cmd : List Byte) (pair full : Nat) (lanes : List Nat)
  | rwr (core slot uid v ctr : Nat) (vals : List (Nat × Nat))
  | stw (core addr : Nat) (bytes : List Byte)
  | cont (die kernel prio : Nat) (recs : List (List Byte))
  | sregw (n val : Nat)
  | barrier (op : BarOp) (b pc : Nat) (lanes : List Nat)
  | ringp (core r slot : Nat)
  | ringrel (core r slot : Nat)
  | evict (line : Nat)
  | evictHome (line : Nat)
  | ckin (line : Nat)
  | yield (lane : Nat)
deriving DecidableEq, Repr

/-- Phases of an uncommitted Chunk (R89). -/
inductive Phase | opened | ended | soloWait | soloRun
deriving DecidableEq, Repr

/-- What happens to the Group once its Chunk has committed (R321). -/
inductive After
  | run
  | fence (k : FenceKind)
  | trap (t : TrapInfo) (lanes : List Nat)
  | halt (lanes : List Nat)
  | retire
deriving DecidableEq, Repr

/-- One undo entry: device-wide core, pool sector number, prior bytes (R81, R82). -/
structure Undo where
  core : Nat
  sector : Nat
  bytes : List Byte
deriving DecidableEq, Repr

/-- A Group's uncommitted Chunk (R89, R90; undo rows of R81). Pages: the translations that it used, by address and log2 of the size (R352). -/
structure Chunk where
  phase : Phase
  words : Nat
  reads : List Nat
  writes : List Nat
  clw : List Nat
  buf : List BufItem
  acts : List AtCommit
  uniform : List Byte
  lanes : List Lane
  undo : List Undo
  tiles : List Nat
  pages : List (Nat × Nat)
  nearLines : List Nat
  endClk : Nat
  after : After
  soloNs : Nat
  inTrap : Option (List Nat)
deriving DecidableEq, Repr

/-- Why a Group issues nothing although Running: its fault, its Barrier event, a request that was returned at a wall time and is to be
re-sent (R363). -/
inductive Hold
  | none
  | fault (ctx gran : Nat)
  | barrier
  | resend (since : Nat)
deriving DecidableEq, Repr

/-- A resident Group (R320). uid tells Groups that reuse a slot apart; trapWaits keeps, while lanes are in a trap entry, the Barrier waits
in which they stood (R280, R341). -/
structure Group where
  uid : Nat
  team : Nat
  index : Nat
  role : Role
  state : GState
  lanes : List Lane
  chunk : Chunk
  seq : Seq
  pend : List Pend
  hold : Hold
  chosen : Option (Nat × Nat)
  failed : List Nat
  ydem : Nat
  ykey : Nat
  arrival : Tab Nat
  mark : List Nat
  inTrap : Option (List Nat)
  trapWaits : Tab Wait
  mirrored : Bool
  mismatch : Bool
  capPending : Option Nat
  preempt : Bool
  release : List Nat
deriving DecidableEq, Repr

/-- A core Barrier (R335). -/
structure Barrier where
  nexp : Nat
  ph : Bool
  init : Bool
  expect : Nat
  arrived : Nat
deriving DecidableEq, Repr

/-- An event on its way to a core Barrier (R339): from a Group, or an arrival of an engine or of the device (R343). -/
inductive BarMsg
  | group (core slot uid pc : Nat) (lanes : List Nat) (op : BarOp)
  | other
deriving DecidableEq, Repr

/-- A core ring: state bits per slot and the slots declared (R252). -/
structure Ring where
  ph : Nat
  cph : Nat
  slots : Nat
deriving DecidableEq, Repr

/-- A range of the scoreboard: operation, first pool byte, length (R205). -/
structure Range where
  op : Nat
  lo : Nat
  len : Nat
deriving DecidableEq, Repr

/-- An MMA in a core's tile order (R226, R227): the owner (Group slot and uid, or copy operation), the tile, the descriptor words,
the format slot, the activation type and the scratchpad bytes as they stood at issue. -/
structure MmaOp where
  owner : Nat × Nat
  follow : Option Nat
  tile : Nat
  act : Act
  slotIdx : Nat
  desc : List Nat
  snap : Memory
  pc : Nat
  retries : Nat
deriving DecidableEq, Repr

/-- A place in a tile's order taken by an MZERO, MRD or MWR that waits: the Group (slot, uid), the word, the tile, and how many MMAs of
the tile stand before it (R227). -/
structure TilePlace where
  slot : Nat
  uid : Nat
  pc : Nat
  tile : Nat
  before : Nat
deriving DecidableEq, Repr

/-- A member of the active set: slot, clk of its last issue, clk since which it has stood Committing, Fenced, Halted or without an
eligible entry, clk until which SHINT 2 pins it (R329). -/
structure Active where
  slot : Nat
  last : Nat
  idle : Option Nat
  pin : Nat
deriving DecidableEq, Repr

/-- A write signature on its way to a core (R95, R97): the stamp, the die that sends it, the sectors. -/
structure Broadcast where
  stamp : Nat
  die : Nat
  sectors : List Nat
deriving DecidableEq, Repr

/-- One core (R25). -/
structure Core where
  pool : Memory
  poolpart : Nat
  kernel : Option Nat
  groups : Tab Group
  bars : Tab Barrier
  barMsgs : Tab (List BarMsg)
  rings : Tab Ring
  board : List Range
  pred : Tab Nat
  order : List MmaOp
  places : List TilePlace
  inbox : List Broadcast
  seen : Nat
  icache : Tab Nat
  active : List Active
  rot : Nat
deriving DecidableEq, Repr

/-- A cluster's copy of a line: bytes, the twin when checked out, the clk of check-out, whether its check-in is on its way,
whether the copy goes with it (R104 to R107), and which of its bytes came poisoned from the home (R365). -/
structure ClLine where
  bytes : List Byte
  twin : Option (List Byte)
  since : Nat
  sent : Bool
  drop : Bool
  bad : List Nat
deriving DecidableEq, Repr

/-- A launch record (R302). -/
structure Launch where
  codebase : Nat
  codelen : Nat
  trapent : Nat
  entry : Nat
  gridx : Nat
  gridy : Nat
  gridz : Nat
  groups : Nat
  ncopy : Nat
  nmat : Nat
  tcores : Nat
  stage : Nat
  restartable : Bool
  regs : Nat
  cdepth : Nat
  mirror : Nat
  lchain : Bool
  fpen : Nat
  chain : Nat
  nbar : Nat
  tscr : Nat
  poolpart : Nat
  prevlr : Nat
  argp : Nat
  rings : List (Nat × Bool)
  slots : List Nat
deriving DecidableEq, Repr

/-- A Team (R306, R307); away while its Gang is Saved. -/
structure Team where
  kernel : Nat
  gang : Nat
  x : Nat
  y : Nat
  z : Nat
  cores : List Nat
  home : Nat
  block : Nat
  size : Nat
  tscr : Nat
  barBase : Nat
  nbar : Nat
  rings : List (Nat × Nat × Nat)
  recs : Option (List Nat)
  leased : Bool
  away : Bool
deriving DecidableEq, Repr

/-- Image states of R273. -/
inductive ImgState | resident | saving | saved | restoring
deriving DecidableEq, Repr

/-- An image: its core, save slot, state, and, while Saved, what its Groups hold outside the slot. -/
structure Image where
  core : Nat
  slot : Nat
  state : ImgState
  groups : Tab Group
deriving DecidableEq, Repr

/-- A Gang (R308): cluster (24*die + cluster), relaunches so far, effective level, images, Teams to form again. -/
structure Gang where
  cluster : Nat
  relaunches : Nat
  level : Nat
  images : List Image
  again : List (Option (List Nat) × Nat)
  started : Nat
deriving DecidableEq, Repr

/-- Kernel states of R311. -/
inductive KState | ready | loading | running | draining | completing | stopping | done
deriving DecidableEq, Repr

/-- A Kernel: Context, node (Queue, sequence), launch record and its address, next linear Team index, Gangs, the hold of R299, the
final status, the stamp for a fault record (R281), Groups created per die for sampled mirror issue (R309), clusters that held a Team (R313). -/
structure Kernel where
  ctx : Nat
  queue : Nat
  seq : Nat
  lrva : Nat
  launch : Launch
  state : KState
  nextTeam : Nat
  gangs : Tab Gang
  held : Bool
  status : Nat
  stamp : Nat
  created : Tab Nat
  pick : Nat
  prio : Nat
  pred : Option Nat
  level : Nat
  loadHold : Option Nat
  clusters : List Nat
deriving DecidableEq, Repr

/-- Peer rings of a Team that has been released, which stay until its successor's Team has been released too (R310, R319): the Team's
Kernel, Gang, linear index and home core, its rings, and what these hold while they are saved. -/
structure Heir where
  kernel : Nat
  gang : Nat
  lin : Nat
  home : Nat
  rings : List (Nat × Nat × Nat)
  saved : Option (List Ring)
deriving DecidableEq, Repr

/-- A continuation record in a die's store (R316): Kernel, entry, priority of the PRIO there, args, the Team formed from it. -/
structure ContRec where
  kernel : Nat
  entry : Nat
  prio : Nat
  args : List Byte
  team : Option Nat
deriving DecidableEq, Repr

/-- A die's continuation store: room reserved by Group uid, records in order of delivery, clk of the last delivery by (Kernel, entry). -/
structure ContStore where
  reserved : Tab Nat
  recs : Tab ContRec
  last : List (Nat × Nat × Nat)
  forced : List (Nat × List Nat)
deriving DecidableEq, Repr

/-- A timeline counter (R114): last number assigned, the complete prefix, numbers complete beyond it. -/
structure Timeline where
  assigned : Nat
  count : Nat
  beyond : List Nat
deriving DecidableEq, Repr

/-- Context states of R266. -/
inductive CState | free | live | suspending | suspended | killing | dead
deriving DecidableEq, Repr

/-- A Context record and what the device keeps with it (R266, R281, R114). -/
structure Ctx where
  fbase : Nat
  sbase : Nat
  ptroot : Nat
  nslots : Nat
  fslots : Nat
  quantum : Nat
  part : Nat
  state : CState
  privl : Nat
  dbg : Bool
  capbar : Nat
  capcount : Nat
  faultSeq : Nat
  timelines : Tab Timeline
  enrolled : Bool
deriving DecidableEq, Repr

/-- A cached translation (R350, R351): the TLB that holds it (a core's number, 384 and a cluster's, or 480 for the engines), Context,
virtual base, log2 of the size, frame, leaf bits p priv x w rd. -/
structure Tlb where
  unit : Nat
  ctx : Nat
  va : Nat
  lg : Nat
  frame : Nat
  p : Bool
  priv : Bool
  x : Bool
  w : Bool
  rd : Bool
deriving DecidableEq, Repr

/-- A walk asked for (R351): Context, granule, the die of the walker, the TLBs that its leaf goes to. -/
structure Walk where
  ctx : Nat
  gran : Nat
  die : Nat
  units : List Nat
deriving DecidableEq, Repr

/-- An INVAL that has dropped its translations (R352): the die that answers it, Context, first address and length of the range, what of
the partition's stamps it awaits, the check-ins and the engine commands that it awaits. -/
structure Inval where
  die : Nat
  ctx : Nat
  lo : Nat
  len : Nat
  part : Nat
  bound : Nat
  lines : List (Nat × Nat)
  ops : List Nat
deriving DecidableEq, Repr

/-- A request that waits at a home or a bank (R363, R366): an access or a fetch of a Group's entry, by its lowest lane, an engine's read, a
committed difference, or another read of the device or the host. -/
inductive Req
  | group (core slot uid lane : Nat)
  | op (id : Nat)
  | diff (part stamp : Nat)
  | other
deriving DecidableEq, Repr

/-- An entry of a home's fault queue: slice (24*die + slice), line, requests in arrival order, whether the home replays them (R363). -/
structure Park where
  slice : Nat
  line : Nat
  reqs : List Req
  ready : Bool
deriving DecidableEq, Repr

/-- A poisoned line (R365): the bytes written since by units stamped later, and the last stamps given when the poison was set. -/
structure Poison where
  done : Nat
  since : Tab Nat
deriving DecidableEq, Repr

/-- A .sy write to host memory sent on NCL and not completed (R113): the uid of its Group, its sealed partition, its address. -/
structure NclWrite where
  uid : Nat
  part : Nat
  pa : Nat
deriving DecidableEq, Repr

/-- A Page in Migrating (R355): the command's die, the Page, old and new frame, sealed partition, its last stamp when the frame was marked,
the step in progress, its last stamp when the copy had been committed, the translations of the Page that step 5 dropped. -/
structure Migration where
  die : Nat
  ctx : Nat
  va : Nat
  lg : Nat
  old : Nat
  new : Nat
  part : Nat
  bound : Nat
  step : Nat
  mark : Nat
  was : List Tlb
deriving DecidableEq, Repr

/-- A region descriptor (R356). -/
structure Region where
  en : Bool
  base : Nat
  lgsize : Nat
  rows : List Nat
deriving DecidableEq, Repr

/-- A committed unit's difference on its way to the homes (R98): sealed partition, the die that sends it, stamp, items in order, the uid of
its Group, its engine operation, or the cluster and line of its check-in, the lines of its items that lay on protected Pages when it
committed (R111), and whether it restores the parity or a stripe line, which is no change of the stripe (R403). -/
structure Diff where
  part : Nat
  die : Nat
  stamp : Nat
  items : List BufItem
  owner : Option Nat
  op : Option Nat
  cluster : Option (Nat × Nat)
  prot : List Nat
  rebuilt : Bool
deriving DecidableEq, Repr

/-- Committed units other than Group Chunks (R93) and Group Chunks, as offered to an arbiter (R95). -/
inductive CUnit
  /-- a Group Chunk, far-ATOM Chunks included -/
  | chunk (core slot uid : Nat)
  /-- an engine Chunk of an operation -/
  | engine (op : Nat) (items : List BufItem)
  /-- a check-in of a cluster's line (R106) -/
  | checkin (cluster line : Nat)
  /-- a host write (R113) -/
  | host (items : List BufItem)
  /-- a unit of the device's own controllers, of a sealed partition -/
  | device (part : Nat) (items : List BufItem) (op : Option Nat)
deriving DecidableEq, Repr

/-- An offer: die of the arbiter, clk of the offer, the unit. -/
structure Offer where
  die : Nat
  clk : Nat
  what : CUnit
deriving DecidableEq, Repr

/-- An at-commit effect on its way to its target (R204, R215, R253, R333): the Group (core, slot, uid) that sent it, the stamp whose
broadcast must have reached the target core, and the effect. -/
structure Landing where
  core : Nat
  slot : Nat
  uid : Nat
  target : Nat
  stamp : Nat
  act : AtCommit
deriving DecidableEq, Repr

/-- Progress of an engine operation: in its queue; left, with addresses still to be translated (R235, R236); running; its status word
on the way (R237). -/
inductive OpState
  | queued | translating | left | committing | status
deriving DecidableEq, Repr

/-- An engine operation (R232 to R249): queue code, engine instance, Context, Kernel, Team, pushing core, timeline number, command
bytes, state, position reached, units offered and not yet committed, completion status, virtual address of the status word once it
is known to be writable, the node that started it, the translations that it made (R236), the granule whose fault it awaits, iovf of its
follow-on MMA, and what else its format keeps. -/
structure Op where
  q : Nat
  inst : Nat
  ctx : Nat
  kernel : Option Nat
  team : Option Nat
  core : Nat
  num : Nat
  cmd : List Byte
  state : OpState
  pos : Nat
  units : Nat
  status : Nat
  stva : Option Nat
  node : Option (Nat × Nat)
  pages : List Tlb
  wants : Option Nat
  iovf : Bool
  aux : List Nat
deriving DecidableEq, Repr

/-- A Queue (R283); skips: sequence numbers of conditional nodes that failed, with the last node that each skips (R297). -/
structure Queue where
  ctl : Nat
  qbase : Nat
  ctx : Nat
  lgsize : Nat
  device : Bool
  state : Nat
  reason : Nat
  done : Nat
  tail : Nat
  fetched : Nat
  skips : List (Nat × Nat)
deriving DecidableEq, Repr

/-- Progress of a node: fetched, in the ready pool (wall time and order of entry), dispatched, a timed node whose Kernel has been
dispatched at the lead time, ended with its status not yet written, complete. -/
inductive NState
  | waiting | inPool (since order : Nat) | running | held | ended | complete
deriving DecidableEq, Repr

/-- A fetched node record (R288), the granule whose fault it awaits (R289, R298, R303), and, for a conditional node, whether its predicate
has been read (R297). -/
structure Node where
  queue : Nat
  seq : Nat
  bytes : List Byte
  state : NState
  status : Nat
  wants : Option Nat
  read : Bool
deriving DecidableEq, Repr

/-- An Index segment (R368). -/
structure Seg where
  stack : Nat
  base : Nat
  nslot : Nat
deriving DecidableEq, Repr

/-- An Index (R368): state 0 Free, 1 Live, 2 Draining; publications pending; operations running. -/
structure Index where
  state : Nat
  pub : Nat
  modid : Nat
  ctx : Nat
  metric : Nat
  etype : Nat
  sgn : Bool
  midpt : Bool
  dim : Nat
  treeen : Bool
  tport : Nat
  segs : List Seg
deriving DecidableEq, Repr

/-- A heap or list entry (R379): distance bits, id, visible, expanded. -/
structure Cand where
  d : Nat
  id : Nat
  expanded : Bool
deriving DecidableEq, Repr

/-- A message of a walk (R380, R382), with its number in the order of arrival: requests at a stack, and replies at the home. -/
inductive WalkMsg
  | score (stack : Nat) (ids : List Nat) (no : Nat)
  | expand (stack id : Nat) (no : Nat)
  | refine (stack id : Nat) (no : Nat)
  | scored (id d : Nat) (vis : Bool) (no : Nat)
  | expanded (n : Nat) (no : Nat)
  | refined (id d : Nat) (no : Nat)
deriving DecidableEq, Repr

/-- A search in flight (R377, R380), and until its MERGE has left (R386). -/
structure Search where
  op : Nat
  index : Nat
  home : Nat
  snap : Nat
  kc : Nat
  k : Nat
  beam : Nat
  budget : Nat
  query : List Byte
  c : List Cand
  r : List Cand
  refined : List Cand
  hops : Nat
  ex : Int
  sc : Int
  rf : Nat
  spent : Bool
  bad : Bool
  msgs : List WalkMsg
  refining : Bool
  rbuf : Nat
  status : Nat
  tile : Nat
  modid : Nat
  tport : Nat
deriving DecidableEq, Repr

/-- Link states of R392. -/
inductive LinkState | down | training | up | retraining | degraded | retired
deriving DecidableEq, Repr

/-- An end-to-end packet queued behind a boundary, and the site of its port there (R390, R394). -/
structure Queued where
  src : Nat
  dst : Nat
  seq : Nat
  payload : Nat
  port : Nat × Nat
deriving DecidableEq, Repr

/-- A unit with a Link state: consecutive replays, end-to-end packets queued behind it, ns of the last change. -/
structure Link where
  state : LinkState
  replays : Nat
  queued : List Queued
  since : Nat
deriving DecidableEq, Repr

/-- An end-to-end pair (R395, R396): next number, unacknowledged copies (number, payload, resends, ns of the last send), the numbers of
those that have not been sent yet, next expected, early packets, payloads delivered in order. -/
structure Pair where
  next : Nat
  copies : List (Nat × Nat × Nat × Nat)
  unsent : List Nat
  expect : Nat
  early : List (Nat × Nat)
  delivered : List Nat
deriving DecidableEq, Repr

/-- A collective group descriptor (R399). -/
structure CollGroup where
  msz : Nat
  self : Nat
  par : Bool
  port : List Nat
  mods : List Nat
deriving DecidableEq, Repr

/-- A parity difference sent and not acknowledged (R360, R402): holder rank, number, stripe, offset, bytes, stamp, whether a
FENCE.sv waits for it, and the cluster or Group that it came from. -/
structure ParityDiff where
  holder : Nat
  seq : Nat
  stripe : Nat
  off : Nat
  bytes : List Byte
  stamp : Nat
  prot : Bool
  owner : Option Nat
  cluster : Option Nat
deriving DecidableEq, Repr

/-- Unit states of R409 and R414. -/
inductive UState | inService | requested | testing | rebuild | retired
deriving DecidableEq, Repr

/-- A scored unit (R407, R414): its state, bin, leases, score, wall times of the last lease and request, the lane plus 1 of a port that its spare
has replaced (R410), and the window of a channel that is pinned while its patterns run (R411). -/
structure HUnit where
  state : UState
  bin : Nat
  leases : Nat
  score : Nat
  leasedAt : Nat
  requestedAt : Nat
  failed : Nat
  window : Option Nat
deriving DecidableEq, Repr

/-- A partition descriptor (R271): kind 0 unused, 1 sealed, 2 soft. -/
structure Partition where
  kind : Nat
  parent : Nat
  share : Nat
  dmask : Nat
  nslmask : Nat
  stmask : Nat
  clmask : Nat
deriving DecidableEq, Repr

/-- The command window of a die (R268). -/
structure Window where
  cmd : Nat
  busy : Bool
  count : Nat
  status : Nat
  cop : Memory
  cresp : Memory
  mcskip : Nat
  xfbase : Nat
  xflg : Nat
  xfhead : Nat
  xftail : Nat
  fwwin : List Nat
deriving DecidableEq, Repr

/-- A capture unit (R418). -/
structure Capture where
  src : Nat
  sel : Nat
  en : Bool
  edges : List Int
  min : Int
  max : Int
  buckets : List Nat
deriving DecidableEq, Repr

/-- The time discipline (R300, R301). -/
structure Disc where
  unlk : Bool
  stepped : Bool
  good : Nat
  miss : Nat
  valid : Bool
  sec : Nat
  ns : Nat
  disc : Nat
  offs : Int
  slew : Int
  edgeAt : Option Nat
deriving DecidableEq, Repr

/-- An ECC event (R22, R413): the step of its report; the core whose SRAM line it is on, or none; the line of device memory; whether it is
uncorrectable. -/
structure Ecc where
  step : Nat
  core : Option Nat
  line : Nat
  bad : Bool
deriving DecidableEq, Repr

/-- A write to host memory over NCL that a die controller's firmware makes at a step (R419). -/
structure FwWrite where
  step : Nat
  die : Nat
  pa : Nat
  bytes : List Byte
deriving DecidableEq, Repr

/-- What a message on the management port is (R33). -/
inductive MsgKind | control | nerom | pldm
deriving DecidableEq, Repr

/-- A packet that the management port receives, no earlier than at a step: the kind of its message, whether it begins and ends that, its part of
it (R421). -/
structure MsgPacket where
  step : Nat
  kind : MsgKind
  first : Bool
  last : Bool
  bytes : List Byte
deriving DecidableEq, Repr

/-- Power (R34 to R36, R419): the two caps set, the cap in force (W), input voltage (mV) and the ns since which it
holds, hold at the 1,000 W ceilings by voltage and by
heat, main and standby domains. -/
structure Power where
  hostCap : Nat
  mgmtCap : Nat
  cap : Nat
  vin : Nat
  vinAt : Nat
  vhold : Bool
  thold : Bool
  clamp : Bool
  main : Bool
  standby : Bool
deriving DecidableEq, Repr

/-- A translation-fault record that waits for room (R353): record bytes without seq. -/
structure XRec where
  part : Nat
  ctx : Nat
  va : Nat
  acc : Nat
  lvl : Nat
  kind : Nat
  eaddr : Nat
deriving DecidableEq, Repr

/-- Why the machine stops. -/
inductive Fault
  /-- a code word is executed where no entry was chosen to issue it: raised by every code word's meaning; safe (step never does so) -/
  | noIssuer
  /-- a physical address that R345 gives to nothing is accessed by the device itself: raised by commands, Queue and fault-record
  writes that were given such an address; safe -/
  | noSuchAddress (pa : Nat)
deriving DecidableEq, Repr

/-- What the model has no meaning for. -/
inductive Refusal
  /-- the instruction has no meaning yet: raised by Dispatch only; safe -/
  | notModelled (mnemonic : String)
deriving DecidableEq, Repr

/-- The whole device. The last fields are the model's own: hourly (wall times of the last halving and of the last writing of scores,
R413), goes (commands that go on, by die, with the code under which they do), port and response (the request and the response on the
management port), assembling and packetsOut (what has come of the next message, and the packets of the last response: R421), agenda (events due), sched (choice of the next step's agent), cur
(core, slot, word address and lanes of the entry that issues), fresh (counter of free values), steps, stop (an address of the empty
range of R345 that the device itself accessed: the next step faults), losses (steps at which system software declares a module lost: R404), glitch (steps at which the hardware miscomputes a mirrored
word), evicts (steps at which a cluster loses its copy of a line), refetch (steps at which a core loses its code words), eccs (ECC events to
be reported), fwWrites (writes of firmware to host memory), packetsIn (packets that come to the management port), clkRem and timeRem (what has passed of the next core clk and of the next nanosecond of wtime), and the counters that number Groups, Teams, Kernels, operations, landings and searches. -/
structure State where
  mem : Memory
  cores : Tab Core
  clusters : Tab (Tab ClLine)
  teams : Tab Team
  kernels : Tab Kernel
  heirs : List Heir
  stores : Tab ContStore
  ctxs : Tab Ctx
  tlb : List Tlb
  walks : List Walk
  invals : List Inval
  faulted : List (Nat × Nat)
  migrations : List Migration
  xrecs : List XRec
  xseq : Tab Nat
  regions : List Region
  newRegions : Option (List Region)
  parts : List Partition
  windows : Tab Window
  aperture : Option Nat
  queues : Tab Queue
  nodes : List Node
  ops : Tab Op
  indexes : Tab Index
  publs : List (Nat × Nat × Nat)
  searches : Tab Search
  stamps : Tab Nat
  token : Tab Nat
  solo : Tab (Nat × Nat × Nat)
  offers : List Offer
  diffs : List Diff
  landings : Tab Landing
  parked : List Park
  delayed : List (Nat × Req)
  badLines : List Nat
  poison : Tab Poison
  hostData : List Byte
  rebuilding : List Nat
  ncl : Tab NclWrite
  parity : List ParityDiff
  paritySeq : Tab Nat
  parityAcks : List (Nat × Nat)
  parityIn : Tab Nat
  banks : Tab (Nat × Nat)
  chainTags : Tab (Nat × Nat)
  demoted : List Nat
  hourly : Nat × Nat
  links : Tab Link
  pairs : Tab Pair
  unreachable : List Nat
  merges : List (Nat × List Byte)
  mergesLost : Nat
  colls : Tab CollGroup
  units : Tab HUnit
  nvUnits : Tab HUnit
  records : List (List Byte)
  overflow : Nat
  dump : Option Nat
  captures : Tab Capture
  rowEvents : Tab Nat
  fwdrop : Tab Nat
  lperiod : Nat
  disc : Disc
  power : Power
  clk : Nat
  sec : Nat
  ns : Nat
  wall : Nat
  goes : List (Nat × Nat)
  port : List Byte
  response : List Byte
  assembling : List Byte
  packetsOut : List (List Byte)
  agenda : List Instr
  sched : List Nat
  cur : Option (Nat × Nat × Nat × List Nat)
  fresh : Nat
  steps : Nat
  stop : Option Nat
  losses : List (Nat × Nat)
  glitch : List Nat
  evicts : List (Nat × Nat × Nat)
  refetch : List (Nat × Nat)
  eccs : List Ecc
  fwWrites : List FwWrite
  packetsIn : List MsgPacket
  clkRem : Nat
  timeRem : Nat
  nextUid : Nat
  nextId : Nat
deriving DecidableEq, Repr

/-- A core after reset: empty pool, no Kernel (R83, log 1). -/
def Core.reset : Core :=
  { pool := [], poolpart := 0, kernel := none, groups := [], bars := [], barMsgs := [], rings := [], board := [], pred := [],
    order := [], places := [], inbox := [], seen := 0, icache := [], active := [], rot := 0 }

/-- A Barrier that its Team has not initialised (R335). -/
def Barrier.unset : Barrier := { nexp := 0, ph := false, init := false, expect := 0, arrived := 0 }

/-- A Free Context (R266). -/
def Ctx.reset : Ctx :=
  { fbase := 0, sbase := 0, ptroot := 0, nslots := 0, fslots := 0, quantum := 0, part := 0, state := .free, privl := 0,
    dbg := false, capbar := 0, capcount := 0, faultSeq := 0, timelines := [], enrolled := false }

/-- A counter of a new Context (R114). -/
def Timeline.reset : Timeline := { assigned := 0, count := 0, beyond := [] }

/-- A Free Queue (R283). -/
def Queue.reset : Queue :=
  { ctl := 0, qbase := 0, ctx := 0, lgsize := 0, device := false, state := 0, reason := 0, done := 0, tail := 0, fetched := 0, skips := [] }

/-- A Free Index (R368). -/
def Index.reset : Index :=
  { state := 0, pub := 0, modid := 0, ctx := 0, metric := 0, etype := 0, sgn := false, midpt := false, dim := 0,
    treeen := false, tport := 0, segs := [] }

/-- A Link after power-on reset, which takes it from Down to Training (R392). -/
def Link.reset : Link := { state := .training, replays := 0, queued := [], since := 0 }

/-- A pair that has carried nothing (R396; the first number is 0: log 17). -/
def Pair.reset : Pair := { next := 0, copies := [], unsent := [], expect := 0, early := [], delivered := [] }

/-- A unit with an empty store (R414). -/
def HUnit.reset : HUnit :=
  { state := .inService, bin := 0, leases := 0, score := 0, leasedAt := 0, requestedAt := 0, failed := 0, window := none }

/-- A window after power-on reset (R268). -/
def Window.reset : Window :=
  { cmd := 0, busy := false, count := 0, status := 0, cop := [], cresp := [], mcskip := 0, xfbase := 0, xflg := 0, xfhead := 0,
    xftail := 0, fwwin := List.replicate 8 0 }

/-- A capture unit after reset (R418). -/
def Capture.reset : Capture :=
  { src := 0, sel := 0, en := false, edges := List.replicate 15 0, min := 0x7FFFFFFF, max := -0x80000000,
    buckets := List.replicate 16 0 }

/-- An unused collective group (R399). -/
def CollGroup.reset : CollGroup :=
  { msz := 0, self := 0, par := false, port := List.replicate 8 0, mods := List.replicate 8 0 }

/-- A continuation store that holds nothing (R316). -/
def ContStore.reset : ContStore := { reserved := [], recs := [], last := [], forced := [] }

/-- Row i of the identity matrix (R356). -/
def identityRows : List Nat := (List.range 32).map (fun i => 2 ^ i)

/-- Region 0 after reset: identity, 2^40 bytes, enabled (R356). -/
def Region.identity : Region := { en := true, base := 0, lgsize := 40, rows := identityRows }

/-- Regions 1 to 7 after reset. -/
def Region.off : Region := { en := false, base := 0, lgsize := 0, rows := List.replicate 32 0 }

/-- Descriptor 0 with an empty store: a sealed partition of all four dies (R271). -/
def Partition.whole : Partition :=
  { kind := 1, parent := 0, share := 0, dmask := 15, nslmask := 2 ^ 12 - 1, stmask := 2 ^ 16 - 1, clmask := 2 ^ 96 - 1 }

def Partition.unused : Partition :=
  { kind := 0, parent := 0, share := 0, dmask := 0, nslmask := 0, stmask := 0, clmask := 0 }

/-- The discipline after power-on reset: Unlocked (R300, R301). -/
def Disc.reset : Disc :=
  { unlk := true, stepped := false, good := 0, miss := 0, valid := false, sec := 0, ns := 0, disc := 0, offs := 0, slew := 0,
    edgeAt := none }

/-- Power after a power-on reset: both caps 2,400 W (R36), the input in range (log 20). -/
def Power.reset : Power :=
  { hostCap := 2400, mgmtCap := 2400, cap := 2400, vin := 48000, vinAt := 0, vhold := false, thold := false, clamp := false, main := true,
    standby := true }

/-- The units that are leased (R407): cores, boundary lane groups, NSL ports, memory channels, as unit words. -/
def leasedUnits : List Nat :=
  List.range 384 ++ (List.range 68).map (4096 + ·) ++ (List.range 12).map (8192 + ·) ++ (List.range 512).map (12288 + ·)

/-- What the health manager and the Links set going at a power-on reset: leases by period (R408), the halving and the writing of scores
(R413), training (R392). -/
def bootEvents : List Instr :=
  (List.range 20).map (fun l => .trainingTimeout l) ++ [.scoreHalving, .scorePersist] ++ leasedUnits.map (fun u => .leaseDue u)

/-- The machine after power-on reset with an empty nonvolatile store. No program is in it (log 2). -/
def State.reset : State :=
  { mem := [], cores := [], clusters := [], teams := [], kernels := [], heirs := [], stores := [], ctxs := [], tlb := [], walks := [], invals := [],
    faulted := [], migrations := [], xrecs := [], xseq := [], regions := Region.identity :: List.replicate 7 Region.off,
    newRegions := none, parts := Partition.whole :: List.replicate 7 Partition.unused, windows := [], aperture := none,
    queues := [], nodes := [], ops := [], indexes := [], publs := [], searches := [], stamps := [], token := [], solo := [],
    offers := [], diffs := [], landings := [], parked := [], delayed := [], badLines := [], poison := [], hostData := [], rebuilding := [], ncl := [],
    parity := [], paritySeq := [], parityAcks := [], parityIn := [], banks := [], chainTags := [], demoted := [], hourly := (0, 0), links := [], pairs := [],
    unreachable := [], merges := [], mergesLost := 0, colls := [], units := [], nvUnits := [], records := [], overflow := 0,
    dump := none, captures := [], rowEvents := [], fwdrop := [], lperiod := 360, disc := Disc.reset, power := Power.reset, clk := 0, sec := 0, ns := 0,
    wall := 0, goes := [], port := [], response := [], assembling := [], packetsOut := [], agenda := bootEvents, sched := [], cur := none, fresh := 0, steps := 0, stop := none, losses := [], glitch := [], evicts := [], refetch := [], eccs := [], fwWrites := [], packetsIn := [], clkRem := 0, timeRem := 0, nextUid := 1, nextId := 1 }

end Sys2Proof.Machine
end

