-- ==== Sys2Proof/Machine/Phys.lean ====
section
/-! DEFINITION. Physical memory: address map regions (R357), committed differences (R98), atomics (R206), the page walk (R346 to
R349). -/

namespace Sys2Proof.Machine

/-- The location word o of b = pa[39:8] under a matrix, rows from row i up (R357). -/
def locWord (b : Nat) : List Nat → Nat → Nat
  | [], _ => 0
  | r :: rs, i => (if parityOf 32 (r &&& b) then 2 ^ i else 0) + locWord b rs (i + 1)

/-- The enabled region that holds a device address (R357). -/
def regionOf (rs : List Region) (pa : Nat) : Option Region :=
  rs.find? (fun r => r.en && decide (r.base * 2 ^ 30 ≤ pa ∧ pa < r.base * 2 ^ 30 + 2 ^ r.lgsize))

/-- The location word of a device address (R357). -/
def locOf (rs : List Region) (pa : Nat) : Nat :=
  match regionOf rs pa with
  | some r => if r.rows = identityRows then pa / 256 % 2 ^ 32 else locWord (pa / 256 % 2 ^ 32) r.rows 0
  | none => pa / 256

/-- Where a byte is kept: device memory by location (so that a new map moves no byte, R358), host memory by address (R345). -/
def memKey (rs : List Region) (pa : Nat) : Nat :=
  if pa < 2 ^ 40 then locOf rs pa * 256 + pa % 256 else pa

/-- Physical addresses that R345 gives to device or host memory. -/
def physOk (pa : Nat) : Bool := decide (pa < 2 ^ 40 ∨ (2 ^ 49 ≤ pa ∧ pa < 2 ^ 50))

/-- Host memory (R345). -/
def isHost (pa : Nat) : Bool := decide (2 ^ 49 ≤ pa)

/-- The stack of a device address (R357). -/
def stackOf (rs : List Region) (pa : Nat) : Nat := locOf rs pa / 64 % 16

/-- The home slice of a line, from 0 to 23, and its die (R21, R357). -/
def sliceOf (rs : List Region) (pa : Nat) : Nat × Nat :=
  let o := locOf rs pa
  let st := o / 64 % 16
  (st / 4, (64 * (st % 4) + 2 * (o / 2 % 32) + o % 2) % 24)

/-- The row field of a location word (R357). -/
def rowOf (o : Nat) : Nat := o / 2 ^ 17

/-- A row of a bank: the location word without its column bits (R357). -/
def rowId (o : Nat) : Nat := o / 2 ^ 13 * 2 ^ 13 + o % 2 ^ 10

/-- Combinations of vectors over GF(2): a basis of pairs of vector and combination, and reduction by it. -/
def gfPairReduce (basis : List (Nat × Nat)) (v : Nat × Nat) : Nat × Nat :=
  basis.foldl (fun v e => if v.1 ^^^ e.1 < v.1 then (v.1 ^^^ e.1, v.2 ^^^ e.2) else v) v
def gfPairBasis (vs : List (Nat × Nat)) : List (Nat × Nat) :=
  vs.foldl (fun b v => let r := gfPairReduce b v; if r.1 = 0 then b else b ++ [r]) []

/-- The device address that a location word belongs to (R357). -/
def State.addressOf (s : State) (o : Nat) : Nat :=
  ((s.regions.filter (fun r => r.en)).findSome? (fun r =>
    let x := gfPairReduce (gfPairBasis ((upFrom 0 32).map (fun j => (locWord (2 ^ j) r.rows 0, 2 ^ j)))) (o, 0)
    let pa := x.2 * 256
    if x.1 = 0 ∧ r.base * 2 ^ 30 ≤ pa ∧ pa < r.base * 2 ^ 30 + 2 ^ r.lgsize then some pa else none)).getD 0

/-- Locations of the parity store: row bits 14:12 all 1 (R359). -/
def inParityStore (rs : List Region) (pa : Nat) : Bool := decide (pa < 2 ^ 40) && locOf rs pa / 2 ^ 29 == 7

/-- Bytes at consecutive physical addresses of a memory. -/
def physBytes (rs : List Region) (m : Memory) (pa : Nat) : Nat → List Byte
  | 0 => []
  | n + 1 => m.read (memKey rs pa) :: physBytes rs m (pa + 1) n

/-- Bytes written to consecutive physical addresses of a memory. -/
def physPut (rs : List Region) (m : Memory) (pa : Nat) : List Byte → Memory
  | [] => m
  | b :: bs => physPut rs (m.write (memKey rs pa) b) (pa + 1) bs

/-- binary32 addition under rne of an atomic fadd (R65, R206). -/
def atomFadd (a b : Nat) : Nat := (faddVal fmtF32 .rne (fdecode fmtF32 a) (fdecode fmtF32 b)).bits

/-- The new value of an atomic of n bits (R206); cmp is the compare value of cas. -/
def atomNew (o : AtomOp) (n old opnd cmp : Nat) : Nat :=
  match o with
  | .add => (old + opnd) % 2 ^ n
  | .sub => (old + (2 ^ n - opnd % 2 ^ n)) % 2 ^ n
  | .minS => if signedOf n opnd < signedOf n old then opnd else old
  | .maxS => if signedOf n old < signedOf n opnd then opnd else old
  | .minN => min old opnd
  | .maxN => max old opnd
  | .and => old &&& opnd
  | .or => old ||| opnd
  | .xor => old ^^^ opnd
  | .xch => opnd
  | .cas => if old = cmp then opnd else old
  | .fadd => atomFadd old opnd

/-- One committed item applied to device-scope memory (R98). Cluster items change nothing there. -/
def applyItem (rs : List Region) (m : Memory) (it : BufItem) : Memory :=
  match it with
  | .store _ _ pa bytes => physPut rs m pa bytes
  | .farRed _ pa o n x => physPut rs m pa (toBytes (n / 8) (atomNew o n (ofBytes (physBytes rs m pa (n / 8))) x 0))
  | .farAtom _ pa o n x cmp _ =>
    physPut rs m pa (toBytes (n / 8) (atomNew o n (ofBytes (physBytes rs m pa (n / 8))) x cmp))
  | .clStore _ _ => m
  | .clRed _ _ _ _ => m
  | .clAtom _ _ _ _ _ _ => m

/-- A unit's items applied in order (R98). -/
def applyItems (rs : List Region) (m : Memory) (its : List BufItem) : Memory := its.foldl (applyItem rs) m

/-- Memory as a device-scope read is served: every committed difference applied, in stamp order (R98). -/
def State.devMem (s : State) : Memory := s.diffs.foldl (fun m d => applyItems s.regions m d.items) s.mem

/-- A device-scope read of n bytes (R98). -/
def State.readPhys (s : State) (pa n : Nat) : List Byte := physBytes s.regions s.devMem pa n

/-- A device-scope read of an n-byte number. -/
def State.numPhys (s : State) (pa n : Nat) : Nat := ofBytes (s.readPhys pa n)

/-- A read by the device of an address given by software: the empty range stops the machine (R345). -/
def State.touch (s : State) (pa : Nat) : State := if physOk pa then s else { s with stop := some pa }

/-- The item that writes bytes at a physical address. -/
def storeItem (pa : Nat) (bytes : List Byte) : BufItem := .store false false pa bytes

/-- Sectors of n bytes from pa (R90). -/
def sectorsOf (pa n : Nat) : List Nat := upFrom (pa / 32) ((pa + n - 1) / 32 + 1 - pa / 32)

/-- The sectors that an item changes at device scope. -/
def itemSectors (it : BufItem) : List Nat :=
  match it with
  | .store _ _ pa bytes => sectorsOf pa bytes.length
  | .farRed _ pa _ n _ => sectorsOf pa (n / 8)
  | .farAtom _ pa _ n _ _ _ => sectorsOf pa (n / 8)
  | .clStore _ _ => []
  | .clRed _ _ _ _ => []
  | .clAtom _ _ _ _ _ _ => []

/-- The union of two lists of numbers, each number once. -/
def unionNat (a b : List Nat) : List Nat := b.foldl (fun acc x => if acc.contains x then acc else acc ++ [x]) a

/-- Two signatures intersect when their AND is nonzero in all four quarters (R91). -/
def sigHit (reads writes : List Nat) : Bool :=
  (List.range 4).all (fun q => reads.any (fun r => writes.any (fun w => Config.sigHash q r % 512 == Config.sigHash q w % 512)))

/-- The end of a page walk (R348): a leaf, or a fault of kind 1 missing or 2 malformed at a level, with the entry's address. -/
inductive WalkEnd
  | leaf (t : Tlb)
  | fault (kind lvl eaddr : Nat)
deriving DecidableEq, Repr

/-- Index and entry geometry of a level (R346): low bit of the index and its width, log2 of the next table's alignment. -/
def levelLow (l : Nat) : Nat := match l with | 0 => 45 | 1 => 32 | 2 => 25 | _ => 18
def levelWidth (l : Nat) : Nat := match l with | 0 => 12 | 1 => 13 | 2 => 7 | _ => 7
def nextAlign (l : Nat) : Nat := match l with | 0 => 2 ^ 16 | 1 => 2 ^ 10 | _ => 2 ^ 10

/-- The walk from a level's table (R346 to R348), the remaining levels as fuel. -/
def walkFrom (s : State) (ctx va : Nat) : Nat → Nat → Nat → WalkEnd
  | 0, l, table => .fault 2 l table
  | fuel + 1, l, table =>
    let ea := table + 8 * (va / 2 ^ levelLow l % 2 ^ levelWidth l)
    if !physOk ea then .fault 2 l ea
    else
      let e := s.numPhys ea 8
      let addr := field e 49 10 * 2 ^ 10
      if !bitAt e 0 then .fault 1 l ea
      else if field e 63 50 != 0 || field e 9 7 != 0 then .fault 2 l ea
      else if bitAt e 1 then
        if l = 0 || addr % 2 ^ levelLow l != 0 || !physOk addr then .fault 2 l ea
        else .leaf { unit := 480, ctx := ctx, va := va / 2 ^ levelLow l * 2 ^ levelLow l, lg := levelLow l, frame := addr, p := bitAt e 6,
                     priv := bitAt e 5, x := bitAt e 4, w := bitAt e 3, rd := bitAt e 2 }
      else if l = 3 || field e 6 2 != 0 || addr % nextAlign l != 0 || !physOk addr then .fault 2 l ea
      else walkFrom s ctx va fuel (l + 1) addr

/-- A Context, or a Free one. -/
def State.ctx (s : State) (c : Nat) : Ctx := s.ctxs.getD c Ctx.reset

def State.setCtx (s : State) (c : Nat) (x : Ctx) : State := { s with ctxs := s.ctxs.set c x }

/-- The walk of a Context's address (R346). -/
def State.walk (s : State) (ctx va : Nat) : WalkEnd := walkFrom s ctx va 4 0 (s.ctx ctx).ptroot

/-- The granule of an address: the 256 KiB unit of a translation fault (R350). -/
def granOf (va : Nat) : Nat := va / 2 ^ 18

/-- Whether a translation is of an address of a Context. -/
def Tlb.maps (t : Tlb) (ctx va : Nat) : Bool := t.ctx == ctx && decide (t.va ≤ va ∧ va < t.va + 2 ^ t.lg)

/-- The TLBs of a core and of its cluster, and of the engines (R351). -/
def coreTlb (c : Nat) : Nat := c
def clusterTlb (c : Nat) : Nat := 384 + c / 4
def engineTlb : Nat := 480

/-- The entry of one TLB for an address. -/
def State.tlbAt (s : State) (u ctx va : Nat) : Option Tlb := s.tlb.find? (fun t => t.unit == u && t.maps ctx va)

/-- The cached translation of an address for a core: its own TLB, then its cluster's (R351). -/
def State.tlbOf (s : State) (c ctx va : Nat) : Option Tlb := (s.tlbAt (coreTlb c) ctx va).or (s.tlbAt (clusterTlb c) ctx va)

/-- Entries of a TLB (R351); the engines' has no number of its own. -/
def tlbSize (u : Nat) : Option Nat := if u < 384 then some 64 else if u < 480 then some 1024 else none

/-- An entry is placed in a TLB; in a full one it takes the place of an entry that is free (log 86). -/
def State.tlbPut (s : State) (t : Tlb) : State :=
  if (s.tlbAt t.unit t.ctx t.va).isSome then s
  else
    let mine := s.tlb.filter (fun x => x.unit == t.unit)
    match tlbSize t.unit with
    | some n =>
      if n ≤ mine.length then
        { s with tlb := s.tlb.filter (fun x => mine[(Config.freeWord s.fresh).toNat % n]? != some x) ++ [t], fresh := s.fresh + 1 }
      else { s with tlb := s.tlb ++ [t] }
    | none => { s with tlb := s.tlb ++ [t] }

/-- Pages used, each once. -/
def unionPages (a b : List (Nat × Nat)) : List (Nat × Nat) := b.foldl (fun acc x => if acc.contains x then acc else acc ++ [x]) a

/-- A leaf found by a walk goes to the TLBs that asked for it: a core's, and then its cluster's (R350, R351). -/
def State.tlbFill (s : State) (units : List Nat) (t : Tlb) : State :=
  units.foldl (fun s u =>
    if u < 384 then (s.tlbPut { t with unit := u }).tlbPut { t with unit := clusterTlb u } else s.tlbPut { t with unit := u }) s

/-- A translation that a core has from its cluster's TLB enters its own (R351). -/
def State.tlbTouch (s : State) (c ctx va : Nat) : State :=
  match s.tlbAt (coreTlb c) ctx va, s.tlbAt (clusterTlb c) ctx va with
  | none, some t => s.tlbPut { t with unit := coreTlb c }
  | _, _ => s

/-- The physical address under a translation. -/
def Tlb.phys (t : Tlb) (va : Nat) : Nat := t.frame + (va - t.va)

/-- A partition descriptor. -/
def State.part (s : State) (p : Nat) : Partition := s.parts.getD p Partition.unused

/-- The sealed partition of a partition: itself, or the parent of a soft one (R37, R271). -/
def State.sealedOf (s : State) (p : Nat) : Nat := if (s.part p).kind = 2 then (s.part p).parent else p

/-- The sealed partition that owns a die (R37). -/
def State.partOfDie (s : State) (die : Nat) : Nat :=
  ((List.range 8).find? (fun p => (s.part p).kind == 1 && bitAt (s.part p).dmask die)).getD 0

/-- The masks of a Context's units: a sealed partition's minus those of its soft children (R272). -/
def State.stacksOf (s : State) (p : Nat) : Nat :=
  if (s.part p).kind = 1 then
    (List.range 8).foldl (fun m i => if (s.part i).kind = 2 ∧ (s.part i).parent = p then m - (m &&& (s.part i).stmask) else m)
      (s.part p).stmask
  else (s.part p).stmask

def State.clustersOf (s : State) (p : Nat) : Nat :=
  if (s.part p).kind = 1 then
    (List.range 8).foldl (fun m i => if (s.part i).kind = 2 ∧ (s.part i).parent = p then m - (m &&& (s.part i).clmask) else m)
      (s.part p).clmask
  else (s.part p).clmask

def State.nslOf (s : State) (p : Nat) : Nat :=
  if (s.part p).kind = 1 then
    (List.range 8).foldl (fun m i => if (s.part i).kind = 2 ∧ (s.part i).parent = p then m - (m &&& (s.part i).nslmask) else m)
      (s.part p).nslmask
  else (s.part p).nslmask

/-- Whether the module is enrolled in a parity group (R400). -/
def State.enrolled (s : State) : Bool := s.colls.any (fun g => g.2.par && decide (g.2.msz ≠ 0))

/-- What an access needs of a leaf (R349). -/
def leafAllows (t : Tlb) (k : AccKind) : Bool :=
  match k with
  | .load => t.rd
  | .store => t.w
  | .atomic => t.rd && t.w
  | .fetch => t.x
  | .engRead => t.rd
  | .engWrite => t.w

/-- Check 4 of R194 as R349 states it: permission, level, partition, parity store. -/
def State.allowed (s : State) (ctx : Nat) (t : Tlb) (va : Nat) (k : AccKind) : Bool :=
  let c := s.ctx ctx
  let pa := t.phys va
  leafAllows t k && (!t.priv || c.privl == 1)
    && (isHost pa || (bitAt (s.stacksOf c.part) (stackOf s.regions pa)
        && !(c.enrolled && s.enrolled && inParityStore s.regions pa)))

/-- A line's number: location or host address div 64. -/
def lineKey (rs : List Region) (pa : Nat) : Nat := memKey rs pa / 64

/-- Bytes that an item changes, with where they lie. -/
def itemSpan (it : BufItem) : Option (Nat × Nat) :=
  match it with
  | .store _ _ pa bs => some (pa, bs.length)
  | .farRed _ pa _ n _ => some (pa, n / 8)
  | .farAtom _ pa _ n _ _ _ => some (pa, n / 8)
  | _ => none

/-- An address on each line that items change. -/
def itemAddrs (rs : List Region) (its : List BufItem) : List Nat :=
  its.foldl (fun acc it => match itemSpan it with
    | some (pa, n) => (upFrom pa n).foldl (fun acc a => if acc.any (fun b => lineKey rs b == lineKey rs a) then acc else acc ++ [a]) acc
    | none => acc) []

/-- Whether a leaf with p = 1 maps the frame of a byte, among those that a table from a level down leads to (R346, R359). -/
def protLeaf (s : State) (pa : Nat) : Nat → Nat → Nat → Bool
  | 0, _, _ => false
  | fuel + 1, l, table =>
    (upFrom 0 (2 ^ levelWidth l)).any (fun i =>
      let ea := table + 8 * i
      let e := s.numPhys ea 8
      let addr := field e 49 10 * 2 ^ 10
      physOk ea && bitAt e 0 && field e 63 50 == 0 && field e 9 7 == 0 && physOk addr
        && (if bitAt e 1 then l != 0 && addr % 2 ^ levelLow l == 0 && bitAt e 6 && decide (addr ≤ pa ∧ pa < addr + 2 ^ levelLow l)
            else l != 3 && field e 6 2 == 0 && addr % nextAlign l == 0 && protLeaf s pa fuel (l + 1) addr))

/-- Whether a leaf of a Context with p = 1 maps the frame of a byte (R384). -/
def State.protFor (s : State) (ctx pa : Nat) : Bool := (s.ctx ctx).state != .free && protLeaf s pa 4 0 (s.ctx ctx).ptroot

/-- Whether a byte lies on a protected Page (R359): a leaf with p = 1, in a TLB or in a Context's table, maps it, on an enrolled module. -/
def State.isProtected (s : State) (pa : Nat) : Bool :=
  s.enrolled && !isHost pa
    && (s.tlb.any (fun t => t.p && decide (t.frame ≤ pa ∧ pa < t.frame + 2 ^ t.lg)) || s.ctxs.any (fun c => s.protFor c.1 pa))

/-- The lines of items that lie on protected Pages. -/
def State.protectedOf (s : State) (its : List BufItem) : List Nat :=
  if s.enrolled then ((itemAddrs s.regions its).filter s.isProtected).map (lineKey s.regions) else []

/-- An xorrs or xorrb command (R238, R403). -/
def Op.restores (o : Op) : Bool := field (ofBytes o.cmd) 7 0 == 3 && decide (2 ≤ field (ofBytes o.cmd) 23 16)

/-- Whether a stripe line is being computed by xorrs or xorrb: its bytes are on their way to it (R403). -/
def State.computing (s : State) (pa : Nat) : Bool :=
  s.offers.any (fun o => match o.what with
    | .engine id items => (s.ops.get? id).any Op.restores && items.any (fun it => match itemSpan it with
        | some (a, n) => decide (a < pa / 64 * 64 + 64 ∧ pa / 64 * 64 < a + n)
        | none => false)
    | _ => false)

/-- Whether a request for a line parks at the home: uncorrectable on a protected Page, in a migrating frame, on a row under rebuild, or being
computed by xorrs or xorrb (R363, R403). -/
def State.parks (s : State) (pa : Nat) : Bool :=
  let ln := lineKey s.regions pa
  s.badLines.contains ln
    || s.migrations.any (fun m => decide (m.old ≤ pa ∧ pa < m.old + 2 ^ m.lg))
    || (decide (pa < 2 ^ 40) && s.rebuilding.contains (rowId (locOf s.regions pa)))
    || s.computing pa

/-- Whether an item changes the byte at an address. -/
def itemHas (it : BufItem) (a : Nat) : Bool :=
  match itemSpan it with | some (pa, n) => decide (pa ≤ a ∧ a < pa + n) | none => false

/-- Whether a byte lies on a poisoned line and no unit stamped since has written it: applied there (bit i of the entry for byte i of the
line), or committed and on its way, which a read finds too (R98, R365). -/
def State.poisonedByte (s : State) (a : Nat) : Bool :=
  match s.poison.get? (lineKey s.regions a) with
  | some m => !bitAt m.done (memKey s.regions a % 64)
      && !s.diffs.any (fun d => decide (m.since.getD d.part 0 < d.stamp) && d.items.any (fun it => itemHas it a))
  | none => false

/-- Whether any of n bytes from pa is poisoned (R365). -/
def State.poisoned (s : State) (pa n : Nat) : Bool := (upFrom pa n).any s.poisonedByte

/-- Whether a store of a write buffer holds a byte (R92). -/
def bufHolds (buf : List BufItem) (a : Nat) : Bool :=
  buf.any (fun it => match it with
    | .store _ _ pa bs => decide (pa ≤ a ∧ a < pa + bs.length)
    | .clStore pa bs => decide (pa ≤ a ∧ a < pa + bs.length)
    | _ => false)

/-- Whether a read of n bytes that finds a write buffer in front of memory meets poison (R92, R98, R365). -/
def State.poisonedPast (s : State) (buf : List BufItem) (pa n : Nat) : Bool :=
  (upFrom pa n).any (fun a => s.poisonedByte a && !bufHolds buf a)

/-- The bytes of a line that are poisoned. -/
def State.poisonOf (s : State) (line : Nat) : List Nat := (upFrom 0 64).filter (fun i => s.poisonedByte (64 * line + i))

/-- Poison marks after the writes of a unit of a sealed partition: a line's mark goes once every byte has been written by units stamped
after it was set (R365). -/
def clearPoison (rs : List Region) (p : Tab Poison) (part stamp pa n : Nat) : Tab Poison :=
  (upFrom pa n).foldl (fun p a =>
    let ln := lineKey rs a
    match p.get? ln with
    | some m =>
      if stamp ≤ m.since.getD part 0 then p
      else
        let d := m.done ||| 2 ^ (memKey rs a % 64)
        if d = 2 ^ 64 - 1 then p.erase ln else p.set ln { m with done := d }
    | none => p) p

/-- A scored unit (R407). -/
def State.unit (s : State) (u : Nat) : HUnit := s.units.getD u HUnit.reset

/-- The channel of a location word, by its number in its class (R357, R407). -/
def channelOf (o : Nat) : Nat := o / 64 % 16 * 32 + o / 2 % 32

/-- The 1 MiB window of its channel in which a location lies, in ascending location order (R411). -/
def channelWindow (o : Nat) : Nat := (o / 2 ^ 10 * 2 + o % 2) / 4096

/-- Whether a location lies in a window that is pinned in its channel's memory-side cache slice, from where its requests are served (R411). -/
def State.pinned (s : State) (o : Nat) : Bool := (s.unit (3 * 4096 + channelOf o)).window == some (channelWindow o)

/-- The number of a bank: stack, channel, pseudo-channel, bank (R366). -/
def bankNo (stack channel pc bank : Nat) : Nat := ((stack * 32 + channel) * 2 + pc) * 16 + bank

/-- The bank of a location word (R357). -/
def bankOf (o : Nat) : Nat := bankNo (field o 9 6) (field o 5 1) (field o 0 0) (field o 16 13)

/-- Whether a refresh or its back-off occupies the bank of a device address (R366); a pinned window is served elsewhere (R411). -/
def State.bankBusy (s : State) (pa : Nat) : Bool :=
  decide (pa < 2 ^ 40) && decide (s.wall < (s.banks.getD (bankOf (locOf s.regions pa)) (0, 0)).1) && !s.pinned (locOf s.regions pa)

/-! ## The home fault queue (R363) -/

/-- The slice of a line, counted over the device. -/
def sliceNo (rs : List Region) (pa : Nat) : Nat := (sliceOf rs pa).1 * 24 + (sliceOf rs pa).2

/-- Entries of a slice's fault queue. -/
def faultEntries : Nat := 32

/-- A request parks: behind those of its line, or in a new entry. -/
def Park.join (p : Park) (r : Req) : Park := if p.reqs.contains r then p else { p with reqs := p.reqs ++ [r] }

/-- Whether a request stands in an order of its own; the device's other reads only wait until those that do are served. -/
def Req.ranked (r : Req) : Bool := match r with | .group _ _ _ _ => true | .op _ => true | _ => false

/-- Whether an order of requests begins with another. -/
def notFirst (q : List Req) (r : Req) : Bool := match q.find? Req.ranked with | some x => x != r | none => false

/-- Whether an entry of a home's fault queue is a line's. -/
def State.parkOf (s : State) (pa : Nat) (e : Park) : Bool := e.slice == sliceNo s.regions pa && e.line == lineKey s.regions pa

/-- Whether a request for a line must let one that arrived before it be served first: at the line's home, where requests are replayed in their
order of arrival (R363), or at a bank that a refresh has delayed (R366). -/
def State.behind (s : State) (pa : Nat) (r : Req) : Bool :=
  s.parked.any (fun e => s.parkOf pa e && notFirst e.reqs r)
    || (decide (pa < 2 ^ 40) && notFirst ((s.delayed.filter (fun d => d.1 == bankOf (locOf s.regions pa))).map (fun d => d.2)) r)

/-- Whether a request parks at a line's home: because of the line, or behind requests that the home is replaying (R363). -/
def State.parksAt (s : State) (r : Req) (pa : Nat) : Bool :=
  s.parks pa || s.parked.any (fun e => s.parkOf pa e && notFirst e.reqs r)

/-- Whether a slice has an entry for a line, or a free one. -/
def State.parkRoom (s : State) (pa : Nat) : Bool :=
  s.parked.any (s.parkOf pa) || decide ((s.parked.filter (fun e => e.slice == sliceNo s.regions pa)).length < faultEntries)

/-- A request leaves the queues: it has been served, stands elsewhere, or its requester is no more. -/
def State.unparkReq (s : State) (r : Req) : State :=
  { s with parked := (s.parked.map (fun e => { e with reqs := e.reqs.filter (· != r) })).filter (fun e => !e.reqs.isEmpty)
           delayed := s.delayed.filter (fun d => d.2 != r) }

/-- A request for a line is parked at the line's home, and nowhere else; without room it is not held there. -/
def State.parkLine (s : State) (pa : Nat) (r : Req) : State :=
  if s.parked.any (fun e => s.parkOf pa e && e.reqs.contains r) || !s.parkRoom pa then s
  else
    let t := s.unparkReq r
    if t.parked.any (s.parkOf pa) then { t with parked := t.parked.map (fun e => if s.parkOf pa e then e.join r else e) }
    else { t with parked := t.parked ++ [{ slice := sliceNo s.regions pa, line := lineKey s.regions pa, reqs := [r], ready := false }] }

/-- A request waits at an occupied bank, behind those that came before it (R366), and nowhere else. -/
def State.delayAt (s : State) (pa : Nat) (r : Req) : State :=
  let b := bankOf (locOf s.regions pa)
  if s.delayed.contains (b, r) then s
  else
    let t := s.unparkReq r
    { t with delayed := t.delayed ++ [(b, r)] }

/-- A request for a line waits: in the home's queue where it parks, or at its bank. -/
def State.await (s : State) (pa : Nat) (r : Req) : State :=
  if s.parksAt r pa then s.parkLine pa r
  else if s.bankBusy pa && r.ranked then s.delayAt pa r
  else s

/-- Whether a parked access of a Group goes on: the home replays it, or holds it no more (R363). -/
def State.replayed (s : State) (uid lane : Nat) : Bool :=
  let mine (r : Req) : Bool := match r with | .group _ _ u l => u == uid && l == lane | _ => false
  !s.parked.any (fun e => e.reqs.any mine && !(e.ready && (e.reqs.find? Req.ranked).any mine))

/-- A home has repaired or moved lines: it replays the requests parked for them, one after another in their order, and frees the entries
(R363). The device's other reads are made again by what asked for them. -/
def State.replay (s : State) (lines : Nat → Bool) : State :=
  let es := s.parked.map (fun e => if lines e.line then { e with ready := true, reqs := e.reqs.filter (· != .other) } else e)
  { s with parked := es.filter (fun e => !e.reqs.isEmpty) }

/-- Whether a slice's input waits behind a committed difference that finds no entry (R363). -/
def State.inputBlocked (s : State) (pa : Nat) : Bool :=
  decide (faultEntries ≤ (s.parked.filter (fun e => e.slice == sliceNo s.regions pa)).length)
    && s.diffs.any (fun d => (itemAddrs s.regions d.items).any (fun a =>
        sliceNo s.regions a == sliceNo s.regions pa && s.parks a && !s.parkRoom a))

/-- Whether a request is of a Group. -/
def Req.ofGroup (c slot uid : Nat) (r : Req) : Bool := match r with | .group c1 s1 u1 _ => c1 == c && s1 == slot && u1 == uid | _ => false

/-- The requests of a Group leave the queues with its Chunk. -/
def State.unparkGroup (s : State) (c slot uid : Nat) : State :=
  { s with parked := (s.parked.map (fun e => { e with reqs := e.reqs.filter (fun r => !r.ofGroup c slot uid) })).filter (fun e => !e.reqs.isEmpty)
           delayed := s.delayed.filter (fun d => !d.2.ofGroup c slot uid) }

end Sys2Proof.Machine
end

