-- ==== Sys2Proof/Machine/Route.lean ====
section
/-! DEFINITION. The ways of packets: die boundaries and their routes (R19, R394), sites and ports of a crossing (R389, R390), NCL lane
groups (R31). -/

namespace Sys2Proof.Machine

/-- Links: 0 to 3 die boundaries, 4 to 15 NSL ports, 16 to 19 NCL lane groups (R391). -/
def linkPort (n : Nat) : Nat := 4 + n
def linkNcl (d : Nat) : Nat := 16 + d
def State.link (s : State) (l : Nat) : Link := s.links.getD l Link.reset
def State.isUp (s : State) (l : Nat) : Bool := (s.link l).state == .up

/-! ## Between dies (R19, R394) -/

/-- Place of a die on the ring of boundaries, and the die at a place: boundary b joins places b and b + 1 (R19). -/
def ringPlace (die : Nat) : Nat := match die with | 0 => 0 | 1 => 1 | 3 => 2 | _ => 3
def ringDie (place : Nat) : Nat := match place % 4 with | 0 => 0 | 1 => 1 | 2 => 3 | _ => 2

/-- The two ways from a die to another: boundaries passed and dies passed through, the default first (R19). -/
def waysOf (a b : Nat) : List (List Nat × List Nat) :=
  let i := ringPlace a
  let n := (ringPlace b + 4 - i) % 4
  let up : List Nat × List Nat := ((upFrom 0 n).map (fun k => (i + k) % 4), (upFrom 1 (n - 1)).map (fun k => ringDie (i + k)))
  let down : List Nat × List Nat :=
    ((upFrom 0 (4 - n)).map (fun k => (i + 7 - k) % 4), (upFrom 1 (3 - n)).map (fun k => ringDie (i + 4 - k)))
  if n = 0 then [([], [])]
  else if n = 1 || (n = 2 && (a == 0 || a == 3)) then [up, down] else [down, up]

/-- The ways that stay within the partition of the source's die (R394). -/
def State.waysIn (s : State) (a b : Nat) : List (List Nat) :=
  let d := (s.part (s.partOfDie a)).dmask
  ((waysOf a b).filter (fun w => w.2.all (bitAt d))).map (fun w => w.1)

/-- Whether every boundary of a way is Up or Retraining, which packets queue behind (R394). -/
def State.wayServes (s : State) (w : List Nat) : Bool := w.all (fun b => s.isUp b || (s.link b).state == .retraining)

/-- The route in force (R394): the first way that serves. -/
def State.route (s : State) (a b : Nat) : Option (List Nat) := (s.waysIn a b).find? s.wayServes

/-- Whether traffic of a die reaches another now: it waits behind a Retraining boundary, and where no way is open (R394). -/
def State.reaches (s : State) (a b : Nat) : Bool := a == b || (match s.route a b with | some w => w.all s.isUp | none => false)

/-- Whether a packet of a die for an NSL port goes on its way and out now: to the die that owns the port (R390), where it waits while the port
is not Up (R394). -/
def State.nslOpen (s : State) (die port : Nat) : Bool := s.reaches die (port / 3) && s.isUp (linkPort port)

/-- The dies of a sealed partition, in ascending order. -/
def State.diesOf (s : State) (part : Nat) : List Nat := (upFrom 0 4).filter (bitAt (s.part part).dmask)

/-- The die whose lane group of NCL carries an address of a sealed partition: by the interleave, or, where that one is not Up, the lowest
that is (R31, R394). -/
def State.laneDie (s : State) (part a : Nat) : Option Nat :=
  let ds := s.diesOf part
  match ds[a / 256 % max 1 ds.length]? with
  | some d => if s.isUp (linkNcl d) then some d else ds.find? (fun d => s.isUp (linkNcl d))
  | none => none

/-- The die of a physical address for traffic of a die: that of its home, or, for host memory, that of its lane group of NCL;
none where no lane group is Up (R394). -/
def State.homeDie (s : State) (die pa : Nat) : Option Nat :=
  if isHost pa then s.laneDie (s.partOfDie die) pa else some (sliceOf s.regions pa).1

/-- Whether traffic of a die reaches an address's home, or the host, now. -/
def State.reachesPa (s : State) (die pa : Nat) : Bool := match s.homeDie die pa with | some d => s.reaches die d | none => false

/-- Whether a request of a die for an address waits: its line parks, the slice's input is blocked, no way is open, a refresh occupies its
bank, or an earlier request stands before it at its line or bank (R363, R366, R394, R403). -/
def State.waitsFor (s : State) (r : Req) (die pa : Nat) : Bool :=
  s.parks pa || s.inputBlocked pa || !s.reachesPa die pa || s.bankBusy pa || s.behind pa r

/-- The same of a read of the device or the host that has no place of its own in those orders. -/
def State.waits (s : State) (die pa : Nat) : Bool := s.waitsFor .other die pa

/-! ## Sites (R389, R390) -/

/-- A crossing of the boundary to the die in the same row, or in the same column. -/
def rowPorts : List (Nat × Nat) := [(7, 2), (7, 4)]
def colPorts : List (Nat × Nat) := [(2, 5), (4, 5), (6, 5)]

/-- The number of a site. -/
def siteNo (x : Nat × Nat) : Nat := 8 * x.2 + x.1

/-- The sites of clusters, full routers, and of L2 slices, half routers, by their numbers on the die (R17). -/
def clusterSite (n : Nat) : Nat × Nat := (n % 4 * 2 + n / 4 % 2, n / 4)
def sliceSite (n : Nat) : Nat × Nat := (n % 4 * 2 + 1 - n / 4 % 2, n / 4)

/-- The edge ports' sites, in a die's own frame. -/
def stackSite (k : Nat) : Nat × Nat := match k % 4 with | 0 => (1, 0) | 1 => (3, 0) | 2 => (0, 1) | _ => (0, 3)
def nclSite : Nat × Nat := (5, 0)
def nslSite : Nat × Nat := (7, 0)
def engineSite : Nat × Nat := (0, 5)

/-- The port by which a packet for a site crosses a boundary: one to the die in the same row, or in the same column (boundaries 0 and 2
join dies of a row: R19). -/
def crossingPort (boundary : Nat) (site : Nat × Nat) : Nat × Nat :=
  let ps := if boundary % 2 = 0 then rowPorts else colPorts
  ps.getD (siteNo site % ps.length) (7, 2)

/-- Full routers. -/
def fullSite (c r : Nat) : Bool := (c + r) % 2 == 0

/-- A step of a coordinate towards another. -/
def towards (a b : Nat) : Nat := if a < b then a + 1 else a - 1

/-- The sites at which a packet's route turns (R389): none, one corner, or a jog. -/
def meshTurns (c1 r1 c2 r2 : Nat) : List (Nat × Nat) :=
  if c1 = c2 ∨ r1 = r2 then []
  else if fullSite c2 r1 then [(c2, r1)]
  else if fullSite c1 r2 then [(c1, r2)]
  else let j := towards c2 c1; [(j, r1), (j, r2)]

end Sys2Proof.Machine
end

