-- ==== Sys2Proof/Machine/Ops.lean ====
section
/-! DEFINITION. The named operations over cores, registers and Chunks: where registers lie (R66, R78), undo (R81, R82), the end and
the squash of a Chunk (R86, R89, R100), committed units (R93 to R98), taking a trap (R279, R280) and returning from one (R258),
stopping a Kernel (R281, R311, R314). -/

namespace Sys2Proof.Machine

/-- The outcome of a meaning. -/
abbrev Out := Host.Outcome State Fault Refusal

/-! ## Cores, Groups, Kernels -/

def State.core (s : State) (c : Nat) : Core := s.cores.getD c Core.reset
def State.setCore (s : State) (c : Nat) (k : Core) : State := { s with cores := s.cores.set c k }
def State.group? (s : State) (c slot : Nat) : Option Group := (s.core c).groups.get? slot
def State.setGroup (s : State) (c slot : Nat) (g : Group) : State :=
  s.setCore c { s.core c with groups := (s.core c).groups.set slot g }
def State.modGroup (s : State) (c slot : Nat) (f : Group → Group) : State :=
  match s.group? c slot with
  | some g => s.setGroup c slot (f g)
  | none => s

/-- Events that a step causes, due after those already due. -/
def State.due (s : State) (es : List Instr) : State := { s with agenda := s.agenda ++ es }

/-- A launch record with nothing in it, read where a core holds no Kernel. -/
def Launch.empty : Launch :=
  { codebase := 0, codelen := 0, trapent := 0xFFFFFFFF, entry := 0, gridx := 1, gridy := 1, gridz := 1, groups := 1, ncopy := 0,
    nmat := 0, tcores := 1, stage := 0, restartable := false, regs := 32, cdepth := 0, mirror := 0, lchain := false, fpen := 0,
    chain := 0, nbar := 0, tscr := 0, poolpart := 0, prevlr := 0, argp := 0, rings := List.replicate 8 (0, false),
    slots := List.replicate 8 0 }

/-- The launch record of the Kernel that a core holds. -/
def State.launchAt (s : State) (c : Nat) : Launch :=
  match (s.core c).kernel with
  | some k => match s.kernels.get? k with
    | some x => x.launch
    | none => Launch.empty
  | none => Launch.empty

/-- The Context of the Kernel that a core holds. -/
def State.ctxAt (s : State) (c : Nat) : Nat :=
  match (s.core c).kernel with
  | some k => match s.kernels.get? k with
    | some x => x.ctx
    | none => 0
  | none => 0

/-- Die, device-wide cluster and core within the cluster of a core number (R16). -/
def dieOf (c : Nat) : Nat := c / 96
def clusterOf (c : Nat) : Nat := c / 4
def coreInCluster (c : Nat) : Nat := c % 4

/-! ## Where registers lie (R78) -/

/-- The Group block size. -/
def bsize (l : Launch) : Nat := 256 + 128 * l.regs + 256 * ((l.cdepth + 1) / 2)
def regBase (l : Launch) (slot : Nat) : Nat := slot * bsize l
def sAddr (rb i : Nat) : Nat := rb + 4 * i
def mAddr (rb i : Nat) : Nat := rb + 0x80 + 4 * i
def vAddr (rb n lane : Nat) : Nat := rb + 0x100 + 128 * n + 4 * lane
def rowAddr (rb nv d lane : Nat) : Nat := rb + 0x100 + 128 * nv + 128 * d + 4 * lane

/-- Offsets in the uniform area of the special registers that a Group holds (R71, R78). -/
def offLpart : Nat := 0xB0
def offChunkstat : Nat := 0xB4
def offTrapcause : Nat := 0xB8
def offTrapval : Nat := 0xBC
def offTrappc : Nat := 0xC0
def offWtimeh : Nat := 0xC4

def State.poolNum (s : State) (c a n : Nat) : Nat := (s.core c).pool.num a n
def State.poolPut (s : State) (c a : Nat) (bytes : List Byte) : State :=
  s.setCore c { s.core c with pool := (s.core c).pool.put a bytes }
def State.poolPut32 (s : State) (c a x : Nat) : State := s.poolPut c a (toBytes 4 x)

/-- Poolpart fields (R76), and the regions' bases. -/
def partRegu (p : Nat) : Nat := field p 6 0
def partScru (p : Nat) : Nat := field p 13 7
def partAccn (p : Nat) : Nat := field p 17 14
def partUndou (p : Nat) : Nat := field p 24 18
def scrBase (p : Nat) : Nat := partRegu p * 16384
def accBase (p : Nat) : Nat := (partRegu p + partScru p) * 16384
def ckptBase (p : Nat) : Nat := (partRegu p + partScru p + partAccn p) * 16384
def undoBase (p : Nat) : Nat := (partRegu p + partScru p + 2 * partAccn p) * 16384
def l1Base (p : Nat) : Nat := (partRegu p + partScru p + 2 * partAccn p + partUndou p) * 16384

/-- Element (row, column) of a tile: rows of 64 words, row after row (log 10). -/
def tileAddr (p tile row col : Nat) : Nat := accBase p + tile * 16384 + row * 256 + col * 4
def ckptAddr (p tile : Nat) : Nat := ckptBase p + tile * 16384

/-- Special registers of a Group in its uniform area. -/
def State.special (s : State) (c slot off : Nat) : Nat := s.poolNum c (regBase (s.launchAt c) slot + off) 4
def State.setSpecial (s : State) (c slot off x : Nat) : State :=
  s.poolPut32 c (regBase (s.launchAt c) slot + off) x

/-- The live-lane mask, m0 (R68). -/
def State.liveMask (s : State) (c slot : Nat) : Nat := s.poolNum c (mAddr (regBase (s.launchAt c) slot) 0) 4

/-- The 32 lane numbers. -/
def lanes32 : List Nat := List.range 32

/-- The lanes of a mask. -/
def lanesOf (m : Nat) : List Nat := lanes32.filter (bitAt m)

/-- The mask of a list of lanes. -/
def maskOf (ls : List Nat) : Nat := lanes32.foldl (fun m l => if ls.contains l then m + 2 ^ l else m) 0

/-- The Team of a Group. -/
def State.teamOf (s : State) (g : Group) : Option Team := s.teams.get? g.team

/-! ## chunkstat (R72) -/

def State.chunkstat (s : State) (c slot : Nat) : Nat := s.special c slot offChunkstat
def statLimlog (x : Nat) : Nat := field x 15 12
def statSolo (x : Nat) : Bool := bitAt x 8
def statSqcnt (x : Nat) : Nat := field x 7 4
def statIovf (x : Nat) : Bool := bitAt x 0
def mkStat (limlog sqcnt : Nat) (solo iovf : Bool) : Nat := limlog * 4096 + solo.toNat * 256 + sqcnt * 16 + iovf.toNat
/-- The value after a commit, iovf kept (R72). -/
def statAfterCommit (x : Nat) : Nat := mkStat 12 0 false (statIovf x)

/-! ## Undo (R81, R82) -/

/-- The pool sectors of a write. -/
def poolSectors (a n : Nat) : List Nat := if n = 0 then [] else upFrom (a / 32) ((a + n - 1) / 32 + 1 - a / 32)

/-- Undo entries for the sectors of a write that are not logged yet. -/
def addUndo (s : State) (u : List Undo) (core a n : Nat) : List Undo :=
  (poolSectors a n).foldl (fun u x =>
    if u.any (fun e => e.core == core && e.sector == x) then u
    else u ++ [{ core := core, sector := x, bytes := (s.core core).pool.bytes (32 * x) 32 }]) u

/-- A pool write of a Group that its Chunk logs (R82). -/
def State.poolLogged (s : State) (c slot core a : Nat) (bytes : List Byte) : State :=
  match s.group? c slot with
  | some g =>
    let u := addUndo s g.chunk.undo core a bytes.length
    (s.setGroup c slot { g with chunk := { g.chunk with undo := u } }).poolPut core a bytes
  | none => s.poolPut core a bytes

/-- Restore logged sectors, newest entry first (R82). -/
def State.restoreUndo (s : State) (u : List Undo) : State :=
  u.reverse.foldl (fun s e => s.poolPut e.core (32 * e.sector) e.bytes) s

/-! ## Chunks -/

/-- A new Chunk, with the undo copies of R81. -/
def freshChunk (uniform : List Byte) (lanes : List Lane) (inTrap : Option (List Nat)) : Chunk :=
  { phase := .opened, words := 0, reads := [], writes := [], clw := [], buf := [], acts := [], uniform := uniform, lanes := lanes,
    undo := [], tiles := [], pages := [], nearLines := [], endClk := 0, after := .run, soloNs := 0, inTrap := inTrap }

/-- The uniform area of a Group. -/
def State.uniformOf (s : State) (c slot : Nat) : List Byte := (s.core c).pool.bytes (regBase (s.launchAt c) slot) 256

/-- No sequence in progress. -/
def Seq.empty : Seq := { n := 0, first := 0, xp := none, limms := [] }

/-- Open the Group's next Chunk at its present state. -/
def State.openChunk (s : State) (c slot : Nat) : State :=
  match s.group? c slot with
  | some g => s.setGroup c slot { g with chunk := freshChunk (s.uniformOf c slot) g.lanes g.inTrap, seq := Seq.empty, chosen := none }
  | none => s

/-- The Chunk ends: the Group is Committing and CHUNK_READY is due (R85, R86, R89). Words of an unfinished sequence leave the
Chunk (R122). -/
def State.endChunk (s : State) (c slot : Nat) (after : After) : State :=
  match s.group? c slot with
  | some g =>
    (s.setGroup c slot
      { g with state := .committing, chosen := none, seq := Seq.empty,
               chunk := { g.chunk with words := g.chunk.words - g.seq.n, after := after,
                                       phase := if g.chunk.phase = .soloRun then .soloRun else .ended, endClk := s.clk } }).due
      [.chunkReady c slot]
  | none => s

/-- Restore tiles from their checkpoints (R70, R228). -/
def State.restoreTiles (s : State) (c : Nat) (tiles : List Nat) : State :=
  tiles.foldl (fun s t =>
    let k := s.core c
    s.setCore c { k with pool := k.pool.paste (tileAddr k.poolpart t 0 0) 16384 (k.pool.slice (ckptAddr k.poolpart t) 16384) }) s

/-- A core without a Group's MMAs in flight (R228) and its places in the tiles' orders (R227); of the MMAs before another place, those that
stay count. -/
def Core.dropMmas (k : Core) (slot uid : Nat) : Core :=
  let stays (m : MmaOp) : Bool := !(m.follow.isNone && m.owner == (slot, uid))
  { k with
    order := k.order.filter stays
    places := (k.places.filter (fun p => !(p.slot == slot && p.uid == uid))).map (fun p =>
      { p with before := (((k.order.filter (fun m => m.tile == p.tile)).take p.before).filter stays).length }) }

/-- Drop what an uncommitted Chunk holds elsewhere: its offer, its store reservation, its MMAs in flight (R100, R228, R255). -/
def State.dropChunk (s : State) (c slot : Nat) (g : Group) : State :=
  let k := s.core c
  { s with
    cores := s.cores.set c (k.dropMmas slot g.uid)
    offers := s.offers.filter (fun o => o.what != .chunk c slot g.uid)
    stores := s.stores.map (fun d => (d.1, { d.2 with reserved := d.2.reserved.erase g.uid }))
    solo := s.solo.filter (fun e => e.2 != (c, slot, g.uid))
    parked := (s.unparkGroup c slot g.uid).parked
    delayed := (s.unparkGroup c slot g.uid).delayed }

/-- A lane as a squash restores it: an access of it that was parked is made again. -/
def Lane.unparked (l : Lane) : Lane := match l.wait with | .parked _ => { l with wait := .none } | _ => l

/-- Registers, scratchpad, tiles and lanes as they stood at the Chunk's start (R81, R82, R100). chunkstat's upper fields are the
core's count and are set by the caller. -/
def State.undoChunk (s : State) (c slot : Nat) : State :=
  match s.group? c slot with
  | some g =>
    let s1 := (s.dropChunk c slot g).restoreUndo g.chunk.undo
    let s2 := s1.restoreTiles c g.chunk.tiles
    let s3 := s2.poolPut c (regBase (s.launchAt c) slot) g.chunk.uniform
    s3.modGroup c slot (fun g =>
      { g with lanes := g.chunk.lanes.map Lane.unparked, seq := Seq.empty, pend := [], chosen := none, state := .running, hold := .none,
               inTrap := g.chunk.inTrap, chunk := freshChunk g.chunk.uniform (g.chunk.lanes.map Lane.unparked) g.chunk.inTrap })
  | none => s

/-- limlog after the n-th consecutive squash (R88). -/
def limlogAfter (n : Nat) : Nat := if n < 4 then 12 else if n < 8 then 12 - (n - 3) else 8

/-- Predictor counters raised for lines (R209). -/
def bumpPredictor (p : Tab Nat) (lines : List Nat) : Tab Nat :=
  lines.foldl (fun p ln => let i := (ln % 64) ^^^ (ln / 64 % 64); p.set i (min 3 (p.getD i 0 + 1))) p

def lowerPredictor (p : Tab Nat) (lines : List Nat) : Tab Nat :=
  lines.foldl (fun p ln => let i := (ln % 64) ^^^ (ln / 64 % 64); p.set i (p.getD i 0 - 1)) p

/-- squash() of R89. A conflict raises sqcnt; a Chunk that reaches 8, and one that leaves Solo-run, stands in Solo-wait. -/
def State.squash (s : State) (c slot : Nat) (conflict : Bool) : State :=
  match s.group? c slot with
  | some g =>
    let st := s.chunkstat c slot
    let n := if conflict then min 8 (statSqcnt st + 1) else statSqcnt st
    let s1 := s.undoChunk c slot
    let s2 := if conflict then
        let k := s1.core c
        s1.setCore c { k with pred := bumpPredictor k.pred g.chunk.nearLines }
      else s1
    let base := s2.chunkstat c slot
    let s3 := s2.setSpecial c slot offChunkstat (mkStat (limlogAfter n) n false (statIovf base))
    let solo : Bool := n == 8
    let s4 := s3.modGroup c slot (fun g =>
      { g with chunk := { g.chunk with phase := if solo then .soloWait else .opened } })
    if solo then s4.due [.commitBatch (s4.sealedOf (s4.ctx (s4.ctxAt c)).part)] else s4
  | none => s

/-- The token of a solo holding passes on. -/
def State.releaseSolo (s : State) (c slot uid part : Nat) : State :=
  { s with solo := s.solo.filter (fun e => e.2 != (c, slot, uid)), agenda := s.agenda ++ [.commitBatch part] }

/-- A squash with sqcnt unchanged; a Solo-run Chunk gives the token up (R89). -/
def State.squashOut (s : State) (c slot : Nat) : State :=
  match s.group? c slot with
  | some g =>
    (s.solo.filter (fun e => e.2 == (c, slot, g.uid))).foldl (fun s e => s.releaseSolo c slot g.uid e.1) (s.squash c slot false)
  | none => s

/-- The die order of a token (R94). -/
def ringOrder : List Nat := [0, 1, 3, 2]

/-- Cores of a sealed partition that hold a Kernel. -/
def State.coresOf (s : State) (part : Nat) : List Nat :=
  (s.cores.filter (fun e => e.2.kernel.isSome && bitAt (s.part part).dmask (dieOf e.1))).map (fun e => e.1)

/-! ## Packets (R395, R396) -/

/-- The die of an operation's engine (R93). -/
def engineDie (q inst : Nat) : Nat := if q = 0 || q = 1 then inst / 96 else if q = 2 || q = 4 then inst else if q = 3 then 0 else inst / 4

/-- Endpoints (R395): cores 0 to 383, L2 slices from 384, edge ports from 480 (NSL) and 492 (NCL), engines from 512; on NSL the modules,
and from 256 the reduction switches of the ports. The numbers are the model's (log 58). -/
def sliceEnd (x : Nat × Nat) : Nat := 384 + 24 * x.1 + x.2
def portEnd (n : Nat) : Nat := 480 + n
def nclEnd (die : Nat) : Nat := 492 + die
def engineEnd (q inst : Nat) : Nat :=
  let n := if q ≤ 1 then 384 * q + inst else if q = 2 then 768 + inst else if q = 4 then 772 + inst else if q = 3 then 776
    else if q < 32 then 800 + inst else 832 + inst
  512 + 4 * n + engineDie q inst
def moduleEnd (m : Nat) : Nat := 2 ^ 16 + m

/-- An endpoint outside the device, and the die of one within it. -/
def isModule (e : Nat) : Bool := decide (2 ^ 16 ≤ e)
def endDie (e : Nat) : Nat :=
  if e < 384 then e / 96 else if e < 480 then (e - 384) / 24 else if e < 492 then (e - 480) / 3 else if e < 496 then e - 492 else e % 4

/-- The site of an endpoint in its die's own frame (R390): that of its cluster, which a core and its COPY and GATH engines are part of, of its
slice, or of the edge port that it uses; a packet for another module ends at the NSL ports' site. -/
def endSite (e : Nat) : Nat × Nat :=
  let n := (e - 512) / 4
  if e < 384 then clusterSite (e % 96 / 4)
  else if e < 480 then sliceSite ((e - 384) % 24)
  else if e < 492 then nslSite
  else if e < 512 then nclSite
  else if isModule e then nslSite
  else if n < 768 then clusterSite (n % 96 / 4)
  else if n < 776 then engineSite
  else if n < 800 then nclSite
  else stackSite (n % 32)

/-- The pair of a source and a destination (R396). -/
def pairKey (src dst : Nat) : Nat := src * 2 ^ 17 + dst
def State.pair (s : State) (src dst : Nat) : Pair := s.pairs.getD (pairKey src dst) Pair.reset
def State.setPair (s : State) (src dst : Nat) (p : Pair) : State := { s with pairs := s.pairs.set (pairKey src dst) p }

/-- A packet is numbered, and its source keeps a copy (R395, R396); RESEND_TIMEOUT sends it a first time, and again. -/
def State.sendPacket (s : State) (src dst payload : Nat) : State :=
  let p := s.pair src dst
  (s.setPair src dst { p with next := (p.next + 1) % 2 ^ 16, copies := p.copies ++ [(p.next, payload, 0, s.wall)], unsent := p.unsent ++ [p.next] }).due
    [.resendTimeout src dst p.next]

/-- What packets carry, by kind: a unit's difference, a request of a Group's load, a write signature, a command, the n-th request of an
operation for its sources, the n-th message of a search, a multicast's bytes, a collective's contribution (with its line and bytes), an
at-commit effect, a Group's Barrier word, and a Barrier's release. -/
def diffTag (part stamp : Nat) : Nat := 16 * (8 * stamp + part)
def loadTag (c slot : Nat) : Nat := 16 * (32 * c + slot) + 1
def castTag (part stamp : Nat) : Nat := 16 * (8 * stamp + part) + 2
def pushTag (id : Nat) : Nat := 16 * id + 3
def readTag (id n : Nat) : Nat := 16 * (2 ^ 64 * n + id) + 4
def hopTag (id n : Nat) : Nat := 16 * (2 ^ 64 * n + id) + 5
def mcastTag (id : Nat) : Nat := 16 * id + 6
def collTag (id : Nat) : Nat := 16 * id + 7
def landTag (id : Nat) : Nat := 16 * id + 8
def barTag (uid : Nat) : Nat := 16 * uid + 9
def freeTag (bar : Nat) : Nat := 16 * bar + 10

/-- Whether a packet with that payload is on its way within the device, or to one endpoint: it has not been acknowledged. -/
def State.crossing (s : State) (tag : Nat) : Bool :=
  s.pairs.any (fun e => !isModule (e.1 % 2 ^ 17) && e.2.copies.any (fun c => c.2.1 == tag))
def State.crossingTo (s : State) (dst tag : Nat) : Bool :=
  s.pairs.any (fun e => e.1 % 2 ^ 17 == dst && e.2.copies.any (fun c => c.2.1 == tag))

/-- Whether a packet with that payload has been sent. -/
def State.carried (s : State) (tag : Nat) : Bool :=
  s.pairs.any (fun e => e.2.copies.any (fun c => c.2.1 == tag) || e.2.delivered.contains tag)

/-- The endpoint of an address, for traffic of a die: its home's L2 slice, or the NCL port that carries it (R31, R390). -/
def State.addrEnd (s : State) (die pa : Nat) : Option Nat :=
  if isHost pa then (s.homeDie die pa).map nclEnd else some (sliceEnd (sliceOf s.regions pa))

/-- Packets from an endpoint to those of the addresses that lie on other dies, one for each (R395). -/
def State.sendAcross (s : State) (src tag : Nat) (pas : List Nat) : State :=
  (unionNat [] ((pas.filterMap (s.addrEnd (endDie src))).filter (fun e => endDie e != endDie src))).foldl (fun s e => s.sendPacket src e tag) s

/-- A requester asks the homes of addresses on other dies (R395): the machine with its packets sent or on their way, or none once nothing of
them is out. -/
def State.askAcross (s : State) (src tag : Nat) (pas : List Nat) : Option State :=
  if (pas.filterMap (s.addrEnd (endDie src))).all (fun e => endDie e == endDie src) then none
  else if !s.carried tag then some (s.sendAcross src tag pas)
  else if s.crossing tag then some s
  else none

/-- The endpoint that sends a unit: its Group's core, its engine, its cluster, or its die's NCL port. -/
def State.unitEnd (s : State) (die : Nat) (owner op : Option Nat) (cluster : Option (Nat × Nat)) : Nat :=
  match cluster, owner, op.bind s.ops.get? with
  | some x, _, _ => 4 * x.1
  | none, some uid, _ => ((s.cores.find? (fun e => e.2.groups.any (fun g => g.2.uid == uid))).map (fun e => e.1)).getD (nclEnd die)
  | none, none, some o => engineEnd o.q o.inst
  | none, none, none => nclEnd die

/-- A committed unit of a die takes the next stamp of its sealed partition: its difference goes to the homes and its write signature to
every core (R93, R95, R98, R395). -/
def State.commitItems (s : State) (part die : Nat) (items : List BufItem) (owner op : Option Nat) (cluster : Option (Nat × Nat)) :
    State :=
  let n := s.stamps.getD part 1
  let sects := items.foldl (fun acc it => unionNat acc (itemSectors it)) []
  let cs := s.coresOf part
  let src := s.unitEnd die owner op cluster
  let s1 := (cs.filter (fun c => dieOf c != endDie src)).foldl (fun s c => s.sendPacket src c (castTag part n))
    (s.sendAcross src (diffTag part n) (itemAddrs s.regions items))
  { s1 with
    stamps := s.stamps.set part (n + 1)
    diffs := s.diffs ++ [{ part := part, die := die, stamp := n, items := items, owner := owner, op := op, cluster := cluster,
                           prot := s.protectedOf items,
                           rebuilt := op.any (fun id => match s.ops.get? id with | some o => o.restores | none => false) }]
    cores := s.cores.map (fun e => if cs.contains e.1 then (e.1, { e.2 with inbox := e.2.inbox ++ [{ stamp := n, die := die, sectors := sects }] }) else e)
    agenda := s1.agenda ++ cs.map (fun c => .signatureBroadcast c) ++ [.differenceApply part] }

/-- The lowest-numbered die of a partition. -/
def State.lowestDie (s : State) (part : Nat) : Nat := (s.diesOf part).headD 0

/-- An offer of a unit of the device's own controllers. -/
def Offer.isDevice (o : Offer) (part : Nat) : Bool := match o.what with | .device p _ _ => p == part | _ => false

/-- Whether a unit of the device's own controllers can be stamped now. -/
def State.stampsNow (s : State) (part : Nat) : Bool := (s.solo.get? part).isNone && !s.offers.any (·.isDevice part)

/-- A unit of the device's own controllers is stamped (R93): at once, or, while a Chunk runs alone or an earlier such unit waits, by the
arbiter of the partition's lowest-numbered die (R89). -/
def State.deviceUnit (s : State) (part : Nat) (items : List BufItem) (op : Option Nat := none) : State :=
  if s.stampsNow part then s.commitItems part (s.lowestDie part) items none op none
  else
    { s with offers := s.offers ++ [{ die := s.lowestDie part, clk := s.clk, what := .device part items op }]
             agenda := s.agenda ++ [.commitBatch part] }

/-- The last stamp given in a sealed partition; 0 before the first (R95). -/
def State.lastStamp (s : State) (part : Nat) : Nat := s.stamps.getD part 1 - 1

/-! ## Teams, Gangs and Kernels -/

/-- A Gang of a Kernel. -/
def State.gang? (s : State) (kid gid : Nat) : Option Gang := (s.kernels.get? kid).bind (fun k => k.gangs.get? gid)

/-- A core ring that a Team uses, or that waits for a Team of the next stage (R310, R319). -/
def State.ringUsed (s : State) (r core : Nat) : Bool :=
  s.teams.any (fun e => !e.2.away && e.2.rings.any (fun q => q.2.1 == r && q.2.2 == core))
    || s.heirs.any (fun h => h.saved.isNone && h.rings.any (fun q => q.2.1 == r && q.2.2 == core))

/-- Rings that nothing uses are free. -/
def State.freeRings (s : State) : State :=
  { s with cores := s.cores.map (fun e => (e.1, { e.2 with rings := e.2.rings.filter (fun r => s.ringUsed r.1 e.1) })) }

/-- The linear index of a Team in its grid (R308). -/
def Team.linear (t : Team) (l : Launch) : Nat := t.x + l.gridx * (t.y + l.gridy * t.z)

/-- Whether a Kernel's Team at a linear index stands or is still to be formed. -/
def State.willRun (s : State) (kid lin : Nat) : Bool :=
  match s.kernels.get? kid with
  | some k => (k.state == .loading || k.state == .running || k.state == .draining)
      && (decide (k.nextTeam ≤ lin) || k.gangs.any (fun g => g.2.again.any (fun a => a.1.isNone && a.2 == lin))
          || s.teams.any (fun t => t.2.kernel == kid && t.2.recs.isNone && t.2.linear k.launch == lin))
  | none => false

/-- Whether a Team of a next stage can still use the rings that a Kernel's Team left (R310, R319): one that is launched, or one that may
be, which needs its predecessor running. -/
def State.heirNeeded (s : State) (h : Heir) : Bool :=
  let succ := s.kernels.filter (fun e => e.2.pred == some h.kernel)
  if succ.isEmpty then (match s.kernels.get? h.kernel with | some k => k.state == .running || k.state == .draining | none => false)
  else succ.any (fun e => s.willRun e.1 h.lin)

/-- Peer rings return when both Teams sharing them have been released (R310). -/
def State.pruneHeirs (s : State) : State := ({ s with heirs := s.heirs.filter s.heirNeeded } : State).freeRings

/-- A Team's peer rings stay for the Team of the next stage (R310, R319). -/
def State.leaveRings (s : State) (x : Team) : State :=
  match s.kernels.get? x.kernel with
  | some k =>
    let rs := x.rings.filter (fun q => (k.launch.rings.getD q.1 (0, false)).2 && (k.launch.rings.getD q.1 (0, false)).1 != 0)
    if rs.isEmpty || x.recs.isSome then s
    else { s with heirs := s.heirs ++ [{ kernel := x.kernel, gang := x.gang, lin := x.linear k.launch, home := x.home, rings := rs, saved := none }] }
  | none => s

/-- Release of a Team (R310): its Barriers, rings and Group slots return to their cores. -/
def State.releaseTeam (s : State) (t : Nat) : State :=
  match s.teams.get? t with
  | some x =>
    let k := s.core x.home
    let bars := k.bars.filter (fun e => !(decide (x.barBase ≤ e.1 ∧ e.1 < x.barBase + x.nbar)))
    let msgs := k.barMsgs.filter (fun e => !(decide (x.barBase ≤ e.1 ∧ e.1 < x.barBase + x.nbar)))
    let s1 := s.setCore x.home { k with bars := bars, barMsgs := msgs }
    ({ s1 with teams := s1.teams.erase t }.leaveRings x).pruneHeirs
  | none => s

/-- The Teams of a Gang. -/
def State.teamsOfGang (s : State) (kid gid : Nat) : List Nat :=
  (s.teams.filter (fun e => e.2.kernel == kid && e.2.gang == gid)).map (fun e => e.1)

/-- What a Team takes to be formed again: its linear index in the grid, or the records of a continuation Team (R314). -/
def State.againOf (s : State) (t : Nat) : List (Option (List Nat) × Nat) :=
  match s.teams.get? t with
  | some x => match x.recs with
    | some r => [(some r, 0)]
    | none => match s.kernels.get? x.kernel with
      | some k => [(none, x.linear k.launch)]
      | none => []
  | none => []

/-- A core that an image has left: no Kernel, Group or Barrier; the pool stands until the next load (R83). -/
def Core.emptied (k : Core) : Core :=
  { k with kernel := none, poolpart := 0, groups := [], bars := [], barMsgs := [], order := [], places := [], active := [], icache := [], inbox := [] }

/-- Whether a landing ends in a Group or in the pool of a core (R204, R215, R333), and not in a ring. -/
def Landing.entersCore (l : Landing) (c : Nat) : Bool :=
  l.target == c && (match l.act with | .ringp _ _ _ => false | .ringrel _ _ _ => false | _ => true)

/-- A core is emptied; rings that a Team elsewhere shares stay (R310). Nothing on its way to the Groups that it held lands any more. -/
def State.emptyCore (s : State) (c : Nat) : State :=
  let k := (s.core c).emptied
  let s1 : State := { s with landings := s.landings.filter (fun l => !l.2.entersCore c) }
  s1.setCore c { k with rings := k.rings.filter (fun r => s.ringUsed r.1 c) }

/-- The images of a Context's Kernels. -/
def State.ctxImages (s : State) (ctx : Nat) : List Image :=
  s.kernels.foldl (fun acc k => if k.2.ctx = ctx then acc ++ k.2.gangs.foldl (fun a g => a ++ g.2.images) [] else acc) []

/-- A Suspending Context with no image Resident or Saving becomes Suspended (R270). -/
def State.settleSuspend (s : State) (ctx : Nat) : State :=
  let c := s.ctx ctx
  if c.state = .suspending ∧ (s.ctxImages ctx).all (fun i => i.state == .saved || i.state == .restoring) then
    s.setCtx ctx { c with state := .suspended }
  else s

/-- Discard every Group of a Gang: nothing uncommitted is left (R89, R314). The Gang keeps its number, relaunches and the list of
Teams to form again. -/
def State.discardGang (s : State) (kid gid : Nat) (again : Bool) : State :=
  match s.kernels.get? kid with
  | some k => match k.gangs.get? gid with
    | some g =>
      let ts := s.teamsOfGang kid gid
      let list := if again then ts.foldl (fun acc t => acc ++ s.againOf t) g.again else []
      let s0 : State := ts.foldl (fun s t => { s with teams := s.teams.erase t }) s
      let s2 := g.images.foldl (fun s i =>
        if i.state = .saved then s
        else ((s.core i.core).groups.foldl (fun s e => s.dropChunk i.core e.1 e.2) s).emptyCore i.core) s0
      let s3 := if again then s2 else
        { s2 with stores := s2.stores.map (fun d =>
            (d.1, { d.2 with recs := d.2.recs.filter (fun r => !(r.2.kernel == kid && r.2.team.any (fun t => ts.contains t))) })) }
      let gs := if again then k.gangs.set gid { g with images := [], again := list } else k.gangs.erase gid
      { s3 with kernels := s3.kernels.set kid { k with gangs := gs } }
    | none => s
  | none => s

/-- Whether a Team of a Gang uses the rings that a Team of another Gang left. -/
def State.inherits (s : State) (h : Heir) (producer consumer : Nat × Nat) : Bool :=
  h.kernel == producer.1 && h.gang == producer.2 && (match s.kernels.get? consumer.1 with
    | some k => k.pred == some h.kernel && s.teams.any (fun t => t.2.kernel == consumer.1 && t.2.gang == consumer.2 && t.2.recs.isNone
        && t.2.linear k.launch == h.lin)
    | none => false)

/-- Two Gangs joined by a peer ring (R319): Teams of one coordinate, of two stages of which one declares a peer ring, or the one a Team
and the other the rings that its peer left. -/
def State.peers (s : State) (a b : Nat × Nat) : Bool :=
  let peered (k : Nat) : Bool := match s.kernels.get? k with | some x => x.launch.rings.any (fun r => r.1 != 0 && r.2) | none => false
  let follows (k p : Nat) : Bool := match s.kernels.get? k with | some x => x.pred == some p && peered p | none => false
  (follows a.1 b.1 || follows b.1 a.1) && s.teams.any (fun x => x.2.kernel == a.1 && x.2.gang == a.2 && x.2.recs.isNone
      && s.teams.any (fun y => y.2.kernel == b.1 && y.2.gang == b.2 && y.2.recs.isNone && x.2.x == y.2.x && x.2.y == y.2.y && x.2.z == y.2.z))
    || s.heirs.any (fun h => s.inherits h a b || s.inherits h b a)

/-- Every Gang: Kernel and number. -/
def State.allGangs (s : State) : List (Nat × Nat) := s.kernels.foldl (fun acc k => acc ++ k.2.gangs.map (fun g => (k.1, g.1))) []

/-- Gangs that act together with those of a list (R319): a pipeline has at most eight stages. -/
def State.joinedFrom (s : State) : Nat → List (Nat × Nat) → List (Nat × Nat)
  | 0, gs => gs
  | n + 1, gs => s.joinedFrom n (gs ++ s.allGangs.filter (fun g => !gs.contains g && gs.any (fun x => s.peers x g)))

def State.joined (s : State) (kid gid : Nat) : List (Nat × Nat) := s.joinedFrom 8 [(kid, gid)]

/-- Kernels whose Gangs act together with a Kernel's: itself first. -/
def State.joinedKernels (s : State) (kid : Nat) : List Nat :=
  unionNat [kid] ((s.joinedFrom 8 (s.allGangs.filter (fun g => g.1 == kid))).map (fun g => g.1))

/-- Discard every Gang of a Kernel. -/
def State.discardKernel (s : State) (kid : Nat) : State :=
  match s.kernels.get? kid with
  | some k => k.gangs.foldl (fun s g => s.discardGang kid g.1 false) s
  | none => s

/-- The fields of a fault record (R281), lowest bit first, as 64 bytes. -/
def faultBytes (kind ctx seq core index stage x y z lrec sec ns stamp : Nat) (t : TrapInfo) : List Byte :=
  toBytes 64 (1 + seq % 2 ^ 32 * 2 ^ 32 + ctx * 2 ^ 64 + kind * 2 ^ 104 + index * 2 ^ 112 + stage * 2 ^ 120 + core * 2 ^ 128
    + (t.code * 256 + t.cause) * 2 ^ 160 + t.val * 2 ^ 192 + t.pc * 2 ^ 224 + x * 2 ^ 272 + y * 2 ^ 288 + z * 2 ^ 304
    + lrec * 2 ^ 320 + ns * 2 ^ 384 + sec % 2 ^ 32 * 2 ^ 416 + stamp * 2 ^ 448)

/-- Write a fault record of a Context as one device-scope unit (R281). -/
def State.writeFault (s : State) (ctx : Nat) (bytes : Nat → List Byte) : State :=
  let c := s.ctx ctx
  let pa := c.fbase + 64 * (c.faultSeq % max 1 c.fslots)
  let s1 := s.setCtx ctx { c with faultSeq := c.faultSeq + 1 }
  (s1.deviceUnit (s.sealedOf c.part) [storeItem pa (bytes c.faultSeq)]).touch pa

/-- Kinds of a fault record. -/
def kindFault : Nat := 1
def kindNested : Nat := 2
def kindConsumed : Nat := 3
def kindKill : Nat := 4

/-- A Kernel enters Stopping: every Gang killed (R311). -/
def State.stopping (s : State) (kid status : Nat) : State :=
  let s1 := s.discardKernel kid
  match s1.kernels.get? kid with
  | some k =>
    if k.state = .stopping ∨ k.state = .done then s1
    else (({ s1 with kernels := s1.kernels.set kid { k with state := .stopping, status := status } } : State).pruneHeirs.settleSuspend k.ctx).due [.kernelStopped kid]
  | none => s1

/-- A Kernel stops on a fault or on consumed data: fault record, every Gang killed, Stopping (R281, R311). Stages joined to it by a
peer ring stop with it (R319, log 14). -/
def State.stopKernel (s : State) (kid core slot : Nat) (kind : Nat) (t : TrapInfo) : State :=
  match s.kernels.get? kid with
  | some k =>
    if k.state = .stopping ∨ k.state = .done then s
    else
      let g := s.group? core slot
      let team := g.bind s.teamOf
      let seq := (s.ctx k.ctx).faultSeq
      let s1 := s.writeFault k.ctx (fun n =>
        faultBytes kind k.ctx n core ((g.map (·.index)).getD 0) k.launch.stage ((team.map (·.x)).getD 0) ((team.map (·.y)).getD 0)
          ((team.map (·.z)).getD 0) k.lrva s.sec s.ns k.stamp t)
      let st := if kind = kindConsumed then 0x12 * 2 ^ 24 else 0x11 * 2 ^ 24 + seq % 2 ^ 24
      (s.joinedKernels kid).foldl (fun s x => s.stopping x st) s1
  | none => s

/-- Change waits, in the lanes, in the open Chunk's copy of them, and in those that a trap entry keeps: what ends a wait is not undone by
a squash. -/
def Group.mapWaits (g : Group) (f : Wait → Wait) : Group :=
  let h (l : Lane) : Lane := { l with wait := f l.wait }
  { g with lanes := g.lanes.map h, chunk := { g.chunk with lanes := g.chunk.lanes.map h },
           trapWaits := g.trapWaits.map (fun w => (w.1, f w.2)) }

/-- Change the waits of every Group. -/
def State.mapAllWaits (s : State) (f : Nat → Group → Wait → Wait) : State :=
  { s with cores := s.cores.map (fun e => (e.1, { e.2 with groups := e.2.groups.map (fun g => (g.1, g.2.mapWaits (f e.1 g.2))) })) }

/-! ## Traps -/

/-- Cause codes of R73. -/
def causeILL : Nat := 1
def causeLAV : Nat := 2
def causeROLE : Nat := 3
def causeALIGN : Nat := 4
def causeXLATE : Nat := 5
def causePROT : Nat := 6
def causeSTACK : Nat := 7
def causeFPE : Nat := 8
def causeTRAP : Nat := 9
def causeUCE : Nat := 0x10
def causeCAPCHG : Nat := 0x11

/-- The code of a reason of R138. -/
def illCode (r : IllReason) : Nat :=
  match r with
  | .major => 1 | .code => 2 | .resField => 3 | .hintKind => 4 | .xpfx => 5 | .sequence => 6 | .target => 7 | .look => 8

/-- trapval of a reason of R138. -/
def illVal (r : IllReason) : Nat := 0x200 + illCode r

/-- Whether a wait goes on while its lanes are in a trap entry: that of a committed Barrier word, behind which they stand (R280, R341). -/
def Wait.lasts (w : Wait) : Bool :=
  match w with | .sent _ => true | .phase _ _ => true | .freed _ => true | _ => false

/-- Taking a trap (R279, R280): trapcause, trapval and trappc of the Group receive the cause, and the entry's lanes move to the
trap entry, outside the parked state; Barrier waits in which they stand are kept for their return. Without a trap entry the Kernel stops, and in a running trap entry it stops NESTED. -/
def State.enterTrap (s : State) (c slot : Nat) (t : TrapInfo) (lanes : List Nat) : State :=
  match s.group? c slot, (s.core c).kernel with
  | some g, some kid =>
    let l := s.launchAt c
    if g.inTrap.isSome then s.stopKernel kid c slot kindNested t
    else if l.trapent = 0xFFFFFFFF then s.stopKernel kid c slot kindFault t
    else
      let s1 := s.setSpecial c slot offTrapcause (t.code * 256 + t.cause)
      let s2 := s1.setSpecial c slot offTrapval t.val
      let s3 := s2.setSpecial c slot offTrappc (t.pc / 4 * 4)
      s3.modGroup c slot (fun g =>
        { g with inTrap := some lanes, state := .running,
                 trapWaits := (g.lanes.zip lanes32).filterMap (fun x =>
                   if lanes.contains x.2 && x.1.wait.lasts then some (x.2, x.1.wait) else none), seq := Seq.empty, chosen := none,
                 failed := if t.cause = causeXLATE then [] else g.failed,
                 lanes := (g.lanes.zip lanes32).map (fun x =>
                   if lanes.contains x.2 then { x.1 with pc := l.trapent, wait := .none } else x.1) })
  | _, _ => s

/-- Whether lanes share a place with other live lanes (R131: a merge closes windows). -/
def merged (live : Nat) (lanes : List Nat) (ls : List Lane) : Bool :=
  (lanesOf live).any (fun l => !lanes.contains l && lanes.any (fun k =>
    bitAt live k && (match ls[l]?, ls[k]? with
      | some a, some b => a.pc == b.pc && a.prio == b.prio
      | _, _ => false)))

/-- Windows of lanes that have merged with others, of whatever entry the word was that moved them, are closed (R131). -/
def closeMerged (live : Nat) (ls : List Lane) (ps : List Pend) : List Pend :=
  ps.map (fun p => if p.win.any (fun w => merged live w.1 ls) then { p with win := none } else p)

/-- Returning from a trap (R258): the lanes of the entry move to trappc, where they stood (R280), and the Group's trap entry ends. -/
def State.leaveTrap (s : State) (c slot : Nat) (lanes : List Nat) : State :=
  let pc := s.special c slot offTrappc / 4 * 4
  s.modGroup c slot (fun g =>
    let ls := (g.lanes.zip lanes32).map (fun x => if lanes.contains x.2
      then { x.1 with pc := pc, wait := (g.trapWaits.get? x.2).getD x.1.wait } else x.1)
    { g with inTrap := none, lanes := ls, pend := closeMerged (s.liveMask c slot) ls g.pend })

/-- A synchronous trap at an instruction: the Chunk before it ends and the trap is taken after its commit (R86, R102). -/
def State.trapAt (s : State) (c slot cause val pc : Nat) (lanes : List Nat) : State :=
  s.endChunk c slot (.trap { cause := cause, code := 0, val := val, pc := pc } lanes)

/-- Whether a Gang may be relaunched: its Kernel is restartable and fewer than 3 relaunches stand (R314). -/
def State.relaunchable (s : State) (g : Nat × Nat) : Bool :=
  match s.kernels.get? g.1 with
  | some k => k.launch.restartable && (match k.gangs.get? g.2 with | some x => decide (x.relaunches < 3) | none => false)
  | none => false

/-- A Gang is killed, to be formed again (R314). -/
def State.relaunch (s : State) (g : Nat × Nat) : State :=
  let s1 := s.discardGang g.1 g.2 true
  match s1.kernels.get? g.1 with
  | some k => match k.gangs.get? g.2 with
    | some x =>
      ({ s1 with kernels := s1.kernels.set g.1 { k with gangs := k.gangs.set g.2 { x with relaunches := x.relaunches + 1 } },
                 agenda := s1.agenda ++ [.teamFormation g.1] } : State).settleSuspend k.ctx
    | none => s1
  | none => s1

/-- A Gang consumes uncorrectable data (R314): it and the Gangs joined to it are relaunched when each may be, else the Kernel stops
with CONSUMED. -/
def State.consumeUCE (s : State) (c slot pc : Nat) : State :=
  match s.group? c slot, (s.core c).kernel with
  | some g, some kid =>
    match s.teams.get? g.team with
    | some t =>
      let gs := s.joined kid t.gang
      if gs.all s.relaunchable then gs.foldl (fun s g => s.relaunch g) s
      else s.stopKernel kid c slot kindConsumed { cause := causeUCE, code := 0, val := 0, pc := pc }
    | none => s
  | _, _ => s

/-- Raise a unit's score (R413); at 1,024 and 8,192 the health manager acts (R409). -/
def State.addScore (s : State) (u n : Nat) : State :=
  let x := s.unit u
  let sc := min 65535 (x.score + n)
  let s1 := { s with units := s.units.set u { x with score := sc } }
  if 1024 ≤ sc then s1.due [.leaseDue u] else s1

/-- The device address of a line, by its number. -/
def State.lineAddr (s : State) (ln : Nat) : Nat := s.addressOf (ln / 4) + 64 * (ln % 4)

/-- An uncorrectable line (R361, R365): on a protected Page it is to be rebuilt; else it is poisoned, for units stamped from then on to
write anew. -/
def State.spoil (s : State) (ln : Nat) : State :=
  if s.badLines.contains ln then s
  else if s.isProtected (s.lineAddr ln) then { s with badLines := s.badLines ++ [ln], agenda := s.agenda ++ [.lineRebuild ln []] }
  else { s with poison := s.poison.set ln { done := 0, since := s.stamps.map (fun e => (e.1, e.2 - 1)) } }

/-- Corrected events of a row in its channel's lease: an uncorrectable line counts as the two that call for a repair (R412). -/
def State.rowEvent (s : State) (o n : Nat) : State :=
  if (s.unit (3 * 4096 + channelOf o)).state = .testing then { s with rowEvents := s.rowEvents.set (rowId o) (s.rowEvents.getD (rowId o) 0 + n) } else s

/-- An ECC event is reported: a corrected one adds 1 to the score of the channel, or of the core whose SRAM line it is on; an uncorrectable
line adds 64 to its channel's (R22, R365, R412, R413). -/
def State.report (s : State) (e : Ecc) : State :=
  let channel := 3 * 4096 + channelOf (e.line / 4)
  if e.bad then ((s.spoil e.line).rowEvent (e.line / 4) 2).addScore channel 64
  else match e.core with
    | some c => s.addScore c 1
    | none => (s.rowEvent (e.line / 4) 1).addScore channel 1

/-! ## Capture units (R418) -/

/-- Edges in ascending order. -/
def ascending : List Int → Bool
  | a :: b :: r => decide (a < b) && ascending (b :: r)
  | _ => true

/-- The unit after a sample (R418). -/
def Capture.sample (x : Capture) (v : Int) : Capture :=
  if x.en && decide (1 ≤ x.src) && decide (x.src ≤ 6) && ascending x.edges then
    let i := (x.edges.filter (fun e => decide (e ≤ v))).length
    { x with min := Min.min x.min v, max := Max.max x.max v, buckets := x.buckets.set i (Nat.min (2 ^ 32 - 1) (x.buckets.getD i 0 + 1)) }
  else x

/-- The selector of every channel or Queue (R418). -/
def selAll : Nat := 0x3FFFFF

/-- A sample of a source goes to the units that select it: any die's that name the channel, link unit or Queue (R418). -/
def State.sampled (s : State) (src : Nat) (sels : List Nat) (v : Int) : State :=
  let takes (x : Capture) : Bool := x.src == src && (sels.contains x.sel || (src != 2 && !sels.isEmpty && x.sel == selAll))
  { s with captures := s.captures.map (fun c => if takes c.2 then (c.1, c.2.sample v) else c) }

/-- A mismatch of mirror issue or of an MMA residue (R89, R229, R332): the Chunk is squashed with sqcnt unchanged; a second one before
a commit raises UCE. -/
def State.mismatchAt (s : State) (c slot pc score : Nat) : State :=
  match s.group? c slot with
  | some g =>
    let s1 := s.addScore c score
    if g.mismatch then s1.consumeUCE c slot pc
    else (s1.squash c slot false).modGroup c slot (fun g => { g with mismatch := true })
  | none => s

/-! ## Timelines (R114) -/

def State.timeline (s : State) (ctx q : Nat) : Timeline := (s.ctx ctx).timelines.getD q Timeline.reset

/-- Move the complete prefix up through numbers already complete. -/
def advancePrefix : Nat → Timeline → Timeline
  | 0, t => t
  | n + 1, t =>
    if t.beyond.contains (t.count + 1) then
      advancePrefix n { t with count := t.count + 1, beyond := t.beyond.filter (· != t.count + 1) }
    else t

/-- An operation's number completes (R114). -/
def Timeline.complete (t : Timeline) (n : Nat) : Timeline :=
  advancePrefix (t.beyond.length + 1) { t with beyond := t.beyond ++ [n] }

def State.setTimeline (s : State) (ctx q : Nat) (t : Timeline) : State :=
  let c := s.ctx ctx
  s.setCtx ctx { c with timelines := c.timelines.set q t }

/-! ## Scratchpad (R202, R307) -/

/-- The home-core pool address of a scratchpad offset of a Team. -/
def Team.scr (t : Team) (off : Nat) : Nat := t.block + 256 + off

/-- A k register's pool address at the home core (R307). -/
def Team.kAddr (t : Team) (i : Nat) : Nat := t.block + 4 * i

/-- The Team of the Kernel whose scratchpad wholly holds n pool bytes of a core (R202). -/
def State.teamAtPool (s : State) (kid core a n : Nat) : Option Nat :=
  (s.teams.find? (fun e => e.2.kernel == kid && !e.2.away && e.2.home == core && decide (e.2.block + 256 ≤ a)
    && decide (a + n ≤ e.2.block + 256 + 256 * e.2.tscr))).map (fun e => e.1)

/-- Whether a registered range of a core's scoreboard overlaps n pool bytes (R205). -/
def State.boardHits (s : State) (core a n : Nat) : Bool :=
  (s.core core).board.any (fun r => decide (r.lo < a + n ∧ a < r.lo + r.len))

/-! ## Cluster copies (R104 to R107) -/

def State.cluster (s : State) (cl : Nat) : Tab ClLine := s.clusters.getD cl []
def State.setCluster (s : State) (cl : Nat) (t : Tab ClLine) : State := { s with clusters := s.clusters.set cl t }

/-- Whether a check-in of a cluster's line has been stamped and is still on its way to the home (R104). -/
def State.landing (s : State) (cl ln : Nat) : Bool := s.diffs.any (fun d => d.cluster == some (cl, ln))

/-- Whether a check-in of a cluster's line has been sent and not applied (R104). -/
def State.checkingIn (s : State) (cl ln : Nat) : Bool :=
  s.landing cl ln || (match (s.cluster cl).get? ln with | some x => x.sent | none => false)

/-- The cluster's read copies are dropped, its checked-out lines stay (R109); a line whose check-in has its stamp is checked out no more
(log 96). -/
def State.dropReadCopies (s : State) (cl : Nat) : State :=
  s.setCluster cl ((s.cluster cl).filter (fun e => e.2.twin.isSome && !s.landing cl e.1))

/-- The check-in of a line is offered to the arbiter of its home's die (R93, R106). -/
def State.checkIn (s : State) (cl line : Nat) : State :=
  match (s.cluster cl).get? line with
  | some x =>
    if x.twin.isSome && !x.sent then
      let die := (sliceOf s.regions (line * 64)).1
      let s1 := s.setCluster cl ((s.cluster cl).set line { x with sent := true })
      { s1 with offers := s1.offers ++ [{ die := die, clk := s.clk, what := .checkin cl line }]
                agenda := s1.agenda ++ [.commitBatch (s.partOfDie die)] }
    else s
  | none => s

/-- A cluster loses its copy of a line: a checked-out one checks in first and goes with that, a read copy goes at once (R104, R105, R107). -/
def State.evictCopy (s : State) (cl ln : Nat) : State :=
  match (s.cluster cl).get? ln with
  | some x =>
    if x.twin.isSome then (s.setCluster cl ((s.cluster cl).set ln { x with drop := true })).checkIn cl ln
    else s.setCluster cl ((s.cluster cl).erase ln)
  | none => s

/-- The checked-out lines of a cluster. -/
def State.checkedOut (s : State) (cl : Nat) : List Nat := ((s.cluster cl).filter (fun e => e.2.twin.isSome)).map (fun e => e.1)

/-- Whether a checked-out line's check-in has not been stamped yet. -/
def State.unstamped (s : State) (cl ln : Nat) : Bool :=
  match (s.cluster cl).get? ln with
  | some x => !x.sent || s.offers.any (fun o => o.what == .checkin cl ln)
  | none => false

/-- A device-scope release by a Group (R108): every checked-out line of the cluster checks in, and no later unit of the Group is
stamped before those check-ins. -/
def State.release (s : State) (c slot : Nat) : State :=
  let cl := clusterOf c
  let lines := (s.checkedOut cl).filter (s.unstamped cl)
  (lines.foldl (fun s ln => s.checkIn cl ln) s).modGroup c slot (fun g => { g with release := unionNat g.release lines })

/-- Free numbers for what the model creates. -/
def State.newId (s : State) : Nat × State := (s.nextId, { s with nextId := s.nextId + 1 })

end Sys2Proof.Machine
end

