-- ==== Sys2Proof/Machine/Operands.lean ====
section
/-! DEFINITION. Operand forms and the issue of one code word: sequences and XPFX (R122 to R126), register checks (R67, R68), lookahead
(R130, R131), active lanes (R147), the effect of a word and where it leaves the Chunk (R86 to R88). -/

namespace Sys2Proof.Machine

/-- The XPFX of a word that has none (R123). -/
def Xpfx.none : Xpfx := { f4s := false, f4en := false, f4 := 0, sat := false, rm := 0, zero := false, mask := 0 }

/-- What a word's meaning knows of its issue. -/
structure Issue where
  core : Nat
  slot : Nat
  pc : Nat
  first : Nat
  lanes : List Nat
  active : List Nat
  x : Xpfx
  imm : Option Nat
  g : Group
  l : Launch
  rb : Nat
  ctx : Nat

/-- Where an instruction takes an immediate (R126): nowhere, in place of vb, in place of va, as an address offset, as a window. -/
inductive LimUse | none | b | a | offset | window
deriving DecidableEq, Repr

/-- A register operand: file, first number, registers covered, alignment of the first number. -/
structure Opnd where
  file : RegFile
  num : Nat
  count : Nat
  align : Nat := count
deriving DecidableEq, Repr

/-- What the common rules need to know of a word: its class and accepted XPFX fields (R124), its immediate and the fields that the
immediate makes res (R126), its register operands in the order vd, va, vb (R130) with the position of va and vb among the sources,
the written m register if any, in vd or as the fourth operand (R68), look (R130), and whether it ends a Chunk or closes a window (R86, R131), stands alone (R122), is mirrored (R330). -/
structure Desc where
  vec : Bool := true
  rm : Bool := false
  sat : Bool := false
  f4v : Bool := false
  f4m : Bool := false
  lim : LimUse := .none
  resB : Nat := 0
  resA : Nat := 0
  vd : List Opnd := []
  va : List Opnd := []
  vb : List Opnd := []
  f4w : Nat := 1
  mdst : Option Nat := none
  f4dst : Bool := false
  look : Option Nat := none
  closes : Bool := false
  alone : Bool := false
  mirror : Bool := false

/-- The effect of a word: pool writes that the Chunk logs (core, address, bytes), own-core pool writes that it does not log, lanes
that move elsewhere than to the next word, a new priority, lanes that stay with a wait, a wait taken on at the next word, a
long-latency part, sectors and Pages touched (tags: those only brought into the cluster's copy), buffered items, at-commit effects, the end of the Chunk, and rarer effects. -/
structure Eff where
  pool : List (Nat × Nat × List Byte) := []
  raw : List (Nat × List Byte) := []
  pcs : List (Nat × Nat) := []
  prio : Option Nat := none
  stay : Bool := false
  wait : Wait := .none
  pend : Option Pend := none
  reads : List Nat := []
  writes : List Nat := []
  clw : List Nat := []
  tags : List Nat := []
  pages : List (Nat × Nat) := []
  near : List Nat := []
  tiles : List Nat := []
  buf : List BufItem := []
  acts : List AtCommit := []
  ends : Option After := none
  post : State → State := id

/-- What a word's own rules say at issue: its effect, a trap, a wait that is not met (R324), a stall with what it causes (R324), a stall
until another unit has committed or an engine has gone on, before which a Chunk in Solo-run ends (R89, R101), a page walk (R350, R351), an access
that parks at its line's home (R363), a mismatch of mirror issue (R331), or the end of the Chunk before the word (R86 "next" and "alone"). -/
inductive Verdict
  | go (e : Eff)
  | trap (cause val : Nat)
  | wait (w : Wait)
  | stall (s : State)
  | hold (s : State)
  | walk (va : Nat) (acc : AccKind)
  | park (pa : Nat)
  | mismatch
  | before (a : After)

/-! ## Sequences (R122 to R126) -/

/-- The immediate of a sequence's LIMMs (R125). -/
def immOf (ls : List (Bool × Nat)) : Option Nat :=
  match ls with
  | [(false, v)] => some (wrapTo 32 (signedOf 16 v))
  | [(true, v)] => some (v * 65536)
  | [(true, h), (false, v)] => some (h * 65536 + v)
  | [(false, v), (true, h)] => some (h * 65536 + v)
  | _ => none

/-- Whether an XPFX carries a field that the word does not accept (R124, R138 reason 5). f4 and f4s of an XPFX with f4en = 0 name no
operand and are ignored (log 81). -/
def xpfxRefused (d : Desc) (x : Xpfx) : Bool :=
  !d.vec || decide (4 < x.rm) || (x.rm != 0 && !d.rm) || (x.sat && !d.sat)
    || (x.f4en && !(d.f4v || (d.f4m && !x.f4s && decide (x.f4 ≤ 11))))

/-- The checks of a sequence against its last word: reason 6, then 5, then 3 (log 11). -/
def seqTrap (d : Desc) (q : Seq) : Option IllReason :=
  let lim := !q.limms.isEmpty
  if d.alone && q.n != 0 then some .sequence
  else if lim && d.lim == .none then some .sequence
  else if d.lim == .window && !lim then some .sequence
  else if q.xp.any (xpfxRefused d) then some .xpfx
  else if d.f4m && !(q.xp.any (·.f4en)) then some .sequence
  else if lim && d.lim == .b && d.resB != 0 then some .resField
  else if lim && d.lim == .a && d.resA != 0 then some .resField
  else none

/-! ## Register numbers (R67, R68) -/

/-- Registers of a file that the Group has. -/
def fileSize (is : Issue) (s : State) (f : RegFile) : Nat :=
  match f with
  | .v => is.l.regs
  | .s => 32
  | .m => 12
  | .k => 16
  | .a => partAccn (s.core is.core).poolpart

/-- The fourth operand of a word (R123, R124): the XPFX's, or vd where the instruction takes it from there. -/
def f4Opnd (d : Desc) (x : Xpfx) : List Opnd :=
  if x.f4en then
    if d.f4m then [{ file := .m, num := x.f4, count := 1 }]
    else if x.f4s then [{ file := .s, num := x.f4 % 32, count := d.f4w }]
    else [{ file := .v, num := x.f4, count := d.f4w }]
  else []

/-- Every register operand, in the order of R130. An immediate takes the place of its source. -/
def allOpnds (d : Desc) (is : Issue) : List Opnd :=
  d.vd ++ (if is.imm.isSome && d.lim == .a then [] else d.va) ++ (if is.imm.isSome && d.lim == .b then [] else d.vb)
    ++ f4Opnd d is.x

/-- The first register number that R67 or R68 refuses; for m0 as destination (R68) that number is 0 (log 82). -/
def regTrap (d : Desc) (is : Issue) (s : State) : Option Nat :=
  if is.x.mask ≥ 12 then some is.x.mask
  else match (allOpnds d is).find? (fun o => decide (fileSize is s o.file < o.num + o.count) || o.num % o.align != 0) with
    | some o => some (if o.num % o.align = 0 && decide (o.num < fileSize is s o.file) then fileSize is s o.file else o.num)
    | none => if d.mdst = some 0 || (d.f4dst && is.x.f4en && is.x.f4 = 0) then some 0 else none

/-! ## Lookahead (R130, R131) -/

/-- Codes of register files in the trapval of LAV. -/
def fileCode (f : RegFile) : Nat := match f with | .v => 0 | .s => 1 | .m => 2 | .a => 3 | .k => 0

/-- The single registers of the operands, in order. -/
def opndRegs (os : List Opnd) : List (RegFile × Nat) := os.foldl (fun acc o => acc ++ (upFrom o.num o.count).map (fun n => (o.file, n))) []

/-- Whether a pending word's window covers a word that these lanes issue. -/
def inWindow (lanes : List Nat) (p : Pend) : Bool :=
  match p.win with
  | some (ls, n) => decide (0 < n) && ls.any (fun l => lanes.contains l)
  | none => false

/-- The registers that a word reads or writes, in the order of R130. -/
def usedRegs (d : Desc) (is : Issue) : List (RegFile × Nat) := opndRegs (allOpnds d is)

/-- LAV: the first register of the word that is pending for a window that covers the word. -/
def lavReg (d : Desc) (is : Issue) : Option (RegFile × Nat) :=
  (usedRegs d is).find? (fun r => is.g.pend.any (fun p => inWindow is.lanes p && p.regs.contains r))

/-- A pending register outside its window stalls the word. -/
def stallsOn (d : Desc) (is : Issue) : Bool :=
  (usedRegs d is).any (fun r => is.g.pend.any (fun p => p.regs.contains r))

/-- Windows after the lanes have issued a word: covered windows shrink by one. -/
def countWindows (lanes : List Nat) (ps : List Pend) : List Pend :=
  ps.map (fun p => if inWindow lanes p then
    { p with win := p.win.map (fun w => (w.1, w.2 - 1)) } else p)

/-! ## Parked lanes (R192, R220) -/

/-- Test the condition of every WAITM and BARS: lanes parked at one place are released together. A BARS that every live lane has
reached is met at issue, so an exit that leaves only parked lanes is handled here too. -/
def releaseWaitm (live : Nat) (mreg : Nat → Nat) (ls : List Lane) : List Lane :=
  let met (x : Lane) : Bool :=
    match x.wait with
    | .waitm d => (lanesOf (mreg d &&& live)).all (fun l =>
        match ls[l]? with
        | some y => y.pc == x.pc && (match y.wait with | .waitm _ => true | _ => false)
        | none => true)
    | _ => false
  ls.map (fun x => if met x then { x with pc := x.pc + 4, wait := .none } else x)

/-- A lane that waits at a WAITM. -/
def isWaitm (w : Wait) : Bool := match w with | .waitm _ => true | _ => false

/-- A lane that waits at a BARS. -/
def isBars (w : Wait) : Bool := match w with | .bars _ => true | _ => false

/-! ## The issue of a word -/

/-- The Issue record of the chosen entry. -/
def mkIssue (s : State) (c slot pc : Nat) (lanes : List Nat) (g : Group) : Issue :=
  let l := s.launchAt c
  let x := g.seq.xp.getD Xpfx.none
  let m := if x.mask < 12 then s.poolNum c (mAddr (regBase l slot) x.mask) 4 else 0
  { core := c, slot := slot, pc := pc, first := if g.seq.n = 0 then pc else g.seq.first, lanes := lanes,
    active := lanes.filter (bitAt m), x := x, imm := immOf g.seq.limms, g := g, l := l, rb := regBase l slot, ctx := s.ctxAt c }

/-- A trap of the word's sequence (R122): at the first word, with nothing written. -/
def raise (is : Issue) (cause val : Nat) (s : State) : State := s.trapAt is.core is.slot cause val is.first is.lanes

/-- The Group stays with this entry chosen and issues nothing (R324). -/
def stallOn (is : Issue) (s : State) : State :=
  s.modGroup is.core is.slot (fun g => { g with chosen := some ((g.lanes[is.lanes.headD 0]?.map (·.prio)).getD 0, is.first) })

/-- What a wait causes: a wake-up at its time, a reservation of store room (R255, R261). -/
def waitEvents (is : Issue) (w : Wait) : List Instr :=
  match w with
  | .time _ _ => [.waittWake is.core is.slot]
  | .room _ => [.contRoomReserve is.core is.slot]
  | _ => []

/-- The lanes stand at the word with a wait that is not met; a Solo-run Chunk ends before the word (R86, R101). -/
def waitAt (is : Issue) (w : Wait) (s : State) : State :=
  if is.g.chunk.phase = .soloRun then s.endChunk is.core is.slot .run
  else (s.modGroup is.core is.slot (fun g =>
    { g with seq := Seq.empty, chosen := none, lanes := (g.lanes.zip lanes32).map (fun x =>
        if is.lanes.contains x.2 then { x.1 with wait := w } else x.1) })).due (waitEvents is w)

/-- A walk is asked for (R351): it joins one in flight for the Page at the same walker, or enters the walker's line. -/
def State.askWalk (s : State) (ctx va die unit : Nat) (acc : AccKind) : State :=
  let mine (w : Walk) : Bool := w.ctx == ctx && w.gran == granOf va && w.die == die
  if s.walks.any mine then
    { s with walks := s.walks.map (fun w => if mine w then { w with units := unionNat w.units [unit] } else w) }
  else { s with walks := s.walks ++ [{ ctx := ctx, gran := granOf va, die := die, units := [unit] }]
                agenda := s.agenda ++ [.walkComplete ctx va acc] }

/-- The entry's word waits for a walk of an address (R350, R351): other entries go on, except within a sequence, which its entry issues
without interruption (R324). An access to a Faulted granule joins the waiting ones: its Chunk is squashed, and the Group waits. -/
def State.awaitWalk (s : State) (c slot : Nat) (lanes : List Nat) (va : Nat) (acc : AccKind) : State :=
  let x := s.ctxAt c
  let gr := granOf va
  if s.faulted.contains (x, gr) then (s.squashOut c slot).modGroup c slot (fun g => { g with hold := .fault x gr })
  else
    let s1 := s.modGroup c slot (fun g =>
      { g with
        chosen := if g.seq.n = 0 then none else g.chosen
        lanes := (g.lanes.zip lanes32).map (fun y => if lanes.contains y.2 then { y.1 with wait := .walk x gr } else y.1) })
    s1.askWalk x va (dieOf c) (coreTlb c) acc

/-- The word's request at a home (R363, R366). -/
def Issue.req (is : Issue) : Req := .group is.core is.slot is.g.uid (is.lanes.headD 0)

/-- The entry's access is held in its home's fault queue, until the home replays it, while other entries go on; with every entry in use the
request is returned, to be sent again after 1 µs (R363). -/
def parkAt (is : Issue) (s : State) (pa : Nat) : State :=
  if s.parkRoom pa then
    (s.parkLine pa is.req).modGroup is.core is.slot (fun g =>
      { g with
        chosen := if g.seq.n = 0 then none else g.chosen
        lanes := (g.lanes.zip lanes32).map (fun y =>
          if is.lanes.contains y.2 then { y.1 with wait := .parked (is.lanes.headD 0) } else y.1) })
  else (s.modGroup is.core is.slot (fun g => { g with hold := .resend s.wall })).due [.requestResend is.core is.slot]

/-- Lanes after a word: moved lanes to their targets, the others to the next word, with the priority and wait of the effect. -/
def moveLanes (is : Issue) (e : Eff) (ls : List Lane) : List Lane :=
  (ls.zip lanes32).map (fun x =>
    if is.lanes.contains x.2 then
      if e.stay then { x.1 with wait := e.wait }
      else
        { pc := ((e.pcs.find? (fun p => p.1 == x.2)).map (fun p => p.2)).getD (is.pc + 4), prio := e.prio.getD x.1.prio,
          wait := e.wait }
    else x.1)

/-- The condition of the parked lanes is tested again: m has been written by an effect at commit (R192). -/
def State.retestWaitm (s : State) (c slot : Nat) : State :=
  let live := s.liveMask c slot
  let rb := regBase (s.launchAt c) slot
  s.modGroup c slot (fun g => { g with lanes := releaseWaitm live (fun i => s.poolNum c (mAddr rb i) 4) g.lanes })

/-- Undo entries after the word's logged writes (R82). -/
def undoAfter (s : State) (u : List Undo) (e : Eff) : List Undo :=
  e.pool.foldl (fun u w => addUndo s u w.1 w.2.1 w.2.2.length) u

/-- Memory-side cache lines that a Kernel with a chain accesses are tagged with it, and a line accessed is no longer the least recently used
of its set (R362): the Kernel's Context and chain; sectors by number. -/
def State.tagFor (s : State) (ctx n : Nat) (sectors : List Nat) : State :=
  let lines := (sectors.filter (fun x => !isHost (32 * x))).map (fun x => lineKey s.regions (32 * x))
  { s with
    demoted := s.demoted.filter (fun ln => !lines.contains ln)
    chainTags := if n = 0 then s.chainTags else lines.foldl (fun (t : Tab (Nat × Nat)) ln => t.set ln (ctx, n)) s.chainTags }

/-- The same of accesses of the Kernel that a core holds. -/
def State.tagLines (s : State) (c : Nat) (sectors : List Nat) : State := s.tagFor (s.ctxAt c) (s.launchAt c).chain sectors

/-- The word's effect takes place (R147) and its lanes move; then the Chunk ends if the word ends it, if the instruction limit is
reached (R88), or if every live lane is parked (R192). -/
def applyEff (is : Issue) (e : Eff) (s : State) : State :=
  let c := is.core
  let slot := is.slot
  let ch := is.g.chunk
  let u := undoAfter s ch.undo e
  let s1 := e.pool.foldl (fun s w => s.poolPut w.1 w.2.1 w.2.2) s
  let s2 := e.raw.foldl (fun s w => s.poolPut c w.1 w.2) s1
  let live := s2.liveMask c slot
  let mreg (i : Nat) : Nat := s2.poolNum c (mAddr is.rb i) 4
  let s3 := s2.modGroup c slot (fun g =>
    let ls := releaseWaitm live mreg (moveLanes is e g.lanes)
    { g with
      lanes := ls, pend := closeMerged live ls ((countWindows is.lanes g.pend) ++ e.pend.toList), seq := Seq.empty, chosen := none, ydem := g.ydem - 1,
      chunk := { ch with words := ch.words + 1, reads := unionNat ch.reads e.reads, writes := unionNat ch.writes e.writes,
                         clw := unionNat ch.clw e.clw, pages := unionPages ch.pages e.pages, nearLines := ch.nearLines ++ e.near,
                         tiles := unionNat ch.tiles e.tiles, buf := ch.buf ++ e.buf, acts := ch.acts ++ e.acts, undo := u } })
  let s4 := (e.pages.foldl (fun s p => s.tlbTouch c is.ctx p.1) (e.post s3)).tagLines c (e.reads ++ e.writes ++ e.clw ++ e.tags)
  match e.ends with
  | some a => s4.endChunk c slot a
  | none =>
    match s4.group? c slot with
    | some g =>
      if g.state != .running then s4
      else if 2 ^ statLimlog (s4.chunkstat c slot) ≤ g.chunk.words then s4.endChunk c slot .run
      else if live != 0 && (lanesOf live).all (fun l => (g.lanes[l]?.map (fun x => isWaitm x.wait || isBars x.wait)).getD true) then
        s4.endChunk c slot .run
      else s4
    | none => s4

/-- The write set of the Chunk with the word (R86, R90). -/
def writeSet (ch : Chunk) (e : Eff) : Nat := (unionNat (unionNat ch.writes e.writes) (unionNat ch.clw e.clw)).length

/-- What a verdict does to the machine. A word that would overflow the write set or the undo rows opens the next Chunk (R86). -/
def settle (is : Issue) (v : Verdict) (s : State) : State :=
  match v with
  | .trap cause val => raise is cause val s
  | .stall s' => stallOn is s'
  | .hold s' => if is.g.chunk.phase = .soloRun then s.endChunk is.core is.slot .run else stallOn is s'
  | .walk va acc => s.awaitWalk is.core is.slot is.lanes va acc
  | .park pa => parkAt is s pa
  | .mismatch => s.mismatchAt is.core is.slot is.first 256
  | .wait w => waitAt is w s
  | .before a => s.endChunk is.core is.slot a
  | .go e =>
    let full : Bool := decide (256 < writeSet is.g.chunk e) || decide (224 < (undoAfter s is.g.chunk.undo e).length)
    if full && decide (is.g.seq.n < is.g.chunk.words) then s.endChunk is.core is.slot .run
    else applyEff is e s

/-- Whether a word closes the window of its lanes: by its class, or because it ends the Chunk at the instruction limit (R86, R131). -/
def closesNow (d : Desc) (is : Issue) (s : State) : Bool :=
  d.closes || decide (2 ^ statLimlog (s.chunkstat is.core is.slot) ≤ is.g.chunk.words + 1)

/-- The checks before a word's own: sequence, register numbers, lookahead. -/
def precheck (d : Desc) (is : Issue) (s : State) : Option Verdict :=
  match seqTrap d is.g.seq with
  | some r => some (.trap causeILL (illVal r))
  | none =>
    match regTrap d is s with
    | some n => some (.trap causeILL n)
    | none =>
      if closesNow d is s then (if is.g.pend.isEmpty then none else some (.stall s))
      else
        match lavReg d is with
        | some (f, n) => some (.trap causeLAV (n + fileCode f * 256))
        | none => if stallsOn d is then some (.stall s) else none

/-- The issue of one code word by the chosen entry. -/
def issueWord (d : Desc) (body : Issue → State → Verdict) (s : State) : Out :=
  match s.cur with
  | none => .fault .noIssuer
  | some (c, slot, pc, lanes) =>
    match s.group? c slot with
    | none => .fault .noIssuer
    | some g =>
      let is := mkIssue s c slot pc lanes g
      .next (match precheck d is s with
        | some v => settle is v s
        | none =>
          if d.mirror && g.mirrored && !is.active.isEmpty && s.glitch.contains s.steps then settle is .mismatch s
          else settle is (body is s) s)

/-- The issue of a word that has no form of its own to check: what is no instruction, and what the fetch refuses. -/
def issueBare (body : Issue → State → Verdict) (s : State) : Out :=
  match s.cur with
  | none => .fault .noIssuer
  | some (c, slot, pc, lanes) =>
    match s.group? c slot with
    | none => .fault .noIssuer
    | some g =>
      let is := mkIssue s c slot pc lanes g
      .next (settle is (body is s) s)

/-! ## Reading operands -/

def Issue.sRd (is : Issue) (s : State) (n : Nat) : Nat := s.poolNum is.core (sAddr is.rb n) 4
def Issue.mRd (is : Issue) (s : State) (n : Nat) : Nat := s.poolNum is.core (mAddr is.rb n) 4
def Issue.vRd (is : Issue) (s : State) (n lane : Nat) : Nat := s.poolNum is.core (vAddr is.rb n lane) 4
/-- A pair, the low word in the even register (R39). -/
def Issue.sPair (is : Issue) (s : State) (n : Nat) : Nat := is.sRd s n + is.sRd s (n + 1) * 2 ^ 32
def Issue.vPair (is : Issue) (s : State) (n lane : Nat) : Nat := is.vRd s n lane + is.vRd s (n + 1) lane * 2 ^ 32

/-- A v operand of 32 or 64 bits. -/
def Issue.vVal (is : Issue) (s : State) (w : Bool) (n lane : Nat) : Nat := if w then is.vPair s n lane else is.vRd s n lane
def Issue.sVal (is : Issue) (s : State) (w : Bool) (n : Nat) : Nat := if w then is.sPair s n else is.sRd s n

/-- The immediate at a width: sext(imm, 64) for 64-bit instructions (R126). -/
def immAt (w : Bool) (imm : Nat) : Nat := if w then wrapTo 64 (signedOf 32 imm) else imm

/-- Source va: v, or s(va mod 32) when t = 1 (R119); an immediate takes its place in a one-source instruction. -/
def Issue.srcA (is : Issue) (s : State) (oneSrc w t : Bool) (a lane : Nat) : Nat :=
  match oneSrc, is.imm with
  | true, some i => immAt w i
  | _, _ => if t then is.sVal s w (a % 32) else is.vVal s w a lane

/-- Source vb: v, or the immediate (R126, R148). -/
def Issue.srcB (is : Issue) (s : State) (w : Bool) (b lane : Nat) : Nat :=
  match is.imm with
  | some i => immAt w i
  | none => is.vVal s w b lane

/-- The fourth operand, or vd (R124). -/
def Issue.src4 (is : Issue) (s : State) (w : Bool) (d lane : Nat) : Nat :=
  if is.x.f4en then (if is.x.f4s then is.sVal s w (is.x.f4 % 32) else is.vVal s w is.x.f4 lane) else is.vVal s w d lane

/-- The team of the issuing Group, and its home core and scratchpad. -/
def Issue.team (is : Issue) (s : State) : Option Team := s.teams.get? is.g.team

/-! ## Writing results (R147) -/

/-- Writes of n registers per lane from vd: results in active lanes, zeros in the others under the zero policy. -/
def Issue.vWrites (is : Issue) (d n : Nat) (f : Nat → Nat) : List (Nat × Nat × List Byte) :=
  lanes32.foldl (fun acc l =>
    if is.active.contains l then acc ++ (upFrom 0 n).map (fun i => (is.core, vAddr is.rb (d + i) l, toBytes 4 (f l / 2 ^ (32 * i))))
    else if is.x.zero then acc ++ (upFrom 0 n).map (fun i => (is.core, vAddr is.rb (d + i) l, toBytes 4 0))
    else acc) []

/-- A 32-bit or 64-bit result per active lane. -/
def Issue.vResult (is : Issue) (w : Bool) (d : Nat) (f : Nat → Nat) : Eff := { pool := is.vWrites d (if w then 2 else 1) f }

/-- Bits of m(d) in active lanes; the others keep theirs, or are cleared under the zero policy (R147, R157). -/
def Issue.mResult (is : Issue) (s : State) (d : Nat) (f : Nat → Bool) : Eff :=
  let old := is.mRd s d
  let new := lanes32.foldl (fun acc l =>
    let b := if is.active.contains l then f l else if is.x.zero then false else bitAt old l
    if b then acc + 2 ^ l else acc) 0
  { raw := [(mAddr is.rb d, toBytes 4 new)] }

/-- One s register. -/
def Issue.sResult (is : Issue) (d x : Nat) : Eff := { raw := [(sAddr is.rb d, toBytes 4 x)] }

/-- An s pair. -/
def Issue.sResult64 (is : Issue) (d x : Nat) : Eff := { raw := [(sAddr is.rb d, toBytes 8 x)] }

/-! ## Descriptions of operand forms -/

def opV (n : Nat) (w : Bool) : List Opnd := [{ file := .v, num := n, count := if w then 2 else 1 }]
def opS (n : Nat) (w : Bool) : List Opnd := [{ file := .s, num := n, count := if w then 2 else 1 }]
def opM (n : Nat) : List Opnd := [{ file := .m, num := n, count := 1 }]
/-- va under t (R119). -/
def opA (t w : Bool) (a : Nat) : List Opnd := if t then opS (a % 32) w else opV a w

/-- A vector instruction of two sources (R119, R150). -/
def descTwo (w t : Bool) (d a b : Nat) : Desc :=
  { lim := .b, resB := b, vd := opV d w, va := opA t w a, vb := opV b w, f4w := if w then 2 else 1, mirror := true }

/-- A vector instruction of one source. -/
def descOne (w t : Bool) (d a : Nat) (imm : Bool) : Desc :=
  { lim := if imm then .a else .none, resA := a + t.toNat, vd := opV d w, va := opA t w a, mirror := true }

/-- A scalar instruction (R161): no XPFX. -/
def descScalar (d a b : Nat) : Desc := { vec := false, lim := .b, resB := b, vd := opS d false, va := opS a false, vb := opS b false }

end Sys2Proof.Machine
end

