-- ==== Sys2Proof/Machine/Frontier.lean ====
section
/-! DEFINITION. The frontier (R323, R324): entries, their rank and eligibility; the fetch of code words (R117, R349) and of whole
sequences (R122); the choice of the Group that issues (R329). -/

namespace Sys2Proof.Machine

/-- The ring of a Team and the core that holds it (R252). -/
def Team.ring? (t : Team) (r : Nat) : Option (Nat × Nat) := (t.rings.find? (fun q => q.1 == r)).map (fun q => q.2)

/-- A ring slot is full when ph differs from cph (R252). -/
def Ring.full (r : Ring) (slot : Nat) : Bool := bitAt r.ph slot != bitAt r.cph slot

/-- A ring of a core; one never published is empty. -/
def Core.ring (k : Core) (r : Nat) : Ring := k.rings.getD r { ph := 0, cph := 0, slots := 0 }

/-- Whether wtime has reached a time of 32 bits of seconds and nanoseconds (R261). -/
def timeReached (sec ns tsec tns : Nat) : Bool :=
  let d := (sec % 2 ^ 32 + 2 ^ 32 - tsec % 2 ^ 32) % 2 ^ 32
  decide (d < 2 ^ 31) && (decide (0 < d) || decide (tns ≤ ns))

/-- Whether an arrival counter has reached a threshold (R216). -/
def counterReached (n thr : Nat) : Bool := decide ((n + (2 ^ 32 - thr % 2 ^ 32)) % 2 ^ 32 < 2 ^ 31)

/-- Whether the Group's ring slot is full; an undeclared ring has none. -/
def State.ringIsFull (s : State) (g : Group) (r slot : Nat) : Bool :=
  match s.teamOf g with
  | some t => match t.ring? r with
    | some (h, c) => ((s.core c).ring h).full slot
    | none => false
  | none => false

/-- Room that a Group has reserved in its die's continuation store (R255). -/
def State.roomOf (s : State) (c : Nat) (uid : Nat) : Nat := (s.stores.getD (dieOf c) ContStore.reset).reserved.getD uid 0

/-- Whether a lane's wait has ended (R324). Parked lanes and lanes that await a Barrier are released by what ends their wait. -/
def State.waitOver (s : State) (c : Nat) (g : Group) (w : Wait) : Bool :=
  match w with
  | .none => true
  | .waitm _ => false
  | .bars _ => false
  | .sent _ => false
  | .phase _ _ => false
  | .freed _ => false
  | .arrival n thr => counterReached (g.arrival.getD n 0) thr
  | .timeline q n => decide (n ≤ (s.timeline (s.ctxAt c) q).count)
  | .ringEmpty r slot => !s.ringIsFull g r slot
  | .ringFull r slot => s.ringIsFull g r slot
  | .time sec ns => timeReached s.sec s.ns sec ns
  | .room n => decide (n ≤ s.roomOf c g.uid)
  | .walk _ _ => false
  | .parked l => s.replayed g.uid l

/-- An entry of the frontier: priority, place, lanes (R323). -/
structure Entry where
  prio : Nat
  pc : Nat
  lanes : List Nat

/-- The live lanes that may issue: those of m0, and in a trap entry only its lanes (R280). -/
def issuing (live : Nat) (inTrap : Option (List Nat)) : List Nat :=
  match inTrap with
  | some ls => (lanesOf live).filter (fun l => ls.contains l)
  | none => lanesOf live

/-- The entries of a set of lanes, in ascending order of their lowest lane. -/
def entriesOf (ls : List Lane) : List Nat → List Entry → List Entry
  | [], acc => acc
  | l :: r, acc =>
    match ls[l]? with
    | some x =>
      if acc.any (fun e => e.prio == x.prio && e.pc == x.pc) then
        entriesOf ls r (acc.map (fun e => if e.prio == x.prio && e.pc == x.pc then { e with lanes := e.lanes ++ [l] } else e))
      else entriesOf ls r (acc ++ [{ prio := x.prio, pc := x.pc, lanes := [l] }])
    | none => entriesOf ls r acc

/-- Rank of two entries: demotion, priority, place (R324). -/
def ranksBefore (ydem ykey : Nat) (a b : Entry) : Bool :=
  let da : Bool := decide (0 < ydem) && a.lanes.contains ykey
  let db : Bool := decide (0 < ydem) && b.lanes.contains ykey
  if da != db then db
  else if a.prio != b.prio then decide (b.prio < a.prio)
  else decide (a.pc < b.pc)

/-- The first entry in rank order. -/
def firstEntry (ydem ykey : Nat) (es : List Entry) : Option Entry :=
  es.foldl (fun best e =>
    match best with
    | some b => if ranksBefore ydem ykey e b then some e else some b
    | none => some e) none

/-- The frontier of a Group (R323). -/
def State.frontier (s : State) (c slot : Nat) (g : Group) : List Entry :=
  entriesOf g.lanes (issuing (s.liveMask c slot) g.inTrap) []

/-- The entry of highest priority (R280). -/
def State.topEntry (s : State) (c slot : Nat) (g : Group) : Option Entry := firstEntry g.ydem g.ykey (s.frontier c slot g)

/-- A lane whose access stands in a home's fault queue. -/
def Group.isReplayed (g : Group) (l : Nat) : Bool := match g.lanes[l]? with | some x => (match x.wait with | .parked _ => true | _ => false) | none => false

/-- The entry that issues next: the one chosen before, alone while its sequence is in progress, or one whose access a home replays (R363), or
the first eligible one in rank order (R324). -/
def State.nextEntry (s : State) (c slot : Nat) (g : Group) : Option Entry :=
  let ready := (issuing (s.liveMask c slot) g.inTrap).filter (fun l =>
    match g.lanes[l]? with
    | some x => s.waitOver c g x.wait
    | none => false)
  let es := entriesOf g.lanes ready []
  let next := (es.find? (fun e => e.lanes.any g.isReplayed)).or (firstEntry g.ydem g.ykey es)
  match g.chosen with
  | some (p, pc) =>
    match es.find? (fun e => e.prio == p && e.pc == pc) with
    | some e => some e
    | none => if g.seq.n = 0 then next else none
  | none => next

/-! ## Fetch (R117, R348, R349) -/

/-- The outcome of a fetch. -/
inductive Fetch
  | word (w : Nat)
  | outside
  | refused
  | failed
  | untranslated
  | waits (pa : Nat)

/-- The request of the entry that issues (R363). -/
def State.curReq (s : State) : Req :=
  match s.cur with
  | some (c, slot, _, lanes) => match s.group? c slot with | some g => .group c slot g.uid (lanes.headD 0) | none => .other
  | none => .other

/-- A fetch of the code word at an offset by an entry of a Group on a core (R117). A word once fetched stays until SYNCI or a load (R264,
log 7); one that has not been waits as any request to its home does (R363, R366, R394). -/
def State.fetch (s : State) (c : Nat) (failed : List Nat) (off : Nat) : Fetch :=
  let l := s.launchAt c
  let va := l.codebase + off
  if l.codelen < off + 4 then .outside
  else
    match s.tlbOf c (s.ctxAt c) va with
    | some t =>
      if s.allowed (s.ctxAt c) t va .fetch then
        match (s.core c).icache.get? off with
        | some w => .word w
        | none =>
          let pa := t.phys va
          if s.waitsFor s.curReq (dieOf c) pa then .waits pa else .word (s.numPhys pa 4)
      else .refused
    | none => if failed.contains (granOf va) then .failed else .untranslated

/-- A fetched word is kept, and the Chunk has used its Page's translation (R352); a fetch from the home has been served, and its line is tagged
(R362, R363). -/
def State.keepWord (s : State) (c slot off w : Nat) : State :=
  let k := s.core c
  let va := (s.launchAt c).codebase + off
  let fetched : State := (s.setCore c { k with icache := k.icache.set off w }).unparkReq s.curReq
  let s1 := if (k.icache.get? off).isSome then s
    else match s.tlbOf c (s.ctxAt c) va with | some t => fetched.tagLines c [t.phys va / 32] | none => fetched
  match s.tlbOf c (s.ctxAt c) va with
  | some t => (s1.modGroup c slot (fun g => { g with chunk := { g.chunk with pages := unionPages g.chunk.pages [(t.va, t.lg)] } })).tlbTouch c (s.ctxAt c) va
  | none => s1

/-- What reading code ahead finds: a value, nothing of use, or a word that is not there yet: its Page has no translation, or its fetch waits. -/
inductive Ahead (α : Type)
  | got (a : α)
  | nothing
  | needs (off : Nat)

/-- Reading on from what has been found. -/
def Ahead.bind {α β : Type} (x : Ahead α) (f : α → Ahead β) : Ahead β :=
  match x with | .got a => f a | .nothing => .nothing | .needs off => .needs off

/-- The value, where one was found. -/
def Ahead.val? {α : Type} (x : Ahead α) : Option α := match x with | .got a => some a | _ => none

/-- The word whose Page is needed, where one is. -/
def Ahead.needs? {α : Type} (x : Ahead α) : Option Nat := match x with | .needs off => some off | _ => none

/-- The instruction at an offset. -/
def State.instrAt (s : State) (c : Nat) (failed : List Nat) (off : Nat) : Ahead Instr :=
  match s.fetch c failed off with
  | .word w => match decode w with
    | .ok i => .got i
    | .bad _ => .nothing
  | .untranslated => .needs off
  | .waits _ => .needs off
  | _ => .nothing

/-- What the issuing entry does about a word that is not there yet: its walk, or its place at the home or the bank (R351, R363, R366). -/
def fetchHold (is : Issue) (s : State) (off : Nat) : Verdict :=
  match s.fetch is.core is.g.failed off with
  | .waits pa => if s.parksAt is.req pa then .park pa else .stall (s.await pa is.req)
  | _ => .walk (is.l.codebase + off) .fetch

/-- A hint word of a sequence. -/
def isHint (i : Instr) : Bool :=
  match i with
  | .xpfx _ _ _ _ _ _ _ => true
  | .limm _ _ => true
  | _ => false

/-- Words of the sequence that begins at an offset, n at most; a sequence that runs into a word that is not there yet waits for it first. -/
def State.seqLen (s : State) (c : Nat) (failed : List Nat) (off : Nat) : Nat → Ahead Nat
  | 0 => .got 0
  | n + 1 =>
    match s.instrAt c failed off with
    | .got i => if isHint i then (s.seqLen c failed (off + 4) n).bind (fun m => .got (1 + m)) else .got 1
    | .needs o => .needs o
    | .nothing => .got 1

/-- A sequence read ahead: its XPFX, its LIMMs, its instruction and the offset behind it. -/
def State.readSeq (s : State) (c : Nat) (failed : List Nat) (off : Nat) : Nat → Option Xpfx → List (Bool × Nat) →
    Ahead (Option Xpfx × List (Bool × Nat) × Instr × Nat)
  | 0, _, _ => .nothing
  | n + 1, xp, ls =>
    (s.instrAt c failed off).bind (fun i => match i with
      | .xpfx f4s f4en f4 sat rm zero m =>
        if xp.isNone && ls.isEmpty then
          s.readSeq c failed (off + 4) n
            (some { f4s := f4s, f4en := f4en, f4 := f4, sat := sat, rm := rm, zero := zero, mask := m }) ls
        else .nothing
      | .limm hi v => s.readSeq c failed (off + 4) n xp (ls ++ [(hi, v)])
      | i => .got (xp, ls, i, off + 4))

/-- A fused softmax run: its registers, its XPFX, its words (R183). -/
structure FusedRun where
  vx : Nat
  vm : Nat
  vd : Nat
  vs : Nat
  xp : Option Xpfx
  words : Nat

/-- The five sequences of R183 at an offset, each read once those before it fit. -/
def State.fusedLook (s : State) (c : Nat) (failed : List Nat) (off : Nat) : Ahead FusedRun :=
  (s.readSeq c failed off 4 none []).bind (fun a => match a with
  | (x1, [], .redl .fmax false vm vx, o1) => if vx = vm then .nothing else
    (s.readSeq c failed o1 4 none []).bind (fun a => match a with
    | (x2, [], .fsub false vd vx2 vm2, o2) => if vx2 ≠ vx ∨ vm2 ≠ vm ∨ vx = vd ∨ vm = vd ∨ x1 ≠ x2 then .nothing else
      (s.readSeq c failed o2 4 none []).bind (fun a => match a with
      | (x3, l3, .fmul false vd3 vd4 0, o3) =>
        if vd3 ≠ vd ∨ vd4 ≠ vd ∨ l3.length ≠ 2 ∨ immOf l3 ≠ some 0x3FB8AA3B ∨ x1 ≠ x3 then .nothing else
        (s.readSeq c failed o3 4 none []).bind (fun a => match a with
        | (x4, [], .fexp2 false vd5 vd6, o4) => if vd5 ≠ vd ∨ vd6 ≠ vd ∨ x1 ≠ x4 then .nothing else
          (s.readSeq c failed o4 4 none []).bind (fun a => match a with
          | (x5, [], .redl .fadd false vs vd7, o5) => if vd7 ≠ vd ∨ x1 ≠ x5 then .nothing else
            .got { vx := vx, vm := vm, vd := vd, vs := vs, xp := x1, words := (o5 - off) / 4 }
          | _ => .nothing)
        | _ => .nothing)
      | _ => .nothing)
    | _ => .nothing)
  | _ => .nothing)

/-- The fused run at an offset, where one stands. -/
def State.fusedAt? (s : State) (c : Nat) (failed : List Nat) (off : Nat) : Option FusedRun := (s.fusedLook c failed off).val?

/-- The offset of a word that decides whether a fused run stands at an offset and that is not there yet. -/
def State.fusedNeeds? (s : State) (c : Nat) (failed : List Nat) (off : Nat) : Option Nat := (s.fusedLook c failed off).needs?

/-! ## Which Group issues (R329) -/

/-- Whether a Group can issue a word now. -/
def State.canIssue (s : State) (c slot : Nat) (g : Group) : Bool :=
  g.state == .running && g.hold == .none && g.chunk.phase != .soloWait && !g.preempt
    && (s.nextEntry c slot g).isSome

/-- Slots of a core whose Groups can issue: active ones, and ones that can enter the active set (R329). -/
def State.readySlots (s : State) (c : Nat) (k : Core) : List Nat :=
  let ready := (k.groups.filter (fun e => s.canIssue c e.1 e.2)).map (fun e => e.1)
  let room : Bool := decide (k.active.length < 8) || k.active.any (fun a => !ready.contains a.slot && decide (a.pin ≤ s.clk))
  ready.filter (fun x => room || k.active.any (fun a => a.slot == x))

/-- The slot after the last one that issued, in turn. -/
def inTurn (rot : Nat) (slots : List Nat) : Option Nat :=
  match slots.find? (fun x => decide (rot < x)) with
  | some x => some x
  | none => slots.head?

/-- The active set after a Group has issued (R329). -/
def activeAfter (ready : List Nat) (clk : Nat) (act : List Active) (slot : Nat) : List Active :=
  match act.find? (fun a => a.slot == slot) with
  | some _ => act.map (fun a => if a.slot == slot then { a with last := clk, idle := none } else a)
  | none =>
    let new : Active := { slot := slot, last := clk, idle := none, pin := 0 }
    if act.length < 8 then act ++ [new]
    else
      let idle := act.filter (fun a => !ready.contains a.slot && decide (a.pin ≤ clk))
      let oldest := idle.foldl (fun m a => min m a.last) clk
      match idle.find? (fun a => a.last == oldest) with
      | some o => (act.filter (fun a => a.slot != o.slot)) ++ [new]
      | none => act ++ [new]

/-- The Group that issues in this step: cores and slots in turn (log 3). -/
def State.issuer (s : State) : Option (Nat × Nat) :=
  let cs := (s.cores.filter (fun e => !(s.readySlots e.1 e.2).isEmpty)).map (fun e => e.1)
  if cs.isEmpty then none
  else
    match cs[s.steps % cs.length]? with
    | some c => (inTurn (s.core c).rot (s.readySlots c (s.core c))).map (fun x => (c, x))
    | none => none

/-- The core's turn and active set move on. -/
def State.tookTurn (s : State) (c slot : Nat) : State :=
  let k := s.core c
  (s.setCore c { k with rot := slot, active := activeAfter (s.readySlots c k) s.clk k.active slot }).due
    (if k.active.any (fun a => a.slot == slot) then [] else [.activeSetLeave c slot])

end Sys2Proof.Machine
end

