-- ==== Sys2Proof/Machine/MemAccess.lean ====
section
/-! DEFINITION. Majors 0x38 to 0x3A: global loads and stores (R193 to R201), scratchpad, cluster window and pool accesses (R202 to
R205), PREF, EVICT and CKIN (R213). -/

namespace Sys2Proof.Machine

/-! ## Addresses and checks -/

/-- The immediate as a signed byte offset (R126). -/
def Issue.offset (is : Issue) : Int := signedOf 32 (is.imm.getD 0)

/-- The address of a lane (R194). -/
def Issue.addr (is : Issue) (s : State) (x : Bool) (a lane : Nat) : Nat :=
  wrapTo 64 (((if x then is.sPair s a else is.vPair s a lane : Nat) : Int) + is.offset)

/-- The translation of an address, when it is cached (R350). -/
def Issue.leaf (is : Issue) (s : State) (va : Nat) : Option Tlb := s.tlbOf is.core is.ctx va

/-- The physical address of an address that has a translation. -/
def Issue.pa (is : Issue) (s : State) (va : Nat) : Nat :=
  match is.leaf s va with
  | some t => t.phys va
  | none => 0

/-- The first lane that fails a test of its address. -/
def badLane (els : List (Nat × Nat)) (p : Nat → Bool) : Option Nat := (els.find? (fun e => p e.2)).map (fun e => e.1)

/-- Checks 1 to 5 of R194 over every element, each before the next; refuses tells the physical addresses that check 5 refuses. -/
def globalFault (is : Issue) (s : State) (els : List (Nat × Nat)) (size : Nat) (acc : AccKind) (refuses : Nat → Bool) :
    Option Verdict :=
  match badLane els (fun a => a % size != 0) with
  | some l => some (.trap causeALIGN l)
  | none =>
    match badLane els (fun a => decide (2 ^ 57 ≤ a)) with
    | some l => some (.trap causePROT (l + 32))
    | none =>
      match badLane els (fun a => (is.leaf s a).isNone && is.g.failed.contains (granOf a)) with
      | some l => some (.trap causeXLATE (0xA0 + l))
      | none =>
        match els.find? (fun e => (is.leaf s e.2).isNone) with
        | some e => some (.walk e.2 acc)
        | none =>
          match badLane els (fun a => match is.leaf s a with | some t => !s.allowed is.ctx t a acc | none => true) with
          | some l => some (.trap causePROT (l + 64))
          | none => (badLane els (fun a => refuses (is.pa s a))).map (fun l => .trap causePROT (l + 96))

/-- Check 6: an address whose line parks at its home, or whose request waits on its way there or for a bank (R363, R366, R394). -/
def parking (is : Issue) (s : State) (pas : List Nat) : Option Verdict :=
  match pas.find? (fun pa => s.parksAt is.req pa) with
  | some pa => some (.park pa)
  | none => (pas.find? (fun pa => s.waitsFor is.req (dieOf is.core) pa)).map (fun pa => .stall (s.await pa is.req))

/-- A line of physical memory. -/
def lineNo (pa : Nat) : Nat := pa / 64

/-- A line that the Group's own cluster holds checked out, or whose check-in is on its way: it checks in before a .dv or .sy access
(R105). -/
def ownCheckedOut (is : Issue) (s : State) (pas : List Nat) : Option Nat :=
  (pas.map lineNo).find? (fun ln => match (s.cluster (clusterOf is.core)).get? ln with
    | some x => x.twin.isSome
    | none => false)

/-- Lines that the access waits for: parked ones, then ones that must check in first. -/
def lineWait (is : Issue) (s : State) (pas : List Nat) : Option Verdict :=
  match parking is s pas with
  | some v => some v
  | none => (ownCheckedOut is s pas).map (fun ln => .hold (s.checkIn (clusterOf is.core) ln))

/-- The translations that a word used (R352). -/
def usedPages (is : Issue) (s : State) (els : List (Nat × Nat)) : List (Nat × Nat) :=
  unionPages [] (els.filterMap (fun e => (is.leaf s e.2).map (fun t => (t.va, t.lg))))

/-- Distinct sectors of n bytes at each address (R90). -/
def sectorSet (pas : List Nat) (n : Nat) : List Nat := pas.foldl (fun acc pa => unionNat acc (sectorsOf pa n)) []

/-! ## The write buffer (R92) -/

/-- Bytes of a store laid over bytes read from pa. -/
def overlay (pa : Nat) (old : List Byte) (at_ : Nat) (new : List Byte) : List Byte :=
  (old.zip (upFrom pa old.length)).map (fun x =>
    if at_ ≤ x.2 ∧ x.2 < at_ + new.length then new.getD (x.2 - at_) x.1 else x.1)

/-- What the Group's own write buffer holds of n bytes at pa, over the bytes from memory (R92). Far REDs are not visible. -/
def throughBuffer (buf : List BufItem) (pa : Nat) (old : List Byte) : List Byte :=
  buf.foldl (fun b it =>
    match it with
    | .store _ _ a bytes => overlay pa b a bytes
    | .clStore a bytes => overlay pa b a bytes
    | .farRed _ _ _ _ _ => b
    | .clRed _ _ _ _ => b
    | .farAtom _ _ _ _ _ _ _ => b
    | .clAtom _ _ _ _ _ _ => b) old

/-- A cluster's copy of a line, fetched as a read copy when it has none (R104). -/
def State.fetchLine (s : State) (cl ln : Nat) : State :=
  match (s.cluster cl).get? ln with
  | some _ => s
  | none =>
    s.setCluster cl ((s.cluster cl).set ln
      { bytes := s.readPhys (ln * 64) 64, twin := none, since := s.clk, sent := false, drop := false, bad := s.poisonOf ln })

/-- Bytes of a cluster's copy. -/
def State.clusterBytes (s : State) (cl pa n : Nat) : List Byte :=
  match (s.cluster cl).get? (lineNo pa) with
  | some x => (x.bytes.drop (pa % 64)).take n
  | none => s.readPhys pa n

/-- The oldest line that any cluster holds checked out at a slice that has no place for one twin more beside those of the lines new
(R104). -/
def State.twinToEvict (s : State) (ln : Nat) (new : List Nat) : Option (Nat × Nat) :=
  let q := sliceOf s.regions (ln * 64)
  let held := s.clusters.foldl (fun acc c => acc ++ (c.2.filter (fun e => e.2.twin.isSome && sliceOf s.regions (e.1 * 64) == q)).map
    (fun e => (c.1, e.1, e.2.since))) []
  if held.length + (new.filter (fun l => sliceOf s.regions (l * 64) == q)).length < 4096 then none
  else
    let first := held.foldl (fun m e => min m e.2.2) s.clk
    (held.find? (fun e => e.2.2 == first)).map (fun e => (e.1, e.2.1))

/-- The check-out of a line: the copy becomes writable, and the home keeps a twin (R104). -/
def State.checkOut (s : State) (cl ln : Nat) : State :=
  let s1 := s.fetchLine cl ln
  match (s1.cluster cl).get? ln with
  | some x =>
    if x.twin.isSome then s1
    else
      let now := s1.readPhys (ln * 64) 64
      s1.setCluster cl ((s1.cluster cl).set ln { bytes := now, twin := some now, since := s1.clk, sent := false, drop := false, bad := s1.poisonOf ln })
  | none => s1

/-- The line that must check in before a cluster can check out every line of a list (R104). -/
def State.twinsToEvict (s : State) (cl : Nat) (lines : List Nat) : Option (Nat × Nat) :=
  let new := (unionNat [] lines).filter (fun ln => match (s.cluster cl).get? ln with | some x => x.twin.isNone | none => true)
  new.findSome? (fun ln => s.twinToEvict ln (new.filter (· != ln)))

/-- Whether a cluster's copy of a line is writable: it is checked out (R104). -/
def State.writable (s : State) (cl pa : Nat) : Bool :=
  match (s.cluster cl).get? (lineNo pa) with | some x => x.twin.isSome | none => false

/-- What a .cl write or atomic waits for: a parked line, a check-in on its way, a twin's place (R104). -/
def clusterWriteWait (is : Issue) (s : State) (pas : List Nat) : Option Verdict :=
  let cl := clusterOf is.core
  match parking is s (pas.filter (fun pa => !s.writable cl pa)) with
  | some v => some v
  | none =>
    if (pas.map lineNo).any (s.checkingIn cl) then some (.hold s)
    else (s.twinsToEvict cl (pas.map lineNo)).map (fun e => .hold (s.checkIn e.1 e.2))

/-- Whether a .cl read of n bytes past a write buffer meets poison: in the cluster's copy, or at the home (R365). -/
def State.clPoison (s : State) (buf : List BufItem) (cl pa n : Nat) : Bool :=
  match (s.cluster cl).get? (lineNo pa) with
  | some x => (upFrom pa n).any (fun a => x.bad.contains (a % 64) && !bufHolds buf a)
  | none => s.poisonedPast buf pa n

/-- Whether a load of a scope meets poison (R365). -/
def State.loadPoison (s : State) (buf : List BufItem) (c : Scope) (cl pa n : Nat) : Bool :=
  if c == .cl then s.clPoison buf cl pa n else s.poisonedPast buf pa n

/-! ## Loads -/

/-- The data register range of a size (R133). -/
def opData (d : Nat) (z : Size) : List Opnd := [{ file := .v, num := d, count := sizeRegs z }]

/-- The address operand of majors 0x38, 0x39 and of cache control (R133). -/
def opAddr (x : Bool) (a : Nat) : List Opnd := if x then opS a true else opV a true

/-- The form of a global load. -/
def descLoad (l : Nat) (x : Bool) (d a : Nat) (z : Size) : Desc :=
  { lim := .offset, vd := opData d z, va := opAddr x a, look := some l }

/-- The memory channels that a read of device addresses uses (R418). -/
def channelsOf (rs : List Region) (pas : List Nat) : List Nat :=
  unionNat [] ((pas.filter (fun pa => decide (pa < 2 ^ 40))).map (fun pa => channelOf (locOf rs pa)))

/-- A long-latency result: registers pending until LOAD_RETURN (R130), with the undo entries of the registers taken now (R82). -/
def pendingLoad (is : Issue) (s : State) (look d n : Nat) (f : Nat → Nat) (uce : Bool) (pas : List Nat) : Eff :=
  let ws := is.vWrites d n f
  { pool := ws.map (fun w => (w.1, w.2.1, (s.core w.1).pool.bytes w.2.1 w.2.2.length)),
    pend := some { pc := is.first, regs := (upFrom d n).map (fun r => (.v, r)), win := if look = 0 then none else some (is.lanes, look),
                   writes := ws.map (fun w => (w.2.1, w.2.2)), uce := uce, since := s.clk, chans := channelsOf s.regions pas },
    post := fun s => s.due [.loadReturn is.core is.slot] }

/-- A load's or near atomic's requests to the homes of its lines on other dies (R395). -/
def State.request (s : State) (c slot : Nat) (pas : List Nat) : State := s.sendAcross c (loadTag c slot) pas

/-- The elements of a global access. -/
def Issue.elements (is : Issue) (s : State) (x : Bool) (a : Nat) (ls : List Nat) : List (Nat × Nat) :=
  ls.map (fun l => (l, is.addr s x a l))

/-- A load of a scope (R197); acq is LDA (R198). -/
def loadWord (acq : Bool) (l : Nat) (x : Bool) (d a : Nat) (c : Scope) (z : Size) (s : State) : Out :=
  issueWord (descLoad l x d a z) (fun is s =>
    let n := sizeBytes z
    let els := is.elements s x a is.active
    match globalFault is s els n .load (fun pa => c == .cl && isHost pa) with
    | some v => v
    | none =>
      let pas := els.map (fun e => is.pa s e.2)
      let cl := clusterOf is.core
      let away := if c == .cl then pas.filter (fun pa => ((s.cluster cl).get? (lineNo pa)).isNone) else pas
      match (if c == .cl then parking is s away else lineWait is s away) with
      | some v => v
      | none =>
        let s1 := if c == .cl then pas.foldl (fun s pa => s.fetchLine cl (lineNo pa)) s else s
        let mem (pa : Nat) : List Byte := if c == .cl then s1.clusterBytes cl pa n else s1.readPhys pa n
        let value (lane : Nat) : Nat :=
          let pa := is.pa s (is.addr s x a lane)
          ofBytes (throughBuffer is.g.chunk.buf pa (mem pa))
        let e := pendingLoad is s l d (sizeRegs z) value (pas.any (fun pa => s.loadPoison is.g.chunk.buf c cl pa n)) away
        .go { e with
          reads := if c == .cl then [] else sectorSet pas n, tags := if c == .cl then sectorSet away n else [], pages := usedPages is s els,
          post := fun t =>
            let t1 := if c == .cl then pas.foldl (fun s pa => s.fetchLine cl (lineNo pa)) t
              else if acq then t.dropReadCopies cl else t
            ((t1.unparkReq is.req).request is.core is.slot away).due
              [.loadReturn is.core is.slot] }) s

/-- LD (R197). -/
def execLd (l : Nat) (x : Bool) (d a : Nat) (c : Scope) (z : Size) (s : State) : Out := loadWord false l x d a c z s

/-- LDA (R198, R109): .dv and .sy drop the cluster's read copies. -/
def execLda (l : Nat) (x : Bool) (d a : Nat) (c : Scope) (z : Size) (s : State) : Out := loadWord true l x d a c z s

/-! ## Stores -/

/-- A lane's store data: the low bytes of the registers from vd. -/
def Issue.data (is : Issue) (s : State) (d n lane : Nat) : List Byte :=
  (toBytes 16 (is.vRd s d lane + (if 4 < n then is.vRd s (d + 1) lane else 0) * 2 ^ 32
    + (if 8 < n then is.vRd s (d + 2) lane * 2 ^ 64 + is.vRd s (d + 3) lane * 2 ^ 96 else 0))).take n

/-- The body of ST and of STL's store (R199): elements in lane order, so that the highest lane's byte stands. A .cl store checks its lines
out when it is performed in the cluster's copy, at commit (R90, R104). -/
def storeBody (x : Bool) (d a : Nat) (c : Scope) (z : Size) (is : Issue) (s : State) : Verdict :=
  let n := sizeBytes z
  let els := is.elements s x a is.active
  match globalFault is s els n .store (fun pa => c == .cl && isHost pa) with
  | some v => v
  | none =>
    let pas := els.map (fun e => is.pa s e.2)
    match (if c == .cl then clusterWriteWait is s pas else (ownCheckedOut is s pas).map (fun ln =>
        .hold (s.checkIn (clusterOf is.core) ln))) with
    | some v => v
    | none =>
      let items := els.map (fun e =>
        let pa := is.pa s e.2
        let bytes := is.data s d n e.1
        if c == .cl then BufItem.clStore pa bytes else BufItem.store (c == .sy) false pa bytes)
      .go { buf := items, writes := if c == .cl then [] else sectorSet pas n, clw := if c == .cl then sectorSet pas n else [],
            pages := usedPages is s els, post := fun t => if c == .cl then t.unparkReq is.req else t }

/-- The form of a global store. -/
def descStore (x : Bool) (d a : Nat) (z : Size) : Desc := { lim := .offset, vd := opData d z, va := opAddr x a }

/-- ST (R199). -/
def execSt (l : Nat) (x : Bool) (d a : Nat) (c : Scope) (z : Size) (s : State) : Out :=
  issueWord { descStore x d a z with look := some l } (storeBody x d a c z) s

/-- STL (R200): the Chunk before it ends; a release of device scope comes between the Chunks (R108). A Chunk in Solo-run ends before an STL
whose release has lines to check in (R89, R101). -/
def execStl (x : Bool) (d a : Nat) (c : Scope) (z : Size) (s : State) : Out :=
  issueWord { descStore x d a z with closes := true } (fun is s =>
    if is.g.seq.n < is.g.chunk.words then .before .run
    else if c != .cl && is.g.chunk.phase == .soloRun && !(s.checkedOut (clusterOf is.core)).isEmpty then .before .run
    else
      match storeBody x d a c z is s with
      | .go e => .go { e with post := fun t => e.post (if c == .cl then t else t.release is.core is.slot) }
      | v => v) s

/-! ## Scratchpad, cluster window, pool (R202 to R205, R79) -/

/-- The address of a local access: base + imm mod 2^32 (R202). -/
def Issue.localAddr (is : Issue) (s : State) (x : Bool) (a lane : Nat) : Nat :=
  wrapTo 32 (((if x then is.sRd s (a % 32) else is.vRd s a lane : Nat) : Int) + is.offset)

/-- Address spaces of major 0x3A. -/
inductive LocalSpace | scratch | window | pool
deriving DecidableEq, Repr

/-- Rights that a local address finds. -/
inductive LocalRight | team | own | readable
deriving DecidableEq, Repr

/-- Where a local access of n bytes falls: core, pool address, rights; none where it is refused (R79, R202). -/
def Issue.place (is : Issue) (s : State) (sp : LocalSpace) (addr n : Nat) : Option (Nat × Nat × LocalRight) :=
  let bs := bsize is.l
  match is.team s with
  | none => none
  | some t =>
    match sp with
    | .scratch => if addr + n ≤ 256 * t.tscr then some (t.home, t.scr addr, .team) else none
    | .window =>
      let core := is.core / 4 * 4 + addr / 2 ^ 20 % 4
      let p := addr % 2 ^ 20
      if 2 ^ 22 ≤ addr then none
      else match (s.core is.core).kernel with
        | some k => if (s.teamAtPool k core p n).isSome then some (core, p, .team) else none
        | none => none
    | .pool =>
      if 2 ^ 20 ≤ addr then none
      else if t.home = is.core ∧ t.scr 0 ≤ addr ∧ addr + n ≤ t.scr 0 + 256 * t.tscr then some (is.core, addr, .team)
      else if is.rb + 0x100 ≤ addr ∧ addr + n ≤ is.rb + 0x100 + 128 * is.l.regs then some (is.core, addr, .own)
      else if is.rb ≤ addr ∧ addr + n ≤ is.rb + bs then some (is.core, addr, .readable)
      else if (s.core is.core).groups.any (fun e => e.2.team == is.g.team && decide (e.1 * bs ≤ addr) && decide (addr + n ≤ e.1 * bs + bs))
      then some (is.core, addr, .readable)
      else none

/-- The outcome of the checks of a local access: ALIGN, then bounds and rights with bits 7:5 = 4 (R202). -/
def localFault (is : Issue) (s : State) (sp : LocalSpace) (write : Bool) (els : List (Nat × Nat)) (n : Nat) : Option Verdict :=
  match badLane els (fun a => a % n != 0) with
  | some l => some (.trap causeALIGN l)
  | none =>
    (badLane els (fun a => match is.place s sp a n with
      | some (_, _, .team) => false
      | some (_, _, .own) => false
      | some (_, _, .readable) => write
      | none => true)).map (fun l => .trap causePROT (l + 128))

/-- Whether a registered copy range or a register write still on its way covers the bytes (R205, R130). -/
def localBusy (is : Issue) (s : State) (pl : Nat × Nat × LocalRight) (n : Nat) : Bool :=
  match pl.2.2 with
  | .team => s.boardHits pl.1 pl.2.1 n
  | .own => is.g.pend.any (fun p => p.writes.any (fun w => decide (w.1 < pl.2.1 + n ∧ pl.2.1 < w.1 + w.2.length)))
  | .readable => is.g.pend.any (fun p => p.writes.any (fun w => decide (w.1 < pl.2.1 + n ∧ pl.2.1 < w.1 + w.2.length)))

/-- STWs of the open Chunk laid over bytes of a scratchpad (R92, R204). -/
def throughStw (acts : List AtCommit) (core p : Nat) (old : List Byte) : List Byte :=
  acts.foldl (fun b a =>
    match a with
    | .stw c at_ bytes => if c = core then overlay p b at_ bytes else b
    | _ => b) old

/-- The form of a local access. -/
def descLocal (l : Nat) (x : Bool) (d a : Nat) (z : Size) : Desc :=
  { lim := .offset, vd := opData d z, va := if x then opS (a % 32) false else opV a false, look := some l }

/-- LDS, LDW and LDP. Only LDW finds the STWs of its own open Chunk (log 29). -/
def localLoad (sp : LocalSpace) (l : Nat) (x : Bool) (d a : Nat) (z : Size) (s : State) : Out :=
  issueWord (descLocal l x d a z) (fun is s =>
    let n := sizeBytes z
    let els := is.active.map (fun ln => (ln, is.localAddr s x a ln))
    match localFault is s sp false els n with
    | some v => v
    | none =>
      let pls := els.map (fun e => (is.place s sp e.2 n).getD (0, 0, .team))
      if pls.any (fun p => localBusy is s p n) then .hold s
      else
        let value (lane : Nat) : Nat :=
          let p := (is.place s sp (is.localAddr s x a lane) n).getD (0, 0, .team)
          let old := (s.core p.1).pool.bytes p.2.1 n
          ofBytes (if sp = .window then throughStw is.g.chunk.acts p.1 p.2.1 old else old)
        .go (pendingLoad is s l d (sizeRegs z) value false [])) s

/-- STS and STP: immediate and logged (R82, R203); where lanes name one byte, the highest lane's stands (log 97). -/
def localStore (sp : LocalSpace) (l : Nat) (x : Bool) (d a : Nat) (z : Size) (s : State) : Out :=
  issueWord (descLocal l x d a z) (fun is s =>
    let n := sizeBytes z
    let els := is.active.map (fun ln => (ln, is.localAddr s x a ln))
    match localFault is s sp true els n with
    | some v => v
    | none =>
      let pls := els.map (fun e => (is.place s sp e.2 n).getD (0, 0, .team))
      if pls.any (fun p => localBusy is s p n) then .hold s
      else .go { pool := els.map (fun e =>
        let p := (is.place s sp e.2 n).getD (0, 0, .team)
        (p.1, p.2.1, is.data s d n e.1)) }) s

/-- LDS (R202, R203). -/
def execLds (l : Nat) (x : Bool) (d a : Nat) (z : Size) (s : State) : Out := localLoad .scratch l x d a z s

/-- STS (R202, R203). -/
def execSts (l : Nat) (x : Bool) (d a : Nat) (z : Size) (s : State) : Out := localStore .scratch l x d a z s

/-- LDW (R204). -/
def execLdw (l : Nat) (x : Bool) (d a : Nat) (z : Size) (s : State) : Out := localLoad .window l x d a z s

/-- LDP (R79, R202). -/
def execLdp (l : Nat) (x : Bool) (d a : Nat) (z : Size) (s : State) : Out := localLoad .pool l x d a z s

/-- STP (R79, R202). -/
def execStp (l : Nat) (x : Bool) (d a : Nat) (z : Size) (s : State) : Out := localStore .pool l x d a z s

/-- STW (R204): held until commit, then landed; the landing waits for registered ranges (R205). Where lanes name one byte, the highest
lane's stands (log 97). -/
def execStw (l : Nat) (x : Bool) (d a : Nat) (z : Size) (s : State) : Out :=
  issueWord (descLocal l x d a z) (fun is s =>
    let n := sizeBytes z
    let els := is.active.map (fun ln => (ln, is.localAddr s x a ln))
    match localFault is s .window true els n with
    | some v => v
    | none => .go { acts := els.map (fun e =>
        let p := (is.place s .window e.2 n).getD (0, 0, .team)
        AtCommit.stw p.1 p.2.1 (is.data s d n e.1)) }) s

/-! ## Cache control (R213) -/

/-- The form of PREF, EVICT and CKIN. -/
def descCache (l : Nat) (x : Bool) (a : Nat) : Desc := { vec := false, lim := .offset, va := opAddr x a, look := some l }

/-- PREF (R213): timing only, no fault. -/
def execPref (l : Nat) (x : Bool) (a : Nat) (_m : Level) (s : State) : Out := issueWord (descCache l x a) (fun _ _ => .go {}) s

/-- EVICT and CKIN (R213): faults as a load without ALIGN, check 5 among them (R195); the effect at commit. -/
def cacheWord (l : Nat) (x : Bool) (a : Nat) (act : Nat → AtCommit) (s : State) : Out :=
  issueWord (descCache l x a) (fun is s =>
    let els := is.elements s x a is.lanes
    match globalFault is s els 1 .load isHost with
    | some v => v
    | none =>
      let lines := unionNat [] ((els.map (fun e => is.pa s e.2)).map lineNo)
      .go { acts := lines.map act, pages := usedPages is s els }) s

/-- EVICT (R213, R105): at level L1 the cluster's copy is dropped; at the others the line checks in from every cluster that holds it checked
out, and the clusters keep their copies (log 80). -/
def execEvict (l : Nat) (x : Bool) (a : Nat) (m : Level) (s : State) : Out :=
  cacheWord l x a (fun ln => if m == .l1 then .evict ln else .evictHome ln) s

/-- CKIN (R213). -/
def execCkin (l : Nat) (x : Bool) (a : Nat) (s : State) : Out := cacheWord l x a .ckin s

end Sys2Proof.Machine
end

