-- ==== Sys2Proof/Machine/Atomics.lean ====
section
/-! DEFINITION. Major 0x3B: ATOM and RED (R206 to R210). -/

namespace Sys2Proof.Machine

/-- Operand width in bits. -/
def atomBits (w : Bool) : Nat := if w then 64 else 32

/-- Whether a line is predicted to be contended (R209). -/
def predictsFar (p : Tab Nat) (pa : Nat) : Bool :=
  let ln := pa / 64
  decide (2 ≤ p.getD ((ln % 64) ^^^ (ln / 64 % 64)) 0)

/-- The placement of this issue: .auto goes far on host memory and on contended lines (R209, R210). -/
def Issue.placement (is : Issue) (s : State) (p : Place) (pas : List Nat) : Place :=
  match p with
  | .auto => if pas.any isHost || pas.any (predictsFar (s.core is.core).pred) then .far else .near
  | .near => .near
  | .far => .far
  | .cl => .cl

/-- A lane's operand and, for cas, its compare value and new value (R134, R206). -/
def Issue.atomOpnd (is : Issue) (s : State) (w : Bool) (o : AtomOp) (d lane : Nat) : Nat × Nat :=
  match o with
  | .cas => if w then (is.vPair s (d + 2) lane, is.vPair s d lane) else (is.vRd s (d + 1) lane, is.vRd s d lane)
  | _ => (is.vVal s w d lane, 0)

/-- The form of an atomic: vd covers the compare and new values of cas; one that is its own Chunk closes windows (R131). -/
def descAtom (l d a : Nat) (w : Bool) (o : AtomOp) (alone : Bool := false) : Desc :=
  let n := if w then 2 else 1
  { lim := .offset, vd := [{ file := .v, num := d, count := if o == .cas then 2 * n else n }], va := opV a true, look := some l, closes := alone }

/-- Near elements one after another (R207): the buffered results and each lane's old value. The Chunk's own far REDs are not seen (log 98). -/
def nearElements (s : State) (buf : List BufItem) (o : AtomOp) (n : Nat) :
    List (Nat × Nat × Nat × Nat) → List BufItem → List (Nat × Nat) → List BufItem × List (Nat × Nat)
  | [], items, olds => (items, olds)
  | (lane, pa, x, cmp) :: r, items, olds =>
    let old := ofBytes (throughBuffer (buf ++ items) pa (s.readPhys pa (n / 8)))
    let item := BufItem.store false true pa (toBytes (n / 8) (atomNew o n old x cmp))
    nearElements s buf o n r (items ++ [item]) (olds ++ [(lane, old)])

/-- Lines that another cluster holds checked out (R209). -/
def State.heldElsewhere (s : State) (cl ln : Nat) : Bool :=
  s.clusters.any (fun e => e.1 != cl && (match e.2.get? ln with | some x => x.twin.isSome | none => false))

/-- The predictor learns of lines found checked out elsewhere (R209). -/
def learnHeld (core : Nat) (pas : List Nat) (s : State) : State :=
  let lines := (unionNat [] (pas.map lineNo)).filter (s.heldElsewhere (clusterOf core))
  let k := s.core core
  s.setCore core { k with pred := bumpPredictor k.pred lines }

/-- Zeros of the zero policy in inactive lanes (R147). -/
def zeroWrites (is : Issue) (d n : Nat) : List (Nat × Nat × List Byte) :=
  if is.x.zero then
    (lanes32.filter (fun l => !is.active.contains l)).foldl (fun acc l =>
      acc ++ (upFrom 0 n).map (fun i => (is.core, vAddr is.rb (d + i) l, toBytes 4 0))) []
  else []

/-- Old contents of the result registers, so that the Chunk's undo rows hold them (R82). -/
def resultUndo (is : Issue) (s : State) (d n : Nat) : List (Nat × Nat × List Byte) :=
  is.active.foldl (fun acc l => acc ++ (upFrom 0 n).map (fun i =>
    (is.core, vAddr is.rb (d + i) l, (s.core is.core).pool.bytes (vAddr is.rb (d + i) l) 4))) []

/-- The pool address of a lane's result; a 64-bit result has its words 128 bytes apart. -/
def retAddr (is : Issue) (d lane : Nat) : Nat := vAddr is.rb d lane

/-- ATOM (ret) and RED at the placement of this issue (R207, R208). -/
def atomBody (ret : Bool) (l d a : Nat) (p : Place) (w : Bool) (o : AtomOp) (is : Issue) (s : State) : Verdict :=
  let n := atomBits w
  let els := is.elements s false a is.active
  match globalFault is s els (n / 8) .atomic (fun pa => isHost pa && (p == .near || p == .cl)) with
  | some v => v
  | none =>
    let pas := els.map (fun e => is.pa s e.2)
    let place := is.placement s p pas
    let nreg := if w then 2 else 1
    let ops := els.map (fun e => let x := is.atomOpnd s w o d e.1; (e.1, is.pa s e.2, x.1, x.2))
    let pages := usedPages is s els
    match place with
    | .cl =>
      if ret && decide (is.g.seq.n < is.g.chunk.words) then .before .run
      else match clusterWriteWait is s pas with
        | some v => v
        | none =>
          let served (t : State) : State := t.unparkReq is.req
          if ret then
            .go { pool := resultUndo is s d nreg ++ zeroWrites is d nreg, clw := sectorSet pas (n / 8), pages := pages, post := served,
                  ends := some .run,
                  buf := ops.map (fun e => .clAtom e.2.1 o n e.2.2.1 e.2.2.2 (retAddr is d e.1)) }
          else
            .go { clw := sectorSet pas (n / 8), pages := pages, post := served,
                  buf := ops.map (fun e => .clRed e.2.1 o n e.2.2.1) }
    | .far =>
      if ret && decide (is.g.seq.n < is.g.chunk.words) then .before .run
      else match (ownCheckedOut is s pas) with
        | some ln => .hold (s.checkIn (clusterOf is.core) ln)
        | none =>
          if ret then
            match parking is s pas with
            | some v => v
            | none =>
              .go { pool := resultUndo is s d nreg ++ zeroWrites is d nreg, reads := sectorSet pas (n / 8),
                    writes := sectorSet pas (n / 8), pages := pages, ends := some .run, post := fun t => t.unparkReq is.req,
                    buf := ops.map (fun e => .farAtom is.first e.2.1 o n e.2.2.1 e.2.2.2 (retAddr is d e.1)) }
          else
            .go { writes := sectorSet pas (n / 8), pages := pages, buf := ops.map (fun e => .farRed is.first e.2.1 o n e.2.2.1) }
    | _ =>
      match lineWait is s pas with
      | some v => v
      | none =>
        let (items, olds) := nearElements s is.g.chunk.buf o n ops [] []
        let old (lane : Nat) : Nat := ((olds.find? (fun e => e.1 == lane)).map (fun e => e.2)).getD 0
        let uce := pas.any (fun pa => s.poisonedPast is.g.chunk.buf pa (n / 8))
        let e := if ret then pendingLoad is s l d nreg old uce pas else {}
        .go { e with
          buf := items, reads := sectorSet pas (n / 8), writes := sectorSet pas (n / 8), pages := pages,
          near := unionNat [] (pas.map lineNo),
          post := fun t => learnHeld is.core pas (if ret then ((t.unparkReq is.req).request is.core is.slot pas).due [.loadReturn is.core is.slot]
            else if uce then (t.unparkReq is.req).consumeUCE is.core is.slot is.first else t.unparkReq is.req) }

/-- Whether the ATOM that issues is its own Chunk: placed far or at cluster scope, .auto at this issue's placement (R86, R209). -/
def atomAlone (a : Nat) (p : Place) (s : State) : Bool :=
  match p with
  | .near => false
  | .far => true
  | .cl => true
  | .auto => match s.cur with
    | some (c, slot, pc, lanes) => match s.group? c slot with
      | some g =>
        let is := mkIssue s c slot pc lanes g
        is.placement s .auto ((is.elements s false a is.active).map (fun e => is.pa s e.2)) == .far
      | none => false
    | none => false

/-- ATOM (R206 to R208). -/
def execAtom (l d a : Nat) (p : Place) (w : Bool) (o : AtomOp) (s : State) : Out :=
  issueWord (descAtom l d a w o (atomAlone a p s)) (atomBody true l d a p w o) s

/-- RED (R206 to R208). -/
def execRed (l d a : Nat) (p : Place) (w : Bool) (o : AtomOp) (s : State) : Out :=
  issueWord (descAtom l d a w o) (atomBody false l d a p w o) s

end Sys2Proof.Machine
end

