-- ==== Sys2Proof/Machine/Special.lean ====
section
/-! DEFINITION. The special functions FEXP2, FLOG2, FSIN, FCOS and FTANH of R167, correctly rounded under rne. Each is computed
in fixed point with 1,280 fraction bits and rounded once. DEDUCED (log entry 6): the value is irrational wherever the result
is not exact, and 1,280 bits leave room below every rounding boundary of binary32. -/

namespace Sys2Proof.Machine

/-- Fraction bits of the fixed-point values of this file. -/
def fixBits : Nat := 1280
def fixOne : Nat := 2 ^ fixBits

/-- Sum of z^(2k+1)/(2k+1) for n terms: atanh when alternating is off, atan when it is on; pw holds z^(2k+1). -/
def oddSeries : Nat → Nat → Bool → Nat → Int → Int → Int
  | 0, _, _, _, _, acc => acc
  | n + 1, k, alternating, z2, pw, acc =>
    let t := pw / (2 * k + 1)
    let acc' := if alternating && k % 2 == 1 then acc - t else acc + t
    oddSeries n (k + 1) alternating z2 (pw * z2 / fixOne) acc'

def atanhFix (z : Nat) : Int := oddSeries 420 0 false (z * z / fixOne) z 0
def atanFix (z : Nat) : Int := oddSeries 420 0 true (z * z / fixOne) z 0

/-- ln 2 = 2 atanh(1/3). -/
def ln2Fix : Nat := (2 * atanhFix (fixOne / 3)).toNat

/-- pi / 2 = 8 atan(1/5) - 2 atan(1/239) (Machin). -/
def halfPiFix : Nat := (8 * oddSeries 600 0 true (fixOne / 25) (fixOne / 5) 0 - 2 * atanFix (fixOne / 239)).toNat

/-- Sum of y^j / j! from j on, n terms; t holds y^j / j!. -/
def expSeries : Nat → Nat → Nat → Nat → Nat → Nat
  | 0, _, _, _, acc => acc
  | n + 1, j, y, t, acc => expSeries n (j + 1) y (t * y / fixOne / (j + 1)) (acc + t)

/-- e^y for 0 ≤ y < 1. -/
def expFix (y : Nat) : Nat := expSeries 260 0 y fixOne 0

/-- Alternating sum of every second term y^j / j! from the term t = y^j / j!. -/
def trigSeries : Nat → Nat → Nat → Int → Int → Int
  | 0, _, _, _, acc => acc
  | n + 1, j, y2, t, acc => trigSeries n (j + 2) y2 (-(t * y2 / fixOne / ((j + 1) * (j + 2)))) (acc + t)

def sinFix (r : Nat) : Int := trigSeries 160 1 (r * r / fixOne) r 0
def cosFix (r : Nat) : Int := trigSeries 160 0 (r * r / fixOne) fixOne 0

/-- The magnitude m * 2^e as a fixed-point number (exact for every binary32 operand below 2^fixBits). -/
def toFix (m : Nat) (e : Int) : Nat := if 0 ≤ e + fixBits then m * 2 ^ (e + fixBits).toNat else m / 2 ^ (-(e + fixBits)).toNat

/-- Rounds an irrational fixed-point value. -/
def roundFix (f : FloatFmt) (v : Int) : FRes := if v = 0 then { bits := fzero f false } else roundMag f .rne (v < 0) v.natAbs (-fixBits) true

/-- FEXP2 (R167). -/
def fexp2Val (f : FloatFmt) (a : FVal) : FRes :=
  match a with
  | .nan s g => { bits := fnan f s, conds := { invalid := g } }
  | .inf s => if s then { bits := fzero f false } else { bits := finf f false }
  | .fin s m e =>
    if 0 ≤ e then
      let i : Int := m * 2 ^ e.toNat
      roundMag f .rne false 1 (if s then -i else i) false
    else
      let x : Int := toFix m e
      let v := if s then -x else x
      let i := v / fixOne
      let fr := (v % fixOne).toNat
      if fr = 0 then roundMag f .rne false 1 i false
      else roundMag f .rne false (expFix (fr * ln2Fix / fixOne)) (i - fixBits) true

/-- FLOG2 (R167). -/
def flog2Val (f : FloatFmt) (a : FVal) : FRes :=
  match a with
  | .nan s g => { bits := fnan f s, conds := { invalid := g } }
  | .inf s => if s then nanMade f else { bits := finf f false }
  | .fin s m e =>
    if m = 0 then { bits := finf f true, conds := { divZero := true } }
    else if s then nanMade f
    else
      let l := m.log2
      let i : Int := e + l
      if m = 2 ^ l then roundExact f .rne i 0 false
      else
        let z := (m - 2 ^ l) * fixOne / (m + 2 ^ l)
        roundFix f (i * fixOne + 2 * atanhFix z * fixOne / ln2Fix)

/-- The sine of a finite magnitude, shifted by a quarter turn for the cosine. -/
def trigVal (quarter : Nat) (m : Nat) (e : Int) : Int :=
  let x := toFix m e
  let k := x / halfPiFix + quarter
  let r := x % halfPiFix
  match k % 4 with
  | 0 => sinFix r
  | 1 => cosFix r
  | 2 => -sinFix r
  | _ => -cosFix r

/-- FSIN (R167), the operand in radians. -/
def fsinVal (f : FloatFmt) (a : FVal) : FRes :=
  match a with
  | .nan s g => { bits := fnan f s, conds := { invalid := g } }
  | .inf _ => nanMade f
  | .fin s m e =>
    if m = 0 then { bits := fzero f s }
    else
      let v := trigVal 0 m e
      roundFix f (if s then -v else v)

/-- FCOS (R167). -/
def fcosVal (f : FloatFmt) (a : FVal) : FRes :=
  match a with
  | .nan s g => { bits := fnan f s, conds := { invalid := g } }
  | .inf _ => nanMade f
  | .fin _ m e =>
    if m = 0 then roundExact f .rne 1 0 false
    else roundFix f (trigVal 1 m e)

/-- FTANH (R167). From 16 on the value lies above the largest binary32 number below 1, nearer to 1. -/
def ftanhVal (f : FloatFmt) (a : FVal) : FRes :=
  match a with
  | .nan s g => { bits := fnan f s, conds := { invalid := g } }
  | .inf s => roundExact f .rne (if s then -1 else 1) 0 false
  | .fin s m e =>
    if m = 0 then { bits := fzero f s }
    else if 4 ≤ e + m.log2 then roundMag f .rne s (2 ^ 64 - 1) (-64) true
    else
      let y := 2 * toFix m e
      let n := y / ln2Fix
      let u := expFix (y % ln2Fix) * 2 ^ n
      let v : Int := ((u - fixOne) * fixOne / (u + fixOne) : Nat)
      roundFix f (if s then -v else v)

end Sys2Proof.Machine
end

