-- ==== Sys2Proof/Machine/Flags.lean ====
section
/-! DEFINITION. Float conditions and FPE (R45, R47, R180, R181), rounding modes of an issue (R44), format slots (R55, R56). There are no
sticky float flags; iovf is kept in chunkstat (R59, R72). -/

namespace Sys2Proof.Machine

/-- The rounding mode of a word: XPFX rm, rne without one (R44, R123). -/
def Issue.rm (is : Issue) : Rm := (rmOfCode is.x.rm).getD .rne

/-- The trapval of FPE when a lane met an enabled condition (R45); each pair is a lane and the conditions it met. -/
def fpeVal (fpen : Nat) (cs : List (Nat × Nat)) : Option Nat :=
  match cs.find? (fun c => (c.2 &&& fpen) != 0) with
  | some c => some (c.1 * 256 + cs.foldl (fun m x => m ||| x.2) 0)
  | none => none

/-- A per-lane float result: FPE first, else the results are written (R45). -/
def floatVerdict (is : Issue) (f : Nat → FRes) (e : (Nat → Nat) → Eff) : Verdict :=
  match fpeVal is.l.fpen (is.active.map (fun l => (l, condsBits (f l).conds))) with
  | some v => .trap causeFPE v
  | none => .go (e (fun l => (f l).bits))

/-- Two packed elements, each an operation of its own (R47). -/
def packed (f : Nat → FRes) : FRes :=
  let lo := f 0
  let hi := f 1
  { bits := lo.bits + hi.bits * 65536, conds := condsOr lo.conds hi.conds }

/-- Element i of a packed register (R47). -/
def half (x i : Nat) : Nat := x / 65536 ^ i % 65536

/-! ## Format slots (R55) -/

structure Slot where
  scbase : Nat
  scrow : Nat
  plstride : Nat
  res : Nat
  sgn : Bool
  midpt : Bool
  scmode : Bool
  blk : Nat
  planes : Nat
  kind : Nat
deriving DecidableEq, Repr

/-- The fields of a slot (R55). -/
def slotOf (x : Nat) : Slot :=
  { scbase := field x 63 44, scrow := field x 43 34, plstride := field x 33 14, res := field x 13 12, sgn := bitAt x 11,
    midpt := bitAt x 10, scmode := bitAt x 9, blk := field x 8 7, planes := field x 6 3, kind := field x 2 0 }

/-- Whether R56 refuses a slot for an instruction that accepts some kinds. -/
def slotBad (sl : Slot) (kinds : List Nat) : Bool :=
  decide (5 ≤ sl.kind) || (sl.kind == 0 && (decide (sl.planes < 2) || decide (8 < sl.planes)))
    || (sl.scmode && (decide (2 ≤ sl.kind) || sl.blk == 3 || sl.scrow == 0)) || sl.res != 0 || !(kinds.contains sl.kind)

/-- The slot that an index names in the launch record. -/
def Launch.slot (l : Launch) (i : Nat) : Slot := slotOf (l.slots.getD i 0)

/-- trapval of a refused slot (R56). -/
def slotVal (i : Nat) : Nat := 0x100 + i

/-- Blocks of 16, 32 or 64 elements (R55). -/
def blkSize (sl : Slot) : Nat := 16 * 2 ^ sl.blk

end Sys2Proof.Machine
end

