-- ==== Sys2Proof/Machine/FloatAlu.lean ====
section
/-! DEFINITION. Majors 0x10 to 0x14: float arithmetic, FSET, special functions, packed halves (R163 to R168). -/

namespace Sys2Proof.Machine

/-- A binary32 instruction of two sources, f of mode, sat, a, b and the fourth operand. -/
def floatTwo (t : Bool) (d a b : Nat) (f4 : Bool) (f : Rm → Bool → Nat → Nat → Nat → FRes) (s : State) : Out :=
  issueWord { descTwo false t d a b with rm := true, sat := true, f4v := f4 } (fun is s =>
    floatVerdict is (fun l =>
        f is.rm is.x.sat (is.srcA s false false t a l) (is.srcB s false b l) (if f4 then is.src4 s false d l else 0))
      (is.vResult false d)) s

/-- A binary32 function of one source. -/
def floatOne (t : Bool) (d a : Nat) (f : Rm → Bool → Nat → FRes) (s : State) : Out :=
  issueWord { descOne false t d a false with rm := true, sat := true } (fun is s =>
    floatVerdict is (fun l => f is.rm is.x.sat (is.srcA s true false t a l)) (is.vResult false d)) s

/-- A value of the format. -/
def f32v (x : Nat) : FVal := fdecode fmtF32 x

/-- Sums, products and fused forms in a format, with sat (R44, R46, R163). -/
def addIn (f : FloatFmt) (rm : Rm) (sat : Bool) (x y : Nat) : FRes :=
  satResult f sat [fdecode f x, fdecode f y] (faddVal f rm (fdecode f x) (fdecode f y))
def subIn (f : FloatFmt) (rm : Rm) (sat : Bool) (x y : Nat) : FRes :=
  satResult f sat [fdecode f x, fdecode f y] (fsubVal f rm (fdecode f x) (fdecode f y))
def mulIn (f : FloatFmt) (rm : Rm) (sat : Bool) (x y : Nat) : FRes :=
  satResult f sat [fdecode f x, fdecode f y] (fmulVal f rm (fdecode f x) (fdecode f y))
def fmaIn (f : FloatFmt) (rm : Rm) (sat : Bool) (x y z : Nat) : FRes :=
  satResult f sat [fdecode f x, fdecode f y, fdecode f z] (ffmaVal f rm (fdecode f x) (fdecode f y) (fdecode f z))

/-- FADD (R163). -/
def execFadd (t : Bool) (d a b : Nat) (s : State) : Out :=
  floatTwo t d a b false (fun rm sat x y _ => addIn fmtF32 rm sat x y) s

/-- FSUB (R163). -/
def execFsub (t : Bool) (d a b : Nat) (s : State) : Out :=
  floatTwo t d a b false (fun rm sat x y _ => subIn fmtF32 rm sat x y) s

/-- FMUL (R163). -/
def execFmul (t : Bool) (d a b : Nat) (s : State) : Out :=
  floatTwo t d a b false (fun rm sat x y _ => mulIn fmtF32 rm sat x y) s

/-- FFMA (R163, R124). -/
def execFfma (t : Bool) (d a b : Nat) (s : State) : Out :=
  floatTwo t d a b true (fun rm sat x y z => fmaIn fmtF32 rm sat x y z) s

/-- FMIN (R164). -/
def execFmin (t : Bool) (d a b : Nat) (s : State) : Out :=
  floatTwo t d a b false (fun _ _ x y _ => fminmax fmtF32 false x y) s

/-- FMAX (R164). -/
def execFmax (t : Bool) (d a b : Nat) (s : State) : Out :=
  floatTwo t d a b false (fun _ _ x y _ => fminmax fmtF32 true x y) s

/-- FCLASS (R165). -/
def execFclass (t : Bool) (d a : Nat) (s : State) : Out :=
  floatOne t d a (fun _ _ x => { bits := fclassBits fmtF32 x }) s

/-- FSET (R166). -/
def execFset (c : FCond) (t : Bool) (d a b : Nat) (s : State) : Out :=
  issueWord { descTwo false t d a b with rm := true, vd := opM d, mdst := some d } (fun is s =>
    floatVerdict is (fun l =>
        let r := fcondHolds c (f32v (is.srcA s false false t a l)) (f32v (is.srcB s false b l))
        { bits := r.1.toNat, conds := r.2 })
      (fun f => is.mResult s d (fun l => f l == 1))) s

/-- FRCP (R167). -/
def execFrcp (t : Bool) (d a : Nat) (s : State) : Out :=
  floatOne t d a (fun rm sat x => satResult fmtF32 sat [f32v x] (frcpVal fmtF32 rm (f32v x))) s

/-- FRSQ (R167). -/
def execFrsq (t : Bool) (d a : Nat) (s : State) : Out :=
  floatOne t d a (fun _ sat x => satResult fmtF32 sat [f32v x] (frsqVal fmtF32 (f32v x))) s

/-- FSQRT (R167). -/
def execFsqrt (t : Bool) (d a : Nat) (s : State) : Out :=
  floatOne t d a (fun rm sat x => satResult fmtF32 sat [f32v x] (fsqrtVal fmtF32 rm (f32v x))) s

/-- FEXP2 (R167). -/
def execFexp2 (t : Bool) (d a : Nat) (s : State) : Out :=
  floatOne t d a (fun _ sat x => satResult fmtF32 sat [f32v x] (fexp2Val fmtF32 (f32v x))) s

/-- FLOG2 (R167). -/
def execFlog2 (t : Bool) (d a : Nat) (s : State) : Out :=
  floatOne t d a (fun _ sat x => satResult fmtF32 sat [f32v x] (flog2Val fmtF32 (f32v x))) s

/-- FSIN (R167). -/
def execFsin (t : Bool) (d a : Nat) (s : State) : Out :=
  floatOne t d a (fun _ sat x => satResult fmtF32 sat [f32v x] (fsinVal fmtF32 (f32v x))) s

/-- FCOS (R167). -/
def execFcos (t : Bool) (d a : Nat) (s : State) : Out :=
  floatOne t d a (fun _ sat x => satResult fmtF32 sat [f32v x] (fcosVal fmtF32 (f32v x))) s

/-- FTANH (R167). -/
def execFtanh (t : Bool) (d a : Nat) (s : State) : Out :=
  floatOne t d a (fun _ sat x => satResult fmtF32 sat [f32v x] (ftanhVal fmtF32 (f32v x))) s

/-- A packed instruction (R168): f on each of the two elements. -/
def packedTwo (t : Bool) (d a b : Nat) (f4 imm : Bool) (f : Rm → Bool → Nat → Nat → Nat → FRes) (s : State) : Out :=
  issueWord { descTwo false t d a b with rm := true, sat := true, f4v := f4, lim := if imm then .b else .none } (fun is s =>
    floatVerdict is (fun l =>
        let x := is.srcA s false false t a l
        let y := is.srcB s false b l
        let z := if f4 then is.src4 s false d l else 0
        packed (fun i => f is.rm is.x.sat (half x i) (half y i) (half z i)))
      (is.vResult false d)) s

/-- HADD2.f16 (R168). -/
def execHadd2F16 (t : Bool) (d a b : Nat) (s : State) : Out :=
  packedTwo t d a b false true (fun rm sat x y _ => addIn fmtF16 rm sat x y) s

/-- HMUL2.f16 (R168). -/
def execHmul2F16 (t : Bool) (d a b : Nat) (s : State) : Out :=
  packedTwo t d a b false true (fun rm sat x y _ => mulIn fmtF16 rm sat x y) s

/-- HFMA2.f16 (R168, R124). -/
def execHfma2F16 (t : Bool) (d a b : Nat) (s : State) : Out :=
  packedTwo t d a b true true (fun rm sat x y z => fmaIn fmtF16 rm sat x y z) s

/-- HMAX2.f16 (R168, R164). -/
def execHmax2F16 (t : Bool) (d a b : Nat) (s : State) : Out :=
  packedTwo t d a b false false (fun _ _ x y _ => fminmax fmtF16 true x y) s

/-- HADD2.bf16 (R168). -/
def execHadd2Bf16 (t : Bool) (d a b : Nat) (s : State) : Out :=
  packedTwo t d a b false true (fun rm sat x y _ => addIn fmtBf16 rm sat x y) s

/-- HMUL2.bf16 (R168). -/
def execHmul2Bf16 (t : Bool) (d a b : Nat) (s : State) : Out :=
  packedTwo t d a b false true (fun rm sat x y _ => mulIn fmtBf16 rm sat x y) s

/-- HFMA2.bf16 (R168, R124). -/
def execHfma2Bf16 (t : Bool) (d a b : Nat) (s : State) : Out :=
  packedTwo t d a b true true (fun rm sat x y z => fmaIn fmtBf16 rm sat x y z) s

/-- HMAX2.bf16 (R168, R164). -/
def execHmax2Bf16 (t : Bool) (d a b : Nat) (s : State) : Out :=
  packedTwo t d a b false false (fun _ _ x y _ => fminmax fmtBf16 true x y) s

end Sys2Proof.Machine
end

