-- ==== Sys2Proof/Machine/Convert.lean ====
section
/-! DEFINITION. Majors 0x20 to 0x24: conversions, planes, scale codes (R169 to R175). -/

namespace Sys2Proof.Machine

/-- Source and destination formats of FCVT fn 0 to 5 (R132). -/
def fcvtSrc (c : FcvtKind) : FloatFmt :=
  match c with
  | .f16F32 => fmtF32 | .bf16F32 => fmtF32 | .f32F16 => fmtF16 | .f32Bf16 => fmtBf16 | .bf16F16 => fmtF16 | .f16Bf16 => fmtBf16

def fcvtDst (c : FcvtKind) : FloatFmt :=
  match c with
  | .f16F32 => fmtF16 | .bf16F32 => fmtBf16 | .f32F16 => fmtF32 | .f32Bf16 => fmtF32 | .bf16F16 => fmtBf16 | .f16Bf16 => fmtF16

/-- FCVT fn 0 to 5 (R169): a 16-bit source in bits 15:0. -/
def execFcvt (c : FcvtKind) (t : Bool) (d a : Nat) (s : State) : Out :=
  issueWord { descOne false t d a true with rm := true, sat := true } (fun is s =>
    floatVerdict is (fun l =>
        let f := fcvtSrc c
        let x := fdecode f (is.srcA s true false t a l % 2 ^ (1 + f.expBits + f.fracBits))
        satResult (fcvtDst c) is.x.sat [x] (fcvtVal (fcvtDst c) is.rm x))
      (is.vResult false d)) s

/-- FCVT fn 6 and 7 on one element (R171). -/
def npElement (sl : Slot) (f : FloatFmt) (rm : Rm) (sat : Bool) (va : Nat) : FRes :=
  let i : Int := if sl.sgn then signedOf 8 va else (va % 256 : Nat)
  let e := if sl.scmode then va / 256 % 256 else 127
  if e = 255 then { bits := fnan f false }
  else satResult f sat [] (roundExact f rm i ((e : Int) - 127) false)

/-- FCVT fn 6 (to f32) and 7 (to bf16) (R171). -/
def execFcvtNp (c : Bool) (d a slot : Nat) (s : State) : Out :=
  issueWord { descOne false false d a false with rm := true, sat := true } (fun is s =>
    let sl := is.l.slot slot
    if slotBad sl [0, 1] then .trap causeILL (slotVal slot)
    else floatVerdict is (fun l => npElement sl (if c then fmtBf16 else fmtF32) is.rm is.x.sat (is.vRd s a l))
      (is.vResult false d)) s

/-- Width of an integer type's register operand. -/
def tyWide (y : IntTy) : Bool := intTyWidth y == 64

/-- An integer of a type extended to its register width (R170). -/
def extendTo (y : IntTy) (x : Nat) : Nat :=
  if tyWide y then x else if intTySigned y then wrapTo 32 (signedOf (intTyWidth y) x) else x % 2 ^ intTyWidth y

/-- F2I (R170). -/
def execF2i (y : IntTy) (t : Bool) (d a : Nat) (s : State) : Out :=
  issueWord { descOne false t d a true with rm := true, sat := true, vd := opV d (tyWide y) } (fun is s =>
    floatVerdict is (fun l =>
        let r := f2iVal is.rm y (f32v (is.srcA s true false t a l))
        { bits := extendTo y r.1, conds := r.2 })
      (is.vResult (tyWide y) d)) s

/-- The value of an integer source (R170). -/
def intValue (y : IntTy) (x : Nat) : Int :=
  if intTySigned y then signedOf (intTyWidth y) x else ((x % 2 ^ intTyWidth y : Nat) : Int)

/-- I2F (R170). -/
def execI2f (y : IntTy) (t : Bool) (d a : Nat) (s : State) : Out :=
  issueWord { descOne false t d a true with rm := true, sat := true, va := opA t (tyWide y) a } (fun is s =>
    floatVerdict is (fun l => i2fVal fmtF32 is.rm (intValue y (is.srcA s true (tyWide y) t a l))) (is.vResult false d)) s

/-- Registers n of v from a, without alignment. -/
def opRange (n count : Nat) : List Opnd := [{ file := .v, num := n, count := count, align := 1 }]

/-- The planes of a slot that R56 accepts, else 1 so that register checks have a range. -/
def planesOf (sl : Slot) : Nat := if slotBad sl [0] then 1 else sl.planes

/-- Element e of eight registers (R172, R173): byte e mod 4 of register e div 4. -/
def byteOf (rd : Nat → Nat) (e : Nat) : Nat := rd (e / 4) / 256 ^ (e % 4) % 256

/-- A word of 32 bits from a function of its positions. -/
def wordOfBits (f : Nat → Bool) : Nat := lanes32.foldl (fun m e => if f e then m + 2 ^ e else m) 0

/-- The issue of a plane word: its slot index gives the register ranges. -/
def planeWord (slot : Nat) (desc : Slot → Desc) (body : Slot → Issue → State → Eff) (s : State) : Out :=
  let sl := match s.cur with
    | some (c, _, _, _) => (s.launchAt c).slot slot
    | none => slotOf 0
  issueWord (desc sl) (fun is s =>
    if slotBad sl [0] then .trap causeILL (slotVal slot) else .go (body sl is s)) s

/-- n registers per lane, register i of lane l. -/
def Issue.vRange (is : Issue) (d n : Nat) (f : Nat → Nat → Nat) : Eff :=
  { pool := (upFrom 0 n).foldl (fun acc i => acc ++ is.vWrites (d + i) 1 (f i)) [] }

/-- NPACK (R172). -/
def execNpack (d a slot : Nat) (s : State) : Out :=
  planeWord slot (fun sl => { rm := true, vd := opRange d (planesOf sl), va := opRange a 8, mirror := true })
    (fun sl is s => is.vRange d sl.planes (fun p l => wordOfBits (fun e => bitAt (byteOf (fun i => is.vRd s (a + i) l) e) (7 - p)))) s

/-- The reconstructed value of an element from its first k plane bits (R51). -/
def reconstruct (sgn midpt : Bool) (k : Nat) (bit : Nat → Bool) : Int :=
  let pw (p : Nat) : Int := if p = 0 ∧ sgn then -128 else 2 ^ (7 - p)
  let x := (upFrom 0 k).foldl (fun acc p => if bit p then acc + pw p else acc) (0 : Int)
  if midpt && decide (k < 8) then x + 2 ^ (7 - k) else x

/-- NUNPACK (R173). -/
def execNunpack (d a slot : Nat) (s : State) : Out :=
  planeWord slot (fun sl => { rm := true, vd := opRange d 8, va := opRange a (planesOf sl), mirror := true })
    (fun sl is s => is.vRange d 8 (fun i l =>
      ofBytes ((upFrom 0 4).map (fun j => BitVec.ofNat 8 (wrapTo 8
        (reconstruct sl.sgn sl.midpt sl.planes (fun p => bitAt (is.vRd s (a + p) l) (4 * i + j)))))))) s

/-- SCENC on one lane (R174). -/
def scenc (x : Nat) : Nat :=
  let e := x % 256
  let p := x / 256 % 256
  let near := decide (e ≤ p + 7) && decide (p ≤ e + 7) && decide (e ≤ 254) && decide (p ≤ 254)
  if !bitAt x 17 && (near || (e == 255 && p == 255)) then wrapTo 4 ((e : Int) - p) + 1 * 65536
  else if bitAt x 16 then 8 + e * 16 + 3 * 65536
  else 8 + e * 256 + 4 * 65536

/-- SCDEC on one lane (R175). -/
def scdec (x : Nat) : Nat :=
  let p := x / 65536 % 256
  if x % 16 = 8 then (if bitAt x 24 then x / 16 % 256 + 3 * 256 else x / 256 % 256 + 4 * 256)
  else (if p = 255 then 255 else wrapTo 8 (max 0 (min 254 ((p : Int) + signedOf 4 x)))) + 256

/-- SCENC and SCDEC need a slot of kind NPI or int8 with scmode 1 (R174). -/
def scaleWord (t : Bool) (d a slot : Nat) (f : Nat → Nat) (s : State) : Out :=
  issueWord { descOne false t d a false with rm := true } (fun is s =>
    let sl := is.l.slot slot
    if slotBad sl [0, 1] || !sl.scmode then .trap causeILL (slotVal slot)
    else .go (is.vResult false d (fun l => f (is.srcA s true false t a l)))) s

/-- SCENC (R174). -/
def execScenc (t : Bool) (d a slot : Nat) (s : State) : Out := scaleWord t d a slot scenc s

/-- SCDEC (R175). -/
def execScdec (t : Bool) (d a slot : Nat) (s : State) : Out := scaleWord t d a slot scdec s

end Sys2Proof.Machine
end

