-- ==== Sys2Proof/Machine/Matrix.lean ====
section
/-! DEFINITION. MMA, MZERO, MRD, MWR (R222 to R231) and the retirement of an MMA, with the sums of R58, R60 and R61. -/

namespace Sys2Proof.Machine

/-! ## The operand descriptor (R223) and the scratchpad bytes that it spans (R224) -/

structure MmaDesc where
  abase : Nat
  wbase : Nat
  m : Nat
  n : Nat
  kslices : Nat
  ars : Nat
  wcs : Nat
  res : Bool
deriving DecidableEq, Repr

/-- The fields of s(D) to s(D+3). -/
def mmaDesc (w : List Nat) : MmaDesc :=
  let d2 := w.getD 2 0
  let d3 := w.getD 3 0
  { abase := w.getD 0 0, wbase := w.getD 1 0, m := field d2 5 0 + 1, n := field d2 13 8 + 1, kslices := field d2 27 16,
    ars := field d3 15 0, wcs := field d3 31 16,
    res := field d2 31 28 != 0 || field d2 15 14 != 0 || field d2 7 6 != 0 }

/-- Size of an activation element (R224). -/
def actSize (q : Act) : Nat := match q with | .s8 => 1 | .n8 => 1 | .bf16 => 2 | .f16 => 2

/-- Activation rows: offset and length. -/
def actRanges (d : MmaDesc) (q : Act) : List (Nat × Nat) :=
  (upFrom 0 d.m).map (fun i => (d.abase + i * d.ars, actSize q * 16 * d.kslices))

/-- Weight ranges by slot kind: planes of NPI, columns of the others. -/
def weightRanges (d : MmaDesc) (sl : Slot) : List (Nat × Nat) :=
  if sl.kind = 0 then
    (upFrom 0 sl.planes).map (fun p => (d.wbase + p * sl.plstride * 256, (d.n + 15) / 16 * d.kslices * 32))
  else
    let es := if sl.kind = 1 then 1 else 2
    (upFrom 0 d.n).map (fun j => (d.wbase + j * d.wcs, es * 16 * d.kslices))

/-- Where scale row j starts (R52, R224). -/
def scaleRow (d : MmaDesc) (sl : Slot) (j : Nat) : Nat := d.wbase + 256 * sl.scbase + 16 * sl.scrow * j

/-- Scale rows, by the first 16*scrowstride bytes of each (R225). -/
def scaleRanges (d : MmaDesc) (sl : Slot) : List (Nat × Nat) :=
  if sl.scmode then (upFrom 0 d.n).map (fun j => (scaleRow d sl j, 16 * sl.scrow)) else []

/-- Whether ranges stay within a scratchpad of n bytes. -/
def rangesIn (n : Nat) (rs : List (Nat × Nat)) : Bool := rs.all (fun r => decide (r.1 + r.2 ≤ n))

/-- Whether an activation type and a slot pair (R57). -/
def pairOk (q : Act) (sl : Slot) : Bool :=
  match q with
  | .s8 => sl.kind == 0 || sl.kind == 1
  | .n8 => sl.kind == 0 || sl.kind == 1
  | .bf16 => sl.kind == 2
  | .f16 => sl.kind == 3

/-- Checks 5 to 7 of R225 as a PROT value. -/
def mmaProt (d : MmaDesc) (q : Act) (sl : Slot) (scr : Nat) : Option Nat :=
  if d.res || d.kslices = 0 || decide (256 < d.kslices) then some 0xA01
  else if !rangesIn scr (actRanges d q) then some 0xA02
  else if !rangesIn scr (weightRanges d sl ++ scaleRanges d sl) then some 0xA03
  else none

/-! ## The sums -/

/-- Integer activation A[i][q]. -/
def actInt (snap : Memory) (d : MmaDesc) (q : Act) (i k : Nat) : Int :=
  let x := snap.num (d.abase + i * d.ars + k) 1
  if q == .s8 then signedOf 8 x else (x : Int)

/-- Planes of a weight (R57: int8 is NPI with eight planes and no midpoint). -/
def wPlanes (sl : Slot) : Nat := if sl.kind = 0 then sl.planes else 8
def wMid (sl : Slot) : Bool := sl.kind == 0 && sl.midpt && decide (sl.planes < 8)

/-- Bit of plane p of W[k][j] (R50). -/
def wBit (snap : Memory) (d : MmaDesc) (sl : Slot) (p k j : Nat) : Bool :=
  if sl.kind = 0 then
    let e := 16 * (j % 16) + k % 16
    let row := d.wbase + p * sl.plstride * 256 + (j / 16 * d.kslices + k / 16) * 32
    bitAt (snap.num (row + e / 8) 1) (e % 8)
  else bitAt (snap.num (d.wbase + j * d.wcs + k) 1) (7 - p)

/-- The weight of plane p (R49). -/
def planeWeight (sgn : Bool) (p : Nat) : Int := if p = 0 ∧ sgn then -128 else 2 ^ (7 - p)

/-- The terms that one K-slice adds to an accumulator, in order (R58). -/
def sliceTerms (snap : Memory) (d : MmaDesc) (q : Act) (sl : Slot) (i j ks : Nat) : List Int :=
  let as := (upFrom 0 16).map (fun x => (actInt snap d q i (16 * ks + x), 16 * ks + x))
  let plane (p : Nat) : Int :=
    as.foldl (fun acc a => if wBit snap d sl p a.2 j then acc + a.1 else acc) 0 * planeWeight sl.sgn p
  (upFrom 0 (wPlanes sl)).map plane
    ++ (if wMid sl then [2 ^ (7 - wPlanes sl) * as.foldl (fun acc a => acc + a.1) (0 : Int)] else [])

/-- add32 of R58 over terms: the wrapped sum and whether one add left the range. -/
def add32s (acc : Int) (ovf : Bool) : List Int → Int × Bool
  | [] => (acc, ovf)
  | t :: ts =>
    let x := acc + t
    add32s (signedOf 32 (wrapTo 32 x)) (ovf || decide (x < -2 ^ 31 ∨ 2 ^ 31 ≤ x)) ts

/-- An integer accumulator update (R58). -/
def macInt (snap : Memory) (d : MmaDesc) (q : Act) (sl : Slot) (i j acc : Nat) : Nat × Bool :=
  let r := add32s (signedOf 32 acc) false ((upFrom 0 d.kslices).foldl (fun l ks => l ++ sliceTerms snap d q sl i j ks) [])
  (wrapTo 32 r.1, r.2)

/-- Nibble n of a scale row (R53). -/
def nibbleAt (snap : Memory) (row n : Nat) : Nat := snap.num (row + n / 2) 1 / 16 ^ (n % 2) % 16

/-- The exponents of n blocks of a scale row (R53). The bytes of a row that runs past the end of the Team's scratchpad read as 0 (log 84). -/
def scaleExps (snap : Memory) (row : Nat) : Nat → Nat → Nat → List Nat
  | 0, _, _ => []
  | k + 1, n, e =>
    let c := nibbleAt snap row n
    let n1 := n + 1
    if c = 8 then
      let n2 := if n1 % 2 = 1 then n1 + 1 else n1
      let e' := snap.num (row + n2 / 2) 1
      e' :: scaleExps snap row k (n2 + 2) e'
    else
      let e' := if e = 255 then e else (max 0 (min 254 ((e : Int) + signedOf 4 c))).toNat
      e' :: scaleExps snap row k n1 e'

/-- A block's sum times its scale, 2^(e - 127): exact, but an infinity where it rounds beyond FP32's range (R61, R44). -/
def scaledSum (sb : Int) (e : Nat) : FVal :=
  let x := (e : Int) - 127
  if (roundExact fmtF32 .rne sb x false).conds.overflow then .inf (decide (sb < 0)) else .fin (decide (sb < 0)) sb.natAbs x

/-- One block of R61: acc + sb * scale, rounded once. -/
def blockStep (acc : Nat) (sb : Int) (e : Nat) : Nat :=
  let a := fdecode fmtF32 acc
  if e = 255 then fnan fmtF32 (isNanVal a && signVal a) else (faddVal fmtF32 .rne a (scaledSum sb e)).bits

/-- A block-scaled accumulator update (R61). -/
def macScaled (snap : Memory) (d : MmaDesc) (q : Act) (sl : Slot) (i j acc : Nat) : Nat :=
  let per := blkSize sl / 16
  let nb := (d.kslices + per - 1) / per
  let es := scaleExps snap (scaleRow d sl j) nb 0 127
  (upFrom 0 nb).foldl (fun acc b =>
    let sb := (upFrom (b * per) (min per (d.kslices - b * per))).foldl (fun x ks =>
      (sliceTerms snap d q sl i j ks).foldl (fun x t => x + t) x) (0 : Int)
    blockStep acc sb (es.getD b 127)) acc

/-- Products of a slice as exact values; none where one is a zero times an infinity. -/
def exactProduct (a b : FVal) : Option FVal :=
  match a, b with
  | .fin sa ma ea, .fin sb mb eb => some (.fin (sa != sb) (ma * mb) (ea + eb))
  | .inf sa, .inf sb => some (.inf (sa != sb))
  | .inf sa, .fin sb m _ => if m = 0 then none else some (.inf (sa != sb))
  | .fin sa m _, .inf sb => if m = 0 then none else some (.inf (sa != sb))
  | x, _ => some x

/-- The exact sum of finite values as an integer at an exponent. -/
def exactSum (vs : List FVal) : Int × Int :=
  let e0 := vs.foldl (fun m v => match v with | .fin _ k e => if k = 0 then m else min m e | _ => m) (0 : Int)
  (vs.foldl (fun x v => match v with | .fin s m e => if m = 0 then x else x + alignTo s m e e0 | _ => x) 0, e0)

/-- One K-slice of R60: the accumulator plus sixteen exact products, rounded once. -/
def floatSlice (acc : Nat) (as ws : List FVal) : Nat :=
  let a := fdecode fmtF32 acc
  let ops := a :: (as.zip ws).foldl (fun l p => l ++ [p.1, p.2]) []
  match ops.find? isNanVal with
  | some v => fnan fmtF32 (signVal v)
  | none =>
    let ps := (as.zip ws).map (fun p => exactProduct p.1 p.2)
    if ps.any (fun p => p.isNone) then fnan fmtF32 false
    else
      let vs := a :: ps.map (fun p => p.getD (.fin false 0 0))
      let pos := vs.any (fun v => v == .inf false)
      let neg := vs.any (fun v => v == .inf true)
      if pos && neg then fnan fmtF32 false
      else if pos then finf fmtF32 false
      else if neg then finf fmtF32 true
      else
        let r := exactSum vs
        (roundExact fmtF32 .rne r.1 r.2 (vs.all (fun v => match v with | .fin s m _ => s && m == 0 | _ => false))).bits

/-- A float accumulator update (R60). -/
def macFloat (snap : Memory) (d : MmaDesc) (f : FloatFmt) (i j acc : Nat) : Nat :=
  (upFrom 0 d.kslices).foldl (fun acc ks =>
    let as := (upFrom (16 * ks) 16).map (fun k => fdecode f (snap.num (d.abase + i * d.ars + 2 * k) 2))
    let ws := (upFrom (16 * ks) 16).map (fun k => fdecode f (snap.num (d.wbase + j * d.wcs + 2 * k) 2))
    floatSlice acc as ws) acc

/-- One element's new value and whether it overflowed (R226). -/
def macOne (snap : Memory) (d : MmaDesc) (q : Act) (sl : Slot) (i j acc : Nat) : Nat × Bool :=
  match q with
  | .bf16 => (macFloat snap d fmtBf16 i j acc, false)
  | .f16 => (macFloat snap d fmtF16 i j acc, false)
  | _ => if sl.scmode then (macScaled snap d q sl i j acc, false) else macInt snap d q sl i j acc

/-- The tile after an MMA, as bytes row after row, and whether an element overflowed. -/
def mmaTile (pool : Memory) (base : Nat) (snap : Memory) (d : MmaDesc) (q : Act) (sl : Slot) : List Byte × Bool :=
  (upFrom 0 64).foldl (fun acc i =>
    (upFrom 0 64).foldl (fun acc j =>
      let old := pool.num (base + i * 256 + j * 4) 4
      if i < d.m ∧ j < d.n then
        let r := macOne snap d q sl i j old
        (acc.1 ++ toBytes 4 r.1, acc.2 || r.2)
      else (acc.1 ++ toBytes 4 old, acc.2)) acc) ([], false)

/-! ## Tiles, checkpoints, order -/

/-- A tile operand. -/
def opTile (n : Nat) : List Opnd := [{ file := .a, num := n, count := 1 }]

/-- Whether an MMA on a tile has not retired (R227). -/
def tileBusy (k : Core) (tile : Nat) : Bool := k.order.any (fun m => m.tile == tile)

/-- Another Group of the core whose uncommitted Chunk holds the tile's checkpoint (R70). -/
def tileHolder (k : Core) (slot tile : Nat) : Option (Nat × Group) :=
  k.groups.find? (fun e => e.1 != slot && e.2.chunk.tiles.contains tile)

/-- The place that a word of a Group holds in a tile's order (R227). -/
def Core.placeOf (k : Core) (slot uid pc tile : Nat) : Option TilePlace :=
  k.places.find? (fun p => p.slot == slot && p.uid == uid && p.pc == pc && p.tile == tile)

/-- Whether an MZERO, MRD or MWR may perform: every MMA before its place has retired, and no word with an earlier place waits (R227). -/
def tileReady (is : Issue) (s : State) (tile : Nat) : Bool :=
  let k := s.core is.core
  let here := k.places.filter (fun p => p.tile == tile)
  match k.placeOf is.slot is.g.uid is.first tile with
  | some p => p.before == 0 && here.head? == some p
  | none => !tileBusy k tile && here.isEmpty

/-- An MZERO, MRD or MWR that waits takes its place in the tile's order, once (R227). -/
def State.takePlace (s : State) (is : Issue) (tile : Nat) : State :=
  let k := s.core is.core
  match k.placeOf is.slot is.g.uid is.first tile with
  | some _ => s
  | none => s.setCore is.core { k with places := k.places ++ [{
      slot := is.slot, uid := is.g.uid, pc := is.first, tile := tile, before := (k.order.filter (fun m => m.tile == tile)).length }] }

/-- The places of a Group in the tiles' orders go: its word has performed, or its Chunk has ended. -/
def State.leavePlaces (s : State) (c slot uid : Nat) : State :=
  let k := s.core c
  s.setCore c { k with places := k.places.filter (fun p => !(p.slot == slot && p.uid == uid)) }

/-- A tile write's wait: for earlier MMAs on the tile, for the Chunk that holds the checkpoint, which ends, and, for the first tile write of
a Chunk, for words that hold a place in the tile's order (R70, R227). -/
def tileWait (is : Issue) (s : State) (tile : Nat) (mma : Bool) : Option Verdict :=
  let k := s.core is.core
  if is.g.chunk.tiles.contains tile then (if !mma && !tileReady is s tile then some (.stall (s.takePlace is tile)) else none)
  else
    match tileHolder k is.slot tile with
    | some (h, g) =>
      some (.hold (if g.state == .running && g.chunk.phase != .soloWait then s.endChunk is.core h .run else s))
    | none =>
      if mma then (if tileBusy k tile || k.places.any (fun p => p.tile == tile) then some (.stall s) else none)
      else if tileReady is s tile then none else some (.stall (s.takePlace is tile))

/-- The first tile write of a Chunk copies the tile into its checkpoint (R70). -/
def takeCheckpoint (is : Issue) (tile : Nat) (s : State) : State :=
  if is.g.chunk.tiles.contains tile then s
  else
    let k := s.core is.core
    s.setCore is.core { k with pool := k.pool.paste (ckptAddr k.poolpart tile) 16384 (k.pool.slice (tileAddr k.poolpart tile 0 0) 16384) }

/-- Role check of MMA, MZERO and MWR (R222). -/
def notMatrix (is : Issue) : Bool := is.g.role != .matrix

/-- An MMA takes its place in the core's order after its checkpoint copy (R70, R227). -/
def issueMma (is : Issue) (op : MmaOp) (s : State) : State :=
  let s1 := takeCheckpoint is op.tile s
  let k := s1.core is.core
  (s1.setCore is.core { k with order := k.order ++ [op] }).due [.mmaRetire is.core false]

/-- MMA (R222 to R226). -/
def execMma (l : Nat) (q : Act) (n a slot : Nat) (s : State) : Out :=
  issueWord { vec := false, vd := opTile n, va := opS a false, look := some l } (fun is s =>
    let sl := is.l.slot slot
    let words := (upFrom 0 4).map (fun i => is.sRd s (a + i))
    let d := mmaDesc words
    match is.team s with
    | none => .stall s
    | some t =>
      if 28 < a then .trap causeILL a
      else if notMatrix is then .trap causeROLE 1
      else if slotBad sl [0, 1, 2, 3] then .trap causeILL (slotVal slot)
      else if !pairOk q sl then .trap causeILL (slotVal slot)
      else match mmaProt d q sl (256 * t.tscr) with
        | some v => .trap causePROT v
        | none =>
          if (actRanges d q ++ weightRanges d sl ++ scaleRanges d sl).any (fun r => s.boardHits t.home (t.scr r.1) r.2) then .hold s
          else match tileWait is s n true with
            | some v => v
            | none =>
              let snap := (s.core t.home).pool.slice (t.scr 0) (256 * t.tscr)
              .go { tiles := [n], post := issueMma is { owner := (is.slot, is.g.uid), follow := none, tile := n, act := q,
                                                        slotIdx := slot, desc := words, snap := snap, pc := is.first, retries := 0 } }) s

/-- A tile set to zero after its checkpoint copy (R230). -/
def zeroTile (is : Issue) (n : Nat) (s : State) : State :=
  let s1 := takeCheckpoint is n s
  let k := s1.core is.core
  s1.setCore is.core { k with pool := k.pool.clear (tileAddr k.poolpart n 0 0) 16384 }

/-- MZERO (R230). -/
def execMzero (l n : Nat) (s : State) : Out :=
  issueWord { vec := false, vd := opTile n, look := some l } (fun is s =>
    if notMatrix is then .trap causeROLE 1
    else match tileWait is s n false with
      | some v => v
      | none => .go { tiles := [n], post := fun s => (zeroTile is n s).leavePlaces is.core is.slot is.g.uid }) s

/-- The window of MRD and MWR (R231): rows, half, first row, reserved bits. -/
structure TileWindow where
  n : Nat
  half : Nat
  row : Nat
  res : Nat

def windowOf (imm : Nat) : TileWindow := { n := field imm 9 7 + 1, half := field imm 6 6, row := field imm 5 0, res := field imm 31 10 }

/-- The immediate of the sequence in progress, from which the register range follows. -/
def seqImm (s : State) : Nat :=
  match s.cur with
  | some (c, slot, _, _) => match s.group? c slot with
    | some g => (immOf g.seq.limms).getD 0
    | none => 0
  | none => 0

/-- The pool address of a window element. -/
def windowAddr (p tile : Nat) (w : TileWindow) (r lane : Nat) : Nat := tileAddr p tile (w.row + r) (32 * w.half + lane)

/-- MRD (R231). -/
def execMrd (l d n : Nat) (s : State) : Out :=
  let w := windowOf (seqImm s)
  issueWord { vec := false, lim := .window, vd := opRange d w.n, va := opTile n, look := some l } (fun is s =>
    let p := (s.core is.core).poolpart
    if w.res ≠ 0 then .trap causeILL (illVal .resField)
    else if 64 < w.row + w.n then .trap causePROT 0xA04
    else if !tileReady is s n then .stall (s.takePlace is n)
    else
      let ws := (upFrom 0 w.n).foldl (fun acc r => acc ++ is.lanes.map (fun ln =>
        (vAddr is.rb (d + r) ln, (s.core is.core).pool.bytes (windowAddr p n w r ln) 4))) []
      .go { pool := ws.map (fun x => (is.core, x.1, (s.core is.core).pool.bytes x.1 4)),
            pend := some { pc := is.first, regs := (upFrom d w.n).map (fun r => (.v, r)),
                           win := if l = 0 then none else some (is.lanes, l), writes := ws, uce := false, since := s.clk, chans := [] },
            post := fun s => (s.due [.loadReturn is.core is.slot]).leavePlaces is.core is.slot is.g.uid }) s

/-- MWR (R231): its checks are made in the order of the window's res, ROLE, and the rows beyond the tile (log 101). -/
def execMwr (l d n : Nat) (s : State) : Out :=
  let w := windowOf (seqImm s)
  issueWord { vec := false, lim := .window, vd := opRange d w.n, va := opTile n, look := some l } (fun is s =>
    let p := (s.core is.core).poolpart
    if w.res ≠ 0 then .trap causeILL (illVal .resField)
    else if notMatrix is then .trap causeROLE 1
    else if 64 < w.row + w.n then .trap causePROT 0xA04
    else match tileWait is s n false with
      | some v => v
      | none =>
        let ws := (upFrom 0 w.n).foldl (fun acc r => acc ++ is.lanes.map (fun ln =>
          (windowAddr p n w r ln, toBytes 4 (is.vRd s (d + r) ln)))) []
        .go { tiles := [n], post := fun s =>
          (ws.foldl (fun s x => s.poolPut is.core x.1 x.2) (takeCheckpoint is n s)).leavePlaces is.core is.slot is.g.uid }) s

/-! ## Retirement (R227, R229) -/

/-- Places in the tiles' orders after the first MMA of a tile has retired (R227). -/
def Core.placesAfter (k : Core) (tile : Nat) : List TilePlace :=
  k.places.map (fun p => if p.tile = tile then { p with before := p.before - 1 } else p)

/-- An MMA's result enters its tile, and iovf its Group's chunkstat (R58, R59, R226). -/
def State.retireMma (s : State) (c : Nat) (m : MmaOp) : State :=
  let k := s.core c
  let base := tileAddr k.poolpart m.tile 0 0
  let r := mmaTile k.pool base m.snap (mmaDesc m.desc) m.act ((s.launchAt c).slot m.slotIdx)
  let s1 := s.setCore c { k with order := k.order.drop 1, places := k.placesAfter m.tile, pool := k.pool.paste base 16384 (Memory.ofList 0 r.1) }
  match m.follow with
  | none =>
    if r.2 then
      let st := s1.chunkstat c m.owner.1
      s1.setSpecial c m.owner.1 offChunkstat (mkStat (statLimlog st) (statSqcnt st) (statSolo st) true)
    else s1
  | some op => match s1.ops.get? op with
    | some o => { s1 with ops := s1.ops.set op { o with iovf := o.iovf || r.2 } }.due [.copyRetire op]
    | none => s1

/-- Whether an MMA is an integer one and carries a residue (R229); a block-scaled one counts as integer, as its sums are (log 85). -/
def mmaHasResidue (m : MmaOp) : Bool := match m.act with | .s8 => true | .n8 => true | .bf16 => false | .f16 => false

/-- MMA_RETIRE (R227): the first MMA in the core's order retires. A residue mismatch squashes its Chunk (R229); in a follow-on MMA
it is run again once, and a second one ends its COPY with status UCE (R241). -/
def execMmaRetire (c : Nat) (mismatch : Bool) (s : State) : Out :=
  let k := s.core c
  match k.order with
  | [] => .next s
  | m :: rest =>
    if k.places.any (fun p => p.tile == m.tile && p.before == 0) then .next (s.due [.mmaRetire c mismatch])
    else if mismatch && mmaHasResidue m then
      match m.follow with
      | none => .next (s.mismatchAt c m.owner.1 m.pc 512)
      | some op =>
        let s1 := s.addScore c 512
        if m.retries = 0 then
          .next ((s1.setCore c { s1.core c with order := { m with retries := 1 } :: rest }).due [.mmaRetire c false])
        else match s1.ops.get? op with
          | some o =>
            .next (({ s1 with ops := s1.ops.set op { o with status := 6 * 2 ^ 24 } }.setCore c { s1.core c with order := rest, places := (s1.core c).placesAfter m.tile }).due
              [.copyRetire op])
          | none => .next (s1.setCore c { s1.core c with order := rest, places := (s1.core c).placesAfter m.tile })
    else .next (s.retireMma c m)

end Sys2Proof.Machine
end

