-- ==== Sys2Proof/Machine/CrossLane.lean ====
section
/-! DEFINITION. Majors 0x28 to 0x2D: SHFL, PUTL, VOTE, REDL, SCANL, LPART (R176 to R182). -/

namespace Sys2Proof.Machine

/-- The tile size of lpart (R75). -/
def Issue.tile (is : Issue) (s : State) : Nat := 2 ^ s.poolNum is.core (is.rb + offLpart) 4

/-- The first lane of a lane's tile (R176). -/
def baseLane (tsz l : Nat) : Nat := l - l % tsz

/-- The source lane of SHFL (R177). -/
def shflSrc (m : ShflMode) (tsz l n : Nat) : Nat :=
  match m with
  | .idx => baseLane tsz l + n % tsz
  | .up => if n ≤ l - baseLane tsz l then l - n else l
  | .down => if l + n < baseLane tsz l + tsz then l + n else l
  | .xor => baseLane tsz l + ((l % tsz) ^^^ n) % tsz

/-- SHFL (R177). -/
def execShfl (c : ShflMode) (t : Bool) (d a b : Nat) (s : State) : Out :=
  issueWord { descTwo false t d a b with mirror := false } (fun is s =>
    let tsz := is.tile s
    .go (is.vResult false d (fun l => is.srcA s false false t a (shflSrc c tsz l (is.srcB s false b l))))) s

/-- The source lanes of each destination lane of PUTL, in ascending order (R178). -/
def putlSources (tsz : Nat) (active : List Nat) (n : Nat → Nat) (dst : Nat) : List Nat :=
  active.filter (fun l => baseLane tsz l + n l % tsz == dst)

/-- PUTL (R178): c selects fn 1, whose multiple-write mask goes to m(f4). -/
def execPutl (c t : Bool) (d a b : Nat) (s : State) : Out :=
  issueWord { descTwo false t d a b with mirror := false, f4m := c, f4dst := c } (fun is s =>
    let tsz := is.tile s
    let srcs := putlSources tsz is.active (fun l => is.srcB s false b l)
    let writes := lanes32.foldl (fun acc l =>
      match (srcs l).getLast? with
      | some x => acc ++ [(is.core, vAddr is.rb d l, toBytes 4 (is.srcA s false false t a x))]
      | none => if is.x.zero then acc ++ [(is.core, vAddr is.rb d l, toBytes 4 0)] else acc) []
    let many := maskOf (lanes32.filter (fun l => decide (2 ≤ (srcs l).length)))
    .go { pool := writes, raw := if c then [(mAddr is.rb is.x.f4, toBytes 4 many)] else [] }) s

/-- The active lanes of a lane's tile. -/
def Issue.tileActive (is : Issue) (tsz l : Nat) : List Nat := is.active.filter (fun k => baseLane tsz k == baseLane tsz l)

/-- The result of VOTE any, all and eq on the active bits of a tile (R179). -/
def voteHolds (m : VoteMode) (bits : List Bool) : Bool :=
  match m with
  | .any => bits.any id
  | .all => bits.all id
  | .bal => bits.any id
  | .eq => bits.all id || bits.all not

/-- VOTE (R179). -/
def execVote (c : VoteMode) (d a : Nat) (s : State) : Out :=
  issueWord { vd := if c == .bal then opS d false else opM d, va := opM a, mdst := if c == .bal then none else some d }
    (fun is s =>
      let x := is.mRd s a
      if c == .bal then .go (if is.active.isEmpty then {} else is.sResult d (x &&& maskOf is.active))
      else
        let tsz := is.tile s
        .go (is.mResult s d (fun l => voteHolds c ((is.tileActive tsz l).map (bitAt x))))) s

/-- One node of REDL and SCANL (R62, R180). -/
def redCombine (o : RedOp) (rm : Rm) (x y : Nat) : FRes :=
  match o with
  | .add => { bits := (x + y) % 2 ^ 32 }
  | .minS => { bits := if signedOf 32 y < signedOf 32 x then y else x }
  | .minN => { bits := min x y }
  | .maxS => { bits := if signedOf 32 x < signedOf 32 y then y else x }
  | .maxN => { bits := max x y }
  | .and => { bits := x &&& y }
  | .or => { bits := x ||| y }
  | .fadd => addIn fmtF32 rm false x y
  | .fmin => fminmax fmtF32 false x y
  | .fmax => fminmax fmtF32 true x y

/-- Two nodes, either of which may be absent (R62). -/
def redNode (o : RedOp) (rm : Rm) (x y : Option FRes) : Option FRes :=
  match x, y with
  | some a, some b =>
    let r := redCombine o rm a.bits b.bits
    some { bits := r.bits, conds := condsOr (condsOr a.conds b.conds) r.conds }
  | some a, none => some a
  | none, y => y

/-- Pairs of neighbours. -/
def redPairs (o : RedOp) (rm : Rm) : List (Option FRes) → List (Option FRes)
  | x :: y :: r => redNode o rm x y :: redPairs o rm r
  | [x] => [x]
  | [] => []

/-- The pairwise tree, as many levels as the fuel (R62). -/
def redTree (o : RedOp) (rm : Rm) : Nat → List (Option FRes) → List (Option FRes)
  | 0, xs => xs
  | n + 1, xs => redTree o rm n (redPairs o rm xs)

/-- The result of a tile from its leaves (R62). -/
def redTile (o : RedOp) (rm : Rm) (leaves : List (Option FRes)) : Option FRes := (redTree o rm 5 leaves).head?.getD none

/-- Floats take rm (R124). -/
def redIsFloat (o : RedOp) : Bool := match o with | .fadd => true | .fmin => true | .fmax => true | _ => false

/-- The tiles' first lanes. -/
def tileBases (tsz : Nat) : List Nat := lanes32.filter (fun l => l % tsz == 0)

/-- REDL's tile results on the values f of the active lanes (R180). -/
def redlTile (o : RedOp) (rm : Rm) (tsz base : Nat) (active : List Nat) (f : Nat → Nat) : Option FRes :=
  redTile o rm ((upFrom base tsz).map (fun l => if active.contains l then some { bits := f l } else none))

/-- Lanes and conditions of REDL for FPE: the lowest active lane of each tile (R180). -/
def redlConds (o : RedOp) (rm : Rm) (tsz : Nat) (active : List Nat) (f : Nat → Nat) : List (Nat × Nat) :=
  (tileBases tsz).foldl (fun acc b =>
    match redlTile o rm tsz b active f, active.find? (fun l => baseLane tsz l == b) with
    | some r, some l => acc ++ [(l, condsBits r.conds)]
    | _, _ => acc) []

/-- REDL's value in a lane. -/
def redlValue (o : RedOp) (rm : Rm) (tsz : Nat) (active : List Nat) (f : Nat → Nat) (l : Nat) : Nat :=
  ((redlTile o rm tsz (baseLane tsz l) active f).map (fun r => r.bits)).getD 0

/-- REDL (R180). -/
def execRedl (c : RedOp) (t : Bool) (d a : Nat) (s : State) : Out :=
  issueWord { descOne false t d a false with rm := redIsFloat c, mirror := false } (fun is s =>
    let tsz := is.tile s
    let f := fun l => is.srcA s true false t a l
    match fpeVal is.l.fpen (redlConds c is.rm tsz is.active f) with
    | some v => .trap causeFPE v
    | none => .go (is.vResult false d (redlValue c is.rm tsz is.active f))) s

/-- One step of SCANL at distance k (R181). -/
def scanStep (o : RedOp) (rm : Rm) (tsz k : Nat) (x : List (Option FRes)) : List (Option FRes) :=
  lanes32.map (fun l =>
    let me := x.getD l none
    if k ≤ l % tsz then
      match x.getD (l - k) none, me with
      | some a, some b =>
        let r := redCombine o rm a.bits b.bits
        some { bits := r.bits, conds := condsOr b.conds r.conds }
      | some a, none => some { a with conds := {} }
      | none, b => b
    else me)

/-- SCANL's values (R181); a lane's conditions are those of the combines that formed its own values. -/
def scanAll (o : RedOp) (rm : Rm) (tsz : Nat) (active : List Nat) (f : Nat → Nat) : List (Option FRes) :=
  [1, 2, 4, 8, 16].foldl (fun x k => if k < tsz then scanStep o rm tsz k x else x)
    (lanes32.map (fun l => if active.contains l then some { bits := f l } else none))

/-- SCANL (R181). -/
def execScanl (c : RedOp) (t : Bool) (d a : Nat) (s : State) : Out :=
  issueWord { descOne false t d a false with rm := redIsFloat c, mirror := false } (fun is s =>
    let ys := scanAll c is.rm (is.tile s) is.active (fun l => is.srcA s true false t a l)
    let res := fun l => (ys.getD l none).getD { bits := 0 }
    match fpeVal is.l.fpen (lanes32.map (fun l => (l, condsBits (res l).conds))) with
    | some v => .trap causeFPE v
    | none => .go (is.vResult false d (fun l => (res l).bits))) s

/-- LPART (R182). -/
def execLpart (c : Nat) (s : State) : Out :=
  issueWord {} (fun is _ =>
    if c = 0 || c = 6 || c = 7 then .trap causeILL (illVal .code)
    else .go (if is.active.isEmpty then {} else { raw := [(is.rb + offLpart, toBytes 4 c)] })) s

end Sys2Proof.Machine
end

