-- ==== Sys2Proof/Machine/Control.lean ====
section
/-! DEFINITION. Majors 0x30 to 0x34 (R185 to R192), the hint words of major 0x3F (R122 to R129), the fused softmax run (R183, R184),
words that are no instruction (R138) and fetch faults (R117). -/

namespace Sys2Proof.Machine

/-! ## Branches -/

/-- The target of a B-format word (R121). -/
def branchTarget (pc off : Nat) : Nat := wrapTo 32 ((pc : Int) + 4 * signedOf 21 off)

/-- The first lane whose target fails a test. -/
def firstBad (ts : List (Nat × Nat)) (p : Nat → Bool) : Option (Nat × Nat) := ts.find? (fun x => p x.2)

/-- Whether the word fetched at an offset is a PRIO; none while it is not there yet. -/
def prioAt (is : Issue) (s : State) (off : Nat) : Option Bool :=
  match s.fetch is.core is.g.failed off with
  | .word w => match decode w with
    | .ok (.prio _) => some true
    | _ => some false
  | .untranslated => none
  | .waits _ => none
  | _ => some false

/-- The priority of the PRIO at an offset. -/
def prioVal (is : Issue) (s : State) (off : Nat) : Nat :=
  match s.fetch is.core is.g.failed off with
  | .word w => match decode w with
    | .ok (.prio p) => p
    | _ => 0
  | _ => 0

/-- The checks of R185 on the targets of the lanes that move: ALIGN, PROT, then a target that is not a PRIO (R127). A target whose
Page refuses the fetch, or failed, traps as that fetch would. -/
def targetFault (is : Issue) (s : State) (ts : List (Nat × Nat)) : Option Verdict :=
  match firstBad ts (fun x => x % 4 != 0) with
  | some (_, x) => some (.trap causeALIGN x)
  | none =>
    match firstBad ts (fun x => decide (is.l.codelen < x + 4)) with
    | some (_, x) => some (.trap causePROT x)
    | none =>
      match firstBad ts (fun x => match s.fetch is.core is.g.failed x with | .refused => true | _ => false) with
      | some (_, x) => some (.trap causePROT x)
      | none =>
        match firstBad ts (fun x => match s.fetch is.core is.g.failed x with | .failed => true | _ => false) with
        | some (l, _) => some (.trap causeXLATE (0xA0 + l))
        | none =>
          match firstBad ts (fun x => (prioAt is s x).isNone) with
          | some (_, x) => some (fetchHold is s x)
          | none => (firstBad ts (fun x => prioAt is s x == some false)).map (fun b => .trap causeILL b.2)

/-- Lanes with targets move there after the checks; the others move on. -/
def moveTo (is : Issue) (s : State) (ts : List (Nat × Nat)) : Verdict := (targetFault is s ts).getD (.go { pcs := ts })

/-- A control word: outside the vector class, closing windows (R131, R185). -/
def descControl : Desc := { vec := false, closes := true }

/-- BRA (R186). -/
def execBra (off : Nat) (s : State) : Out :=
  issueWord descControl (fun is s => moveTo is s (is.lanes.map (fun l => (l, branchTarget is.pc off)))) s

/-- BRC (R186). -/
def execBrc (m : Nat) (neg : Bool) (off : Nat) (s : State) : Out :=
  issueWord { descControl with va := opM m } (fun is s =>
    let x := is.mRd s m
    moveTo is s ((is.lanes.filter (fun l => bitAt x l != neg)).map (fun l => (l, branchTarget is.pc off)))) s

/-- A call row of a lane (R78). -/
def Issue.row (is : Issue) (s : State) (d l : Nat) : Nat := s.poolNum is.core (rowAddr is.rb is.l.regs d l) 4

/-- The lowest empty row of a lane, or cdepth (R187). -/
def Issue.depth (is : Issue) (s : State) (l : Nat) : Nat :=
  ((upFrom 0 is.l.cdepth).find? (fun d => is.row s d l == 0)).getD is.l.cdepth

/-- CALL (R187). -/
def execCall (off : Nat) (s : State) : Out :=
  issueWord descControl (fun is s =>
    let ts := is.lanes.map (fun l => (l, branchTarget is.pc off))
    match targetFault is s ts with
    | some v => v
    | none =>
      if is.lanes.any (fun l => is.depth s l == is.l.cdepth) then .trap causeSTACK is.l.cdepth
      else .go { pcs := ts, pool := is.lanes.map (fun l =>
        (is.core, rowAddr is.rb is.l.regs (is.depth s l) l, toBytes 4 (is.pc + 4))) }) s

/-- BRX (R188). -/
def execBrx (a : Nat) (s : State) : Out :=
  issueWord { descControl with va := opV a false } (fun is s => moveTo is s (is.lanes.map (fun l => (l, is.vRd s a l)))) s

/-- RET (R187). -/
def execRet (s : State) : Out :=
  issueWord descControl (fun is s =>
    let full := is.lanes.filter (fun l => is.depth s l != 0)
    let ts := full.map (fun l => (l, is.row s (is.depth s l - 1) l))
    match targetFault is s ts with
    | some v => v
    | none =>
      if full.length ≠ is.lanes.length then .trap causeSTACK 0
      else .go { pcs := ts, pool := is.lanes.map (fun l =>
        (is.core, rowAddr is.rb is.l.regs (is.depth s l - 1) l, toBytes 4 0)) }) s

/-! ## Parking at a BARS (R220) -/

/-- The Barrier and place of a BARS at which every live lane is parked. Lanes that named different Barriers at one BARS do not meet
(log 83). -/
def barsMet (live : Nat) (ls : List Lane) : Option (Nat × Nat) :=
  match (lanesOf live).head? with
  | none => none
  | some l0 =>
    match ls[l0]? with
    | some x0 =>
      match x0.wait with
      | .bars b =>
        if (lanesOf live).all (fun l => match ls[l]? with
            | some x => x.pc == x0.pc && x.wait == .bars b
            | none => false) then some (b, x0.pc) else none
      | _ => none
    | none => none

/-- The Chunk ends with the single arrival of a BARS, and the lanes wait for the phase (R220). -/
def barsEnds (core slot live b pc : Nat) (e : Eff) : Eff :=
  { e with
    acts := e.acts ++ [.barrier .all b pc (lanesOf live)], ends := some .run,
    post := fun s => s.modGroup core slot (fun g =>
      { g with lanes := (g.lanes.zip lanes32).map (fun x =>
          if bitAt live x.2 then { x.1 with pc := pc + 4, wait := .sent b } else x.1) }) }

/-- EXIT (R189): the entry's m0 bits are cleared; the last EXIT retires the Group; parked lanes are tested (R192, R220). -/
def execExit (s : State) : Out :=
  issueWord descControl (fun is s =>
    let live := s.liveMask is.core is.slot
    let left := maskOf ((lanesOf live).filter (fun l => !is.lanes.contains l))
    let e : Eff := { stay := true, raw := [(mAddr is.rb 0, toBytes 4 left)] }
    if left = 0 then .go { e with ends := some .retire }
    else match barsMet left is.g.lanes with
      | some (b, pc) => .go (barsEnds is.core is.slot left b pc e)
      | none => .go e) s

/-- YIELD (R190, R325). -/
def execYield (s : State) : Out :=
  issueWord descControl (fun is _ => .go { ends := some .run, acts := [.yield (is.lanes.headD 0)] }) s

/-- NOP (R190). -/
def execNop (s : State) : Out := issueWord { vec := false } (fun _ _ => .go {}) s

/-- JOIN (R191). -/
def execJoin (d : Nat) (s : State) : Out :=
  issueWord { vec := false, vd := opM d, mdst := some d } (fun is s =>
    .go { raw := [(mAddr is.rb d, toBytes 4 (is.mRd s d ||| maskOf is.lanes))] }) s

/-- LEAVE (R191). -/
def execLeave (d : Nat) (s : State) : Out :=
  issueWord { vec := false, vd := opM d, mdst := some d } (fun is s =>
    .go { raw := [(mAddr is.rb d, toBytes 4 (is.mRd s d &&& maskOf (lanes32.filter (fun l => !is.lanes.contains l))))] }) s

/-- Whether a WAITM on m(d) parks its lanes: a live lane of m(d) has not come to it (R192). -/
def waitmParks (is : Issue) (s : State) (d : Nat) : Bool :=
  (lanesOf (is.mRd s d &&& s.liveMask is.core is.slot)).any (fun l =>
    !is.lanes.contains l && (match is.g.lanes[l]? with
      | some y => !(y.pc == is.pc && isWaitm y.wait)
      | none => false))

/-- WAITM (R192): the lanes park; the common effect of a word tests the condition. A Chunk in Solo-run ends before one that parks
(R86, R101). -/
def execWaitm (d : Nat) (s : State) : Out :=
  issueWord { vec := false, vd := opM d } (fun is s =>
    if is.g.chunk.phase = .soloRun ∧ waitmParks is s d = true then .before .run else .go { stay := true, wait := .waitm d }) s

/-! ## Hint words -/

/-- A hint word of a sequence issues: it counts as a word, and the entry stays chosen (R117, R122, R324, R325). A sequence that would
cross the limit of R88 waits for the next Chunk; its first word waits until every word of it is there. XPFX's rm is judged with the
sequence's last word, so a word that cannot be fetched is reported first (log 99). -/
def hintWord (f : Seq → Option Seq) (s : State) : Out :=
  match s.cur with
  | none => .fault .noIssuer
  | some (c, slot, pc, lanes) =>
    match s.group? c slot with
    | none => .fault .noIssuer
    | some g =>
      let is := mkIssue s c slot pc lanes g
      .next (match f g.seq with
        | none => raise is causeILL (illVal .sequence) s
        | some q =>
          let ahead := if g.seq.n = 0 then s.seqLen c g.failed pc 4 else .got 0
          if ahead.needs?.isSome then settle is (fetchHold is s (ahead.needs?.getD 0)) s
          else if g.seq.n = 0 && decide (0 < g.chunk.words)
              && decide (2 ^ statLimlog (s.chunkstat c slot) < g.chunk.words + ahead.val?.getD 1) then s.endChunk c slot .run
          else
            (stallOn is s).modGroup c slot (fun g =>
              { g with
                seq := { q with n := g.seq.n + 1, first := is.first }, ydem := g.ydem - 1, pend := countWindows lanes g.pend,
                chunk := { g.chunk with words := g.chunk.words + 1 } }))

/-- XPFX (R123): at most one, before any LIMM (R122). -/
def execXpfx (f4s f4en : Bool) (f4 : Nat) (sat : Bool) (rm : Nat) (zero : Bool) (m : Nat) (s : State) : Out :=
  hintWord (fun q =>
    if q.xp.isSome || !q.limms.isEmpty then none
    else some { q with xp := some { f4s := f4s, f4en := f4en, f4 := f4, sat := sat, rm := rm, zero := zero, mask := m } }) s

/-- LIMM (R125): at most two, of different hi (R122). -/
def execLimm (hi : Bool) (v : Nat) (s : State) : Out :=
  hintWord (fun q =>
    if decide (2 ≤ q.limms.length) || q.limms.any (fun x => x.1 == hi) then none
    else some { q with limms := q.limms ++ [(hi, v)] }) s

/-- PRIO (R127): every lane of the entry takes the priority. -/
def execPrio (p : Nat) (s : State) : Out :=
  issueWord { vec := false, closes := true, alone := true } (fun _ _ => .go { prio := some p }) s

/-- The active set under SHINT (R128, R329): 1 passes the turn, 2 pins, 3 lets the Group leave. -/
def shintEffect (code core slot : Nat) (s : State) : State :=
  let k := s.core core
  if code = 1 then s.setCore core { k with rot := slot }
  else if code = 2 then
    (s.setCore core { k with active := k.active.map (fun a => if a.slot == slot then { a with pin := s.clk + 4096 } else a) }).due
      [.activeSetPinExpiry]
  else if code = 3 then s.setCore core { k with active := k.active.filter (fun a => a.slot != slot) }
  else s

/-- SHINT (R128): timing only. -/
def execShint (c : Nat) (s : State) : Out :=
  issueWord { vec := false, alone := true } (fun is _ => .go { post := shintEffect c is.core is.slot }) s

/-- CHK (R129). -/
def execChk (s : State) : Out :=
  issueWord { vec := false, closes := true, alone := true } (fun _ _ => .go { ends := some .run }) s

/-! ## The fused softmax run -/

/-- The five words of the run as forms to be checked, with their offsets in words (R183). -/
def fusedForms (r : FusedRun) : List (Nat × Desc) :=
  let h := if r.xp.isSome then 1 else 0
  [(h, { descOne false false r.vm r.vx false with rm := true }),
   (2 * h + 1, { descTwo false false r.vd r.vx r.vm with rm := true, sat := true }),
   (3 * h + 4, { descTwo false false r.vd r.vd 0 with rm := true, sat := true }),
   (4 * h + 5, { descOne false false r.vd r.vd false with rm := true, sat := true }),
   (5 * h + 6, { descOne false false r.vs r.vd false with rm := true })]

/-- Lookahead windows after n words. -/
def countWindowsN (lanes : List Nat) (ps : List Pend) : Nat → List Pend
  | 0 => ps
  | n + 1 => countWindowsN lanes (countWindows lanes ps) n

/-- The checks of the run's words (R184): the first verdict that any of them gives. -/
def fusedCheck (r : FusedRun) (is : Issue) (s : State) : Option Verdict :=
  (fusedForms r).foldl (fun acc f =>
    match acc with
    | some v => some v
    | none =>
      let lim := if f.2.lim == .b && f.1 == 3 * (if r.xp.isSome then 1 else 0) + 4 then [(true, 0x3FB8), (false, 0xAA3B)] else []
      let g := { is.g with pend := countWindowsN is.lanes is.g.pend f.1, chunk := { is.g.chunk with words := is.g.chunk.words + f.1 }, seq := { n := 0, first := is.pc, xp := r.xp, limms := lim } }
      precheck f.2 { is with g := g, imm := immOf lim } s) none

/-- The values of the run in each lane (R184): maximum, exponentials, sum, and the conditions met. -/
def fusedValues (r : FusedRun) (is : Issue) (s : State) : (Nat → Nat) × (Nat → Nat) × (Nat → Nat) × List (Nat × Nat) :=
  let tsz := is.tile s
  let x := fun l => is.vRd s r.vx l
  let mx := redlValue .fmax is.rm tsz is.active x
  let df := fun l => subIn fmtF32 is.rm false (x l) (mx l)
  let pr := fun l => mulIn fmtF32 is.rm false (df l).bits 0x3FB8AA3B
  let ex := fun l => fexp2Val fmtF32 (f32v (pr l).bits)
  let exs := is.active.map (fun l => (l, (ex l).bits))
  let exOf := fun l => ((exs.find? (fun e => e.1 == l)).map (fun e => e.2)).getD 0
  let sm := redlValue .fadd is.rm tsz is.active exOf
  let local' := is.active.map (fun l => (l, condsBits (condsOr (df l).conds (condsOr (pr l).conds (ex l).conds))))
  let cross := redlConds .fmax is.rm tsz is.active x ++ redlConds .fadd is.rm tsz is.active exOf
  let conds := lanes32.map (fun l => (l, ((local' ++ cross).filter (fun c => c.1 == l)).foldl (fun m c => m ||| c.2) 0))
  (mx, exOf, sm, conds)

/-- The run's words beyond the first are counted too (R184). -/
def countRun (n : Nat) (is : Issue) (s : State) : State :=
  s.modGroup is.core is.slot (fun g =>
    { g with ydem := g.ydem - n, pend := countWindowsN is.lanes g.pend n, chunk := { g.chunk with words := g.chunk.words + n } })

/-- FUSED_SOFTMAX (R184): one operation, nothing written before every check has passed: ILL and LAV of the five words, in their order,
then FPE of the run (log 11). A run whose later words are not there yet waits for them. -/
def execFusedSoftmax (s : State) : Out :=
  issueWord {} (fun is s =>
    match s.fusedLook is.core is.g.failed is.pc with
    | .nothing => .stall s
    | .needs off => fetchHold is s off
    | .got r =>
      let x := r.xp.getD Xpfx.none
      let mask := if x.mask < 12 then is.mRd s x.mask else 0
      let is := { is with x := x, active := is.lanes.filter (bitAt mask) }
      if decide (0 < is.g.chunk.words)
          && decide (2 ^ statLimlog (s.chunkstat is.core is.slot) < is.g.chunk.words + r.words) then .before .run
      else match fusedCheck r is s with
        | some v => v
        | none =>
          if is.g.mirrored && !is.active.isEmpty && s.glitch.contains s.steps then .mismatch
          else
          let (mx, ex, sm, conds) := fusedValues r is s
          match fpeVal is.l.fpen conds with
          | some v => .trap causeFPE v
          | none =>
            .go { pool := is.vWrites r.vm 1 mx ++ is.vWrites r.vd 1 ex ++ is.vWrites r.vs 1 sm,
                  pcs := is.lanes.map (fun l => (l, is.pc + 4 * r.words)), post := countRun (r.words - 1) is }) s

/-! ## What is no instruction -/

/-- WORD_NOT_INSTRUCTION (R138): ILL under the word's reason, at the first word of its sequence. -/
def execWordNotInstruction (r : IllReason) (s : State) : Out := issueBare (fun _ _ => .trap causeILL (illVal r)) s

/-- CODE_FETCH_FAULT (R117, R349): PROT with the code offset; XLATE where XFAIL ended the fetch's fault (R279). A fetch that is not there yet
waits (R351, R363). -/
def execCodeFetchFault (s : State) : Out :=
  issueBare (fun is s =>
    match s.fetch is.core is.g.failed is.pc with
    | .failed => .trap causeXLATE (0xA0 + is.lanes.headD 0)
    | .untranslated => fetchHold is s is.pc
    | .waits _ => fetchHold is s is.pc
    | _ => .trap causePROT is.pc) s

end Sys2Proof.Machine
end

