-- ==== Sys2Proof/Machine/Push.lean ====
section
/-! DEFINITION. Major 0x3D without its matrix words: PUSH, WAITTL, TLRD, stage rings, CONT (R232 to R238, R250 to R255). -/

namespace Sys2Proof.Machine

/-! ## PUSH -/

/-- The role that may push to a queue (R232). -/
def queueRole (q : Nat) : Role := if q = 0 || q = 2 || q = 4 then .copy else if q = 1 then .matrix else .vector

/-- Formats that a queue accepts (R232). -/
def queueFormats (q : Nat) : List Nat :=
  if q = 0 then [1, 2] else if q = 1 then [1] else if q = 2 then [3] else if q = 3 then [8] else if q = 4 then [9]
  else if q < 32 then [4, 5, 6] else [7]

/-- Depth of a queue (R232). -/
def queueDepth (q : Nat) : Nat :=
  if q = 0 then 128 else if q = 1 then 32 else if q = 2 then 16 else if q = 3 then 64 else if q = 4 then 16
  else if q < 32 then 256 else 32

/-- The stack of an sx or rd queue. -/
def queueStack (q : Nat) : Nat := q % 16

/-- A bit field of a command (R238). -/
def cmdField (cmd : List Byte) (hi lo : Nat) : Nat := field (ofBytes cmd) hi lo
def cmdFmt (cmd : List Byte) : Nat := cmdField cmd 7 0
def cmdVar (cmd : List Byte) : Nat := cmdField cmd 23 16

/-- Whether the stack of a queue lies in the Context's partition. -/
def State.queueIn (s : State) (ctx q : Nat) : Bool := decide (q < 16) || bitAt (s.stacksOf (s.ctx ctx).part) (queueStack q)

/-- Checks 2 to 5 of R233. -/
def pushFault (s : State) (ctx : Nat) (role : Role) (q : Nat) (cmd : List Byte) : Option Verdict :=
  let fmt := cmdFmt cmd
  if role != queueRole q then some (.trap causeROLE q)
  else if !(queueFormats q).contains fmt || (q = 0 && fmt = 1 && bitAt (cmdVar cmd) 0) then some (.trap causePROT (0x300 + fmt))
  else if !s.queueIn ctx q then some (.trap causePROT (0x400 + q))
  else if fmt = 3 && (cmdVar cmd = 2 || cmdVar cmd = 3) && (s.ctx ctx).privl ≠ 1 then some (.trap causePROT (0x500 + fmt))
  else none

/-- PUSH (R233, R234): the command is read at issue and leaves at commit. m0 as full-flag mask traps ILL with trapval 0 (log 82). -/
def execPush (x : Bool) (p f a : Nat) (s : State) : Out :=
  issueWord { descControl with vd := opS (2 * p) true ++ opM f, mdst := some f } (fun is s =>
    let c := if x then 16 else 0
    let cmd := (upFrom 0 16).foldl (fun acc i => acc ++ toBytes 4 (is.sRd s (c + i))) []
    match pushFault s is.ctx is.g.role a cmd with
    | some v => v
    | none => .go { ends := some .run, acts := [.push a cmd (2 * p) f is.lanes] }) s

/-! ## Timelines -/

/-- WAITTL (R250, R115). -/
def execWaittl (d a : Nat) (s : State) : Out :=
  issueWord { vec := false, vd := opS d true } (fun is s =>
    let n := is.sPair s d
    if n ≤ (s.timeline is.ctx a).count then .go { post := fun s => s.dropReadCopies (clusterOf is.core) }
    else .wait (.timeline a n)) s

/-- TLRD (R251). -/
def execTlrd (d a : Nat) (s : State) : Out :=
  issueWord { vec := false, vd := opS d true } (fun is s => .go (is.sResult64 d (s.timeline is.ctx a).count)) s

/-! ## Stage rings (R252, R253) -/

/-- The slot that a ring word names. -/
def ringSlot (is : Issue) (s : State) (x : Bool) (a : Nat) : Nat := if x then a else is.sRd s a

/-- A ring word on a declared ring and slot; k receives the core ring, its core and the slot. -/
def ringWord (x : Bool) (a r : Nat) (k : Issue → State → Nat → Nat → Nat → Verdict) (s : State) : Out :=
  issueWord { vec := false, va := if x then [] else opS a false } (fun is s =>
    let slot := ringSlot is s x a
    match (is.team s).bind (fun t => t.ring? r) with
    | some (h, c) => if ((s.core c).ring h).slots ≤ slot then .trap causePROT (0x900 + r) else k is s h c slot
    | none => .trap causePROT (0x900 + r)) s

/-- RINGP (R253). -/
def execRingp (x : Bool) (a r : Nat) (s : State) : Out :=
  ringWord x a r (fun _ s h c slot =>
    if ((s.core c).ring h).full slot then .wait (.ringEmpty r slot) else .go { acts := [.ringp c h slot] }) s

/-- RINGC (R253): then a device-scope acquire (R109). -/
def execRingc (x : Bool) (a r : Nat) (s : State) : Out :=
  ringWord x a r (fun is s h c slot =>
    if ((s.core c).ring h).full slot then .go { post := fun s => s.dropReadCopies (clusterOf is.core) }
    else .wait (.ringFull r slot)) s

/-- RINGC.rel (R253). -/
def execRingcRel (x : Bool) (a r : Nat) (s : State) : Out :=
  ringWord x a r (fun _ _ h c slot => .go { acts := [.ringrel c h slot] }) s

/-! ## Continuations -/

/-- Records of a die's continuation store (R316). -/
def contStoreSize : Nat := 16384

/-- Room of a die's store that is neither filled nor reserved. -/
def ContStore.free (d : ContStore) : Nat := contStoreSize - d.recs.length - d.reserved.foldl (fun n e => n + e.2) 0

def State.store (s : State) (die : Nat) : ContStore := s.stores.getD die ContStore.reset
def State.setStore (s : State) (die : Nat) (d : ContStore) : State := { s with stores := s.stores.set die d }

/-- Reserve room for a Group (R255). -/
def State.reserveRoom (s : State) (die uid n : Nat) : State :=
  let d := s.store die
  s.setStore die { d with reserved := d.reserved.set uid n }

/-- CONT (R255). -/
def execCont (d a : Nat) (s : State) : Out :=
  issueWord { descControl with vd := [{ file := .v, num := d, count := 15, align := 1 }], va := opS a false } (fun is s =>
    let entry := is.sRd s a
    let n := is.lanes.length
    let die := dieOf is.core
    if entry % 4 ≠ 0 then .trap causeALIGN 0
    else if is.l.codelen < entry + 4 then .trap causePROT entry
    else match prioAt is s entry with
      | none => fetchHold is s entry
      | some false => .trap causeILL (illVal .target)
      | some true =>
        if n ≤ s.roomOf is.core is.g.uid || n ≤ (s.store die).free then
          let recs := is.lanes.map (fun l =>
            toBytes 4 entry ++ (upFrom 0 15).foldl (fun acc i => acc ++ toBytes 4 (is.vRd s (d + i) l)) [])
          .go { ends := some .run, acts := [.cont die ((s.core is.core).kernel.getD 0) (prioVal is s entry) recs],
                post := fun s => s.reserveRoom die is.g.uid n }
        else .wait (.room n)) s

end Sys2Proof.Machine
end

