-- ==== Sys2Proof/Machine/Commands.lean ====
section
/-! DEFINITION. What all engine commands share: header and status (R238, R239), translation (R236), window addresses (R202, R240),
the range scoreboard (R205), sending at commit (R234), the order in which commands leave (R235), status word and completion (R237). -/

namespace Sys2Proof.Machine

/-! ## Status codes (R239) -/

def stOK (detail : Nat) : Nat := detail
def stFORMAT (off : Nat) : Nat := 0x01 * 2 ^ 24 + off
def stXLATE : Nat := 0x02 * 2 ^ 24
def stPROT : Nat := 0x03 * 2 ^ 24
def stSLOT (i : Nat) : Nat := 0x04 * 2 ^ 24 + i
def stPARTIAL (n : Nat) : Nat := 0x05 * 2 ^ 24 + n
def stUCE : Nat := 0x06 * 2 ^ 24
def stVERSION (p : Nat) : Nat := 0x07 * 2 ^ 24 + p % 2 ^ 24
def stINDEX : Nat := 0x08 * 2 ^ 24
def stBUDGET (h : Nat) : Nat := 0x09 * 2 ^ 24 + min h (2 ^ 24 - 1)
def stLINK (r : Nat) : Nat := 0x0A * 2 ^ 24 + r

/-! ## Fields -/

/-- The byte offset of the first bad header field, var among them as the format judges it (R238, R239). -/
def headerBad (cmd : List Byte) (var : Bool) : Option Nat :=
  if bitAt (cmdField cmd 15 14) 0 && decide (47 < cmdField cmd 13 8) then some 1
  else if cmdField cmd 15 15 ≠ 0 then some 1
  else if var then some 2
  else if cmdField cmd 31 24 ≠ 0 then some 3
  else none

def cmdBaren (cmd : List Byte) : Bool := cmdField cmd 14 14 == 1
def cmdBar (cmd : List Byte) : Nat := cmdField cmd 13 8
def cmdStaddr (cmd : List Byte) : Nat := cmdField cmd 511 448

/-- The first of a list of tests that fails, by the byte offset of its field. -/
def badField (ts : List (Bool × Nat)) : Option Nat := (ts.find? (fun t => t.1)).map (fun t => t.2)

/-- COPY (R240). -/
structure CopyCmd where
  fo : Bool
  swin : Bool
  dwin : Bool
  len : Nat
  src : Nat
  dst : Nat
  rows : Nat
  sstride : Nat
  dstride : Nat
  fodesc : List Nat
  focl : Nat
deriving DecidableEq, Repr

def copyCmd (cmd : List Byte) : CopyCmd :=
  { fo := bitAt (cmdVar cmd) 0, swin := bitAt (cmdVar cmd) 1, dwin := bitAt (cmdVar cmd) 2, len := cmdField cmd 63 32,
    src := cmdField cmd 127 64, dst := cmdField cmd 191 128, rows := cmdField cmd 223 192, sstride := cmdField cmd 255 224,
    dstride := cmdField cmd 287 256, fodesc := (upFrom 0 4).map (fun i => cmdField cmd (319 + 32 * i) (288 + 32 * i)),
    focl := cmdField cmd 431 416 }

def CopyCmd.tile (c : CopyCmd) : Nat := c.focl % 8
def CopyCmd.slot (c : CopyCmd) : Nat := field c.focl 10 8
def CopyCmd.act (c : CopyCmd) : Act := match field c.focl 5 4 with | 0 => .s8 | 1 => .n8 | 2 => .bf16 | _ => .f16

/-- Fields of COPY outside their limits (R238, R240). -/
def copyBad (cmd : List Byte) : Option Nat :=
  let c := copyCmd cmd
  match headerBad cmd (cmdVar cmd / 8 != 0) with
  | some o => some o
  | none => badField
    [(c.len == 0 || decide (16777216 < c.len), 4), (c.swin && decide (2 ^ 32 ≤ c.src), 8),
     (c.dwin && decide (2 ^ 32 ≤ c.dst), 16), (c.rows == 0 || decide (65536 < c.rows), 24),
     (c.fo && (field c.focl 15 11 != 0 || field c.focl 7 6 != 0 || field c.focl 3 3 != 0), 52), (cmdField cmd 447 432 != 0, 54)]

/-- GATHER (R242). -/
structure GatherCmd where
  iw : Bool
  dwin : Bool
  n : Nat
  rowlen : Nat
  sstride : Nat
  table : Nat
  ilist : Nat
  dst : Nat
deriving DecidableEq, Repr

def gatherCmd (cmd : List Byte) : GatherCmd :=
  { iw := bitAt (cmdVar cmd) 0, dwin := bitAt (cmdVar cmd) 1, n := cmdField cmd 63 32, rowlen := cmdField cmd 95 64,
    sstride := cmdField cmd 127 96, table := cmdField cmd 191 128, ilist := cmdField cmd 255 192, dst := cmdField cmd 319 256 }

def gatherBad (cmd : List Byte) : Option Nat :=
  let c := gatherCmd cmd
  match headerBad cmd (cmdVar cmd / 4 != 0) with
  | some o => some o
  | none => badField
    [(c.n == 0 || decide (65536 < c.n), 4),
     (c.rowlen % 4 != 0 || c.rowlen == 0 || decide (4096 < c.rowlen), 8), (c.dwin && decide (2 ^ 32 ≤ c.dst), 32),
     (cmdField cmd 447 320 != 0, 40)]

/-! ## Window addresses -/

/-- The core and pool byte that a window address names from a core (R202). -/
def winPlace (core addr : Nat) : Nat × Nat := (core / 4 * 4 + addr / 2 ^ 20 % 4, addr % 2 ^ 20)

/-- Whether n bytes of a window address lie in the scratchpad of a Team of a Kernel (R202, R240). -/
def State.winOk (s : State) (kernel : Option Nat) (core addr n : Nat) : Bool :=
  match kernel with
  | some k => decide (addr < 2 ^ 22) && (s.teamAtPool k (winPlace core addr).1 (winPlace core addr).2 n).isSome
  | none => false

/-- Destination rows of a copy command: window address and length (R240, R242). -/
def windowRows (cmd : List Byte) : List (Nat × Nat) :=
  if cmdFmt cmd = 1 then
    let c := copyCmd cmd
    if c.dwin then (upFrom 0 c.rows).map (fun r => (if r = 0 then c.dst else (c.dst + r * c.dstride) % 2 ^ 22, c.len)) else []
  else if cmdFmt cmd = 2 then
    let c := gatherCmd cmd
    if c.dwin then (upFrom 0 c.n).map (fun i => (if i = 0 then c.dst else (c.dst + i * c.rowlen) % 2 ^ 22, c.rowlen)) else []
  else []

/-- The destination byte range of a copy on each core that it lands on (R205). -/
def landingRanges (core : Nat) (rows : List (Nat × Nat)) : List (Nat × Nat × Nat) :=
  (unionNat [] (rows.map (fun r => (winPlace core r.1).1))).map (fun c =>
    let mine := (rows.filter (fun r => (winPlace core r.1).1 == c)).map (fun r => ((winPlace core r.1).2, (winPlace core r.1).2 + r.2))
    let lo := mine.foldl (fun m r => min m r.1) (2 ^ 20)
    let hi := mine.foldl (fun m r => max m r.2) 0
    (c, lo, hi - lo))

/-- Entries of a core's range scoreboard (R205). -/
def boardSize : Nat := 128

/-- A copy's ranges on the scoreboards that have room, each once (R205). -/
def State.register (s : State) (op core : Nat) (rows : List (Nat × Nat)) : State :=
  (landingRanges core rows).foldl (fun s r =>
    let k := s.core r.1
    if k.board.any (fun x => x.op == op) || decide (boardSize ≤ k.board.length) then s
    else s.setCore r.1 { k with board := k.board ++ [{ op := op, lo := r.2.1, len := r.2.2 }] }) s

/-- Whether every scoreboard that a copy lands on holds its range (R205). -/
def State.registered (s : State) (op core : Nat) (rows : List (Nat × Nat)) : Bool :=
  (landingRanges core rows).all (fun r => (s.core r.1).board.any (fun x => x.op == op))

/-- A retired copy's entries are removed (R205). -/
def State.unregister (s : State) (op : Nat) : State :=
  { s with cores := s.cores.map (fun e => (e.1, { e.2 with board := e.2.board.filter (fun r => r.op != op) })) }

/-! ## Sending (R234) -/

/-- The engine instance that serves a queue for a core (R232). -/
def queueInst (q core : Nat) : Nat := if q = 0 || q = 1 then core else if q = 2 || q = 4 then dieOf core else if q = 3 then 0 else q % 16

/-- Commands accepted and not completed at an instance (R232). -/
def State.accepted (s : State) (q inst : Nat) : Nat :=
  (s.ops.filter (fun e => e.2.q == q && e.2.inst == inst)).length

/-- The event by which a command leaves, by format and variant (R238). -/
def leaveEvent (id : Nat) (cmd : List Byte) : Option Instr :=
  match cmdFmt cmd with
  | 1 => some (.copy id)
  | 2 => some (.gather id)
  | 3 => some (match cmdVar cmd with | 0 => .collRs id [] | 1 => .collAg id [] | 2 => .collXorrs id [] | _ => .collXorrb id [])
  | 4 => some (.srch id)
  | 5 => some (match cmdVar cmd with | 0 => .updInsert id | 1 => .updDelete id | _ => .updLink id)
  | 6 => some (.publ id)
  | 7 => some (.redn id)
  | 8 => some (.enq id)
  | 9 => some (.mcast id)
  | _ => none

/-- The next number of a timeline is assigned (R114). -/
def State.assign (s : State) (ctx q : Nat) : Nat × State :=
  let t := s.timeline ctx q
  (t.assigned + 1, s.setTimeline ctx q { t with assigned := t.assigned + 1 })

/-- The rows that a command lands on scratchpad and registers: none where its header or a field is bad (R205, R238). -/
def landingRows (cmd : List Byte) : List (Nat × Nat) :=
  if cmdFmt cmd = 1 then (if (copyBad cmd).isSome then [] else windowRows cmd)
  else if cmdFmt cmd = 2 then (if (gatherBad cmd).isSome then [] else windowRows cmd)
  else []

/-- A command enters its queue, with its number, or 0 where it is given one when it leaves (R289). A scratchpad destination is
registered at once (R205). -/
def State.enter (s1 : State) (q ctx core n : Nat) (kernel team : Option Nat) (node : Option (Nat × Nat)) (cmd : List Byte) : State :=
  let id := s1.nextId
  let op : Op := { q := q, inst := queueInst q core, ctx := ctx, kernel := kernel, team := team, core := core, num := n, cmd := cmd,
                   state := .queued, pos := 0, units := 0, status := 0, stva := none, node := node, pages := [], wants := none,
                   iovf := false, aux := [] }
  let s2 := { s1 with ops := s1.ops.set id op, nextId := id + 1, agenda := s1.agenda ++ (leaveEvent id cmd).toList }
  s2.register id core (landingRows cmd)

/-- A pushed command is sent with the next number of its timeline (R234): the number, and the machine. -/
def State.send (s : State) (q ctx core : Nat) (kernel team : Option Nat) (cmd : List Byte) : Nat × State :=
  let r := s.assign ctx q
  (r.1, r.2.enter q ctx core r.1 kernel team none cmd)

/-- A pushed command leaves as its Chunk commits (R86): the commands of a Context leave in the order in which they were sent, and with that
in the order of their numbers (R235). A node's command, which has no number yet, leaves behind the pushed ones of its queue (R289). -/
def State.earlierQueued (s : State) (id : Nat) (o : Op) : Bool :=
  s.ops.any (fun e => e.2.ctx == o.ctx && e.2.num != 0 && e.2.state == .queued
    && (if o.num = 0 then e.2.q == o.q && e.2.inst == o.inst else decide (e.1 < id)))

/-! ## Translation (R236) -/

/-- What translation of an engine's addresses finds. -/
inductive Reach
  | ok (pages : List Tlb)
  | refused
  | missing (va : Nat) (acc : AccKind)

/-- Granules of n bytes at a virtual address. -/
def granules (va n : Nat) : List Nat := if n = 0 then [] else upFrom (granOf va) (granOf (va + n - 1) + 1 - granOf va)

/-- An address to test within a granule: its first byte that the access names. -/
def granVa (va gr : Nat) : Nat := max va (gr * 2 ^ 18)

/-- Translate every Page of an engine's accesses: high bits, then missing translations, then refusals (R194, R236). -/
def State.reach (s : State) (ctx : Nat) (rs : List (Nat × Nat × AccKind)) : Reach :=
  if rs.any (fun r => decide (2 ^ 57 < r.1 + r.2.1)) then .refused
  else
    let gs := rs.foldl (fun acc r => acc ++ (granules r.1 r.2.1).map (fun g => (granVa r.1 g, r.2.2))) []
    match gs.find? (fun g => (s.tlbAt engineTlb ctx g.1).isNone) with
    | some g => .missing g.1 g.2
    | none =>
      if gs.any (fun g => match s.tlbAt engineTlb ctx g.1 with | some t => !s.allowed ctx t g.1 g.2 | none => true) then .refused
      else .ok ((gs.filterMap (fun g => s.tlbAt engineTlb ctx g.1)).foldl (fun acc t => if acc.contains t then acc else acc ++ [t]) [])

/-- The physical address of a virtual address under the translations that a command has made: these stay its own while it runs (R352). -/
def paOf (ts : List Tlb) (va : Nat) : Nat :=
  match ts.find? (fun t => t.maps t.ctx va) with | some t => t.phys va | none => 0
def Op.pa (o : Op) (va : Nat) : Nat := paOf o.pages va

/-- Items that write bytes at a translated virtual address, Page by Page. -/
def putAt (ts : List Tlb) (va : Nat) (bytes : List Byte) : List BufItem :=
  if granOf va = granOf (va + bytes.length - 1) then [storeItem (paOf ts va) bytes]
  else (bytes.zip (upFrom va bytes.length)).map (fun x => storeItem (paOf ts x.2) [x.1])

/-- Translations added to those made before. -/
def addPages (a b : List Tlb) : List Tlb := b.foldl (fun acc t => if acc.contains t then acc else acc ++ [t]) a

def State.op? (s : State) (id : Nat) : Option Op := s.ops.get? id
/-- The die and the endpoint of an operation's engine (R93, R395). -/
def Op.die (o : Op) : Nat := engineDie o.q o.inst
def Op.place (o : Op) : Nat := engineEnd o.q o.inst
def State.setOp (s : State) (id : Nat) (o : Op) : State := { s with ops := s.ops.set id o }

/-- An operation waits for a walk (R236, R350). -/
def State.engineWalk (s : State) (id : Nat) (o : Op) (va : Nat) (acc : AccKind) : State :=
  let gr := granOf va
  let s1 := s.setOp id { o with wants := some gr }
  if s.faulted.contains (o.ctx, gr) then s1 else s1.askWalk o.ctx va (engineDie o.q o.inst) engineTlb acc

/-! ## Units and completion (R93, R237) -/

/-- The lines that an operation accesses are tagged with its Kernel's chain (R362). -/
def State.tagOp (s : State) (o : Op) (sectors : List Nat) : State :=
  s.tagFor o.ctx ((o.kernel.bind s.kernels.get?).elim 0 (fun k => k.launch.chain)) sectors

/-- An engine Chunk is offered to its die's arbiter (R93). -/
def State.offerUnit (s : State) (id : Nat) (o : Op) (items : List BufItem) : State :=
  let t := s.tagOp o (items.foldl (fun acc it => acc ++ itemSectors it) [])
  { t.setOp id { o with units := o.units + 1 } with
    offers := s.offers ++ [{ die := o.die, clk := s.clk, what := .engine id items }]
    agenda := s.agenda ++ [.commitBatch (s.partOfDie o.die)] }

/-- The data of an operation is complete: its scoreboard entries go (R205), and its status word is the next engine Chunk, or it completes (R237). -/
def State.finishOp (s0 : State) (id : Nat) (o : Op) (status : Nat) : State :=
  let s := (s0.unregister id).unparkReq (.op id)
  let o1 := { o with state := .status, status := status, wants := none }
  match o.stva with
  | some va => s.offerUnit id o1 (putAt o.pages va (toBytes 4 status))
  | none => (s.setOp id o1).due [.operationComplete id]

/-- The status address of a command is checked (R236): the address, none where it is 0, and its translations, or the status that ends the
command without a status word. -/
inductive StatusAt
  | at_ (va : Option Nat) (pages : List Tlb)
  | missing (va : Nat)
  | refused

def State.statusAt (s : State) (ctx va : Nat) : StatusAt :=
  if va = 0 then .at_ none []
  else match s.reach ctx [(va, 4, .engWrite)] with
    | .ok ps => .at_ (some va) ps
    | .missing v _ => .missing v
    | .refused => .refused

/-- The status with which a command ends whose status address, or one of its Pages, cannot be had: a bad header or field counts whatever else
the command names (R238). -/
def Op.endsWith (o : Op) (status : Nat) : Nat := if o.status / 2 ^ 24 = 1 then o.status else status

/-- A command that has left has its status address translated, and, unless it was judged at its leaving, its Pages (R236); then it runs by k.
A status known by then is reported at a status address that can be written, and ends the command without one elsewhere (R238). -/
def translateWith (id : Nat) (self : Instr) (reqs : State → Op → List (Nat × Nat × AccKind)) (k : State → Op → State) (s : State) (o : Op) :
    State :=
  match s.statusAt o.ctx (cmdStaddr o.cmd) with
  | .missing va => (s.engineWalk id o va .engWrite).due [self]
  | .refused => s.finishOp id { o with stva := none } (o.endsWith stPROT)
  | .at_ va ps =>
    let o1 := { o with stva := va, pages := ps }
    if o.status ≠ 0 then s.finishOp id o1 o.status
    else
      match s.reach o.ctx (reqs s o) with
      | .refused => s.finishOp id o1 stPROT
      | .missing va acc => (s.engineWalk id o va acc).due [self]
      | .ok qs => k s { o1 with pages := addPages ps qs, wants := none }

/-- Whether a command is given to its engine on the die where it was pushed, or by its node; elsewhere it comes in a packet (R395). -/
def Op.nearby (o : Op) : Bool := o.node.isSome || dieOf o.core == o.die

/-- How a command leaves (R86, R235): earlier ones first; at its leaving, a node's command gets its number (R289), and atLeave; from then on,
later commands may leave, and k2 goes on with it, once it has reached its engine. -/
def leaveThen (id : Nat) (self : Instr) (atLeave : State → Op → State × Op) (k2 : State → Op → State) (s : State) : State :=
  match s.op? id with
  | none => s
  | some o =>
    if o.state = .translating then (if s.crossing (pushTag id) then s.due [self] else k2 s o)
    else if o.state != .queued then s
    else if s.earlierQueued id o then s.due [self]
    else
      let n := if o.num = 0 then s.assign o.ctx o.q else (o.num, s)
      let r := atLeave n.2 { o with state := .translating, num := n.1 }
      let t := r.1.setOp id r.2
      if o.nearby then k2 t r.2 else (t.sendPacket o.core o.place (pushTag id)).due [self]

/-- A command leaves, and is judged then (R238, R241, R399): the status that ends it, if any; then it is translated, and runs. -/
def leaveWith (id : Nat) (self : Instr) (judge : State → Op → Option Nat) (reqs : State → Op → List (Nat × Nat × AccKind))
    (k : State → Op → State) (s : State) : State :=
  leaveThen id self (fun s o => (s, { o with status := (judge s o).getD 0 })) (translateWith id self reqs k) s

/-- An operation that has not yet been translated. -/
def Op.starting (o : Op) : Bool := o.state == .queued || o.state == .translating

/-- A sector-sized piece of a transfer: source and destination, physical or in a pool (core, address), and its length. -/
inductive Loc
  | mem (pa : Nat)
  | pool (core a : Nat)
deriving DecidableEq, Repr

structure Piece where
  src : Loc
  dst : Loc
  len : Nat
deriving DecidableEq, Repr

/-- Bytes left of a sector at a location. -/
def Loc.room (l : Loc) : Nat := match l with | .mem pa => 32 - pa % 32 | .pool _ a => 32 - a % 32

/-- Bytes at a location, as a read is served now (R116). -/
def State.locBytes (s : State) (l : Loc) (n : Nat) : List Byte :=
  match l with | .mem pa => s.readPhys pa n | .pool c a => (s.core c).pool.bytes a n

/-- Whether the source of a piece is poisoned (R365). -/
def State.piecePoison (s : State) (p : Piece) : Bool := match p.src with | .mem pa => s.poisoned pa p.len | .pool _ _ => false

/-- Pieces of a stream of n bytes from position p: sector by sector, m pieces at most. -/
def pieces (src dst : Nat → Loc) (left : Nat → Nat) : Nat → Nat → Nat → List Piece
  | 0, _, _ => []
  | m + 1, p, n =>
    if n ≤ p then []
    else
      let l := max 1 (min (min (left p) (n - p)) (min (src p).room (dst p).room))
      { src := src p, dst := dst p, len := l } :: pieces src dst left m (p + l) n

/-- An operation reads at physical addresses, as its n-th request: it asks homes on other dies (R395), and waits on the way or at a home (R363,
R366, R394); then its lines are tagged (R362), it has been served, and goes on by k. -/
def State.opReads (s : State) (id : Nat) (o : Op) (n : Nat) (pas : List Nat) (again : Instr) (k : State → State) : State :=
  match s.askAcross o.place (readTag id n) pas with
  | some t => t.due [again]
  | none =>
    match pas.find? (s.waitsFor (.op id) o.die) with
    | some pa => (s.await pa (.op id)).due [again]
    | none => k ((s.unparkReq (.op id)).tagOp o (unionNat [] (pas.map (· / 32))))

/-- What one engine Chunk of a transfer does: memory pieces become one unit, pool pieces land (R93, R116, R205). -/
def State.movePieces (s : State) (id : Nat) (o : Op) (ps : List Piece) (again : Instr) : State :=
  s.opReads id o (2 * o.pos) (ps.filterMap (fun p => match p.src with | .mem pa => some pa | .pool _ _ => none)) again (fun s =>
    if ps.any s.piecePoison then s.finishOp id o stUCE
    else
      let n := ps.foldl (fun n p => n + p.len) 0
      let o1 := { o with state := .left, pos := o.pos + n }
      let items := ps.filterMap (fun p => match p.dst with | .mem pa => some (storeItem pa (s.locBytes p.src p.len)) | .pool _ _ => none)
      let s1 := ps.foldl (fun s p => match p.dst with | .pool c a => s.poolPut c a (s.locBytes p.src p.len) | .mem _ => s) (s.setOp id o1)
      if items.isEmpty then s1.due [again] else s1.offerUnit id o1 items)

end Sys2Proof.Machine
end

