-- ==== Sys2Proof/Machine/System.lean ====
section
/-! DEFINITION. Major 0x3E: TRAP, TRET, SREGR, SREGW, WAITT, CAPQ, BKPT, SYNCI (R256 to R264), and a Context's capacity (R262, R415). -/

namespace Sys2Proof.Machine

/-! ## Capacity (R262, R415) -/

/-- Unit words (R407). -/
def unitChannel (n : Nat) : Nat := 3 * 4096 + n
def unitPort (n : Nat) : Nat := 2 * 4096 + n
def unitLane (n : Nat) : Nat := 4096 + n
def unitNcl (n : Nat) : Nat := 4 * 4096 + n

/-- Cores of a partition that count as available (R409, R415). -/
def State.coreSet (s : State) (p : Nat) : List Nat :=
  let m := s.clustersOf p
  (upFrom 0 384).filter (fun c => bitAt m (c / 4) && (match (s.unit c).state with | .inService => true | .requested => true | _ => false))

/-- Channels of a partition not Retired. -/
def State.channelSet (s : State) (p : Nat) : List Nat :=
  let m := s.stacksOf p
  (upFrom 0 512).filter (fun c => bitAt m (c / 32) && (s.unit (unitChannel c)).state != .retired)

/-- NSL ports of a partition Up and not Retired. -/
def State.portSet (s : State) (p : Nat) : List Nat :=
  (upFrom 0 12).filter (fun n => bitAt (s.nslOf p) n && (s.link (linkPort n)).state == .up && (s.unit (unitPort n)).state != .retired)

/-- The capacity word (R262). -/
def State.capacity (s : State) (ctx : Nat) : Nat :=
  let p := (s.ctx ctx).part
  (s.portSet p).length * 2 ^ 20 + (s.channelSet p).length * 2 ^ 10 + (s.coreSet p).length

/-! ## Traps -/

/-- TRAP (R257): taken after its Chunk has committed. -/
def execTrap (h : Bool) (c : Nat) (s : State) : Out :=
  issueWord descControl (fun is _ =>
    .go { ends := some (.trap { cause := causeTRAP, code := h.toNat * 128 + c, val := 0, pc := is.pc + 4 } is.lanes) }) s

/-- TRET (R258). -/
def execTret (s : State) : Out :=
  issueWord { vec := false } (fun is _ =>
    if is.g.inTrap.isNone then .trap causePROT 0x500
    else .go { post := fun s => s.leaveTrap is.core is.slot is.lanes }) s

/-! ## Special registers -/

/-- The value of a special register for a lane (R71). -/
def Issue.sreg (is : Issue) (s : State) (n lane : Nat) : Nat :=
  let u (off : Nat) : Nat := s.poolNum is.core (is.rb + off) 4
  if n = 0 then lane
  else if n = 1 then u 0xC8
  else if n = 2 then u 0xD0
  else if n = 3 then u 0xD4
  else if n = 4 then u 0xD8
  else if n = 5 then u 0xDC
  else if n = 6 then coreInCluster is.core
  else if n = 7 then clusterOf is.core % 24
  else if n = 8 then dieOf is.core
  else if n = 9 then u offLpart
  else if n = 10 then s.clk % 2 ^ 64
  else if n = 11 then s.sec % 2 ^ 32 * 2 ^ 32 + s.ns
  else if n = 12 then u offWtimeh
  else if n = 13 then u offChunkstat
  else if n = 14 then (s.ctx is.ctx).capcount
  else if n = 15 then u offTrapcause
  else if n = 16 then u offTrapval
  else if n = 17 then u offTrappc
  else if n = 18 then u 0xCC
  else if n = 19 then (s.core is.core).poolpart
  else (s.ctx is.ctx).privl

/-- clk and wtime are 64 bits wide. -/
def sregWide (n : Nat) : Bool := n == 10 || n == 11

/-- The latch that a read of wtime takes (R74). -/
def wtimehLatch (s : State) : Nat := s.disc.unlk.toNat * 2 ^ 31 + s.sec / 2 ^ 32 % 2 ^ 16

/-- SREGR (R259). -/
def execSregr (x : Bool) (d a : Nat) (s : State) : Out :=
  let w := sregWide a
  issueWord { vec := false, vd := if x then opS d w else opV d w } (fun is s =>
    let latch := if a = 11 then [(is.rb + offWtimeh, toBytes 4 (wtimehLatch s))] else []
    let n := if w then 8 else 4
    if x then .go { raw := latch ++ [(sAddr is.rb d, toBytes n (is.sreg s a (is.lanes.headD 0)))] }
    else .go { raw := latch, pool := is.lanes.foldl (fun acc l =>
        let v := is.sreg s a l
        acc ++ (if w then [(is.core, vAddr is.rb d l, toBytes 4 v), (is.core, vAddr is.rb (d + 1) l, toBytes 4 (v / 2 ^ 32))]
          else [(is.core, vAddr is.rb d l, toBytes 4 v)])) [] }) s

/-- SREGW (R260, R75): takes effect at commit. -/
def execSregw (d a : Nat) (s : State) : Out :=
  issueWord { descControl with vd := opS d false } (fun is s =>
    let v := is.sRd s d
    let c := v % 8
    if a = 9 then (if c = 0 || c = 6 || c = 7 then .trap causeILL (illVal .code) else .go { ends := some .run, acts := [.sregw a v] })
    else if a = 13 || a = 17 then .go { ends := some .run, acts := [.sregw a v] }
    else .trap causePROT a) s

/-- The write of SREGW at commit (R260): lpart's code, iovf, trappc without bits 1:0. -/
def State.writeSreg (s : State) (c slot n v : Nat) : State :=
  if n = 9 then s.setSpecial c slot offLpart (v % 8)
  else if n = 17 then s.setSpecial c slot offTrappc (v / 4 * 4)
  else
    let st := s.chunkstat c slot
    s.setSpecial c slot offChunkstat (mkStat (statLimlog st) (statSqcnt st) (statSolo st) (bitAt v 0))

/-! ## Time, capacity, debugging, code -/

/-- WAITT (R261). -/
def execWaitt (d : Nat) (s : State) : Out :=
  issueWord { vec := false, vd := opS d true } (fun is s =>
    let ns := is.sRd s d
    let sec := is.sRd s (d + 1)
    if 10 ^ 9 ≤ ns then .trap causePROT 0x600
    else if timeReached s.sec s.ns sec ns then .go {} else .wait (.time sec ns)) s

/-- CAPQ (R262). -/
def execCapq (d : Nat) (s : State) : Out :=
  issueWord { vec := false, vd := opS d true } (fun is s =>
    .go (is.sResult64 d (s.capacity is.ctx + (s.ctx is.ctx).capcount * 2 ^ 32))) s

/-- BKPT (R263): NOP unless the Context's dbg is set; then the Chunk before it ends, and the Group halts. -/
def execBkpt (s : State) : Out :=
  issueWord { vec := false } (fun is s => if (s.ctx is.ctx).dbg then .before (.halt is.lanes) else .go {}) s

/-- SYNCI (R264). -/
def execSynci (s : State) : Out :=
  issueWord { vec := false } (fun is _ =>
    .go { post := fun s => s.setCore is.core { s.core is.core with icache := [] } }) s

end Sys2Proof.Machine
end

