-- ==== Sys2Proof/Machine/Commit.lean ====
section
/-! DEFINITION. The commit of a Group's Chunk: what becomes of its buffer, its at-commit effects (R86, R90, R96) and its Group (R321,
R322); the arbiter's batch, solo running and the broadcast (R89, R93 to R97, R101). -/

namespace Sys2Proof.Machine

/-! ## Retirement of a Group (R322) -/

/-- An image whose core has no Group and no Team's home any more becomes Absent (R273). -/
def State.dropImage (s : State) (kid gid c : Nat) : State :=
  let k := s.core c
  if k.groups.isEmpty && !(s.teams.any (fun e => e.2.kernel == kid && !e.2.away && e.2.home == c)) then
    let s1 := s.emptyCore c
    match s1.kernels.get? kid with
    | some x => match x.gangs.get? gid with
      | some g =>
        let g1 := { g with images := g.images.filter (fun i => i.core != c || i.state == .saved) }
        { s1 with kernels := s1.kernels.set kid { x with gangs := x.gangs.set gid g1 } }
      | none => s1
    | none => s1
  else s

/-- A Gang with no Team and none to form again ends; its cluster's lines check in for the end of the grid (R105, R308, R313). -/
def State.endGang (s : State) (kid gid : Nat) : State :=
  match s.kernels.get? kid with
  | some x => match x.gangs.get? gid with
    | some g =>
      if (s.teamsOfGang kid gid).isEmpty && g.again.isEmpty && g.images.isEmpty then
        let s1 := { s with kernels := s.kernels.set kid { x with gangs := x.gangs.erase gid } }
        (s1.checkedOut g.cluster).foldl (fun s ln => s.checkIn g.cluster ln) s1
      else s
    | none => s
  | none => s

/-- What a Group's retirement may let happen: a waiting Team, the Kernel's completion. -/
def kernelEvents (kid : Nat) : List Instr := [.teamFormation kid, .kernelComplete kid]

/-- A Group's reservation leaves the stores, and the records of its continuation Team (R316, R322). -/
def State.leaveStores (s : State) (uid : Nat) (team : Option Nat) : State :=
  { s with stores := s.stores.map (fun d =>
      (d.1, { d.2 with reserved := d.2.reserved.erase uid, recs := d.2.recs.filter (fun r => team.isNone || r.2.team != team) })) }

/-- The Group retires (R322): its slot, reservation and records go; its Team when it was the last (R310). -/
def State.retireGroup (s : State) (c slot : Nat) : State :=
  match s.group? c slot, (s.core c).kernel with
  | some g, some kid =>
    let k := s.core c
    let s1 := s.setCore c { k with groups := k.groups.erase slot, active := k.active.filter (fun a => a.slot != slot) }
    let cont : Bool := match s1.teams.get? g.team with | some t => t.recs.isSome | none => false
    let s2 : State := s1.leaveStores g.uid (if cont then some g.team else none)
    match s2.teams.get? g.team with
    | some t =>
      let last := !(t.cores.any (fun c => (s2.core c).groups.any (fun e => e.2.team == g.team)))
      let s3 := if last then s2.releaseTeam g.team else s2
      let s4 := (unionNat [c] t.cores).foldl (fun s c => s.dropImage kid t.gang c) s3
      ((s4.endGang kid t.gang).settleSuspend (s.ctxAt c)).due (kernelEvents kid)
    | none => s2.dropImage kid 0 c
  | _, _ => s

/-! ## At-commit effects -/

/-- The event that performs a landing. -/
def landingEvent (id : Nat) (a : AtCommit) : List Instr :=
  match a with
  | .stw _ _ _ => [.stwLanding id]
  | .rwr _ _ _ _ _ _ => [.rwrLanding id]
  | .kwrite _ _ => [.kWrite id]
  | .ringp _ _ _ => [.ringAtCommit id]
  | .ringrel _ _ _ => [.ringAtCommit id]
  | _ => []

/-- A message from a core to another: on another die it is a packet (R395). -/
def State.message (s : State) (src dst tag : Nat) : State := if dieOf src = dieOf dst then s else s.sendPacket src dst tag

/-- An effect leaves for a core (R204, R215, R253, R333). -/
def State.sendLanding (s : State) (c slot uid target stamp : Nat) (a : AtCommit) : State :=
  let id := s.nextId
  ({ s with nextId := id + 1, agenda := s.agenda ++ landingEvent id a
            landings := s.landings.set id { core := c, slot := slot, uid := uid, target := target, stamp := stamp, act := a } } : State).message
    c target (landTag id)

/-- Bits of m(full) for lanes of an entry (R234). -/
def withLanes (old : Nat) (ls : List Nat) (v : Bool) : Nat :=
  lanes32.foldl (fun acc l => if (if ls.contains l then v else bitAt old l) then acc + 2 ^ l else acc) 0

/-- PUSH at commit (R234); the lanes parked at a WAITM meet the full flags at once (R192). -/
def State.pushNow (s : State) (c slot q : Nat) (cmd : List Byte) (pair full : Nat) (lanes : List Nat) : State :=
  let rb := regBase (s.launchAt c) slot
  let old := s.poolNum c (mAddr rb full) 4
  if s.accepted q (queueInst q c) < queueDepth q then
    let r := s.send q (s.ctxAt c) c (s.core c).kernel ((s.group? c slot).map (·.team)) cmd
    ((r.2.poolPut c (sAddr rb pair) (toBytes 8 r.1)).poolPut32 c (mAddr rb full) (withLanes old lanes false)).retestWaitm c slot
  else ((s.poolPut c (sAddr rb pair) (toBytes 8 0)).poolPut32 c (mAddr rb full) (withLanes old lanes true)).retestWaitm c slot

/-- Records waiting for a Group of a (Kernel, entry), in order of delivery (R316): those of a partial Group wait no more (R317). -/
def ContStore.waiting (d : ContStore) (kid entry : Nat) : List (Nat × ContRec) :=
  d.recs.filter (fun r => r.2.kernel == kid && r.2.entry == entry && r.2.team.isNone && !d.forced.any (fun f => f.2.contains r.1))

/-- Records reach the gatherer (R316, R317). -/
def State.deliver (s : State) (die kid uid prio : Nat) (recs : List (List Byte)) : State :=
  recs.foldl (fun s r =>
    let entry := ofBytes (r.take 4)
    let d := s.store die
    let last := (d.last.filter (fun e => !(e.1 == kid && e.2.1 == entry))) ++ [(kid, entry, s.clk)]
    let s1 := s.setStore die { d with reserved := d.reserved.erase uid, last := last
                                      recs := d.recs.set s.nextId { kernel := kid, entry := entry, prio := prio, args := r.drop 4, team := none } }
    let ev := if s1.agenda.contains (.gathererTimeout die kid entry) then [] else [.gathererTimeout die kid entry]
    { s1 with nextId := s1.nextId + 1, agenda := s1.agenda ++ ev ++ (if s1.agenda.contains (.teamFormation kid) then [] else [.teamFormation kid]) }) s

/-- A trap at a Chunk boundary: taken before the next Chunk opens (R278). -/
def State.trapNow (s : State) (c slot : Nat) (t : TrapInfo) (lanes : List Nat) : State := (s.enterTrap c slot t lanes).openChunk c slot

/-- A Barrier use fault at commit (R218): the Chunk stands, the lanes wait no more, and the trap is taken. -/
def State.barrierTrap (s : State) (core slot val pc : Nat) (lanes : List Nat) : State :=
  (s.modGroup core slot (fun g => { g with hold := .none, lanes := (g.lanes.zip lanes32).map (fun x =>
    if lanes.contains x.2 then { x.1 with wait := .none } else x.1) })).trapNow core slot
    { cause := causePROT, code := 0, val := val, pc := pc } lanes

/-- A Barrier instruction's use faults that need no Barrier (R218, R307): trapval, or none. A BARI with a bad count reports that first,
whatever else is wrong with it (log 87). -/
def barFault (op : BarOp) (b nbar : Nat) : Option Nat :=
  match op with
  | .init n => if n = 0 || decide (4096 ≤ n) then some (0x200 + b) else if nbar ≤ b then some (0x800 + b) else none
  | _ => if nbar ≤ b then some (0x800 + b) else none

/-- A Barrier instruction's event leaves for the home core; the Group issues nothing until it has been applied (R339, log 12). -/
def State.sendBarrier (s : State) (c slot : Nat) (op : BarOp) (b pc : Nat) (lanes : List Nat) : State :=
  match s.group? c slot with
  | some g =>
    match s.teamOf g with
    | some t =>
      match barFault op b t.nbar with
      | some v => s.barrierTrap c slot v pc lanes
      | none =>
        let k := s.core t.home
        let bar := t.barBase + b
        let msgs := k.barMsgs.getD bar [] ++ [.group c slot g.uid pc lanes op]
        (((s.setCore t.home { k with barMsgs := k.barMsgs.set bar msgs }).modGroup c slot (fun g => { g with hold := .barrier })).message c t.home
          (barTag g.uid)).due [.barrierEvent t.home bar 1]
    | none => s
  | none => s

/-- One at-commit effect (R86, R90). Barrier events are made last (R86: the Barrier instruction is the Chunk's last word). -/
def State.atCommit (s : State) (c slot stamp : Nat) (g : Group) (a : AtCommit) : State :=
  let cl := clusterOf c
  match a with
  | .kwrite k v => match s.teamOf g with
    | some t => if t.home = c then s.poolPut32 c (t.kAddr k) v else s.sendLanding c slot g.uid t.home 0 (.kwrite (t.kAddr k) v)
    | none => s
  | .push q cmd pair full lanes => (s.pushNow c slot q cmd pair full lanes).release c slot
  | .rwr t _ _ _ _ _ => s.sendLanding c slot g.uid t stamp a
  | .stw t _ _ => s.sendLanding c slot g.uid t stamp a
  | .cont die kid prio recs => s.deliver die kid g.uid prio recs
  | .sregw n v => s.writeSreg c slot n v
  | .barrier _ _ _ _ => s.release c slot
  | .ringp h _ _ => s.sendLanding c slot g.uid h stamp a
  | .ringrel h _ _ => s.sendLanding c slot g.uid h stamp a
  | .evict ln => s.evictCopy cl ln
  | .evictHome ln => s.clusters.foldl (fun s e => s.checkIn e.1 ln) s
  | .ckin ln => s.checkIn cl ln
  | .yield l => (s.modGroup c slot (fun g => { g with ydem := 64, ykey := l })).due [.yieldDemotionEnd c slot]

/-! ## Buffers -/

/-- Whether an item belongs to the cluster's copy. -/
def isCl (it : BufItem) : Bool := match it with | .clStore _ _ => true | .clRed _ _ _ _ => true | .clAtom _ _ _ _ _ _ => true | _ => false

/-- Whether an item needs a stamp (R96). -/
def needsStamp (it : BufItem) : Bool := !isCl it

/-- A far element that reads a poisoned byte, past the stores of its unit before it: the address of its word (R98, R365). -/
def farPoison (s : State) (before : List BufItem) (it : BufItem) : Option Nat :=
  match it with
  | .farRed pc pa _ n _ => if s.poisonedPast before pa (n / 8) then some pc else none
  | .farAtom pc pa _ n _ _ _ => if s.poisonedPast before pa (n / 8) then some pc else none
  | _ => none

/-- A unit's items without the far elements that read poison, and the words of those. -/
def State.sound (s : State) : List BufItem → List BufItem → List BufItem × List Nat
  | _, [] => ([], [])
  | before, it :: r =>
    let x := s.sound (before ++ [it]) r
    match farPoison s before it with
    | some pc => (x.1, pc :: x.2)
    | none => (it :: x.1, x.2)

/-- A result of n bits in the pool: the high word of a pair lies in the next register. -/
def State.putResult (s : State) (c a n v : Nat) : State :=
  if n = 64 then (s.poolPut32 c a v).poolPut32 c (a + 128) (v / 2 ^ 32) else s.poolPut32 c a v

/-- Results of far ATOMs, element after element, over device memory as the unit's stamp finds it (R206, R208). -/
def State.farResults (s : State) (c : Nat) (m : Memory) : List BufItem → State
  | [] => s
  | it :: r =>
    let s1 := match it with
      | .farAtom _ pa _ n _ _ ret => s.putResult c ret n (ofBytes (physBytes s.regions m pa (n / 8)))
      | _ => s
    s1.farResults c (applyItem s.regions m it) r

/-- Bytes into a cluster's copy of one line. -/
def State.clPut (s : State) (cl pa : Nat) (bytes : List Byte) : State :=
  let s1 := s.checkOut cl (lineNo pa)
  match (s1.cluster cl).get? (lineNo pa) with
  | some x =>
    let o := pa % 64
    s1.setCluster cl ((s1.cluster cl).set (lineNo pa) { x with bytes := x.bytes.take o ++ bytes ++ x.bytes.drop (o + bytes.length) })
  | none => s1

/-- A .cl item performed in the cluster's copy (R90, R104). -/
def State.clItem (s : State) (c : Nat) (it : BufItem) : State :=
  let cl := clusterOf c
  match it with
  | .clStore pa bytes => s.clPut cl pa bytes
  | .clRed pa o n x =>
    let s1 := s.checkOut cl (lineNo pa)
    s1.clPut cl pa (toBytes (n / 8) (atomNew o n (ofBytes (s1.clusterBytes cl pa (n / 8))) x 0))
  | .clAtom pa o n x cmp ret =>
    let s1 := s.checkOut cl (lineNo pa)
    let old := ofBytes (s1.clusterBytes cl pa (n / 8))
    (s1.clPut cl pa (toBytes (n / 8) (atomNew o n old x cmp))).putResult c ret n old
  | _ => s

/-- Lines that the .cl items of a buffer touch. -/
def clLines (buf : List BufItem) : List Nat :=
  buf.filterMap (fun it => match it with
    | .clStore pa _ => some (lineNo pa) | .clRed pa _ _ _ => some (lineNo pa) | .clAtom pa _ _ _ _ _ => some (lineNo pa) | _ => none)

/-- Lines that a Chunk accesses at device scope and its own cluster holds checked out: they check in before it (R105). -/
def State.ownLines (s : State) (c : Nat) (g : Group) : List Nat :=
  let spans := (g.chunk.buf.filter needsStamp).filterMap itemSpan
  (unionNat [] (spans.foldl (fun acc x => acc ++ [lineNo x.1, lineNo (x.1 + x.2 - 1)]) [])).filter (fun ln =>
    match (s.cluster (clusterOf c)).get? ln with | some x => x.twin.isSome | none => false)

/-- What a Chunk waits for at the homes before it may commit: check-ins of a release (R108), of lines that it accesses at device scope (R105)
and of lines that it writes at cluster scope, and places for twins (R104). -/
def State.chunkWaits (s : State) (c : Nat) (g : Group) : Bool :=
  let cl := clusterOf c
  !g.release.isEmpty || !(s.ownLines c g).isEmpty
    || (clLines g.chunk.buf).any (s.checkingIn cl)
    || (s.twinsToEvict cl (clLines g.chunk.buf)).isSome

/-- What a Chunk that waits needs sent (R104, R105). -/
def State.makeRoom (s : State) (c : Nat) (g : Group) : State :=
  let s1 := (s.ownLines c g).foldl (fun s ln => s.checkIn (clusterOf c) ln) s
  match s1.twinsToEvict (clusterOf c) (clLines g.chunk.buf) with | some e => s1.checkIn e.1 e.2 | none => s1

/-- Whether another Chunk of the partition runs alone: no line is checked out beside it, for which it could have to wait (R89, R101). -/
def State.aloneElse (s : State) (c : Nat) (g : Group) : Bool :=
  (s.solo.get? (s.sealedOf (s.ctx (s.ctxAt c)).part)).isSome && g.chunk.phase != .soloRun && !(clLines g.chunk.buf).isEmpty

/-- A Chunk commits after what it waits for and after the broadcasts on their way to its core (R96, R97). -/
def State.commitBlocked (s : State) (c : Nat) (g : Group) : Bool := s.chunkWaits c g || s.aloneElse c g || !(s.core c).inbox.isEmpty

/-! ## The commit -/

/-- A capacity change is delivered to the entry of highest priority (R279, R280); while the image is to be saved, after its restore (R278); where
a BKPT halts the Group at that commit, after its resume (log 104). -/
def State.deliverCap (s : State) (c slot : Nat) : State :=
  match s.group? c slot with
  | some g =>
    match g.capPending with
    | some v =>
      if g.inTrap.isSome || g.hold == .barrier || g.preempt || !(g.state == .running || g.state matches .fenced _ _) then s
      else if (s.launchAt c).trapent = 0xFFFFFFFF then s.modGroup c slot (fun g => { g with capPending := none })
      else
        match s.topEntry c slot g with
        | some e =>
          let s1 := s.enterTrap c slot { cause := causeCAPCHG, code := 0, val := v, pc := e.pc } e.lanes
          (s1.modGroup c slot (fun x => { x with state := g.state, capPending := none })).openChunk c slot
        | none => s
    | none => s
  | none => s

/-- What happens to the Group after its Chunk (R321). -/
def State.afterCommit (s : State) (c slot : Nat) (a : After) : State :=
  match a with
  | .run => (s.modGroup c slot (fun g => { g with state := .running })).openChunk c slot
  | .fence k =>
    let s1 := (s.modGroup c slot (fun g => { g with state := .fenced k (clusterOf c) })).openChunk c slot
    (match k with | .cl => s1 | _ => s1.release c slot).due [.fenceWaitEnd c slot]
  | .trap t lanes => (s.modGroup c slot (fun g => { g with state := .running })).trapNow c slot t lanes
  | .halt lanes => (s.modGroup c slot (fun g => { g with state := .halted lanes })).openChunk c slot
  | .retire => s.retireGroup c slot

/-- Ring publications and releases, which come after every STW and RWR of their Chunk (R253). -/
def AtCommit.isRing (a : AtCommit) : Bool := match a with | .ringp _ _ _ => true | .ringrel _ _ _ => true | _ => false

/-- The Barrier event of a Chunk, which its last word makes. -/
def barrierOf (acts : List AtCommit) : Option (BarOp × Nat × Nat × List Nat) :=
  acts.foldl (fun o a => match a with | .barrier op b pc ls => some (op, b, pc, ls) | _ => o) none

/-- The commit of a Group's Chunk (R89, R90): stamped in its sealed partition when it writes at device scope, else local (R96). -/
def State.commitChunk (s : State) (c slot : Nat) : State :=
  match s.group? c slot, (s.core c).kernel with
  | some g, some kid =>
    let ch := g.chunk
    let part := s.sealedOf (s.ctx (s.ctxAt c)).part
    let far := s.sound [] (ch.buf.filter needsStamp)
    let bad := far.2
    let dev := far.1
    let stamped := ch.buf.any needsStamp
    let s1 := s.farResults c s.devMem dev
    let s2 := if stamped then s1.commitItems part (dieOf c) dev (some g.uid) none none else s1
    let stamp := if stamped then s2.lastStamp part else 0
    let s3 := (ch.buf.filter isCl).foldl (fun s it => s.clItem c it) s2
    let s4 := (ch.acts.filter (fun a => !a.isRing) ++ ch.acts.filter (·.isRing)).foldl (fun s a => s.atCommit c slot stamp g a) s3
    let st := s4.chunkstat c slot
    let s5 := if statSqcnt st = 0 then s4.setCore c { s4.core c with pred := lowerPredictor (s4.core c).pred ch.nearLines } else s4
    let s6 := s5.setSpecial c slot offChunkstat (statAfterCommit st)
    let s7 := ((s6.modGroup c slot (fun g => { g with mismatch := false, failed := [] })).leavePlaces c slot g.uid).unparkGroup c slot g.uid
    let s8 := if stamped then match s7.kernels.get? kid with
        | some k => { s7 with kernels := s7.kernels.set kid { k with stamp := stamp } }
        | none => s7
      else s7
    match bad with
    | pc :: _ => s8.consumeUCE c slot pc
    | [] =>
      let s9 := s8.afterCommit c slot ch.after
      let s10 := match barrierOf ch.acts with
        | some (op, b, pc, ls) => s9.sendBarrier c slot op b pc ls
        | none => s9
      s10.deliverCap c slot
  | _, _ => s

/-! ## CHUNK_READY (R87, R96) -/

/-- Whether a Group owns an MMA that has not retired (R228). -/
def ownsMma (k : Core) (slot uid : Nat) : Bool := k.order.any (fun m => m.follow.isNone && m.owner == (slot, uid))

/-- Lanes whose word waits for a walk, or in a home's fault queue: the Chunk is not complete (R87, R351, R363). -/
def State.accessWaits (s : State) (g : Group) : Bool :=
  g.lanes.any (fun l => match l.wait with | .walk _ _ => true | .parked n => !s.replayed g.uid n | _ => false)

/-- CHUNK_READY (R87): the ended Chunk is complete once its long-latency words have returned and its walks have ended; then it commits
locally (R96), commits alone in a solo holding (R89), or is offered to its die's arbiter. -/
def execChunkReady (c slot : Nat) (s : State) : Out :=
  match s.group? c slot with
  | none => .next s
  | some g =>
    if g.state != .committing then .next s
    else if !g.pend.isEmpty || ownsMma (s.core c) slot g.uid || s.accessWaits g then .next (s.due [.chunkReady c slot])
    else
      let part := s.sealedOf (s.ctx (s.ctxAt c)).part
      if g.chunk.phase = .soloRun then
        if s.chunkWaits c g then .next ((s.makeRoom c g).due [.chunkReady c slot])
        else .next ((s.commitChunk c slot).releaseSolo c slot g.uid part)
      else if g.chunk.buf.any needsStamp then
        if s.offers.any (fun o => o.what == .chunk c slot g.uid) then .next s
        else
          .next { s with offers := s.offers ++ [{ die := dieOf c, clk := g.chunk.endClk, what := .chunk c slot g.uid }]
                         agenda := s.agenda ++ [.commitBatch part] }
      else if s.commitBlocked c g then .next ((s.makeRoom c g).due [.chunkReady c slot])
      else .next (s.commitChunk c slot)

/-! ## COMMIT_BATCH (R94, R95) -/

/-- Rank of offers (R95): the clk, then Group Chunks first, then core and slot; else the order of offer. -/
def offerKey (o : Offer) : Nat × Nat × Nat × Nat :=
  match o.what with
  | .chunk c slot _ => (o.clk, 0, c, slot)
  | _ => (o.clk, 1, 0, 0)

def offerBefore (a b : Offer) : Bool :=
  let x := offerKey a
  let y := offerKey b
  if x.1 != y.1 then decide (x.1 < y.1)
  else if x.2.1 != y.2.1 then decide (x.2.1 < y.2.1)
  else if x.2.2.1 != y.2.2.1 then decide (x.2.2.1 < y.2.2.1)
  else decide (x.2.2.2 < y.2.2.2)

def insertOffer (o : Offer) : List Offer → List Offer
  | [] => [o]
  | p :: r => if offerBefore o p then o :: p :: r else p :: insertOffer o r

def sortOffers (os : List Offer) : List Offer := os.foldl (fun acc o => insertOffer o acc) []

/-- Whether a Solo-wait Chunk may run (R89): its Group can issue, and no check-in that it would wait for is on its way, which could not be
stamped while it holds the token (R101, log 13). -/
def State.soloReady (s : State) (c : Nat) (g : Group) : Bool :=
  g.chunk.phase == .soloWait && g.hold == .none && g.state == .running && !g.preempt && g.release.isEmpty
    && !s.offers.any (fun o => match o.what with | .checkin cl _ => cl == clusterOf c | _ => false)

/-- Solo-wait Chunks of a die that may run: core, slot and uid (R89, R101). -/
def State.soloWaiting (s : State) (die : Nat) : Option (Nat × Nat × Nat) :=
  s.cores.findSome? (fun e =>
    if dieOf e.1 = die then (e.2.groups.find? (fun g => s.soloReady e.1 g.2)).map (fun g => (e.1, g.1, g.2.uid)) else none)

/-- Whether an offered unit may be taken now. -/
def State.offerOpen (s : State) (o : Offer) : Bool :=
  match o.what with
  | .chunk c slot uid => match s.group? c slot with
    | some g => g.uid == uid && g.state == .committing && !s.commitBlocked c g
    | none => false
  | _ => true

/-- Whether a die's arbiter has something to do. -/
def State.arbiterBusy (s : State) (die : Nat) : Bool :=
  (s.soloWaiting die).isSome || s.offers.any (fun o => o.die == die && s.offerOpen o)

/-- Dies in the token's order from the one after it (R94). -/
def diesFrom (token : Nat) : List Nat :=
  let i := (ringOrder.findIdx (· == token)) + 1
  ringOrder.drop i ++ ringOrder.take i

/-- The bytes in which a copy differs from its twin, as items (R106). -/
def diffItems (pa : Nat) (new old : List Byte) : List BufItem :=
  ((new.zip old).zip (upFrom pa new.length)).filterMap (fun x => if x.1.1 = x.1.2 then none else some (storeItem x.2 [x.1.1]))

/-- A check-in's stamp frees the releases that wait for it (R108). -/
def State.checkinStamped (s : State) (cl ln : Nat) : State :=
  { s with cores := s.cores.map (fun e =>
      if clusterOf e.1 = cl then
        (e.1, { e.2 with groups := e.2.groups.map (fun g => (g.1, { g.2 with release := g.2.release.filter (· != ln) })) })
      else e) }

/-- One unit of a batch takes its stamp (R93, R95). Stripe lines that have been computed are read from then on: the requests parked for them
are replayed (R403). -/
def State.commitUnit (s : State) (part die : Nat) (u : CUnit) : State :=
  match u with
  | .chunk c slot _ => s.commitChunk c slot
  | .engine id items =>
    let s1 := s.commitItems part die items none (some id) none
    match s1.ops.get? id with
    | some o =>
      let o1 := { o with units := o.units - 1 }
      let ev := if o1.units ≠ 0 then [] else if o1.state = .status then [.operationComplete id] else (leaveEvent id o.cmd).toList
      let s2 := (s1.setOp id o1).due ev
      if o.restores then s2.replay (fun ln => (itemAddrs s.regions items).any (fun a => lineKey s.regions a == ln)) else s2
    | none => s1
  | .checkin cl ln =>
    match (s.cluster cl).get? ln with
    | some x =>
      (s.commitItems part die (diffItems (ln * 64) x.bytes (x.twin.getD x.bytes)) none none (some (cl, ln))).checkinStamped cl ln
    | none => s
  | .host items => s.commitItems part die items none none none
  | .device p items op => s.commitItems p die items none op none

/-- The sectors that items write. -/
def itemsSectors (its : List BufItem) : List Nat := its.foldl (fun acc it => unionNat acc (itemSectors it)) []

/-- The write signature of a unit, as sectors (R90). -/
def State.unitWrites (s : State) (u : CUnit) : List Nat :=
  match u with
  | .chunk c slot _ => match s.group? c slot with | some g => g.chunk.writes | none => []
  | .engine _ items => itemsSectors items
  | .checkin cl ln => match (s.cluster cl).get? ln with
    | some x => itemsSectors (diffItems (ln * 64) x.bytes (x.twin.getD x.bytes))
    | none => []
  | .host items => itemsSectors items
  | .device _ items _ => itemsSectors items

/-- A k write on its Team's home core: the Group's index, the core, the pool address, the value. -/
structure KPut where
  index : Nat
  core : Nat
  addr : Nat
  val : Nat

/-- The k writes that a Chunk makes on its own core at commit. -/
def State.kPuts (s : State) (c : Nat) (g : Group) : List KPut :=
  match s.teamOf g with
  | some t => if t.home = c then g.chunk.acts.filterMap (fun a => match a with
      | .kwrite k v => some { index := g.index, core := c, addr := t.kAddr k, val := v }
      | _ => none) else []
  | none => []

/-- In ascending Group index, those of one Group in their order. -/
def insertK (k : KPut) : List KPut → List KPut
  | [] => [k]
  | p :: r => if k.index < p.index then k :: p :: r else p :: insertK k r

/-- Of the k writes of one core clk to one register, that of the highest Group index remains (R69, R333). -/
def State.landK (s : State) (ks : List KPut) : State := ks.foldl (fun s k => s.poolPut32 k.core k.addr k.val) s

/-- The batch: units in rank order, at most 32; a Group Chunk whose read signature meets the write signature of a unit of the batch is squashed
(R91, R95). A Chunk whose lines an
earlier unit of the batch has sent to check in waits for the next visit. -/
def State.batch (s : State) (part : Nat) : List Offer → Nat → List (List Nat) → List KPut → State
  | [], _, _, ks => s.landK ks
  | o :: r, n, written, ks =>
    if n = 0 then s.landK ks
    else
      let s0 := { s with offers := s.offers.erase o }
      match o.what with
      | .chunk c slot uid =>
        match s0.group? c slot with
        | some g =>
          if g.uid != uid || g.state != .committing then s0.batch part r n written ks
          else if s0.chunkWaits c g then s.batch part r n written ks
          else if written.any (sigHit g.chunk.reads) then (s0.squash c slot true).batch part r n written ks
          else
            let w := s.unitWrites (.chunk c slot uid)
            (s0.commitUnit part o.die o.what).batch part r (n - 1) (w :: written)
              ((s0.kPuts c g).foldl (fun ks k => insertK k ks) ks)
        | none => s0.batch part r n written ks
      | u => (s0.commitUnit part o.die u).batch part r (n - 1) (s.unitWrites u :: written) ks

/-- Units in a batch (R95). -/
def batchSize : Nat := 32

/-- A Solo-wait Chunk takes the token: it runs from its first word with solo set (R89). -/
def State.startSolo (s : State) (part c slot uid : Nat) : State :=
  let st := s.chunkstat c slot
  let s1 := s.setSpecial c slot offChunkstat (mkStat (statLimlog st) (statSqcnt st) true (statIovf st))
  let s2 := s1.modGroup c slot (fun g => { g with chunk := { g.chunk with phase := .soloRun, soloNs := s.wall } })
  { s2 with solo := s2.solo.set part (c, slot, uid), agenda := s2.agenda ++ [.soloTimeout] }

/-- Ended Chunks of a die that wait for check-ins have them sent (R104, R105). -/
def State.makeRooms (s : State) (die : Nat) : State :=
  s.offers.foldl (fun s o => match o.what with
    | .chunk c slot uid => if o.die = die then (match s.group? c slot with
        | some g => if g.uid = uid && s.chunkWaits c g then s.makeRoom c g else s
        | none => s) else s
    | _ => s) s

/-- COMMIT_BATCH (R94, R95): the token passes to the next arbiter with something to do that a way leads to (R394); a Solo-wait Chunk of that die takes it (R101,
log 13), else a batch is formed of the units that are open when the token arrives. It stays while a Solo-run Chunk holds it. -/
def execCommitBatch (part : Nat) (s : State) : Out :=
  if (s.solo.get? part).isSome then .next (s.due [.commitBatch part])
  else
    let at_ := s.token.getD part 2
    match (diesFrom at_).find? (fun d => bitAt (s.part part).dmask d && s.arbiterBusy d && (s.reaches at_ d || !bitAt (s.part part).dmask at_)) with
    | none =>
      let s1 := (s.diesOf part).foldl (fun s d => s.makeRooms d) s
      .next (if s1.offers.any (fun o => bitAt (s.part part).dmask o.die) then s1.due [.commitBatch part] else s1)
    | some d =>
      let s1 := { s with token := s.token.set part d }
      match s1.soloWaiting d with
      | some (c, slot, uid) => .next (s1.startSolo part c slot uid)
      | none =>
        let s2 := (s1.batch part (sortOffers (s1.offers.filter (fun o => o.die == d && s1.offerOpen o))) batchSize [] []).makeRooms d
        .next (if s2.offers.any (fun o => bitAt (s.part part).dmask o.die) then s2.due [.commitBatch part] else s2)

/-- SOLO_TIMEOUT (R89): 20 µs of token holding without an end return the Chunk to Solo-wait. -/
def execSoloTimeout (s : State) : Out :=
  if s.solo.isEmpty then .next s
  else
    let late := s.solo.filter (fun e => match s.group? e.2.1 e.2.2.1 with
      | some g => decide (g.chunk.soloNs + 20000 ≤ s.wall)
      | none => true)
    let s1 := late.foldl (fun s e => (s.squash e.2.1 e.2.2.1 false).releaseSolo e.2.1 e.2.2.1 e.2.2.2 e.1) s
    .next (if s1.solo.isEmpty then s1 else s1.due [.soloTimeout])

/-- SIGNATURE_BROADCAST (R97): the oldest broadcast on its way reaches a core; Open and Ended Chunks that read a written sector are
squashed. A Solo-run Chunk reads after every stamp (R89). To a core on another die it comes in a packet (R394, R395). -/
def execSignatureBroadcast (c : Nat) (s : State) : Out :=
  let k := s.core c
  match k.inbox with
  | [] => .next s
  | b :: r =>
    if s.crossingTo c (castTag (s.partOfDie (dieOf c)) b.stamp) then .next (s.due [.signatureBroadcast c])
    else
      let s1 := s.setCore c { k with inbox := r, seen := b.stamp }
      .next (k.groups.foldl (fun s e =>
        let live : Bool := (e.2.chunk.phase == .opened || e.2.chunk.phase == .ended)
        if live && sigHit e.2.chunk.reads b.sectors then s.squash c e.1 true else s) s1)

end Sys2Proof.Machine
end

