-- ==== Sys2Proof/Machine/Coherence.lean ====
section
/-! DEFINITION. The homes: differences applied (R98), parity (R360, R400 to R402), loads returning (R197, R365), landings (R204, R215,
R253, R333), fences (R110, R111), NCL (R113). -/

namespace Sys2Proof.Machine

/-! ## Parity (R360, R401, R402) -/

/-- The module's parity group. -/
def State.parGroup (s : State) : Option CollGroup :=
  (s.colls.find? (fun g => g.2.par && decide (g.2.msz ≠ 0))).map (fun g => g.2)

/-- Stripe coordinates of a location word (R401): g, L. -/
def stripeG (o : Nat) : Nat := field o 31 29
def stripeL (o : Nat) : Nat := field o 28 18 * 2 ^ 14 + field o 16 13 * 2 ^ 10 + field o 9 0

/-- The byte within the 4 KiB block. -/
def stripeOff (o pa : Nat) : Nat := field o 17 17 * 2 ^ 11 + field o 12 10 * 2 ^ 8 + pa % 256

/-- Rank of the parity holder, and the stripe, of a data location on the module of rank r (R401). -/
def stripeHolder (r o : Nat) : Nat := (r + 16 - stripeG o - 1) % 8
def stripeOf (r o : Nat) : Nat := 8 * stripeL o + stripeHolder r o

/-- The location word of a byte of a stripe's block with row bits g (R401). -/
def stripeLoc (stripe g off : Nat) : Nat :=
  let l := stripe / 8
  g * 2 ^ 29 + field l 24 14 * 2 ^ 18 + field off 11 11 * 2 ^ 17 + field l 13 10 * 2 ^ 13 + field off 10 8 * 2 ^ 10 + field l 9 0

/-- The key under which a byte of a stripe's block is kept. -/
def stripeKey (stripe g off : Nat) : Nat := stripeLoc stripe g off * 256 + off % 256

/-- XOR of bytes. -/
def xorBytes (a b : List Byte) : List Byte := (a.zip b).map (fun x => x.1 ^^^ x.2)

/-- A run of bytes cut at 256-byte units: address and bytes. -/
def unitRuns : Nat → Nat → List Byte → List (Nat × List Byte)
  | 0, _, _ => []
  | f + 1, pa, bs => if bs.isEmpty then [] else
    let n := 256 - pa % 256
    (pa, bs.take n) :: unitRuns f (pa + n) (bs.drop n)

/-- The module that holds a rank of the parity group has been lost (R397, R402). -/
def State.rankLost (s : State) (rank : Nat) : Bool :=
  match s.parGroup with | some g => s.unreachable.contains (g.mods.getD rank 0) | none => false

/-- Copies of a payload for a destination are no longer kept. -/
def State.dropCopies (s : State) (dst payload : Nat) : State :=
  { s with pairs := s.pairs.map (fun e => if e.1 % 2 ^ 17 = dst then (e.1, { e.2 with copies := e.2.copies.filter (fun c => c.2.1 != payload) }) else e) }

/-- One parity difference leaves for its holder (R360, R402). -/
def State.sendParity (s : State) (g : CollGroup) (stamp pa : Nat) (prot : Bool) (owner cluster : Option Nat) (d : List Byte) : State :=
  let o := locOf s.regions pa
  let q := stripeHolder g.self o
  let n := s.paritySeq.getD q 0
  let s1 := if s.rankLost q then s else s.sendPacket (sliceEnd (sliceOf s.regions pa)) (moduleEnd (g.mods.getD q 0)) n
  { s1 with
    paritySeq := s.paritySeq.set q (n + 1)
    parity := s.parity ++ [{ holder := q, seq := n, stripe := stripeOf g.self o, off := stripeOff o pa, bytes := d, stamp := stamp,
                             prot := prot, owner := owner, cluster := cluster }]
    agenda := s1.agenda ++ (if s.rankLost q then [] else [.parityAck q n]) }

/-- The parity differences of one applied item (R360, R400): old XOR new over its bytes, in device memory outside the parity store. -/
def State.parityOf (s : State) (m : Memory) (stamp : Nat) (prot : List Nat) (owner cluster : Option Nat) (it : BufItem) : State :=
  match s.parGroup, itemSpan it with
  | some g, some (pa, n) =>
    if isHost pa || inParityStore s.regions pa then s
    else
      let old := physBytes s.regions m pa n
      let new := physBytes s.regions (applyItem s.regions m it) pa n
      (unitRuns (n / 256 + 2) pa (xorBytes old new)).foldl (fun s r =>
        s.sendParity g stamp r.1 (prot.contains (lineKey s.regions r.1)) owner cluster r.2) s
  | _, _ => s

/-! ## DIFFERENCE_APPLY (R98) -/

/-- Whether a difference finds its line parking (R363): one committed before a frame's lines were marked is applied there (R355). -/
def State.parksFor (s : State) (d : Diff) (pa : Nat) : Bool :=
  ({ s with migrations := s.migrations.filter (fun m => !(m.part == d.part && decide (d.stamp ≤ m.bound))) } : State).parks pa

/-- The first address of a difference whose line parks (R363). -/
def State.diffParks (s : State) (d : Diff) : Option Nat := (itemAddrs s.regions d.items).find? (s.parksFor d)

/-- A .sy write to host memory (R113). -/
def isHostSy (it : BufItem) : Option Nat := match it with | .store sy _ pa _ => if sy && isHost pa then some pa else none | _ => none

/-- What a difference shares with others whose order at the homes is fixed: its lines (R98), on an enrolled module its stripes (R360), and
the order of .sy writes to host memory (R113). The three kinds are told apart by high bits. -/
def State.diffKeys (s : State) (d : Diff) : List Nat :=
  let as := itemAddrs s.regions d.items
  as.map (lineKey s.regions)
    ++ (match s.parGroup with
      | some g => (as.filter (fun a => !isHost a && !inParityStore s.regions a)).map (fun a => 2 ^ 51 + stripeOf g.self (locOf s.regions a))
      | none => [])
    ++ (if d.items.any (fun it => (isHostSy it).isSome) then [2 ^ 52] else [])

/-- The slice inputs that a difference passes; one that finds no entry of its slice's fault queue holds up what comes later (R363). -/
def State.diffInputs (s : State) (as : List Nat) : List Nat := (as.filter (fun a => !isHost a)).map (fun a => 2 ^ 53 + sliceNo s.regions a)

/-- Whether a difference waits: on its way to its homes, at one of them, or for a bank (R363, R366, R394, R395). -/
def State.diffWaits (s : State) (d : Diff) : Bool :=
  s.crossing (diffTag d.part d.stamp)
    || (itemAddrs s.regions d.items).any (fun a => s.parksFor d a || (isHost a && !s.reachesPa d.die a) || s.bankBusy a)

/-- The first difference of a partition that can be applied: one that does not wait, nor stands behind an earlier one that waits and
shares a line, a stripe, the order on NCL or a blocked input with it (R98, R113, R360, R363). -/
def State.nextDiff (s : State) (part : Nat) : List Diff → List Nat → Option Diff
  | [], _ => none
  | d :: r, held =>
    if d.part ≠ part then s.nextDiff part r held
    else
      let as := itemAddrs s.regions d.items
      let keys := s.diffKeys d
      if s.diffWaits d || (keys ++ s.diffInputs as).any held.contains then
        s.nextDiff part r (unionNat held (keys ++ s.diffInputs (as.filter (fun a => s.parksFor d a && !s.parkRoom a))))
      else some d

/-- Addresses of host-memory system-scope writes of a Group, which wait for their NCL completion (R113). -/
def nclWrites (d : Diff) : List Nat := match d.owner with | some _ => d.items.filterMap isHostSy | none => []

/-- Entries for NCL completions to come. -/
def State.sendNcl (s : State) (uid part : Nat) (pas : List Nat) : State :=
  pas.foldl (fun s pa =>
    let id := s.nextId
    { s with nextId := id + 1, ncl := s.ncl.set id { uid := uid, part := part, pa := pa }, agenda := s.agenda ++ [Instr.nclAck id] }) s

/-- Queues whose tail line a span touches (R285, R287): a host-fed Queue's tail is read, a device-fed Queue's records are fetched
after an ENQ, and any other write to its tail is the host's. -/
def State.tailsIn (s : State) (enq : Bool) (pa n : Nat) : List Instr :=
  (s.queues.filter (fun e => e.2.state != 0 && decide (e.2.ctl < pa + n ∧ pa < e.2.ctl + 64))).map (fun e =>
    if e.2.device && enq then Instr.nodeFetch e.1 else Instr.tailWrite e.1)

/-- A difference reaches its homes (R98): bytes, poison, parity, tail lines, NCL, the cluster's line of a check-in. -/
def State.applyDiff (s : State) (d : Diff) : State :=
  let cl := d.cluster.map (fun x => x.1)
  let s1 := d.items.foldl (fun s it =>
    let t := if d.rebuilt then s else s.parityOf s.mem d.stamp d.prot d.owner cl it
    let t1 := { t with mem := applyItem s.regions s.mem it }
    match itemSpan it with
    | some (pa, n) =>
      { t1 with poison := clearPoison s.regions t1.poison d.part d.stamp pa n
                agenda := t1.agenda ++ t1.tailsIn (d.op.isSome) pa n
                stop := if physOk pa then t1.stop else some pa }
    | none => t1) ({ s with diffs := s.diffs.erase d }.unparkReq (.diff d.part d.stamp))
  let s2 := s1.sendNcl (d.owner.getD 0) d.part (nclWrites d)
  match d.cluster with
  | some (c, ln) => match (s2.cluster c).get? ln with
    | some x =>
      s2.setCluster c (if x.drop then (s2.cluster c).erase ln
        else (s2.cluster c).set ln { x with twin := none, sent := false })
    | none => s2
  | none => s2

/-- Differences of a partition whose lines are under repair stand in their homes' fault queues (R363). -/
def State.parkDiffs (s : State) (part : Nat) : State :=
  (s.diffs.filter (fun d => d.part == part)).foldl (fun s d => match s.diffParks d with
    | some pa => s.parkLine pa (.diff d.part d.stamp)
    | none => s) s

/-- DIFFERENCE_APPLY (R98, R106, R113, R360): a difference whose line is under repair waits at its home (R363). -/
def execDifferenceApply (part : Nat) (s : State) : Out :=
  match s.nextDiff part s.diffs [] with
  | some d => .next (s.applyDiff d)
  | none => .next (if s.diffs.any (fun d => d.part == part) then (s.parkDiffs part).due [.differenceApply part] else s)

/-! ## Loads, host accesses -/

/-- LOAD_RETURN (R130, R197): the oldest long-latency word of a Group returns; poisoned data raise UCE (R365). A memory read's latency is a sample
(R418). -/
def execLoadReturn (c slot : Nat) (s : State) : Out :=
  match s.group? c slot with
  | none => .next s
  | some g =>
    match g.pend with
    | [] => .next s
    | p :: r =>
      if s.crossing (loadTag c slot) then .next (s.due [.loadReturn c slot]) else
      let s1 := (s.modGroup c slot (fun g => { g with pend := r })).sampled 1 p.chans (s.clk - p.since : Nat)
      if p.uce then .next (s1.consumeUCE c slot p.pc)
      else .next (p.writes.foldl (fun s w => s.poolPut c w.1 w.2) s1)

/-- tdnext and tdstat (R300). -/
def Disc.tdnext (d : Disc) : Nat := d.ns + d.sec * 2 ^ 32 + d.valid.toNat * 2 ^ 95
def Disc.tdstat (d : Disc) : Nat := d.unlk.toNat * 2 ^ 31 + d.disc * 2 ^ 16 + wrapTo 16 d.offs

/-- The event of an aligned word written to a command window (R268). -/
def windowEvent (die off : Nat) (bytes : List Byte) : Instr :=
  let v := ofBytes bytes
  if 0x400 ≤ off && off < 0x410 then .tdnextWrite die { off := off - 0x400, size := bytes.length, value := v }
  else if bytes.length = 4 && off = 0x410 then .tdstatDiscClear die v
  else if bytes.length = 4 && off = 0x420 then .mcskipClear die v
  else if bytes.length = 4 && off = 0x430 then .lperiodWrite die v
  else if bytes.length = 4 && off = 0x448 then .xflgWrite die v
  else if bytes.length = 4 && off = 0x44C then .xfheadWrite die v
  else .registerWrite die off bytes.length v

/-- Whether an address lies in the register aperture (R268). -/
def State.inAperture (s : State) (pa : Nat) : Bool :=
  match s.aperture with | some base => decide (base ≤ pa ∧ pa < base + 2 ^ 18) | none => false

/-- The sealed partition that serves the host at a device address: that of the die of its home (R31). -/
def State.hostPart (s : State) (pa : Nat) : Nat := s.partOfDie (sliceOf s.regions pa).1

/-- HOST_WRITE (R93, R113): a host Chunk is offered to the die whose lane group carries its address, and waits while none does (R31, R394). A
word in the register aperture is a register write, where the request is of the system-software class (R268). The host's own memory
changes without a unit of the device; a watched tail line there is read (R285). -/
def execHostWrite (system : Bool) (pa : Nat) (bytes : List Byte) (s : State) : Out :=
  if s.inAperture pa then
    let off := pa - s.aperture.getD 0
    .next (if system && ((bytes.length = 4 && pa % 4 == 0) || (bytes.length = 8 && pa % 8 == 0)) then
        s.due [windowEvent (off / 65536) (off % 65536) bytes] else s)
  else if !physOk pa then .next s
  else if isHost pa then
    .next { s with mem := physPut s.regions s.mem pa bytes, agenda := s.agenda ++ s.tailsIn false pa bytes.length }
  else
    match s.laneDie (s.hostPart pa) pa with
    | some die =>
      .next { s with offers := s.offers ++ [{ die := die, clk := s.clk, what := .host [storeItem pa bytes] }]
                     agenda := s.agenda ++ [.commitBatch (s.hostPart pa)] }
    | none => .next (s.due [.hostWrite system pa bytes])

/-- NCL_ACK (R113): the completion of a write returns on the lane group that carries its address; while none does, it waits (R394). -/
def execNclAck (id : Nat) (s : State) : Out :=
  match s.ncl.get? id with
  | none => .next s
  | some w => if (s.laneDie w.part w.pa).isSome then .next { s with ncl := s.ncl.erase id } else .next (s.due [.nclAck id])

/-! ## Parity holder (R360, R402) -/

/-- Bytes on their way to a stripe's parity block, which xorrs or xorrb has computed (R403). -/
def State.stripeOnWay (s : State) (stripe : Nat) : Bool :=
  let hits (its : List BufItem) : Bool := its.any (fun it => match itemSpan it with
    | some (pa, _) => !isHost pa && inParityStore s.regions pa && stripeL (locOf s.regions pa) == stripe / 8
    | none => false)
  s.offers.any (fun o => match o.what with | .engine _ its => hits its | _ => false) || s.diffs.any (fun d => hits d.items)

/-- An acknowledgement leaves for a source on another module. -/
def State.ackParity (s : State) (src seq : Nat) : State := { s with parityAcks := s.parityAcks ++ [(src, seq)] }

/-- PARITY_DIFFERENCE (R360, R396, R402, R403): a difference from a source (an endpoint of another module) is XORed into the parity block once,
in sequence order, behind what has been computed for the block, and acknowledged; a duplicate is acknowledged again, an early one waits for
its turn, and any other is dropped. -/
def execParityDifference (src seq stripe off stamp : Nat) (bytes : List Byte) (s : State) : Out :=
  let next := s.parityIn.getD src 0
  let ahead := (seq % 2 ^ 16 + 2 ^ 16 - next) % 2 ^ 16
  if 2 ^ 15 ≤ ahead then .next (s.ackParity src seq)
  else if 256 ≤ ahead then .next s
  else if 0 < ahead || s.stripeOnWay stripe then .next (s.due [.parityDifference src seq stripe off stamp bytes])
  else
    let mem := ((bytes.zip (upFrom off bytes.length)).foldl (fun m x =>
      let k := stripeKey stripe 7 x.2
      m.write k (m.read k ^^^ x.1)) s.mem)
    .next ({ s with parityIn := s.parityIn.set src ((next + 1) % 2 ^ 16), mem := mem }.ackParity src seq)

/-- Whether a parity difference goes out: a way from its home to the die of the holder's port, and that port, are open (R394). -/
def State.parityOpen (s : State) (d : ParityDiff) : Bool :=
  match s.parGroup with | some g => s.nslOpen (d.stripe / 8 / 64 % 16 / 4) (g.port.getD d.holder 0) | none => true

/-- PARITY_ACK (R360, R111): a difference is known to be held. A holder that is lost acknowledges nothing, and a difference that cannot go out
is not acknowledged yet. -/
def execParityAck (holder seq : Nat) (s : State) : Out :=
  if s.rankLost holder then .next s
  else if s.parity.any (fun d => d.holder == holder && d.seq == seq && !s.parityOpen d) then .next (s.due [.parityAck holder seq])
  else
    let s1 := match s.parGroup with | some g => s.dropCopies (moduleEnd (g.mods.getD holder 0)) seq | none => s
    .next { s1 with parity := s1.parity.filter (fun d => !(d.holder == holder && d.seq == seq)) }

/-! ## Landings (R204, R205, R215, R253, R333) -/

/-- Whether a landing must wait: its packet, an earlier one of the same Group to the same core, and for RWR and rings the Chunk's broadcast. -/
def State.landingWaits (s : State) (id : Nat) (l : Landing) (broadcast : Bool) : Bool :=
  s.crossing (landTag id) || s.landings.any (fun e => decide (e.1 < id) && e.2.uid == l.uid && e.2.target == l.target)
    || (broadcast && (s.core l.target).inbox.any (fun i => decide (i.stamp ≤ l.stamp)))

def State.endLanding (s : State) (id : Nat) : State := { s with landings := s.landings.erase id }

/-- STW_LANDING (R204): the bytes land in the target scratchpad, unlogged, once no registered copy range holds them (R205). -/
def execStwLanding (id : Nat) (s : State) : Out :=
  match s.landings.get? id with
  | some l =>
    match l.act with
    | .stw core a bytes =>
      if s.landingWaits id l false || s.boardHits core a bytes.length then .next (s.due [.stwLanding id])
      else .next ((s.endLanding id).poolPut core a bytes)
    | _ => .next s
  | none => .next s

/-- A register write that also enters the undo entry of its sector, where the target's open Chunk has one (R215). -/
def undoPatch (core a : Nat) (bytes : List Byte) (u : List Undo) : List Undo :=
  u.map (fun e => if e.core = core ∧ 32 * e.sector ≤ a ∧ a + bytes.length ≤ 32 * e.sector + 32
    then { e with bytes := overlay (32 * e.sector) e.bytes a bytes } else e)

/-- RWR_LANDING (R215): target registers and the arrival counter in one step; dropped when the slot is another Group's. -/
def execRwrLanding (id : Nat) (s : State) : Out :=
  match s.landings.get? id with
  | some l =>
    match l.act with
    | .rwr core slot uid t ctr vals =>
      if s.landingWaits id l true then .next (s.due [.rwrLanding id])
      else
        let s1 := s.endLanding id
        match s1.group? core slot with
        | some g =>
          if g.uid ≠ uid then .next s1
          else
            let rb := regBase (s1.launchAt core) slot
            let s2 := vals.foldl (fun s x =>
              let a := vAddr rb t x.1
              (s.poolPut32 core a x.2).modGroup core slot (fun g =>
                { g with chunk := { g.chunk with undo := undoPatch core a (toBytes 4 x.2) g.chunk.undo } })) s1
            .next (s2.modGroup core slot (fun g => { g with arrival := g.arrival.set ctr ((g.arrival.getD ctr 0 + 1) % 2 ^ 32) }))
        | none => .next s1
    | _ => .next s
  | none => .next s

/-- K_WRITE (R333): a k write of a Group on another core arrives at the Team's home core; a released Team's block takes none. -/
def execKWrite (id : Nat) (s : State) : Out :=
  match s.landings.get? id with
  | some l =>
    match l.act with
    | .kwrite a v =>
      if s.landingWaits id l false then .next (s.due [.kWrite id])
      else
        let s1 := s.endLanding id
        let held : Bool := s1.teams.any (fun e => !e.2.away && e.2.home == l.target && decide (e.2.block ≤ a) && decide (a < e.2.block + 64))
        .next (if held then s1.poolPut32 l.target a v else s1)
    | _ => .next s
  | none => .next s

/-- A ring's state with one slot set full or empty (R253). -/
def Ring.setSlot (r : Ring) (slot : Nat) (full : Bool) : Ring :=
  let b (x : Nat) (v : Bool) : Nat := if bitAt x slot = v then x else if v then x + 2 ^ slot else x - 2 ^ slot
  if full then { r with ph := b r.ph (!bitAt r.cph slot) } else { r with cph := b r.cph (bitAt r.ph slot) }

/-- Copies that a core pushed before an effect left it, whose scratchpad ranges found no room in a scoreboard (R205, R334). -/
def State.unboarded (s : State) (id core : Nat) : Tab Op :=
  s.ops.filter (fun e => decide (e.1 < id) && e.2.core == core && e.2.node.isNone && (e.2.starting || e.2.state == .left)
    && !s.registered e.1 core (landingRows e.2.cmd))

/-- RING_AT_COMMIT (R253): a publication or a release, after the Chunk's landings and broadcast at the ring's core; a publication also after the
ranges of a copy that the Chunk pushed are registered (R334). -/
def execRingAtCommit (id : Nat) (s : State) : Out :=
  match s.landings.get? id with
  | some l =>
    if s.landingWaits id l true then .next (s.due [.ringAtCommit id])
    else
      match l.act with
      | .ringp core r slot =>
        let s1 := (s.unboarded id l.core).foldl (fun s e => s.register e.1 l.core (landingRows e.2.cmd)) s
        if !(s1.unboarded id l.core).isEmpty then .next (s1.due [.ringAtCommit id])
        else
          let k := s1.core core
          .next ((s1.endLanding id).setCore core { k with rings := k.rings.set r ((k.ring r).setSlot slot true) })
      | .ringrel core r slot =>
        let s1 := s.endLanding id
        let k := s1.core core
        .next (s1.setCore core { k with rings := k.rings.set r ((k.ring r).setSlot slot false) })
      | _ => .next (s.endLanding id)
  | none => .next s

/-! ## FENCE_WAIT_END (R110, R111) -/

/-- Whether the wait of a fence is satisfied (R110, R111): cl is the cluster on which it was issued, whose lines it checked in; a Group that has
been restored on another repeats the wait. -/
def State.fenceOver (s : State) (cl : Nat) (g : Group) (k : FenceKind) : Bool :=
  let landed := !(s.landings.any (fun l => l.2.uid == g.uid && (match l.2.act with
    | .stw _ _ _ => true | .rwr _ _ _ _ _ _ => true | _ => false)))
  let dv := landed && g.release.isEmpty
  match k with
  | .cl => landed
  | .dv => dv
  | .sy => dv && !(s.ncl.any (fun e => e.2.uid == g.uid)) && !(s.diffs.any (fun d => d.owner == some g.uid && !(nclWrites d).isEmpty))
  | .sv => dv && !(s.parity.any (fun d => d.prot && (d.owner == some g.uid || d.cluster == some cl)))
      && !(s.enrolled && s.diffs.any (fun d => !d.prot.isEmpty && (d.owner == some g.uid || d.cluster.any (fun x => x.1 == cl))))

/-- FENCE_WAIT_END (R110, R111): a Fenced Group runs again; all but FENCE.cl drop the cluster's read copies. -/
def execFenceWaitEnd (c slot : Nat) (s : State) : Out :=
  match s.group? c slot with
  | some g =>
    match g.state with
    | .fenced k cl =>
      if s.fenceOver cl g k then
        let s1 := s.modGroup c slot (fun g => { g with state := .running })
        .next (match k with | .cl => s1 | _ => s1.dropReadCopies (clusterOf c))
      else .next (s.due [.fenceWaitEnd c slot])
    | _ => .next s
  | none => .next s

end Sys2Proof.Machine
end

