-- ==== Sys2Proof/Machine/Barrier.lean ====
section
/-! DEFINITION. Barriers (13_barrier.md): the events of one core clk at a Barrier's home core (R337 to R340), waiting (R341), arrivals of
engines and of the device (R343), on saved Barrier words too (R276, R342). -/

namespace Sys2Proof.Machine

/-- The Team to which a core Barrier belongs, by the core that holds it (R307). -/
def State.teamOfBar (s : State) (core bar : Nat) : Option (Nat × Team) :=
  s.teams.find? (fun e => !e.2.away && e.2.home == core && decide (e.2.barBase ≤ bar ∧ bar < e.2.barBase + e.2.nbar))

/-- Change every resident Group of a Team. -/
def State.mapTeam (s : State) (team : Nat) (f : Group → Group) : State :=
  { s with cores := s.cores.map (fun e =>
      (e.1, { e.2 with groups := e.2.groups.map (fun g => if g.2.team = team then (g.1, f g.2) else g) })) }

def Group.marked (g : Group) (b : Nat) : Group := { g with mark := unionNat g.mark [b] }
def Group.unmarked (g : Group) (b : Nat) : Group := { g with mark := g.mark.filter (· != b) }

/-- Whether an operation is an arrival (R337). -/
def isArrival (op : BarOp) : Bool :=
  match op with | .arrive => true | .drop => true | .wait => true | .all => true | _ => false

/-- A Barrier that is Spent: initialised, expecting nobody (R337). -/
def Barrier.spent (b : Barrier) : Bool := b.init && b.expect == 0

/-- The status word of R219. -/
def Barrier.word (b : Barrier) : Nat := b.ph.toNat * 2 ^ 31 + b.init.toNat * 2 ^ 30 + b.expect * 2 ^ 12 + b.arrived

/-- A Barrier after a arrivals of one clk, d of them drops, and whether the phase completed (R337, R338). -/
def Barrier.arrive (x : Barrier) (a d : Nat) : Barrier × Bool :=
  let nexp := x.nexp - d
  if x.expect ≤ x.arrived + a then ({ x with nexp := nexp, ph := !x.ph, arrived := 0, expect := nexp }, true)
  else ({ x with nexp := nexp, arrived := x.arrived + a }, false)

def State.bar (s : State) (core bar : Nat) : Barrier := (s.core core).bars.getD bar Barrier.unset
def State.setBar (s : State) (core bar : Nat) (b : Barrier) : State :=
  s.setCore core { s.core core with bars := (s.core core).bars.set bar b }

/-- The Group of a message, while it is the same Group. -/
def State.sender (s : State) (core slot uid : Nat) : Option Group := (s.group? core slot).bind (fun g => if g.uid = uid then some g else none)

/-- A Group whose Barrier event has been applied goes on (log 12). -/
def State.barrierDone (s : State) (core slot : Nat) : State :=
  ((s.modGroup core slot (fun g => { g with hold := .none })).openChunk core slot).deliverCap core slot

/-- Release of every lane that waits on a Barrier (R338, R341): at once on the home core, by a message on the Team's other cores. Every
released Group acquires (R112). -/
def State.releaseWaiters (s : State) (home bar team b : Nat) : State :=
  let here (w : Wait) : Wait := match w with | .phase x _ => if x = b then .none else w | _ => w
  let away (w : Wait) : Wait := match w with | .phase x _ => if x = b then .freed bar else w | _ => w
  let isFreed (w : Wait) : Bool := match w with | .freed x => x == bar | _ => false
  let s1 : State := { s with cores := s.cores.map (fun e =>
    (e.1, { e.2 with groups := e.2.groups.map (fun g => if g.2.team = team then
      (g.1, (g.2.unmarked b).mapWaits (if e.1 = home then here else away)) else g) })) }
  let waits (g : Group) : Bool := g.lanes.any (fun l => isFreed l.wait) || g.trapWaits.any (fun w => isFreed w.2)
  let told := (s1.cores.filter (fun e => e.1 != home && e.2.groups.any (fun g => g.2.team == team && waits g.2))).map (fun e => e.1)
  (told.foldl (fun s c => s.message home c (freeTag bar)) (s1.dropReadCopies (clusterOf home))).due (told.map (fun c => .barrierRelease c bar))

/-- Step 1 of R340: every arrival and drop of the clk. -/
def State.barArrivals (s : State) (home bar : Nat) (msgs : List BarMsg) : State :=
  match s.teamOfBar home bar with
  | none => msgs.foldl (fun s m => match m with
      | .group c slot uid _ _ _ => if (s.sender c slot uid).isSome then s.barrierDone c slot else s
      | .other => s) s
  | some (tid, t) =>
    let b := bar - t.barBase
    let x := s.bar home bar
    let arr := msgs.filter (fun m => match m with | .group _ _ _ _ _ op => isArrival op | .other => true)
    if arr.isEmpty then s
    else if !x.init || x.spent then
      arr.foldl (fun s m => match m with
        | .group c slot uid pc ls _ =>
          if (s.sender c slot uid).isSome then s.barrierTrap c slot ((if x.init then 0x1000 else 0x800) + b) pc ls else s
        | .other => s) s
    else
      let d := (arr.filter (fun m => match m with | .group _ _ _ _ _ .drop => true | _ => false)).length
      let r := x.arrive arr.length d
      let phased (w : Wait) : Wait := match w with | .sent y => if y = b then .phase b x.ph else w | _ => w
      let s1 := arr.foldl (fun s m => match m with
        | .group c slot uid _ _ op =>
          if (s.sender c slot uid).isSome then
            s.modGroup c slot (fun g =>
              let g1 := g.marked b
              match op with | .wait => g1.mapWaits phased | .all => g1.mapWaits phased | _ => g1)
          else s
        | .other => s) (s.setBar home bar r.1)
      let s2 := if r.2 then s1.releaseWaiters home bar tid b else s1
      arr.foldl (fun s m => match m with
        | .group c slot uid _ _ _ => if (s.sender c slot uid).isSome then s.barrierDone c slot else s
        | .other => s) s2

/-- Messages in ascending device-wide core number and then slot (R340). -/
def insertMsg (m : BarMsg) : List BarMsg → List BarMsg
  | [] => [m]
  | p :: r =>
    let key (x : BarMsg) : Nat := match x with | .group c slot _ _ _ _ => c * 32 + slot | .other => 0
    if key m < key p then m :: p :: r else p :: insertMsg m r

/-- Step 2 of R340: BARI. -/
def State.barInits (s : State) (home bar : Nat) (msgs : List BarMsg) : State :=
  match s.teamOfBar home bar with
  | none => s
  | some (tid, t) =>
    let b := bar - t.barBase
    (msgs.foldl (fun acc m => insertMsg m acc) []).foldl (fun s m => match m with
      | .group c slot uid pc ls (.init n) =>
        let x := s.bar home bar
        if x.init && decide (0 < x.arrived) then
          (if (s.sender c slot uid).isSome then s.barrierTrap c slot (0x400 + b) pc ls else s)
        else
          let s1 := (s.setBar home bar { x with expect := n, nexp := n, arrived := 0, init := true }).mapTeam tid (·.unmarked b)
          if (s.sender c slot uid).isSome then s1.barrierDone c slot else s1
      | _ => s) s

/-- Step 3 of R340: BART and BARQ; the lanes parked at a WAITM meet BART's flags at once (R192). -/
def State.barTests (s : State) (home bar : Nat) (msgs : List BarMsg) : State :=
  match s.teamOfBar home bar with
  | none => s
  | some (_, t) =>
    let b := bar - t.barBase
    msgs.foldl (fun s m => match m with
      | .group c slot uid pc ls (.test d) =>
        match s.sender c slot uid with
        | some g =>
          let x := s.bar home bar
          if !x.init then s.barrierTrap c slot (0x800 + b) pc ls
          else
            let a := mAddr (regBase (s.launchAt c) slot) d
            ((s.poolPut32 c a (withLanes (s.poolNum c a 4) ls (!g.mark.contains b))).retestWaitm c slot).barrierDone c slot
        | none => s
      | .group c slot uid _ _ (.query d) =>
        if (s.sender c slot uid).isSome then
          (s.poolPut32 c (sAddr (regBase (s.launchAt c) slot) d) (s.bar home bar).word).barrierDone c slot
        else s
      | _ => s) s

/-- Whether a message has reached the home core: its packet (R395), the broadcasts on their way there, its Group's landings there (R339), and the stamps of the
check-ins that its release sent (R108, R112). -/
def State.msgArrived (s : State) (home : Nat) (m : BarMsg) : Bool :=
  (s.core home).inbox.isEmpty && (match m with
    | .group c slot uid _ _ _ => !s.crossingTo home (barTag uid) && !(s.landings.any (fun l => l.2.uid == uid && l.2.target == home))
        && (match s.sender c slot uid with | some g => g.release.isEmpty | none => true)
    | .other => true)

/-- BARRIER_EVENT (R339, R340): the first n events on their way to a Barrier reach it in one core clk. -/
def execBarrierEvent (core bar n : Nat) (s : State) : Out :=
  let k := s.core core
  let ms := (k.barMsgs.getD bar []).take (max 1 n)
  if ms.isEmpty then .next s
  else if !ms.all (s.msgArrived core) then .next (s.due [.barrierEvent core bar n])
  else
    let s1 := s.setCore core { k with barMsgs := k.barMsgs.set bar ((k.barMsgs.getD bar []).drop ms.length) }
    .next (((s1.barArrivals core bar ms).barInits core bar ms).barTests core bar ms)

/-- BARRIER_RELEASE (R341, R112): the completion message reaches the lanes that wait on another core. -/
def execBarrierRelease (core bar : Nat) (s : State) : Out :=
  let f (w : Wait) : Wait := match w with | .freed x => if x = bar then .none else w | _ => w
  let k := s.core core
  .next (if s.crossingTo core (freeTag bar) then s.due [.barrierRelease core bar]
    else (s.setCore core { k with groups := k.groups.map (fun g => (g.1, g.2.mapWaits f)) }).dropReadCopies (clusterOf core))

/-! ## Saved Barrier words (R276, R342) -/

/-- Bytes of a save slot, and the address of an image's (R273). -/
def slotBytes : Nat := 1052672
def State.slotAt (s : State) (ctx i : Nat) : Nat := (s.ctx ctx).sbase + slotBytes * i

/-- A write by a die controller, outside the stamp order (R275): parity follows it like every write (R400). -/
def State.rawPut (s : State) (pa : Nat) (bytes : List Byte) : State :=
  let it := storeItem pa bytes
  let t := s.parityOf s.mem (s.lastStamp 0) [] none none it
  { t with mem := applyItem s.regions s.mem it, stop := if physOk pa then t.stop else some pa }

/-- Where a state block holds core Barrier b, and the saved mark of a Group slot (R276, R336). -/
def savedBar (base b : Nat) : Nat := base + 0x890 + 8 * b
def savedMark (base slot : Nat) : Nat := base + 0x100F00 + 8 * slot

/-- A Barrier of a state block. -/
def State.readBar (s : State) (base b : Nat) : Barrier :=
  let w := s.numPhys (savedBar base b) 4
  { nexp := s.numPhys (savedBar base b + 4) 4, ph := bitAt w 31, init := bitAt w 30, expect := field w 23 12, arrived := field w 11 0 }

def State.writeBar (s : State) (base b : Nat) (x : Barrier) : State :=
  s.rawPut (savedBar base b) (toBytes 4 x.word ++ toBytes 4 x.nexp)

/-- The slot of the image that holds, or held, a core's coreid in a Team's Gang, while its words stand there: from the end of the save to
the end of the restore (R276, R277). -/
def State.savedBase (s : State) (t : Team) (core : Nat) : Option Nat :=
  (s.kernels.get? t.kernel).bind (fun k => (k.gangs.get? t.gang).bind (fun g =>
    (g.images.find? (fun i => coreInCluster i.core == coreInCluster core && (i.state == .saved || i.state == .restoring))).map (fun i =>
      s.slotAt k.ctx i.slot)))

/-- One arrival of an engine or of the device on Barrier b of a Team (R343): by message on a resident Team, at once on the saved words
of one that is Saved or being restored. A Barrier that the Team does not have, or that is Unset or Spent, takes none. -/
def State.arriveOther (s : State) (team b : Nat) : State :=
  match s.teams.get? team with
  | none => s
  | some t =>
    if t.nbar ≤ b then s
    else
      let bar := t.barBase + b
      match s.savedBase t t.home with
      | some base =>
        let x := s.readBar base bar
        if !x.init || x.spent then s
        else
          let r := x.arrive 1 0
          let s1 := s.writeBar base bar r.1
          if r.2 then
            match s1.kernels.get? t.kernel with
            | some k => match k.gangs.get? t.gang with
              | some g => g.images.foldl (fun s i =>
                  i.groups.foldl (fun s e =>
                    if e.2.team = team then
                      let a := savedMark (s.slotAt k.ctx i.slot) e.1
                      let m := s.numPhys a 8
                      s.rawPut a (toBytes 8 (if bitAt m b then m - 2 ^ b else m))
                    else s) s) s1
              | none => s1
            | none => s1
          else s1
      | none =>
        let k := s.core t.home
        (s.setCore t.home { k with barMsgs := k.barMsgs.set bar (k.barMsgs.getD bar [] ++ [.other]) }).due
          [.barrierEvent t.home bar 1]

end Sys2Proof.Machine
end

