-- ==== Sys2Proof/Machine/Engines.lean ====
section
/-! DEFINITION. Engine commands COPY, GATHER, COLL, REDN, ENQ and MCAST (R240 to R243, R247 to R249, R403, R405, R406). -/

namespace Sys2Proof.Machine

/-- Sectors that one engine Chunk may write (R93). -/
def chunkSectors : Nat := 256

/-- An address plus a product, mod 2^64 (R240, R242). -/
def addr64 (a x : Nat) : Nat := (a + x) % 2 ^ 64

/-! ## COPY (R240, R241) -/

def CopyCmd.srcRow (c : CopyCmd) (r : Nat) : Nat :=
  if c.swin then (if r = 0 then c.src else (c.src + r * c.sstride) % 2 ^ 22) else addr64 c.src (r * c.sstride)
def CopyCmd.dstRow (c : CopyCmd) (r : Nat) : Nat :=
  if c.dwin then (if r = 0 then c.dst else (c.dst + r * c.dstride) % 2 ^ 22) else addr64 c.dst (r * c.dstride)

/-- The virtual ranges of a COPY. -/
def copyReqs (c : CopyCmd) : List (Nat × Nat × AccKind) :=
  (if c.swin then [] else (upFrom 0 c.rows).map (fun r => (c.srcRow r, c.len, AccKind.engRead)))
    ++ (if c.dwin then [] else (upFrom 0 c.rows).map (fun r => (c.dstRow r, c.len, AccKind.engWrite)))

/-- Whether a COPY's window rows lie in scratchpad that it may reach (R240). -/
def State.copyWindows (s : State) (o : Op) (c : CopyCmd) : Bool :=
  (!c.swin || (upFrom 0 c.rows).all (fun r => s.winOk o.kernel o.core (c.srcRow r) c.len))
    && (!c.dwin || (upFrom 0 c.rows).all (fun r => s.winOk o.kernel o.core (c.dstRow r) c.len))

/-- The checks of a follow-on MMA when its COPY leaves (R241): a status that ends the command. A bad descriptor is reported at the offset of
fodesc (log 102). -/
def State.followFault (s : State) (o : Op) (c : CopyCmd) : Option Nat :=
  let sl := (s.launchAt o.core).slot c.slot
  let scr := match o.team.bind (fun t => s.teams.get? t) with | some t => 256 * t.tscr | none => 0
  if !c.fo then none
  else if o.q ≠ 1 || !c.dwin then some (stFORMAT 2)
  else if (winPlace o.core c.dst).1 ≠ o.core then some (stFORMAT 16)
  else if slotBad sl [0, 1, 2, 3] || !pairOk c.act sl then some (stSLOT c.slot)
  else match mmaProt (mmaDesc c.fodesc) c.act sl scr with
    | some v => some (if v = 0xA01 then stFORMAT 36 else stPROT)
    | none => if partAccn (s.core o.core).poolpart ≤ c.tile then some (stFORMAT 52) else none

/-- A location of a COPY's stream. -/
def rowLoc (o : Op) (win : Bool) (a : Nat) : Loc :=
  if win then .pool (winPlace o.core a).1 (winPlace o.core a).2 else .mem (o.pa a)

/-- The next Chunk of a COPY, or its end. -/
def State.copyRun (s : State) (id : Nat) (o : Op) : State :=
  let c := copyCmd o.cmd
  let total := c.rows * c.len
  if total ≤ o.pos then
    (s.setOp id { o with state := .committing }).due [if c.fo then .followOnMma id else .copyRetire id]
  else if c.dwin && !(s.registered id o.core (windowRows o.cmd)) then (s.register id o.core (windowRows o.cmd)).due [.copy id]
  else
    let ps := pieces (fun p => rowLoc o c.swin (c.srcRow (p / c.len) + p % c.len))
      (fun p => rowLoc o c.dwin (c.dstRow (p / c.len) + p % c.len)) (fun p => c.len - p % c.len) chunkSectors o.pos total
    s.movePieces id o ps (.copy id)

/-- COPY (R240): it leaves in order, is checked and translated, and is copied in engine Chunks, or lands in scratchpad. -/
def execCopy (id : Nat) (s : State) : Out :=
  match s.op? id with
  | none => .next s
  | some o =>
    if o.starting then
      let c := copyCmd o.cmd
      .next (leaveWith id (.copy id) (fun s o => ((copyBad o.cmd).map stFORMAT).or (s.followFault o c)) (fun _ _ => copyReqs c) (fun s o =>
        if s.copyWindows o c then (s.setOp id { o with state := .left }).due [.copy id] else s.finishOp id o stPROT) s)
    else if o.state = .left && o.units = 0 then .next (s.copyRun id o)
    else .next s

/-- COPY_RETIRE (R205, R241): the last byte has landed, and a follow-on MMA has retired; the scoreboard entries go. -/
def execCopyRetire (id : Nat) (s : State) : Out :=
  match s.op? id with
  | some o =>
    if o.state = .committing then
      .next (s.finishOp id o (if o.status ≠ 0 then o.status else stOK (o.iovf.toNat)))
    else .next s
  | none => .next s

/-- Whether another copy's registered range overlaps the operands of a follow-on MMA (R226); its own COPY's does not count (R241). -/
def State.followHeld (s : State) (id : Nat) (t : Team) (c : CopyCmd) : Bool :=
  let d := mmaDesc c.fodesc
  let sl := (s.launchAt t.home).slot c.slot
  (actRanges d c.act ++ weightRanges d sl ++ scaleRanges d sl).any (fun r =>
    (s.core t.home).board.any (fun x => x.op != id && decide (x.lo < t.scr r.1 + r.2 ∧ t.scr r.1 < x.lo + x.len)))

/-- FOLLOW_ON_MMA (R241): the MMA takes its place in the core's order once no open Chunk holds a checkpoint of its tile, and no other copy
lands in its operands (R226). -/
def execFollowOnMma (id : Nat) (s : State) : Out :=
  match s.op? id with
  | some o =>
    let c := copyCmd o.cmd
    let k := s.core o.core
    if o.state ≠ .committing then .next s
    else if k.groups.any (fun g => g.2.chunk.tiles.contains c.tile) || tileBusy k c.tile then .next (s.due [.followOnMma id])
    else
      match o.team.bind (fun t => s.teams.get? t) with
      | some t =>
        if s.followHeld id t c then .next (s.due [.followOnMma id]) else
        let snap := (s.core t.home).pool.slice (t.scr 0) (256 * t.tscr)
        let m : MmaOp := { owner := (0, 0), follow := some id, tile := c.tile, act := c.act, slotIdx := c.slot, desc := c.fodesc,
                           snap := snap, pc := 0, retries := 0 }
        .next ((s.setCore o.core { k with order := k.order ++ [m] }).due [.mmaRetire o.core false])
      | none => .next (s.finishOp id o stPROT)
  | none => .next s

/-! ## GATHER (R242) -/

/-- Numbers of a size in bytes from a list of bytes. -/
def splitNums (sz : Nat) : Nat → List Byte → List Nat
  | 0, _ => []
  | n + 1, bs => ofBytes (bs.take sz) :: splitNums sz n (bs.drop sz)

/-- Bytes of a translated virtual range, Page by Page. -/
def State.vread (s : State) (ts : List Tlb) (va n : Nat) : List Byte := (upFrom va n).map (fun a => (s.readPhys (paOf ts a) 1).headD 0)

/-- The first byte of a translated range at which a die controller's read waits, and whether the range is poisoned. -/
def State.vwaits (s : State) (die : Nat) (ts : List Tlb) (va n : Nat) : Option Nat := ((upFrom va n).map (paOf ts)).find? (s.waits die)
def State.vpoison (s : State) (ts : List Tlb) (va n : Nat) : Bool := (upFrom va n).any (fun a => s.poisoned (paOf ts a) 1)

/-- An operation reads translated virtual ranges, as its n-th request, then goes on by k, or ends where data are poisoned (R365). -/
def State.opVreads (s : State) (id : Nat) (o : Op) (n : Nat) (rs : List (Nat × Nat)) (again : Instr) (k : State → State) : State :=
  s.opReads id o n (rs.foldl (fun acc r => acc ++ (upFrom r.1 r.2).map (paOf o.pages)) []) again (fun s =>
    if rs.any (fun r => s.vpoison o.pages r.1 r.2) then s.finishOp id o stUCE else k s)

def GatherCmd.isize (c : GatherCmd) : Nat := if c.iw then 8 else 4
def GatherCmd.srcRow (c : GatherCmd) (idx : List Nat) (i : Nat) : Nat := addr64 c.table (idx.getD i 0 * c.sstride)
def GatherCmd.dstRow (c : GatherCmd) (i : Nat) : Nat :=
  if c.dwin then (if i = 0 then c.dst else (c.dst + i * c.rowlen) % 2 ^ 22) else addr64 c.dst (i * c.rowlen)

/-- The ranges of a GATHER once its index list is read (R236). -/
def gatherReqs (c : GatherCmd) (idx : List Nat) : List (Nat × Nat × AccKind) :=
  (upFrom 0 c.n).map (fun i => (c.srcRow idx i, c.rowlen, AccKind.engRead))
    ++ (if c.dwin then [] else (upFrom 0 c.n).map (fun i => (c.dstRow i, c.rowlen, AccKind.engWrite)))

/-- The index list is read, then every row's Page is translated (R236). -/
def State.gatherLeave (s : State) (id : Nat) (c : GatherCmd) (o : Op) : State :=
  let n := c.n * c.isize
  s.opVreads id o 1 [(c.ilist, n)] (.gather id) (fun s =>
    let idx := splitNums c.isize c.n (s.vread o.pages c.ilist n)
    match s.reach o.ctx (gatherReqs c idx) with
    | .refused => s.finishOp id o stPROT
    | .missing va acc => (s.engineWalk id o va acc).due [.gather id]
    | .ok ps =>
      if !c.dwin || (upFrom 0 c.n).all (fun i => s.winOk o.kernel o.core (c.dstRow i) c.rowlen) then
        (s.setOp id { o with state := .left, aux := idx, pages := addPages o.pages ps, wants := none }).due [.gather id]
      else s.finishOp id o stPROT)

/-- GATHER (R242). -/
def execGather (id : Nat) (s : State) : Out :=
  match s.op? id with
  | none => .next s
  | some o =>
    let c := gatherCmd o.cmd
    if o.starting then
      .next (leaveWith id (.gather id) (fun _ o => (gatherBad o.cmd).map stFORMAT) (fun _ _ => [(c.ilist, c.n * c.isize, .engRead)])
        (fun s o => s.gatherLeave id c o) s)
    else if o.state = .left && o.units = 0 then
      let total := c.n * c.rowlen
      if total ≤ o.pos then .next (s.finishOp id o (stOK 0))
      else if c.dwin && !(s.registered id o.core (windowRows o.cmd)) then
        .next ((s.register id o.core (windowRows o.cmd)).due [.gather id])
      else
        let ps := pieces (fun p => .mem (o.pa (c.srcRow o.aux (p / c.rowlen) + p % c.rowlen)))
          (fun p => rowLoc o c.dwin (c.dstRow (p / c.rowlen) + p % c.rowlen)) (fun p => c.rowlen - p % c.rowlen)
          chunkSectors o.pos total
        .next (s.movePieces id o ps (.gather id))
    else .next s

/-! ## Sums of sources (R63) -/

/-- Element types of COLL and REDN: size in bytes. -/
def dtSize (t : Nat) : Nat := if t = 1 || t = 2 then 2 else 4

/-- The sum of up to eight leaves of an element type by the fixed tree (R63). -/
def sumLeaves (t : Nat) (xs : List Nat) : Nat :=
  if 3 ≤ t then (((redTree .add .rne 3 (xs.map (fun x => some { bits := x }))).head?.getD none).map (·.bits)).getD 0
  else
    let f := if t = 1 then fmtBf16 else fmtF16
    let wide (x : Nat) : FRes := if t = 0 then { bits := x } else fcvtVal fmtF32 .rne (fdecode f x)
    let r := (((redTree .fadd .rne 3 (xs.map (fun x => some (wide x)))).head?.getD none).map (·.bits)).getD 0
    if t = 0 then r else (fcvtVal f .rne (fdecode fmtF32 r)).bits

/-! ## COLL (R243, R399, R403) -/

structure CollCmd where
  count : Nat
  src : Nat
  dst : Nat
  cgrp : Nat
  dtype : Nat
  lost : Nat
deriving DecidableEq, Repr

def collCmd (cmd : List Byte) : CollCmd :=
  { count := cmdField cmd 63 32, src := cmdField cmd 127 64, dst := cmdField cmd 191 128, cgrp := cmdField cmd 207 192,
    dtype := cmdField cmd 215 208, lost := cmdField cmd 223 216 }

/-- Members of a collective group. -/
def CollGroup.members (g : CollGroup) : Nat := g.msz + 1
def State.collGroup (s : State) (n : Nat) : CollGroup := s.colls.getD n CollGroup.reset

/-- Fields of COLL outside their limits (R238, R243, R399, R403); n32 is for rs alone. A group with par = 0 is none for xorrs and xorrb (log 103). -/
def collBad (s : State) (cmd : List Byte) : Option Nat :=
  let c := collCmd cmd
  let v := cmdVar cmd
  let g := s.collGroup c.cgrp
  match headerBad cmd (decide (3 < v)) with
  | some o => some o
  | none => badField
    [(decide (v < 2) && (c.count == 0 || decide (2 ^ 28 < c.count)), 4),
     (decide (2 ≤ v) && decide (2 ^ 28 < c.src + c.count), 8),
     (decide (15 < c.cgrp) || g.msz == 0 || (decide (2 ≤ v) && !g.par), 24), (decide (4 < c.dtype) || decide (v ≠ 0 ∧ 3 < c.dtype), 26),
     (v == 3 && decide (7 < c.lost), 27), (cmdField cmd 447 224 != 0, 28)]

/-- The port check and the reachability of the members when a COLL leaves (R397, R399). -/
def State.collFault (s : State) (o : Op) (g : CollGroup) : Option Nat :=
  let rs := (upFrom 0 g.members).filter (· != g.self)
  if rs.any (fun r => !bitAt (s.nslOf (s.ctx o.ctx).part) (g.port.getD r 0)) then some stPROT
  else if cmdVar o.cmd ≥ 2 && (s.ctx o.ctx).privl ≠ 1 then some stPROT
  else (rs.find? (fun r => s.unreachable.contains (g.mods.getD r 0))).map stLINK

/-- A COLL is judged when it leaves (R238, R399). -/
def State.collJudge (s : State) (o : Op) : Option Nat :=
  ((collBad s o.cmd).map stFORMAT).or (s.collFault o (s.collGroup (collCmd o.cmd).cgrp))

/-- What a member contributes where no data are given: free bytes (log 5). -/
def freeBytes (n : Nat) : Nat → List Byte
  | 0 => []
  | k + 1 => Config.freeByte n :: freeBytes (n + 1) k

/-- The contribution of each other rank in ascending order, n bytes each: the data given, else free bytes; the rank's own is given. -/
def contributions (fresh n self : Nat) (own : List Byte) (others : List (List Byte)) : Nat → Nat → List (List Byte)
  | 0, _ => []
  | k + 1, r =>
    if r = self then own :: contributions fresh n self own others k (r + 1)
    else
      let d := match others.head? with | some x => if x.length = n then x else freeBytes fresh n | none => freeBytes fresh n
      d :: contributions (fresh + n) n self own others.tail k (r + 1)

/-- The number of bytes that one Chunk of a COLL writes. -/
def collStep : Nat := 255 * 32

/-- One engine Chunk of rs or ag from position pos: its bytes (R243). -/
def collBytes (s : State) (o : Op) (g : CollGroup) (c : CollCmd) (others : List (List Byte)) (n : Nat) : List Byte :=
  let sz := dtSize c.dtype
  if cmdVar o.cmd = 0 then
    let own := s.vread o.pages (addr64 c.src (g.self * c.count * sz + o.pos)) n
    let data := contributions s.fresh n g.self own (others.map (fun x => (x.drop o.pos).take n)) g.members 0
    let elems := data.map (splitNums sz (n / sz))
    (upFrom 0 (n / sz)).foldl (fun acc e => acc ++ toBytes sz (sumLeaves c.dtype (elems.map (fun x => x.getD e 0)))) []
  else
    let seg := c.count * sz
    let u := o.pos / seg
    let own := s.vread o.pages (addr64 c.src (o.pos % seg)) (min n (seg - o.pos % seg))
    (contributions s.fresh own.length g.self own (others.map (fun x => (x.drop (o.pos % seg)).take own.length)) g.members 0).getD u []

/-- Whether the collective engine's traffic to every other rank of a group goes out: it waits for a way to the port's die, and for the port
(R394). -/
def State.portsUp (s : State) (g : CollGroup) : Bool :=
  (upFrom 0 g.members).all (fun r => r == g.self || s.nslOpen 0 (g.port.getD r 0))

/-- What a COLL sends to another member: bytes, under a number of their own, as one packet over NSL (R395). -/
def State.contribute (s : State) (id : Nat) (o : Op) (g : CollGroup) (r key : Nat) (bs : List Byte) : State :=
  let dst := moduleEnd (g.mods.getD r 0)
  (s.sendPacket o.place dst (collTag id + 2 ^ 64 * key + 2 ^ 128 * ofBytes bs)).due [.packetAck o.place dst (s.pair o.place dst).next]

/-- The ranks of a group but the member's own. -/
def CollGroup.others (g : CollGroup) : List Nat := (upFrom 0 g.members).filter (· != g.self)

/-- Whether what a COLL sent has been acknowledged (R403). -/
def State.contributed (s : State) (id : Nat) (o : Op) : Bool :=
  !s.pairs.any (fun e => e.1 / 2 ^ 17 == o.place && e.2.copies.any (fun c => c.2.1 % 2 ^ 64 == collTag id))

/-- rs and ag: leave, then engine Chunks of the destination; what the other members need of this one's source goes to them on the way. The
members' data are kept with the operation. -/
def collRun (id : Nat) (self : Instr) (given : List (List Byte)) (s : State) : Out :=
  match s.op? id with
  | none => .next s
  | some o =>
    let c := collCmd o.cmd
    let g := s.collGroup c.cgrp
    let sz := dtSize c.dtype
    let rs : Bool := cmdVar o.cmd == 0
    let others := if given.isEmpty then o.aux.map (toBytes (c.count * sz)) else given
    let kept := if given.isEmpty then o.aux else given.map ofBytes
    let srcLen := (if rs then g.members else 1) * c.count * sz
    let total := (if rs then 1 else g.members) * c.count * sz
    if o.starting then
      .next (leaveWith id self State.collJudge (fun _ _ => [(c.src, srcLen, .engRead), (c.dst, total, .engWrite)]) (fun s o =>
        (s.setOp id { o with state := .left, aux := kept }).due [self]) s)
    else if o.state = .left && o.units = 0 then
      if total ≤ o.pos then .next (s.finishOp id o (stOK 0))
      else if !s.portsUp g then .next (s.due [self])
      else
        let n := min collStep (total - o.pos)
        let seg := c.count * sz
        let len := min n (seg - o.pos % seg)
        let part (r : Nat) : Nat := addr64 c.src (if rs then r * seg + o.pos else o.pos % seg)
        .next (s.opVreads id o (2 * o.pos) (if rs then (upFrom 0 g.members).map (fun r => (part r, len)) else [(part 0, len)]) self (fun s =>
          let bs := collBytes s o g c others n
          let items := (bs.zip (upFrom (addr64 c.dst o.pos) bs.length)).map (fun x => storeItem (o.pa x.2) [x.1])
          let s1 := (if rs || decide (o.pos < seg) then g.others else []).foldl (fun s r =>
            s.contribute id o g r o.pos (s.vread o.pages (part r) len)) s
          { s1 with fresh := s1.fresh + 8 * n }.offerUnit id { o with pos := o.pos + bs.length, aux := kept } items))
    else .next s

/-- COLL_RS (R243, R63): reduce-scatter. others holds the other members' elements for this member, in rank order. -/
def execCollRs (id : Nat) (others : List (List Byte)) (s : State) : Out := collRun id (.collRs id others) others s

/-- COLL_AG (R243): all-gather. others holds the other members' elements, in rank order. -/
def execCollAg (id : Nat) (others : List (List Byte)) (s : State) : Out := collRun id (.collAg id others) others s

/-- XOR of blocks. -/
def xorAll (bs : List (List Byte)) : List Byte := bs.foldl (fun acc b => xorBytes acc b) (List.replicate 4096 0)

/-- The row bits of a stripe's block on a rank: 7 on the holder (R401). -/
def blockG (rank stripe : Nat) : Nat := let q := stripe % 8; if rank = q then 7 else (rank + 8 - q - 1) % 8

/-- The device addresses of the lines of a stripe's block (R357, R401), and its bytes as the homes hold them. -/
def State.blockLines (s : State) (stripe g : Nat) : List Nat :=
  (upFrom 0 64).map (fun k => s.addressOf (stripeLoc stripe g (64 * k)) + 64 * k % 256)
def State.blockBytes (s : State) (stripe g : Nat) : List Byte := (s.blockLines stripe g).foldl (fun acc pa => acc ++ s.readPhys pa 64) []

/-- The items of one engine Chunk that write a stripe's block of 4 KiB. -/
def State.blockItems (s : State) (stripe g : Nat) (bs : List Byte) : List BufItem :=
  ((s.blockLines stripe g).zip (upFrom 0 64)).map (fun x => storeItem x.1 ((bs.drop (64 * x.2)).take 64))

/-- What a member does for a stripe (R403): the ranks whose blocks it takes, and the rank that its own block, with those, goes to; with none, it
writes its own block from them. The holder computes, or, for a parity that was lost, the spare, to which the holder sends a data block
that was lost. -/
def collRole (self lost : Nat) (rebuild : Bool) (stripe : Nat) : List Nat × Option Nat :=
  let q := stripe % 8
  let others := (upFrom 0 8).filter (· != self)
  if !rebuild then (if q = self then (others, none) else ([], some q))
  else if self = lost then (if q = lost then others else [q], none)
  else if q = lost then ([], some lost)
  else if q = self then (others.filter (· != lost), some lost)
  else ([], some q)

/-- The number of stripes before one, from the first of a command, for which a member takes blocks. -/
def collTaken (self : Nat) (spare : Bool) (src stripe : Nat) : Nat :=
  if spare then stripe - src else (stripe + 7 - self) / 8 - (src + 7 - self) / 8

/-- The i-th block that another rank gives; where none is given, free bytes (log 5). -/
def collGiven (s : State) (o : Op) (self i r : Nat) : List Byte :=
  match o.aux[if r < self then r else r - 1]? with
  | some x => if 2 ^ (32768 * (i + 1)) ≤ x then toBytes 4096 (x / 2 ^ (32768 * i)) else freeBytes (s.fresh + 4096 * r) 4096
  | none => freeBytes (s.fresh + 4096 * r) 4096

/-- The differences held for a rank are sent to the module that takes its place (R404). -/
def State.sendHeld (s : State) (g : CollGroup) (rank : Nat) : State :=
  (s.parity.filter (fun d => d.holder == rank)).foldl (fun s d =>
    let pa := s.addressOf (stripeLoc d.stripe (blockG g.self d.stripe) d.off)
    (s.sendPacket (sliceEnd (sliceOf s.regions pa)) (moduleEnd (g.mods.getD rank 0)) d.seq).due [.parityAck d.holder d.seq]) s

/-- xorrs and xorrb (R403): stripe after stripe, a member sends its block, line by line, or writes it, as one engine Chunk. The operation ends
once what it sent has been acknowledged. After a rebuild, differences held for the lost rank go to the spare (R404). -/
def collXor (id : Nat) (self : Instr) (rebuild : Bool) (others : List (List Byte)) (s : State) : Out :=
  match s.op? id with
  | none => .next s
  | some o =>
    let c := collCmd o.cmd
    let g := s.collGroup c.cgrp
    if o.starting then
      .next (leaveWith id self State.collJudge (fun _ _ => []) (fun s o =>
        (s.setOp id { o with state := .left, aux := others.map (fun b => ofBytes (b ++ [1])) }).due [self]) s)
    else if o.state = .left && o.units = 0 then
      if c.count ≤ o.pos then
        if !s.contributed id o then .next (s.due [self])
        else .next ((if rebuild && g.self != c.lost then s.sendHeld g c.lost else s).finishOp id o (stOK 0))
      else if !s.portsUp g then .next (s.due [self])
      else
        let stripe := c.src + o.pos
        let row := blockG g.self stripe
        let role := collRole g.self c.lost rebuild stripe
        let i := collTaken g.self (rebuild && g.self == c.lost) c.src stripe
        let taken := role.1.map (collGiven s o g.self i)
        let o1 := { o with pos := o.pos + 1 }
        let s1 : State := { s with fresh := s.fresh + 8 * 4096 }
        match role.2 with
        | none => .next (s1.offerUnit id o1 (s1.blockItems stripe row (xorAll taken)))
        | some r =>
          .next (s1.opReads id o (2 * o.pos) (s1.blockLines stripe row) self (fun s =>
            if (s.blockLines stripe row).any (fun pa => s.poisoned pa 64) then s.finishOp id o stUCE
            else
              let bs := xorAll (s.blockBytes stripe row :: taken)
              (((upFrom 0 64).foldl (fun s k => s.contribute id o g r (64 * stripe + k) ((bs.drop (64 * k)).take 64)) s).setOp id o1).due [self]))
    else .next s

/-- COLL_XORRS (R403): parity is built at its holders. others holds, per other rank, 4 KiB for each stripe held here. -/
def execCollXorrs (id : Nat) (others : List (List Byte)) (s : State) : Out := collXor id (.collXorrs id others) false others s

/-- COLL_XORRB (R403): a lost member's stripes are rebuilt on the spare. -/
def execCollXorrb (id : Nat) (others : List (List Byte)) (s : State) : Out := collXor id (.collXorrb id others) true others s

/-! ## REDN (R247) -/

/-- Fields of a REDN command outside their limits. -/
def rednBad (cmd : List Byte) : Option Nat :=
  match headerBad cmd (cmdVar cmd != 0) with
  | some o => some o
  | none => badField [(cmdField cmd 63 32 != 0, 4), (cmdField cmd 127 64 % 16 != 0, 8), (cmdField cmd 447 128 != 0, 16)]

/-- A REDN parameter block. -/
structure RednBlock where
  srcs : List Nat
  dst : Nat
  count : Nat
  dtype : Nat
deriving DecidableEq, Repr

/-- The block's bad field, as its FORMAT detail, or its contents (R247). -/
def rednBlock (bs : List Byte) : Nat ⊕ RednBlock :=
  let x := ofBytes bs
  let n := field x 615 608
  match badField [(field x 607 576 == 0 || decide (16777216 < field x 607 576), 64 + 72), (n == 0 || decide (8 < n), 64 + 76),
      (decide (4 < field x 623 616), 64 + 77), (field x 1023 624 != 0, 64 + 78)] with
  | some o => .inl o
  | none => .inr { srcs := (upFrom 0 n).map (fun i => field x (64 * i + 63) (64 * i)), dst := field x 575 512,
                   count := field x 607 576, dtype := field x 623 616 }

/-- Whether every byte of a translated range lies on a stack. -/
def State.onStack (s : State) (ts : List Tlb) (stack va n : Nat) : Bool :=
  (upFrom va n).all (fun a => let pa := paOf ts a; !isHost pa && stackOf s.regions pa == stack)

/-- A parameter block as its operation keeps it. -/
def RednBlock.kept (b : RednBlock) : List Nat := b.dst :: b.count :: b.dtype :: b.srcs

/-- The sources and the destination of a REDN whose block has been read are translated and checked (R236, R247). -/
def State.rednCheck (s : State) (id : Nat) (o : Op) : State :=
  match o.aux with
  | dst :: count :: t :: srcs =>
    let n := count * dtSize t
    match s.reach o.ctx (srcs.map (fun a => (a, n, AccKind.engRead)) ++ [(dst, n, .engWrite)]) with
    | .refused => s.finishOp id o stPROT
    | .missing va acc => (s.engineWalk id o va acc).due [.redn id]
    | .ok ps =>
      let pages := addPages o.pages ps
      if (dst :: srcs).all (fun a => s.onStack pages o.inst a n) then
        (s.setOp id { o with state := .left, pages := pages, wants := none }).due [.redn id]
      else s.finishOp id o stPROT
  | _ => s

/-- The parameter block is read once, when the command leaves (R247). -/
def State.rednLeave (s : State) (id : Nat) (o : Op) : State :=
  let pblk := cmdField o.cmd 127 64
  if !o.aux.isEmpty then s.rednCheck id o
  else
    s.opVreads id o 1 [(pblk, 128)] (.redn id) (fun s =>
      match rednBlock (s.vread o.pages pblk 128) with
      | .inl off => s.finishOp id o (stFORMAT off)
      | .inr b => s.rednCheck id { o with aux := b.kept })

/-- REDN (R247): engine Chunks in ascending element order. -/
def execRedn (id : Nat) (s : State) : Out :=
  match s.op? id with
  | none => .next s
  | some o =>
    if o.starting then
      .next (leaveWith id (.redn id) (fun _ o => (rednBad o.cmd).map stFORMAT) (fun _ _ => [(cmdField o.cmd 127 64, 128, .engRead)]) (fun s o => s.rednLeave id o) s)
    else if o.state = .left && o.units = 0 then
      match o.aux with
      | dst :: count :: t :: srcs =>
        let sz := dtSize t
        if count ≤ o.pos then .next (s.finishOp id o (stOK 0))
        else
          let n := min (255 * 32 / sz) (count - o.pos)
          .next (s.opVreads id o (2 * o.pos) (srcs.map (fun a => (a + o.pos * sz, n * sz))) (.redn id) (fun s =>
            let data := srcs.map (fun a => splitNums sz n (s.vread o.pages (a + o.pos * sz) (n * sz)))
            let items := (upFrom 0 n).foldl (fun acc e => acc ++
              ((toBytes sz (sumLeaves t (data.map (fun x => x.getD e 0)))).zip (upFrom (dst + (o.pos + e) * sz) sz)).map
                (fun x => storeItem (o.pa x.2) [x.1])) []
            s.offerUnit id { o with pos := o.pos + n } items))
      | _ => .next s
    else .next s

/-! ## ENQ (R248, R287) -/

def enqBad (cmd : List Byte) : Option Nat :=
  match headerBad cmd (cmdVar cmd != 0) with
  | some o => some o
  | none => badField [(cmdField cmd 127 64 % 64 != 0, 8), (cmdField cmd 447 128 != 0, 16)]

def State.queue (s : State) (n : Nat) : Queue := s.queues.getD n Queue.reset
def State.setQueue (s : State) (n : Nat) (q : Queue) : State := { s with queues := s.queues.set n q }

/-- A record with another sequence number (R288). -/
def withSeq (bs : List Byte) (seq : Nat) : List Byte := bs.take 4 ++ toBytes 4 seq ++ bs.drop 8

/-- The place of record s in a Queue's ring (R284). -/
def Queue.slotAddr (q : Queue) (seq : Nat) : Nat := q.qbase + 64 * ((seq + 2 ^ 32 - 1) % 2 ^ 32 % 2 ^ q.lgsize)

/-- Whether an ENQ that left before another has not been placed yet, of one Context: the later ones wait behind it (R235, R248, R287). -/
def State.enqAhead (s : State) (o : Op) : Bool :=
  s.ops.any (fun e => e.2.q == o.q && e.2.inst == o.inst && e.2.ctx == o.ctx && e.2.num != 0 && decide (e.2.num < o.num)
    && (e.2.state == .translating || (e.2.state == .left && e.2.pos == 0)))

/-- The record, its sequence number and the new tail form one engine Chunk (R287). -/
def State.enqueue (s : State) (id : Nat) (o : Op) : State :=
  let n := cmdField o.cmd 63 32
  let q := s.queue n
  let node := cmdField o.cmd 127 64
  if s.enqAhead o then (s.setOp id { o with state := .left }).due [.enq id]
  else if decide (Config.nQueues ≤ n) || q.state ≠ 1 || !q.device || q.ctx ≠ o.ctx then s.finishOp id o stPROT
  else if 2 ^ q.lgsize ≤ (q.tail + 2 ^ 32 - q.done) % 2 ^ 32 then (s.setOp id { o with state := .left }).due [.enq id]
  else
    s.opVreads id o 0 [(node, 64)] (.enq id) (fun s =>
      let seq := (q.tail + 1) % 2 ^ 32
      let rec_ := withSeq (s.vread o.pages node 64) seq
      (s.setQueue n { q with tail := seq }).offerUnit id { o with state := .left, pos := 1 }
        [storeItem (q.slotAddr seq) rec_, storeItem q.ctl (toBytes 4 seq)])

/-- ENQ (R248, R287): while the ring is full the intake holds the command. -/
def execEnq (id : Nat) (s : State) : Out :=
  match s.op? id with
  | none => .next s
  | some o =>
    if o.starting then
      .next (leaveWith id (.enq id) (fun _ o => (enqBad o.cmd).map stFORMAT) (fun _ _ => [(cmdField o.cmd 127 64, 64, .engRead)]) (fun s o => s.enqueue id o) s)
    else if o.state = .left && o.units = 0 then
      .next (if o.pos = 1 then s.finishOp id o (stOK 0) else s.enqueue id o)
    else .next s

/-! ## MCAST (R249, R405, R406) -/

structure McastCmd where
  len : Nat
  src : Nat
  lease : Nat
  cmask : Nat
  off : Nat
  die : Nat
deriving DecidableEq, Repr

def mcastCmd (cmd : List Byte) : McastCmd :=
  { len := cmdField cmd 63 32, src := cmdField cmd 127 64, lease := cmdField cmd 159 128, cmask := cmdField cmd 183 160,
    off := cmdField cmd 223 192, die := cmdVar cmd % 4 }

def mcastBad (cmd : List Byte) : Option Nat :=
  let c := mcastCmd cmd
  match headerBad cmd (cmdVar cmd / 4 != 0) with
  | some o => some o
  | none => badField
    [(c.len % 32 != 0 || c.len == 0 || decide (262144 < c.len), 4), (field c.lease 13 0 != 0, 16),
     (cmdField cmd 191 184 != 0, 23), (c.off % 32 != 0, 24), (cmdField cmd 447 224 != 0, 28)]

/-- Whether a Team is bound to a lease in a cluster (R405). -/
def Team.bound (t : Team) (kernel cl : Nat) (c : McastCmd) : Bool :=
  let coord := field c.lease 31 16
  t.kernel == kernel && clusterOf t.home == cl && t.leased && decide (c.off + c.len ≤ 256 * t.tscr)
    && (match field c.lease 15 14 with | 0 => t.x == coord | 1 => t.y == coord | 2 => t.z == coord | _ => true)

def State.window (s : State) (die : Nat) : Window := s.windows.getD die Window.reset
def State.setWindow (s : State) (die : Nat) (w : Window) : State := { s with windows := s.windows.set die w }

/-- The clusters that an MCAST names on its die, by their numbers on the device. -/
def McastCmd.clusters (c : McastCmd) : List Nat := ((upFrom 0 24).filter (bitAt c.cmask)).map (fun cl => 24 * c.die + cl)

/-- The bytes of a multicast go to each cluster named on another die as a packet (R394, R395); those it sends first, or waits for. -/
def State.mcastAway (s : State) (id : Nat) (o : Op) (c : McastCmd) : Option State :=
  if c.die = o.die || c.cmask = 0 then none
  else if !s.carried (mcastTag id) then some (c.clusters.foldl (fun s cl => s.sendPacket o.place (4 * cl) (mcastTag id)) s)
  else if s.crossing (mcastTag id) then some s
  else none

/-- A multicast begins to land (R405, R406): the Teams bound in each named cluster are fixed, and its range is registered on their home cores,
once each has room (R205); a cluster without one is skipped. -/
def State.mcastBegin (s : State) (id : Nat) (o : Op) (data : List Byte) : State :=
  let c := mcastCmd o.cmd
  match s.mcastAway id o c with
  | some t => t.due [.mcast id]
  | none =>
    let bound (cl : Nat) : List (Nat × Team) := s.teams.filter (fun e => e.2.bound (o.kernel.getD 0) cl c)
    let ts := c.clusters.foldl (fun acc cl => acc ++ bound cl) []
    if ts.any (fun e => decide (boardSize ≤ (s.core e.2.home).board.length)) then s.due [.mcast id]
    else
      let s1 := ts.foldl (fun s e =>
        let k := s.core e.2.home
        s.setCore e.2.home { k with board := k.board ++ [{ op := id, lo := e.2.scr c.off, len := c.len }] }) s
      let skipped := (c.clusters.filter (fun cl => (bound cl).isEmpty)).length
      (s1.setOp id { o with state := .left, wants := none, aux := skipped :: ofBytes data :: ts.map (fun e => e.1) }).due [.mcast id]

/-- The bytes land, and the clusters skipped are counted (R406). -/
def State.mcastLand (s : State) (id : Nat) (o : Op) : State :=
  let c := mcastCmd o.cmd
  match o.aux with
  | skipped :: data :: ts =>
    let s1 := ts.foldl (fun s t => match s.teams.get? t with
      | some x => s.poolPut x.home (x.scr c.off) (toBytes c.len data)
      | none => s) s
    let w := s1.window o.inst
    (s1.setWindow o.inst { w with mcskip := min (2 ^ 32 - 1) (w.mcskip + skipped) }).finishOp id o
      (if skipped = 0 then stOK 0 else stPARTIAL skipped)
  | _ => s

/-- An MCAST that has been translated reads its source (R249). -/
def State.multicast (s : State) (id : Nat) (o : Op) : State :=
  let c := mcastCmd o.cmd
  if !bitAt (s.part (s.sealedOf (s.ctx o.ctx).part)).dmask c.die then s.finishOp id o stPROT
  else s.opVreads id o 0 [(c.src, c.len)] (.mcast id) (fun s => s.mcastBegin id o (s.vread o.pages c.src c.len))

/-- MCAST (R249, R405). -/
def execMcast (id : Nat) (s : State) : Out :=
  match s.op? id with
  | none => .next s
  | some o =>
    let c := mcastCmd o.cmd
    if o.starting then
      .next (leaveWith id (.mcast id) (fun _ o => (mcastBad o.cmd).map stFORMAT) (fun _ _ => [(c.src, c.len, .engRead)])
        (fun s o => s.multicast id o) s)
    else if o.state = .left then .next (s.mcastLand id o)
    else .next s

end Sys2Proof.Machine
end

