-- ==== Sys2Proof/Machine/Index.lean ====
section
/-! DEFINITION. Indexes (15_index.md): ids, slots, distances (R64, R367 to R372), updates and publication (R374 to R376), searches
(R377 to R386). -/

namespace Sys2Proof.Machine

/-! ## Descriptors, ids, slots -/

def State.index (s : State) (n : Nat) : Index := s.indexes.getD n Index.reset
def State.setIndex (s : State) (n : Nat) (x : Index) : State := { s with indexes := s.indexes.set n x }

def Index.seg? (x : Index) (stack : Nat) : Option Seg := x.segs.find? (fun g => g.stack == stack)

/-- Fields of a global id (R367). -/
def idSlot (id : Nat) : Nat := field id 39 0
def idStack (id : Nat) : Nat := field id 43 40
def idModule (id : Nat) : Nat := field id 51 44
def idRes (id : Nat) : Nat := field id 63 52

/-- Whether an id is valid for an Index (R367). -/
def Index.valid (x : Index) (id : Nat) : Bool :=
  idRes id == 0 && idModule id == x.modid && (match x.seg? (idStack id) with | some g => decide (idSlot id < g.nslot) | none => false)

/-- Element types: 0 f32, 1 bf16, 2 f16, 3 int8, 4 NPI. -/
def Index.esize (x : Index) : Nat := if x.etype = 0 then 4 else if x.etype = 3 then 1 else 2

/-- Bytes of a plane of NPI, and of a vector, rounded up to 64 (R370, R371). -/
def Index.planeBytes (x : Index) : Nat := 32 * ((x.dim + 255) / 256)
def Index.vb (x : Index) : Nat :=
  let n := if x.etype = 4 then 8 * x.planeBytes else x.esize * x.dim
  (n + 63) / 64 * 64
def Index.stride (x : Index) : Nat := 576 + x.vb

/-- The physical address of an id's slot. -/
def Index.slotPa (x : Index) (id : Nat) : Nat :=
  match x.seg? (idStack id) with | some g => g.base + idSlot id * x.stride | none => 0

/-- Bytes of a query (R371). -/
def Index.queryBytes (x : Index) : Nat :=
  if x.metric = 2 then (x.dim + 7) / 8 else if x.etype = 4 then x.dim else x.esize * x.dim

/-! ## Distances (R64, R378) -/

/-- A float element widened exactly to FP32. -/
def wideElem (etype x : Nat) : Nat :=
  if etype = 0 then x else (fcvtVal fmtF32 .rne (fdecode (if etype = 1 then fmtBf16 else fmtF16) x)).bits

/-- FP32 operations under rne on bits. -/
def f32Add (a b : Nat) : Nat := (faddVal fmtF32 .rne (fdecode fmtF32 a) (fdecode fmtF32 b)).bits
def f32Sub (a b : Nat) : Nat := (fsubVal fmtF32 .rne (fdecode fmtF32 a) (fdecode fmtF32 b)).bits
def f32Mul (a b : Nat) : Nat := (fmulVal fmtF32 .rne (fdecode fmtF32 a) (fdecode fmtF32 b)).bits

/-- Block sums of 64 terms by the tree of R62, then a chain from block 0. -/
def blockChain (n : Nat) : List Nat → Nat → Option Nat → Nat
  | _, 0, acc => acc.getD 0
  | ts, k + 1, acc =>
    let r := (((redTree .fadd .rne 6 ((ts.take 64).map (fun x => some { bits := x }))).head?.getD none).map (·.bits)).getD 0
    let acc' := match acc with | none => r | some a => f32Add a r
    if (ts.drop 64).isEmpty then acc' else blockChain n (ts.drop 64) k (some acc')

/-- A float distance: squared L2 or negated inner product. -/
def floatDist (metric etype : Nat) (q x : List Nat) : Nat :=
  let ts := (q.zip x).map (fun p =>
    let a := wideElem etype p.1
    let b := wideElem etype p.2
    if metric = 0 then (let d := f32Sub a b; f32Mul d d) else f32Mul a b)
  let t := blockChain 0 ts (ts.length / 64 + 1) none
  if metric = 0 || isNanVal (fdecode fmtF32 t) then t else (t + 2 ^ 31) % 2 ^ 32

/-- An integer distance, converted once; a total of 0 that is negated is -0.0 (R64). -/
def intDist (metric : Nat) (q x : List Int) : Nat :=
  let t := (q.zip x).foldl (fun acc p => acc + (if metric = 0 then (p.1 - p.2) * (p.1 - p.2) else p.1 * p.2)) (0 : Int)
  (roundExact fmtF32 .rne (if metric = 0 then t else -t) 0 (metric != 0)).bits

/-- Elements of a packed list of bytes. -/
def Index.elems (x : Index) (bs : List Byte) : List Nat := splitNums x.esize x.dim bs

/-- The integer value of element d of an NPI vector at k planes (R51, R371). -/
def Index.npi (x : Index) (bs : List Byte) (k d : Nat) : Int :=
  reconstruct x.sgn x.midpt k (fun p => bitAt (bs.getD (p * x.planeBytes + d / 8) 0).toNat (d % 8))

/-- The distance of a stored vector, at kc planes when kc is not 0 (R378). -/
def Index.distance (x : Index) (query vec : List Byte) (kc : Nat) : Nat :=
  if x.metric = 2 then
    let n := (upFrom 0 x.dim).foldl (fun n d =>
      if bitAt (query.getD (d / 8) 0).toNat (d % 8) = bitAt (vec.getD (d / 8) 0).toNat (d % 8) then n else n + 1) 0
    (roundExact fmtF32 .rne n 0 false).bits
  else if x.etype = 4 then
    let int8 (b : Byte) : Int := if x.sgn then signedOf 8 b.toNat else b.toNat
    intDist x.metric ((query.take x.dim).map int8) ((upFrom 0 x.dim).map (fun d => x.npi vec (if kc = 0 then 8 else kc) d))
  else if x.etype = 3 then
    let v (n : Nat) : Int := if x.sgn then signedOf 8 n else n
    intDist x.metric ((x.elems query).map v) ((x.elems vec).map v)
  else floatDist x.metric x.etype (x.elems query) (x.elems vec)

/-! ## The merge rule (R379) -/

/-- Whether one distance ranks strictly before another: numbers by value, NaN after every number. -/
def distLess (a b : Nat) : Bool :=
  let x := fdecode fmtF32 a
  let y := fdecode fmtF32 b
  if isNanVal x then false else if isNanVal y then true else fcmpVal x y == .lt

/-- Key order (R379). -/
def keyBefore (a b : Cand) : Bool := distLess a.d b.d || (!distLess b.d a.d && decide (a.id < b.id))

def insertCand (c : Cand) : List Cand → List Cand
  | [] => [c]
  | x :: r => if keyBefore c x then c :: x :: r else x :: insertCand c r

/-- An arriving entry enters a list of a capacity, in key order (R379). -/
def enlist (cap : Nat) (l : List Cand) (c : Cand) : List Cand :=
  if l.any (fun x => x.id == c.id) then l else (insertCand c l).take cap

/-! ## Reading slots -/

/-- The end of a search's snapshot: versions of a slot against a snapshot (R372). -/
def slotVisible (ins del snap : Nat) : Bool := decide (ins ≤ snap ∧ snap < del)

/-- A slot's versions, adjacency count and ids (R370, R385). -/
def State.slotIns (s : State) (x : Index) (id : Nat) : Nat := s.numPhys (x.slotPa id) 4
def State.slotDel (s : State) (x : Index) (id : Nat) : Nat := s.numPhys (x.slotPa id + 4) 4
def State.slotAdj (s : State) (x : Index) (id : Nat) : List Nat :=
  let n := min 64 (s.numPhys (x.slotPa id + 8) 4)
  (upFrom 0 n).map (fun j => s.numPhys (x.slotPa id + 0x40 + 8 * j) 8)
def State.slotVec (s : State) (x : Index) (id : Nat) : List Byte := s.readPhys (x.slotPa id + 0x240) x.vb

/-- Whether an uncorrectable line of a slot counts as unprotected: no leaf of the owning Context with p = 1 maps it (R384). -/
def State.slotLost (s : State) (x : Index) (a : Nat) : Bool := s.badLines.contains (lineKey s.regions a) && !s.protFor x.ctx a

/-- The first of n bytes of a slot for which a request waits at its home, and whether one is lost for good (R363, R365, R384). -/
def State.slotWaits (s : State) (r : Req) (x : Index) (id n : Nat) : Option Nat :=
  (upFrom (x.slotPa id) n).find? (fun a =>
    ({ s with badLines := s.badLines.filter (fun l => l != lineKey s.regions a || s.protFor x.ctx a) } : State).waitsFor r (idStack id / 4) a)
def State.slotPoison (s : State) (x : Index) (id n : Nat) : Bool :=
  s.poisoned (x.slotPa id) n || (upFrom (x.slotPa id) n).any (s.slotLost x)

/-- An operation's request for n bytes of slots has been served: it stands nowhere any more, and their lines are tagged (R362, R363). -/
def State.slotServed (s : State) (id : Nat) (x : Index) (ids : List Nat) (n : Nat) : State :=
  let t := s.unparkReq (.op id)
  match t.op? id with
  | some o => t.tagOp o (ids.foldl (fun acc i => unionNat acc (sectorsOf (x.slotPa i) n)) [])
  | none => t

/-! ## Searches: fields (R244) -/

structure SrchCmd where
  kc : Nat
  k : Nat
  beam : Nat
  query : Nat
  rbuf : Nat
  budget : Nat
  index : Nat
  snap : Nat
  ents : List Nat
deriving DecidableEq, Repr

def srchCmd (cmd : List Byte) : SrchCmd :=
  { kc := cmdVar cmd % 8, k := cmdField cmd 47 32, beam := cmdField cmd 63 48, query := cmdField cmd 127 64,
    rbuf := cmdField cmd 191 128, budget := cmdField cmd 215 192, index := cmdField cmd 223 216, snap := cmdField cmd 255 224,
    ents := (upFrom 0 4).map (fun e => cmdField cmd (64 * e + 319) (64 * e + 256)) }

/-- The header of SRCH: var 1 and bits 7:3 of var are reserved (R238, R244). -/
def srchHead (cmd : List Byte) : Option Nat := headerBad cmd (cmdVar cmd == 1 || decide (8 ≤ cmdVar cmd))

/-- Fields of SRCH outside their limits, the Index given (R244, R377). -/
def srchBad (x : Index) (cmd : List Byte) : Option Nat :=
  let c := srchCmd cmd
  badField
    [(decide (2 ≤ c.kc) && (x.etype != 4 || x.metric == 2), 2),
     (c.k == 0 || decide (256 < c.k), 4), (decide (c.beam < c.k) || decide (1024 < c.beam), 6), (c.rbuf % 16 != 0, 16), (c.budget == 0, 24),
     (!c.ents.any x.valid, 32)]

/-- Whether an Index serves a command that leaves (R373). -/
def State.indexServes (s : State) (n ctx : Nat) : Bool := (s.index n).state == 1 && (s.index n).ctx == ctx

/-- Bytes of a search's result header (R244). -/
def srchHeader (status count snap hops : Nat) : List Byte :=
  toBytes 4 status ++ toBytes 4 count ++ toBytes 4 snap ++ toBytes 4 (min hops (2 ^ 32 - 1))

/-- A search's results as entries of the buffer (R244). -/
def resultBytes (l : List Cand) : List Byte := l.foldl (fun acc c => acc ++ toBytes 8 c.id ++ toBytes 4 c.d ++ toBytes 4 0) []

/-- A search ends: entries, then the header, in one engine Chunk (R244, R383); its status word follows once that one has committed.
Without a place for the header nothing is written. -/
def State.endSearch (s0 : State) (id : Nat) (o : Op) (status snap hops : Nat) (l : List Cand) : State :=
  let s := s0.unparkReq (.op id)
  let o1 := { o with status := status, wants := none }
  match o.stva with
  | some rb =>
    s.offerUnit id { o1 with state := .committing }
      ((if l.isEmpty then [] else putAt o.pages (rb + 16) (resultBytes l)) ++
        putAt o.pages (rb + 4) ((srchHeader status l.length snap hops).drop 4))
  | none => (s.setOp id { o1 with state := .status }).due [.operationComplete id]

/-- The status word of a search: one further engine Chunk (R237, R383). -/
def State.searchStatus (s : State) (id : Nat) (o : Op) : State :=
  s.offerUnit id { o with state := .status } (putAt o.pages (o.stva.getD 0) (toBytes 4 o.status))

/-! ## The walk (R380 to R382) -/

def State.search? (s : State) (n : Nat) : Option Search := s.searches.get? n
def State.setSearch (s : State) (n : Nat) (x : Search) : State := { s with searches := s.searches.set n x }

/-- The event that serves a message of its kind, the one at place i among them. -/
def walkEvent (n i : Nat) (m : WalkMsg) : Instr :=
  match m with
  | .score _ _ _ => .scoreRequest n i
  | .expand _ _ _ => .expandRequest n i
  | .refine _ _ _ => .refineRequest n i
  | .scored _ _ _ _ => .scoreReply n i
  | .expanded _ _ => .expandReply n i
  | .refined _ _ _ => .refineReply n i

/-- The stack at which a request is served, and its number in the order of arrival. -/
def WalkMsg.atStack (m : WalkMsg) : Option (Nat × Nat) :=
  match m with
  | .score st _ k => some (st, k)
  | .expand st _ k => some (st, k)
  | .refine st _ k => some (st, k)
  | _ => none

/-- A message with its number in the order of arrival, and that number. -/
def WalkMsg.arrive (k : Nat) (m : WalkMsg) : WalkMsg :=
  match m with
  | .score st ids _ => .score st ids k
  | .expand st id _ => .expand st id k
  | .refine st id _ => .refine st id k
  | .scored id d vis _ => .scored id d vis k
  | .expanded f _ => .expanded f k
  | .refined id d _ => .refined id d k
def WalkMsg.no (m : WalkMsg) : Nat :=
  match m with
  | .score _ _ k => k
  | .expand _ _ k => k
  | .refine _ _ k => k
  | .scored _ _ _ k => k
  | .expanded _ k => k
  | .refined _ _ k => k

/-- Walker contexts of a stack (R23). -/
def walkerContexts : Nat := 2048

/-- Whether a request has a walker context of its stack: they go to the requests there in the order of arrival (R380). -/
def State.hasContext (s : State) (m : WalkMsg) : Bool :=
  match m.atStack with
  | some (st, k) =>
    decide ((s.searches.foldl (fun n e => n + (e.2.msgs.filter (fun m => match m.atStack with
      | some (t, j) => t == st && decide (j < k)
      | none => false)).length) 0) < walkerContexts)
  | none => true

/-- The endpoint of a stack's controller (R395). -/
def controllerEnd (stack : Nat) : Nat := engineEnd (16 + stack) stack

/-- Whether a message of a search can be served: it has reached its stack, and a request has a walker context there (R380, R395). -/
def State.serves (s : State) (n : Nat) (m : WalkMsg) : Bool := s.hasContext m && !s.crossing (hopTag n m.no)

/-- The packet of a message that passes between stacks of two dies: a reply ends at the search's home (R395). -/
def State.sendHop (s : State) (n src home : Nat) (m : WalkMsg) : State :=
  let dst := match m.atStack with | some (st, _) => st | none => home
  if src / 4 = dst / 4 then s else s.sendPacket (controllerEnd src) (controllerEnd dst) (hopTag n m.no)

/-- A message leaves; a request between two stacks is a hop (R380). -/
def Search.post (x : Search) (hop : Bool) (m : WalkMsg) : Search := { x with msgs := x.msgs ++ [m], hops := x.hops + hop.toNat }

/-- Capacity of the result heap. -/
def Search.kr (x : Search) : Nat := if 0 < x.kc then x.beam else x.k

/-- The loop of R380 up to its next wait: the search, and whether the walk has ended. -/
def walkLoop : Nat → Search → Search × Bool
  | 0, x => (x, false)
  | fuel + 1, x =>
    let out := x.ex + max x.sc 0
    let c := x.c.find? (fun e => !e.expanded)
    let stop : Bool := match c with
      | none => true
      | some e => x.spent || (x.r.length == x.kr && (match x.r.getLast? with | some w => keyBefore w e | none => false))
    if stop && x.ex == 0 && x.sc == 0 then (x, true)
    else if !stop && decide (out < 8) then
      match c with
      | some e =>
        if x.hops < x.budget || idStack e.id == x.home then
          let y : Search := { x with c := x.c.map (fun (f : Cand) => if f.id = e.id then { f with expanded := true } else f), ex := x.ex + 1 }
          walkLoop fuel (y.post (idStack e.id != x.home) (.expand (idStack e.id) e.id 0))
        else
          let y := { x with spent := true }
          (y, x.ex == 0 && x.sc == 0)
      | none => (x, false)
    else (x, false)

/-- Expansions that one pass of the loop can send. -/
def walkFuel : Nat := 10

/-- Events for messages that have been added; which one of its kind each serves is free: replies reach the home in any order (R380). -/
def newEvents (n fresh : Nat) (ms : List WalkMsg) : List Instr :=
  (ms.zip (upFrom fresh ms.length)).map (fun p => walkEvent n (Config.freeWord p.2).toNat p.1)

/-- The messages of a search after its first ones leave a stack, numbered. -/
def State.posted (s : State) (n before src : Nat) (x : Search) : State :=
  let ms := ((x.msgs.drop before).zip (upFrom s.nextId (x.msgs.length - before))).map (fun p => p.1.arrive p.2)
  let t : State := ms.foldl (fun s m => s.sendHop n src x.home m) { s with nextId := s.nextId + ms.length, fresh := s.fresh + ms.length }
  (t.setSearch n { x with msgs := x.msgs.take before ++ ms }).due (newEvents n s.fresh ms)

/-- A request waits at its stack. -/
def State.defer (s : State) (n : Nat) (x : Search) (m : WalkMsg) : State :=
  (({ s with fresh := s.fresh + 1 } : State).setSearch n { x with msgs := x.msgs ++ [m] }).due (newEvents n s.fresh [m])

/-- The search is over: its buffer is written (R381 to R384). -/
def State.finishSearch (s : State) (n : Nat) (x : Search) : State :=
  match s.op? x.op with
  | some o =>
    let l := if 0 < x.kc then x.refined else x.r
    (s.setSearch n { x with msgs := [] }).endSearch x.op o (if x.spent then stBUDGET x.hops else stOK 0) x.snap x.hops (l.take x.k)
  | none => s

/-- The walk's end: refinement of every result when kc > 0 (R382). -/
def State.walkEnds (s : State) (n : Nat) (x : Search) : State :=
  if x.kc = 0 || x.r.isEmpty then s.finishSearch n x
  else
    s.posted n x.msgs.length x.home
      (x.r.foldl (fun y e => y.post (idStack e.id != y.home) (.refine (idStack e.id) e.id 0)) { x with refining := true, rf := x.r.length })

/-- Go on with the loop after the start or a reply; before is the number of messages already announced. -/
def State.walkOn (s : State) (n : Nat) (x : Search) (before : Nat) : State :=
  let r := walkLoop walkFuel x
  if r.2 then s.walkEnds n r.1 else s.posted n before x.home r.1

/-- A poisoned slot ends the search with UCE (R384). -/
def State.searchUce (s : State) (n : Nat) (x : Search) : State :=
  match s.op? x.op with
  | some o => (s.setSearch n { x with bad := true, msgs := [] }).endSearch x.op o stUCE x.snap x.hops []
  | none => s

/-- Take the idx-th message that satisfies a test. -/
def takeMsg (p : WalkMsg → Bool) : Nat → List WalkMsg → Option (WalkMsg × List WalkMsg)
  | _, [] => none
  | i, m :: r =>
    if p m then
      (match i with
      | 0 => some (m, r)
      | j + 1 => (takeMsg p j r).map (fun x => (x.1, m :: x.2)))
    else (takeMsg p i r).map (fun x => (x.1, m :: x.2))

/-- A message of a search that still runs: of those of its kind, the one at place idx, counted round. A request without a walker context,
or a message that has not arrived, waits (R380, R395). -/
def State.withMsg (s : State) (n idx : Nat) (p : WalkMsg → Bool) (k : Search → WalkMsg → State) : Out :=
  match s.search? n with
  | none => .next s
  | some x =>
    let c := (x.msgs.filter p).length
    if x.bad then .next s
    else match takeMsg p (if c ≤ 1 then 0 else idx % c) x.msgs with
      | some (m, r) => .next (if s.serves n m then k { x with msgs := r } m else s.defer n { x with msgs := r } m)
      | none => .next s

/-- The score of a slot for a search: distance and visibility (R378, R380). -/
def State.scoreOf (s : State) (x : Search) (id : Nat) : WalkMsg :=
  let ix := s.index x.index
  .scored id (ix.distance x.query (s.slotVec ix id) x.kc) (slotVisible (s.slotIns ix id) (s.slotDel ix id) x.snap) 0

/-- A request reads slots at its stack: it waits at their homes, ends the search where a slot is poisoned (R384), and goes on by k. -/
def State.slotReads (s : State) (n : Nat) (x : Search) (m : WalkMsg) (ids : List Nat) (k : State → State) : State :=
  let ix := s.index x.index
  match ids.findSome? (fun i => s.slotWaits (.op x.op) ix i ix.stride) with
  | some pa => (s.await pa (.op x.op)).defer n x m
  | none => if ids.any (fun i => s.slotPoison ix i ix.stride) then s.searchUce n x else k (s.slotServed x.op ix ids ix.stride)

/-- What a search's fields and Index say when it leaves (R238, R244, R373, R377): the status that ends it, if any. -/
def State.srchFault (s : State) (o : Op) : Option Nat :=
  let c := srchCmd o.cmd
  let x := s.index c.index
  match srchHead o.cmd with
  | some off => some (stFORMAT off)
  | none => if !s.indexServes c.index o.ctx || (x.seg? o.inst).isNone then some stINDEX else (srchBad x o.cmd).map stFORMAT

/-- What a search keeps from its leaving (R377): its status, or its snapshot S, which is registered in minsnap from then on. -/
def srchLeave (s : State) (o : Op) : State × Op :=
  match s.srchFault o with
  | some st => (s, { o with status := st })
  | none =>
    let c := srchCmd o.cmd
    let x := s.index c.index
    (s, { o with aux := [if x.pub < c.snap then x.pub else c.snap] })

/-- Search tiles of a stack, and the searches whose two heaps a tile holds: it has 64 (R23, R377). -/
def searchTiles : Nat := 8
def tileSearches : Nat := 32

/-- The home tile of a search: the lowest-numbered tile of its stack with two free heaps (R377). -/
def State.homeTile (s : State) (stack : Nat) : Nat :=
  ((upFrom 0 searchTiles).find? (fun t =>
    decide ((s.searches.filter (fun e => e.2.home == stack && e.2.tile == t && (s.op? e.2.op).isSome)).length < tileSearches))).getD 0

/-- A search that has left: its result buffer, then its query, then its first score requests (R236, R244, R377). -/
def State.startSearch (s : State) (id : Nat) (o : Op) : State :=
  let c := srchCmd o.cmd
  let x := s.index c.index
  let early := o.status ≠ 0
  let len := if early then 16 else 16 + 16 * c.k
  if c.rbuf % 16 ≠ 0 then s.endSearch id o o.status 0 0 []
  else match s.reach o.ctx [(c.rbuf, len, .engWrite)] with
    | .missing va acc => (s.engineWalk id o va acc).due [.srch id]
    | .refused => s.endSearch id o (if early then o.status else stPROT) 0 0 []
    | .ok ps =>
      let o1 := { o with stva := some c.rbuf, pages := ps }
      if early then s.endSearch id o1 o.status 0 0 []
      else match s.reach o.ctx [(c.query, x.queryBytes, .engRead)] with
        | .missing va acc => (s.engineWalk id o va acc).due [.srch id]
        | .refused => s.endSearch id o1 stPROT 0 0 []
        | .ok qs =>
          s.opReads id o 1 ((upFrom c.query x.queryBytes).map (paOf qs)) (.srch id) (fun s =>
            if s.vpoison qs c.query x.queryBytes then s.endSearch id o1 stUCE 0 0 []
            else
              let es := c.ents.filter x.valid
              let y : Search :=
                { op := id, index := c.index, home := o.inst, snap := o.aux.headD 0, kc := c.kc,
                  k := c.k, beam := c.beam, budget := c.budget, query := s.vread qs c.query x.queryBytes, c := [], r := [],
                  refined := [], hops := 0, ex := 0, sc := es.length, rf := 0, spent := false, bad := false, msgs := [],
                  refining := false, rbuf := c.rbuf, status := 0, tile := s.homeTile o.inst, modid := x.modid, tport := x.tport }
              let y1 := es.foldl (fun y e => y.post (idStack e != y.home) (.score (idStack e) [e] 0)) y
              (s.setOp id { o1 with state := .left, wants := none, pages := addPages ps qs }).walkOn id y1 0)

/-- SRCH (R377): it leaves in order with its snapshot, and its walk starts. -/
def execSrch (id : Nat) (s : State) : Out :=
  .next (match s.op? id with
    | some o =>
      if o.state = .committing then (if o.units = 0 then s.searchStatus id o else s)
      else leaveThen id (.srch id) srchLeave (fun s o => s.startSearch id o) s
    | none => s)

def isScore (m : WalkMsg) : Bool := match m with | .score _ _ _ => true | _ => false
def isExpand (m : WalkMsg) : Bool := match m with | .expand _ _ _ => true | _ => false
def isRefine (m : WalkMsg) : Bool := match m with | .refine _ _ _ => true | _ => false
def isScored (m : WalkMsg) : Bool := match m with | .scored _ _ _ _ => true | _ => false
def isExpanded (m : WalkMsg) : Bool := match m with | .expanded _ _ => true | _ => false
def isRefined (m : WalkMsg) : Bool := match m with | .refined _ _ _ => true | _ => false

/-- SCORE_REQUEST (R380): a stack answers with one score reply for each id. -/
def execScoreRequest (n idx : Nat) (s : State) : Out :=
  s.withMsg n idx isScore (fun x m =>
    match m with
    | .score st ids _ => s.slotReads n x m ids (fun s =>
      s.posted n x.msgs.length st (ids.foldl (fun y i => y.post false (s.scoreOf x i)) x))
    | _ => s)

/-- Score requests that an expansion forwards: one for each other stack (R380). -/
def forwards (stack : Nat) (ids : List Nat) : List (Nat × List Nat) :=
  (unionNat [] ((ids.map idStack).filter (· != stack))).map (fun t => (t, ids.filter (fun i => idStack i == t)))

/-- EXPAND_REQUEST (R380): the adjacency is read whole; the expand reply, the stack's own scores, and the forwarded requests leave. -/
def execExpandRequest (n idx : Nat) (s : State) : Out :=
  s.withMsg n idx isExpand (fun x m =>
    match m with
    | .expand st id _ =>
      let ix := s.index x.index
      let ids := (s.slotAdj ix id).filter ix.valid
      let own := ids.filter (fun i => idStack i == st)
      s.slotReads n x m (id :: own) (fun s =>
        let y := x.post false (.expanded ids.length 0)
        let y1 := own.foldl (fun y i => y.post false (s.scoreOf x i)) y
        s.posted n x.msgs.length st ((forwards st ids).foldl (fun y f => y.post true (.score f.1 f.2 0)) y1))
    | _ => s)

/-- SCORE_REPLY (R380): the heaps take the entry, and the walk goes on. -/
def execScoreReply (n idx : Nat) (s : State) : Out :=
  s.withMsg n idx isScored (fun x m =>
    match m with
    | .scored id d vis _ =>
      let e : Cand := { d := d, id := id, expanded := false }
      let held := x.c.any (fun c => c.id == id) || x.r.any (fun c => c.id == id)
      let y := { x with sc := x.sc - 1 }
      let y1 := if held then y else { y with c := enlist x.beam x.c e, r := if vis then enlist x.kr x.r e else x.r }
      s.walkOn n y1 y1.msgs.length
    | _ => s)

/-- EXPAND_REPLY (R380). -/
def execExpandReply (n idx : Nat) (s : State) : Out :=
  s.withMsg n idx isExpanded (fun x m =>
    match m with
    | .expanded f _ =>
      let y := { x with ex := x.ex - 1, sc := x.sc + f }
      s.walkOn n y y.msgs.length
    | _ => s)

/-- REFINE_REQUEST (R382): the full distance of a result. -/
def execRefineRequest (n idx : Nat) (s : State) : Out :=
  s.withMsg n idx isRefine (fun x m =>
    match m with
    | .refine st id _ => s.slotReads n x m [id] (fun s =>
      s.posted n x.msgs.length st (x.post false (.refined id ((s.index x.index).distance x.query (s.slotVec (s.index x.index) id) 0) 0)))
    | _ => s)

/-- REFINE_REPLY (R382): the refined entry enters the final list; with the last one the search is over. -/
def execRefineReply (n idx : Nat) (s : State) : Out :=
  s.withMsg n idx isRefined (fun x m =>
    match m with
    | .refined id d _ =>
      let y := { x with rf := x.rf - 1, refined := enlist x.k x.refined { d := d, id := id, expanded := true } }
      if y.rf = 0 then (s.setSearch n y).finishSearch n y else s.setSearch n y
    | _ => s)

/-! ## MERGE (R386) -/

/-- The message of a search that has completed. -/
def mergeBytes (n : Search) (l : List Cand) : List Byte :=
  toBytes 4 n.status ++ toBytes 4 (n.modid + n.index * 2 ^ 8 + l.length * 2 ^ 16) ++ toBytes 4 n.snap ++ toBytes 4 n.k ++ toBytes 8 n.rbuf
    ++ toBytes 8 0 ++ resultBytes l

/-- The reduction switch on a port, as an end-to-end destination (R395). -/
def switchOf (port : Nat) : Nat := 256 + port

/-- The record of a search whose command has completed, for its MERGE: one that ended without a walk lists nothing (R386). -/
def State.searchDone (s : State) (id : Nat) (o : Op) : Search :=
  let c := srchCmd o.cmd
  match s.search? id with
  | some x => { x with status := o.status, modid := (s.index c.index).modid, tport := (s.index c.index).tport }
  | none => { op := id, index := c.index, home := o.inst, snap := 0, kc := 0, k := c.k, beam := c.beam, budget := c.budget, query := [],
              c := [], r := [], refined := [], hops := 0, ex := 0, sc := 0, rf := 0, spent := false, bad := true, msgs := [],
              refining := false, rbuf := c.rbuf, status := o.status, tile := 0, modid := (s.index c.index).modid,
              tport := (s.index c.index).tport }

/-- MERGE (R386): the list leaves on the tree's port once, when the way there is open (R394); a message for an unreachable destination is dropped and counted (R397). The
status, the tag and the list stand with the search. -/
def execMerge (n : Nat) (s : State) : Out :=
  match s.search? n with
  | none => .next s
  | some x =>
    if (s.op? x.op).isSome then .next (s.due [.merge n])
    else
      let s1 := { s with searches := s.searches.erase n }
      let gone : Bool := s.unreachable.contains (switchOf x.tport)
      let l := if x.bad then [] else (if 0 < x.kc then x.refined else x.r).take x.k
      if gone then .next { s1 with mergesLost := s1.mergesLost + 1 }
      else if !s.nslOpen (x.home / 4) x.tport then .next (s.due [.merge n])
      else
        let s2 : State := { s1 with merges := s1.merges ++ [(x.tport, mergeBytes x l)] }
        .next (s2.sendPacket (portEnd x.tport) (moduleEnd (switchOf x.tport)) s1.merges.length)

/-! ## UPD (R245, R374) -/

structure UpdCmd where
  ver : Nat
  gid : Nat
  vec : Nat
  adj : Nat
  adjn : Nat
  index : Nat
deriving DecidableEq, Repr

def updCmd (cmd : List Byte) : UpdCmd :=
  { ver := cmdField cmd 63 32, gid := cmdField cmd 127 64, vec := cmdField cmd 191 128, adj := cmdField cmd 255 192,
    adjn := cmdField cmd 271 256, index := cmdField cmd 279 272 }

/-- The header, checked before all else (R238): variants above 2 are reserved. -/
def updBad (cmd : List Byte) : Option Nat := headerBad cmd (decide (2 < cmdVar cmd))

/-- The checks of R374 and R373: a status that ends the command. -/
def State.updFault (s : State) (o : Op) (c : UpdCmd) : Option Nat :=
  let x := s.index c.index
  if !s.indexServes c.index o.ctx || idStack c.gid ≠ o.inst || idModule c.gid ≠ x.modid || (x.seg? o.inst).isNone then some stINDEX
  else match badField [(c.ver == 0 || c.ver == 0xFFFFFFFF, 4), (!x.valid c.gid, 8), (decide (64 < c.adjn), 32),
      (cmdField o.cmd 447 280 != 0, 35)] with
    | some off => some (stFORMAT off)
    | none => if c.ver ≤ x.pub then some (stVERSION x.pub) else none

/-- The memory that an update reads. -/
def updReqs (x : Index) (v : Nat) (c : UpdCmd) : List (Nat × Nat × AccKind) :=
  (if v = 1 then [] else [(c.adj, 8 * c.adjn, AccKind.engRead)]) ++ (if v = 0 then [(c.vec, x.vb, AccKind.engRead)] else [])

/-- An update of the same slot that left before and has not completed (R374). -/
def State.updBehind (s : State) (o : Op) (c : UpdCmd) : Bool :=
  s.ops.any (fun e => cmdFmt e.2.cmd == 5 && e.2.state != .queued && e.2.ctx == o.ctx && e.2.q == o.q && decide (e.2.num < o.num)
    && (updCmd e.2.cmd).gid == c.gid && (updCmd e.2.cmd).index == c.index)

/-- Whether a search has its snapshot registered: from its leaving until its status word has committed (R377, R383). -/
def Op.registered (o : Op) : Bool :=
  cmdFmt o.cmd == 4 && o.state != .queued && !(o.state == .status && o.units == 0 && o.stva.isSome)

/-- The lowest snapshot of an Index's searches in flight; a Free Index reads its reset value (R368). -/
def State.minsnap (s : State) (index : Nat) : Nat :=
  if (s.index index).state = 0 then 0
  else s.ops.foldl (fun m e => match e.2.aux with
    | [v] => if e.2.registered ∧ (srchCmd e.2.cmd).index = index then min m v else m
    | _ => m) 0xFFFFFFFF

/-- The adjacency words of an update: adjn and its ids (R370). -/
def adjItems (s : State) (o : Op) (c : UpdCmd) (pa : Nat) : List BufItem :=
  [storeItem (pa + 8) (toBytes 4 c.adjn), storeItem (pa + 0x40) (s.vread o.pages c.adj (8 * c.adjn))]

/-- The first step of an update: the slot's state decides (R372). -/
def State.updRun (s : State) (id : Nat) (o : Op) (self : Instr) : State :=
  let c := updCmd o.cmd
  let x := s.index c.index
  let pa := x.slotPa c.gid
  let ins := s.slotIns x c.gid
  let del := s.slotDel x c.gid
  let v := cmdVar o.cmd
  let reads := updReqs x v c
  if s.updBehind o c then s.due [self]
  else
    match s.slotWaits (.op id) x c.gid 8 with
    | some p => (s.await p (.op id)).due [self]
    | none => s.opVreads id o (2 * o.pos) (reads.map (fun r => (r.1, r.2.1))) self (fun s0 =>
      let s := s0.slotServed id x [c.gid] 8
      if o.pos == 0 && s.slotPoison x c.gid 8 then s.finishOp id o stUCE
      else if v = 0 then
        if o.pos = 0 && ins ≠ 0 && del = 0xFFFFFFFF then s.finishOp id o (stFORMAT 8)
        else if o.pos = 0 && ins ≠ 0 && !(decide (del ≤ x.pub) && decide (del ≤ s.minsnap c.index)) then
          (s.setOp id { o with aux := [1] }).due [.reclaimInsert id]
        else if o.pos < x.vb then
          let n := min (255 * 32) (x.vb - o.pos)
          s.offerUnit id { o with pos := o.pos + n } [storeItem (pa + 0x240 + o.pos) (s.vread o.pages (c.vec + o.pos) n)]
        else if o.pos = x.vb then
          s.offerUnit id { o with pos := o.pos + 1 }
            ([storeItem pa (toBytes 4 c.ver ++ toBytes 4 0xFFFFFFFF)] ++ adjItems s o c pa)
        else s.finishOp id o (stOK 0)
      else if o.pos = 1 then s.finishOp id o (stOK 0)
      else if v = 1 then
        if ins = 0 || del ≠ 0xFFFFFFFF then s.finishOp id o (stFORMAT 8)
        else s.offerUnit id { o with pos := 1 } [storeItem (pa + 4) (toBytes 4 c.ver)]
      else if ins = 0 then s.finishOp id o (stFORMAT 8)
      else s.offerUnit id { o with pos := 1 } (adjItems s o c pa))

/-- What an update keeps from its leaving (R238, R374, R376): the status that the checks of that instant give it, if any. -/
def updLeave (s : State) (o : Op) : State × Op :=
  (s, { o with status := (((updBad o.cmd).map stFORMAT).or (s.updFault o (updCmd o.cmd))).getD 0 })

/-- An update leaves and is checked, is translated, and is applied at its stack (R374). -/
def updWord (id : Nat) (self : Instr) (s : State) : Out :=
  match s.op? id with
  | none => .next s
  | some o =>
    let c := updCmd o.cmd
    if o.starting then
      .next (leaveThen id self updLeave (translateWith id self (fun _ _ => []) (fun s o =>
        match s.reach o.ctx (updReqs (s.index c.index) (cmdVar o.cmd) c) with
          | .refused => s.finishOp id o stPROT
          | .missing va acc => (s.engineWalk id o va acc).due [self]
          | .ok ps => (s.setOp id { o with state := .left, pages := addPages o.pages ps, wants := none }).due [self])) s)
    else if o.state = .left && o.units = 0 && o.aux.isEmpty then .next (s.updRun id o self)
    else .next s

/-- UPD insert (R372, R374). -/
def execUpdInsert (id : Nat) (s : State) : Out := updWord id (.updInsert id) s

/-- UPD delete (R372, R374). -/
def execUpdDelete (id : Nat) (s : State) : Out := updWord id (.updDelete id) s

/-- UPD link (R372, R374). -/
def execUpdLink (id : Nat) (s : State) : Out := updWord id (.updLink id) s

/-- RECLAIM_INSERT (R372): a held insert proceeds once del ≤ pub and del ≤ minsnap. -/
def execReclaimInsert (id : Nat) (s : State) : Out :=
  match s.op? id with
  | some o =>
    let c := updCmd o.cmd
    let x := s.index c.index
    let del := s.slotDel x c.gid
    if o.state ≠ .left || o.aux ≠ [1] then .next s
    else if del ≤ x.pub ∧ del ≤ s.minsnap c.index then .next ((s.setOp id { o with aux := [] }).due [.updInsert id])
    else .next (s.due [.reclaimInsert id])
  | none => .next s

/-! ## PUBL (R246, R375) -/

def publBad (cmd : List Byte) : Option Nat :=
  match headerBad cmd (cmdVar cmd != 0) with
  | some o => some o
  | none => badField [(cmdField cmd 447 72 != 0, 9)]

/-- What a publication finds when it leaves (R373, R375): its status, none where it becomes pending at the keeper. -/
def State.publFault (s : State) (o : Op) : Option Nat :=
  let n := cmdField o.cmd 71 64
  let v := cmdField o.cmd 63 32
  let x := s.index n
  if !s.indexServes n o.ctx then some stINDEX
  else if v < x.pub then some (stVERSION x.pub)
  else if v = x.pub then some (stOK 0)
  else none

/-- A PUBL leaves (R375): what ends it is kept; a version above pub becomes pending. -/
def publLeave (id : Nat) (s : State) (o : Op) : State × Op :=
  match publBad o.cmd with
  | some off => (s, { o with status := stFORMAT off })
  | none => match s.publFault o with
    | some st => (s, { o with status := st, aux := [1] })
    | none =>
      let n := cmdField o.cmd 71 64
      (({ s with publs := s.publs ++ [(n, cmdField o.cmd 63 32, id)] } : State).due [.publication n], o)

/-- PUBL (R246, R375): aux holds 1 once nothing more is awaited. -/
def execPubl (id : Nat) (s : State) : Out :=
  .next (leaveThen id (.publ id) (publLeave id) (translateWith id (.publ id) (fun _ _ => [])
    (fun s o => if o.aux = [1] then s.finishOp id o o.status else s.setOp id { o with state := .left })) s)

/-- Whether every UPD of an Index at or below a version that has left has completed (R375). -/
def State.updsDone (s : State) (index v : Nat) : Bool :=
  !(s.ops.any (fun e => cmdFmt e.2.cmd == 5 && e.2.state != .queued && (updCmd e.2.cmd).index == index && decide ((updCmd e.2.cmd).ver ≤ v)))

/-- PUBLICATION (R375): pub becomes the highest pending version whose updates have completed, and the PUBLs that it reaches complete. -/
def execPublication (index : Nat) (s0 : State) : Out :=
  let s : State := { s0 with publs := s0.publs.filter (fun p => match s0.op? p.2.2 with
    | some o => o.state == .translating || o.state == .left
    | none => false) }
  let mine := s.publs.filter (fun p => p.1 == index)
  let best := mine.foldl (fun m p => if s.updsDone index p.2.1 then max m p.2.1 else m) 0
  if mine.isEmpty then .next s
  else if best = 0 then .next (s.due [.publication index])
  else
    let x := s.index index
    let s1 := s.setIndex index { x with pub := max x.pub best }
    let done := mine.filter (fun p => decide (p.2.1 ≤ best))
    let s2 := done.foldl (fun s p => match s.op? p.2.2 with
      | some o => if o.state = .left then s.finishOp p.2.2 o (stOK 0) else s.setOp p.2.2 { o with status := stOK 0, aux := [1] }
      | none => s) { s1 with publs := s1.publs.filter (fun p => !(p.1 == index && decide (p.2.1 ≤ best))) }
    .next (if mine.length = done.length then s2 else s2.due [.publication index])

/-- The Index that an operation names (R373). -/
def opIndex (o : Op) : Option Nat :=
  match cmdFmt o.cmd with
  | 4 => some (srchCmd o.cmd).index
  | 5 => some (updCmd o.cmd).index
  | 6 => some (cmdField o.cmd 71 64)
  | _ => none

/-- A Draining Index with no command running becomes Free (R373). -/
def State.settleIndex (s : State) (n : Nat) : State :=
  let x := s.index n
  if x.state = 2 && !(s.ops.any (fun e => opIndex e.2 == some n && e.2.state != .queued)) then s.setIndex n Index.reset else s

end Sys2Proof.Machine
end

