-- ==== Sys2Proof/Machine/Lifecycle.lean ====
section
/-! DEFINITION. What ends things: nodes (R291), Contexts that suspend or die (R270), engine operations (OPERATION_COMPLETE, R237). -/

namespace Sys2Proof.Machine

/-! ## Nodes -/

/-- A field of a node record (R288). -/
def Node.fld (n : Node) (hi lo : Nat) : Nat := field (ofBytes n.bytes) hi lo
def Node.kind (n : Node) : Nat := n.fld 3 0
def Node.prio (n : Node) : Nat := n.fld 12 10
def Node.ord (n : Node) : Bool := n.fld 13 13 == 1
def Node.halt (n : Node) : Bool := n.fld 14 14 == 1
def Node.arg0 (n : Node) : Nat := n.fld 415 352

def State.node? (s : State) (q seq : Nat) : Option Node := s.nodes.find? (fun n => n.queue == q && n.seq == seq)
def State.setNode (s : State) (n : Node) : State :=
  { s with nodes := s.nodes.map (fun m => if m.queue = n.queue ∧ m.seq = n.seq then n else m) }

/-- The Context of a node. -/
def State.nodeCtx (s : State) (n : Node) : Nat := (s.queue n.queue).ctx

/-- Whether a node has no status yet. -/
def NState.live (x : NState) : Bool := match x with | .ended => false | .complete => false | _ => true

/-- A node's own effects have committed: its status is to be written (R291). -/
def State.endNode (s : State) (q seq status : Nat) : State :=
  match s.node? q seq with
  | some n => if n.state.live then (s.setNode { n with state := .ended, status := status, wants := none }).due [.nodeComplete q seq] else s
  | none => s

/-- Node status codes (R291). -/
def stSKIPPED (seq : Nat) : Nat := 0x10 * 2 ^ 24 + seq % 2 ^ 24
def stKILLED : Nat := 0x13 * 2 ^ 24
def stDEPEND (q : Nat) : Nat := 0x14 * 2 ^ 24 + q

/-! ## Contexts (R270) -/

/-- A Suspending Context without an image on a core becomes Suspended; a Killing one without image and without a command that has left
dies, and one fault record of kind KILL is written (R270, R281). -/
def State.settleCtx (s : State) (ctx : Nat) : State :=
  let c := s.ctx ctx
  match c.state with
  | .suspending => s.settleSuspend ctx
  | .killing =>
    if (s.ctxImages ctx).isEmpty && !(s.ops.any (fun e => e.2.ctx == ctx && e.2.state != .queued)) then
      (s.setCtx ctx { c with state := .dead }).writeFault ctx (fun n =>
        faultBytes kindKill ctx n 0 0 0 0 0 0 0 s.sec s.ns 0 { cause := 0, code := 0, val := 0, pc := 0 })
    else s
  | _ => s

/-! ## OPERATION_COMPLETE (R237) -/

/-- What waits for an operation: a search's MERGE (R386), its node (R291), its Kernel (R311, R313). -/
def State.afterOp (s : State) (id : Nat) (o : Op) : State :=
  let s1 : State := if cmdFmt o.cmd = 4 then
      (let c := srchCmd o.cmd
       let x := s.index c.index
       if x.treeen && x.state != 0 && x.ctx == o.ctx then ({ s with searches := s.searches.set id (s.searchDone id o) }).due [.merge id]
       else { s with searches := s.searches.erase id })
    else s
  let s2 := match o.node with | some (q, seq) => s1.endNode q seq o.status | none => s1
  match o.kernel with | some k => s2.due [.kernelComplete k, .kernelStopped k] | none => s2

/-- OPERATION_COMPLETE (R237): the last engine Chunk has committed: arrival on the pushing Team's Barrier, then the number completes. -/
def execOperationComplete (id : Nat) (s : State) : Out :=
  match s.op? id with
  | none => .next s
  | some o =>
    if o.state ≠ .status || o.units ≠ 0 then .next s
    else
      let s1 := if cmdBaren o.cmd then (match o.team with | some t => s.arriveOther t (cmdBar o.cmd) | none => s) else s
      let s2 := s1.setTimeline o.ctx o.q ((s1.timeline o.ctx o.q).complete o.num)
      let s3 : State := { s2 with ops := s2.ops.erase id }
      let s4 := s3.afterOp id o
      .next ((match opIndex o with | some n => s4.settleIndex n | none => s4).settleCtx o.ctx)

end Sys2Proof.Machine
end

