-- ==== Sys2Proof/Machine/Ready.lean ====
section
/-! DEFINITION. The readiness of nodes (R288 to R290, R297) and the ready pool (R294 to R296). -/

namespace Sys2Proof.Machine

/-- Whether a 32-bit count has reached another, in wrapping order (R284). -/
def reachedSeq (count n : Nat) : Bool := decide ((count + 2 ^ 32 - n % 2 ^ 32) % 2 ^ 32 < 2 ^ 31)

/-- How far a count is ahead of another. -/
def seqAhead (a b : Nat) : Nat := (a + 2 ^ 32 - b % 2 ^ 32) % 2 ^ 32

/-! ## The ready pool (R294, R295) -/

/-- Wall time in the ready pool and order of entry of a node. -/
def Node.since (n : Node) : Nat × Nat := match n.state with | .inPool a b => (a, b) | _ => (0, 0)
def Node.pooled (n : Node) : Bool := match n.state with | .inPool _ _ => true | _ => false

/-- The effective level (R295). -/
def Node.level (n : Node) (wall : Nat) : Nat := min 7 (n.prio + (wall - n.since.1) / 10 ^ 6)

/-- Order in the ready pool (R295). -/
def Node.before (wall : Nat) (a b : Node) : Bool :=
  if a.level wall != b.level wall then decide (b.level wall < a.level wall)
  else if a.since.1 != b.since.1 then decide (a.since.1 < b.since.1)
  else if a.since.2 != b.since.2 then decide (a.since.2 < b.since.2)
  else if a.queue != b.queue then decide (a.queue < b.queue)
  else decide (0 < seqAhead b.seq a.seq ∧ seqAhead b.seq a.seq < 2 ^ 31)

/-- The first node of a list in pool order. -/
def firstNode (wall : Nat) (ns : List Node) : Option Node :=
  ns.foldl (fun best n => match best with | some b => if n.before wall b then some n else some b | none => some n) none

/-- The die whose controller reads for a node: the lowest-numbered of its partition (R296). -/
def State.nodeDie (s : State) (n : Node) : Nat := s.lowestDie (s.sealedOf (s.ctx (s.nodeCtx n)).part)

/-- A node waits for a walk of an address (R289, R298, R303). -/
def State.nodeWalk (s : State) (n : Node) (va : Nat) (acc : AccKind) : State :=
  let gr := granOf va
  let ctx := s.nodeCtx n
  let s1 := s.setNode { n with wants := some gr }
  if s.faulted.contains (ctx, gr) then s1 else s1.askWalk ctx va (s.nodeDie n) engineTlb acc

/-! ## Records (R288, R289) -/

/-- The byte offset of the first bad field of a record (R288, R289). The die of an engine node that is not for col, and the lead of a timed node
with hold = 0, are ignored (log 105). -/
def Node.bad (n : Node) : Option Nat :=
  let r (hi lo : Nat) : Bool := n.fld hi lo != 0
  let k := n.kind
  badField
    ([(decide (4 < k) || r 9 4, 0), (r 31 15, 1), (n.fld 63 32 != n.seq, 4)]
      ++ (if k = 0 || k = 1 then [(r 223 64, 8)]
          else if k = 2 then [(!(let c := n.fld 71 64; c == 0 || c == 2 || (decide (16 ≤ c) && decide (c < 48))), 8), (r 223 74, 9)]
          else if k = 3 then [(decide (9 < n.fld 99 96) || r 111 100, 12), (r 223 128, 16)]
          else [(decide (10 ^ 9 ≤ n.fld 143 112), 14), (r 159 145, 18),
                (n.fld 144 144 == 1 && (n.fld 175 160 == 0 || decide (10000 < n.fld 175 160)), 20), (r 223 176, 22)])
      ++ [(r 254 234, 29), (r 318 298, 37), ((k == 1 || k == 2) && n.arg0 % 64 != 0 || k == 3 && n.arg0 % 4 != 0, 44)])

/-- Whether a node of a Queue has completed (R283). -/
def State.seqDone (s : State) (q seq : Nat) : Bool :=
  reachedSeq (s.queue q).done seq || (match s.node? q seq with | some n => n.state == .complete | none => false)

/-- The node that a node with ord = 1 follows, and the Queues that a node awaits, with the sequence number that done is to reach (R290). -/
def Node.follows (n : Node) : List (Nat × Nat) := if n.ord then [(n.queue, (n.seq + 2 ^ 32 - 1) % 2 ^ 32)] else []
def Node.awaits (n : Node) : List (Nat × Nat) :=
  let w (hi lo q : Nat) : List (Nat × Nat) := if n.fld (lo + 31) (lo + 31) = 1 then [(n.fld (lo + 9) lo, n.fld hi q)] else []
  w 287 224 256 ++ w 351 288 320

/-- A wait that names no Queue of the Context (R290). -/
def State.badWait (s : State) (n : Node) : Option Nat :=
  (n.awaits.find? (fun a => (s.queue a.1).state == 0 || (s.queue a.1).ctx != s.nodeCtx n)).map (fun a => a.1)

/-- The conditions of a node that do not hold: order waits on the one node, the others on done (R290). -/
def State.unmet (s : State) (n : Node) : List (Nat × Nat) :=
  n.follows.filter (fun a => !s.seqDone a.1 a.2) ++ n.awaits.filter (fun a => !reachedSeq (s.queue a.1).done a.2)

/-- The conditional node that skips a node (R297). -/
def Queue.skipper (q : Queue) (seq : Nat) : Option Nat :=
  (q.skips.find? (fun k => decide (0 < seqAhead seq k.1) && decide (seqAhead seq k.1 ≤ seqAhead k.2 k.1))).map (fun k => k.1)

/-- Entries of a ready pool (R294). -/
def poolSize : Nat := 4096

/-- The event by which a node in the pool is taken (R296). -/
def State.takeEvents (s : State) (n : Node) : List Instr :=
  match n.kind with
  | 0 => [.joinNode n.queue n.seq]
  | 1 => (let e := Instr.kernelDispatch (s.ctx (s.nodeCtx n)).part; if s.agenda.contains e then [] else [e])
  | 2 => [.engineNodeTake n.queue n.seq]
  | 3 => [.conditionalNode n.queue n.seq]
  | _ => if n.fld 144 144 = 1 then [.timedHoldLoad n.queue n.seq, .timedNodeExpiry n.queue n.seq] else [.timedNodeExpiry n.queue n.seq]

/-- The sealed partition of a node. -/
def State.nodePart (s : State) (n : Node) : Nat := s.sealedOf (s.ctx (s.nodeCtx n)).part

/-- Whether the ready pool of a node's sealed partition has room (R294). -/
def State.poolRoom (s : State) (n : Node) : Bool :=
  decide ((s.nodes.filter (fun m => m.pooled && s.nodePart m == s.nodePart n)).length < poolSize)

/-- A node enters the ready pool of its sealed partition, when that has room (R294). -/
def State.poolNode (s : State) (n : Node) : State :=
  if s.poolRoom n then
    let m := { n with state := .inPool s.wall s.steps }
    (s.setNode m).due (s.takeEvents m)
  else s

/-- The next nodes of a Queue are skipped: at once where they are fetched and not dispatched, else at their fetch (R297). -/
def State.skipAfter (s : State) (q seq count : Nat) : State :=
  if count = 0 then s
  else
    let x := s.queue q
    let s1 := s.setQueue q { x with skips := x.skips ++ [(seq, (seq + count) % 2 ^ 32)] }
    s1.nodes.foldl (fun s n =>
      if n.queue = q && (n.state == .waiting || n.pooled) && (s1.queue q).skipper n.seq == some seq then s.endNode q n.seq (stSKIPPED seq) else s) s1

/-- The predicate of a conditional node is read once, by the controller of the partition's lowest-numbered die, when it is observed that
nothing more precedes it, and compared; a failed or unreadable one skips the next nodes (R297, R298). The node's status is kept. -/
def State.readPredicate (s : State) (n : Node) : State :=
  let settle (st : Nat) (holds : Bool) : State :=
    let s1 := s.setNode { n with read := true, status := st, wants := none }
    if holds then s1 else s1.skipAfter n.queue n.seq (n.fld 127 112)
  let again : List Instr := [.conditionalNode n.queue n.seq]
  match s.reach (s.nodeCtx n) [(n.arg0, 4, .engRead)] with
  | .missing va acc => (s.nodeWalk n va acc).due again
  | .refused => settle stPROT false
  | .ok ps =>
    match s.vwaits (s.nodeDie n) ps n.arg0 4 with
    | some pa => (s.await pa .other).due again
    | none =>
      if s.vpoison ps n.arg0 4 then settle stUCE false
      else
        settle (stOK 0) (match icondOf (n.fld 99 96) with
          | some c => icondHolds c 32 (ofBytes (s.vread ps n.arg0 4)) (n.fld 95 64)
          | none => false)

/-- What becomes of a fetched node: skipped, refused, waiting, or ready (R289, R290, R297). -/
def State.admitNode (s : State) (n : Node) : State :=
  if n.state ≠ .waiting then s
  else
    match (s.queue n.queue).skipper n.seq with
    | some c => s.endNode n.queue n.seq (stSKIPPED c)
    | none =>
      match n.bad with
      | some off => s.endNode n.queue n.seq (stFORMAT off)
      | none =>
        match s.badWait n with
        | some q => s.endNode n.queue n.seq (stDEPEND q)
        | none =>
          if !(s.unmet n).isEmpty then s
          else if n.kind = 3 && !n.read then
            (let s1 := s.readPredicate n
             match s1.node? n.queue n.seq with
             | some m => if m.read && m.state == .waiting then s1.poolNode m else s1
             | none => s1)
          else s.poolNode n

/-- Nodes waiting on conditions, or on room in the pool, are tested (R291, R294). -/
def State.admitAll (s : State) : State :=
  s.nodes.foldl (fun s n => match s.node? n.queue n.seq with | some m => s.admitNode m | none => s) s

/-- A node leaves the ready pool, and its wait is a sample (R418): one that waits for room may enter (R294). -/
def State.startNode (s : State) (n : Node) : State :=
  ((s.sampled 3 [n.queue] (s.wall - n.since.1 : Nat)).setNode { n with state := .running, wants := none }).admitAll

/-- Whether a node may be dispatched now: it is in the pool, and its Context is Live (R294). -/
def State.mayTake (s : State) (n : Node) : Bool := n.pooled && (s.ctx (s.nodeCtx n)).state == .live

/-- Whether a node is the first of its partition's pool that the die controller takes: a join, conditional or timed one (R295, R296). -/
def State.controllerFirst (s : State) (n : Node) : Bool :=
  s.mayTake n && firstNode s.wall (s.nodes.filter (fun m =>
    s.mayTake m && (m.kind == 0 || m.kind == 3 || m.kind == 4) && s.nodePart m == s.nodePart n)) == some n

end Sys2Proof.Machine
end

