-- ==== Sys2Proof/Machine/Teams.lean ====
section
/-! DEFINITION. Kernels and Teams (11_kernel.md): the launch record and its checks (R302, R303, R319), loading cores (R312), forming Teams
(R306 to R310, R314, R318), the gatherer (R316, R317), the end of a Kernel (R311, R313). -/

namespace Sys2Proof.Machine

def State.setKernel (s : State) (kid : Nat) (k : Kernel) : State := { s with kernels := s.kernels.set kid k }
def State.modKernel (s : State) (kid : Nat) (f : Kernel → Kernel) : State :=
  match s.kernels.get? kid with | some k => s.setKernel kid (f k) | none => s
def State.setGang (s : State) (kid gid : Nat) (g : Gang) : State := s.modKernel kid (fun k => { k with gangs := k.gangs.set gid g })

/-! ## The launch record (R302, R303) -/

def launchOf (bs : List Byte) : Launch :=
  let x := ofBytes bs
  let f (hi lo : Nat) : Nat := field x hi lo
  { codebase := f 63 0, codelen := f 95 64, trapent := f 127 96, entry := f 159 128, gridx := f 175 160, gridy := f 191 176,
    gridz := f 207 192, groups := f 214 208, ncopy := f 222 216, nmat := f 230 224, tcores := f 234 232, stage := f 237 235,
    restartable := bitAt x 238, regs := f 247 240, cdepth := f 251 248, mirror := f 253 252, lchain := bitAt x 254, fpen := f 260 256,
    chain := f 275 264, nbar := f 285 280, tscr := f 303 288, poolpart := f 351 320, prevlr := f 447 384, argp := f 511 448,
    rings := (upFrom 0 8).map (fun r => (f (8 * r + 516) (8 * r + 512), bitAt x (8 * r + 517))),
    slots := (upFrom 0 8).map (fun i => f (64 * i + 1087) (64 * i + 1024)) }

/-- Groups of a Team on each of its cores (R306), and Group slots of a core (R77). -/
def Launch.perCore (l : Launch) : Nat := (l.groups + l.tcores - 1) / max 1 l.tcores

/-- Groups of a Team of n Groups on the i-th of m cores (R306). -/
def groupsOn (n m i : Nat) : Nat := let per := (n + m - 1) / max 1 m; min per (n - i * per)
def Launch.slotCount (l : Launch) : Nat := min 32 (min (2 * partUndou l.poolpart) (partRegu l.poolpart * 16384 / bsize l))

/-- A code offset that is no place for a PRIO. -/
def Launch.offBad (l : Launch) (off : Nat) : Bool := off % 4 != 0 || decide (l.codelen ≤ off)

/-- The running predecessor of a stage (R319). -/
def State.predOf (s : State) (ctx : Nat) (l : Launch) : Option (Nat × Kernel) :=
  s.kernels.find? (fun e => e.2.ctx == ctx && e.2.lrva == l.prevlr && (e.2.state == .running || e.2.state == .draining))

/-- Whether prevlr fails R319. -/
def State.prevBad (s : State) (ctx : Nat) (l : Launch) : Bool :=
  if l.prevlr = 0 then false
  else match s.predOf ctx l with
    | some (_, k) =>
      let p := k.launch
      !(p.stage + 1 == l.stage && p.tcores == 1 && l.tcores == 1 && p.gridx == l.gridx && p.gridy == l.gridy && p.gridz == l.gridz
        && (p.rings.zip l.rings).all (fun r => !(r.1.1 != 0 && r.1.2 && r.2.1 != 0)))
    | none => true

/-- The byte offset of the first failing field, in ascending offset (R303). More copy and matrix Groups than groups is charged to ncopy,
and a poolpart of R77 to poolpart (log 15). -/
def State.launchBad (s : State) (ctx : Nat) (bs : List Byte) : Option Nat :=
  let x := ofBytes bs
  let l := launchOf bs
  let p := l.poolpart
  let r (hi lo : Nat) : Bool := field x hi lo != 0
  badField
    ([(l.codebase % 256 != 0, 0), (l.codelen % 4 != 0 || decide (l.codelen < 4) || decide (16777216 < l.codelen), 8),
      (l.trapent != 0xFFFFFFFF && l.offBad l.trapent, 12), (l.offBad l.entry, 16), (l.gridx == 0, 20), (l.gridy == 0, 22),
      (l.gridz == 0, 24), (l.groups == 0 || decide (64 < l.groups) || r 215 215, 26),
      (decide (l.groups < l.ncopy + l.nmat) || r 223 223, 27), (r 231 231, 28), (l.tcores == 0 || decide (4 < l.tcores) || r 239 239, 29),
      (decide (l.regs < 32) || decide (128 < l.regs) || l.regs % 8 != 0, 30), (l.mirror == 3 || r 255 255, 31), (r 263 261, 32),
      (r 279 276, 34), (decide (48 < l.nbar) || r 287 286, 35),
      (decide (4095 < l.tscr) || decide (partScru p * 16384 < 256 + 256 * l.tscr), 36), (r 319 304, 38),
      (r 351 345 || decide (8 < partAccn p) || decide (60 < partRegu p + partScru p + 2 * partAccn p + partUndou p)
        || decide (l.slotCount < l.perCore), 40), (r 383 352, 44), (s.prevBad ctx l, 48)]
      ++ (l.rings.zip (upFrom 0 8)).map (fun q => (decide (16 < q.1.1) || field x (8 * q.2 + 519) (8 * q.2 + 518) != 0, 64 + q.2))
      ++ [(r 1023 576, 72)])

/-- The priority of the PRIO that stands at an offset of translated code, where one stands there. -/
def State.prioIn (s : State) (code : List Tlb) (l : Launch) (off : Nat) : Option Nat :=
  match decode (ofBytes (s.vread code (l.codebase + off) 4)) with
  | .ok (.prio p) => some p
  | _ => none

/-! ## Room on cores (R307, R308) -/

/-- Teams homed on a core. -/
def State.homed (s : State) (c : Nat) : List Team := (s.teams.filter (fun e => !e.2.away && e.2.home == c)).map (fun e => e.2)

/-- The lowest address of the scratchpad region that holds a block and scratchpad (R307). -/
def State.scratchRoom (s : State) (c : Nat) (l : Launch) : Option Nat :=
  let size := 256 + 256 * l.tscr
  let ts := s.homed c
  let fits (a : Nat) : Bool := decide (a + size ≤ accBase l.poolpart) && ts.all (fun t => decide (a + size ≤ t.block ∨ t.block + t.size ≤ a))
  ((scrBase l.poolpart :: ts.map (fun t => t.block + t.size)).filter fits).foldl
    (fun m a => some (match m with | some b => min a b | none => a)) none

/-- The lowest run of free core Barriers (R307). -/
def State.barRoom (s : State) (c nbar : Nat) : Option Nat :=
  let ts := s.homed c
  (upFrom 0 49).find? (fun b => decide (b + nbar ≤ 48) && ts.all (fun t => decide (b + nbar ≤ t.barBase ∨ t.barBase + t.nbar ≤ b)))

/-- The core rings of a Team's own declared rings: ring, core ring, core (R307). -/
def State.ringRoom (s : State) (c : Nat) (l : Launch) : Option (List (Nat × Nat × Nat)) :=
  let want := (upFrom 0 8).filter (fun r => (l.rings.getD r (0, false)).1 != 0)
  let room := (upFrom 0 8).filter (fun r => !s.ringUsed r c)
  if want.length ≤ room.length then some ((want.zip room).map (fun x => (x.1, x.2, c))) else none

/-- Free Group slots of a core, lowest first (R320). -/
def State.slotRoom (s : State) (c : Nat) (l : Launch) : List Nat :=
  (upFrom 0 l.slotCount).filter (fun i => ((s.core c).groups.get? i).isNone)

/-- A home core's room for a Team: block, Barrier base, rings. -/
structure Room where
  block : Nat
  base : Nat
  rings : List (Nat × Nat × Nat)

def State.homeRoom (s : State) (c : Nat) (l : Launch) : Option Room :=
  match s.scratchRoom c l, s.barRoom c l.nbar, s.ringRoom c l with
  | some b, some n, some r => some { block := b, base := n, rings := r }
  | _, _, _ => none

/-! ## Placement (R306, R308, R318, R319) -/

/-- Core sets of a cluster that a Team of tcores cores may take (R306). -/
def coreSets (tcores cl : Nat) : List (List Nat) :=
  let c (i : Nat) : Nat := 4 * cl + i
  if tcores = 1 then [[c 0], [c 1], [c 2], [c 3]] else if tcores = 2 then [[c 0, c 1], [c 2, c 3]]
  else if tcores = 3 then [[c 0, c 1, c 2]] else [[c 0, c 1, c 2, c 3]]

/-- Clusters of a Context, ascending. -/
def State.clustersFor (s : State) (ctx : Nat) : List Nat := (upFrom 0 96).filter (bitAt (s.clustersOf (s.ctx ctx).part))

/-- How a core stands to a Kernel. -/
inductive CoreFor | loaded | loading | free | taken
deriving DecidableEq

def State.coreFor (s : State) (kid c : Nat) : CoreFor :=
  let k := s.core c
  if (s.unit c).state ≠ .inService then .taken
  else match k.kernel with
    | none => .free
    | some x =>
      if x ≠ kid then .taken else if k.poolpart = 0 then .loading
      else match s.kernels.get? kid with
        | some y => if y.gangs.any (fun g => g.2.images.any (fun i => i.core == c && i.state == .resident)) then .loaded else .taken
        | none => .taken

/-- Save slots of a Context that no image holds, lowest first (R273). -/
def State.freeSlots (s : State) (ctx : Nat) : List Nat :=
  let used := (s.ctxImages ctx).map (fun i => i.slot)
  (upFrom 0 (s.ctx ctx).nslots).filter (fun i => !used.contains i)

/-- Where a Team goes: formed now on cores, or on cores of which some must be loaded first, or nowhere yet. -/
inductive Placed
  | at_ (cores : List Nat) (room : Room)
  | load (cores : List Nat)
  | wait

/-- Whether a set of cores can take a Team, and how. -/
def State.trySet (s : State) (kid ctx : Nat) (l : Launch) (mayLoad : Bool) (n : Nat) (cs : List Nat) : Option Placed :=
  let kinds := cs.map (s.coreFor kid)
  if kinds.contains .taken || (kinds.contains .free && !mayLoad) then none
  else if (s.freeSlots ctx).length < (kinds.filter (· == .free)).length then none
  else if !((cs.zip (kinds.zip (upFrom 0 cs.length))).all (fun x =>
      x.2.1 != .loaded || decide (groupsOn n cs.length x.2.2 ≤ (s.slotRoom x.1 l).length))) then none
  else
    let home := cs.headD 0
    if kinds.all (· == .loaded) then (s.homeRoom home l).map (fun r => .at_ cs r)
    else if kinds.headD .taken == .loaded && (s.homeRoom home l).isNone then none
    else if kinds.contains .free then some (.load cs)
    else some .wait

/-- The first core set in order that can take a Team (R308). -/
def State.place1 (s : State) (kid ctx : Nat) (l : Launch) (mayLoad : Bool) (n : Nat) (sets : List (List Nat)) : Placed :=
  (sets.findSome? (s.trySet kid ctx l mayLoad n)).getD .wait

/-- What a Team is formed from: a linear index of the grid, or records of a die's store; and the Gang that it is relaunched from. -/
structure Want where
  lin : Nat
  recs : Option (Nat × List (Nat × ContRec))
  gang : Option Nat

/-- The Team of the preceding stage at a linear index, or what it left: its home core and its peer rings; none while it is to come. -/
inductive PeerTeam
  | any
  | coming
  | at_ (core : Nat) (rings : List (Nat × Nat × Nat))

def State.peerTeam (s : State) (k : Kernel) (lin : Nat) : PeerTeam :=
  match k.pred with
  | none => .any
  | some p =>
    match s.heirs.find? (fun h => h.kernel == p && h.lin == lin) with
    | some h => if h.saved.isNone then .at_ h.home h.rings else .coming
    | none =>
      match s.kernels.get? p with
      | none => .any
      | some pk =>
        match s.teams.find? (fun t => t.2.kernel == p && t.2.recs.isNone && t.2.linear pk.launch == lin) with
        | some t => if t.2.away then .coming else
            .at_ t.2.home (t.2.rings.filter (fun q => (pk.launch.rings.getD q.1 (0, false)).2 && (pk.launch.rings.getD q.1 (0, false)).1 != 0))
        | none => if pk.nextTeam ≤ lin || pk.gangs.any (fun g => g.2.again.any (fun a => a.1.isNone && a.2 == lin)) then .coming else .any

/-- The place of a wanted Team (R308, R318, R319). -/
def State.placeFor (s : State) (kid : Nat) (k : Kernel) (w : Want) : Placed :=
  let l := k.launch
  let cls := s.clustersFor k.ctx
  match w.recs with
  | some (die, _) =>
    let l1 := { l with rings := List.replicate 8 (0, false) }
    let sets := (cls.filter (fun c => c / 24 == die)).foldl (fun acc c => acc ++ coreSets 1 c) []
    match s.place1 kid k.ctx l1 false 1 sets with
    | .wait => s.place1 kid k.ctx l1 true 1 sets
    | r => r
  | none =>
    let mayLoad : Bool := k.state != .draining || w.gang.isSome
    match s.peerTeam k w.lin with
    | .coming => .wait
    | .any => s.place1 kid k.ctx l mayLoad l.groups (cls.foldl (fun acc c => acc ++ coreSets l.tcores c) [])
    | .at_ c _ => s.place1 kid k.ctx l mayLoad l.groups [[c / 4 * 4 + (c + 1) % 4]]

/-! ## Reserving and loading cores (R273, R312) -/

/-- The Gang of a cluster: the one resident there, else the relaunched one, else a new one, whose quantum starts (R274, R308). -/
def State.gangFor (s : State) (kid cl : Nat) (again : Option Nat) : Nat × State :=
  match s.kernels.get? kid with
  | none => (0, s)
  | some k =>
    match k.gangs.find? (fun g => g.2.cluster == cl && g.2.images.any (fun i => i.state == .resident)) with
    | some g => (g.1, s)
    | none =>
      match again.bind (fun g => (k.gangs.get? g).map (fun x => (g, x))) with
      | some (g, x) =>
        if x.images.isEmpty then (g, s.setGang kid g { x with cluster := cl, started := s.wall }) else newGang k
      | none => newGang k
where
  newGang (k : Kernel) : Nat × State :=
    let g := s.nextId
    let x : Gang := { cluster := cl, relaunches := 0, level := k.level, images := [], again := [], started := s.wall }
    (g, ({ s with nextId := g + 1 }.setGang kid g x).due [.quantumExpiry kid g])

/-- The free cores of a set are taken for a Kernel: an image with a save slot each, and a load each (R273, R312). -/
def State.reserveCores (s : State) (kid : Nat) (cs : List Nat) (again : Option Nat) : State :=
  let r := s.gangFor kid (clusterOf (cs.headD 0)) again
  cs.foldl (fun s c =>
    match s.kernels.get? kid with
    | some k =>
      if s.coreFor kid c ≠ .free then s
      else
        match k.gangs.get? r.1, s.freeSlots k.ctx with
        | some g, slot :: _ =>
          let g1 := { g with images := g.images ++ [{ core := c, slot := slot, state := .resident, groups := [] }] }
          (((s.emptyCore c).setCore c { (s.emptyCore c).core c with kernel := some kid }).setGang kid r.1 g1).due [.coreLoad kid c]
        | _, _ => s
    | none => s) r.2

/-- Whether every core taken for a Kernel has been loaded. -/
def State.allLoaded (s : State) (kid : Nat) : Bool := s.cores.all (fun e => e.2.kernel != some kid || e.2.poolpart != 0)

/-- CORE_LOAD (R312): once the departing image's cp and mx commands have completed, poolpart is written, the pool is zeroed, L1 with it
(log 91), the predictor is reset. The Kernel runs once its first cores are loaded (R311). -/
def execCoreLoad (kid c : Nat) (s : State) : Out :=
  let k := s.core c
  match s.kernels.get? kid with
  | none => .next s
  | some x =>
    if k.kernel ≠ some kid || k.poolpart ≠ 0 then .next s
    else if !k.board.isEmpty || s.ops.any (fun e => decide (e.2.q ≤ 1) && e.2.inst == c && e.2.kernel.isSome) then
      .next (s.due [.coreLoad kid c])
    else
      let s1 := (s.dropReadCopies (clusterOf c)).setCore c { k with pool := [], poolpart := x.launch.poolpart, pred := [], icache := [], rot := 0, active := [] }
      let x1 := { x with pick := Config.mirrorPick s.fresh % 64 }
      let x2 : Kernel := if x.state = KState.loading && s1.allLoaded kid then { x1 with state := .running } else x1
      let s2 := { s1 with fresh := s1.fresh + 1 }.setKernel kid x2
      .next (s2.due [.teamFormation kid])

/-! ## Forming a Team (R306, R307, R309, R318) -/

/-- What a Team is made with. -/
structure Making where
  kid : Nat
  tid : Nat
  coords : Nat × Nat × Nat
  recs : List ContRec

/-- The role of Group index g (R306). -/
def roleAt (l : Launch) (g : Nat) : Role := if g < l.ncopy then .copy else if g < l.ncopy + l.nmat then .matrix else .vector

/-- A Group is formed in the lowest free slot of a core (R309, R320). -/
def State.formGroup (s : State) (mk : Making) (c index : Nat) (role : Role) : State :=
  match s.kernels.get? mk.kid, s.slotRoom c (s.launchAt c) with
  | some k, slot :: _ =>
    let l := k.launch
    let rb := regBase l slot
    let core := s.core c
    let live : Nat := if mk.recs.isEmpty then 0xFFFFFFFF else 2 ^ mk.recs.length - 1
    let made := k.created.getD (dieOf c) 0
    let words := [(0, toBytes 8 l.argp), (0x80, toBytes 4 live), (offLpart, toBytes 4 5), (offChunkstat, toBytes 4 (mkStat 12 0 false false)),
      (offWtimeh, toBytes 4 0x80000000), (0xC8, toBytes 4 (slot * 256 + index)), (0xCC, toBytes 4 rb), (0xD0, toBytes 4 mk.coords.1),
      (0xD4, toBytes 4 mk.coords.2.1), (0xD8, toBytes 4 mk.coords.2.2), (0xDC, toBytes 4 l.stage)]
    let pool1 := words.foldl (fun p w => p.put (rb + w.1) w.2) (core.pool.clear rb (bsize l))
    let pool2 := (mk.recs.zip lanes32).foldl (fun p r =>
      (upFrom 0 15).foldl (fun p i => p.put (vAddr rb i r.2) ((r.1.args.drop (4 * i)).take 4)) p) pool1
    let start : Lane := match mk.recs with
      | r :: _ => { pc := r.entry, prio := r.prio, wait := .none }
      | [] => { pc := l.entry, prio := k.prio, wait := .none }
    let g : Group :=
      { uid := s.nextUid, team := mk.tid, index := index, role := role, state := if k.held then .held else .running,
        lanes := List.replicate 32 start, chunk := freshChunk [] [] none, seq := Seq.empty, pend := [], hold := .none, chosen := none,
        failed := [], ydem := 0, ykey := 0, arrival := [], mark := [], inTrap := none,
        mirrored := l.mirror == 2 || (l.mirror == 1 && made % 64 == k.pick), mismatch := false, capPending := none, preempt := false,
        release := [], trapWaits := [] }
    let s1 := s.setCore c { core with pool := pool2, groups := core.groups.set slot g }
    let s2 := { s1 with nextUid := s1.nextUid + 1 }.setKernel mk.kid { k with created := k.created.set (dieOf c) (made + 1) }
    s2.openChunk c slot
  | _, _ => s

/-- The Team block (R307): Barrier base, ring map. -/
def ringMap (rings : List (Nat × Nat × Nat)) : Nat :=
  (upFrom 0 8).foldl (fun acc r => acc + ((rings.find? (fun q => q.1 == r)).map (fun q => q.2.1)).getD 0xF * 2 ^ (4 * r)) 0

/-- The records of a continuation Team are held by it (R316). -/
def State.holdRecords (s : State) (die tid : Nat) (ids : List Nat) : State :=
  let d := s.store die
  s.setStore die { d with recs := d.recs.map (fun r => if ids.contains r.1 then (r.1, { r.2 with team := some tid }) else r) }

/-- A Team is formed on cores that hold its Kernel (R306, R307, R309, R318). -/
def State.formTeam (s : State) (kid : Nat) (k : Kernel) (w : Want) (cores : List Nat) (room : Room) : State :=
  let l := k.launch
  let home := cores.headD 0
  let r := s.gangFor kid (clusterOf home) w.gang
  let tid := r.2.nextId
  let cont := w.recs.isSome
  let shared := match s.peerTeam k w.lin with | .at_ _ q => if cont then [] else q | _ => []
  let xyz : Nat × Nat × Nat := if cont then (0xFFFF, 0xFFFF, 0xFFFF)
    else (w.lin % max 1 l.gridx, w.lin / max 1 l.gridx % max 1 l.gridy, w.lin / (max 1 l.gridx * max 1 l.gridy))
  let t : Team :=
    { kernel := kid, gang := r.1, x := xyz.1, y := xyz.2.1, z := xyz.2.2, cores := cores, home := home, block := room.block,
      size := 256 + 256 * l.tscr, tscr := l.tscr, barBase := room.base, nbar := l.nbar, rings := room.rings ++ shared,
      recs := w.recs.map (fun x => x.2.map (fun e => e.1)), leased := true, away := false }
  let s1 := { r.2 with nextId := tid + 1, teams := r.2.teams.set tid t }
  let core := s1.core home
  let pool := ((core.pool.clear t.block t.size).put (t.block + 0x40) (toBytes 4 t.barBase)).put (t.block + 0x44) (toBytes 4 (ringMap t.rings))
  let bars := core.bars.filter (fun e => !(decide (t.barBase ≤ e.1 ∧ e.1 < t.barBase + t.nbar)))
  let rings := room.rings.foldl (fun rs q => rs.set q.2.1 { ph := 0, cph := 0, slots := (l.rings.getD q.1 (0, false)).1 }) core.rings
  let s2 := s1.setCore home { core with pool := pool, bars := bars, rings := rings }
  let mk : Making := { kid := kid, tid := tid, coords := xyz, recs := (w.recs.map (fun x => x.2.map (fun e => e.2))).getD [] }
  let n := if cont then 1 else l.groups
  let per := if cont then 1 else max 1 l.perCore
  let s3 := (upFrom 0 n).foldl (fun s g => s.formGroup mk (cores.getD (g / per) home) g (if cont then .vector else roleAt l g)) s2
  let s4 := s3.modKernel kid (fun x => { x with clusters := unionNat x.clusters [clusterOf home] })
  match w.recs with | some (die, rs) => s4.holdRecords die tid (rs.map (fun e => e.1)) | none => s4

/-! ## What is to be formed next (R308, R314, R317) -/

/-- Teams of a Kernel's grid (R308). -/
def Launch.teams (l : Launch) : Nat := l.gridx * l.gridy * l.gridz

/-- The die whose store holds a record. -/
def State.dieOfRec (s : State) (id : Nat) : Nat := ((s.stores.find? (fun d => (d.2.recs.get? id).isSome)).map (fun d => d.1)).getD 0

/-- The first Team to be formed again (R314). -/
def State.againNext (s : State) (k : Kernel) : Option Want :=
  (k.gangs.find? (fun g => !g.2.again.isEmpty)).bind (fun g => g.2.again.head?.map (fun a =>
    match a.1 with
    | some ids =>
      let die := s.dieOfRec (ids.headD 0)
      { lin := 0, recs := some (die, (s.store die).recs.filter (fun r => ids.contains r.1)), gang := some g.1 }
    | none => { lin := a.2, recs := none, gang := some g.1 }))

/-- Whether partial Groups of a Kernel form at once: it is Draining without a Team (R317). -/
def State.drainsNow (s : State) (kid : Nat) (k : Kernel) : Bool := k.state == .draining && !(s.teams.any (fun t => t.2.kernel == kid))

/-- The records of every group that fill no Group make partial ones, at once (R317). -/
def State.forceAll (s : State) (kid : Nat) : State :=
  { s with stores := s.stores.map (fun d =>
      let entries := unionNat [] ((d.2.recs.filter (fun r => r.2.kernel == kid)).map (fun r => r.2.entry))
      let parts := entries.map (fun e => let ws := d.2.waiting kid e; (kid, (ws.drop (ws.length / 32 * 32)).map (fun r => r.1)))
      (d.1, { d.2 with forced := d.2.forced ++ parts.filter (fun p => !p.2.isEmpty) })) }

/-- The records of a store from which a Group is formed: a partial Group's, or the first 32 of a group (R317). -/
def State.gathered (s : State) (kid die : Nat) : Option Want :=
  let d := s.store die
  (d.recs.filter (fun r => r.2.kernel == kid && r.2.team.isNone)).findSome? (fun r =>
    let want (rs : List (Nat × ContRec)) : Option Want := some { lin := 0, recs := some (die, rs), gang := none }
    match d.forced.find? (fun f => f.2.contains r.1) with
    | some f => want (d.recs.filter (fun x => f.2.contains x.1))
    | none =>
      let ws := d.waiting kid r.2.entry
      if 32 ≤ ws.length then want (ws.take 32) else none)

/-- A wanted Team is placed and formed, or its cores are taken; whether anything happened. -/
def State.tryForm (s : State) (kid : Nat) (k : Kernel) (w : Want) : State × Bool :=
  match s.placeFor kid k w with
  | .at_ cs room => (s.formTeam kid k w cs room, true)
  | .load cs => (s.reserveCores kid cs w.gang, false)
  | .wait => (s, false)

/-- The first Team to be formed again leaves its Gang's list; a Team that joins another Gang takes its relaunches there. -/
def State.popAgain (s : State) (kid gid : Nat) : State :=
  match (s.kernels.get? kid).bind (fun k => k.gangs.get? gid) with
  | some g =>
    let s1 := s.setGang kid gid { g with again := g.again.drop 1 }
    let s2 := s1.modKernel kid (fun k => { k with gangs := k.gangs.map (fun e =>
      if e.2.cluster = g.cluster && !e.2.images.isEmpty then (e.1, { e.2 with relaunches := max e.2.relaunches g.relaunches }) else e) })
    s2.endGang kid gid
  | none => s

/-- A partial Group has been formed. -/
def State.unforce (s : State) (kid die : Nat) (rs : List (Nat × ContRec)) : State :=
  let d := s.store die
  s.setStore die { d with forced := d.forced.filter (fun f => !(f.1 == kid && rs.any (fun r => f.2.contains r.1))) }

/-- The grid moves on; after its last Team the Kernel drains (R311). -/
def Kernel.counted (k : Kernel) : Kernel :=
  { k with nextTeam := k.nextTeam + 1, state := if k.launch.teams ≤ k.nextTeam + 1 then .draining else k.state }

/-- One Team of a Kernel: again, then the grid's next; and the gatherer's where neither was formed, of the first die that has a place for
one (R318). -/
def State.formNext (s : State) (kid : Nat) (k : Kernel) : State × Bool :=
  let r : State × Bool := match s.againNext k with
    | some w =>
      let r := s.tryForm kid k w
      if r.2 then (r.1.popAgain kid (w.gang.getD 0), true) else r
    | none =>
      if k.nextTeam < k.launch.teams then
        let r := s.tryForm kid k { lin := k.nextTeam, recs := none, gang := none }
        if r.2 then (r.1.modKernel kid Kernel.counted, true) else r
      else (s, false)
  if r.2 then r
  else
    (upFrom 0 4).foldl (fun acc die =>
      if acc.2 then acc
      else match acc.1.gathered kid die with
        | some w =>
          let q := acc.1.tryForm kid k w
          if q.2 then (match w.recs with | some (d, rs) => (q.1.unforce kid d rs, true) | none => q) else q
        | none => acc) r

/-- Whether a Kernel still has a Team to form. -/
def State.teamsLeft (s : State) (kid : Nat) (k : Kernel) : Bool :=
  decide (k.nextTeam < k.launch.teams) || (s.againNext k).isSome || ((upFrom 0 4).findSome? (s.gathered kid)).isSome

/-- Cores loaded for a Kernel that has no Team for them any more are released (R273). -/
def State.dropIdle (s : State) (kid : Nat) : State :=
  match s.kernels.get? kid with
  | some k => k.gangs.foldl (fun s g =>
      (g.2.images.foldl (fun s i => if i.state = .resident && (s.core i.core).kernel == some kid then s.dropImage kid g.1 i.core else s) s).endGang kid g.1) s
  | none => s

/-- TEAM_FORMATION (R308, R314, R318): one Team is formed, or its cores are taken to be loaded; a Suspended Context forms none. -/
def execTeamFormation (kid : Nat) (s0 : State) : Out :=
  match s0.kernels.get? kid with
  | none => .next s0
  | some k =>
    let s := if s0.drainsNow kid k then s0.forceAll kid else s0
    if k.state ≠ .running ∧ k.state ≠ .draining then .next (if k.state = .loading then s.due [.teamFormation kid] else s)
    else if !s.teamsLeft kid k then .next ((s.dropIdle kid).due [.kernelComplete kid])
    else if (s.ctx k.ctx).state ≠ .live then .next (s.due [.teamFormation kid])
    else .next ((s.formNext kid k).1.due [.teamFormation kid])

/-! ## KERNEL_DISPATCH (R295, R296, R303, R311) -/

/-- The timed node with hold = 1 before a node, at its lead time and not complete (R299). -/
def State.heldBy (s : State) (n : Node) : Bool :=
  s.nodes.any (fun m => m.queue == n.queue && (m.seq + 1) % 2 ^ 32 == n.seq && m.state == .held)

/-- The code word checks of R303: entry and trap entry are PRIOs. -/
def State.codeBad (s : State) (code : List Tlb) (l : Launch) : Option Nat :=
  if l.trapent != 0xFFFFFFFF && (s.prioIn code l l.trapent).isNone then some 12
  else if (s.prioIn code l l.entry).isNone then some 16 else none

/-- An accepted Kernel takes its first cores, or stays in the pool (R311). -/
def State.launchKernel (s : State) (part : Nat) (n : Node) (l : Launch) (code : List Tlb) : State :=
  let ctx := s.nodeCtx n
  let kid := s.nextId
  let k : Kernel :=
    { ctx := ctx, queue := n.queue, seq := n.seq, lrva := n.arg0, launch := l, state := .loading, nextTeam := 0, gangs := [],
      held := s.heldBy n, status := 0, stamp := 0, created := [], pick := 0, prio := (s.prioIn code l l.entry).getD 0,
      pred := if l.prevlr = 0 then none else (s.predOf ctx l).map (fun p => p.1), level := n.level s.wall, loadHold := none,
      clusters := [] }
  let s1 := { s with nextId := kid + 1 }.setKernel kid k
  match s1.placeFor kid k { lin := 0, recs := none, gang := none } with
  | .load cs => ((s1.startNode n).reserveCores kid cs none).due [.kernelDispatch part]
  | _ => s.due [.kernelDispatch part]

/-- The record is read, its fields checked, its code translated and read, in this order (R303). -/
def State.checkKernel (s : State) (part : Nat) (n : Node) : State :=
  let ctx := s.nodeCtx n
  let fail (st : Nat) : State := ((s.startNode n).endNode n.queue n.seq st).due [.kernelDispatch part]
  match s.reach ctx [(n.arg0, 192, .engRead)] with
  | .missing va acc => (s.nodeWalk n va acc).due [.kernelDispatch part]
  | .refused => fail stPROT
  | .ok ps =>
    match s.vwaits (s.nodeDie n) ps n.arg0 192 with
    | some pa => (s.await pa .other).due [.kernelDispatch part]
    | none =>
      let bs := s.vread ps n.arg0 192
      let l := launchOf bs
      if s.vpoison ps n.arg0 192 then fail stUCE
      else match s.launchBad ctx bs with
        | some off => fail (stFORMAT off)
        | none =>
          match s.reach ctx [(l.codebase, l.codelen, .fetch)] with
          | .missing va acc => (s.nodeWalk n va acc).due [.kernelDispatch part]
          | .refused => fail stPROT
          | .ok code =>
            match s.vwaits (s.nodeDie n) code l.codebase l.codelen with
            | some pa => (s.await pa .other).due [.kernelDispatch part]
            | none =>
              if s.vpoison code l.codebase l.codelen then fail stUCE
              else match s.codeBad code l with
                | some off => fail (stFORMAT off)
                | none => s.launchKernel part n l code

/-- KERNEL_DISPATCH (R296, R303): the first Kernel node in pool order of a partition is read, checked and placed; no later one passes it. -/
def execKernelDispatch (part : Nat) (s : State) : Out :=
  let ns := s.nodes.filter (fun n => n.pooled && n.kind == 1 && (s.ctx (s.nodeCtx n)).part == part && (s.ctx (s.nodeCtx n)).state == .live)
  match firstNode s.wall ns with
  | some n => .next (s.checkKernel part n)
  | none => .next s

/-! ## The gatherer (R255, R317) -/

/-- GATHERER_TIMEOUT (R317): after 4,096 clk without a new record, or in a Kernel that drains without a Team, the records that fill no
Group make a partial one. -/
def execGathererTimeout (die kid entry : Nat) (s : State) : Out :=
  match s.kernels.get? kid with
  | none => .next s
  | some k =>
    let d := s.store die
    let ws := d.waiting kid entry
    let last := ((d.last.find? (fun e => e.1 == kid && e.2.1 == entry)).map (fun e => e.2.2)).getD 0
    if ws.isEmpty then .next s
    else if decide (last + 4096 ≤ s.clk) || s.drainsNow kid k then
      let part := (ws.drop (ws.length / 32 * 32)).map (fun r => r.1)
      let s1 := s.setStore die { d with forced := if part.isEmpty then d.forced else d.forced ++ [(kid, part)] }
      .next (s1.due (if s1.agenda.contains (.teamFormation kid) then [] else [.teamFormation kid]))
    else .next (s.due [.gathererTimeout die kid entry])

/-- CONT_ROOM_RESERVE (R255): a stalled CONT obtains room once the store has it. -/
def execContRoomReserve (c slot : Nat) (s : State) : Out :=
  match s.group? c slot with
  | none => .next s
  | some g =>
    match g.lanes.findSome? (fun x => match x.wait with | .room n => some n | _ => none) with
    | none => .next s
    | some n =>
      if n ≤ s.roomOf c g.uid then .next s
      else if n ≤ (s.store (dieOf c)).free then .next (s.reserveRoom (dieOf c) g.uid n)
      else .next (s.due [.contRoomReserve c slot])

/-! ## The end of a Kernel (R311, R313) -/

/-- Whether nothing of a Draining Kernel is left to run (R311). -/
def State.drained (s : State) (kid : Nat) (k : Kernel) : Bool :=
  k.state == .draining && !(s.teams.any (fun t => t.2.kernel == kid)) && (s.againNext k).isNone
    && !(s.stores.any (fun d => d.2.recs.any (fun r => r.2.kernel == kid)))

/-- The tagged lines of a chain become untagged, and the least recently used of their sets (R313, R362). -/
def State.demote (s : State) (ctx chain : Nat) : State :=
  { s with chainTags := s.chainTags.filter (fun e => e.2 != (ctx, chain))
           demoted := unionNat s.demoted ((s.chainTags.filter (fun e => e.2 == (ctx, chain))).map (fun e => e.1)) }

/-- A Kernel is Done: its node's status is to be written (R291, R311). -/
def State.kernelDone (s : State) (kid : Nat) (k : Kernel) (status : Nat) : State :=
  (({ s with kernels := s.kernels.erase kid } : State).pruneHeirs).endNode k.queue k.seq status

/-- KERNEL_COMPLETE (R313): check-ins of the clusters that held a Team, then the Kernel's commands, then its chain, then its node. -/
def execKernelComplete (kid : Nat) (s : State) : Out :=
  match s.kernels.get? kid with
  | none => .next s
  | some k =>
    if s.drained kid k then
      let s1 := (s.dropIdle kid).modKernel kid (fun x => { x with state := .completing })
      let s2 := k.clusters.foldl (fun s cl => (s.checkedOut cl).foldl (fun s ln => s.checkIn cl ln) s) s1
      .next (s2.due [.kernelComplete kid])
    else if k.state = .completing then
      if s.offers.any (fun o => match o.what with | .checkin cl _ => k.clusters.contains cl | _ => false)
          || s.ops.any (fun e => e.2.kernel == some kid) then .next (s.due [.kernelComplete kid])
      else
        let s1 := if k.launch.lchain then s.demote k.ctx k.launch.chain else s
        .next ((s1.kernelDone kid k (stOK 0)).settleCtx k.ctx)
    else .next s

/-- KERNEL_STOPPED (R311): a Stopping Kernel is Done once no image is left and its commands that had left have completed. -/
def execKernelStopped (kid : Nat) (s : State) : Out :=
  match s.kernels.get? kid with
  | none => .next s
  | some k =>
    if k.state ≠ .stopping then .next s
    else if k.gangs.any (fun g => !g.2.images.isEmpty) || s.ops.any (fun e => e.2.kernel == some kid && e.2.state != .queued) then
      .next (s.due [.kernelStopped kid])
    else
      let s1 : State := { s with stores := s.stores.map (fun d => (d.1, { d.2 with recs := d.2.recs.filter (fun r => r.2.kernel != kid) })) }
      .next ((s1.kernelDone kid k k.status).settleCtx k.ctx)

end Sys2Proof.Machine
end

