-- ==== Sys2Proof/Machine/Images.lean ====
section
/-! DEFINITION. Images (R273 to R278): pre-emption, saving, restoring; the quantum (R274); a Halted Group's resume (R263, R321). -/

namespace Sys2Proof.Machine

/-- Change the images of a Gang. -/
def State.mapImages (s : State) (kid gid : Nat) (f : Image → Image) : State :=
  s.modKernel kid (fun k => { k with gangs := k.gangs.map (fun e => if e.1 = gid then (e.1, { e.2 with images := e.2.images.map f }) else e) })

/-! ## PREEMPT (R274, R275) -/

/-- Step 1 of R275 for one Group: it issues no more; an Open Chunk is discarded, and a Solo-run one gives the token up. -/
def State.haltGroup (s : State) (c slot : Nat) : State :=
  match s.group? c slot with
  | none => s
  | some g =>
    let s1 :=
      if g.chunk.phase = .soloRun then
        (s.solo.filter (fun e => e.2 == (c, slot, g.uid))).foldl (fun s e => s.releaseSolo c slot g.uid e.1) (s.squash c slot false)
      else if g.state = .running && g.hold != .barrier && g.chunk.phase == .opened then s.squash c slot false
      else s
    s1.modGroup c slot (fun g => { g with preempt := true })

/-- PREEMPT to one Gang: its Resident images enter Saving, and its landing leases end (R273, R275, R405). -/
def State.preemptGang (s : State) (kid gid : Nat) : State :=
  match s.gang? kid gid with
  | none => s
  | some g =>
    if g.images.any (fun i => i.state == .resident) then
      let s1 := g.images.foldl (fun s i =>
        if i.state = .resident then (s.core i.core).groups.foldl (fun s e => s.haltGroup i.core e.1) s else s) s
      let s2 := s1.mapImages kid gid (fun i => if i.state = .resident then { i with state := .saving } else i)
      let s3 : State := { s2 with teams := s2.teams.map (fun t => if t.2.kernel = kid ∧ t.2.gang = gid then (t.1, { t.2 with leased := false }) else t) }
      s3.due [.imageSaveComplete kid gid]
    else s

/-- PREEMPT to a Gang and to those joined to it (R319). -/
def State.preempt (s : State) (kid gid : Nat) : State := (s.joined kid gid).foldl (fun s g => s.preemptGang g.1 g.2) s

/-- PREEMPT to every Gang with an image on a core (R274, R409). -/
def State.preemptCore (s : State) (c : Nat) : State :=
  (s.allGangs.filter (fun g => match s.gang? g.1 g.2 with
    | some x => x.images.any (fun i => i.core == c && i.state != .saved)
    | none => false)).foldl (fun s g => s.preempt g.1 g.2) s

/-- QUANTUM_EXPIRY (R274): a waiting Kernel node of the same sealed partition with an effective level at or above the image's pre-empts
the Gang; otherwise a new quantum starts. -/
def execQuantumExpiry (kid gid : Nat) (s : State) : Out :=
  match s.kernels.get? kid, s.gang? kid gid with
  | some k, some g =>
    let again : List Instr := [.quantumExpiry kid gid]
    if g.images.isEmpty || !g.images.all (fun i => i.state == .resident) || s.wall < g.started + (s.ctx k.ctx).quantum * 1000 then
      .next (s.due again)
    else
      let part := s.sealedOf (s.ctx k.ctx).part
      if s.nodes.any (fun n => n.pooled && n.kind == 1 && s.sealedOf (s.ctx (s.nodeCtx n)).part == part && decide (g.level ≤ n.level s.wall)) then
        .next ((s.preempt kid gid).due again)
      else .next ((s.setGang kid gid { g with started := s.wall }).due again)
  | _, _ => .next s

/-! ## Saving (R275, R276) -/

/-- The mod of a fence kind (R110). -/
def fenceMod (k : FenceKind) : Nat := match k with | .cl => 0 | .dv => 1 | .sy => 2 | .sv => 3

/-- The first wait of a Group for a Barrier's phase, those kept through a trap entry among them (R280): core Barrier and phase bit awaited, which is no more the Barrier's own, ph, once the phase
is complete. -/
def barWait (base : Nat) (ph : Nat → Bool) (g : Group) : Option (Nat × Bool) :=
  (g.lanes.map (·.wait) ++ g.trapWaits.map (fun w => w.2)).findSome? (fun w => match w with
    | .phase b x => some (base + b, x)
    | .freed n => some (n, !ph n)
    | _ => none)

/-- The wait mark of a Group slot (R276), of a Team with a Barrier base and the phase bits of its home core. -/
def waitMark (base : Nat) (ph : Nat → Bool) (g : Group) : Nat :=
  let kind := match g.state with
    | .fenced k _ => 1 + fenceMod k * 2 ^ 4
    | _ => match barWait base ph g with | some (b, ph) => 2 + b * 2 ^ 8 + ph.toNat * 2 ^ 14 | none => 0
  kind + g.ydem * 2 ^ 16 + g.ykey * 2 ^ 23

/-- The state block (R276). -/
def State.stateBlock (s : State) (c lrva : Nat) : List Byte :=
  let k := s.core c
  let mark (g : Group) : Nat := match s.teams.get? g.team with
    | some t => waitMark t.barBase (fun n => (s.bar t.home n).ph) g
    | none => waitMark 0 (fun _ => false) g
  let grp (n : Nat) (f : Group → Nat) : Nat := match k.groups.get? n with | some g => f g | none => 0
  toBytes 4 k.poolpart ++ toBytes 4 (1 + coreInCluster c * 2 ^ 8) ++ toBytes 8 lrva
    ++ (upFrom 0 32).foldl (fun a n => a ++ toBytes 4 (grp n mark)) []
    ++ (upFrom 0 32).foldl (fun a n => a ++ (upFrom 0 16).foldl (fun a x => a ++ toBytes 4 (grp n (fun g => g.arrival.getD x 0))) []) []
    ++ (upFrom 0 48).foldl (fun a b => a ++ toBytes 4 (s.bar c b).word ++ toBytes 4 (s.bar c b).nexp) []
    ++ (upFrom 0 8).foldl (fun a r => a ++ toBytes 4 ((k.ring r).ph % 2 ^ 16 + (k.ring r).cph % 2 ^ 16 * 2 ^ 16)) []
    ++ List.replicate 1488 0

/-- Whether peer rings go with a Gang: those that its own Teams left, or that its Teams use of a Gang that is no more (R319). -/
def State.heirOf (s : State) (h : Heir) (g : Nat × Nat) : Bool :=
  (h.kernel == g.1 && h.gang == g.2) || ((s.gang? h.kernel h.gang).isNone && s.inherits h (h.kernel, h.gang) g)

/-- What steps 2 to 4 of R275 still wait for. -/
def State.saveWaits (s : State) (kid gid : Nat) (g : Gang) : Bool :=
  let cs := g.images.map (fun i => i.core)
  let at_ := cs ++ (s.heirs.filter (fun h => s.heirOf h (kid, gid))).map (fun h => h.home)
  let uids := cs.foldl (fun a c => a ++ (s.core c).groups.map (fun e => e.2.uid)) []
  !(cs.all (fun c => (s.core c).kernel == some kid && (s.core c).poolpart != 0))
    || cs.any (fun c => (s.core c).groups.any (fun e => e.2.state == .committing || e.2.hold == .barrier))
    || s.landings.any (fun l => uids.contains l.2.uid || at_.contains l.2.target)
    || cs.any (fun c => (s.core c).barMsgs.any (fun m => !m.2.isEmpty) || !(s.core c).order.isEmpty || !(s.core c).board.isEmpty)
    || s.ops.any (fun e => decide (e.2.q ≤ 1) && cs.contains e.2.inst && e.2.kernel == some kid)
    || s.teams.any (fun t => t.2.kernel == kid && t.2.gang == gid && t.2.away)

/-- The undo rows of a Group whose Chunk has begun nothing, or of any Chunk (R81): the uniform area, the lanes with the live ones of m0, the
header, the tags and the data of the entries. -/
def undoRows (uniform : List Byte) (live : Nat) (ch : Chunk) : List Byte :=
  uniform ++ (ch.lanes.zip lanes32).foldl (fun acc x => acc ++ toBytes 8 (x.1.pc % 2 ^ 32 + x.1.prio % 2 ^ 16 * 2 ^ 32 + (bitAt live x.2).toNat * 2 ^ 48)) []
    ++ toBytes 64 ch.undo.length ++ (upFrom 0 224).foldl (fun acc i => acc ++ toBytes 2 (match ch.undo[i]? with | some e => 2 ^ 15 + e.sector | none => 0)) []
    ++ (upFrom 0 224).foldl (fun acc i => acc ++ (match ch.undo[i]? with | some e => e.bytes | none => List.replicate 32 0)) []

/-- Where a Group slot's undo rows stand in the pool (R78). -/
def undoAt (p slot : Nat) : Nat := undoBase p + 8192 * slot

/-- The lane state in a saved image (R81, R276): pc and block priority. -/
def State.savedLane (s : State) (base p slot l : Nat) : Nat × Nat :=
  let w := s.numPhys (base + 0x1000 + undoAt p slot + 0x100 + 8 * l) 8
  (field w 31 0, field w 47 32)

/-- Step 6 of R275 for one image: the pool with the Groups' undo rows, and then the state block, with the marks of R336, are written. -/
def State.saveImage (s : State) (ctx lrva : Nat) (i : Image) : State :=
  let k := s.core i.core
  let base := s.slotAt ctx i.slot
  let s1 := s.rawPut (base + 0x1000) (k.pool.bytes 0 (l1Base k.poolpart))
  let s2 := k.groups.foldl (fun t e =>
    t.rawPut (base + 0x1000 + undoAt k.poolpart e.1) (undoRows (s.uniformOf i.core e.1) (s.liveMask i.core e.1) e.2.chunk)) s1
  (upFrom 0 32).foldl (fun s n =>
    s.rawPut (savedMark base n) (toBytes 8 (match k.groups.get? n with | some g => g.mark.foldl (fun m b => m + 2 ^ b) 0 | none => 0)))
    (s2.rawPut base (s.stateBlock i.core lrva))

/-- Peer rings of a Gang's released Teams are saved with it, and leave their core (R319). -/
def State.saveHeirs (s : State) (g : Nat × Nat) : State :=
  { s with heirs := s.heirs.map (fun h =>
      if s.heirOf h g && h.saved.isNone then { h with saved := some (h.rings.map (fun q => (s.core q.2.2).ring q.2.1)) } else h) }

/-- Whether an image's writes to its slot, and the slot's bytes, pass between a core and the homes now: a way to every die of the partition is
open (R19, R394). -/
def State.slotReached (s : State) (i : Image) : Bool := (s.diesOf (s.partOfDie (dieOf i.core))).all (s.reaches (dieOf i.core))
/-- IMAGE_SAVE_COMPLETE (R275): once every effect of the committed Chunks has arrived and the cluster's lines have checked in, the images
are written to their slots, L1 is invalidated (log 91), and the cores are released. -/
def execImageSaveComplete (kid gid : Nat) (s : State) : Out :=
  match s.kernels.get? kid, s.gang? kid gid with
  | some k, some g =>
    let again : List Instr := [.imageSaveComplete kid gid]
    if !(g.images.any (fun i => i.state == .saving)) then .next s
    else if s.saveWaits kid gid g || !g.images.all s.slotReached then .next (s.due again)
    else if !(s.checkedOut g.cluster).isEmpty then
      .next (((s.checkedOut g.cluster).foldl (fun s ln => s.checkIn g.cluster ln) s).due again)
    else
      let s1 := g.images.foldl (fun s i => s.saveImage k.ctx k.lrva i) (s.dropReadCopies g.cluster)
      let s2 := s1.mapImages kid gid (fun i => { i with state := .saved, groups := (s1.core i.core).groups })
      let s3 : State := { s2 with teams := s2.teams.map (fun t => if t.2.kernel = kid ∧ t.2.gang = gid then (t.1, { t.2 with away := true }) else t) }
      let s4 := (g.images.foldl (fun s i => s.emptyCore i.core) (s3.saveHeirs (kid, gid))).freeRings
      .next ((s4.settleCtx k.ctx).due [.imageRestore kid gid ((s.clustersFor k.ctx).headD 0)])
  | _, _ => .next s

/-! ## Restoring (R277) -/

/-- The core that takes an image: the same coreid of the target cluster. -/
def Image.target (i : Image) (cl : Nat) : Nat := 4 * cl + coreInCluster i.core

/-- The same core of another cluster, and rings there. -/
def coreOn (cl c : Nat) : Nat := 4 * cl + coreInCluster c
def ringsOn (cl : Nat) (rs : List (Nat × Nat × Nat)) : List (Nat × Nat × Nat) := rs.map (fun q => (q.1, q.2.1, coreOn cl q.2.2))

/-- Whether every image of a Gang is Saved and its core on the cluster is free, and the core rings of its Teams and of the peer rings that go
with it too. -/
def State.fitsOn (s : State) (cl : Nat) (g : Nat × Nat) : Bool :=
  match s.gang? g.1 g.2 with
  | some x => x.images.all (fun i => i.state == .saved && s.coreFor g.1 (i.target cl) == .free)
      && (s.heirs.filter (fun h => s.heirOf h g)).all (fun h => h.rings.all (fun q => !s.ringUsed q.2.1 (coreOn cl q.2.2)))
      && (s.teams.filter (fun t => t.2.kernel == g.1 && t.2.gang == g.2)).all (fun t => t.2.rings.all (fun q => !s.ringUsed q.2.1 (coreOn cl q.2.2)))
  | none => false

/-- The cluster after one, in a Context's partition. -/
def nextCluster (cls : List Nat) (cl : Nat) : Nat := (cls.find? (fun x => decide (cl < x))).getD (cls.headD 0)

/-- A Gang takes its cores for restore. -/
def State.takeCores (s : State) (cl : Nat) (g : Nat × Nat) : State :=
  match s.gang? g.1 g.2 with
  | some x =>
    let s1 := x.images.foldl (fun s i =>
      let c := i.target cl
      let t := s.emptyCore c
      t.setCore c { t.core c with kernel := some g.1 }) s
    let s2 := s1.mapImages g.1 g.2 (fun i => { i with state := .restoring, core := i.target cl })
    (match s2.gang? g.1 g.2 with
      | some y => (s2.setGang g.1 g.2 { y with cluster := cl, started := s.wall }).modKernel g.1 (fun k => { k with clusters := unionNat k.clusters [cl] })
      | none => s2).due [.restoreComplete g.1 g.2]
  | none => s

/-- IMAGE_RESTORE (R273, R277, R319): a Saved Gang of a Live Context, with those joined to it, takes a cluster with enough free cores;
otherwise the next cluster of the partition is tried. -/
def execImageRestore (kid gid target : Nat) (s : State) : Out :=
  match s.kernels.get? kid, s.gang? kid gid with
  | some k, some g =>
    let cls := s.clustersFor k.ctx
    if !(g.images.any (fun i => i.state == .saved)) then .next s
    else
      let gs := s.joined kid gid
      if (s.ctx k.ctx).state == .live && cls.contains target && gs.all (s.fitsOn target) then
        .next (gs.foldl (fun s x => s.takeCores target x) s)
      else .next (s.due [.imageRestore kid gid (nextCluster cls target)])
  | _, _ => .next s

/-- A wait after restore: a Barrier whose phase bit differs from the one awaited is passed; every wait of an open Chunk is made again
(R254, R276, R277). -/
def waitAfterRestore (phNow : Nat → Bool) (w : Wait) : Wait :=
  match w with
  | .phase b ph => if phNow b = ph then w else .none
  | .waitm _ => w
  | .bars _ => w
  | _ => .none

/-- The phase bit of a Team's Barrier in the saved words of its home core (R276, R342). -/
def State.savedPhase (s : State) (t : Option Team) (b : Nat) : Bool :=
  match t with
  | some t => (match s.savedBase t t.home with | some base => (s.readBar base (t.barBase + b)).ph | none => (s.bar t.home (t.barBase + b)).ph)
  | none => false

/-- One Group after restore: lane state, arrival counters, YIELD record and marks come from the slot. -/
def restoredGroup (s : State) (base p : Nat) (held : Bool) (slot : Nat) (g : Group) : Group :=
  let wm := s.numPhys (base + 0x10 + 4 * slot) 4
  let marks := s.numPhys (savedMark base slot) 8
  let ph := s.savedPhase (s.teams.get? g.team)
  let ls := (g.lanes.zip lanes32).map (fun x =>
    let l := s.savedLane base p slot x.2
    { x.1 with pc := l.1, prio := l.2, wait := waitAfterRestore ph x.1.wait })
  let arr := (upFrom 0 16).foldl (fun (t : Tab Nat) c => t.set c (s.numPhys (base + 0x90 + 64 * slot + 4 * c) 4)) []
  { g with
    state := (match g.state with | .fenced k cl => .fenced k cl | .held => if held then .held else .running | _ => .running)
    lanes := ls, trapWaits := g.trapWaits.map (fun w => (w.1, waitAfterRestore ph w.2)), mismatch := false, arrival := arr, ydem := field wm 22 16, ykey := field wm 27 23, mark := (upFrom 0 48).filter (bitAt marks),
    preempt := false, release := [], hold := .none, pend := [], seq := Seq.empty, chosen := none }

/-- One image becomes Resident (R277). The slots of a ring are those that the Team declared. -/
def State.loadImage (s : State) (kid gid : Nat) (k : Kernel) (i : Image) : State :=
  let base := s.slotAt k.ctx i.slot
  let p := s.numPhys base 4
  let old := s.core i.core
  let bars := (upFrom 0 48).foldl (fun (t : Tab Barrier) b =>
    let x := s.readBar base b
    if x = Barrier.unset then t else t.set b x) []
  let slots (r : Nat) : Nat :=
    let own (rs : List (Nat × Nat × Nat)) : Option Nat :=
      (rs.find? (fun q => q.2.1 == r && coreInCluster q.2.2 == coreInCluster i.core)).map (fun q => (k.launch.rings.getD q.1 (0, false)).1)
    ((s.teams.filter (fun t => t.2.kernel == kid && t.2.gang == gid && coreInCluster t.2.home == coreInCluster i.core)).findSome?
      (fun t => own t.2.rings)).getD 0
  let rings := (upFrom 0 8).foldl (fun (t : Tab Ring) r =>
    let w := s.numPhys (base + 0xA10 + 4 * r) 4
    if slots r = 0 then t else t.set r { ph := w % 2 ^ 16, cph := w / 2 ^ 16, slots := slots r }) old.rings
  let groups := i.groups.map (fun e => (e.1, restoredGroup s base p k.held e.1 e.2))
  let s1 := s.setCore i.core
    { old with pool := Memory.ofList 0 (s.readPhys (base + 0x1000) (l1Base p)), poolpart := p, kernel := some kid, groups := groups,
               bars := bars, rings := rings, pred := [], icache := [], active := [] }
  groups.foldl (fun s e =>
    let s2 := s.openChunk i.core e.1
    let s3 := if statSqcnt (s2.chunkstat i.core e.1) = 8 then
        (s2.modGroup i.core e.1 (fun g => { g with chunk := { g.chunk with phase := .soloWait } })).due [.commitBatch (s2.sealedOf (s2.ctx k.ctx).part)]
      else s2
    (s3.deliverCap i.core e.1).due (match e.2.state with | .fenced _ _ => [.fenceWaitEnd i.core e.1] | _ => [])) s1

/-- A Team after its Gang's restore: the same coreids of the new cluster; its landing lease begins (R277, R405). -/
def Team.movedTo (t : Team) (cl : Nat) : Team :=
  { t with cores := t.cores.map (coreOn cl), home := coreOn cl t.home, rings := ringsOn cl t.rings, away := false, leased := true }

/-- Peer rings that were saved with a Gang come with it to its cluster (R319). -/
def State.moveHeirs (s : State) (kid gid cl : Nat) : State :=
  let mine := s.heirs.filter (fun h => s.heirOf h (kid, gid) && h.saved.isSome)
  let s1 : State := { s with heirs := s.heirs.map (fun h =>
    if mine.contains h then { h with home := coreOn cl h.home, rings := ringsOn cl h.rings, saved := none } else h) }
  mine.foldl (fun t h => (h.rings.zip (h.saved.getD [])).foldl (fun t q =>
    let c := coreOn cl q.1.2.2
    t.setCore c { t.core c with rings := (t.core c).rings.set q.1.2.1 q.2 }) t) s1

/-- A restored Gang joins the Gang of its Kernel that its cluster holds: the Teams of one Kernel on one cluster are one Gang (R308). It keeps
the greater count of relaunches, and the level and quantum of the Gang that was there (log 90). -/
def State.mergeGang (s : State) (kid gid cl : Nat) : State :=
  match s.kernels.get? kid, s.gang? kid gid with
  | some k, some g =>
    match k.gangs.find? (fun e => e.1 != gid && e.2.cluster == cl && e.2.images.any (fun i => i.state == .resident)) with
    | some (h, x) =>
      let y : Gang := { x with images := x.images ++ g.images, again := x.again ++ g.again, relaunches := max x.relaunches g.relaunches }
      { s.setKernel kid { k with gangs := (k.gangs.erase gid).set h y } with
        teams := s.teams.map (fun t => if t.2.kernel = kid ∧ t.2.gang = gid then (t.1, { t.2 with gang := h }) else t)
        heirs := s.heirs.map (fun e => if e.kernel = kid ∧ e.gang = gid then { e with gang := h } else e) }
    | none => s
  | _, _ => s

/-- RESTORE_COMPLETE (R277): once the cores' cp and mx queues have drained (R312), pool, poolpart and core-held state are those of the
slots, L1 is empty, so that a Group that a phase completed elsewhere lets go on acquires (R341, R344), and the Groups issue. -/
def execRestoreComplete (kid gid : Nat) (s : State) : Out :=
  match s.kernels.get? kid, s.gang? kid gid with
  | some k, some g =>
    if !(g.images.any (fun i => i.state == .restoring)) then .next s
    else if g.images.any (fun i => !(s.core i.core).board.isEmpty || s.ops.any (fun e => decide (e.2.q ≤ 1) && e.2.inst == i.core)
        || !s.slotReached i) then
      .next (s.due [.restoreComplete kid gid])
    else
      let s1 := g.images.foldl (fun s i => s.loadImage kid gid k i) (s.dropReadCopies g.cluster)
      let s2 := s1.mapImages kid gid (fun i => { i with state := .resident, groups := [] })
      let s3 : State := { s2 with teams := s2.teams.map (fun t =>
        if t.2.kernel = kid ∧ t.2.gang = gid then (t.1, t.2.movedTo g.cluster) else t) }
      .next ((s3.moveHeirs kid gid g.cluster).mergeGang kid gid g.cluster)
  | _, _ => .next s

/-! ## Debugging, the active set, YIELD -/

/-- DEBUG_RESUME (R263, R321): the lanes at the BKPT move past it. -/
def execDebugResume (c slot : Nat) (s : State) : Out :=
  match s.group? c slot with
  | none => .next s
  | some g =>
    match g.state with
    | .halted lanes =>
      .next ((s.modGroup c slot (fun g =>
        { g with state := .running, lanes := (g.lanes.zip lanes32).map (fun x =>
            if lanes.contains x.2 then { x.1 with pc := x.1.pc + 4 } else x.1) })).openChunk c slot)
    | _ => .next s

/-- Whether a member of the active set may leave it (R329): Committing, Fenced, Halted, or without an eligible entry. -/
def State.mayRest (s : State) (c slot : Nat) : Bool :=
  match s.group? c slot with
  | some g => !(s.canIssue c slot g)
  | none => true

/-- ACTIVE_SET_LEAVE (R329): a Group that has been found Committing, Fenced, Halted or without an eligible entry for 64 core clk leaves the
set, unless it is pinned. -/
def execActiveSetLeave (c slot : Nat) (s : State) : Out :=
  let k := s.core c
  match k.active.find? (fun a => a.slot == slot) with
  | none => .next s
  | some a =>
    let again (idle : Option Nat) : State :=
      (s.setCore c { k with active := k.active.map (fun a => if a.slot = slot then { a with idle := idle } else a) }).due [.activeSetLeave c slot]
    if !s.mayRest c slot then .next (again none)
    else
      match a.idle with
      | none => .next (again (some s.clk))
      | some t =>
        if t + 64 ≤ s.clk && a.pin ≤ s.clk then .next (s.setCore c { k with active := k.active.filter (fun a => a.slot != slot) })
        else .next (s.due [.activeSetLeave c slot])

/-- ACTIVE_SET_PIN_EXPIRY (R128, R329): pins of 4,096 core clk that have run out end. -/
def execActiveSetPinExpiry (s : State) : Out :=
  let s1 : State := { s with cores := s.cores.map (fun e =>
    (e.1, { e.2 with active := e.2.active.map (fun a => if a.pin ≤ s.clk then { a with pin := 0 } else a) })) }
  .next (if s1.cores.any (fun e => e.2.active.any (fun a => decide (0 < a.pin))) then s1.due [.activeSetPinExpiry] else s1)

/-- YIELD_DEMOTION_END (R325): after 64 issues no entry is demoted, and ykey names no lane for demotion; before that nothing changes. -/
def execYieldDemotionEnd (c slot : Nat) (s : State) : Out :=
  match s.group? c slot with
  | some g => if g.ydem = 0 then .next s else .next (s.due [.yieldDemotionEnd c slot])
  | none => .next s

end Sys2Proof.Machine
end

