-- ==== Sys2Proof/Machine/Nodes.lean ====
section
/-! DEFINITION. Queues and nodes (10_queue.md): submission (R283 to R287), readiness (R288 to R290), completion (R291, R293), engine,
join, conditional and timed nodes (R289, R296 to R299), the wake-up of WAITT (R261). -/

namespace Sys2Proof.Machine

/-! ## Control area (R283) -/

/-- The control-area words that the device writes, as one device-scope unit (R283, R291). -/
def State.queueWords (s : State) (n : Nat) : State :=
  let q := s.queue n
  let pa := q.ctl + 0x40
  (s.deviceUnit (s.sealedOf (s.ctx q.ctx).part)
    [storeItem pa (toBytes 4 q.done ++ toBytes 4 (q.state + q.reason * 2 ^ 8) ++ toBytes 4 q.fetched)]).touch pa

/-- What stands for the operation in units that the Queue intake writes of its own: no engine operation has number 0. -/
def deviceOwn : Option Nat := some 0

/-- A Queue halts with a reason (R293). -/
def State.haltQueue (s : State) (n reason : Nat) : State :=
  let q := s.queue n
  if q.state = 1 then (s.setQueue n { q with state := 2, reason := reason }).queueWords n else s

/-- Whether a Queue's tail is more than the ring's length ahead of done (R286). -/
def State.overrun (s : State) (n : Nat) : Bool :=
  let q := s.queue n
  !q.device && decide (2 ^ q.lgsize < seqAhead q.tail q.done)

/-- The die of a Queue's intake: the lowest-numbered of its Context's partition. -/
def State.queueDie (s : State) (q : Queue) : Nat := s.lowestDie (s.sealedOf (s.ctx q.ctx).part)

/-! ## TAIL_WRITE (R285 to R287) -/

/-- TAIL_WRITE: a host-fed Queue's new tail is read, and one too far ahead halts the Queue; a write to a device-fed Queue's tail halts it,
and the intake's count stands again. -/
def execTailWrite (n : Nat) (s : State) : Out :=
  let q := s.queue n
  if q.state = 0 then .next s
  else if s.waits (s.queueDie q) q.ctl then .next ((s.await q.ctl .other).due [.tailWrite n])
  else if q.device then
    .next ((s.haltQueue n 3).deviceUnit (s.sealedOf (s.ctx q.ctx).part) [storeItem q.ctl (toBytes 4 q.tail)] deviceOwn)
  else
    let t := s.numPhys q.ctl 4
    let d := seqAhead t q.tail
    if d = 0 || 2 ^ 31 ≤ d then .next s
    else
      let s1 := s.setQueue n { q with tail := t }
      if s1.overrun n then .next (s1.haltQueue n 2) else .next (s1.due [.nodeFetch n])

/-! ## NODE_FETCH (R285, R286) -/

/-- The count of records that stand in the ring: the tail that the intake has read, or, on a device-fed Queue, its own count without the
records whose Chunk has not committed (R285, R287). -/
def State.ringTail (s : State) (n : Nat) : Nat :=
  let q := s.queue n
  if q.device then
    (q.tail + 2 ^ 32 - (s.ops.filter (fun e => cmdFmt e.2.cmd == 8 && cmdField e.2.cmd 63 32 == n && e.2.state == .left && e.2.pos == 1
      && e.2.units != 0)).length) % 2 ^ 32
  else q.tail

/-- NODE_FETCH (R285, R286): the next record is read, while it lies within the ring's length of done; the Queue fetches on. A tail further
ahead halts it. A record on a poisoned line ends its node with UCE (log 30). -/
def execNodeFetch (n : Nat) (s : State) : Out :=
  let q := s.queue n
  let seq := (q.fetched + 1) % 2 ^ 32
  let tail := s.ringTail n
  if q.state ≠ 1 then .next s
  else if s.overrun n then .next (s.haltQueue n 2)
  else if seqAhead tail q.fetched = 0 || 2 ^ 31 ≤ seqAhead tail q.fetched || 2 ^ q.lgsize < seqAhead seq q.done then .next s
  else
    let pa := q.slotAddr seq
    match (upFrom pa 64).find? (s.waits (s.queueDie q)) with
    | some a => .next ((s.await a .other).due [.nodeFetch n])
    | none =>
      let node : Node := { queue := n, seq := seq, bytes := s.readPhys pa 64, state := .waiting, status := 0, wants := none, read := false }
      let skips := q.skips.filter (fun k => seqAhead seq k.1 ≤ seqAhead k.2 k.1)
      let s1 := ({ s with nodes := s.nodes ++ [node] }.setQueue n { q with fetched := seq, skips := skips }).queueWords n
      let s2 := if s.poisoned pa 64 then s1.endNode n seq stUCE else s1.admitNode node
      .next ((s2.touch pa).due [.nodeFetch n])

/-! ## NODE_COMPLETE (R291, R293) -/

/-- done moves over completed nodes, which are forgotten (R283). -/
def State.advanceDone (s : State) (n : Nat) : Nat → State
  | 0 => s
  | f + 1 =>
    let q := s.queue n
    let seq := (q.done + 1) % 2 ^ 32
    match s.node? n seq with
    | some m =>
      if m.state = .complete then
        State.advanceDone ({ s with nodes := s.nodes.filter (fun x => !(x.queue == n && x.seq == seq)) }.setQueue n { q with done := seq }) n f
      else s
    | none => s

/-- A Closing Queue is Free once every fetched node has completed (R293); nodes that wait on it are tested (R290). -/
def State.settleQueue (s : State) (n : Nat) : State :=
  let q := s.queue n
  if q.state = 3 && !(s.nodes.any (fun m => m.queue == n)) then
    let s1 := (s.setQueue n { q with state := 0, reason := 0 }).queueWords n
    ({ s1 with queues := s1.queues.erase n } : State).admitAll
  else s

/-- A completed timed node releases the Groups of the Kernel that it held (R299). -/
def State.releaseHeld (s : State) (q seq : Nat) : State :=
  s.kernels.foldl (fun s e =>
    if e.2.held && e.2.queue == q && e.2.seq == (seq + 1) % 2 ^ 32 then
      let s1 := s.modKernel e.1 (fun k => { k with held := false })
      { s1 with cores := s1.cores.map (fun c =>
          if c.2.kernel = some e.1 then
            (c.1, { c.2 with groups := c.2.groups.map (fun g => if g.2.state = .held then (g.1, { g.2 with state := .running }) else g) })
          else c) }
    else s) s

/-- NODE_COMPLETE (R291, R293): status word, done and the control area, halt, and the nodes that waited. While a unit of the device
cannot be stamped, it waits (R89). -/
def execNodeComplete (n seq : Nat) (s : State) : Out :=
  match s.node? n seq with
  | none => .next s
  | some m =>
    if m.state ≠ .ended then .next s
    else if !s.stampsNow (s.sealedOf (s.ctx (s.queue n).ctx).part) then .next (s.due [.nodeComplete n seq])
    else
      let q := s.queue n
      let pa := q.slotAddr seq + 60
      let s1 := (s.deviceUnit (s.sealedOf (s.ctx q.ctx).part) [storeItem pa (toBytes 4 m.status)]).touch pa
      let s2 := (s1.setNode { m with state := .complete }).advanceDone n (s1.nodes.length + 1)
      let s3 := s2.queueWords n
      let code := m.status / 2 ^ 24
      let s4 := if m.halt && code != 0 && code != 0x10 then s3.haltQueue n 1 else s3
      .next (((((s4.releaseHeld n seq).admitAll).settleQueue n)).due [.nodeFetch n])

/-! ## Nodes that the die controller takes (R296 to R299) -/

/-- JOIN_NODE (R289). -/
def execJoinNode (q seq : Nat) (s : State) : Out :=
  match s.node? q seq with
  | none => .next s
  | some n =>
    if !n.pooled then .next s
    else if s.controllerFirst n then .next ((s.startNode n).endNode q seq (stOK 0))
    else .next (s.due [.joinNode q seq])

/-- CONDITIONAL_NODE (R296 to R298): a predicate that could not be read is tried again; a node in the pool ends with what its reading
gave. -/
def execConditionalNode (q seq : Nat) (s : State) : Out :=
  match s.node? q seq with
  | none => .next s
  | some n =>
    if n.state = .waiting then .next (s.admitNode n)
    else if !n.pooled then .next s
    else if s.controllerFirst n then .next ((s.startNode n).endNode q seq n.status)
    else .next (s.due [.conditionalNode q seq])

/-- Whether wtime has reached the time of a timed node (R299). -/
def Node.timeCome (n : Node) (s : State) : Bool :=
  decide (n.fld 111 64 < s.sec) || (n.fld 111 64 == s.sec && decide (n.fld 143 112 ≤ s.ns))

/-- Whether wtime has reached its lead time. -/
def Node.leadCome (n : Node) (s : State) : Bool :=
  decide (n.fld 111 64 * 10 ^ 9 + n.fld 143 112 ≤ s.sec * 10 ^ 9 + s.ns + n.fld 175 160 * 1000)

/-- TIMED_NODE_EXPIRY (R299): a timed node completes at its time, one with hold after its Kernel has been dispatched; detail bit 0 tells
an unlocked discipline (R291). -/
def execTimedNodeExpiry (q seq : Nat) (s : State) : Out :=
  match s.node? q seq with
  | none => .next s
  | some n =>
    let again : List Instr := [.timedNodeExpiry q seq]
    if !n.state.live then .next s
    else if n.pooled then .next ((if s.controllerFirst n then s.startNode n else s).due again)
    else if n.timeCome s && (n.fld 144 144 == 0 || n.state == .held) then .next (s.endNode q seq (stOK s.disc.unlk.toNat))
    else .next (s.due again)

/-- TIMED_HOLD_LOAD (R299): at the lead time the next node, a Kernel that waits for nothing else, is dispatched, to be held from issue, once
the pool has room for it; a node of another form completes with FORMAT, charged to hold. -/
def execTimedHoldLoad (q seq : Nat) (s : State) : Out :=
  match s.node? q seq with
  | none => .next s
  | some n =>
    if !n.state.live then .next s
    else if n.pooled || !n.leadCome s then .next (s.due [.timedHoldLoad q seq])
    else
      match s.node? q ((seq + 1) % 2 ^ 32) with
      | none => .next (if n.state = .held then s else if n.timeCome s then s.endNode q seq (stFORMAT 18) else s.due [.timedHoldLoad q seq])
      | some m =>
        let us := s.unmet m
        if m.kind = 1 && m.state == .waiting && !us.isEmpty && us.all (fun a => a == (q, seq)) && (s.badWait m).isNone then
          (let s1 := s.setNode { n with state := .held }
           .next (if s.poolRoom m then s1.poolNode m else s1.due [.timedHoldLoad q seq]))
        else .next (if n.state = .held then s else s.endNode q seq (stFORMAT 18))

/-- WAITT_WAKE (R261): wtime has reached the time of a WAITT, and its entry issues again. -/
def execWaittWake (c slot : Nat) (s : State) : Out :=
  match s.group? c slot with
  | none => .next s
  | some g =>
    let isTime (w : Wait) : Bool := match w with | .time _ _ => true | _ => false
    let past (w : Wait) : Bool := match w with | .time sec ns => timeReached s.sec s.ns sec ns | _ => false
    if g.lanes.any (fun l => past l.wait) then
      .next (s.modGroup c slot (fun g => { g with lanes := g.lanes.map (fun l => if past l.wait then { l with wait := .none } else l) }))
    else .next (if g.lanes.any (fun l => isTime l.wait) then s.due [.waittWake c slot] else s)

/-! ## ENGINE_NODE_TAKE (R289, R296) -/

/-- The core of a Context's partition whose copy engine has the fewest accepted commands (R296). -/
def State.idleCopier (s : State) (ctx : Nat) : Option Nat :=
  ((s.clustersFor ctx).foldl (fun acc cl => acc ++ upFrom (4 * cl) 4) []).foldl (fun best c => match best with
    | some b => if s.accepted 0 c < s.accepted 0 b then some c else some b
    | none => some c) none

/-- The core for whose instance an engine node's command goes: a stack's queue needs none; none where stack or die lies outside. -/
def State.nodeCore (s : State) (n : Node) : Option Nat :=
  let ctx := s.nodeCtx n
  let code := n.fld 71 64
  if code = 0 then s.idleCopier ctx
  else if code = 2 then
    (let die := n.fld 73 72; if bitAt (s.part (s.ctx ctx).part).dmask die then some (96 * die) else none)
  else if s.queueIn ctx code then some 0 else none

/-- The checks of an engine node's command image (R289): a status that ends the node. -/
def State.imageFault (s : State) (n : Node) (cmd : List Byte) : Option Nat :=
  let q := n.fld 71 64
  let fmt := cmdFmt cmd
  let v := cmdVar cmd
  if !(queueFormats q).contains fmt then some (stFORMAT 0)
  else if cmdBaren cmd then some (stFORMAT 1)
  else if fmt = 1 && bitAt v 0 then some (stFORMAT 2)
  else if (fmt = 1 && (bitAt v 1 || bitAt v 2)) || (fmt = 2 && bitAt v 1) then some stPROT
  else if fmt = 3 && (v = 2 || v = 3) && (s.ctx (s.nodeCtx n)).privl ≠ 1 then some stPROT
  else none

/-- A taken node's image is read once and checked; the command enters its queue, to be numbered when it leaves (R289). -/
def State.engineImage (s : State) (n : Node) (core : Nat) : State :=
  let ctx := s.nodeCtx n
  let q := n.fld 71 64
  let again : List Instr := [.engineNodeTake n.queue n.seq]
  match s.reach ctx [(n.arg0, 64, .engRead)] with
  | .missing va acc => (s.nodeWalk n va acc).due again
  | .refused => s.endNode n.queue n.seq stPROT
  | .ok ps =>
    match s.vwaits (s.nodeDie n) ps n.arg0 64 with
    | some pa => (s.await pa .other).due again
    | none =>
      let cmd := s.vread ps n.arg0 64
      if s.vpoison ps n.arg0 64 then s.endNode n.queue n.seq stUCE
      else match s.imageFault n cmd with
        | some st => s.endNode n.queue n.seq st
        | none => s.enter q ctx core 0 none none (some (n.queue, n.seq)) cmd

/-- The units that take an engine node, as its record names them: the queue, with the die for col, and, for cp, the partition whose copy
engines it is for (R296). -/
def State.unitsOf (s : State) (n : Node) : Nat × Nat :=
  let code := n.fld 71 64
  (code, if code = 2 then n.fld 73 72 else if code = 0 then (s.ctx (s.nodeCtx n)).part else 0)

/-- ENGINE_NODE_TAKE (R289, R296): the first node in pool order for its queue is taken when that queue has room. -/
def execEngineNodeTake (q seq : Nat) (s : State) : Out :=
  match s.node? q seq with
  | none => .next s
  | some n =>
    let again : List Instr := [.engineNodeTake q seq]
    let code := n.fld 71 64
    if !n.state.live || s.ops.any (fun e => e.2.node == some (q, seq)) then .next s
    else if n.pooled && !s.mayTake n then .next (s.due again)
    else
      match s.nodeCore n with
      | none => .next ((if n.pooled then s.startNode n else s).endNode q seq stPROT)
      | some core =>
        let rivals := s.nodes.filter (fun m => s.mayTake m && m.kind == 2 && s.unitsOf m == s.unitsOf n && s.nodePart m == s.nodePart n)
        if s.accepted code (queueInst code core) < queueDepth code && (!n.pooled || firstNode s.wall rivals == some n) then
          .next ((if n.pooled then s.startNode n else s).engineImage { n with state := .running } core)
        else .next (s.due again)

end Sys2Proof.Machine
end

