-- ==== Sys2Proof/Machine/Windows.lean ====
section
/-! DEFINITION. The command windows (R268, R269): register writes, how a command starts, runs and ends; capture units (R418); the
register aperture. -/

namespace Sys2Proof.Machine

/-! ## Capture units (R418) -/

/-- Capture unit n of a die. -/
def State.capture (s : State) (die n : Nat) : Capture := s.captures.getD (32 * die + n) Capture.reset
def State.setCapture (s : State) (die n : Nat) (x : Capture) : State := { s with captures := s.captures.set (32 * die + n) x }

/-- A write of a word of a capture unit: source, selector, enable, edges. -/
def Capture.put (x : Capture) (off v : Nat) : Capture :=
  if off = 0 then { x with src := field v 31 24, sel := field v 23 2, en := bitAt v 0 }
  else if off % 4 = 0 && decide (4 ≤ off) && decide (off < 0x40) then { x with edges := x.edges.set (off / 4 - 1) (signedOf 32 v) }
  else x

/-- Counters, min and max as after reset. -/
def Capture.clear (x : Capture) : Capture := { x with min := 0x7FFFFFFF, max := -0x80000000, buckets := List.replicate 16 0 }

/-- The bytes 0x00 to 0x87 of a capture unit. -/
def Capture.bytes (x : Capture) : List Byte :=
  toBytes 4 (x.en.toNat + x.sel * 2 ^ 2 + x.src * 2 ^ 24) ++ x.edges.foldl (fun a e => a ++ toBytes 4 (wrapTo 32 e)) []
    ++ toBytes 4 (wrapTo 32 x.min) ++ toBytes 4 (wrapTo 32 x.max) ++ x.buckets.foldl (fun a b => a ++ toBytes 4 b) []

/-- Whether a unit's source is a sensor, rail or meter that R418 lists; the other sources sample what the device does. -/
def Capture.meter (x : Capture) : Bool :=
  (x.src == 4 && decide (x.sel < 16)) || (x.src == 5 && decide (x.sel < 8)) || (x.src == 6 && decide (x.sel < 6))

/-! ## Starting a command (R268, R269) -/

/-- The lowest-numbered die of a partition. -/
def State.firstDie (s : State) (p : Nat) : Option Nat := (upFrom 0 4).find? (bitAt (s.part p).dmask)

/-- An operand of a command, by window offset. -/
def Window.op (w : Window) (off n : Nat) : Nat := w.cop.num off n
def Window.opBytes (w : Window) (off n : Nat) : List Byte := w.cop.bytes off n

/-- Whether a die takes commands about a Context: the first die of its partition, or any for a Free one (R269). -/
def State.dieOfCtx (s : State) (ctx die : Nat) : Bool := (s.ctx ctx).state == .free || s.firstDie (s.ctx ctx).part == some die

/-- Whether a command was written to the die that R269 names. -/
def State.dieTakes (s : State) (die : Nat) (w : Window) : Bool :=
  let c := w.cmd
  if c = 0x01 then s.firstDie (field (w.op 0x10 8) 55 53) == some die
  else if (0x03 ≤ c && c ≤ 0x06) || (0x30 ≤ c && c ≤ 0x33) then s.dieOfCtx (w.op 0x10 1) die
  else if c = 0x10 then s.dieOfCtx (field (w.op 0x18 8) 63 56) die
  else if c = 0x11 || c = 0x12 then (s.queue (w.op 0x10 2)).state == 0 || s.dieOfCtx (s.queue (w.op 0x10 2)).ctx die
  else if c = 0x20 then s.dieOfCtx (field (ofBytes (w.opBytes 0x18 32)) 167 160) die
  else if c = 0x21 then (s.index (w.op 0x10 1)).state == 0 || s.dieOfCtx (s.index (w.op 0x10 1)).ctx die
  else if c = 0x40 || c = 0x41 || c = 0x42 || c = 0x50 then die == 0
  else true

/-- The event that a command code names; codes that R269 does not list have none. -/
def commandEvent (c : Nat) : Option Instr :=
  match c with
  | 0x01 => some .create
  | 0x02 => some .read
  | 0x03 => some .suspend
  | 0x04 => some .resume
  | 0x05 => some .kill
  | 0x06 => some .destroy
  | 0x10 => some .qopen
  | 0x11 => some .qclose
  | 0x12 => some .qresume
  | 0x13 => some .qread
  | 0x20 => some .icreate
  | 0x21 => some .idestroy
  | 0x22 => some .iread
  | 0x30 => some .inval
  | 0x31 => some .migrate
  | 0x32 => some .xresolve
  | 0x33 => some .xfail
  | 0x40 => some .wrpart
  | 0x41 => some .wrregion
  | 0x42 => some .wrcgrp
  | 0x43 => some .setcap
  | 0x50 => some .readrec
  | 0x51 => some .readunit
  | _ => none

/-- A cgo write of 1 while not busy starts the command: busy is set, and the command waits to run; one unknown, or on the wrong die,
under code 0, which R269 does not list. -/
def State.startCommand (s : State) (die : Nat) : State :=
  let w := s.window die
  if w.busy then s
  else
    let ev := if s.dieTakes die w then commandEvent w.cmd else none
    let s1 := s.setWindow die { w with busy := true }
    { s1 with goes := s1.goes ++ [(die, if ev.isSome then w.cmd else 0)], agenda := s1.agenda ++ [ev.getD .cmdUnknown] }

/-! ## Ending a command (R267, R268) -/

def cmdOK : Nat := 0
def cmdBUSY : Nat := 1
def cmdINVALID : Nat := 2
def cmdNOSPACE : Nat := 3

/-- The die whose command of a code waits first. -/
def State.taken (s : State) (code : Nat) : Option Nat := (s.goes.find? (fun g => g.2 == code)).map (fun g => g.1)

/-- A command ends: busy is cleared, the count advances, cstat holds the status and cresp the response (R268). -/
def State.answer (s : State) (die status : Nat) (resp : List Byte) : State :=
  let w := s.window die
  let s1 := s.setWindow die
    { w with busy := false, count := (w.count + 1) % 256, status := status,
             cresp := if resp.isEmpty then w.cresp else w.cresp.put 0x200 resp }
  { s1 with goes := s1.goes.filter (fun g => g.1 != die) }

/-- The command on a die goes on under a code of the model's own (R269 lists none from 0x100 up), behind those that wait with it. -/
def State.continueAs (s : State) (die code : Nat) : State :=
  { s with goes := s.goes.filter (fun g => g.1 != die) ++ [(die, code)] }

/-- A command of a code that waits runs on its window. -/
def withCommand (code : Nat) (f : Nat → Window → State → State) (s : State) : Out :=
  match s.taken code with
  | some die => .next (f die (s.window die) s)
  | none => .next s

/-- CMD_UNKNOWN (R268): status INVALID. -/
def execCmdUnknown (s : State) : Out := withCommand 0 (fun die _ s => s.answer die cmdINVALID []) s

/-! ## Register writes (R268) -/

/-- REGISTER_WRITE (R268): cmd, cgo, cop, xfbase, fwwin and the capture units; read-only fields, unnamed offsets and unaligned accesses
change nothing. -/
def execRegisterWrite (die off size value : Nat) (s : State) : Out :=
  let w := s.window die
  if !((size = 4 && off % 4 == 0) || (size = 8 && off % 8 == 0)) || 4 ≤ die then .next s
  else if off = 0 then .next (s.setWindow die { w with cmd := value % 256 })
  else if off = 4 then .next (if value % 2 ^ 32 = 1 then s.startCommand die else s)
  else if 0x10 ≤ off && off + size ≤ 0x200 then .next (s.setWindow die { w with cop := w.cop.put off (toBytes size value) })
  else if off = 0x440 || off = 0x444 then
    if s.firstDie (s.partOfDie die) ≠ some die then .next s
    else
      let old := toBytes 8 w.xfbase
      let new := if off = 0x444 then old.take 4 ++ toBytes 4 value else toBytes size value ++ old.drop size
      .next (s.setWindow die { w with xfbase := ofBytes new })
  else if 0x460 ≤ off && off + size ≤ 0x4A0 then
    let i := (off - 0x460) / 8
    let old := toBytes 8 (w.fwwin.getD i 0)
    let new := if off % 8 = 4 then old.take 4 ++ toBytes 4 value else toBytes size value ++ old.drop size
    .next (s.setWindow die { w with fwwin := w.fwwin.set i (ofBytes new) })
  else if 0x2000 ≤ off && off < 0x4000 then
    let n := (off - 0x2000) / 0x100
    let s1 := s.setCapture die n ((s.capture die n).put (off % 0x100) (value % 2 ^ 32))
    .next (if off % 0x100 = 0 && bitAt value 1 then s1.due [.captureClear die n] else s1)
  else .next s

/-- TDNEXT_WRITE (R268, R300): an aligned word of the time of the next edge, laid over the time as it stands now, on every die; nanoseconds of
10^9 and more are outside the field: such a write changes nothing (log 100); res bits ignore what is written. -/
def execTdnextWrite (_die : Nat) (word : TdWord) (s : State) : Out :=
  let old := toBytes 16 s.disc.tdnext
  let new := ofBytes (old.take word.off ++ toBytes word.size word.value ++ old.drop (word.off + word.size))
  if !(word.size = 4 || word.size = 8) || word.off % word.size != 0 || 16 < word.off + word.size || 10 ^ 9 ≤ field new 31 0 then .next s
  else .next { s with disc := { s.disc with valid := bitAt new 95, sec := field new 79 32, ns := field new 31 0 } }

/-- Bits of x that are 0 in a write of v to clear (W1C). -/
def w1c (n x v : Nat) : Nat := x &&& (2 ^ n - 1 - v % 2 ^ n)

/-- TDSTAT_DISC_CLEAR (R300): a 1 in bits 23:16 clears that bit of the count of discarded pulses. -/
def execTdstatDiscClear (_die value : Nat) (s : State) : Out :=
  .next { s with disc := { s.disc with disc := w1c 8 s.disc.disc (field value 23 16) } }

/-- MCSKIP_CLEAR (R406). -/
def execMcskipClear (die value : Nat) (s : State) : Out :=
  let w := s.window die
  .next (s.setWindow die { w with mcskip := w1c 32 w.mcskip value })

/-- LPERIOD_WRITE (R408): on die 0; minutes outside 10 to 10,080 are ignored, as are the bits of res (R10). -/
def execLperiodWrite (die value : Nat) (s : State) : Out :=
  let mins := field value 13 0
  if die = 0 && decide (10 ≤ mins) && decide (mins ≤ 10080) then .next { s with lperiod := mins } else .next s

/-- XFLG_WRITE (R268, R353): on a partition's first die; a value outside 4 to 12 is ignored, and records that waited are written. -/
def execXflgWrite (die value : Nat) (s : State) : Out :=
  let p := s.partOfDie die
  if s.firstDie p = some die && decide (4 ≤ value) && decide (value ≤ 12) then
    .next ((s.setWindow die { s.window die with xflg := value }).due [.xfaultRecordWrite p])
  else .next s

/-- XFHEAD_WRITE (R268, R353): records consumed; the ring has room again. -/
def execXfheadWrite (die value : Nat) (s : State) : Out :=
  let p := s.partOfDie die
  if s.firstDie p = some die then
    .next ((s.setWindow die { s.window die with xfhead := value % 2 ^ 32 }).due [.xfaultRecordWrite p])
  else .next s

/-- CAPTURE_CLEAR (R418). -/
def execCaptureClear (die unit : Nat) (s : State) : Out := .next (s.setCapture die unit (s.capture die unit).clear)

/-- MONITOR_SAMPLE (R418): the reading of the sensor, rail or meter that a unit selects, which comes every 1 ms; memory reads, packets and nodes
make their own samples. -/
def execMonitorSample (die unit : Nat) (sample : Int) (s : State) : Out :=
  let x := s.capture die unit
  .next (if x.meter then s.setCapture die unit (x.sample sample) else s)

/-- NCL_ENUMERATION (R268): the aperture of 256 KiB is placed at an aligned host physical address. -/
def execNclEnumeration (base : Nat) (s : State) : Out :=
  .next (if base % 2 ^ 18 = 0 then { s with aperture := some base } else s)

/-! ## Reads of a window (R268) -/

/-- The number of a Link state, in the order of R392 (R398). -/
def linkNo (x : LinkState) : Nat :=
  match x with | .down => 0 | .training => 1 | .up => 2 | .retraining => 3 | .degraded => 4 | .retired => 5

/-- Boundaries of a die to its row and its column neighbour (R19): 0 is 0–1, 1 is 1–3, 2 is 3–2, 3 is 2–0. -/
def rowBoundary (die : Nat) : Nat := if die < 2 then 0 else 2
def colBoundary (die : Nat) : Nat := if die % 2 = 0 then 3 else 1

/-- lkstate (R268). -/
def State.lkstate (s : State) (die : Nat) : List Byte :=
  ([rowBoundary die, colBoundary die, linkPort (3 * die), linkPort (3 * die + 1), linkPort (3 * die + 2), 16 + die].map (fun l =>
    BitVec.ofNat 8 (linkNo (s.link l).state))) ++ [0, 0]

/-- cstat (R268). -/
def Window.cstat (w : Window) : Nat := w.busy.toNat * 2 ^ 31 + w.count * 2 ^ 8 + w.status

/-- A die's window as host system software reads it: the value of a field by its offset; other offsets read zero. -/
def State.windowRead (s : State) (die off n : Nat) : List Byte :=
  let w := s.window die
  let first : Bool := s.firstDie (s.partOfDie die) == some die
  let m := ((((((((((Memory.putNum [] 0 4 w.cmd).putNum 8 4 w.cstat).put 0x10 (w.opBytes 0x10 496)).put 0x200 (w.cresp.bytes 0x200 512)).putNum
    0x400 16 s.disc.tdnext).putNum 0x410 4 s.disc.tdstat).putNum 0x420 4 w.mcskip).putNum 0x430 4 (if die = 0 then s.lperiod else 0)).put
    0x460 (w.fwwin.foldl (fun a x => a ++ toBytes 8 x) [])).put 0x800 (s.lkstate die))
  let m1 := if first then (((m.putNum 0x440 8 w.xfbase).putNum 0x448 4 w.xflg).putNum 0x44C 4 w.xfhead).putNum 0x450 4 w.xftail else m
  ((upFrom 0 32).foldl (fun (m : Memory) u => m.put (0x2000 + 0x100 * u) (s.capture die u).bytes) m1).bytes off n

/-- HOST_READ (R31, R113, R268): n bytes that the host reads. Its own memory it reads at home; the register aperture serves aligned words of
the system-software class, and others read zero; device memory is read at its homes, by the die whose lane group carries the address. -/
def execHostRead (req : HostReq) (n : Nat) (s : State) : Out :=
  let pa := req.pa
  if s.inAperture pa then
    let off := pa - s.aperture.getD 0
    .next { s with hostData := if req.system && ((n = 4 && pa % 4 == 0) || (n = 8 && pa % 8 == 0))
                     then s.windowRead (off / 65536) (off % 65536) n else List.replicate n 0 }
  else if !physOk pa then .next s
  else if isHost pa then .next { s with hostData := physBytes s.regions s.mem pa n }
  else
    match s.laneDie (s.hostPart pa) pa with
    | none => .next (s.due [.hostRead req n])
    | some die =>
      match (upFrom pa n).find? (s.waits die) with
      | some a => .next ((s.await a .other).due [.hostRead req n])
      | none => .next { s with hostData := s.readPhys pa n }

end Sys2Proof.Machine
end

