-- ==== Sys2Proof/Machine/Contexts.lean ====
section
/-! DEFINITION. Commands about Contexts (R266 to R270), Queues (R283, R292, R293) and Indexes (R368, R369, R373). -/

namespace Sys2Proof.Machine

/-! ## Records (R266) -/

def CState.no (x : CState) : Nat :=
  match x with | .free => 0 | .live => 1 | .suspending => 2 | .suspended => 3 | .killing => 4 | .dead => 5

/-- A Context record as READ returns it (R266). -/
def Ctx.bytes (c : Ctx) (n : Nat) : List Byte :=
  toBytes 64 (c.capcount % 2 ^ 32 + c.capbar * 2 ^ 40 + c.dbg.toNat * 2 ^ 48 + c.privl * 2 ^ 49 + c.state.no * 2 ^ 50 + c.part * 2 ^ 53
    + n * 2 ^ 56 + c.quantum * 2 ^ 256 + c.fslots * 2 ^ 288 + c.nslots * 2 ^ 310 + c.ptroot * 2 ^ 320 + c.sbase * 2 ^ 384
    + c.fbase * 2 ^ 448)

/-- A record image's fields (R266). -/
def ctxOf (x : Nat) : Ctx :=
  { Ctx.reset with
    fbase := field x 511 448, sbase := field x 447 384, ptroot := field x 383 320, nslots := field x 319 310,
    fslots := field x 299 288, quantum := field x 287 256, part := field x 55 53, privl := field x 49 49, dbg := bitAt x 48,
    capbar := field x 45 40 }

/-- A record image outside the limits of R266 and R346; RO fields are ignored (R269). -/
def State.ctxBad (s : State) (x : Nat) : Bool :=
  let c := ctxOf x
  field x 309 300 != 0 || field x 255 64 != 0 || field x 47 46 != 0 || field x 39 32 != 0
    || c.fbase % 64 != 0 || decide (2 ^ 50 ≤ c.fbase) || c.sbase % 4096 != 0 || decide (2 ^ 50 ≤ c.sbase)
    || c.ptroot % 2 ^ 15 != 0 || decide (2 ^ 50 ≤ c.ptroot) || c.nslots == 0 || c.fslots == 0
    || decide (c.quantum < 100) || decide (100000 < c.quantum) || (s.part c.part).kind == 0
    || (decide (47 < c.capbar) && c.capbar != 63)

/-! ## CREATE, READ, SUSPEND, RESUME (R267, R270) -/

/-- CREATE (R270): the lowest Free number becomes Live. -/
def execCreate (s : State) : Out :=
  withCommand 0x01 (fun die w s =>
    let x := ofBytes (w.opBytes 0x10 64)
    if s.ctxBad x then s.answer die cmdINVALID []
    else
      match (upFrom 0 256).find? (fun n => (s.ctx n).state == .free) with
      | some n => (s.setCtx n { ctxOf x with state := .live, enrolled := s.enrolled }).answer die cmdOK (toBytes 1 n)
      | none => s.answer die cmdNOSPACE []) s

/-- READ (R267, R269). -/
def execRead (s : State) : Out :=
  withCommand 0x02 (fun die w s =>
    let n := w.op 0x10 1
    s.answer die cmdOK (if (s.ctx n).state = .free then Ctx.reset.bytes n else (s.ctx n).bytes n)) s

/-- The Gangs of a Context. -/
def State.ctxGangs (s : State) (ctx : Nat) : List (Nat × Nat) :=
  s.allGangs.filter (fun g => match s.kernels.get? g.1 with | some k => k.ctx == ctx | none => false)

/-- SUSPEND (R270): dispatch stops, and PREEMPT goes to every Resident image. -/
def execSuspend (s : State) : Out :=
  withCommand 0x03 (fun die w s =>
    let n := w.op 0x10 1
    let c := s.ctx n
    if c.state = .live then
      let s1 := s.setCtx n { c with state := .suspending }
      (((s1.ctxGangs n).foldl (fun s g => s.preemptGang g.1 g.2) s1).settleCtx n).answer die cmdOK []
    else s.answer die cmdBUSY []) s

/-- RESUME (R270): dispatch resumes. -/
def execResume (s : State) : Out :=
  withCommand 0x04 (fun die w s =>
    let n := w.op 0x10 1
    let c := s.ctx n
    if c.state = .suspended then ((s.setCtx n { c with state := .live }).due [.kernelDispatch c.part]).answer die cmdOK []
    else s.answer die cmdBUSY []) s

/-! ## KILL and DESTROY (R270, R293, R311) -/

/-- Commands of a Context that have not left are dropped uncompleted (R270). -/
def State.dropQueued (s : State) (ctx : Nat) : State :=
  (s.ops.filter (fun e => e.2.ctx == ctx && e.2.state == .queued)).foldl (fun s e =>
    let s1 := s.unregister e.1
    let s2 : State := { s1 with ops := s1.ops.erase e.1 }
    match e.2.node with | some (q, seq) => s2.endNode q seq stKILLED | none => s2) s

/-- Whether a fetched node has not been dispatched (R293): an engine node without a command in a queue has not. -/
def State.undispatched (s : State) (n : Node) : Bool :=
  n.state == .waiting || n.pooled
    || (n.state == .running && n.kind == 2 && !(s.ops.any (fun e => e.2.node == some (n.queue, n.seq))))

/-- The Queues of a Context in a state other than Free. -/
def State.queuesOf (s : State) (ctx : Nat) : List Nat :=
  (s.queues.filter (fun e => e.2.state != 0 && e.2.ctx == ctx)).map (fun e => e.1)

/-- A Context's Queues close, and their nodes not dispatched complete with KILLED (R293). -/
def State.closeQueues (s : State) (ctx : Nat) : State :=
  let qs := s.queuesOf ctx
  let s1 := qs.foldl (fun s q => if (s.queue q).state = 3 then s else (s.setQueue q { s.queue q with state := 3 }).queueWords q) s
  let s2 := (s1.nodes.filter (fun n => qs.contains n.queue && s1.undispatched n)).foldl (fun s n => s.endNode n.queue n.seq stKILLED) s1
  qs.foldl (fun s q => s.settleQueue q) s2

/-- A Context enters Killing (R270): its Kernels stop, its commands that have not left are dropped, its Queues close. -/
def State.killCtx (s : State) (ctx : Nat) : State :=
  let s1 := s.setCtx ctx { s.ctx ctx with state := .killing }
  let ks := (s1.kernels.filter (fun k => k.2.ctx == ctx)).map (fun k => k.1)
  let s2 := (ks.foldl (fun s k => s.stopping k stKILLED) s1).dropQueued ctx
  let s3 := (upFrom 0 Config.nIndexes).foldl (fun s n => if (s.index n).state = 2 then s.settleIndex n else s) s2
  (s3.closeQueues ctx).settleCtx ctx

/-- KILL (R270). -/
def execKill (s : State) : Out :=
  withCommand 0x05 (fun die w s =>
    let n := w.op 0x10 1
    match (s.ctx n).state with
    | .live => (s.killCtx n).answer die cmdOK []
    | .suspending => (s.killCtx n).answer die cmdOK []
    | .suspended => (s.killCtx n).answer die cmdOK []
    | _ => s.answer die cmdBUSY []) s

/-- Whether DESTROY may free a Context (R270): Dead, or Live or Suspended without image and engine command; no Page migrates. -/
def State.mayDestroy (s : State) (ctx : Nat) : Bool :=
  !(s.migrations.any (fun m => m.ctx == ctx))
    && (match (s.ctx ctx).state with
      | .dead => true
      | .live => (s.ctxImages ctx).isEmpty && !(s.ops.any (fun e => e.2.ctx == ctx))
      | .suspended => (s.ctxImages ctx).isEmpty && !(s.ops.any (fun e => e.2.ctx == ctx))
      | _ => false)

/-- A Context becomes Free (R270, R293, R350, R373): its Queues are Free, their nodes dropped, its Kernels gone, its Indexes Draining,
its translations flushed. -/
def State.destroyCtx (s : State) (ctx : Nat) : State :=
  let qs := s.queuesOf ctx
  let part := s.sealedOf (s.ctx ctx).part
  let s1 := qs.foldl (fun s q =>
    let pa := (s.queue q).ctl + 0x44
    ({ s with queues := s.queues.erase q }.deviceUnit part [storeItem pa (toBytes 4 0)]).touch pa) s
  let ks := (s1.kernels.filter (fun k => k.2.ctx == ctx)).map (fun k => k.1)
  let s2 : State :=
    { s1 with
      nodes := s1.nodes.filter (fun n => !(qs.contains n.queue))
      kernels := s1.kernels.filter (fun k => k.2.ctx != ctx)
      stores := s1.stores.map (fun d => (d.1, { d.2 with recs := d.2.recs.filter (fun r => !(ks.contains r.2.kernel)) }))
      tlb := s1.tlb.filter (fun t => t.ctx != ctx)
      walks := s1.walks.filter (fun w => w.ctx != ctx)
      faulted := s1.faulted.filter (fun f => f.1 != ctx)
      heirs := s1.heirs.filter (fun h => !ks.contains h.kernel)
      ctxs := s1.ctxs.erase ctx }
  (upFrom 0 Config.nIndexes).foldl (fun s n =>
    let x := s.index n
    if x.state = 1 ∧ x.ctx = ctx then (s.setIndex n { x with state := 2 }).settleIndex n else s) s2

/-! ## INVAL (R352) -/

/-- Whether two ranges, by base and length, overlap. -/
def rangesMeet (a n b m : Nat) : Bool := decide (a < b + m ∧ b < a + n)

/-- Translations of a Context that overlap a range, in every TLB. -/
def State.tlbIn (s : State) (ctx lo n : Nat) : List Tlb := s.tlb.filter (fun t => t.ctx == ctx && rangesMeet t.va (2 ^ t.lg) lo n)

/-- Whether a physical address lies in a translation's frame. -/
def Tlb.holds (t : Tlb) (pa : Nat) : Bool := decide (t.frame ≤ pa ∧ pa < t.frame + 2 ^ t.lg)

/-- Checked-out lines in frames, by cluster and line. -/
def State.outIn (s : State) (ts : List Tlb) : List (Nat × Nat) :=
  s.clusters.foldl (fun acc c =>
    acc ++ (c.2.filter (fun e => e.2.twin.isSome && ts.any (fun t => t.holds (e.1 * 64)))).map (fun e => (c.1, e.1))) []

/-- Groups with a property, by core and slot. -/
def State.groupsWith (s : State) (p : Nat → Group → Bool) : List (Nat × Nat) :=
  s.cores.foldl (fun acc c => acc ++ (c.2.groups.filter (fun g => p c.1 g.2)).map (fun g => (c.1, g.1))) []

/-- Steps 1 and 2 of R352: translations are dropped, and uncommitted Chunks that used them are squashed. -/
def State.dropTlb (s : State) (ctx lo n : Nat) : State :=
  let ts := s.tlbIn ctx lo n
  let s1 : State := { s with tlb := s.tlb.filter (fun t => !ts.contains t) }
  (s1.groupsWith (fun c g => s1.ctxAt c == ctx && g.chunk.pages.any (fun p => rangesMeet p.1 (2 ^ p.2) lo n))).foldl
    (fun s g => s.squashOut g.1 g.2) s1

/-- Steps 1 and 2 of R352: what a range's translations name is dropped, squashed, or offered for check-in. What is to be awaited: engine commands
that translated a Page of the range, but those of a list, the check-ins, and the differences stamped by now. -/
def State.beginInval (s : State) (die ctx lo n : Nat) (but : List Nat) : State × Inval :=
  let part := s.sealedOf (s.ctx ctx).part
  let lines := s.outIn (s.tlbIn ctx lo n)
  let used := (s.ops.filter (fun e => e.2.ctx == ctx && !but.contains e.1 && e.2.pages.any (fun t => rangesMeet t.va (2 ^ t.lg) lo n))).map (fun e => e.1)
  (lines.foldl (fun s x => s.checkIn x.1 x.2) (s.dropTlb ctx lo n),
   { die := die, ctx := ctx, lo := lo, len := n, part := part, bound := s.lastStamp part, lines := lines, ops := used })

/-- Whether all that an INVAL awaits has come (R352). -/
def State.invalDone (s : State) (i : Inval) : Bool :=
  !(s.diffs.any (fun d => (d.part == i.part && decide (d.stamp ≤ i.bound)) || d.cluster.any (fun x => i.lines.contains x)))
    && !(s.offers.any (fun o => match o.what with | .checkin cl ln => i.lines.contains (cl, ln) | _ => false))
    && !(s.ops.any (fun e => i.ops.contains e.1))

/-- DESTROY (R270): the Context is Free once an INVAL of all of it has taken effect (R352). -/
def execDestroy (s : State) : Out :=
  match s.invals.find? (fun i => s.goes.contains (i.die, 0x106) && s.invalDone i) with
  | some i =>
    let s1 : State := { s with invals := s.invals.erase i }
    .next (if s1.mayDestroy i.ctx then (s1.destroyCtx i.ctx).answer i.die cmdOK [] else s1.answer i.die cmdBUSY [])
  | none =>
    match s.taken 0x06 with
    | some die =>
      let n := (s.window die).op 0x10 1
      if !s.mayDestroy n then .next (s.answer die cmdBUSY [])
      else
        let r := s.beginInval die n 0 (2 ^ 57) []
        .next (if r.1.invalDone r.2 then (r.1.destroyCtx n).answer die cmdOK []
          else ({ r.1 with invals := r.1.invals ++ [r.2] }.continueAs die 0x106).due [.destroy])
    | none => .next (if s.goes.any (fun g => g.2 == 0x106) then s.due [.destroy] else s)

/-! ## Queues (R283, R292, R293) -/

/-- A Queue descriptor (R283). -/
def Queue.bytes (q : Queue) : List Byte :=
  toBytes 32 (q.done + q.reason * 2 ^ 32 + q.state * 2 ^ 45 + q.device.toNat * 2 ^ 50 + q.lgsize * 2 ^ 51 + q.ctx * 2 ^ 56
    + q.qbase * 2 ^ 128 + q.ctl * 2 ^ 192)

/-- A descriptor image outside its limits (R283, R292): ring and control area lie in host or in device memory. -/
def State.queueBad (s : State) (x : Nat) : Bool :=
  let ctl := field x 255 192
  let qbase := field x 191 128
  let lg := field x 55 51
  field x 127 64 != 0 || field x 49 48 != 0 || field x 44 40 != 0 || ctl % 128 != 0 || decide (2 ^ 50 ≤ ctl) || qbase % 64 != 0
    || decide (2 ^ 50 ≤ qbase) || decide (lg < 4) || decide (16 < lg) || !physOk ctl || !physOk qbase
    || !physOk (qbase + 64 * 2 ^ lg - 1) || (s.ctx (field x 63 56)).state != .live

/-- Whether the device's writes of a Queue's control area stand in memory. -/
def State.areaStands (s : State) (q : Queue) : Bool :=
  !(s.offers.any (fun o => o.isDevice (s.sealedOf (s.ctx q.ctx).part)))
    && !(s.diffs.any (fun d => d.items.any (fun it => match itemSpan it with | some (pa, _) => pa == q.ctl | none => false)))

/-- The code of a QOPEN of Queue n that waits for its control area. -/
def qopenCode (n : Nat) : Nat := 0x1000 + n

/-- QOPEN (R292): the Queue opens with every count 0 and its control area written; the command ends once that stands in memory, so that a tail
that the host writes after it stands (R285). -/
def execQopen (s : State) : Out :=
  match s.goes.find? (fun g => decide (qopenCode 0 ≤ g.2 ∧ g.2 < qopenCode Config.nQueues)) with
  | some g => .next (if s.areaStands (s.queue (g.2 - qopenCode 0)) then s.answer g.1 cmdOK [] else s.due [.qopen])
  | none => withCommand 0x10 (fun die w s =>
    let n := w.op 0x10 2
    let x := ofBytes (w.opBytes 0x18 32)
    if decide (Config.nQueues ≤ n) || s.queueBad x then s.answer die cmdINVALID []
    else if (s.queue n).state ≠ 0 then s.answer die cmdBUSY []
    else
      let q : Queue := { Queue.reset with ctl := field x 255 192, qbase := field x 191 128, ctx := field x 63 56,
                                          lgsize := field x 55 51, device := bitAt x 50, state := 1 }
      let area := List.replicate 64 0 ++ toBytes 4 0 ++ toBytes 4 1 ++ List.replicate 56 0
      ((((s.setQueue n q).deviceUnit (s.sealedOf (s.ctx q.ctx).part) [storeItem q.ctl area] deviceOwn).touch q.ctl).continueAs
        die (qopenCode n)).due [.qopen]) s

/-- QCLOSE (R293). -/
def execQclose (s : State) : Out :=
  withCommand 0x11 (fun die w s =>
    let n := w.op 0x10 2
    let q := s.queue n
    if Config.nQueues ≤ n then s.answer die cmdINVALID []
    else if q.state = 1 || q.state = 2 then
      (((s.setQueue n { q with state := 3 }).queueWords n).settleQueue n).answer die cmdOK []
    else s.answer die cmdBUSY []) s

/-- QRESUME (R293): fetching resumes at fetched + 1. -/
def execQresume (s : State) : Out :=
  withCommand 0x12 (fun die w s =>
    let n := w.op 0x10 2
    let q := s.queue n
    if Config.nQueues ≤ n then s.answer die cmdINVALID []
    else if q.state = 2 then
      (((s.setQueue n { q with state := 1, reason := 0 }).queueWords n).due [.nodeFetch n]).answer die cmdOK []
    else s.answer die cmdBUSY []) s

/-- QREAD (R292). -/
def execQread (s : State) : Out :=
  withCommand 0x13 (fun die w s =>
    let n := w.op 0x10 2
    if Config.nQueues ≤ n then s.answer die cmdINVALID [] else s.answer die cmdOK (s.queue n).bytes) s

/-! ## Indexes (R368, R369, R373) -/

/-- An Index of a descriptor image and its segment entries (R368). -/
def indexOf (x : Nat) (segs : List (Nat × Nat)) : Index :=
  { state := 1, pub := 0, modid := field x 175 168, ctx := field x 167 160, metric := field x 155 154, etype := field x 153 151,
    sgn := bitAt x 150, midpt := bitAt x 149, dim := field x 148 136, treeen := bitAt x 127, tport := field x 123 120,
    segs := (segs.filter (fun e => bitAt (field x 191 176) e.1)).map (fun e =>
      { stack := e.1, base := field e.2 113 64, nslot := field e.2 31 0 }) }

/-- The bytes of a segment. -/
def Seg.span (g : Seg) (x : Index) : Nat := g.nslot * x.stride

/-- Whether every byte of a segment maps to its stack (R357, R369). -/
def State.segOnStack (s : State) (x : Index) (g : Seg) : Bool :=
  decide (g.base + g.span x ≤ 2 ^ 40)
    && (upFrom (g.base / 256) ((g.base + g.span x - 1) / 256 + 1 - g.base / 256)).all (fun u => stackOf s.regions (256 * u) == g.stack)

/-- Whether a segment overlaps one of another Live or Draining Index (R369). -/
def State.segTaken (s : State) (n : Nat) (x : Index) (g : Seg) : Bool :=
  s.indexes.any (fun e => e.1 != n && e.2.state != 0 && e.2.segs.any (fun h => decide (h.base < g.base + g.span x ∧ g.base < h.base + h.span e.2)))

/-- The tests of ICREATE (R369). -/
def State.indexBad (s : State) (n x : Nat) (segs : List (Nat × Nat)) : Bool :=
  let i := indexOf x segs
  let part := (s.ctx i.ctx).part
  field x 157 156 != 0 || field x 135 128 != 0 || field x 126 124 != 0 || field x 119 0 != 0
    || segs.any (fun e => bitAt (field x 191 176) e.1
        && (field e.2 127 114 != 0 || field e.2 63 32 != 0 || field e.2 113 64 % 4096 != 0 || field e.2 31 0 == 0))
    || decide (i.metric = 3) || decide (4 < i.etype) || i.dim == 0 || decide (4096 < i.dim) || decide (11 < i.tport)
    || (i.metric == 2 && i.etype != 4) || (s.ctx i.ctx).state != .live
    || i.segs.any (fun g => !bitAt (s.stacksOf part) g.stack) || (i.treeen && !bitAt (s.nslOf part) i.tport)
    || i.segs.any (fun g => !s.segOnStack i g || s.segTaken n i g)

/-- Header and adjacency of every slot of a segment become zero, one engine Chunk a slot (R369). -/
def State.zeroSlots (s : State) (x : Index) (g : Seg) : State :=
  let part := s.sealedOf (s.ctx x.ctx).part
  (upFrom 0 g.nslot).foldl (fun s k => s.deviceUnit part [storeItem (g.base + k * x.stride) (List.replicate 576 0)]) s

/-- The code of an ICREATE of Index n that zeroes its slots. -/
def icreateCode (n : Nat) : Nat := 0x2000 + n

/-- Whether the device's units that zero an Index have all been committed. -/
def State.zeroed (s : State) (n : Nat) : Bool := !s.offers.any (fun o => o.isDevice (s.sealedOf (s.ctx (s.index n).ctx).part))

/-- ICREATE (R369): its tests, then every slot becomes zero; it answers once that is committed. -/
def execIcreate (s : State) : Out :=
  match s.goes.find? (fun g => decide (icreateCode 0 ≤ g.2 ∧ g.2 < icreateCode Config.nIndexes)) with
  | some g => .next (if s.zeroed (g.2 - icreateCode 0) then s.answer g.1 cmdOK [] else s.due [.icreate])
  | none => withCommand 0x20 (fun die w s =>
    let n := w.op 0x10 1
    let x := ofBytes (w.opBytes 0x18 32)
    let segs := (upFrom 0 16).map (fun k => (k, ofBytes (w.opBytes (0x38 + 16 * k) 16)))
    if s.indexBad n x segs then s.answer die cmdINVALID []
    else if (s.index n).state ≠ 0 then s.answer die cmdBUSY []
    else
      let i := indexOf x segs
      let s1 := i.segs.foldl (fun s g => s.zeroSlots i g) (s.setIndex n i)
      if s1.zeroed n then s1.answer die cmdOK [] else (s1.continueAs die (icreateCode n)).due [.icreate]) s

/-- IDESTROY (R373): commands that leave later complete with INDEX. -/
def execIdestroy (s : State) : Out :=
  withCommand 0x21 (fun die w s =>
    let n := w.op 0x10 1
    let x := s.index n
    if x.state = 1 then ((s.setIndex n { x with state := 2 }).settleIndex n).answer die cmdOK []
    else s.answer die cmdBUSY []) s

/-- An Index descriptor with pub and minsnap, and its segment entries as they stand in the response (R269, R368). -/
def State.indexBytes (s : State) (n : Nat) : List Byte :=
  let x := s.index n
  let mask := x.segs.foldl (fun m g => m + 2 ^ g.stack) 0
  toBytes 32 (x.tport * 2 ^ 120 + x.treeen.toNat * 2 ^ 127 + x.dim * 2 ^ 136 + x.midpt.toNat * 2 ^ 149 + x.sgn.toNat * 2 ^ 150
    + x.etype * 2 ^ 151 + x.metric * 2 ^ 154 + x.state * 2 ^ 158 + x.ctx * 2 ^ 160 + x.modid * 2 ^ 168 + mask * 2 ^ 176
    + s.minsnap n * 2 ^ 192 + x.pub * 2 ^ 224)
    ++ (upFrom 0 16).foldl (fun a k => a ++ (match x.seg? k with
        | some g => toBytes 16 (g.nslot + g.base * 2 ^ 64)
        | none => List.replicate 16 0)) []

/-- IREAD (R369). -/
def execIread (s : State) : Out :=
  withCommand 0x22 (fun die w s => s.answer die cmdOK (s.indexBytes (w.op 0x10 1))) s

end Sys2Proof.Machine
end

