-- ==== Sys2Proof/Machine/IntAlu.lean ====
section
/-! DEFINITION. Majors 0x00 to 0x09: integer arithmetic, logic, shifts, bit operations, ISET (R150 to R157). -/

namespace Sys2Proof.Machine

/-- The width of a major pair. -/
def widthOf (w : Bool) : Nat := if w then 64 else 32

/-- An exact value narrowed to n bits: wrapped, or clamped to the signed range under sat (R40, R151). -/
def narrow (sat : Bool) (n : Nat) (x : Int) : Nat := wrapTo n (if sat then clampSigned n x else x)

/-- A two-source instruction: f of sat, width, va, vb and the fourth operand. -/
def intTwo (w t : Bool) (d a b : Nat) (sat f4 : Bool) (f : Bool → Nat → Nat → Nat → Nat → Nat) (s : State) : Out :=
  issueWord { descTwo w t d a b with sat := sat, f4v := f4 } (fun is s =>
    .go (is.vResult w d (fun l =>
      f is.x.sat (widthOf w) (is.srcA s false w t a l) (is.srcB s w b l) (if f4 then is.src4 s w d l else 0)))) s

/-- A two-source instruction whose vb is a 32-bit control (R154). -/
def intCtl (w t : Bool) (d a b : Nat) (f4 : Bool) (f : Nat → Nat → Nat → Nat → Nat) (s : State) : Out :=
  issueWord { descTwo w t d a b with vb := opV b false, f4v := f4 } (fun is s =>
    .go (is.vResult w d (fun l =>
      f (widthOf w) (is.srcA s false w t a l) (is.srcB s false b l) (if f4 then is.src4 s w d l else 0)))) s

/-- A one-source instruction. -/
def intOne (w t : Bool) (d a : Nat) (sat imm : Bool) (f : Bool → Nat → Nat → Nat) (s : State) : Out :=
  issueWord { descOne w t d a imm with sat := sat } (fun is s =>
    .go (is.vResult w d (fun l => f is.x.sat (widthOf w) (is.srcA s true w t a l)))) s

/-- IADD (R150). -/
def execIadd (w t : Bool) (d a b : Nat) (s : State) : Out :=
  intTwo w t d a b true false (fun sat n x y _ => narrow sat n (signedOf n x + signedOf n y)) s

/-- IADDC: the carry out of the unsigned add (R150). -/
def execIaddc (w t : Bool) (d a b : Nat) (s : State) : Out :=
  intTwo w t d a b true false (fun _ n x y _ => if 2 ^ n ≤ x + y then 1 else 0) s

/-- ISUB (R150). -/
def execIsub (w t : Bool) (d a b : Nat) (s : State) : Out :=
  intTwo w t d a b true false (fun sat n x y _ => narrow sat n (signedOf n x - signedOf n y)) s

/-- INEG (R150, R151). -/
def execIneg (w t : Bool) (d a : Nat) (s : State) : Out :=
  intOne w t d a true true (fun sat n x => narrow sat n (-(signedOf n x))) s

/-- IABS (R150, R151). -/
def execIabs (w t : Bool) (d a : Nat) (s : State) : Out :=
  intOne w t d a true true (fun sat n x => narrow sat n (signedOf n x).natAbs) s

/-- IMIN.s (R150). -/
def execIminS (w t : Bool) (d a b : Nat) (s : State) : Out :=
  intTwo w t d a b true false (fun _ n x y _ => if signedOf n y < signedOf n x then y else x) s

/-- IMIN.n (R150). -/
def execIminN (w t : Bool) (d a b : Nat) (s : State) : Out :=
  intTwo w t d a b true false (fun _ _ x y _ => min x y) s

/-- IMAX.s (R150). -/
def execImaxS (w t : Bool) (d a b : Nat) (s : State) : Out :=
  intTwo w t d a b true false (fun _ n x y _ => if signedOf n x < signedOf n y then y else x) s

/-- IMAX.n (R150). -/
def execImaxN (w t : Bool) (d a b : Nat) (s : State) : Out :=
  intTwo w t d a b true false (fun _ _ x y _ => max x y) s

/-- IMUL (R150). -/
def execImul (w t : Bool) (d a b : Nat) (s : State) : Out :=
  intTwo w t d a b true false (fun sat n x y _ => narrow sat n (signedOf n x * signedOf n y)) s

/-- IMULH.s (R150). -/
def execImulhS (w t : Bool) (d a b : Nat) (s : State) : Out :=
  intTwo w t d a b true false (fun _ n x y _ => wrapTo n (signedOf n x * signedOf n y / 2 ^ n)) s

/-- IMULH.n (R150). -/
def execImulhN (w t : Bool) (d a b : Nat) (s : State) : Out :=
  intTwo w t d a b true false (fun _ n x y _ => x * y / 2 ^ n) s

/-- IMAD (R150, R151). -/
def execImad (w t : Bool) (d a b : Nat) (s : State) : Out :=
  intTwo w t d a b true true (fun sat n x y c => narrow sat n (signedOf n x * signedOf n y + signedOf n c)) s

/-- IDIV.s (R152). -/
def execIdivS (w t : Bool) (d a b : Nat) (s : State) : Out :=
  intTwo w t d a b true false (fun sat n x y _ => idivValue true sat n x y) s

/-- IDIV.n (R152). -/
def execIdivN (w t : Bool) (d a b : Nat) (s : State) : Out :=
  intTwo w t d a b true false (fun sat n x y _ => idivValue false sat n x y) s

/-- IREM.s (R152). -/
def execIremS (w t : Bool) (d a b : Nat) (s : State) : Out :=
  intTwo w t d a b true false (fun _ n x y _ => iremValue true n x y) s

/-- IREM.n (R152). -/
def execIremN (w t : Bool) (d a b : Nat) (s : State) : Out :=
  intTwo w t d a b true false (fun _ n x y _ => iremValue false n x y) s

/-- IAND (R153). -/
def execIand (w t : Bool) (d a b : Nat) (s : State) : Out := intTwo w t d a b false false (fun _ _ x y _ => x &&& y) s

/-- IOR (R153). -/
def execIor (w t : Bool) (d a b : Nat) (s : State) : Out := intTwo w t d a b false false (fun _ _ x y _ => x ||| y) s

/-- IXOR (R153). -/
def execIxor (w t : Bool) (d a b : Nat) (s : State) : Out := intTwo w t d a b false false (fun _ _ x y _ => x ^^^ y) s

/-- INOT (R153). -/
def execInot (w t : Bool) (d a : Nat) (s : State) : Out := intOne w t d a false false (fun _ n x => 2 ^ n - 1 - x) s

/-- SHL (R153). -/
def execShl (w t : Bool) (d a b : Nat) (s : State) : Out := intCtl w t d a b false (fun n x c _ => shlValue n x (c % 256)) s

/-- SHR (R153). -/
def execShr (w t : Bool) (d a b : Nat) (s : State) : Out := intCtl w t d a b false (fun n x c _ => shrValue n x (c % 256)) s

/-- SRA (R153). -/
def execSra (w t : Bool) (d a b : Nat) (s : State) : Out := intCtl w t d a b false (fun n x c _ => sraValue n x (c % 256)) s

/-- ROTL (R153). -/
def execRotl (w t : Bool) (d a b : Nat) (s : State) : Out := intCtl w t d a b false (fun n x c _ => rotlValue n x (c % 256)) s

/-- CLZ (R155). -/
def execClz (w t : Bool) (d a : Nat) (s : State) : Out := intOne w t d a false false (fun _ n x => leadingZeros n x) s

/-- POPC (R155). -/
def execPopc (w t : Bool) (d a : Nat) (s : State) : Out := intOne w t d a false false (fun _ n x => popCount n x) s

/-- BREV (R155). -/
def execBrev (w t : Bool) (d a : Nat) (s : State) : Out := intOne w t d a false false (fun _ n x => reverseBits n x) s

/-- BFX.s (R156). -/
def execBfxS (w t : Bool) (d a b : Nat) (s : State) : Out := intCtl w t d a b false (fun n x c _ => bfxValue true n x c) s

/-- BFX.n (R156). -/
def execBfxN (w t : Bool) (d a b : Nat) (s : State) : Out := intCtl w t d a b false (fun n x c _ => bfxValue false n x c) s

/-- BFI (R156). -/
def execBfi (w t : Bool) (d a b : Nat) (s : State) : Out := intCtl w t d a b true (fun n x c base => bfiValue n x c base) s

/-- ISET (R157). -/
def execIset (w : Bool) (c : ICond) (t : Bool) (d a b : Nat) (s : State) : Out :=
  issueWord { descTwo w t d a b with vd := opM d, mdst := some d } (fun is s =>
    .go (is.mResult s d (fun l => icondHolds c (widthOf w) (is.srcA s false w t a l) (is.srcB s w b l)))) s

end Sys2Proof.Machine
end

