-- ==== Sys2Proof/Machine/Pages.lean ====
section
/-! DEFINITION. Pages (14_page.md): walks and translation faults (R346 to R354), INVAL and MIGRATE (R352, R355), address map regions
(R356 to R358), rebuilt lines (R361, R363), refresh (R366). -/

namespace Sys2Proof.Machine

/-! ## WALK_COMPLETE (R348, R350, R351) -/

/-- The first table entry of a walk that its walker must wait for: its line parks, or no way to its home is open (R363, R394). -/
def walkWaits (s : State) (die va : Nat) : Nat → Nat → Nat → Option Nat
  | 0, _, _ => none
  | fuel + 1, l, table =>
    let ea := table + 8 * (va / 2 ^ levelLow l % 2 ^ levelWidth l)
    if !physOk ea then none
    else if s.waits die ea then some ea
    else
      let e := s.numPhys ea 8
      if bitAt e 0 && !bitAt e 1 && decide (l < 3) then walkWaits s die va fuel (l + 1) (field e 49 10 * 2 ^ 10) else none

/-- The code of an access kind in a fault record (R353). -/
def accCode (k : AccKind) : Nat :=
  match k with | .load => 1 | .store => 2 | .atomic => 3 | .fetch => 4 | .engRead => 5 | .engWrite => 6

/-- Every Group that waits on a fault goes on. -/
def State.wakeHeld (s : State) (h : Hold) : State :=
  { s with cores := s.cores.map (fun c =>
      (c.1, { c.2 with groups := c.2.groups.map (fun g => if g.2.hold = h then (g.1, { g.2 with hold := .none }) else g) })) }

/-- Operations and nodes await a granule no longer. -/
def State.unwant (s : State) (ctx gr : Nat) : State :=
  { s with
    ops := s.ops.map (fun e => if e.2.ctx = ctx ∧ e.2.wants = some gr then (e.1, { e.2 with wants := none }) else e)
    nodes := s.nodes.map (fun n => if s.nodeCtx n = ctx ∧ n.wants = some gr then { n with wants := none } else n) }

/-- Walks that a die's walker keeps in flight (R351). -/
def walkerDepth : Nat := 64

/-- Whether a walk is in flight: among the first of its die's line, in order of arrival (R351). -/
def State.inFlight (s : State) (w : Walk) : Bool := ((s.walks.filter (fun x => x.die == w.die)).take walkerDepth).contains w

/-- A leaf reaches the TLBs that asked for it, and what waited there goes on (R350, R351). -/
def State.walkLeaf (s : State) (w : Walk) (t : Tlb) : State :=
  let s1 := ({ s with walks := s.walks.erase w } : State).tlbFill w.units t
  let s2 := s1.mapAllWaits (fun c _ x =>
    if w.units.contains (coreTlb c) && x == .walk w.ctx w.gran && s.ctxAt c == w.ctx then .none else x)
  if w.units.contains engineTlb then s2.unwant w.ctx w.gran else s2

/-- Whether a Group has lanes that wait for a walk. -/
def Group.onWalk (g : Group) (ctx gr : Nat) : Bool := g.lanes.any (fun l => l.wait == .walk ctx gr)

/-- A granule enters Faulted (R350): one record is written, walks of it end, and the Chunks whose accesses wait there are squashed (R102). -/
def State.walkFault (s : State) (ctx gr : Nat) (acc : AccKind) (kind lvl eaddr : Nat) : State :=
  let part := s.sealedOf (s.ctx ctx).part
  let s1 : State := { s with walks := s.walks.filter (fun w => !(w.ctx == ctx && w.gran == gr)) }
  let s2 := (s1.groupsWith (fun _ g => g.onWalk ctx gr)).foldl (fun s g =>
    (s.squashOut g.1 g.2).modGroup g.1 g.2 (fun x => { x with hold := .fault ctx gr })) s1
  if s2.faulted.contains (ctx, gr) then s2
  else
    { s2 with
      faulted := s2.faulted ++ [(ctx, gr)]
      xrecs := s2.xrecs ++ [{ part := part, ctx := ctx, va := gr * 2 ^ 18, acc := accCode acc, lvl := lvl, kind := kind, eaddr := eaddr }]
      agenda := s2.agenda ++ [.xfaultRecordWrite part] }

/-- Whether a Page of a range migrates (R350). -/
def State.migrates (s : State) (ctx lo n : Nat) : Bool := s.migrations.any (fun m => m.ctx == ctx && rangesMeet m.va (2 ^ m.lg) lo n)

/-- WALK_COMPLETE (R348, R350, R351): the first walk of a granule ends, in a leaf or in a fault; one that finds no place at its walker waits
in order of arrival, one of a Page that migrates for the end of the migration, with which the Page is Cached again (R350), and one whose table
entry lies on a parked line for that line (R363). -/
def execWalkComplete (ctx va : Nat) (acc : AccKind) (s : State) : Out :=
  match s.walks.find? (fun w => w.ctx == ctx && w.gran == granOf va) with
  | none => .next s
  | some w =>
    if !s.inFlight w || s.migrates ctx va 1 then .next (s.due [.walkComplete ctx va acc])
    else
      match walkWaits s w.die va 4 0 (s.ctx ctx).ptroot with
      | some pa => .next ((s.await pa .other).due [.walkComplete ctx va acc])
      | none =>
        match s.walk ctx va with
        | .leaf t => .next (s.walkLeaf w t)
        | .fault kind lvl eaddr => .next (s.walkFault ctx w.gran acc kind lvl eaddr)

/-! ## The translation-fault ring (R353) -/

/-- A record's bytes. -/
def XRec.bytes (r : XRec) (seq : Nat) : List Byte :=
  toBytes 32 (r.eaddr + r.kind * 2 ^ 136 + r.lvl * 2 ^ 138 + r.acc * 2 ^ 140 + r.ctx * 2 ^ 152 + seq % 2 ^ 32 * 2 ^ 160 + r.va * 2 ^ 192)

/-- XFAULT_RECORD_WRITE (R353): the oldest record that waits is written, as one system-scope unit, while the ring is set and has room. -/
def execXfaultRecordWrite (part : Nat) (s : State) : Out :=
  match s.xrecs.find? (fun r => r.part == part), s.firstDie part with
  | some r, some die =>
    let w := s.window die
    if w.xflg = 0 || 2 ^ w.xflg ≤ seqAhead w.xftail w.xfhead then .next s
    else
      let seq := s.xseq.getD part 0 + 1
      let pa := w.xfbase + 32 * (w.xftail % 2 ^ w.xflg)
      let s1 := (s.deviceUnit part [.store true false pa (r.bytes seq)]).touch pa
      let s2 := s1.setWindow die { w with xftail := (w.xftail + 1) % 2 ^ 32 }
      .next (({ s2 with xseq := s2.xseq.set part seq, xrecs := s2.xrecs.erase r }).due [.xfaultRecordWrite part])
  | _, _ => .next s

/-! ## XRESOLVE and XFAIL (R350, R354) -/

/-- Groups that waited on a granule go on; one in Solo-wait is offered the token again. -/
def State.wakeFaulted (s : State) (ctx gr : Nat) : State :=
  (({ s with faulted := s.faulted.filter (· != (ctx, gr)) }.wakeHeld (.fault ctx gr)).unwant ctx gr).due
    [.commitBatch (s.sealedOf (s.ctx ctx).part)]

/-- XRESOLVE (R354): every waiting access walks again. -/
def execXresolve (s : State) : Out :=
  withCommand 0x32 (fun die w s =>
    let ctx := w.op 0x10 1
    let va := w.op 0x18 8
    if (s.ctx ctx).state = .free then s.answer die cmdBUSY []
    else if 2 ^ 57 ≤ va then s.answer die cmdINVALID []
    else if s.faulted.contains (ctx, granOf va) then (s.wakeFaulted ctx (granOf va)).answer die cmdOK []
    else s.answer die cmdBUSY []) s

/-- A command that has not been translated ends with a status, or that of its own bad header or field (R238), at its status address, or in its
result header, where that can be written (R236, R244). -/
def State.cutOp (s : State) (id : Nat) (o : Op) (status : Nat) : State :=
  if cmdFmt o.cmd = 4 then
    (let rb := (srchCmd o.cmd).rbuf
     match s.reach o.ctx [(rb, 16, .engWrite)] with
     | .ok ps => s.endSearch id { o with stva := some rb, pages := ps } (o.endsWith status) 0 0 []
     | _ => s.endSearch id { o with stva := none } (o.endsWith status) 0 0 [])
  else
    let o1 := match s.statusAt o.ctx (cmdStaddr o.cmd) with
      | .at_ va ps => { o with stva := va, pages := ps }
      | _ => { o with stva := none }
    ({ s with publs := s.publs.filter (fun p => p.2.2 != id) } : State).finishOp id o1 (o.endsWith status)

/-- An engine command whose fault cannot be resolved completes with XLATE (R354). -/
def State.failOp (s : State) (id : Nat) (o : Op) : State := s.cutOp id o stXLATE

/-- A node whose record, image or predicate cannot be translated completes with XLATE; a conditional node keeps that status and skips
(R289, R297, R298, R303). -/
def State.failNode (s : State) (n : Node) : State :=
  if n.kind = 3 then
    let m := { n with read := true, status := stXLATE, wants := none }
    ((s.setNode m).skipAfter n.queue n.seq (n.fld 127 112)).admitNode m
  else ((if n.pooled then s.startNode n else s).endNode n.queue n.seq stXLATE).admitAll

/-- XFAIL (R354): waiting Groups trap XLATE when they execute the access again, waiting commands and nodes complete with XLATE. -/
def execXfail (s : State) : Out :=
  withCommand 0x33 (fun die w s =>
    let ctx := w.op 0x10 1
    let va := w.op 0x18 8
    let gr := granOf va
    if (s.ctx ctx).state = .free then s.answer die cmdBUSY []
    else if 2 ^ 57 ≤ va then s.answer die cmdINVALID []
    else if !s.faulted.contains (ctx, gr) || s.migrates ctx va 1 then s.answer die cmdBUSY []
    else
      let ops := s.ops.filter (fun e => e.2.ctx == ctx && e.2.wants == some gr)
      let nodes := s.nodes.filter (fun n => s.nodeCtx n == ctx && n.wants == some gr && n.state.live)
      let gs := s.groupsWith (fun _ g => g.hold == .fault ctx gr)
      let s1 := gs.foldl (fun s g => s.modGroup g.1 g.2 (fun x => { x with failed := unionNat x.failed [gr] })) s
      let s2 := ops.foldl (fun s e => s.failOp e.1 e.2) (s1.wakeFaulted ctx gr)
      (nodes.foldl (fun s n => match s.node? n.queue n.seq with | some m => s.failNode m | none => s) s2).answer die cmdOK []) s

/-! ## INVAL (R352) -/

/-- The range of an INVAL: base and length. -/
def invalRange (va size : Nat) : Nat × Nat :=
  let n := match size with | 0 => 2 ^ 18 | 1 => 2 ^ 25 | 2 => 2 ^ 32 | _ => 2 ^ 57
  (if size = 3 then 0 else va / n * n, n)

/-- Codes under which a command goes on: an INVAL, a MIGRATE. -/
def invalOn : Nat := 0x130
def migrateOn : Nat := 0x131

/-- INVAL on a die (R352): the range's translations go at once, and the command ends when all that used them has ended. -/
def State.startInval (s : State) (die : Nat) (w : Window) : State :=
  let ctx := w.op 0x10 1
  let va := w.op 0x18 8
  let size := w.op 0x20 1
  let r := invalRange va size
  if (s.ctx ctx).state = .free then s.answer die cmdBUSY []
  else if 3 < size || (size != 3 && decide (2 ^ 57 ≤ va)) then s.answer die cmdINVALID []
  else if s.migrates ctx r.1 r.2 then s.answer die cmdBUSY []
  else
    let x := s.beginInval die ctx r.1 r.2 []
    if x.1.invalDone x.2 then x.1.answer die cmdOK []
    else ({ x.1 with invals := x.1.invals ++ [x.2] }.continueAs die invalOn).due [.inval]

/-- INVAL (R352): one that waits ends, or one that has been written begins. -/
def execInval (s : State) : Out :=
  match s.invals.find? (fun i => s.goes.contains (i.die, invalOn) && s.invalDone i) with
  | some i => .next ({ s with invals := s.invals.erase i }.answer i.die cmdOK [])
  | none => match s.taken 0x30 with
    | some die => .next (s.startInval die (s.window die))
    | none => .next (if (s.taken invalOn).isSome then s.due [.inval] else s)

/-! ## MIGRATE (R355) -/

/-- Range registers of a die. -/
def migrationRanges : Nat := 4

/-- Whether an item lies in a frame. -/
def itemIn (it : BufItem) (lo n : Nat) : Bool :=
  match itemSpan it with | some (pa, k) => decide (pa < lo + n ∧ lo < pa + k) | none => false
def Diff.meets (d : Diff) (lo n : Nat) : Bool := d.items.any (fun it => itemIn it lo n)

/-- MIGRATE (R355): the Page's checked-out lines check in, its frame is marked, and it is Migrating. -/
def execMigrate (s : State) : Out :=
  withCommand 0x31 (fun die w s =>
    let ctx := w.op 0x10 1
    let va := w.op 0x18 8
    let new := w.op 0x20 8
    if (s.ctx ctx).state = .free then s.answer die cmdBUSY []
    else if 2 ^ 57 ≤ va then s.answer die cmdINVALID []
    else
      match s.tlb.find? (fun t => t.maps ctx va) with
      | none => s.answer die cmdBUSY []
      | some t =>
        if new % 2 ^ t.lg ≠ 0 || 2 ^ 40 ≤ new then s.answer die cmdINVALID []
        else if s.migrates ctx t.va (2 ^ t.lg) || decide (migrationRanges ≤ (s.migrations.filter (fun m => m.die == die)).length) then
          s.answer die cmdBUSY []
        else if !(s.outIn [t]).isEmpty then
          (((s.outIn [t]).foldl (fun s x => s.checkIn x.1 x.2) s).continueAs die 0x31).due [.migrate]
        else
          let part := s.sealedOf (s.ctx ctx).part
          let m : Migration := { die := die, ctx := ctx, va := t.va, lg := t.lg, old := t.frame, new := new, part := part,
                                 bound := s.lastStamp part, step := 2, mark := 0, was := [] }
          let s1 : State := { s with migrations := s.migrations ++ [m] }
          (s1.continueAs die migrateOn).due [.migrationComplete die]) s

/-- The address of the leaf entry of a Page. -/
def leafEntry (s : State) (va : Nat) : Nat → Nat → Nat → Option Nat
  | 0, _, _ => none
  | fuel + 1, l, table =>
    let ea := table + 8 * (va / 2 ^ levelLow l % 2 ^ levelWidth l)
    let e := s.numPhys ea 8
    if !bitAt e 0 then none
    else if bitAt e 1 then some ea
    else if l < 3 then leafEntry s va fuel (l + 1) (field e 49 10 * 2 ^ 10)
    else none

/-- An address of the old frame stands at the same offset of the new one. -/
def Migration.moved (m : Migration) (pa : Nat) : Nat := if m.old ≤ pa ∧ pa < m.old + 2 ^ m.lg then m.new + (pa - m.old) else pa

/-- An item forwarded to the new frame (R355). -/
def Migration.movedItem (m : Migration) (it : BufItem) : BufItem :=
  match it with
  | .store sy near pa bytes => .store sy near (m.moved pa) bytes
  | .farRed pc pa o n x => .farRed pc (m.moved pa) o n x
  | .farAtom pc pa o n x cmp ret => .farAtom pc (m.moved pa) o n x cmp ret
  | .clStore pa bytes => .clStore pa bytes
  | .clRed pa o n x => .clRed pa o n x
  | .clAtom pa o n x cmp ret => .clAtom pa o n x cmp ret

/-- Bytes that one unit of the copy moves: an engine Chunk (R93). -/
def copyUnit : Nat := 8192

/-- Step 3 of R355: the frame is copied in engine Chunks. -/
def State.copyFrame (s : State) (m : Migration) : State :=
  (upFrom 0 (2 ^ m.lg / copyUnit)).foldl (fun s k =>
    s.deviceUnit m.part [storeItem (m.new + copyUnit * k) (physBytes s.regions s.mem (m.old + copyUnit * k) copyUnit)]) s

/-- Step 4 of R355: the leaf names the new frame. -/
def State.moveLeaf (s : State) (m : Migration) : State :=
  match leafEntry s m.va 4 0 (s.ctx m.ctx).ptroot with
  | some ea =>
    let e := s.numPhys ea 8
    s.deviceUnit m.part [storeItem ea (toBytes 8 (field e 63 50 * 2 ^ 50 + m.new + field e 9 0))]
  | none => s

/-- Poison moves with its line (R365). -/
def State.copyPoison (s : State) (m : Migration) : State :=
  { s with poison := (upFrom 0 (2 ^ m.lg / 64)).foldl (fun p k =>
      match p.get? (lineKey s.regions (m.old + 64 * k)) with
      | some x => p.set (lineKey s.regions (m.new + 64 * k)) x
      | none => p) s.poison }

/-- The line numbers of a frame. -/
def frameLines (rs : List Region) (pa lg : Nat) : List Nat := (upFrom 0 (2 ^ lg / 64)).map (fun k => lineKey rs (pa + 64 * k))

/-- The offset in the old frame of a line, where it lies there. -/
def Migration.offsetOf (m : Migration) (rs : List Region) (line : Nat) : Option Nat :=
  ((upFrom 0 (2 ^ m.lg / 64)).find? (fun k => lineKey rs (m.old + 64 * k) == line)).map (64 * ·)

/-- A line of the old frame is that of the same offset in the new one. -/
def Migration.movedLine (m : Migration) (rs : List Region) (line : Nat) : Nat :=
  match m.offsetOf rs line with | some o => lineKey rs (m.new + o) | none => line

/-- An entry of a home's fault queue for a line of the old frame stands at the home of the new one. -/
def Migration.movedPark (m : Migration) (rs : List Region) (e : Park) : Park :=
  match m.offsetOf rs e.line with
  | some o => { e with slice := sliceNo rs (m.new + o), line := lineKey rs (m.new + o) }
  | none => e

/-- Step 6 of R355: what is parked on the old frame goes to the new one, where the Page's translations now lead, and the marks clear. The Page
is Cached again, in the TLBs that held it (R350). -/
def State.forward (s : State) (m : Migration) : State :=
  let move (t : Tlb) : Tlb := if t.ctx = m.ctx ∧ t.va = m.va ∧ t.frame = m.old then { t with frame := m.new } else t
  let s1 : State :=
    { s with
      diffs := s.diffs.map (fun d => if d.part = m.part then { d with items := d.items.map m.movedItem, prot := d.prot.map (m.movedLine s.regions) } else d)
      offers := s.offers.map (fun o => match o.what with
        | .engine id items => { o with what := .engine id (items.map m.movedItem) }
        | _ => o)
      ops := s.ops.map (fun e => if e.2.ctx = m.ctx then (e.1, { e.2 with pages := e.2.pages.map move }) else e)
      parked := s.parked.map (m.movedPark s.regions)
      migrations := s.migrations.filter (· != m) }
  (m.was.foldl (fun s t => s.tlbPut { t with frame := m.new }) s1).replay (fun ln => (frameLines s.regions m.new m.lg).contains ln)

/-- Whether the steps before let the next one begin: 3, once what had been committed to the old frame has been applied, none of its lines
is under repair, and nothing is on its way to the new frame; 4, once the copy has been applied; 5, once the leaf has been committed; 6,
once that INVAL is done, apart from what is parked on the old frame (log 42). -/
def State.migrationReady (s : State) (m : Migration) : Bool :=
  let n := 2 ^ m.lg
  let t : State := { s with migrations := s.migrations.filter (· != m) }
  let still : Bool := s.stampsNow m.part
  match m.step with
  | 2 => still && !s.diffs.any (fun d => d.part == m.part && decide (d.stamp ≤ m.bound) && d.meets m.old n)
      && !s.diffs.any (fun d => d.meets m.new n)
      && !(upFrom 0 (n / 64)).any (fun k => t.parks (m.old + 64 * k) || t.parks (m.new + 64 * k))
  | 3 => still && !s.diffs.any (fun d => d.meets m.new n)
  | 4 => still
  | _ =>
    let onFrame : List Req := (s.parked.filter (fun e => (frameLines s.regions m.old m.lg).contains e.line)).foldl (fun a e => a ++ e.reqs) []
    let u : State := { s with diffs := s.diffs.filter (fun d => !d.meets m.old n), ops := s.ops.filter (fun e => !onFrame.contains (.op e.1)) }
    !s.invals.any (fun i => i.die == m.die && i.ctx == m.ctx && i.lo == m.va && !u.invalDone i)

/-- A migration with its next step in progress. -/
def State.setMigration (s : State) (m m1 : Migration) : State := { s with migrations := s.migrations.map (fun x => if x = m then m1 else x) }

/-- A step of R355 is performed, and the next awaited. -/
def State.migrationStep (s : State) (m : Migration) : State :=
  let again (s : State) (m1 : Migration) : State := (s.setMigration m m1).due [.migrationComplete m.die]
  match m.step with
  | 2 => again (s.copyFrame m) { m with step := 3 }
  | 3 => again ((s.copyPoison m).moveLeaf m) { m with step := 4 }
  | 4 =>
    let x := s.beginInval m.die m.ctx m.va (2 ^ m.lg) []
    again { x.1 with invals := x.1.invals ++ [x.2] } { m with step := 5, was := s.tlb.filter (fun t => t.ctx == m.ctx && t.va == m.va) }
  | _ =>
    let s1 : State := { s with invals := s.invals.filter (fun i => !(i.die == m.die && i.ctx == m.ctx && i.lo == m.va)) }
    ((s1.forward m).answer m.die cmdOK []).due [.differenceApply m.part]

/-- MIGRATION_COMPLETE (R355): a migration of a die that is ready takes its next step; with the last, the command ends. -/
def execMigrationComplete (die : Nat) (s : State) : Out :=
  match s.migrations.find? (fun m => m.die == die && s.migrationReady m) with
  | some m => .next (s.migrationStep m)
  | none => .next (if s.migrations.any (fun m => m.die == die) then s.due [.migrationComplete die] else s)

/-! ## Address map regions (R356 to R358) -/

/-- A region descriptor of 256 bytes, or none where a res field is nonzero (R356). -/
def regionOfBytes (bs : List Byte) : Option Region :=
  let x := ofBytes bs
  if field x 1023 48 != 0 || field x 41 40 != 0 || field x 29 1 != 0 then none
  else some { en := bitAt x 0, base := field x 39 30, lgsize := field x 47 42,
              rows := (upFrom 0 32).map (fun i => field x (32 * i + 1055) (32 * i + 1024)) }

/-- Reduction of a vector by the members of a basis, in the order in which they entered it (Gaussian elimination over GF(2), R358). -/
def gfReduce (basis : List Nat) (v : Nat) : Nat := basis.foldl (fun v e => min v (v ^^^ e)) v

/-- A basis of the span of vectors. -/
def gfBasis (vs : List Nat) : List Nat :=
  vs.foldl (fun b v => let r := gfReduce b v; if r = 0 then b else b ++ [r]) []

/-- Whether a matrix is invertible. -/
def Region.invertible (r : Region) : Bool := (gfBasis r.rows).length == 32

/-- The image of a region's range: the location of its base, and the directions in which its free address bits move it. -/
def Region.origin (r : Region) : Nat := locWord (r.base * 2 ^ 22) r.rows 0
def Region.directions (r : Region) : List Nat := (upFrom 0 (r.lgsize - 8)).map (fun j => locWord (2 ^ j) r.rows 0)

/-- Whether the images of two regions are disjoint (R358). -/
def Region.apart (a b : Region) : Bool := gfReduce (gfBasis (a.directions ++ b.directions)) (a.origin ^^^ b.origin) != 0

/-- Whether the ranges of two regions are disjoint. -/
def Region.rangesApart (a b : Region) : Bool :=
  decide (a.base * 2 ^ 30 + 2 ^ a.lgsize ≤ b.base * 2 ^ 30 ∨ b.base * 2 ^ 30 + 2 ^ b.lgsize ≤ a.base * 2 ^ 30)

/-- Every pair of a list. -/
def pairwise (p : Region → Region → Bool) : List Region → Bool
  | [] => true
  | a :: r => r.all (p a) && pairwise p r

/-- The tests of a new map that do not look at Contexts (R358). -/
def mapOk (rs : List Region) : Bool :=
  let on := rs.filter (fun r => r.en)
  on.all (fun r => decide (30 ≤ r.lgsize) && decide (r.lgsize ≤ 40) && r.base * 2 ^ 30 % 2 ^ r.lgsize == 0
      && decide (r.base * 2 ^ 30 + 2 ^ r.lgsize ≤ 2 ^ 40) && r.invertible)
    && pairwise Region.rangesApart on && on.foldl (fun n r => n + 2 ^ r.lgsize) 0 == 2 ^ 40 && pairwise Region.apart on

/-- Whether a Context is in a state that holds the configuration (R272, R358). -/
def CState.bound (x : CState) : Bool :=
  match x with | .live => true | .suspending => true | .suspended => true | .killing => true | _ => false

/-- The image of the eight descriptors is judged (R358): a new map, or the status that refuses it. -/
def State.judgeMap (s : State) (image : List Byte) : List Region ⊕ Nat :=
  let ds := (upFrom 0 8).map (fun i => regionOfBytes ((image.drop (256 * i)).take 256))
  if ds.any (fun d => d.isNone) then .inr cmdINVALID
  else
    let rs := ds.filterMap id
    if !mapOk rs then .inr cmdINVALID
    else if s.ctxs.any (fun c => c.2.state.bound) || s.newRegions.isSome then .inr cmdBUSY
    else .inl rs

/-- WRREGION (R269, R358). -/
def execWrregion (s : State) : Out :=
  withCommand 0x41 (fun die w s =>
    let pa := w.op 0x10 8
    if pa % 256 ≠ 0 || !physOk pa || !physOk (pa + 2047) then s.answer die cmdINVALID []
    else
      match (upFrom pa 2048).find? (s.waits 0) with
      | some a => ((s.await a .other).continueAs die 0x41).due [.wrregion]
      | none =>
        match s.judgeMap (s.readPhys pa 2048) with
        | .inl rs =>
          let s1 : State := { s with newRegions := some rs }
          (s1.continueAs die 0x141).due [.mapTakeEffect]
        | .inr st => s.answer die st []) s

/-- MAP_TAKE_EFFECT (R358): once every cached line has been written back and dropped, addresses map by the new descriptors. -/
def execMapTakeEffect (s : State) : Out :=
  match s.newRegions with
  | none => .next s
  | some rs =>
    if !s.diffs.isEmpty then .next (s.due [.mapTakeEffect])
    else
      let s1 : State := { s with regions := rs, newRegions := none, chainTags := [], clusters := [] }
      .next (match s1.taken 0x141 with | some die => s1.answer die cmdOK [] | none => s1)

/-! ## Lines and rows under repair (R361, R363) -/

/-- Nanoseconds after which a returned request is sent again (R363). -/
def resendAfter : Nat := 1000

/-- REQUEST_RESEND (R363): 1 µs after its return the request is sent again. -/
def execRequestResend (c slot : Nat) (s : State) : Out :=
  match s.group? c slot with
  | some g => match g.hold with
    | .resend since =>
      .next (if s.wall < since + resendAfter then s.due [.requestResend c slot] else s.modGroup c slot (fun g => { g with hold := .none }))
    | _ => .next s
  | none => .next s

/-- Whether a rank of the parity group other than the module's own is lost (R361). -/
def State.groupBroken (s : State) : Bool :=
  match s.parGroup with
  | some g => (upFrom 0 8).any (fun r => r != g.self && s.rankLost r)
  | none => false

/-- Whether a difference of a line's stripe is on its way to the holder (R361). -/
def State.stripeBusy (s : State) (line : Nat) : Bool :=
  match s.parGroup with | some g => s.parity.any (fun d => d.stripe == stripeOf g.self (line / 4)) | none => false

/-- LINE_REBUILD (R361): the line gets the bytes that the stripe's other holders give, which other modules tell; its requests are replayed. A
rebuild waits for the stripe's differences, and while it cannot reach a holder. -/
def execLineRebuild (line : Nat) (bytes : List Byte) (s : State) : Out :=
  if !s.badLines.contains line then .next s
  else if s.groupBroken || s.stripeBusy line then .next (s.due [.lineRebuild line bytes])
  else
    let bs := if bytes.length = 64 then bytes else freeBytes s.fresh 64
    let s1 : State := { s with mem := s.mem.put (64 * line) bs, fresh := if bytes.length = 64 then s.fresh else s.fresh + 64,
                               badLines := s.badLines.filter (· != line) }
    .next (s1.replay (· == line))

/-! ## Refresh (R366) -/

/-- Nanoseconds for which a refresh occupies a bank, and the refreshes that may be postponed. -/
def refreshNs : Nat := 350
def maxPostponed : Nat := 8

/-- Refreshes of a bank issued one after another, beginning now. -/
def State.issueRefreshes (s : State) (b n : Nat) : State := { s with banks := s.banks.set b (s.wall + refreshNs * n, 0) }

/-- REFRESH (R366): a refresh that is due is issued, with those postponed, or is postponed while the bank is occupied. -/
def execRefresh (stack channel pc bank : Nat) (s : State) : Out :=
  let b := bankNo stack channel pc bank
  let x := s.banks.getD b (0, 0)
  if x.1 ≤ s.wall then .next (s.issueRefreshes b (x.2 + 1))
  else if x.2 < maxPostponed then .next { s with banks := s.banks.set b (x.1, x.2 + 1) }
  else .next (s.due [.refresh stack channel pc bank])

/-- REFRESH_BACKOFF (R366): with eight refreshes postponed, each is issued before the back-off is served. -/
def execRefreshBackoff (stack channel pc bank : Nat) (s : State) : Out :=
  let b := bankNo stack channel pc bank
  let x := s.banks.getD b (0, 0)
  if s.wall < x.1 then .next (s.due [.refreshBackoff stack channel pc bank])
  else if x.2 = maxPostponed then .next (s.issueRefreshes b (maxPostponed + 1))
  else .next { s with banks := s.banks.set b (s.wall + refreshNs, x.2) }

end Sys2Proof.Machine
end

