-- ==== Sys2Proof/Machine/Health.lean ====
section
/-! DEFINITION. What the health manager does to units (17_lease.md): retirement records (R416), capacity changes (R415), retirement (R409,
R413), the reset of a partition (R420). -/

namespace Sys2Proof.Machine

/-! ## Records (R416, R417) -/

/-- Reasons of R416. -/
def whyPattern : Nat := 1
def whyScore : Nat := 2
def whyBin : Nat := 3
def whyPower : Nat := 4
def whyRoute : Nat := 5
def whyLane : Nat := 6
def whyThermal : Nat := 7

/-- The unit word of the module (R416). -/
def unitModule : Nat := 0x6000

/-- Record slots of the nonvolatile store (R417). -/
def recordSlots : Nat := 8192

/-- A retirement record's bytes (R416). -/
def recordBytes (seq unit reason bin score detail sec ns : Nat) : List Byte :=
  toBytes 64 (1 + seq * 2 ^ 32 + bin * 2 ^ 290 + reason * 2 ^ 296 + unit * 2 ^ 304 + score * 2 ^ 320 + Config.fwVersion % 2 ^ 32 * 2 ^ 336
    + ns * 2 ^ 368 + sec % 2 ^ 48 * 2 ^ 400 + detail * 2 ^ 448)

/-- A record is written; with every slot used it is counted instead (R417). -/
def State.addRecord (s : State) (unit reason bin detail : Nat) : State :=
  if recordSlots ≤ s.records.length then { s with overflow := s.overflow + 1 }
  else
    { s with records := s.records ++
        [recordBytes (s.records.length + 1) unit reason bin (if unit = unitModule then 0 else (s.unit unit).score) detail s.sec s.ns] }

/-- Record number n, or zeros (R269, R421). -/
def State.record (s : State) (n : Nat) : List Byte := if n = 0 then List.replicate 64 0 else s.records.getD (n - 1) (List.replicate 64 0)

/-- The unit status word (R414). -/
def UState.no (x : UState) : Nat :=
  match x with | .inService => 0 | .requested => 1 | .testing => 2 | .rebuild => 3 | .retired => 4
def HUnit.word (x : HUnit) : Nat := x.score + x.leases % 2048 * 2 ^ 16 + x.bin * 2 ^ 27 + x.state.no * 2 ^ 29

/-- Unit words of R407. -/
def unitClass (u : Nat) : Nat := u / 4096
def unitNum (u : Nat) : Nat := u % 4096
def unitOk (u : Nat) : Bool :=
  match unitClass u with
  | 0 => decide (unitNum u < 384)
  | 1 => decide (unitNum u < 68)
  | 2 => decide (unitNum u < 12)
  | 3 => decide (unitNum u < 512)
  | 4 => decide (unitNum u < 4)
  | _ => false

/-! ## Capacity changes (R279, R415) -/

/-- The set of units that a Context's capacity counts. -/
def State.capacitySet (s : State) (p : Nat) : List Nat × List Nat × List Nat := (s.coreSet p, s.channelSet p, s.portSet p)

/-- CAPCHG to a Group: at once where it stands at a Chunk boundary, else at the next (R102). -/
def State.capToGroup (s : State) (v c slot : Nat) : State :=
  match s.group? c slot with
  | some g =>
    let s1 := s.modGroup c slot (fun x => { x with capPending := some v })
    if g.chunk.words = 0 && g.seq.n == 0 && g.chunk.phase == .opened then s1.deliverCap c slot else s1
  | none => s

/-- One capacity change of a Context: capcount, an arrival on capbar of every Team, CAPCHG to every Group, Saved ones included (R279). -/
def State.changeCtx (s : State) (ctx : Nat) : State :=
  let c := s.ctx ctx
  let v := (c.capcount + 1) % 2 ^ 32
  let s1 := s.setCtx ctx { c with capcount := v }
  let mine (kid : Nat) : Bool := match s1.kernels.get? kid with | some k => k.ctx == ctx | none => false
  let s2 := if c.capbar = 63 then s1
    else ((s1.teams.filter (fun t => mine t.2.kernel)).map (fun t => t.1)).foldl (fun s t => s.arriveOther t c.capbar) s1
  let gs := s2.cores.foldl (fun acc k => if k.2.kernel.any mine then acc ++ k.2.groups.map (fun g => (k.1, g.1)) else acc) []
  let s3 := gs.foldl (fun s g => s.capToGroup v g.1 g.2) s2
  { s3 with kernels := s3.kernels.map (fun k => if k.2.ctx = ctx then
      (k.1, { k.2 with gangs := k.2.gangs.map (fun g => (g.1, { g.2 with images := g.2.images.map (fun i =>
        { i with groups := i.groups.map (fun x => (x.1, { x.2 with capPending := some v })) }) })) }) else k) }

/-- Every Context whose set of units differs from an earlier one's meets one capacity change (R415). -/
def State.recount (s : State) (before : State) : State :=
  ((s.ctxs.filter (fun c => c.2.state != .free && s.capacitySet c.2.part != before.capacitySet c.2.part)).map (fun c => c.1)).foldl
    (fun s c => s.changeCtx c) s

/-! ## Units and Links -/

def State.setUnit (s : State) (u : Nat) (x : HUnit) : State := { s with units := s.units.set u x }
def State.setLink (s : State) (l : Nat) (x : Link) : State := { s with links := s.links.set l x }

/-! ## Routes (R19, R390, R394) -/

/-- The rank of a module in a collective group. -/
def CollGroup.rankOf (g : CollGroup) (m : Nat) : Option Nat :=
  (upFrom 0 g.members).find? (fun r => r != g.self && g.mods.getD r 0 == m)

/-- The NSL port to another module, which the parity group names, or to a port's reduction switch. -/
def State.portTo (s : State) (m : Nat) : Nat :=
  if 256 ≤ m then m - 256 else match s.parGroup with | some g => g.port.getD ((g.rankOf m).getD 0) 0 | none => 0

/-- The die where a packet for an endpoint ends or leaves the device (R390). -/
def State.dieAt (s : State) (e : Nat) : Nat := if isModule e then s.portTo (e - 2 ^ 16) / 3 else endDie e

/-- The way in force of a packet between endpoints. -/
def State.packetWay (s : State) (src dst : Nat) : Option (List Nat) := s.route (s.dieAt src) (s.dieAt dst)

/-- A packet at the port by which it crosses a boundary: the same rule chooses it at the source's die and at one on the way (R390). -/
def queuedAt (l src dst seq payload : Nat) : Queued :=
  { src := src, dst := dst, seq := seq, payload := payload, port := crossingPort l (endSite dst) }

/-- A packet that crosses a boundary when this stops is held there (R392, R393): it has not reached its destination, and goes on with the lock,
or is dropped. -/
def State.holdCrossing (s : State) (l : Nat) : State :=
  let crosses (i : Instr) : Bool := match i with
    | .packetArrival src dst _ _ => (s.packetWay src dst).any (fun w => w.contains l)
    | _ => false
  let held := s.agenda.filterMap (fun i => match i with
    | .packetArrival src dst seq p => if crosses i then some (queuedAt l src dst seq p) else none
    | _ => none)
  ({ s with agenda := s.agenda.filter (fun i => !crosses i) } : State).setLink l { s.link l with queued := (s.link l).queued ++ held }

/-- A unit with a Link state enters one in which it holds nothing: what queued behind it, and what was crossing it, is dropped (R392); an
end-to-end packet is sent again by its source (R393, R395). -/
def State.cutLink (s : State) (l : Nat) (x : LinkState) : State :=
  (s.holdCrossing l).setLink l { state := x, replays := 0, queued := [], since := s.wall }

/-- A Link enters a state now; consecutive replays count anew. -/
def State.enterLink (s : State) (l : Nat) (x : LinkState) : State :=
  (s.setLink l { s.link l with state := x, replays := 0, since := s.wall }).recount s

/-- A Link retires: what queued behind it and what was crossing it is dropped (R392). -/
def State.retireLink (s : State) (l : Nat) : State := (s.cutLink l .retired).recount s

/-- The Link of a unit that retires with it (R407, R413); a lane group of a boundary leaves the boundary Up (R410). -/
def unitLink (u : Nat) : Option Nat :=
  match unitClass u with
  | 2 => some (linkPort (unitNum u))
  | 4 => some (16 + unitNum u)
  | _ => none

/-- The detail of a retirement record: for a channel the first frame of its lowest row (R416). -/
def State.retireDetail (s : State) (u : Nat) : Nat :=
  if unitClass u = 3 then s.addressOf (unitNum u / 32 * 2 ^ 6 + unitNum u % 32 * 2) / 2 ^ 18 * 2 ^ 18 else 0

/-- A unit is Retired: record, nonvolatile store, its Link, capacity change, PREEMPT to Gangs on a core (R409, R413). -/
def State.retireUnit (s : State) (u reason : Nat) : State :=
  let s1 := (s.setUnit u { s.unit u with state := .retired }).addRecord u reason 0 (s.retireDetail u)
  let s2 : State := { s1 with nvUnits := s1.units }
  let s3 : State := match unitLink u with
    | some l => s2.cutLink l .retired
    | none => s2
  let s4 := s3.recount s
  if unitClass u = 0 then s4.preemptCore u else s4

/-! ## Reset of a partition (R392, R420) -/

/-- Whether a partition owns a unit or a Link (R37): boundaries and NCL lane groups belong to sealed ones. -/
def boundaryEnds (b : Nat) : Nat × Nat := match b with | 0 => (0, 1) | 1 => (1, 3) | 2 => (3, 2) | _ => (2, 0)
def State.ownsLink (s : State) (p l : Nat) : Bool :=
  let d := (s.part p).dmask
  let sealed_ : Bool := (s.part p).kind == 1
  if l < 4 then sealed_ && bitAt d (boundaryEnds l).1 && bitAt d (boundaryEnds l).2
  else if l < 16 then bitAt (s.part p).nslmask (l - 4)
  else sealed_ && bitAt d (l - 16)
def State.ownsUnit (s : State) (p u : Nat) : Bool :=
  match unitClass u with
  | 0 => bitAt (s.part p).clmask (unitNum u / 4)
  | 1 => s.ownsLink p (unitNum u / 17)
  | 2 => s.ownsLink p (linkPort (unitNum u))
  | 3 => bitAt (s.part p).stmask (unitNum u / 32)
  | _ => s.ownsLink p (16 + unitNum u)

/-- The Contexts of a partition, those of its soft children included. -/
def State.ctxsOf (s : State) (p : Nat) : List Nat :=
  (s.ctxs.filter (fun c => c.2.part == p || ((s.part c.2.part).kind == 2 && (s.part c.2.part).parent == p))).map (fun c => c.1)

/-- RESETPART's effect (R270, R392, R420): KILL to the Contexts, the Links through Down to Training, leases ended with their units In
service, which fall due again (R408); the die controllers go on from what survives their reset (R419). -/
def State.resetPartition (s : State) (p : Nat) : State :=
  let s1 := (s.ctxsOf p).foldl (fun s c => match (s.ctx c).state with
    | .live => s.killCtx c
    | .suspending => s.killCtx c
    | .suspended => s.killCtx c
    | _ => s) s
  let ls := (upFrom 0 20).filter (fun l => s1.ownsLink p l && (s1.link l).state != .retired)
  let s2 := (ls.foldl (fun s l => s.cutLink l .training) s1).due (ls.map (fun l => .trainingTimeout l))
  let leased (x : UState) : Bool := match x with | .requested => true | .testing => true | .rebuild => true | _ => false
  let ended := (s2.units.filter (fun u => leased u.2.state && s2.ownsUnit p u.1)).map (fun u => u.1)
  let s3 := ended.foldl (fun s u => s.setUnit u { s.unit u with state := .inService, window := none }) s2
  (s3.due (ended.map (fun u => .leaseDue u))).recount s

end Sys2Proof.Machine
end

