-- ==== Sys2Proof/Machine/Links.lean ====
section
/-! DEFINITION. Links (R391 to R394) and end-to-end delivery (R395 to R397). -/

namespace Sys2Proof.Machine

/-! ## The Link state table (R392) -/

/-- Nanoseconds of R392: training, its retry, retraining. -/
def trainNs : Nat := 100000000
def retryNs : Nat := 1000000000
def retrainNs : Nat := 64000

/-- Packets reach their destinations within the device (R395); those for another module leave it. -/
def arrivals (q : List Queued) : List Instr := (q.filter (fun p => !isModule p.dst)).map (fun p => .packetArrival p.src p.dst p.seq p.payload)

/-- LINK_LOCK (R392): Training ends in Up within 100 ms, Retraining within 64 µs, Degraded at any time. What queued behind a Retraining boundary goes on (R393, R394). -/
def execLinkLock (l : Nat) (s : State) : Out :=
  let x := s.link l
  let up : State := (s.setLink l { state := .up, replays := 0, queued := [], since := s.wall }).recount s
  match x.state with
  | .training => .next (if s.wall ≤ x.since + trainNs then up else s)
  | .retraining => .next (if s.wall ≤ x.since + retrainNs then up.due (arrivals x.queued) else up)
  | .degraded => .next up
  | _ => .next s

/-- TRAINING_TIMEOUT (R392): no lock within 100 ms. -/
def execTrainingTimeout (l : Nat) (s : State) : Out :=
  let x := s.link l
  if x.state ≠ .training then .next s
  else if s.wall < x.since + trainNs then .next (s.due [.trainingTimeout l])
  else .next ((s.enterLink l .down).due [.trainingRetry l])

/-- TRAINING_RETRY (R392): training is tried again every second. -/
def execTrainingRetry (l : Nat) (s : State) : Out :=
  let x := s.link l
  if x.state ≠ .down then .next s
  else if s.wall < x.since + retryNs then .next (s.due [.trainingRetry l])
  else .next ((s.enterLink l .training).due [.trainingTimeout l])

/-- The scored unit of a Link event: 0 to 3 a boundary's lane group 0, 4 to 15 an NSL port, 16 to 19 an NCL lane group, and 32 + n lane
group n of the boundaries (R407). -/
def laneUnit (l : Nat) : Nat :=
  if l < 4 then unitLane (17 * l) else if l < 16 then unitPort (l - 4) else if l < 32 then unitNcl (l - 16) else unitLane (l - 32)
def laneLink (l : Nat) : Nat := if l < 32 then l else (l - 32) / 17

/-- Retraining begins (R392). -/
def State.retrain (s : State) (l : Nat) : State := ((s.holdCrossing l).enterLink l .retraining).due [.retrainTimeout l]

/-- FLIT_REPLAY (R392, R413): suspicion +1; the eighth consecutive replay of one flit enters Retraining. Whether this flit is the one last
replayed is free. -/
def execFlitReplay (l : Nat) (s : State) : Out :=
  let k := laneLink l
  let x := s.link k
  if x.state ≠ .up then .next s
  else
    let same := (Config.freeByte s.fresh).toNat % 2 == 1
    let n := if same then x.replays + 1 else 1
    let s1 := { s with fresh := s.fresh + 1 }.addScore (laneUnit l) 1
    .next (if 8 ≤ n then s1.retrain k else s1.setLink k { x with replays := n })

/-- LOCK_LOSS (R392). -/
def execLockLoss (l : Nat) (s : State) : Out :=
  if (s.link (laneLink l)).state = .up then .next (s.retrain (laneLink l)) else .next s

/-- RETRAIN_TIMEOUT (R392): after 64 µs queued packets are dropped. -/
def execRetrainTimeout (l : Nat) (s : State) : Out :=
  let x := s.link l
  if x.state ≠ .retraining then .next s
  else if s.wall < x.since + retrainNs then .next (s.due [.retrainTimeout l])
  else .next ((s.cutLink l .degraded).recount s)

/-! ## Packets on their way (R394, R395) -/

/-- A packet leaves for its destination: behind a Retraining boundary, at its port there (R390), or over the route in force to its end, or to the die of the NSL port
that it leaves by; with no way open it waits at the sending die, where its copy is kept. -/
def State.transmit (s : State) (src dst seq payload : Nat) : State :=
  if isModule src then s
  else
    match s.packetWay src dst with
    | none => s
    | some w =>
      match w.find? (fun b => (s.link b).state == .retraining) with
      | some b => s.setLink b { s.link b with queued := (s.link b).queued ++ [queuedAt b src dst seq payload] }
      | none => if isModule dst then s else s.due [.packetArrival src dst seq payload]

/-! ## Arrival and acknowledgement (R396) -/

/-- Packets that a source may have unacknowledged at one destination, and the receiver's window (R396). -/
def packetWindow : Nat := 256

/-- Early packets that the next expected number has reached are delivered in order. -/
def Pair.drain : Nat → Pair → Pair × List Nat
  | 0, p => (p, [])
  | n + 1, p =>
    match p.early.find? (fun e => e.1 == p.expect) with
    | some e =>
      let r := Pair.drain n { p with early := p.early.filter (fun x => x.1 != e.1), delivered := p.delivered ++ [e.2],
                                     expect := (p.expect + 1) % 2 ^ 16 }
      (r.1, e.1 :: r.2)
    | none => (p, [])

/-- PACKET_ARRIVAL (R396): delivered in order and acknowledged, held while early, dropped as a duplicate and acknowledged again, or dropped. -/
def execPacketArrival (src dst seq payload : Nat) (s : State) : Out :=
  let p := s.pair src dst
  let d := (seq % 2 ^ 16 + 2 ^ 16 - p.expect) % 2 ^ 16
  if d < packetWindow then
    let p1 := if p.early.any (fun e => e.1 == seq % 2 ^ 16) then p else { p with early := p.early ++ [(seq % 2 ^ 16, payload)] }
    let r := p1.drain packetWindow
    .next ((s.setPair src dst r.1).due (r.2.map (fun n => .packetAck src dst n)))
  else if 2 ^ 15 ≤ d then .next (s.due [.packetAck src dst (seq % 2 ^ 16)])
  else .next s

/-- Whether the way between two endpoints is open: within the device, or by the NSL port to another module. -/
def State.wayOpen (s : State) (src dst : Nat) : Bool :=
  if isModule dst then s.nslOpen (s.dieAt src) (s.portTo (dst - 2 ^ 16)) else s.reaches (s.dieAt src) (s.dieAt dst)

/-- The link units that carry a packet between endpoints: the lane groups of the boundaries on its way, and the NSL port by which it leaves (R407). -/
def State.linkUnits (s : State) (src dst : Nat) : List Nat :=
  ((s.packetWay src dst).getD []).foldl (fun a b => a ++ upFrom (unitLane (17 * b)) 17) (if isModule dst then [unitPort (s.portTo (dst - 2 ^ 16))] else [])

/-- PACKET_ACK (R395): the source's copy goes, and the time since it was last sent is a sample (R418, log 106); a parity difference is known to be held (R402). While the way between the two is not open the
acknowledgement waits (R394). -/
def execPacketAck (src dst seq : Nat) (s : State) : Out :=
  let p := s.pair src dst
  match p.copies.find? (fun c => c.1 == seq) with
  | none => .next s
  | some c =>
    if !s.wayOpen src dst then .next (s.due [.packetAck src dst seq]) else
    let s1 := (s.setPair src dst { p with copies := p.copies.filter (fun x => x.1 != seq) }).sampled 2 (s.linkUnits src dst) (s.wall - c.2.2.2 : Nat)
    let parity : Bool := isModule dst && 384 ≤ src && src < 480
    let holder (d : ParityDiff) : Bool := match s.parGroup with | some g => moduleEnd (g.mods.getD d.holder 0) == dst | none => false
    .next (if parity then { s1 with parity := s1.parity.filter (fun d => !(d.seq == c.2.1 && holder d)) } else s1)

/-! ## Resend (R395, R397) -/

/-- Nanoseconds without an acknowledgement, and resends, of R395 and R397. -/
def resendNs : Nat := 20000
def maxResends : Nat := 64

/-- A module or switch is unreachable (R397): collectives that name it complete with LINK, once they have left and have a status address,
MERGE messages for it are dropped and counted, parity differences wait. -/
def State.loseModule (s : State) (m : Nat) : State :=
  let dst := moduleEnd m
  let kept := (s.pairs.filter (fun e => e.1 % 2 ^ 17 == dst)).foldl (fun n e => n + e.2.copies.length) 0
  let s1 : State :=
    { s with unreachable := unionNat s.unreachable [m]
             pairs := s.pairs.map (fun e => if e.1 % 2 ^ 17 = dst then (e.1, { e.2 with copies := [], unsent := [] }) else e)
             mergesLost := if 256 ≤ m then s.mergesLost + kept else s.mergesLost }
  (s1.ops.filter (fun e => cmdFmt e.2.cmd == 3 && (e.2.state == .translating || e.2.state == .left))).foldl (fun s e =>
    match (s.collGroup (collCmd e.2.cmd).cgrp).rankOf m with
    | some r =>
      if e.2.state = .left then s.finishOp e.1 e.2 (stLINK r)
      else s.setOp e.1 { e.2 with status := if e.2.status = 0 then stLINK r else e.2.status }
    | none => s) s1

/-- The boundaries of a way retire, each with a record (R397, R416). -/
def State.retireWay (s : State) (w : List Nat) : State :=
  w.foldl (fun s b => if (s.link b).state = .retired then s else (s.retireLink b).addRecord (unitLane (17 * b)) whyRoute 0 0) s

/-- A packet that 64 resends have not brought an acknowledgement for (R397). -/
def State.giveUp (s : State) (src dst seq payload : Nat) : State :=
  if isModule dst then s.loseModule (dst - 2 ^ 16)
  else
    let a := endDie src
    let b := endDie dst
    let s1 := s.retireWay ((s.route a b).getD ((s.waysIn a b).headD []))
    let p := s1.pair src dst
    let s2 := s1.setPair src dst { p with copies := p.copies.map (fun c => if c.1 = seq then (c.1, c.2.1, 0, s.wall) else c) }
    if (s2.waysIn a b).all (fun w => w.any (fun l => (s2.link l).state == .retired)) then
      (s2.resetPartition (s2.partOfDie a)).due [.resendTimeout src dst seq]
    else (s2.transmit src dst seq payload).due [.resendTimeout src dst seq]

/-- RESEND_TIMEOUT (R395 to R397): a packet is sent, once no more than 256 are unacknowledged, and its copy again after 20 µs, each time on
the route in force. -/
def execResendTimeout (src dst seq : Nat) (s : State) : Out :=
  let p := s.pair src dst
  match p.copies.find? (fun c => c.1 == seq) with
  | none => .next s
  | some (_, payload, n, at_) =>
    let sent (k : Nat) : State :=
      let s1 := s.setPair src dst { p with copies := p.copies.map (fun c => if c.1 = seq then (c.1, c.2.1, k, s.wall) else c),
                                           unsent := p.unsent.filter (· != seq) }
      (s1.transmit src dst seq payload).due [.resendTimeout src dst seq]
    if p.unsent.contains seq then
      .next (if (p.copies.take packetWindow).any (fun c => c.1 == seq) then sent n else s.due [.resendTimeout src dst seq])
    else if s.wall < at_ + resendNs then .next (s.due [.resendTimeout src dst seq])
    else .next (if maxResends ≤ n then s.giveUp src dst seq payload else sent (n + 1))

end Sys2Proof.Machine
end

