-- ==== Sys2Proof/Machine/Leases.lean ====
section
/-! DEFINITION. Leases (R407 to R412), scores (R413), the watchdog (R419), reading records and units (R414, R416). -/

namespace Sys2Proof.Machine

/-! ## LEASE_DUE (R408, R409) -/

/-- Thresholds of R409, and the wait before PREEMPT on a Requested core. -/
def scoreLease : Nat := 1024
def scoreRetire : Nat := 8192
def leasePreemptNs : Nat := 50000000

/-- What a unit shares with others of which one may be leased at a time: a cluster, a boundary, a port, a stack (R408). -/
def leaseScope (u : Nat) : Nat × Nat :=
  match unitClass u with
  | 0 => (0, unitNum u / 4)
  | 1 => (1, unitNum u / 17)
  | 2 => (2, unitNum u)
  | _ => (3, unitNum u / 32)

/-- Whether a lease is in force. -/
def UState.leased (x : UState) : Bool := match x with | .requested => true | .testing => true | .rebuild => true | _ => false

/-- A boundary whose spare is in permanent use is leased no more (R410). -/
def State.spareUsed (s : State) (u : Nat) : Bool :=
  unitClass u == 1 && s.units.any (fun e => unitClass e.1 == 1 && unitNum e.1 / 17 == unitNum u / 17 && e.2.state == .retired)

/-- Whether a unit falls due: by score, or by period (R408, R409). -/
def State.isDue (s : State) (u : Nat) : Bool :=
  let x := s.unit u
  x.state == .inService && (decide (scoreLease ≤ x.score) || decide (x.leasedAt + s.lperiod * 60000000000 ≤ s.wall))

/-- Whether a unit is leased before another: score first, then the lower unit word (R408). -/
def State.leasedBefore (s : State) (a b : Nat) : Bool :=
  let sa := decide (scoreLease ≤ (s.unit a).score)
  let sb := decide (scoreLease ≤ (s.unit b).score)
  if sa != sb then sa else decide (a < b)

/-- Another unit of the scope is under lease. -/
def State.scopeLeased (s : State) (u : Nat) : Bool :=
  s.units.any (fun e => e.1 != u && unitClass e.1 < 4 && leaseScope e.1 == leaseScope u && e.2.state.leased)

/-- Whether a unit's lease waits: for one of its scope, or for a unit that is due and comes first, of its scope, or of one where it can be leased
now (R408). -/
def State.scopeBusy (s : State) (u : Nat) : Bool :=
  s.scopeLeased u
    || s.agenda.any (fun e => match e with
      | .leaseDue v => v != u && unitOk v && decide (unitClass v < 4) && s.isDue v && !s.spareUsed v && s.leasedBefore v u
          && (leaseScope v == leaseScope u || !s.scopeLeased v)
      | _ => false)

/-- Whether the spare that is to take a lane group's traffic is free: no other lane group of the boundary stands on it. -/
def State.spareFree (s : State) (u : Nat) : Bool :=
  unitClass u != 1 || !s.units.any (fun e => e.1 != u && unitClass e.1 == 1 && leaseScope e.1 == leaseScope u
    && (e.2.state == .testing || e.2.state == .retired))

/-- LEASE_DUE (R409): a unit falls due by period or score and is Requested; one whose score has reached 8,192 is Retired. -/
def execLeaseDue (u : Nat) (s : State) : Out :=
  let x := s.unit u
  if !unitOk u || x.state == .retired then .next s
  else if scoreRetire ≤ x.score && x.state != .rebuild then .next (s.retireUnit u whyScore)
  else if x.state != .inService || unitClass u = 4 || s.spareUsed u then .next s
  else if !s.isDue u || s.scopeBusy u then .next (s.due [.leaseDue u])
  else
    let s1 := s.setUnit u { x with state := .requested, requestedAt := s.wall }
    .next (s1.due ((if unitClass u = 0 then [.leasePreemptTimer] else []) ++ [.leaseTestingStart u]))

/-- LEASE_PREEMPT_TIMER (R409): 50 ms after its request, PREEMPT goes to every Gang with an image on a core. -/
def execLeasePreemptTimer (s : State) : Out :=
  let cs := (s.units.filter (fun e => unitClass e.1 == 0 && e.2.state == .requested)).map (fun e => e.1)
  let late (c : Nat) : Bool := decide ((s.unit c).requestedAt + leasePreemptNs ≤ s.wall)
  let s1 := (cs.filter late).foldl (fun s c => s.preemptCore c) s
  .next (if cs.all late then s1 else s1.due [.leasePreemptTimer])

/-- Whether an image stands on a core. -/
def State.imageOn (s : State) (c : Nat) : Bool :=
  (s.core c).kernel.isSome
    || s.kernels.any (fun k => k.2.gangs.any (fun g => g.2.images.any (fun i => i.core == c && i.state != .saved)))

/-- LEASE_TESTING_START (R409, R411): a core without an image, a lane whose spare is free, or a channel enters Testing. A channel's test window is
copied and pinned, by its number (log 107), and its rows' corrected events count from now. -/
def execLeaseTestingStart (u : Nat) (s : State) : Out :=
  let x := s.unit u
  if x.state ≠ .requested then .next s
  else if (unitClass u = 0 && s.imageOn u) || !s.spareFree u then .next (s.due [.leaseTestingStart u])
  else if unitClass u = 3 then
    .next (({ s with rowEvents := s.rowEvents.filter (fun e => channelOf e.1 != unitNum u) } : State).setUnit u
      { x with state := .testing, window := some (x.leases % 2048) })
  else .next ((s.setUnit u { x with state := .testing }).recount s)

/-! ## The end of a lease (R409 to R412) -/

/-- A lease ends with its unit In service: leases +1, and the period starts again. -/
def State.leaseEnds (s : State) (u : Nat) (f : HUnit → HUnit) : State :=
  let x := s.unit u
  let s1 := s.setUnit u (f { x with state := .inService, leases := (x.leases + 1) % 2048, leasedAt := s.wall })
  (s1.recount s).due [.leaseDue u]

/-- A pattern failure: +4,096 (R413). -/
def State.patternFailed (s : State) (u : Nat) : State :=
  let x := s.unit u
  s.setUnit u { x with score := min 65535 (x.score + 4096) }

/-- PATTERN_COMPLETE (R409 to R411). passBin: a core's bin at which its patterns pass, above 2 when they fail at bin 2; for other units 0 when they pass,
and for an NSL port the lane plus 1 that failed: its spare replaces the first, and the other lanes go on being proved; a second retires the port.
Of a channel that passes the window is written back and its pin released, and it is patrolled. -/
def execPatternComplete (u passBin : Nat) (s : State) : Out :=
  let x := s.unit u
  if x.state ≠ .testing then .next s
  else if scoreRetire ≤ x.score then .next (s.retireUnit u whyScore)
  else
    let failed : State := s.patternFailed u
    match unitClass u with
    | 0 =>
      if 2 < passBin then .next (failed.retireUnit u whyPattern)
      else if x.bin < passBin then
        let s1 := s.setUnit u { x with bin := passBin }
        .next ((s1.addRecord u whyBin passBin 0).leaseEnds u id)
      else .next (s.leaseEnds u id)
    | 2 =>
      if passBin = 0 then .next (s.leaseEnds u id)
      else if x.failed ≠ 0 then .next (failed.retireUnit u whyPattern)
      else
        let s1 := failed.addRecord u whyLane 0 (passBin - 1)
        let s2 := s1.setUnit u { s1.unit u with failed := passBin }
        .next (if scoreRetire ≤ (s2.unit u).score then s2.retireUnit u whyScore else s2)
    | 3 => if passBin = 0 then .next (s.setUnit u { x with window := none }) else .next (failed.retireUnit u whyPattern)
    | _ => if passBin = 0 then .next (s.leaseEnds u id) else .next (failed.retireUnit u whyPattern)

/-- The rows of a channel that its lease has found to need repair: with an uncorrectable line, or two corrected events or more, those that the patrol
has met among them (R412). -/
def State.rowsToRepair (s : State) (u : Nat) (met : List Nat) : List Nat :=
  let bad := s.badLines.map (fun ln => rowId (ln / 4))
  let seen := met.map rowId
  (unionNat (unionNat (s.rowEvents.map (fun e => e.1)) bad) seen).filter (fun r =>
    channelOf r == unitNum u && (bad.contains r || decide (2 ≤ s.rowEvents.getD r 0 + seen.count r)))

/-- PATROL_COMPLETE (R411, R412), after the patterns: rows gives the location of each corrected event that the patrol has met; each adds 1 to the
channel's score (R413). The rows that need repair put the channel under rebuild. -/
def execPatrolComplete (u : Nat) (rows : List Nat) (s0 : State) : Out :=
  let x := s0.unit u
  if x.state ≠ .testing || unitClass u ≠ 3 || x.window.isSome then .next s0
  else
    let met := rows.filter (fun o => channelOf o == unitNum u)
    let s := if met.isEmpty then s0 else s0.addScore u met.length
    let mine := s.rowsToRepair u met
    if mine.isEmpty then .next (s.leaseEnds u id)
    else
      let s1 := s.setUnit u { s.unit u with state := .rebuild }
      .next ({ s1 with rebuilding := unionNat s1.rebuilding mine }.due (mine.map (fun r => .rowRepair u r)))

/-- ROW_REPAIR (R412): once its uncorrectable lines on protected Pages are rebuilt from parity, the row is written back, other uncorrectable lines
poisoned as they were found, and its parked requests are replayed once; with the last row the channel is In service. -/
def execRowRepair (u row : Nat) (s : State) : Out :=
  if !s.rebuilding.contains row then .next s
  else if s.badLines.any (fun ln => rowId (ln / 4) == row) then .next (s.due [.rowRepair u row])
  else
    let s1 := ({ s with rebuilding := s.rebuilding.filter (· != row) } : State).replay (fun ln => rowId (ln / 4) == row)
    .next (if (s.unit u).state == .rebuild && !(s1.rebuilding.any (fun r => channelOf r == unitNum u)) then s1.leaseEnds u id else s1)

/-! ## Scores (R413) -/

/-- 24 h and 1 h. -/
def dayNs : Nat := 86400000000000
def hourNs : Nat := 3600000000000

/-- SCORE_HALVING (R413). -/
def execScoreHalving (s : State) : Out :=
  if s.wall < s.hourly.1 + dayNs then .next (s.due [.scoreHalving])
  else
    let s1 : State := { s with units := s.units.map (fun u => (u.1, { u.2 with score := u.2.score / 2 })), hourly := (s.hourly.1 + dayNs, s.hourly.2) }
    .next (s1.due [.scoreHalving])

/-- SCORE_PERSIST (R413). -/
def execScorePersist (s : State) : Out :=
  if s.wall < s.hourly.2 + hourNs then .next (s.due [.scorePersist])
  else
    let s1 : State := { s with nvUnits := s.units, hourly := (s.hourly.1, s.hourly.2 + hourNs) }
    .next (s1.due [.scorePersist])

/-! ## The watchdog (R419) -/

/-- WATCHDOG_EXPIRY (R419): a base-die controller's reset ends its SRCH, UPD and PUBL commands that had left with UCE; a die controller goes
on from the ready pool. -/
def execWatchdogExpiry (_die : Nat) (stack : Option Nat) (s : State) : Out :=
  match stack with
  | none => .next s
  | some k =>
    let hit (o : Op) : Bool := (opIndex o).isSome && o.inst == k && (o.state == .translating || o.state == .left)
    .next ((s.ops.filter (fun e => hit e.2)).foldl (fun s e =>
      let s1 : State := { s with offers := s.offers.filter (fun f => match f.what with | .engine id _ => id != e.1 | _ => true)
                                 publs := s.publs.filter (fun p => p.2.2 != e.1)
                                 searches := s.searches.map (fun x => if x.2.op = e.1 then (x.1, { x.2 with bad := true, msgs := [] }) else x) }
      let o := { e.2 with units := 0 }
      if o.state = .translating then s1.cutOp e.1 o stUCE
      else match s.search? e.1 with
        | some x => s1.endSearch e.1 o stUCE x.snap x.hops []
        | none => s1.finishOp e.1 o stUCE) s)

/-! ## Reading (R414, R416) -/

/-- READREC (R269): records by number; one never written reads as zeros. -/
def execReadrec (s : State) : Out :=
  withCommand 0x50 (fun die w s =>
    let n := w.op 0x14 1
    if n = 0 || 8 < n then s.answer die cmdINVALID []
    else s.answer die cmdOK ((upFrom (w.op 0x10 4) n).foldl (fun a k => a ++ s.record k) [])) s

/-- READUNIT (R269). -/
def execReadunit (s : State) : Out :=
  withCommand 0x51 (fun die w s =>
    let u := w.op 0x10 2
    if unitOk u then s.answer die cmdOK (toBytes 4 (s.unit u).word) else s.answer die cmdINVALID []) s

end Sys2Proof.Machine
end

