-- ==== Sys2Proof/Machine/Power.lean ====
section
/-! DEFINITION. Power and heat (R34 to R36, R419), power caps, partitions (R271, R272), collective groups (R399, R400), the time
discipline (R32, R301). -/

namespace Sys2Proof.Machine

/-! ## The main domain (R34) -/

/-- Events that the standby domain serves, or that come from outside. -/
def standbyEvent (i : Instr) : Bool :=
  match i with
  | .mgmtReadrec => true
  | .readscore => true
  | .readmon => true
  | .resetpart => true
  | .dump => true
  | .readdump => true
  | .mgmtSetcap => true
  | .wrconf => true
  | .mgmtUnknown => true
  | .mctpControl => true
  | .pldmMessage => true
  | .inputVoltageChange _ => true
  | .thermalTrip _ => true
  | .powerFaultShutdown => true
  | .mainRestart => true
  | _ => false

/-- Links at a power-on reset: from Down to Training at once; one that is Retired stays so (R392, R409). -/
def State.linksReset (s : State) : Tab Link :=
  (upFrom 0 20).foldl (fun t l => t.set l (if (s.link l).state = .retired then { Link.reset with state := .retired, since := s.wall }
    else { Link.reset with since := s.wall })) []

/-- Scores and states of units as the store's last copy has them; a lease that was in force in it has ended (R409, R413, log 94). -/
def restoredUnits (us : Tab HUnit) : Tab HUnit := us.map (fun u => if u.2.state.leased then (u.1, { u.2 with state := .inService, window := none }) else u)

/-- Bytes of host memory, which is outside the part (R1, R31): no reset of the part changes them. -/
def hostCells (m : Memory) : Memory := m.filter (fun e => decide (2 ^ 49 ≤ e.1))

/-- A power-on reset of what the main domain holds, its clock and wtime among it: the nonvolatile store, the standby domain, host memory, wall
time and the model's own counters stay (R1, R34, R71). -/
def State.mainReset (s : State) (on : Bool) : State :=
  { State.reset with
    mem := hostCells s.mem, parts := s.parts, colls := s.colls, lperiod := s.lperiod, units := restoredUnits s.nvUnits, nvUnits := s.nvUnits, records := s.records,
    overflow := s.overflow, dump := s.dump, links := s.linksReset, wall := s.wall, hourly := (s.wall, s.wall),
    power := { s.power with hostCap := 2400, mgmtCap := 2400, cap := 2400, clamp := false, main := on }
    port := s.port, response := s.response, assembling := s.assembling, packetsOut := s.packetsOut, agenda := s.agenda.filter standbyEvent ++ (if on then bootEvents else []), sched := s.sched, fresh := s.fresh, steps := s.steps,
    stop := s.stop, losses := s.losses, glitch := s.glitch, evicts := s.evicts, refetch := s.refetch, eccs := s.eccs, fwWrites := s.fwWrites, packetsIn := s.packetsIn, nextUid := s.nextUid, nextId := s.nextId }

/-- The main domain shuts down, with a record for the module (R34, R419). -/
def State.shutDown (s : State) (reason : Nat) : State := (s.addRecord unitModule reason 0 0).mainReset false

/-- Bands of the input voltage, in mV: 0 both domains off, 1 main domain off, 2 held clocks, 3 in range (R34). -/
def inputBand (mv : Nat) : Nat :=
  if mv < 36000 then 0
  else if mv < 38000 || 66000 < mv then 1
  else if mv < 40000 || 60000 < mv then 2
  else 3

/-- Below or above the middle: a new side is a new condition. -/
def inputSide (mv : Nat) : Bool := decide (48000 < mv)

/-- INPUT_VOLTAGE_CHANGE (R34): the input enters a band: clocks held, the main domain off after 1 ms, a restart after 1 s. In the band of a
shutdown the clocks are not held during the 1 ms before it (log 89). -/
def execInputVoltageChange (mv : Nat) (s : State) : Out :=
  let p := s.power
  let b := inputBand mv
  let shut (x : Nat) : Bool := decide (x ≤ 1)
  let same : Bool := (if shut b && shut (inputBand p.vin) then true else b == inputBand p.vin) && inputSide mv == inputSide p.vin || (b == 3 && inputBand p.vin == 3)
  let p1 := { p with vin := mv, vinAt := if same then p.vinAt else s.wall, vhold := b == 2,
                     standby := decide (36000 ≤ mv) && decide (mv ≤ 72000) }
  let s1 : State := { s with power := p1 }
  if b = 0 then .next (if p.main then s1.mainReset false else s1)
  else if b = 1 then .next (if p.main then s1.due [.powerFaultShutdown] else s1)
  else .next (if b = 3 && !p.main then s1.due [.mainRestart] else s1)

/-- POWER_FAULT_SHUTDOWN (R34): out of range for more than 1 ms. -/
def execPowerFaultShutdown (s : State) : Out :=
  if !s.power.main || 1 < inputBand s.power.vin then .next s
  else if s.wall ≤ s.power.vinAt + 1000000 then .next (s.due [.powerFaultShutdown])
  else .next (s.shutDown whyPower)

/-- MAIN_RESTART (R34): in range for 1 s, the main domain restarts by power-on reset. The second may lie before the shutdown (log 88). -/
def execMainRestart (s : State) : Out :=
  if s.power.main || inputBand s.power.vin ≠ 3 then .next s
  else if s.wall < s.power.vinAt + 1000000000 then .next (s.due [.mainRestart])
  else .next (s.mainReset true)

/-- THERMAL_TRIP (R419): at 105 °C clocks are held, at 115 °C the main domain shuts down; below, the hold ends. -/
def execThermalTrip (tenths : Nat) (s : State) : Out :=
  let s1 : State := { s with power := { s.power with thold := decide (1050 ≤ tenths) } }
  if 1150 ≤ tenths && s.power.main then .next ((s1.shutDown whyThermal).due [.mainRestart])
  else .next s1

/-- POWER_CLAMP (R419): input power above the cap for 1 ms steps the clocks down. -/
def execPowerClamp (s : State) : Out := .next { s with power := { s.power with clamp := true } }

/-! ## Caps (R36) -/

/-- The caps that may be set. -/
def capOk (watts : Nat) : Bool := watts == 2400 || watts == 1600 || watts == 1000

/-- SETCAP (R36, R269). -/
def execSetcap (s : State) : Out :=
  withCommand 0x43 (fun die w s =>
    let x := w.op 0x10 2
    if capOk x then
      let s1 : State := { s with power := { s.power with hostCap := x } }
      (s1.due [.capTakeEffect]).answer die cmdOK []
    else s.answer die cmdINVALID []) s

/-- CAP_TAKE_EFFECT (R36): the lower of the two values set governs. -/
def execCapTakeEffect (s : State) : Out :=
  .next { s with power := { s.power with cap := min s.power.hostCap s.power.mgmtCap, clamp := false } }

/-! ## Partitions (R38, R271, R272) -/

/-- A partition descriptor (R271), or none where a res field is nonzero. -/
def partOfBytes (bs : List Byte) : Option Partition :=
  let x := ofBytes bs
  if field x 127 12 != 0 || field x 7 5 != 0 then none
  else some { kind := field x 1 0, parent := field x 4 2, share := field x 11 8, dmask := field x 131 128, nslmask := field x 143 132,
              stmask := field x 159 144, clmask := field x 255 160 }

/-- The units of a set of dies. -/
def diesUnits (dmask width : Nat) : Nat := (upFrom 0 4).foldl (fun m d => if bitAt dmask d then m + (2 ^ width - 1) * 2 ^ (width * d) else m) 0

/-- Die sets of one sealed partition (R38): not empty, and not one of the diagonals. -/
def dieSetOk (dmask : Nat) : Bool := dmask != 0 && dmask != 9 && dmask != 6

def within (a b : Nat) : Bool := a &&& b == a

/-- One descriptor of a configuration (R272). -/
def partOk (ps : List Partition) (p : Partition) : Bool :=
  match p.kind with
  | 0 => true
  | 1 => dieSetOk p.dmask && p.clmask == diesUnits p.dmask 24 && p.stmask == diesUnits p.dmask 4 && p.nslmask == diesUnits p.dmask 3
  | 2 =>
    let q := ps.getD p.parent Partition.unused
    decide (p.share ≤ 12) && q.kind == 1 && within p.dmask q.dmask && within p.clmask q.clmask && within p.stmask q.stmask
      && within p.nslmask q.nslmask
  | _ => false

/-- Two descriptors of a configuration (R272). -/
def partsApart (a b : Partition) : Bool :=
  if a.kind = 1 ∧ b.kind = 1 then a.dmask &&& b.dmask == 0
  else if a.kind = 2 ∧ b.kind = 2 ∧ a.parent = b.parent then a.clmask &&& b.clmask == 0 && a.stmask &&& b.stmask == 0
  else true

/-- Every pair of descriptors. -/
def partsPairs : List Partition → Bool
  | [] => true
  | a :: r => r.all (partsApart a) && partsPairs r

/-- Shares on a die under one parent sum to at most 12 (R272). -/
def sharesOk (ps : List Partition) : Bool :=
  (upFrom 0 8).all (fun parent => (upFrom 0 4).all (fun d =>
    decide ((ps.filter (fun p => p.kind == 2 && p.parent == parent && bitAt p.dmask d)).foldl (fun n p => n + p.share) 0 ≤ 12)))

/-- The image of the eight descriptors is judged (R272): a configuration, or the status that refuses it. -/
def State.judgeParts (s : State) (image : List Byte) : List Partition ⊕ Nat :=
  let ds := (upFrom 0 8).map (fun i => partOfBytes ((image.drop (32 * i)).take 32))
  let ps := ds.filterMap id
  if ds.any (fun d => d.isNone) || !ps.all (partOk ps) || !partsPairs ps || !sharesOk ps then .inr cmdINVALID
  else if s.ctxs.any (fun c => c.2.state.bound && ps.getD c.2.part Partition.unused != s.part c.2.part) then .inr cmdBUSY
  else .inl ps

/-- A configuration is accepted: the record count of a fault ring starts anew with its partition's configuration (R353). A Context whose units
change, those of a sealed partition from which a soft one takes, meets a capacity change, and PREEMPT goes to Gangs on cores that it
has lost (R274, R279, R415). -/
def State.setParts (s : State) (ps : List Partition) : State :=
  let s1 : State := { s with parts := ps, xseq := s.xseq.filter (fun e => ps.getD e.1 Partition.unused == s.part e.1) }
  let lost := (s.ctxs.filter (fun c => c.2.state != .free)).foldl (fun acc c =>
    unionNat acc ((s.coreSet c.2.part).filter (fun k => !(s1.coreSet c.2.part).contains k))) []
  lost.foldl (fun s k => s.preemptCore k) (s1.recount s)

/-- WRPART (R271, R272). -/
def execWrpart (s : State) : Out :=
  withCommand 0x40 (fun die w s =>
    match s.judgeParts (w.opBytes 0x10 256) with
    | .inl ps => (s.setParts ps).answer die cmdOK []
    | .inr st => s.answer die st []) s

/-! ## Collective groups (R399, R400) -/

/-- A collective group descriptor, or none where a res field is nonzero (R399). -/
def collOfBytes (bs : List Byte) : Option CollGroup :=
  let x := ofBytes bs
  if field x 31 16 != 0 || field x 14 12 != 0 || field x 7 3 != 0 then none
  else some { msz := field x 2 0, self := field x 11 8, par := bitAt x 15, port := (upFrom 0 8).map (fun r => field x (4 * r + 35) (4 * r + 32)),
              mods := (upFrom 0 8).map (fun r => field x (8 * r + 71) (8 * r + 64)) }

/-- A collective group image is judged (R399, R400). A descriptor with msz 0 is unused. -/
def State.judgeColl (s : State) (n : Nat) (image : List Byte) : CollGroup ⊕ Nat :=
  match collOfBytes image with
  | none => .inr cmdINVALID
  | some g =>
    let used : Bool := g.msz != 0
    let old := s.collGroup n
    if 15 < n || (used && decide (g.members ≤ g.self)) || g.port.any (fun p => decide (11 < p)) || (g.par && g.msz != 7)
        || (g.par && s.colls.any (fun e => e.1 != n && e.2.par && e.2.msz != 0)) then .inr cmdINVALID
    else if (g.par || (old.par && old.msz != 0)) && s.ctxs.any (fun c => c.2.state != .free) then .inr cmdBUSY
    else .inl g

/-- WRCGRP (R399). -/
def execWrcgrp (s : State) : Out :=
  withCommand 0x42 (fun die w s =>
    let n := w.op 0x10 1
    match s.judgeColl n (w.opBytes 0x18 16) with
    | .inl g =>
      let s1 : State := { s with colls := s.colls.set n g }
      s1.answer die cmdOK []
    | .inr st => s.answer die st []) s

/-! ## The time discipline (R32, R301) -/

/-- Nanoseconds since the epoch. -/
def timeNs (sec ns : Nat) : Nat := sec * 10 ^ 9 + ns

/-- wtime steps. -/
def State.setTime (s : State) (t : Nat) : State := { s with sec := t / 10 ^ 9 % 2 ^ 48, ns := t % 10 ^ 9 }

/-- An edge is discarded: narrow, or more than 1 µs from the expected second once stepped (R32, R301). -/
def Disc.discards (d : Disc) (t : Nat) (narrow : Bool) : Bool :=
  narrow || (d.stepped && (match d.edgeAt with
    | some e => (let r := (t + 10 ^ 9 - e % 10 ^ 9) % 10 ^ 9; decide (1000 < r ∧ r + 1000 < 10 ^ 9))
    | none => false))

/-- The slew that cancels an offset, at most 20 ppm; in parts per 10^9 (R301). -/
def slewFor (offset : Int) : Int := max (-20000) (min 20000 (-offset))

/-- The discipline after an accepted edge (R301): the discipline, and the time to which wtime steps, if it does. While it is Unlocked there is no
slew: wtime runs free. -/
def Disc.edge (d : Disc) (t : Nat) : Disc × Option Nat :=
  let want := timeNs d.sec d.ns
  let off : Int := (t : Int) - (want : Int)
  let far (n : Nat) : Bool := decide (n < off.natAbs)
  if d.valid then
    let d1 := { d with valid := false, offs := clampSigned 16 off, slew := if d.unlk then 0 else d.slew }
    if d.unlk then
      if !d.stepped then ({ d1 with stepped := true, good := 0, edgeAt := some want }, some want)
      else if far 100 then ({ d1 with good := 0, edgeAt := some want }, some want)
      else if 4 ≤ d.good + 1 then ({ d1 with good := d.good + 1, unlk := false, miss := 0, edgeAt := some t }, none)
      else ({ d1 with good := d.good + 1, edgeAt := some t }, none)
    else if far 1000 then ({ d1 with unlk := true, stepped := true, good := 0, slew := 0, edgeAt := some want }, some want)
    else ({ d1 with slew := slewFor off, miss := 0, edgeAt := some t }, none)
  else if d.unlk then ({ d with good := 0, slew := 0, edgeAt := some t }, none)
  else if d.miss < 2 then ({ d with miss := d.miss + 1, edgeAt := some t }, none)
  else ({ d with unlk := true, stepped := false, slew := 0, edgeAt := some t }, none)

/-- PPS_EDGE (R32, R301): a rising edge at the time when wtime reads sec and ns; the step in which wtime has come there acts on it. A pulse that
is discarded only counts. Where the table steps wtime, it has gone on from tdnext for as long as since the edge. -/
def execPpsEdge (sec ns : Nat) (narrow : Bool) (s : State) : Out :=
  let t := timeNs sec ns
  let now := timeNs s.sec s.ns
  if now < t then .next (s.due [.ppsEdge sec ns narrow])
  else if s.disc.discards t narrow then .next { s with disc := { s.disc with disc := min 255 (s.disc.disc + 1) } }
  else
    let r := s.disc.edge t
    let s1 : State := { s with disc := r.1 }
    let s2 := match r.2 with | some w => s1.setTime (w + (now - t)) | none => s1
    .next (s2.due [.ppsLoss])

/-- PPS_LOSS (R301): 3 s without an accepted edge unlock the discipline. -/
def execPpsLoss (s : State) : Out :=
  let d := s.disc
  if d.unlk then .next s
  else
    let late : Bool := match d.edgeAt with | some e => decide (e + 3 * 10 ^ 9 ≤ timeNs s.sec s.ns) | none => true
    if late then .next { s with disc := { d with unlk := true, stepped := false, slew := 0 } }
    else .next (if s.agenda.contains .ppsLoss then s else s.due [.ppsLoss])

end Sys2Proof.Machine
end

