-- ==== Sys2Proof/Machine/Manage.lean ====
section
/-! DEFINITION. The management port (R33, R420, R421). A message stands in the port's buffer: command code, then operands. -/

namespace Sys2Proof.Machine

/-- Completion bytes (R420). -/
def mgmtOK : Byte := 0
def mgmtBUSY : Byte := 1
def mgmtINVALID : Byte := 2

/-- The transmission unit of the management port, and its longest message (R421). -/
def mctpUnit : Nat := 64
def mctpLongest : Nat := 4096

/-- The packets of a message, with fuel for its bytes (R421). -/
def packetsOf : Nat → List Byte → List (List Byte)
  | 0, _ => []
  | n + 1, bs => if bs.isEmpty then [] else bs.take mctpUnit :: packetsOf n (bs.drop mctpUnit)

/-- The port answers and takes the next message; the response leaves in packets of the transmission unit (R421). -/
def State.reply (s : State) (bs : List Byte) : State := { s with port := [], response := bs, packetsOut := packetsOf bs.length bs }

/-- A message of a code is served while the standby domain is up; operands of a wrong length answer INVALID, and a command that needs the
main domain answers BUSY while that is off (R420, R421). -/
def withMessage (code : Nat) (lens : List Nat) (main : Bool) (f : List Byte → State → State) (s : State) : Out :=
  match s.port with
  | [] => .next s
  | c :: ops =>
    if !s.power.standby || c.toNat ≠ code then .next s
    else if !lens.contains ops.length then .next (s.reply [mgmtINVALID])
    else if main && !s.power.main then .next (s.reply [mgmtBUSY])
    else .next (f ops s)

/-- MGMT_READREC (R421). -/
def execMgmtReadrec (s : State) : Out :=
  withMessage 0x01 [5] false (fun ops s =>
    let n := ofBytes (ops.drop 4)
    if n = 0 || 16 < n then s.reply [mgmtINVALID]
    else s.reply (mgmtOK :: (upFrom (ofBytes (ops.take 4)) n).foldl (fun a k => a ++ s.record k) [])) s

/-- READSCORE (R414, R421). -/
def execReadscore (s : State) : Out :=
  withMessage 0x02 [2] false (fun ops s =>
    let u := ofBytes ops
    s.reply (if unitOk u then mgmtOK :: toBytes 4 (s.unit u).word else [mgmtINVALID])) s

/-- READMON (R418, R421): the unit frozen, returned and released. -/
def execReadmon (s : State) : Out :=
  withMessage 0x03 [2] true (fun ops s =>
    let die := ofBytes (ops.take 1)
    let unit := ofBytes (ops.drop 1)
    s.reply (if die < 4 ∧ unit < 32 then mgmtOK :: (s.capture die unit).bytes else [mgmtINVALID])) s

/-- RESETPART (R420). -/
def execResetpart (s : State) : Out :=
  withMessage 0x04 [1] true (fun ops s =>
    let p := ofBytes ops
    if p < 8 then (s.resetPartition p).reply [mgmtOK] else s.reply [mgmtINVALID]) s

/-- The size of the debug dump (R417), and of a part that READDUMP returns. -/
def dumpBytes : Nat := 262144
def dumpPart : Nat := 256

/-- DUMP (R417, R420): the state of a die controller, of the fault queues and of the Links goes into the dump area, in a layout that
no rule states. -/
def execDump (s : State) : Out :=
  withMessage 0x05 [1] true (fun ops s =>
    if ofBytes ops < 4 then
      let s1 : State := { s with dump := some s.fresh, fresh := s.fresh + dumpBytes }
      s1.reply [mgmtOK]
    else s.reply [mgmtINVALID]) s

/-- READDUMP (R420, R421): 256 bytes of the last dump. -/
def execReaddump (s : State) : Out :=
  withMessage 0x06 [4] false (fun ops s =>
    let off := ofBytes ops
    if off % dumpPart ≠ 0 || dumpBytes ≤ off then s.reply [mgmtINVALID]
    else s.reply (mgmtOK :: (match s.dump with | some base => freeBytes (base + off) dumpPart | none => List.replicate dumpPart 0))) s

/-- MGMT_SETCAP (R36, R420). -/
def execMgmtSetcap (s : State) : Out :=
  withMessage 0x07 [2] false (fun ops s =>
    let x := ofBytes ops
    if capOk x then
      let s1 : State := { s with power := { s.power with mgmtCap := x } }
      (s1.due [.capTakeEffect]).reply [mgmtOK]
    else s.reply [mgmtINVALID]) s

/-- The completion byte of a status that refuses an image (R421). -/
def refusal (st : Nat) : Byte := if st = cmdBUSY then mgmtBUSY else mgmtINVALID

/-- The images of WRCONF (R421), by kind. -/
def State.configure (s : State) (kind : Nat) (image : List Byte) : State :=
  match kind with
  | 0 =>
    if image.length ≠ 256 then s.reply [mgmtINVALID]
    else match s.judgeParts image with
      | .inl ps => (s.setParts ps).reply [mgmtOK]
      | .inr st => s.reply [refusal st]
  | 1 =>
    if image.length ≠ 2048 then s.reply [mgmtINVALID]
    else if !s.power.main then s.reply [mgmtBUSY]
    else match s.judgeMap image with
      | .inl rs =>
        let s1 : State := { s with newRegions := some rs }
        (s1.due [.mapTakeEffect]).reply [mgmtOK]
      | .inr st => s.reply [refusal st]
  | 2 =>
    if image.length ≠ 17 then s.reply [mgmtINVALID]
    else
      let n := ofBytes (image.take 1)
      match s.judgeColl n (image.drop 1) with
      | .inl g =>
        let s1 : State := { s with colls := s.colls.set n g }
        s1.reply [mgmtOK]
      | .inr st => s.reply [refusal st]
  | _ => s.reply [mgmtINVALID]

/-- WRCONF (R420, R421). -/
def execWrconf (s : State) : Out :=
  withMessage 0x08 [257, 2049, 18] false (fun ops s => s.configure (ofBytes (ops.take 1)) (ops.drop 1)) s

/-- MGMT_UNKNOWN (R420): codes 0x00 and 0x09 to 0xFF. -/
def execMgmtUnknown (s : State) : Out :=
  match s.port with
  | [] => .next s
  | c :: _ => .next (if s.power.standby && (c.toNat == 0 || decide (9 ≤ c.toNat)) then s.reply [mgmtINVALID] else s)

/-- An answer whose contents lie in the protocol's own documents (R33): free bytes, of a free number. -/
def State.replyFree (s : State) : State :=
  let n := (Config.freeByte s.fresh).toNat
  { s with fresh := s.fresh + 256 }.reply (freeBytes (s.fresh + 1) n)

/-- MCTP_CONTROL (R33). -/
def execMctpControl (s : State) : Out := .next (if s.power.standby then s.replyFree else s)

/-- The PLDM type of a message: low six bits of its second byte. -/
def pldmType (m : List Byte) : BitVec 6 := (m.getD 1 0).setWidth 6

/-- PLDM_MESSAGE (R33): Platform Monitoring and Control is served, any other type refused with the completion code of PLDM. -/
def execPldmMessage (s : State) : Out :=
  .next (if !s.power.standby then s
    else if pldmType s.port = Config.pldmPlatform then s.replyFree
    else s.reply [Config.pldmUnsupported])

end Sys2Proof.Machine
end

