-- ==== Sys2Proof/Machine/Move.lean ====
section
/-! DEFINITION. Majors 0x0A to 0x0D: MOV, MOVS, SEL, LEA and the scalar instructions (R158 to R162). -/

namespace Sys2Proof.Machine

/-- MOV (R158). -/
def execMov (w t : Bool) (d a : Nat) (s : State) : Out := intOne w t d a false true (fun _ _ x => x) s

/-- SEL (R158): the selector is the fourth operand, an m register (R124). -/
def execSel (w t : Bool) (d a b : Nat) (s : State) : Out :=
  issueWord { descTwo w t d a b with f4m := true } (fun is s =>
    .go (is.vResult w d (fun l =>
      if bitAt (is.mRd s is.x.f4) l then is.srcA s false w t a l else is.srcB s w b l))) s

/-- MOVS executes once per issue and writes nothing when active is empty (R159). -/
def movsWord (vd va : List Opnd) (mdst : Option Nat) (closes : Bool) (body : Issue → State → Eff) (none' : Eff) (s : State) : Out :=
  issueWord { vd := vd, va := va, mdst := mdst, closes := closes } (fun is s =>
    .go (if is.active.isEmpty then none' else body is s)) s

/-- MOVS s from v: the lowest-numbered active lane (R159). -/
def execMovsSV (d a : Nat) (s : State) : Out :=
  movsWord (opS d false) (opV a false) none false (fun is s => is.sResult d (is.vRd s a (is.active.headD 0))) {} s

/-- A k register as a Group of the Team reads it, at the home core (R69, R333). -/
def kRead (is : Issue) (s : State) (n : Nat) : Nat :=
  match is.team s with
  | some t => s.poolNum t.home (t.kAddr n) 4
  | none => 0

/-- MOVS s from k (R159, R69). -/
def execMovsSK (d a : Nat) (s : State) : Out :=
  movsWord (opS d false) [{ file := .k, num := a, count := 1 }] none false (fun is s => is.sResult d (kRead is s a)) {} s

/-- MOVS k from s: at commit, ending the Chunk, even when active is empty (R159, R86). -/
def execMovsKS (d a : Nat) (s : State) : Out :=
  movsWord [{ file := .k, num := d, count := 1 }] (opS a false) none true
    (fun is s => { acts := [.kwrite d (is.sRd s a)], ends := some .run }) { ends := some .run } s

/-- MOVS s from m (R159). -/
def execMovsSM (d a : Nat) (s : State) : Out :=
  movsWord (opS d false) (opM a) none false (fun is s => is.sResult d (is.mRd s a)) {} s

/-- MOVS m from s, all 32 bits (R159). -/
def execMovsMS (d a : Nat) (s : State) : Out :=
  movsWord (opM d) (opS a false) (some d) false (fun is s => { raw := [(mAddr is.rb d, toBytes 4 (is.sRd s a))] }) {} s

/-- The scale of a LEA (R160). -/
def leaScale (c : LeaScale) : Int := match c with | .x1 => 1 | .x2 => 2 | .x4 => 4 | .x8 => 8

/-- LEA (R160). -/
def execLea (c : LeaScale) (t : Bool) (d a b : Nat) (s : State) : Out :=
  issueWord { descTwo true t d a b with vb := opV b false } (fun is s =>
    .go (is.vResult true d (fun l =>
      wrapTo 64 (is.srcA s false true t a l + signedOf 32 (is.srcB s false b l) * leaScale c)))) s

/-- s(vb), or the immediate. -/
def sOrImm (is : Issue) (s : State) (b : Nat) : Nat := is.imm.getD (is.sRd s b)

/-- A scalar instruction of two sources (R161). -/
def scalarTwo (d a b : Nat) (f : Nat → Nat → Nat) (s : State) : Out :=
  issueWord (descScalar d a b) (fun is s => .go (is.sResult d (f (is.sRd s a) (sOrImm is s b)))) s

/-- SADD (R161). -/
def execSadd (d a b : Nat) (s : State) : Out := scalarTwo d a b (fun x y => (x + y) % 2 ^ 32) s

/-- SSUB (R161). -/
def execSsub (d a b : Nat) (s : State) : Out := scalarTwo d a b (fun x y => wrapTo 32 ((x : Int) - y)) s

/-- SMUL (R161). -/
def execSmul (d a b : Nat) (s : State) : Out := scalarTwo d a b (fun x y => x * y % 2 ^ 32) s

/-- SAND (R161). -/
def execSand (d a b : Nat) (s : State) : Out := scalarTwo d a b (fun x y => x &&& y) s

/-- SOR (R161). -/
def execSor (d a b : Nat) (s : State) : Out := scalarTwo d a b (fun x y => x ||| y) s

/-- SXOR (R161). -/
def execSxor (d a b : Nat) (s : State) : Out := scalarTwo d a b (fun x y => x ^^^ y) s

/-- SSHL (R161). -/
def execSshl (d a b : Nat) (s : State) : Out := scalarTwo d a b (fun x y => shlValue 32 x (y % 256)) s

/-- SSHR (R161). -/
def execSshr (d a b : Nat) (s : State) : Out := scalarTwo d a b (fun x y => shrValue 32 x (y % 256)) s

/-- SMOV (R161). -/
def execSmov (d a : Nat) (s : State) : Out :=
  issueWord { vec := false, lim := .a, resA := a, vd := opS d false, va := opS a false }
    (fun is s => .go (is.sResult d (sOrImm is s a))) s

/-- SLEA (R161). -/
def execSlea (d a b : Nat) (s : State) : Out :=
  issueWord { descScalar d a b with vd := opS d true, va := opS a true } (fun is s =>
    .go (is.sResult64 d (wrapTo 64 (is.sPair s a + signedOf 32 (sOrImm is s b))))) s

/-- SRDL: v(va) of lane s(vb) mod 32 (R161). -/
def execSrdl (d a b : Nat) (s : State) : Out :=
  issueWord { descScalar d a b with va := opV a false } (fun is s =>
    .go (is.sResult d (is.vRd s a (sOrImm is s b % 32)))) s

/-- SSET (R162). -/
def execSset (c : ICond) (d a b : Nat) (s : State) : Out :=
  scalarTwo d a b (fun x y => if icondHolds c 32 x y then 1 else 0) s

end Sys2Proof.Machine
end

