-- ==== Sys2Proof/Machine/Sync.lean ====
section
/-! DEFINITION. Major 0x3C: fences (R110, R212), RWR and ARVW (R214 to R216), the Barrier instructions (R217 to R220). -/

namespace Sys2Proof.Machine

/-- A word that ends its Chunk and stands outside the vector class. -/
def descEnds : Desc := { vec := false, closes := true }

/-- FENCE: the Chunk ends, and the wait of R110 follows its commit. -/
def fenceWord (k : FenceKind) (s : State) : Out := issueWord descEnds (fun _ _ => .go { ends := some (.fence k) }) s

/-- FENCE.cl (R110, R212). -/
def execFenceCl (s : State) : Out := fenceWord .cl s

/-- FENCE.dv (R110, R212). -/
def execFenceDv (s : State) : Out := fenceWord .dv s

/-- FENCE.sy (R110, R212). -/
def execFenceSy (s : State) : Out := fenceWord .sy s

/-- FENCE.sv (R110, R111, R212). -/
def execFenceSv (s : State) : Out := fenceWord .sv s

/-- Whether the reserved fields of an RWR descriptor are zero (R214). -/
def rwrResOk (x : Nat) : Bool := field x 31 20 == 0 && field x 15 13 == 0 && field x 7 2 == 0

/-- RWR (R214): the landing follows the commit (R215). -/
def execRwr (d a m : Nat) (s : State) : Out :=
  issueWord { descEnds with vd := opV d false, va := opV a false, vb := opS m false } (fun is s =>
    let x := is.sRd s m
    let core := is.core / 4 * 4 + x % 4
    let slot := field x 12 8
    match s.group? core slot with
    | some g =>
      if rwrResOk x && (s.core core).kernel == (s.core is.core).kernel then
        .go { ends := some .run,
              acts := [.rwr core slot g.uid d (field x 19 16) (is.lanes.map (fun l => (l, is.vRd s a l)))] }
      else .trap causePROT x
    | none => .trap causePROT x) s

/-- ARVW (R216): the threshold is read at issue (R120). -/
def execArvw (l d a : Nat) (s : State) : Out :=
  issueWord { vec := false, vd := opS d false, look := some l } (fun is s =>
    let thr := is.sRd s d
    if counterReached (is.g.arrival.getD a 0) thr then .go {} else .wait (.arrival a thr)) s

/-! ## Barriers -/

/-- The Barrier that a word names: the immediate, or s(va); PROT above 47 (R135, R217). -/
def barOf (is : Issue) (s : State) (x : Bool) (a : Nat) (k : Nat → Verdict) : Verdict :=
  let b := if x then a else is.sRd s a
  if 47 < b then .trap causePROT (0x100 + b) else k b

/-- The form of a Barrier instruction. -/
def descBar (x : Bool) (a : Nat) : Desc := { descEnds with va := if x then [] else opS a false }

/-- A Barrier instruction whose event is made at commit (R217). -/
def barWord (dsc : Desc) (x : Bool) (a : Nat) (op : Issue → State → BarOp) (s : State) : Out :=
  issueWord dsc (fun is s => barOf is s x a (fun b =>
    .go { ends := some .run, acts := [.barrier (op is s) b is.first is.lanes] })) s

/-- BARI (R217): the count is read at issue. -/
def execBari (x : Bool) (d a : Nat) (s : State) : Out :=
  barWord { descBar x a with vd := opS d false } x a (fun is s => .init (is.sRd s d)) s

/-- BARA (R217). -/
def execBara (x : Bool) (a : Nat) (s : State) : Out := barWord (descBar x a) x a (fun _ _ => .arrive) s

/-- BARD (R217). -/
def execBard (x : Bool) (a : Nat) (s : State) : Out := barWord (descBar x a) x a (fun _ _ => .drop) s

/-- BARW (R217, R341): the lanes wait from the commit. -/
def execBarw (x : Bool) (a : Nat) (s : State) : Out :=
  issueWord (descBar x a) (fun is s => barOf is s x a (fun b =>
    .go { ends := some .run, acts := [.barrier .wait b is.first is.lanes], wait := .sent b })) s

/-- BART (R217, R336). -/
def execBart (x : Bool) (d a : Nat) (s : State) : Out :=
  barWord { descBar x a with vd := opM d, mdst := some d } x a (fun _ _ => .test d) s

/-- BARS (R217, R220): lanes park until every live lane has come. -/
def execBars (x : Bool) (a : Nat) (s : State) : Out :=
  issueWord (descBar x a) (fun is s => barOf is s x a (fun b =>
    let e : Eff := { stay := true, wait := .bars b }
    let live := s.liveMask is.core is.slot
    match barsMet live (moveLanes is e is.g.lanes) with
    | some (b, pc) => .go (barsEnds is.core is.slot live b pc e)
    | none => .go e)) s

/-- BARQ (R217, R219). -/
def execBarq (x : Bool) (d a : Nat) (s : State) : Out :=
  barWord { descBar x a with vd := opS d false } x a (fun _ _ => .query d) s

end Sys2Proof.Machine
end

