-- ==== Sys2Proof/Machine/Dispatch.lean ====
section
/-! DEFINITION. exec: one arm per constructor of Instr, each a direct call of the instruction's meaning. -/

namespace Sys2Proof.Machine

/-- The meaning of an instruction or device step. -/
def exec (i : Instr) (s : State) : Host.Outcome State Fault Refusal :=
  match i with
  | .iadd w t d a b => Sys2Proof.Machine.execIadd w t d a b s
  | .iaddc w t d a b => Sys2Proof.Machine.execIaddc w t d a b s
  | .isub w t d a b => Sys2Proof.Machine.execIsub w t d a b s
  | .ineg w t d a => Sys2Proof.Machine.execIneg w t d a s
  | .iabs w t d a => Sys2Proof.Machine.execIabs w t d a s
  | .iminS w t d a b => Sys2Proof.Machine.execIminS w t d a b s
  | .iminN w t d a b => Sys2Proof.Machine.execIminN w t d a b s
  | .imaxS w t d a b => Sys2Proof.Machine.execImaxS w t d a b s
  | .imaxN w t d a b => Sys2Proof.Machine.execImaxN w t d a b s
  | .imul w t d a b => Sys2Proof.Machine.execImul w t d a b s
  | .imulhS w t d a b => Sys2Proof.Machine.execImulhS w t d a b s
  | .imulhN w t d a b => Sys2Proof.Machine.execImulhN w t d a b s
  | .imad w t d a b => Sys2Proof.Machine.execImad w t d a b s
  | .idivS w t d a b => Sys2Proof.Machine.execIdivS w t d a b s
  | .idivN w t d a b => Sys2Proof.Machine.execIdivN w t d a b s
  | .iremS w t d a b => Sys2Proof.Machine.execIremS w t d a b s
  | .iremN w t d a b => Sys2Proof.Machine.execIremN w t d a b s
  | .iand w t d a b => Sys2Proof.Machine.execIand w t d a b s
  | .ior w t d a b => Sys2Proof.Machine.execIor w t d a b s
  | .ixor w t d a b => Sys2Proof.Machine.execIxor w t d a b s
  | .inot w t d a => Sys2Proof.Machine.execInot w t d a s
  | .shl w t d a b => Sys2Proof.Machine.execShl w t d a b s
  | .shr w t d a b => Sys2Proof.Machine.execShr w t d a b s
  | .sra w t d a b => Sys2Proof.Machine.execSra w t d a b s
  | .rotl w t d a b => Sys2Proof.Machine.execRotl w t d a b s
  | .clz w t d a => Sys2Proof.Machine.execClz w t d a s
  | .popc w t d a => Sys2Proof.Machine.execPopc w t d a s
  | .brev w t d a => Sys2Proof.Machine.execBrev w t d a s
  | .bfxS w t d a b => Sys2Proof.Machine.execBfxS w t d a b s
  | .bfxN w t d a b => Sys2Proof.Machine.execBfxN w t d a b s
  | .bfi w t d a b => Sys2Proof.Machine.execBfi w t d a b s
  | .iset w c t d a b => Sys2Proof.Machine.execIset w c t d a b s
  | .mov w t d a => Sys2Proof.Machine.execMov w t d a s
  | .sel w t d a b => Sys2Proof.Machine.execSel w t d a b s
  | .movsSV d a => Sys2Proof.Machine.execMovsSV d a s
  | .movsSK d a => Sys2Proof.Machine.execMovsSK d a s
  | .movsKS d a => Sys2Proof.Machine.execMovsKS d a s
  | .movsSM d a => Sys2Proof.Machine.execMovsSM d a s
  | .movsMS d a => Sys2Proof.Machine.execMovsMS d a s
  | .lea c t d a b => Sys2Proof.Machine.execLea c t d a b s
  | .sadd d a b => Sys2Proof.Machine.execSadd d a b s
  | .ssub d a b => Sys2Proof.Machine.execSsub d a b s
  | .smul d a b => Sys2Proof.Machine.execSmul d a b s
  | .sand d a b => Sys2Proof.Machine.execSand d a b s
  | .sor d a b => Sys2Proof.Machine.execSor d a b s
  | .sxor d a b => Sys2Proof.Machine.execSxor d a b s
  | .sshl d a b => Sys2Proof.Machine.execSshl d a b s
  | .sshr d a b => Sys2Proof.Machine.execSshr d a b s
  | .smov d a => Sys2Proof.Machine.execSmov d a s
  | .slea d a b => Sys2Proof.Machine.execSlea d a b s
  | .srdl d a b => Sys2Proof.Machine.execSrdl d a b s
  | .sset c d a b => Sys2Proof.Machine.execSset c d a b s
  | .fadd t d a b => Sys2Proof.Machine.execFadd t d a b s
  | .fsub t d a b => Sys2Proof.Machine.execFsub t d a b s
  | .fmul t d a b => Sys2Proof.Machine.execFmul t d a b s
  | .ffma t d a b => Sys2Proof.Machine.execFfma t d a b s
  | .fmin t d a b => Sys2Proof.Machine.execFmin t d a b s
  | .fmax t d a b => Sys2Proof.Machine.execFmax t d a b s
  | .fclass t d a => Sys2Proof.Machine.execFclass t d a s
  | .fset c t d a b => Sys2Proof.Machine.execFset c t d a b s
  | .frcp t d a => Sys2Proof.Machine.execFrcp t d a s
  | .frsq t d a => Sys2Proof.Machine.execFrsq t d a s
  | .fsqrt t d a => Sys2Proof.Machine.execFsqrt t d a s
  | .fexp2 t d a => Sys2Proof.Machine.execFexp2 t d a s
  | .flog2 t d a => Sys2Proof.Machine.execFlog2 t d a s
  | .fsin t d a => Sys2Proof.Machine.execFsin t d a s
  | .fcos t d a => Sys2Proof.Machine.execFcos t d a s
  | .ftanh t d a => Sys2Proof.Machine.execFtanh t d a s
  | .hadd2F16 t d a b => Sys2Proof.Machine.execHadd2F16 t d a b s
  | .hmul2F16 t d a b => Sys2Proof.Machine.execHmul2F16 t d a b s
  | .hfma2F16 t d a b => Sys2Proof.Machine.execHfma2F16 t d a b s
  | .hmax2F16 t d a b => Sys2Proof.Machine.execHmax2F16 t d a b s
  | .hadd2Bf16 t d a b => Sys2Proof.Machine.execHadd2Bf16 t d a b s
  | .hmul2Bf16 t d a b => Sys2Proof.Machine.execHmul2Bf16 t d a b s
  | .hfma2Bf16 t d a b => Sys2Proof.Machine.execHfma2Bf16 t d a b s
  | .hmax2Bf16 t d a b => Sys2Proof.Machine.execHmax2Bf16 t d a b s
  | .fcvt c t d a => Sys2Proof.Machine.execFcvt c t d a s
  | .fcvtNp c d a slot => Sys2Proof.Machine.execFcvtNp c d a slot s
  | .f2i y t d a => Sys2Proof.Machine.execF2i y t d a s
  | .i2f y t d a => Sys2Proof.Machine.execI2f y t d a s
  | .npack d a slot => Sys2Proof.Machine.execNpack d a slot s
  | .nunpack d a slot => Sys2Proof.Machine.execNunpack d a slot s
  | .scenc t d a slot => Sys2Proof.Machine.execScenc t d a slot s
  | .scdec t d a slot => Sys2Proof.Machine.execScdec t d a slot s
  | .shfl c t d a b => Sys2Proof.Machine.execShfl c t d a b s
  | .putl c t d a b => Sys2Proof.Machine.execPutl c t d a b s
  | .vote c d a => Sys2Proof.Machine.execVote c d a s
  | .redl c t d a => Sys2Proof.Machine.execRedl c t d a s
  | .scanl c t d a => Sys2Proof.Machine.execScanl c t d a s
  | .lpart c => Sys2Proof.Machine.execLpart c s
  | .bra off => Sys2Proof.Machine.execBra off s
  | .brc m neg off => Sys2Proof.Machine.execBrc m neg off s
  | .call off => Sys2Proof.Machine.execCall off s
  | .brx a => Sys2Proof.Machine.execBrx a s
  | .join d => Sys2Proof.Machine.execJoin d s
  | .leave d => Sys2Proof.Machine.execLeave d s
  | .waitm d => Sys2Proof.Machine.execWaitm d s
  | .xpfx f4s f4en f4 sat rm zero m => Sys2Proof.Machine.execXpfx f4s f4en f4 sat rm zero m s
  | .limm hi v => Sys2Proof.Machine.execLimm hi v s
  | .prio p => Sys2Proof.Machine.execPrio p s
  | .shint c => Sys2Proof.Machine.execShint c s
  | .ld l x d a c z => Sys2Proof.Machine.execLd l x d a c z s
  | .lda l x d a c z => Sys2Proof.Machine.execLda l x d a c z s
  | .st l x d a c z => Sys2Proof.Machine.execSt l x d a c z s
  | .stl x d a c z => Sys2Proof.Machine.execStl x d a c z s
  | .lds l x d a z => Sys2Proof.Machine.execLds l x d a z s
  | .sts l x d a z => Sys2Proof.Machine.execSts l x d a z s
  | .ldw l x d a z => Sys2Proof.Machine.execLdw l x d a z s
  | .stw l x d a z => Sys2Proof.Machine.execStw l x d a z s
  | .ldp l x d a z => Sys2Proof.Machine.execLdp l x d a z s
  | .stp l x d a z => Sys2Proof.Machine.execStp l x d a z s
  | .atom l d a p w o => Sys2Proof.Machine.execAtom l d a p w o s
  | .red l d a p w o => Sys2Proof.Machine.execRed l d a p w o s
  | .pref l x a m => Sys2Proof.Machine.execPref l x a m s
  | .evict l x a m => Sys2Proof.Machine.execEvict l x a m s
  | .ckin l x a => Sys2Proof.Machine.execCkin l x a s
  | .rwr d a m => Sys2Proof.Machine.execRwr d a m s
  | .arvw l d a => Sys2Proof.Machine.execArvw l d a s
  | .bari x d a => Sys2Proof.Machine.execBari x d a s
  | .bara x a => Sys2Proof.Machine.execBara x a s
  | .bard x a => Sys2Proof.Machine.execBard x a s
  | .barw x a => Sys2Proof.Machine.execBarw x a s
  | .bart x d a => Sys2Proof.Machine.execBart x d a s
  | .bars x a => Sys2Proof.Machine.execBars x a s
  | .barq x d a => Sys2Proof.Machine.execBarq x d a s
  | .push x p f a => Sys2Proof.Machine.execPush x p f a s
  | .waittl d a => Sys2Proof.Machine.execWaittl d a s
  | .tlrd d a => Sys2Proof.Machine.execTlrd d a s
  | .ringp x a r => Sys2Proof.Machine.execRingp x a r s
  | .ringc x a r => Sys2Proof.Machine.execRingc x a r s
  | .ringcRel x a r => Sys2Proof.Machine.execRingcRel x a r s
  | .cont d a => Sys2Proof.Machine.execCont d a s
  | .mma l q n a slot => Sys2Proof.Machine.execMma l q n a slot s
  | .mzero l n => Sys2Proof.Machine.execMzero l n s
  | .mrd l d n => Sys2Proof.Machine.execMrd l d n s
  | .mwr l d n => Sys2Proof.Machine.execMwr l d n s
  | .trap h c => Sys2Proof.Machine.execTrap h c s
  | .sregr x d a => Sys2Proof.Machine.execSregr x d a s
  | .sregw d a => Sys2Proof.Machine.execSregw d a s
  | .waitt d => Sys2Proof.Machine.execWaitt d s
  | .capq d => Sys2Proof.Machine.execCapq d s
  | .chunkReady core slot => Sys2Proof.Machine.execChunkReady core slot s
  | .commitBatch part => Sys2Proof.Machine.execCommitBatch part s
  | .signatureBroadcast core => Sys2Proof.Machine.execSignatureBroadcast core s
  | .differenceApply part => Sys2Proof.Machine.execDifferenceApply part s
  | .loadReturn core slot => Sys2Proof.Machine.execLoadReturn core slot s
  | .mmaRetire core mismatch => Sys2Proof.Machine.execMmaRetire core mismatch s
  | .stwLanding id => Sys2Proof.Machine.execStwLanding id s
  | .rwrLanding id => Sys2Proof.Machine.execRwrLanding id s
  | .kWrite id => Sys2Proof.Machine.execKWrite id s
  | .ringAtCommit id => Sys2Proof.Machine.execRingAtCommit id s
  | .barrierEvent core bar n => Sys2Proof.Machine.execBarrierEvent core bar n s
  | .barrierRelease core bar => Sys2Proof.Machine.execBarrierRelease core bar s
  | .fenceWaitEnd core slot => Sys2Proof.Machine.execFenceWaitEnd core slot s
  | .nclAck id => Sys2Proof.Machine.execNclAck id s
  | .hostWrite system pa bytes => Sys2Proof.Machine.execHostWrite system pa bytes s
  | .hostRead req n => Sys2Proof.Machine.execHostRead req n s
  | .parityDifference src seq stripe off stamp bytes => Sys2Proof.Machine.execParityDifference src seq stripe off stamp bytes s
  | .parityAck holder seq => Sys2Proof.Machine.execParityAck holder seq s
  | .copy op => Sys2Proof.Machine.execCopy op s
  | .copyRetire op => Sys2Proof.Machine.execCopyRetire op s
  | .followOnMma op => Sys2Proof.Machine.execFollowOnMma op s
  | .gather op => Sys2Proof.Machine.execGather op s
  | .collRs op others => Sys2Proof.Machine.execCollRs op others s
  | .collAg op others => Sys2Proof.Machine.execCollAg op others s
  | .collXorrs op others => Sys2Proof.Machine.execCollXorrs op others s
  | .collXorrb op others => Sys2Proof.Machine.execCollXorrb op others s
  | .srch op => Sys2Proof.Machine.execSrch op s
  | .scoreRequest search idx => Sys2Proof.Machine.execScoreRequest search idx s
  | .expandRequest search idx => Sys2Proof.Machine.execExpandRequest search idx s
  | .scoreReply search idx => Sys2Proof.Machine.execScoreReply search idx s
  | .expandReply search idx => Sys2Proof.Machine.execExpandReply search idx s
  | .refineRequest search idx => Sys2Proof.Machine.execRefineRequest search idx s
  | .refineReply search idx => Sys2Proof.Machine.execRefineReply search idx s
  | .merge search => Sys2Proof.Machine.execMerge search s
  | .updInsert op => Sys2Proof.Machine.execUpdInsert op s
  | .updDelete op => Sys2Proof.Machine.execUpdDelete op s
  | .updLink op => Sys2Proof.Machine.execUpdLink op s
  | .reclaimInsert op => Sys2Proof.Machine.execReclaimInsert op s
  | .publ op => Sys2Proof.Machine.execPubl op s
  | .publication index => Sys2Proof.Machine.execPublication index s
  | .redn op => Sys2Proof.Machine.execRedn op s
  | .enq op => Sys2Proof.Machine.execEnq op s
  | .mcast op => Sys2Proof.Machine.execMcast op s
  | .operationComplete op => Sys2Proof.Machine.execOperationComplete op s
  | .contRoomReserve core slot => Sys2Proof.Machine.execContRoomReserve core slot s
  | .gathererTimeout die kernel entry => Sys2Proof.Machine.execGathererTimeout die kernel entry s
  | .teamFormation kernel => Sys2Proof.Machine.execTeamFormation kernel s
  | .debugResume core slot => Sys2Proof.Machine.execDebugResume core slot s
  | .activeSetLeave core slot => Sys2Proof.Machine.execActiveSetLeave core slot s
  | .yieldDemotionEnd core slot => Sys2Proof.Machine.execYieldDemotionEnd core slot s
  | .kernelDispatch part => Sys2Proof.Machine.execKernelDispatch part s
  | .coreLoad kernel core => Sys2Proof.Machine.execCoreLoad kernel core s
  | .kernelComplete kernel => Sys2Proof.Machine.execKernelComplete kernel s
  | .kernelStopped kernel => Sys2Proof.Machine.execKernelStopped kernel s
  | .quantumExpiry kernel cluster => Sys2Proof.Machine.execQuantumExpiry kernel cluster s
  | .imageSaveComplete kernel cluster => Sys2Proof.Machine.execImageSaveComplete kernel cluster s
  | .imageRestore kernel cluster target => Sys2Proof.Machine.execImageRestore kernel cluster target s
  | .restoreComplete kernel cluster => Sys2Proof.Machine.execRestoreComplete kernel cluster s
  | .migrationComplete die => Sys2Proof.Machine.execMigrationComplete die s
  | .tdnextWrite die word => Sys2Proof.Machine.execTdnextWrite die word s
  | .tdstatDiscClear die value => Sys2Proof.Machine.execTdstatDiscClear die value s
  | .mcskipClear die value => Sys2Proof.Machine.execMcskipClear die value s
  | .lperiodWrite die value => Sys2Proof.Machine.execLperiodWrite die value s
  | .xflgWrite die value => Sys2Proof.Machine.execXflgWrite die value s
  | .xfheadWrite die value => Sys2Proof.Machine.execXfheadWrite die value s
  | .captureClear die unit => Sys2Proof.Machine.execCaptureClear die unit s
  | .registerWrite die off size value => Sys2Proof.Machine.execRegisterWrite die off size value s
  | .tailWrite queue => Sys2Proof.Machine.execTailWrite queue s
  | .nodeFetch queue => Sys2Proof.Machine.execNodeFetch queue s
  | .nodeComplete queue seq => Sys2Proof.Machine.execNodeComplete queue seq s
  | .engineNodeTake queue seq => Sys2Proof.Machine.execEngineNodeTake queue seq s
  | .joinNode queue seq => Sys2Proof.Machine.execJoinNode queue seq s
  | .conditionalNode queue seq => Sys2Proof.Machine.execConditionalNode queue seq s
  | .timedNodeExpiry queue seq => Sys2Proof.Machine.execTimedNodeExpiry queue seq s
  | .timedHoldLoad queue seq => Sys2Proof.Machine.execTimedHoldLoad queue seq s
  | .waittWake core slot => Sys2Proof.Machine.execWaittWake core slot s
  | .ppsEdge sec ns narrow => Sys2Proof.Machine.execPpsEdge sec ns narrow s
  | .walkComplete ctx va acc => Sys2Proof.Machine.execWalkComplete ctx va acc s
  | .xfaultRecordWrite part => Sys2Proof.Machine.execXfaultRecordWrite part s
  | .requestResend core slot => Sys2Proof.Machine.execRequestResend core slot s
  | .lineRebuild line bytes => Sys2Proof.Machine.execLineRebuild line bytes s
  | .refresh stack channel pc bank => Sys2Proof.Machine.execRefresh stack channel pc bank s
  | .refreshBackoff stack channel pc bank => Sys2Proof.Machine.execRefreshBackoff stack channel pc bank s
  | .linkLock link => Sys2Proof.Machine.execLinkLock link s
  | .trainingTimeout link => Sys2Proof.Machine.execTrainingTimeout link s
  | .trainingRetry link => Sys2Proof.Machine.execTrainingRetry link s
  | .flitReplay link => Sys2Proof.Machine.execFlitReplay link s
  | .lockLoss link => Sys2Proof.Machine.execLockLoss link s
  | .retrainTimeout link => Sys2Proof.Machine.execRetrainTimeout link s
  | .packetArrival src dst seq payload => Sys2Proof.Machine.execPacketArrival src dst seq payload s
  | .packetAck src dst seq => Sys2Proof.Machine.execPacketAck src dst seq s
  | .resendTimeout src dst seq => Sys2Proof.Machine.execResendTimeout src dst seq s
  | .leaseDue unit => Sys2Proof.Machine.execLeaseDue unit s
  | .leaseTestingStart unit => Sys2Proof.Machine.execLeaseTestingStart unit s
  | .patternComplete unit passBin => Sys2Proof.Machine.execPatternComplete unit passBin s
  | .patrolComplete unit rows => Sys2Proof.Machine.execPatrolComplete unit rows s
  | .rowRepair unit row => Sys2Proof.Machine.execRowRepair unit row s
  | .monitorSample die unit sample => Sys2Proof.Machine.execMonitorSample die unit sample s
  | .inputVoltageChange mv => Sys2Proof.Machine.execInputVoltageChange mv s
  | .thermalTrip tenths => Sys2Proof.Machine.execThermalTrip tenths s
  | .watchdogExpiry die stack => Sys2Proof.Machine.execWatchdogExpiry die stack s
  | .wordNotInstruction r => Sys2Proof.Machine.execWordNotInstruction r s
  | .nclEnumeration base => Sys2Proof.Machine.execNclEnumeration base s
  | .fusedSoftmax => Sys2Proof.Machine.execFusedSoftmax s
  | .ret => Sys2Proof.Machine.execRet s
  | .exit => Sys2Proof.Machine.execExit s
  | .yield => Sys2Proof.Machine.execYield s
  | .nop => Sys2Proof.Machine.execNop s
  | .chk => Sys2Proof.Machine.execChk s
  | .fenceCl => Sys2Proof.Machine.execFenceCl s
  | .fenceDv => Sys2Proof.Machine.execFenceDv s
  | .fenceSy => Sys2Proof.Machine.execFenceSy s
  | .fenceSv => Sys2Proof.Machine.execFenceSv s
  | .tret => Sys2Proof.Machine.execTret s
  | .bkpt => Sys2Proof.Machine.execBkpt s
  | .synci => Sys2Proof.Machine.execSynci s
  | .create => Sys2Proof.Machine.execCreate s
  | .read => Sys2Proof.Machine.execRead s
  | .suspend => Sys2Proof.Machine.execSuspend s
  | .resume => Sys2Proof.Machine.execResume s
  | .kill => Sys2Proof.Machine.execKill s
  | .destroy => Sys2Proof.Machine.execDestroy s
  | .qopen => Sys2Proof.Machine.execQopen s
  | .qclose => Sys2Proof.Machine.execQclose s
  | .qresume => Sys2Proof.Machine.execQresume s
  | .qread => Sys2Proof.Machine.execQread s
  | .icreate => Sys2Proof.Machine.execIcreate s
  | .idestroy => Sys2Proof.Machine.execIdestroy s
  | .iread => Sys2Proof.Machine.execIread s
  | .inval => Sys2Proof.Machine.execInval s
  | .migrate => Sys2Proof.Machine.execMigrate s
  | .xresolve => Sys2Proof.Machine.execXresolve s
  | .xfail => Sys2Proof.Machine.execXfail s
  | .wrpart => Sys2Proof.Machine.execWrpart s
  | .wrregion => Sys2Proof.Machine.execWrregion s
  | .mapTakeEffect => Sys2Proof.Machine.execMapTakeEffect s
  | .wrcgrp => Sys2Proof.Machine.execWrcgrp s
  | .setcap => Sys2Proof.Machine.execSetcap s
  | .capTakeEffect => Sys2Proof.Machine.execCapTakeEffect s
  | .readrec => Sys2Proof.Machine.execReadrec s
  | .readunit => Sys2Proof.Machine.execReadunit s
  | .cmdUnknown => Sys2Proof.Machine.execCmdUnknown s
  | .ppsLoss => Sys2Proof.Machine.execPpsLoss s
  | .scoreHalving => Sys2Proof.Machine.execScoreHalving s
  | .scorePersist => Sys2Proof.Machine.execScorePersist s
  | .powerFaultShutdown => Sys2Proof.Machine.execPowerFaultShutdown s
  | .mainRestart => Sys2Proof.Machine.execMainRestart s
  | .powerClamp => Sys2Proof.Machine.execPowerClamp s
  | .mgmtReadrec => Sys2Proof.Machine.execMgmtReadrec s
  | .readscore => Sys2Proof.Machine.execReadscore s
  | .readmon => Sys2Proof.Machine.execReadmon s
  | .resetpart => Sys2Proof.Machine.execResetpart s
  | .dump => Sys2Proof.Machine.execDump s
  | .readdump => Sys2Proof.Machine.execReaddump s
  | .mgmtSetcap => Sys2Proof.Machine.execMgmtSetcap s
  | .wrconf => Sys2Proof.Machine.execWrconf s
  | .mgmtUnknown => Sys2Proof.Machine.execMgmtUnknown s
  | .mctpControl => Sys2Proof.Machine.execMctpControl s
  | .pldmMessage => Sys2Proof.Machine.execPldmMessage s
  | .codeFetchFault => Sys2Proof.Machine.execCodeFetchFault s
  | .soloTimeout => Sys2Proof.Machine.execSoloTimeout s
  | .activeSetPinExpiry => Sys2Proof.Machine.execActiveSetPinExpiry s
  | .leasePreemptTimer => Sys2Proof.Machine.execLeasePreemptTimer s

end Sys2Proof.Machine
end

