-- ==== Sys2Proof/Machine/Sequencer.lean ====
section
/-! DEFINITION. What one step of the device does: time passes, then one agent acts (log 3, 4): an event of the agenda happens, or a
Group issues the next word of an entry. Also the placing of a word where the next step fetches (log 2). -/

namespace Sys2Proof.Machine

/-- The event of a message on the management port (R33, R420). -/
def messageEvent (kind : MsgKind) (code : Nat) : Instr :=
  match kind with
  | .control => .mctpControl
  | .pldm => .pldmMessage
  | .nerom =>
    match code with
    | 1 => .mgmtReadrec | 2 => .readscore | 3 => .readmon | 4 => .resetpart | 5 => .dump | 6 => .readdump | 7 => .mgmtSetcap | 8 => .wrconf
    | _ => .mgmtUnknown

/-- The port takes a packet (R421): what it has of a message grows, from a packet that begins one; a packet longer than the transmission unit and a
message that grows too long are dropped. A message that ends stands at the port. -/
def State.receive (s : State) (p : MsgPacket) : State :=
  let all := (if p.first then [] else s.assembling) ++ p.bytes
  if mctpUnit < p.bytes.length then s
  else if mctpLongest < all.length then { s with assembling := [] }
  else if p.last then { s with assembling := [], port := all }.due [messageEvent p.kind (ofBytes (all.take 1))]
  else { s with assembling := all }

/-- The next packet that has come to the port is taken while no message stands there; with the standby domain off it is lost (R33). -/
def State.takePacket (s : State) : State :=
  match s.packetsIn with
  | p :: r =>
    if s.steps < p.step then s
    else if !s.power.standby then { s with packetsIn := r }
    else if s.port.isEmpty then { s with packetsIn := r }.receive p
    else s
  | [] => s

/-- A write of a die controller's firmware to host memory: within one of the die's windows it leaves over NCL, else it is dropped and counted
(R268, R419). -/
def State.firmwareWrite (s : State) (f : FwWrite) : State :=
  let w := s.window f.die
  let inside (i : Nat) : Bool := decide (w.fwwin.getD (2 * i) 0 ≤ f.pa ∧ f.pa + f.bytes.length ≤ w.fwwin.getD (2 * i + 1) 0 ∧ 0 < f.bytes.length)
  if (upFrom 0 4).any inside && isHost f.pa then s.deviceUnit (s.partOfDie f.die) [.store true false f.pa f.bytes]
  else { s with fwdrop := s.fwdrop.set f.die (s.fwdrop.getD f.die 0 + 1) }

/-- What caches and memories lose in a step: copies of lines (R105, R107; log 27), code words (R264; log 7), what ECC reports (R22; log 93);
the modules that system software declares lost (R404), what firmware writes (R419), and what comes to the management port (R421). -/
def State.lose (s : State) : State :=
  let s0 := (s.evicts.filter (fun e => e.1 == s.steps)).foldl (fun s e => s.evictCopy e.2.1 e.2.2) s
  let s1 := (s.eccs.filter (fun e => e.step == s.steps)).foldl (fun s e => s.report e) s0
  let s2 := (s.losses.filter (fun e => e.1 == s.steps)).foldl (fun s e => s.loseModule e.2) s1
  let s3 := ((s.fwWrites.filter (fun e => e.step == s.steps)).foldl (fun s e => s.firmwareWrite e) s2).takePacket
  { s3 with cores := s3.cores.map (fun c => if s.refetch.contains (s.steps, c.1) then (c.1, { c.2 with icache := [] }) else c) }

/-- Ceilings of the core clk and of the base clk in MHz, by the cap in watts (R35). -/
def coreCeiling (cap : Nat) : Nat := if cap = 1000 then 900 else if cap = 1600 then 1350 else 1750
def baseCeiling (cap : Nat) : Nat := if cap = 1000 then 1100 else 1400

/-- The cap whose ceilings hold: 1,000 W while the input voltage or the heat holds the clocks there (R34, R419). -/
def Power.governs (p : Power) : Nat := if p.vhold || p.thold then 1000 else p.cap

/-- The core clk and the base clk of the n-th step, in MHz: at their ceilings, or where the power clamp has stepped them down (R24, R35). -/
def Power.coreMHz (p : Power) (n : Nat) : Nat :=
  let top := coreCeiling p.governs
  if p.clamp then max 1 (min top (Config.clampMHz n)) else top
def Power.baseMHz (p : Power) (n : Nat) : Nat :=
  let top := baseCeiling p.governs
  if p.clamp then max 1 (min top (Config.clampMHz n)) else top

/-- Nanoseconds of wall time of a step: at least to the next core clk; any number while the main domain is off (log 4). -/
def State.stepNs (s : State) : Nat :=
  let f := s.power.coreMHz s.steps
  (if s.power.main then (999 - s.clkRem + f) / f else 1) + Config.extraNs s.steps

/-- Parts per 10^9 that wtime runs off wall time: the local oscillator's error, of at most 10 ppm, and the slew (R301). -/
def State.offRate (s : State) : Int := max (-10000) (min 10000 (Config.oscillator s.steps)) + s.disc.slew

/-- Time passes (R8, R24, R71): clk advances at the core rate, wtime at wall time's with the discipline's slew. -/
def State.tick (s0 : State) : State :=
  let s := s0.lose
  let dn := s.stepNs
  let c := s.clkRem + dn * s.power.coreMHz s.steps
  let w := s.timeRem + dn * (10 ^ 9 + s.offRate).toNat
  let t := s.ns + w / 10 ^ 9
  let s1 : State := if s.power.main then
      { s with clk := s.clk + c / 1000, clkRem := c % 1000, timeRem := w % 10 ^ 9, sec := s.sec + t / 10 ^ 9, ns := t % 10 ^ 9 }
    else s
  { s1 with wall := s.wall + dn, steps := s.steps + 1, cur := none }

/-- The issue of a Group: the instruction that its entry's next word is, and the state with that entry chosen (R323, R324). -/
def State.pickIssue (s : State) (c slot : Nat) : State × Option Instr :=
  match s.group? c slot with
  | some g =>
    match s.nextEntry c slot g with
    | some e =>
      let pc := e.pc + 4 * g.seq.n
      let s1 := { s.tookTurn c slot with cur := some (c, slot, pc, e.lanes) }
      match s1.fetch c g.failed pc with
      | .word w =>
        let s2 := s1.keepWord c slot pc w
        if g.seq.n = 0 && ((s2.fusedAt? c g.failed pc).isSome || (s2.fusedNeeds? c g.failed pc).isSome) then (s2, some .fusedSoftmax)
        else match decode w with
          | .ok i => (s2, some i)
          | .bad r => (s2, some (.wordNotInstruction r))
      | _ => (s1, some .codeFetchFault)
    | none => (s, none)
  | none => (s, none)

/-- A Group issues, where one can. -/
def State.pickAny (s : State) : State × Option Instr :=
  match s.issuer with
  | some (c, slot) => s.pickIssue c slot
  | none => (s, none)

/-- The k-th event due happens. -/
def State.pickEvent (s : State) (k : Nat) : State × Option Instr :=
  match s.agenda[k]? with
  | some e => ({ s with agenda := s.agenda.eraseIdx k }, some e)
  | none => (s, none)

/-- The agent of this step: sched's head where it names one, else events and issue in turn (log 3). -/
def State.pick (s : State) : State × Option Instr :=
  let s1 := s.tick
  match s.sched with
  | 0 :: r => { s1 with sched := r }.pickAny
  | (k + 1) :: r => { s1 with sched := r }.pickEvent k
  | [] =>
    if s.steps % 2 = 0 then
      match s.agenda with
      | [] => s1.pickAny
      | _ :: _ => s1.pickEvent 0
    else
      match s1.issuer with
      | some (c, slot) => s1.pickIssue c slot
      | none => s1.pickEvent 0

/-! ## Placing a word (log 2) -/

/-- The code Page of the placed program: 256 KiB at virtual 0, device address 2^30, every permission. -/
def placedTlb : Tlb :=
  { unit := 0, ctx := 0, va := 0, lg := 18, frame := 2 ^ 30, p := false, priv := false, x := true, w := true, rd := true }

/-- A launch record of one Group and one Team. -/
def placedLaunch : Launch := { Launch.empty with codelen := 64, poolpart := 1 + 1 * 2 ^ 7 + 1 * 2 ^ 14 + 1 * 2 ^ 18 }

/-- Kernel 0 of Context 0, Running, with one Gang. -/
def placedKernel : Kernel :=
  { ctx := 0, queue := 0, seq := 0, lrva := 0, launch := placedLaunch, state := .running, nextTeam := 1,
    gangs := [(0, { cluster := 0, relaunches := 0, level := 0,
                    images := [{ core := 0, slot := 0, state := .resident, groups := [] }], again := [], started := 0 })],
    held := false, status := 0, stamp := 0, created := [], pick := 0, prio := 0, pred := none, level := 0, loadHold := none, clusters := [] }

/-- Its Team, with its block at the scratchpad's start. -/
def placedTeam : Team :=
  { kernel := 0, gang := 0, x := 0, y := 0, z := 0, cores := [0], home := 0, block := 16384, size := 256, tscr := 0, barBase := 0,
    nbar := 0, rings := [], recs := none, leased := false, away := false }

/-- Lanes at word 0, priority 0. -/
def placedLanes : List Lane := List.replicate 32 { pc := 0, prio := 0, wait := .none }

/-- A Group with 32 live lanes. -/
def placedGroup : Group :=
  { uid := 0, team := 0, index := 0, role := .vector, state := .running, lanes := placedLanes,
    chunk := freshChunk [] placedLanes none, seq := Seq.empty, pend := [], hold := .none, chosen := none, failed := [], ydem := 0,
    ykey := 0, arrival := [], mark := [], inTrap := none, mirrored := false, mismatch := false, capPending := none, preempt := false,
    release := [], trapWaits := [] }

/-- The Group's pool: m0 all ones, lpart 5, chunkstat with limlog 12 (R72, R78). -/
def placedPool : Memory :=
  Memory.put (Memory.put (Memory.put [] 0x80 (toBytes 4 0xFFFFFFFF)) 0xB0 (toBytes 4 5)) 0xB4 (toBytes 4 (mkStat 12 0 false false))

/-- A program of one instruction stands loaded on core 0, about to issue its first word: the low bits of w, as the table numbers
them, at the code base. -/
def State.place (s : State) (w : Nat) : State :=
  let core : Core := { Core.reset with pool := placedPool, poolpart := placedLaunch.poolpart, kernel := some 0, groups := [(0, placedGroup)] }
  let ctx : Ctx := { Ctx.reset with state := .live }
  { s with
    mem := physPut s.regions s.mem (2 ^ 30) (toBytes 8 w), diffs := [], ctxs := s.ctxs.set 0 ctx, tlb := placedTlb :: s.tlb,
    kernels := s.kernels.set 0 placedKernel, teams := s.teams.set 0 placedTeam, cores := [(0, core)], agenda := [], sched := [0],
    stop := none }

end Sys2Proof.Machine
end

