-- ==== Sys2Proof/Machine/Step.lean ====
section
/-! DEFINITION. step: one agent acts; withFetchWord: an instruction stands where the next step fetches. -/

namespace Sys2Proof.Machine

/-- One step of the device (log 3). An access to the empty range of R345 by the device itself has no effect that the manual gives. -/
def step (s : State) : Host.Outcome State Fault Refusal :=
  match s.stop with
  | some pa => .fault (.noSuchAddress pa)
  | none =>
    match s.pick with
    | (t, some i) => exec i t
    | (t, none) => .next t

/-- s with the instruction of w placed at the code base of a loaded Kernel whose Group issues next (log 2). -/
def State.withFetchWord (s : State) (nbits w : Nat) : State := s.place (w % 2 ^ nbits)

end Sys2Proof.Machine
end

