-- ==== Sys2Proof/Safety.lean ====
section
/-! DEFINITION. What counts as a safe run, and the configuration that every state of a run holds: statements are made in these terms. -/

namespace Sys2Proof.Machine

/-- A state from which the device goes on: its step answers a next state. -/
def State.Safe (s : State) : Prop := ∃ t, step s = .next t

/-- A run of n steps that no fault and no refusal stops. -/
def State.SafeRun (s : State) (n : Nat) : Prop := ∃ t, Host.Core.run Sys2Proof.core n s = .next t

/-- The caps of R36: 2,400 W, 1,600 W or 1,000 W, as set by the host, as set by management, and in force. -/
def State.CapsLegal (s : State) : Prop :=
  capOk s.power.hostCap = true ∧ capOk s.power.mgmtCap = true ∧ capOk s.power.cap = true

/-- The address map of R358: eight descriptors that pass its tests, in force and waiting. -/
def State.MapLegal (s : State) : Prop :=
  (s.regions.length = 8 ∧ mapOk s.regions = true) ∧
    ∀ rs, s.newRegions = some rs → rs.length = 8 ∧ mapOk rs = true

/-- The partition configuration of R272: eight descriptors that pass its tests. -/
def State.PartsLegal (s : State) : Prop :=
  s.parts.length = 8 ∧ s.parts.all (partOk s.parts) = true ∧ partsPairs s.parts = true ∧ sharesOk s.parts = true

/-- The nonvolatile store of R417: at most 8,192 records; the lease period of R408: 10 to 10,080 minutes. -/
def State.StoreLegal (s : State) : Prop :=
  s.records.length ≤ recordSlots ∧ 10 ≤ s.lperiod ∧ s.lperiod ≤ 10080

/-- Memory in its one canonical form. -/
def State.MemCanonical (s : State) : Prop := Memory.wf s.mem = true

/-- Every core's pool in its one canonical form. -/
def State.PoolsCanonical (s : State) : Prop := ∀ e ∈ s.cores, Memory.wf e.2.pool = true

/-- What every step keeps. -/
structure State.Inv (s : State) : Prop where
  mem : s.MemCanonical
  caps : s.CapsLegal
  map : s.MapLegal
  parts : s.PartsLegal
  store : s.StoreLegal

end Sys2Proof.Machine
end

