-- ==== Sys2Proof/Effects.lean ====
section
/-! DEFINITION. The terms in which statements speak of one code word: when it issues, when its Chunk has room, what it writes, and what
it leaves. -/

namespace Sys2Proof.Machine

/-- The entry that cur names issues a word described by d: the checks of R122 to R131 pass, and mirror issue finds no mismatch (R332). -/
structure Issues (d : Desc) (s : State) (is : Issue) : Prop where
  cur : s.cur = some (is.core, is.slot, is.pc, is.lanes)
  group : s.group? is.core is.slot = some is.g
  issue : is = mkIssue s is.core is.slot is.pc is.lanes is.g
  checks : precheck d is s = none
  mirror : (d.mirror && is.g.mirrored && !is.active.isEmpty && s.glitch.contains s.steps) = false

/-- The Chunk takes the word with effect e: its write set and its undo rows have room, or the word is its first (R86). -/
def HasRoom (is : Issue) (s : State) (e : Eff) : Prop :=
  (writeSet is.g.chunk e ≤ 256 ∧ (undoAfter s is.g.chunk.undo e).length ≤ 224) ∨ is.g.chunk.words ≤ is.g.seq.n

/-- Under c, the word i completes with the effect e. -/
def Performs (i : Instr) (d : Desc) (c : Issue → State → Prop) (e : Issue → State → Eff) : Prop :=
  ∀ s is, Issues d s is → c is s → HasRoom is s (e is s) → exec i s = .next (applyEff is (e is s) s)

/-- Under c, the word i traps, with nothing written (R86, R102): its Chunk ends before it, and after the commit the trap is taken at the
first word of its sequence. -/
def Traps (i : Instr) (d : Desc) (c : Issue → State → Prop) (cause : Nat) (val : Issue → State → Nat) : Prop :=
  ∀ s is, Issues d s is → c is s →
    exec i s = .next (s.endChunk is.core is.slot (.trap { cause := cause, code := 0, val := val is s, pc := is.first } is.lanes))

/-- Under c, the lanes of the entry wait at the word (R324). -/
def Waits (i : Instr) (d : Desc) (c : Issue → State → Prop) (w : Issue → State → Wait) : Prop :=
  ∀ s is, Issues d s is → c is s → exec i s = .next (waitAt is (w is s) s)

/-- No condition. -/
def always : Issue → State → Prop := fun _ _ => True

/-- From s to t only the pool bytes in W of the issuing core, the issuing Group's own record and, where its Chunk ends, the agenda have
changed. Everything else stands: device memory and what is on its way to it, other Groups and cores, special registers of the device,
Contexts, Kernels, Queues, engines. -/
structure OnlyPool (is : Issue) (s t : State) (W : Nat → Prop) : Prop where
  outside : t = { s with cores := t.cores, agenda := t.agenda }
  agenda : t.agenda = s.agenda ∨ t.agenda = s.agenda ++ [.chunkReady is.core is.slot]
  others : ∀ c, c ≠ is.core → t.core c = s.core c
  core : t.core is.core = { s.core is.core with pool := (t.core is.core).pool, groups := (t.core is.core).groups }
  groups : ∀ k, k ≠ is.slot → t.group? is.core k = s.group? is.core k
  pool : ∀ a, ¬ W a → (t.core is.core).pool.read a = (s.core is.core).pool.read a

/-- The bytes of n registers from v(d), of all lanes (R78). -/
def vBytes (is : Issue) (d n : Nat) (a : Nat) : Prop := vAddr is.rb d 0 ≤ a ∧ a < vAddr is.rb (d + n) 0

/-- The four bytes at a place. -/
def wordAt (p : Nat) (a : Nat) : Prop := p ≤ a ∧ a < p + 4

/-- The canonical form of the issuing core's pool. -/
def PoolCanonical (is : Issue) (s : State) : Prop := Memory.wf (s.core is.core).pool = true

/-- Under c, the word i completes, its lanes move on (applyEff), and it writes v(d), of w ? two : one registers: f in active lanes; in the
other lanes what stood there, or zeros under the zero policy (R147); nothing else. -/
def WritesV (i : Instr) (dsc : Desc) (c : Issue → State → Prop) (w : Bool) (d : Nat) (f : Issue → State → Nat → Nat) : Prop :=
  ∀ s is, Issues dsc s is → c is s → PoolCanonical is s → HasRoom is s (is.vResult w d (f is s)) →
    let t := applyEff is (is.vResult w d (f is s)) s;
    exec i s = .next t ∧
      (∀ l, l < 32 → is.vVal t w d l =
        if l ∈ is.active then f is s l % 2 ^ (if w then 64 else 32) else if is.x.zero then 0 else is.vVal s w d l) ∧
      OnlyPool is s t (vBytes is d (if w then 2 else 1))

/-- Under c, the word i completes and writes m(d): f in the bits of active lanes; the other bits keep their values, or are cleared under
the zero policy (R147, R157); nothing else. -/
def WritesM (i : Instr) (dsc : Desc) (c : Issue → State → Prop) (d : Nat) (f : Issue → State → Nat → Bool) : Prop :=
  ∀ s is, Issues dsc s is → c is s → PoolCanonical is s → HasRoom is s (is.mResult s d (f is s)) →
    let t := applyEff is (is.mResult s d (f is s)) s;
    exec i s = .next t ∧
      (∀ l, l < 32 → bitAt (is.mRd t d) l =
        if l ∈ is.active then f is s l else if is.x.zero then false else bitAt (is.mRd s d) l) ∧
      OnlyPool is s t (wordAt (mAddr is.rb d))

/-- Under c, the word i completes and writes s(d); nothing else. -/
def WritesS (i : Instr) (dsc : Desc) (c : Issue → State → Prop) (d : Nat) (f : Issue → State → Nat) : Prop :=
  ∀ s is, Issues dsc s is → c is s → PoolCanonical is s → HasRoom is s (is.sResult d (f is s)) →
    let t := applyEff is (is.sResult d (f is s)) s;
    exec i s = .next t ∧ is.sRd t d = f is s % 2 ^ 32 ∧ OnlyPool is s t (wordAt (sAddr is.rb d))

/-- The conditions that the active lanes of a float word met, for FPE (R45). -/
def condsOf (r : Issue → State → Nat → FRes) (is : Issue) (s : State) : Option Nat :=
  fpeVal is.l.fpen (is.active.map (fun l => (l, condsBits (r is s l).conds)))

/-- A float word with the per-lane results r: it traps FPE, with nothing written, where a lane met an enabled condition, and otherwise
writes v(d) (R45). -/
def FloatV (i : Instr) (dsc : Desc) (w : Bool) (d : Nat) (r : Issue → State → Nat → FRes) : Prop :=
  WritesV i dsc (fun is s => condsOf r is s = none) w d (fun is s l => (r is s l).bits) ∧
    Traps i dsc (fun is s => condsOf r is s ≠ none) causeFPE (fun is s => (condsOf r is s).getD 0)

/-! ## Memory words -/

/-- The virtual and physical addresses of the active lanes. -/
def Issue.pas (is : Issue) (s : State) (x : Bool) (a : Nat) : List Nat := (is.elements s x a is.active).map (fun e => is.pa s e.2)

/-- A lane's data of a global load: memory as the scope reads it, with the Group's own buffered stores over it (R92, R104, R197). -/
def loadData (is : Issue) (s : State) (x : Bool) (a : Nat) (c : Scope) (z : Size) (lane : Nat) : Nat :=
  let cl := clusterOf is.core
  let s1 := if c == .cl then (is.pas s x a).foldl (fun s pa => s.fetchLine cl (lineNo pa)) s else s
  let pa := is.pa s (is.addr s x a lane)
  ofBytes (throughBuffer is.g.chunk.buf pa (if c == .cl then s1.clusterBytes cl pa (sizeBytes z) else s1.readPhys pa (sizeBytes z)))

/-- The addresses that a load of a scope reads from their homes: all, but those of lines that the cluster holds, for .cl (R105, R107). -/
def Issue.away (is : Issue) (s : State) (x : Bool) (a : Nat) (c : Scope) : List Nat :=
  if c == .cl then (is.pas s x a).filter (fun pa => ((s.cluster (clusterOf is.core)).get? (lineNo pa)).isNone) else is.pas s x a

/-- The effect of a global load: the registers pending until LOAD_RETURN with the data, the sectors read, the Pages used; lines fetched by
a .cl load, read copies dropped by an acquire, requests to other dies (R109, R130, R197, R198, R395). -/
def loadEff (acq : Bool) (l : Nat) (x : Bool) (d a : Nat) (c : Scope) (z : Size) (is : Issue) (s : State) : Eff :=
  let cl := clusterOf is.core
  { pendingLoad is s l d (sizeRegs z) (loadData is s x a c z) ((is.pas s x a).any (fun pa => s.loadPoison is.g.chunk.buf c cl pa (sizeBytes z))) (is.away s x a c) with
    reads := if c == .cl then [] else sectorSet (is.pas s x a) (sizeBytes z)
    tags := if c == .cl then sectorSet (is.away s x a c) (sizeBytes z) else []
    pages := usedPages is s (is.elements s x a is.active)
    post := fun t =>
      let t1 := if c == .cl then (is.pas s x a).foldl (fun s pa => s.fetchLine cl (lineNo pa)) t else if acq then t.dropReadCopies cl else t
      ((t1.unparkReq is.req).request is.core is.slot (is.away s x a c)).due [.loadReturn is.core is.slot] }

/-- A global load has passed the checks of R194, and no line of it waits (R105, R363). -/
def loadReady (x : Bool) (a : Nat) (c : Scope) (z : Size) (is : Issue) (s : State) : Prop :=
  globalFault is s (is.elements s x a is.active) (sizeBytes z) .load (fun pa => c == .cl && isHost pa) = none ∧
    (if c == .cl then parking is s (is.away s x a c) else lineWait is s (is.away s x a c)) = none

/-- The effect of a global store: one buffered item for each lane, in lane order (R199). -/
def storeEff (x : Bool) (d a : Nat) (c : Scope) (z : Size) (is : Issue) (s : State) : Eff :=
  let n := sizeBytes z
  { buf := (is.elements s x a is.active).map (fun e =>
      if c == .cl then .clStore (is.pa s e.2) (is.data s d n e.1) else .store (c == .sy) false (is.pa s e.2) (is.data s d n e.1))
    writes := if c == .cl then [] else sectorSet (is.pas s x a) n
    clw := if c == .cl then sectorSet (is.pas s x a) n else []
    pages := usedPages is s (is.elements s x a is.active)
    post := fun t => if c == .cl then t.unparkReq is.req else t }

/-- A global store has passed the checks of R194, and no line of it must check in or out first (R104, R105). -/
def storeReady (x : Bool) (a : Nat) (c : Scope) (z : Size) (is : Issue) (s : State) : Prop :=
  globalFault is s (is.elements s x a is.active) (sizeBytes z) .store (fun pa => c == .cl && isHost pa) = none ∧
    (if c == .cl then clusterWriteWait is s (is.pas s x a) = none else ownCheckedOut is s (is.pas s x a) = none)

/-- The lanes and addresses of a local access, and where each falls (R202). -/
def Issue.locals (is : Issue) (s : State) (x : Bool) (a : Nat) : List (Nat × Nat) := is.active.map (fun l => (l, is.localAddr s x a l))
def Issue.spot (is : Issue) (s : State) (sp : LocalSpace) (addr n : Nat) : Nat × Nat × LocalRight := (is.place s sp addr n).getD (0, 0, .team)

/-- A local access has passed the checks of R202, and no copy or pending register covers its bytes (R130, R205). -/
def localReady (sp : LocalSpace) (write : Bool) (x : Bool) (a : Nat) (z : Size) (is : Issue) (s : State) : Prop :=
  localFault is s sp write (is.locals s x a) (sizeBytes z) = none ∧
    ((is.locals s x a).map (fun e => is.spot s sp e.2 (sizeBytes z))).any (fun p => localBusy is s p (sizeBytes z)) = false

/-- A lane's data of a local load; through the cluster window, the Chunk's own STWs lie over it (R92, R204). -/
def localData (sp : LocalSpace) (x : Bool) (a : Nat) (z : Size) (is : Issue) (s : State) (lane : Nat) : Nat :=
  let p := is.spot s sp (is.localAddr s x a lane) (sizeBytes z)
  let old := (s.core p.1).pool.bytes p.2.1 (sizeBytes z)
  ofBytes (if sp = .window then throughStw is.g.chunk.acts p.1 p.2.1 old else old)

/-- Lanes, physical addresses, operands and compare values of an atomic (R206). -/
def Issue.atoms (is : Issue) (s : State) (w : Bool) (o : AtomOp) (d a : Nat) : List (Nat × Nat × Nat × Nat) :=
  (is.elements s false a is.active).map (fun e => let x := is.atomOpnd s w o d e.1; (e.1, is.pa s e.2, x.1, x.2))

/-- An atomic has passed the checks of R194 and R210, and goes to place p (R209). -/
def atomAt (w : Bool) (a : Nat) (p q : Place) (is : Issue) (s : State) : Prop :=
  globalFault is s (is.elements s false a is.active) (atomBits w / 8) .atomic (fun pa => isHost pa && (p == .near || p == .cl)) = none ∧
    is.placement s p (is.pas s false a) = q

/-! ## Engine commands -/

/-- The bytes of an operation's virtual ranges, under the translations that it has made (R352). -/
def Op.pas (o : Op) (rs : List (Nat × Nat)) : List Nat := rs.foldl (fun acc r => acc ++ (upFrom r.1 r.2).map (paOf o.pages)) []

/-- An operation's n-th request, for bytes of physical memory, is served: it is neither on its way to a home on another die nor waits at one
(R363, R366, R394, R395). -/
def Served (s : State) (id : Nat) (o : Op) (n : Nat) (pas : List Nat) : Prop :=
  s.askAcross o.place (readTag id n) pas = none ∧ pas.find? (s.waitsFor (.op id) o.die) = none

/-- The machine when a request has been served: it stands at no home any more, and its lines are tagged (R362, R363). -/
def State.afterRead (s : State) (id : Nat) (o : Op) (pas : List Nat) : State := (s.unparkReq (.op id)).tagOp o (unionNat [] (pas.map (· / 32)))

/-- A command that has left has reached its engine, and no status ended it (R235, R238, R395). -/
def Op.gone (o : Op) (s : State) (id : Nat) : Prop := o.state = .translating ∧ o.status = 0 ∧ s.crossing (pushTag id) = false

/-- An engine command that has left finds its status address and every Page that it names (R236); o1 is the operation with what was found. -/
def Translated (s : State) (o : Op) (reqs : List (Nat × Nat × AccKind)) (o1 : Op) : Prop :=
  ∃ va ps qs, s.statusAt o.ctx (cmdStaddr o.cmd) = .at_ va ps ∧ s.reach o.ctx reqs = .ok qs ∧
    o1 = { o with stva := va, pages := addPages ps qs, wants := none }

end Sys2Proof.Machine
end

