-- ==== Sys2Proof/Certificates/Slice0/Obligations.lean ====
section
/-! DEFINITION. The statements about the model, one definition each. A statement about one code word speaks through Effects.lean: Issues
says that the word issues with its checks passed, WritesV, WritesM and WritesS say that it completes, what it writes, and that it
leaves everything else. -/

open Sys2Proof Sys2Proof.Machine

/-! ## Integer words -/

/-- R150, R151: sums, differences, products, extremes: the exact value narrowed to the width, clamped where sat says so.
R150, R151, R153, R155, R158: one-source words: negation, absolute value, complement, counts, reversal, copy.
R152: quotients truncate toward zero; a division by zero gives all ones, its remainder the dividend; the most negative number
divided by minus one wraps, or clamps under sat. -/
def Obligations.IntegerWords : Prop :=
  (∀ (w t : Bool) (d a b : Nat),
     let ds := { descTwo w t d a b with sat := true }
     let n := widthOf w
     let x (is : Issue) (s : State) (l : Nat) : Nat := is.srcA s false w t a l
     let y (is : Issue) (s : State) (l : Nat) : Nat := is.srcB s w b l
     let sx (is : Issue) (s : State) (l : Nat) : Int := signedOf n (x is s l)
     let sy (is : Issue) (s : State) (l : Nat) : Int := signedOf n (y is s l)
     WritesV (.iadd w t d a b) ds always w d (fun is s l => narrow is.x.sat n (sx is s l + sy is s l)) ∧
     WritesV (.iaddc w t d a b) ds always w d (fun is s l => if 2 ^ n ≤ x is s l + y is s l then 1 else 0) ∧
     WritesV (.isub w t d a b) ds always w d (fun is s l => narrow is.x.sat n (sx is s l - sy is s l)) ∧
     WritesV (.iminS w t d a b) ds always w d (fun is s l => if sy is s l < sx is s l then y is s l else x is s l) ∧
     WritesV (.iminN w t d a b) ds always w d (fun is s l => min (x is s l) (y is s l)) ∧
     WritesV (.imaxS w t d a b) ds always w d (fun is s l => if sx is s l < sy is s l then y is s l else x is s l) ∧
     WritesV (.imaxN w t d a b) ds always w d (fun is s l => max (x is s l) (y is s l)) ∧
     WritesV (.imul w t d a b) ds always w d (fun is s l => narrow is.x.sat n (sx is s l * sy is s l)) ∧
     WritesV (.imulhS w t d a b) ds always w d (fun is s l => wrapTo n (sx is s l * sy is s l / 2 ^ n)) ∧
     WritesV (.imulhN w t d a b) ds always w d (fun is s l => x is s l * y is s l / 2 ^ n) ∧
     WritesV (.imad w t d a b) { ds with f4v := true } always w d
       (fun is s l => narrow is.x.sat n (sx is s l * sy is s l + signedOf n (is.src4 s w d l)))) ∧
  (∀ (w t : Bool) (d a : Nat),
     let ds (sat imm : Bool) := { descOne w t d a imm with sat := sat }
     let n := widthOf w
     let x (is : Issue) (s : State) (l : Nat) : Nat := is.srcA s true w t a l
     WritesV (.ineg w t d a) (ds true true) always w d (fun is s l => narrow is.x.sat n (-(signedOf n (x is s l)))) ∧
     WritesV (.iabs w t d a) (ds true true) always w d (fun is s l => narrow is.x.sat n (signedOf n (x is s l)).natAbs) ∧
     WritesV (.inot w t d a) (ds false false) always w d (fun is s l => 2 ^ n - 1 - x is s l) ∧
     WritesV (.clz w t d a) (ds false false) always w d (fun is s l => leadingZeros n (x is s l)) ∧
     WritesV (.popc w t d a) (ds false false) always w d (fun is s l => popCount n (x is s l)) ∧
     WritesV (.brev w t d a) (ds false false) always w d (fun is s l => reverseBits n (x is s l)) ∧
     WritesV (.mov w t d a) (ds false true) always w d (fun is s l => x is s l)) ∧
  (∀ (w t : Bool) (d a b : Nat),
     let ds := { descTwo w t d a b with sat := true }
     let n := widthOf w
     let x (is : Issue) (s : State) (l : Nat) : Nat := is.srcA s false w t a l
     let y (is : Issue) (s : State) (l : Nat) : Nat := is.srcB s w b l
     WritesV (.idivS w t d a b) ds always w d (fun is s l =>
       if y is s l = 0 then 2 ^ n - 1 else narrow is.x.sat n (Int.tdiv (signedOf n (x is s l)) (signedOf n (y is s l)))) ∧
     WritesV (.idivN w t d a b) ds always w d (fun is s l => if y is s l = 0 then 2 ^ n - 1 else x is s l / y is s l) ∧
     WritesV (.iremS w t d a b) ds always w d (fun is s l =>
       if y is s l = 0 then x is s l else wrapTo n (Int.tmod (signedOf n (x is s l)) (signedOf n (y is s l)))) ∧
     WritesV (.iremN w t d a b) ds always w d (fun is s l => if y is s l = 0 then x is s l else x is s l % y is s l))

/-- R153, R154, R156, R157: logic, shifts and rotations by the low eight bits of the control, bit fields, and ISET into a mask. -/
def Obligations.LogicShiftsAndBits : Prop :=
  ∀ (w t : Bool) (c : ICond) (d a b : Nat),
    let ds := descTwo w t d a b
    let dc := { descTwo w t d a b with vb := opV b false }
    let n := widthOf w
    let x (is : Issue) (s : State) (l : Nat) : Nat := is.srcA s false w t a l
    let y (is : Issue) (s : State) (l : Nat) : Nat := is.srcB s w b l
    let z (is : Issue) (s : State) (l : Nat) : Nat := is.srcB s false b l
    WritesV (.iand w t d a b) ds always w d (fun is s l => x is s l &&& y is s l) ∧
    WritesV (.ior w t d a b) ds always w d (fun is s l => x is s l ||| y is s l) ∧
    WritesV (.ixor w t d a b) ds always w d (fun is s l => x is s l ^^^ y is s l) ∧
    WritesV (.shl w t d a b) dc always w d (fun is s l => shlValue n (x is s l) (z is s l % 256)) ∧
    WritesV (.shr w t d a b) dc always w d (fun is s l => shrValue n (x is s l) (z is s l % 256)) ∧
    WritesV (.sra w t d a b) dc always w d (fun is s l => sraValue n (x is s l) (z is s l % 256)) ∧
    WritesV (.rotl w t d a b) dc always w d (fun is s l => rotlValue n (x is s l) (z is s l % 256)) ∧
    WritesV (.bfxS w t d a b) dc always w d (fun is s l => bfxValue true n (x is s l) (z is s l)) ∧
    WritesV (.bfxN w t d a b) dc always w d (fun is s l => bfxValue false n (x is s l) (z is s l)) ∧
    WritesV (.bfi w t d a b) { dc with f4v := true } always w d (fun is s l => bfiValue n (x is s l) (z is s l) (is.src4 s w d l)) ∧
    WritesM (.iset w c t d a b) { ds with vd := opM d, mdst := some d } always d (fun is s l => icondHolds c n (x is s l) (y is s l))

/-! ## Moves, addresses, scalars -/

/-- R158 to R160: SEL by an m register, LEA, and MOVS, which executes once per issue and writes nothing when no lane is active; a MOVS to
k is written at commit and ends the Chunk, even when no lane is active.
R161, R162: the scalar words: arithmetic modulo 2^32, logic, shifts, SMOV, SRDL of one lane, SSET; SLEA on a pair. -/
def Obligations.MoveAndScalarWords : Prop :=
  (∀ (w t : Bool) (c : LeaScale) (d a b : Nat),
     let some_ (is : Issue) (_ : State) : Prop := is.active ≠ []
     let empty (is : Issue) (_ : State) : Prop := is.active = []
     let writesNothing (_ : Issue) (_ : State) : Eff := {}
     WritesV (.sel w t d a b) { descTwo w t d a b with f4m := true } always w d (fun is s l =>
       if bitAt (is.mRd s is.x.f4) l then is.srcA s false w t a l else is.srcB s w b l) ∧
     WritesV (.lea c t d a b) { descTwo true t d a b with vb := opV b false } always true d (fun is s l =>
       wrapTo 64 (is.srcA s false true t a l + signedOf 32 (is.srcB s false b l) * leaScale c)) ∧
     WritesS (.movsSV d a) { vd := opS d false, va := opV a false } some_ d (fun is s => is.vRd s a (is.active.headD 0)) ∧
     WritesS (.movsSK d a) { vd := opS d false, va := [{ file := .k, num := a, count := 1 }] } some_ d (fun is s => kRead is s a) ∧
     WritesS (.movsSM d a) { vd := opS d false, va := opM a } some_ d (fun is s => is.mRd s a) ∧
     Performs (.movsMS d a) { vd := opM d, va := opS a false, mdst := some d } some_
       (fun is s => { raw := [(mAddr is.rb d, toBytes 4 (is.sRd s a))] }) ∧
     Performs (.movsKS d a) { vd := [{ file := .k, num := d, count := 1 }], va := opS a false, closes := true } some_
       (fun is s => { acts := [.kwrite d (is.sRd s a)], ends := some .run }) ∧
     Performs (.movsSV d a) { vd := opS d false, va := opV a false } empty writesNothing ∧
     Performs (.movsSK d a) { vd := opS d false, va := [{ file := .k, num := a, count := 1 }] } empty writesNothing ∧
     Performs (.movsSM d a) { vd := opS d false, va := opM a } empty writesNothing ∧
     Performs (.movsMS d a) { vd := opM d, va := opS a false, mdst := some d } empty writesNothing ∧
     Performs (.movsKS d a) { vd := [{ file := .k, num := d, count := 1 }], va := opS a false, closes := true } empty
       (fun _ _ => { ends := some .run })) ∧
  (∀ (c : ICond) (d a b : Nat),
     let ds := descScalar d a b
     let x (is : Issue) (s : State) : Nat := is.sRd s a
     let y (is : Issue) (s : State) : Nat := sOrImm is s b
     WritesS (.sadd d a b) ds always d (fun is s => (x is s + y is s) % 2 ^ 32) ∧
     WritesS (.ssub d a b) ds always d (fun is s => wrapTo 32 ((x is s : Int) - y is s)) ∧
     WritesS (.smul d a b) ds always d (fun is s => x is s * y is s % 2 ^ 32) ∧
     WritesS (.sand d a b) ds always d (fun is s => x is s &&& y is s) ∧
     WritesS (.sor d a b) ds always d (fun is s => x is s ||| y is s) ∧
     WritesS (.sxor d a b) ds always d (fun is s => x is s ^^^ y is s) ∧
     WritesS (.sshl d a b) ds always d (fun is s => shlValue 32 (x is s) (y is s % 256)) ∧
     WritesS (.sshr d a b) ds always d (fun is s => shrValue 32 (x is s) (y is s % 256)) ∧
     WritesS (.smov d a) { vec := false, lim := .a, resA := a, vd := opS d false, va := opS a false } always d (fun is s => sOrImm is s a) ∧
     WritesS (.srdl d a b) { descScalar d a b with va := opV a false } always d (fun is s => is.vRd s a (sOrImm is s b % 32)) ∧
     WritesS (.sset c d a b) ds always d (fun is s => if icondHolds c 32 (x is s) (y is s) then 1 else 0) ∧
     Performs (.slea d a b) { descScalar d a b with vd := opS d true, va := opS a true } always
       (fun is s => is.sResult64 d (wrapTo 64 (is.sPair s a + signedOf 32 (sOrImm is s b)))))

/-! ## Floats -/

/-- R163 to R166: FADD, FSUB, FMUL, FFMA, FMIN, FMAX, FCLASS, FSET: the rounded result, with sat; FPE first.
R167: the functions of one source; FRCP and FSQRT under the rounding mode, the others under their own.
The model's choices in it, not the manual's: notes/assumptions, logs 6, 18, 19. -/
def Obligations.FloatWords : Prop :=
  (∀ (t : Bool) (c : FCond) (d a b : Nat),
     let ds := { descTwo false t d a b with rm := true, sat := true }
     let x (is : Issue) (s : State) (l : Nat) : Nat := is.srcA s false false t a l
     let y (is : Issue) (s : State) (l : Nat) : Nat := is.srcB s false b l
     let cmp (is : Issue) (s : State) (l : Nat) : FRes :=
       let r := fcondHolds c (f32v (x is s l)) (f32v (y is s l))
       { bits := r.1.toNat, conds := r.2 }
     let df := { descTwo false t d a b with rm := true, vd := opM d, mdst := some d }
     FloatV (.fadd t d a b) ds false d (fun is s l => addIn fmtF32 is.rm is.x.sat (x is s l) (y is s l)) ∧
     FloatV (.fsub t d a b) ds false d (fun is s l => subIn fmtF32 is.rm is.x.sat (x is s l) (y is s l)) ∧
     FloatV (.fmul t d a b) ds false d (fun is s l => mulIn fmtF32 is.rm is.x.sat (x is s l) (y is s l)) ∧
     FloatV (.ffma t d a b) { ds with f4v := true } false d
       (fun is s l => fmaIn fmtF32 is.rm is.x.sat (x is s l) (y is s l) (is.src4 s false d l)) ∧
     FloatV (.fmin t d a b) ds false d (fun is s l => fminmax fmtF32 false (x is s l) (y is s l)) ∧
     FloatV (.fmax t d a b) ds false d (fun is s l => fminmax fmtF32 true (x is s l) (y is s l)) ∧
     FloatV (.fclass t d a) { descOne false t d a false with rm := true, sat := true } false d
       (fun is s l => { bits := fclassBits fmtF32 (is.srcA s true false t a l) }) ∧
     WritesM (.fset c t d a b) df (fun is s => condsOf cmp is s = none) d (fun is s l => (cmp is s l).bits == 1) ∧
     Traps (.fset c t d a b) df (fun is s => condsOf cmp is s ≠ none) causeFPE (fun is s => (condsOf cmp is s).getD 0)) ∧
  (∀ (t : Bool) (d a : Nat),
     let ds := { descOne false t d a false with rm := true, sat := true }
     let x (is : Issue) (s : State) (l : Nat) : FVal := f32v (is.srcA s true false t a l)
     let fn (v : Rm → FVal → FRes) (is : Issue) (s : State) (l : Nat) : FRes := satResult fmtF32 is.x.sat [x is s l] (v is.rm (x is s l))
     FloatV (.frcp t d a) ds false d (fn (frcpVal fmtF32)) ∧
     FloatV (.frsq t d a) ds false d (fn (fun _ => frsqVal fmtF32)) ∧
     FloatV (.fsqrt t d a) ds false d (fn (fsqrtVal fmtF32)) ∧
     FloatV (.fexp2 t d a) ds false d (fn (fun _ => fexp2Val fmtF32)) ∧
     FloatV (.flog2 t d a) ds false d (fn (fun _ => flog2Val fmtF32)) ∧
     FloatV (.fsin t d a) ds false d (fn (fun _ => fsinVal fmtF32)) ∧
     FloatV (.fcos t d a) ds false d (fn (fun _ => fcosVal fmtF32)) ∧
     FloatV (.ftanh t d a) ds false d (fn (fun _ => ftanhVal fmtF32)))

/-- R42, R44: rounding in binary32, binary16 and bfloat16, of a magnitude m * 2^e, subnormal results and all: with no overflow the result is
finite; it is the value itself when that is representable; under rne and rmm no finite value lies nearer, ties to even or away from zero;
under the other modes it is the neighbour on their side. On overflow every finite value lies below, and the mode's table gives the result.
Values are compared at a common scale 2^z. -/
def Obligations.FloatRounding : Prop :=
  ∀ (f : FloatFmt) (rm : Rm) (s : Bool) (m : Nat) (e z : Int), f = fmtF32 ∨ f = fmtF16 ∨ f = fmtBf16 → 0 < m → z ≤ e → z ≤ fmtQmin f →
    let r := roundMag f rm s m e false
    let at_ (m : Nat) (e : Int) : Nat := m * 2 ^ (e - z).toNat
    let v := at_ m e
    let far (a : Nat) : Nat := ((a : Int) - v).natAbs
    let down : Prop := rm = .rtz ∨ (rm = .rdn ∧ s = false) ∨ (rm = .rup ∧ s = true)
    let up : Prop := (rm = .rdn ∧ s = true) ∨ (rm = .rup ∧ s = false)
    (r.conds.overflow = false → ∃ k q, fdecode f r.bits = .fin s k q ∧ z ≤ q ∧
      let w := at_ k q
      (r.conds.inexact = false ↔ w = v) ∧ (down → w ≤ v) ∧ (up → v ≤ w) ∧
      ∀ x mx ex, fdecode f x = .fin s mx ex →
        let u := at_ mx ex
        (rm = .rne ∨ rm = .rmm → far w ≤ far u) ∧ (rm = .rne → far w = far u → u = w ∨ r.bits % 2 = 0) ∧
        (rm = .rmm → far w = far u → u ≤ w) ∧ (down → u ≤ v → u ≤ w) ∧ (up → v ≤ u → w ≤ u)) ∧
    (r.conds.overflow = true → r.bits = overflowBits f rm s ∧ r.conds.inexact = true ∧ ∀ x mx ex, fdecode f x = .fin s mx ex → at_ mx ex < v)

/-- R47, R168: the packed words: two elements, each an operation of its own in f16 or bf16.
The model's choices in it, not the manual's: notes/assumptions, logs 18, 19. -/
def Obligations.PackedHalves : Prop :=
  ∀ (t : Bool) (d a b : Nat),
    let ds (f4 : Bool) (lim : LimUse) := { descTwo false t d a b with rm := true, sat := true, f4v := f4, lim := lim }
    let two (f : Rm → Bool → Nat → Nat → FRes) (is : Issue) (s : State) (l : Nat) : FRes :=
      packed (fun i => f is.rm is.x.sat (half (is.srcA s false false t a l) i) (half (is.srcB s false b l) i))
    let three (f : Rm → Bool → Nat → Nat → Nat → FRes) (is : Issue) (s : State) (l : Nat) : FRes :=
      packed (fun i => f is.rm is.x.sat (half (is.srcA s false false t a l) i) (half (is.srcB s false b l) i)
        (half (is.src4 s false d l) i))
    FloatV (.hadd2F16 t d a b) (ds false .b) false d (two (addIn fmtF16)) ∧
    FloatV (.hmul2F16 t d a b) (ds false .b) false d (two (mulIn fmtF16)) ∧
    FloatV (.hfma2F16 t d a b) (ds true .b) false d (three (fmaIn fmtF16)) ∧
    FloatV (.hmax2F16 t d a b) (ds false .none) false d (two (fun _ _ => fminmax fmtF16 true)) ∧
    FloatV (.hadd2Bf16 t d a b) (ds false .b) false d (two (addIn fmtBf16)) ∧
    FloatV (.hmul2Bf16 t d a b) (ds false .b) false d (two (mulIn fmtBf16)) ∧
    FloatV (.hfma2Bf16 t d a b) (ds true .b) false d (three (fmaIn fmtBf16)) ∧
    FloatV (.hmax2Bf16 t d a b) (ds false .none) false d (two (fun _ _ => fminmax fmtBf16 true))

/-! ## Conversions, planes, scale codes -/

/-- R169 to R171: FCVT between formats and from NPI elements, F2I, I2F.
R172 to R175: NPACK and NUNPACK between eight bytes of four and the planes of a slot, SCENC and SCDEC on a slot with scmode 1; a slot
of another kind traps ILL.
The model's choices in it, not the manual's: notes/assumptions, log 19. -/
def Obligations.ConversionWords : Prop :=
  (∀ (t : Bool) (k : FcvtKind) (c : Bool) (y : IntTy) (d a slot : Nat),
     let dn := { descOne false false d a false with rm := true, sat := true }
     let np (is : Issue) (s : State) (l : Nat) : FRes :=
       npElement (is.l.slot slot) (if c then fmtBf16 else fmtF32) is.rm is.x.sat (is.vRd s a l)
     let good (is : Issue) : Prop := slotBad (is.l.slot slot) [0, 1] = false
     FloatV (.fcvt k t d a) { descOne false t d a true with rm := true, sat := true } false d (fun is s l =>
       let f := fcvtSrc k
       let x := fdecode f (is.srcA s true false t a l % 2 ^ (1 + f.expBits + f.fracBits))
       satResult (fcvtDst k) is.x.sat [x] (fcvtVal (fcvtDst k) is.rm x)) ∧
     WritesV (.fcvtNp c d a slot) dn (fun is s => good is ∧ condsOf np is s = none) false d (fun is s l => (np is s l).bits) ∧
     Traps (.fcvtNp c d a slot) dn (fun is _ => ¬good is) causeILL (fun _ _ => slotVal slot) ∧
     FloatV (.f2i y t d a) { descOne false t d a true with rm := true, sat := true, vd := opV d (tyWide y) } (tyWide y) d (fun is s l =>
       let r := f2iVal is.rm y (f32v (is.srcA s true false t a l))
       { bits := extendTo y r.1, conds := r.2 }) ∧
     FloatV (.i2f y t d a) { descOne false t d a true with rm := true, sat := true, va := opA t (tyWide y) a } false d (fun is s l =>
       i2fVal fmtF32 is.rm (intValue y (is.srcA s true (tyWide y) t a l)))) ∧
  (∀ (t : Bool) (d a slot : Nat) (sl : Slot),
     let dp := { rm := true, vd := opRange d (planesOf sl), va := opRange a 8, mirror := true : Desc }
     let du := { rm := true, vd := opRange d 8, va := opRange a (planesOf sl), mirror := true : Desc }
     let dk := { descOne false t d a false with rm := true }
     let here (is : Issue) (_ : State) : Prop := is.l.slot slot = sl ∧ slotBad sl [0] = false
     let scaled (is : Issue) (_ : State) : Prop := slotBad (is.l.slot slot) [0, 1] = false ∧ (is.l.slot slot).scmode = true
     Performs (.npack d a slot) dp here (fun is s =>
       is.vRange d sl.planes (fun p l => wordOfBits (fun e => bitAt (byteOf (fun i => is.vRd s (a + i) l) e) (7 - p)))) ∧
     Traps (.npack d a slot) dp (fun is _ => is.l.slot slot = sl ∧ slotBad sl [0] = true) causeILL (fun _ _ => slotVal slot) ∧
     Performs (.nunpack d a slot) du here (fun is s =>
       is.vRange d 8 (fun i l => ofBytes ((upFrom 0 4).map (fun j => BitVec.ofNat 8 (wrapTo 8
         (reconstruct sl.sgn sl.midpt sl.planes (fun p => bitAt (is.vRd s (a + p) l) (4 * i + j)))))))) ∧
     Traps (.nunpack d a slot) du (fun is _ => is.l.slot slot = sl ∧ slotBad sl [0] = true) causeILL (fun _ _ => slotVal slot) ∧
     WritesV (.scenc t d a slot) dk scaled false d (fun is s l => scenc (is.srcA s true false t a l)) ∧
     Traps (.scenc t d a slot) dk (fun is s => ¬scaled is s) causeILL (fun _ _ => slotVal slot) ∧
     WritesV (.scdec t d a slot) dk scaled false d (fun is s l => scdec (is.srcA s true false t a l)) ∧
     Traps (.scdec t d a slot) dk (fun is s => ¬scaled is s) causeILL (fun _ _ => slotVal slot))

/-! ## Cross-lane words -/

/-- R176 to R182: SHFL, PUTL (the highest-numbered source lane wins), VOTE, REDL by the pairwise tree, SCANL, LPART.
The model's choices in it, not the manual's: notes/assumptions, log 19. -/
def Obligations.CrossLaneWords : Prop :=
  ∀ (t cm : Bool) (m : ShflMode) (v : VoteMode) (o : RedOp) (d a b c : Nat),
    let dr := { descOne false t d a false with rm := redIsFloat o, mirror := false }
    let src (is : Issue) (s : State) (l : Nat) : Nat := is.srcA s true false t a l
    let scan (is : Issue) (s : State) (l : Nat) : FRes :=
      ((scanAll o is.rm (is.tile s) is.active (src is s)).getD l none).getD { bits := 0 }
    let scanFpe (is : Issue) (s : State) : Option Nat := fpeVal is.l.fpen (lanes32.map (fun l => (l, condsBits (scan is s l).conds)))
    let redFpe (is : Issue) (s : State) : Option Nat := fpeVal is.l.fpen (redlConds o is.rm (is.tile s) is.active (src is s))
    WritesV (.shfl m t d a b) { descTwo false t d a b with mirror := false } always false d (fun is s l =>
      is.srcA s false false t a (shflSrc m (is.tile s) l (is.srcB s false b l))) ∧
    Performs (.putl cm t d a b) { descTwo false t d a b with mirror := false, f4m := cm, f4dst := cm } always (fun is s =>
      let srcs := putlSources (is.tile s) is.active (fun l => is.srcB s false b l)
      { pool := lanes32.foldl (fun acc l =>
          match (srcs l).getLast? with
          | some x => acc ++ [(is.core, vAddr is.rb d l, toBytes 4 (is.srcA s false false t a x))]
          | none => if is.x.zero then acc ++ [(is.core, vAddr is.rb d l, toBytes 4 0)] else acc) []
        raw := if cm then [(mAddr is.rb is.x.f4, toBytes 4 (maskOf (lanes32.filter (fun l => decide (2 ≤ (srcs l).length)))))] else [] }) ∧
    (v ≠ .bal → WritesM (.vote v d a) { vd := opM d, va := opM a, mdst := some d } always d (fun is s l =>
      voteHolds v ((is.tileActive (is.tile s) l).map (bitAt (is.mRd s a))))) ∧
    WritesS (.vote .bal d a) { vd := opS d false, va := opM a } (fun is _ => is.active ≠ []) d
      (fun is s => is.mRd s a &&& maskOf is.active) ∧
    WritesV (.redl o t d a) dr (fun is s => redFpe is s = none) false d (fun is s => redlValue o is.rm (is.tile s) is.active (src is s)) ∧
    Traps (.redl o t d a) dr (fun is s => redFpe is s ≠ none) causeFPE (fun is s => (redFpe is s).getD 0) ∧
    WritesV (.scanl o t d a) dr (fun is s => scanFpe is s = none) false d (fun is s l => (scan is s l).bits) ∧
    Traps (.scanl o t d a) dr (fun is s => scanFpe is s ≠ none) causeFPE (fun is s => (scanFpe is s).getD 0) ∧
    Performs (.vote .bal d a) { vd := opS d false, va := opM a } (fun is _ => is.active = []) (fun _ _ => {}) ∧
    (c ∈ [1, 2, 3, 4, 5] → Performs (.lpart c) {} (fun is _ => is.active = []) (fun _ _ => {})) ∧
    (c ∈ [1, 2, 3, 4, 5] → Performs (.lpart c) {} (fun is _ => is.active ≠ [])
      (fun is _ => { raw := [(is.rb + offLpart, toBytes 4 c)] })) ∧
    (c ∈ [0, 6, 7] → Traps (.lpart c) {} always causeILL (fun _ _ => illVal .code))

/-! ## Control -/

/-- R185 to R188: BRA, BRC, BRX, CALL and RET move their lanes when every target of a moving lane is aligned, within the code and a PRIO;
else the first check that fails, in the order ALIGN, PROT, ILL, STACK, traps with the lowest lane's target (STACK: cdepth, or 0), and
nothing moves. CALL writes pc + 4 to its lanes' lowest empty rows, and RET takes the rows below them and clears them. -/
def Obligations.Branches : Prop :=
  ∀ (off m a : Nat) (neg : Bool),
    let dest (is : Issue) (_ : State) : List (Nat × Nat) := is.lanes.map (fun l => (l, branchTarget is.pc off))
    let cond (is : Issue) (s : State) : List (Nat × Nat) :=
      (is.lanes.filter (fun l => bitAt (is.mRd s m) l != neg)).map (fun l => (l, branchTarget is.pc off))
    let reg (is : Issue) (s : State) : List (Nat × Nat) := is.lanes.map (fun l => (l, is.vRd s a l))
    let back (is : Issue) (s : State) : List (Nat × Nat) :=
      (is.lanes.filter (fun l => is.depth s l != 0)).map (fun l => (l, is.row s (is.depth s l - 1) l))
    let askew (x : Nat) : Bool := x % 4 != 0
    let beyond (is : Issue) (x : Nat) : Bool := decide (is.l.codelen < x + 4)
    let word (is : Issue) (s : State) (x : Nat) : Prop := ∃ w, s.fetch is.core is.g.failed x = .word w
    let prio (is : Issue) (s : State) (x : Nat) : Prop := ∃ w p, s.fetch is.core is.g.failed x = .word w ∧ decode w = .ok (.prio p)
    let within (is : Issue) (ts : List (Nat × Nat)) : Prop := ∀ x ∈ ts, askew x.2 = false ∧ beyond is x.2 = false
    let lands (is : Issue) (s : State) (ts : List (Nat × Nat)) : Prop := within is ts ∧ ∀ x ∈ ts, prio is s x.2
    let moves (i : Instr) (d : Desc) (ts : Issue → State → List (Nat × Nat)) (free : Issue → State → Prop) (e : Issue → State → Eff) : Prop :=
      Performs i d (fun is s => lands is s (ts is s) ∧ free is s) e ∧
      Traps i d (fun is s => (firstBad (ts is s) askew).isSome) causeALIGN (fun is s => ((firstBad (ts is s) askew).getD (0, 0)).2) ∧
      Traps i d (fun is s => firstBad (ts is s) askew = none ∧ (firstBad (ts is s) (beyond is)).isSome) causePROT
        (fun is s => ((firstBad (ts is s) (beyond is)).getD (0, 0)).2) ∧
      ∀ l x, Traps i d (fun is s => within is (ts is s) ∧ (∀ y ∈ ts is s, word is s y.2) ∧ ¬prio is s x ∧
        ∃ u v, ts is s = u ++ (l, x) :: v ∧ ∀ y ∈ u, prio is s y.2) causeILL (fun _ _ => x)
    let deep (is : Issue) (s : State) : Bool := is.lanes.any (fun l => is.depth s l == is.l.cdepth)
    let callers (is : Issue) (s : State) : Prop := ∀ l ∈ is.lanes, is.depth s l ≠ 0
    moves (.bra off) descControl dest (fun _ _ => True) (fun is s => { pcs := dest is s }) ∧
    moves (.brc m neg off) { descControl with va := opM m } cond (fun _ _ => True) (fun is s => { pcs := cond is s }) ∧
    moves (.brx a) { descControl with va := opV a false } reg (fun _ _ => True) (fun is s => { pcs := reg is s }) ∧
    moves (.call off) descControl dest (fun is s => deep is s = false) (fun is s =>
      { pcs := dest is s, pool := is.lanes.map (fun l => (is.core, rowAddr is.rb is.l.regs (is.depth s l) l, toBytes 4 (is.pc + 4))) }) ∧
    Traps (.call off) descControl (fun is s => lands is s (dest is s) ∧ deep is s = true) causeSTACK (fun is _ => is.l.cdepth) ∧
    moves .ret descControl back callers (fun is s =>
      { pcs := back is s, pool := is.lanes.map (fun l => (is.core, rowAddr is.rb is.l.regs (is.depth s l - 1) l, toBytes 4 0)) }) ∧
    Traps .ret descControl (fun is s => lands is s (back is s) ∧ ¬callers is s) causeSTACK (fun _ _ => 0)

/-- R127 to R129, R189 to R192, R325: EXIT clears the entry's live bits, and the last one retires the Group; YIELD and CHK end the Chunk;
NOP, JOIN, LEAVE, WAITM, PRIO, SHINT. -/
def Obligations.FrontierWords : Prop :=
  ∀ (d p c : Nat),
    let plain : Desc := { vec := false }
    let mask : Desc := { vec := false, vd := opM d, mdst := some d }
    let left (is : Issue) (s : State) : Nat := maskOf ((lanesOf (s.liveMask is.core is.slot)).filter (fun l => !is.lanes.contains l))
    let gone (is : Issue) (s : State) : Eff := { stay := true, raw := [(mAddr is.rb 0, toBytes 4 (left is s))] }
    Performs .exit descControl (fun is s => left is s = 0) (fun is s => { gone is s with ends := some .retire }) ∧
    Performs .exit descControl (fun is s => left is s ≠ 0 ∧ barsMet (left is s) is.g.lanes = none) gone ∧
    Performs .yield descControl always (fun is _ => { ends := some .run, acts := [.yield (is.lanes.headD 0)] }) ∧
    Performs .nop plain always (fun _ _ => {}) ∧
    Performs (.join d) mask always (fun is s => { raw := [(mAddr is.rb d, toBytes 4 (is.mRd s d ||| maskOf is.lanes))] }) ∧
    Performs (.leave d) mask always (fun is s =>
      { raw := [(mAddr is.rb d, toBytes 4 (is.mRd s d &&& maskOf (lanes32.filter (fun l => !is.lanes.contains l))))] }) ∧
    Performs (.waitm d) { vec := false, vd := opM d } (fun is s => ¬(is.g.chunk.phase = .soloRun ∧ waitmParks is s d = true))
      (fun _ _ => { stay := true, wait := .waitm d }) ∧
    Performs (.prio p) { vec := false, closes := true, alone := true } always (fun _ _ => { prio := some p }) ∧
    Performs (.shint c) { vec := false, alone := true } always (fun is _ => { post := shintEffect c is.core is.slot }) ∧
    Performs .chk { vec := false, closes := true, alone := true } always (fun _ _ => { ends := some .run })

/-- R122 to R126: XPFX and LIMM, in the places that R122 gives them, join the sequence in progress: they count as words, and the entry
stays chosen; elsewhere they trap ILL under reason 6.
The model's choices in it, not the manual's: notes/assumptions, log 81. -/
def Obligations.SequenceWords : Prop :=
  ∀ (s : State) (c slot pc : Nat) (lanes : List Nat) (g : Group), s.cur = some (c, slot, pc, lanes) → s.group? c slot = some g →
    let is := mkIssue s c slot pc lanes g
    let fits : Prop := g.seq.n ≠ 0 ∨ ∃ n, s.seqLen c g.failed pc 4 = .got n ∧
      (g.chunk.words = 0 ∨ g.chunk.words + n ≤ 2 ^ statLimlog (s.chunkstat c slot))
    let joins (q : Seq) : State := (stallOn is s).modGroup c slot (fun x =>
      { x with seq := { q with n := x.seq.n + 1, first := is.first }, ydem := x.ydem - 1, pend := countWindows lanes x.pend,
               chunk := { x.chunk with words := x.chunk.words + 1 } })
    (∀ (f4s f4en sat zero : Bool) (f4 rm m : Nat),
      (g.seq.xp = none → g.seq.limms = [] → fits → exec (.xpfx f4s f4en f4 sat rm zero m) s =
        .next (joins { g.seq with xp := some { f4s := f4s, f4en := f4en, f4 := f4, sat := sat, rm := rm, zero := zero, mask := m } })) ∧
      (g.seq.xp.isSome ∨ g.seq.limms ≠ [] → exec (.xpfx f4s f4en f4 sat rm zero m) s =
        .next (s.trapAt c slot causeILL (illVal .sequence) is.first lanes))) ∧
    (∀ (hi : Bool) (v : Nat),
      (g.seq.limms.length < 2 → (∀ x ∈ g.seq.limms, x.1 ≠ hi) → fits → exec (.limm hi v) s =
        .next (joins { g.seq with limms := g.seq.limms ++ [(hi, v)] })) ∧
      (2 ≤ g.seq.limms.length ∨ (∃ x ∈ g.seq.limms, x.1 = hi) → exec (.limm hi v) s =
        .next (s.trapAt c slot causeILL (illVal .sequence) is.first lanes)))

/-- R183, R184: the fused softmax run performs its five words as one: maximum, exponentials and sum of each tile, nothing written before
every check has passed; an enabled condition traps FPE.
The model's choices in it, not the manual's: notes/assumptions, logs 6, 11, 19. -/
def Obligations.FusedSoftmax : Prop :=
  ∀ (r : FusedRun),
    let here (is : Issue) (s : State) : Issue :=
      let x := r.xp.getD Xpfx.none
      { is with x := x, active := is.lanes.filter (bitAt (if x.mask < 12 then is.mRd s x.mask else 0)) }
    let ready (is : Issue) (s : State) : Prop :=
      s.fusedLook is.core is.g.failed is.pc = .got r ∧
        (is.g.mirrored && !(here is s).active.isEmpty && s.glitch.contains s.steps) = false ∧
        ¬(0 < is.g.chunk.words ∧ 2 ^ statLimlog (s.chunkstat is.core is.slot) < is.g.chunk.words + r.words) ∧
        fusedCheck r (here is s) s = none
    let fpe (is : Issue) (s : State) : Option Nat := fpeVal is.l.fpen (fusedValues r (here is s) s).2.2.2
    Performs .fusedSoftmax {} (fun is s => ready is s ∧ fpe is s = none) (fun is s =>
      let v := fusedValues r (here is s) s
      { pool := (here is s).vWrites r.vm 1 v.1 ++ (here is s).vWrites r.vd 1 v.2.1 ++ (here is s).vWrites r.vs 1 v.2.2.1
        pcs := is.lanes.map (fun l => (l, is.pc + 4 * r.words)), post := countRun (r.words - 1) (here is s) }) ∧
    Traps .fusedSoftmax {} (fun is s => ready is s ∧ fpe is s ≠ none) causeFPE (fun is s => (fpe is s).getD 0) ∧
    (∀ s is off, Issues {} s is → s.fusedLook is.core is.g.failed is.pc = .needs off →
      exec .fusedSoftmax s = .next (s.awaitWalk is.core is.slot is.lanes (is.l.codebase + off) .fetch))

/-- R117, R138, R279, R349: a word that is no instruction traps ILL under its reason; a fetch that is refused traps PROT with its offset,
one whose fault XFAIL ended traps XLATE, and one without a translation waits for the walk.
The model's choices in it, not the manual's: notes/assumptions, logs 11, 26. -/
def Obligations.NoInstruction : Prop :=
  ∀ (s : State) (c slot pc : Nat) (lanes : List Nat) (g : Group) (r : IllReason), s.cur = some (c, slot, pc, lanes) → s.group? c slot = some g →
    let is := mkIssue s c slot pc lanes g
    let trap (cause val : Nat) : Host.Outcome State Fault Refusal := .next (s.trapAt c slot cause val is.first lanes)
    exec (.wordNotInstruction r) s = trap causeILL (0x200 + illCode r) ∧
    (s.fetch c g.failed pc = .refused → exec .codeFetchFault s = trap causePROT pc) ∧
    (s.fetch c g.failed pc = .failed → exec .codeFetchFault s = trap causeXLATE (0xA0 + lanes.headD 0)) ∧
    (s.fetch c g.failed pc = .untranslated →
      exec .codeFetchFault s = .next (s.awaitWalk c slot lanes ((s.launchAt c).codebase + pc) .fetch))

/-! ## System words -/

/-- R257 to R264: TRAP, TRET, SREGR of a scalar register, SREGW, WAITT, CAPQ, BKPT, SYNCI.
The model's choices in it, not the manual's: notes/assumptions, log 64. -/
def Obligations.SystemWords : Prop :=
  ∀ (h x : Bool) (c d a : Nat),
    let code (is : Issue) (s : State) : Nat := is.sRd s d
    let later (is : Issue) (s : State) : Prop := timeReached s.sec s.ns (is.sRd s (d + 1)) (is.sRd s d) = true
    let reg (is : Issue) (s : State) : Eff :=
      let latch := if a = 11 then [(is.rb + offWtimeh, toBytes 4 (wtimehLatch s))] else []
      if x then { raw := latch ++ [(sAddr is.rb d, toBytes (if sregWide a then 8 else 4) (is.sreg s a (is.lanes.headD 0)))] }
      else { raw := latch, pool := is.lanes.foldl (fun acc l =>
        acc ++ (if sregWide a then [(is.core, vAddr is.rb d l, toBytes 4 (is.sreg s a l)), (is.core, vAddr is.rb (d + 1) l, toBytes 4 (is.sreg s a l / 2 ^ 32))]
          else [(is.core, vAddr is.rb d l, toBytes 4 (is.sreg s a l))])) [] }
    Performs (.trap h c) descControl always (fun is _ =>
      { ends := some (.trap { cause := causeTRAP, code := h.toNat * 128 + c, val := 0, pc := is.pc + 4 } is.lanes) }) ∧
    Performs .tret { vec := false } (fun is _ => is.g.inTrap.isSome) (fun is _ => { post := fun s => s.leaveTrap is.core is.slot is.lanes }) ∧
    Traps .tret { vec := false } (fun is _ => is.g.inTrap.isNone) causePROT (fun _ _ => 0x500) ∧
    Performs (.sregr x d a) { vec := false, vd := if x then opS d (sregWide a) else opV d (sregWide a) } always reg ∧
    Performs (.sregw d a) { descControl with vd := opS d false }
      (fun is s => a = 13 ∨ a = 17 ∨ (a = 9 ∧ code is s % 8 ∈ [1, 2, 3, 4, 5]))
      (fun is s => { ends := some .run, acts := [.sregw a (code is s)] }) ∧
    Traps (.sregw d a) { descControl with vd := opS d false } (fun _ _ => a ≠ 9 ∧ a ≠ 13 ∧ a ≠ 17) causePROT (fun _ _ => a) ∧
    Performs (.waitt d) { vec := false, vd := opS d true } (fun is s => is.sRd s d < 10 ^ 9 ∧ later is s) (fun _ _ => {}) ∧
    Waits (.waitt d) { vec := false, vd := opS d true } (fun is s => is.sRd s d < 10 ^ 9 ∧ ¬later is s)
      (fun is s => .time (is.sRd s (d + 1)) (is.sRd s d)) ∧
    Traps (.waitt d) { vec := false, vd := opS d true } (fun is s => 10 ^ 9 ≤ is.sRd s d) causePROT (fun _ _ => 0x600) ∧
    Performs (.capq d) { vec := false, vd := opS d true } always
      (fun is s => is.sResult64 d (s.capacity is.ctx + (s.ctx is.ctx).capcount * 2 ^ 32)) ∧
    Performs .bkpt { vec := false } (fun is s => (s.ctx is.ctx).dbg = false) (fun _ _ => {}) ∧
    (∀ s is, Issues { vec := false } s is → (s.ctx is.ctx).dbg = true → exec .bkpt s = .next (s.endChunk is.core is.slot (.halt is.lanes))) ∧
    Performs .synci { vec := false } always (fun is _ => { post := fun s => s.setCore is.core { s.core is.core with icache := [] } })

/-! ## Memory words -/

/-- R193 to R198: LD and LDA: the registers are pending with the data that the scope reads; a misaligned active lane traps ALIGN, and an
address above 2^57 PROT.
R199, R200, R92: ST buffers one item for each active lane, in lane order; STL does so as the first word of its Chunk, which the Chunk
before it makes way for, and releases at device scope.
The model's choices in it, not the manual's: notes/assumptions, logs 9, 28. -/
def Obligations.GlobalMemoryWords : Prop :=
  (∀ (l d a : Nat) (x : Bool) (c : Scope) (z : Size),
     let ds := descLoad l x d a z
     let els (is : Issue) (s : State) : List (Nat × Nat) := is.elements s x a is.active
     let askew (is : Issue) (s : State) : Option Nat := badLane (els is s) (fun v => v % sizeBytes z != 0)
     let high (is : Issue) (s : State) : Option Nat := badLane (els is s) (fun v => decide (2 ^ 57 ≤ v))
     Performs (.ld l x d a c z) ds (loadReady x a c z) (loadEff false l x d a c z) ∧
     Performs (.lda l x d a c z) ds (loadReady x a c z) (loadEff true l x d a c z) ∧
     Traps (.ld l x d a c z) ds (fun is s => (askew is s).isSome) causeALIGN (fun is s => (askew is s).getD 0) ∧
     Traps (.lda l x d a c z) ds (fun is s => (askew is s).isSome) causeALIGN (fun is s => (askew is s).getD 0) ∧
     Traps (.ld l x d a c z) ds (fun is s => askew is s = none ∧ (high is s).isSome) causePROT (fun is s => (high is s).getD 0 + 32)) ∧
  (∀ (l d a : Nat) (x : Bool) (c : Scope) (z : Size),
     let ds := { descStore x d a z with look := some l }
     let dl := { descStore x d a z with closes := true }
     let askew (is : Issue) (s : State) : Option Nat := badLane (is.elements s x a is.active) (fun v => v % sizeBytes z != 0)
     Performs (.st l x d a c z) ds (storeReady x a c z) (storeEff x d a c z) ∧
     let alone (is : Issue) (s : State) : Prop := c = .cl ∨ is.g.chunk.phase ≠ .soloRun ∨ s.checkedOut (clusterOf is.core) = []
     Performs (.stl x d a c z) dl (fun is s => is.g.chunk.words ≤ is.g.seq.n ∧ alone is s ∧ storeReady x a c z is s) (fun is s =>
       let e := storeEff x d a c z is s
       { e with post := fun t => e.post (if c == .cl then t else t.release is.core is.slot) }) ∧
     (∀ s is, Issues dl s is → is.g.seq.n < is.g.chunk.words → exec (.stl x d a c z) s = .next (s.endChunk is.core is.slot .run)) ∧
     Traps (.st l x d a c z) ds (fun is s => (askew is s).isSome) causeALIGN (fun is s => (askew is s).getD 0))

/-- R79, R92, R202 to R205: LDS, LDW and LDP leave their registers pending with the bytes of scratchpad, cluster window or pool; STS and
STP write at once; STW lands after the commit; a misaligned lane traps ALIGN.
R213, R105: PREF has no effect that a program sees; EVICT and CKIN act on their lines at commit.
The model's choices in it, not the manual's: notes/assumptions, logs 29, 80. -/
def Obligations.LocalMemoryAndCacheWords : Prop :=
  (∀ (l d a : Nat) (x : Bool) (z : Size),
     let ds := descLocal l x d a z
     let load (sp : LocalSpace) (is : Issue) (s : State) : Eff := pendingLoad is s l d (sizeRegs z) (localData sp x a z is s) false []
     let store (sp : LocalSpace) (is : Issue) (s : State) : Eff :=
       { pool := (is.locals s x a).map (fun e =>
           let p := is.spot s sp e.2 (sizeBytes z)
           (p.1, p.2.1, is.data s d (sizeBytes z) e.1)) }
     let askew (is : Issue) (s : State) : Option Nat := badLane (is.locals s x a) (fun v => v % sizeBytes z != 0)
     Performs (.lds l x d a z) ds (localReady .scratch false x a z) (load .scratch) ∧
     Performs (.ldw l x d a z) ds (localReady .window false x a z) (load .window) ∧
     Performs (.ldp l x d a z) ds (localReady .pool false x a z) (load .pool) ∧
     Performs (.sts l x d a z) ds (localReady .scratch true x a z) (store .scratch) ∧
     Performs (.stp l x d a z) ds (localReady .pool true x a z) (store .pool) ∧
     Performs (.stw l x d a z) ds (fun is s => localFault is s .window true (is.locals s x a) (sizeBytes z) = none) (fun is s =>
       { acts := (is.locals s x a).map (fun e =>
           let p := is.spot s .window e.2 (sizeBytes z)
           .stw p.1 p.2.1 (is.data s d (sizeBytes z) e.1)) }) ∧
     Traps (.lds l x d a z) ds (fun is s => (askew is s).isSome) causeALIGN (fun is s => (askew is s).getD 0) ∧
     Traps (.sts l x d a z) ds (fun is s => (askew is s).isSome) causeALIGN (fun is s => (askew is s).getD 0)) ∧
  (∀ (l a : Nat) (x : Bool) (m : Level),
     let ok (is : Issue) (s : State) : Prop := globalFault is s (is.elements s x a is.lanes) 1 .load isHost = none
     let act (f : Nat → AtCommit) (is : Issue) (s : State) : Eff :=
       let els := is.elements s x a is.lanes
       { acts := (unionNat [] ((els.map (fun e => is.pa s e.2)).map lineNo)).map f, pages := usedPages is s els }
     Performs (.pref l x a m) (descCache l x a) always (fun _ _ => {}) ∧
     Performs (.evict l x a m) (descCache l x a) ok (act (fun ln => if m == .l1 then .evict ln else .evictHome ln)) ∧
     Performs (.ckin l x a) (descCache l x a) ok (act .ckin))

/-- R206 to R210: RED and ATOM near, far and at cluster scope. -/
def Obligations.Atomics : Prop :=
  ∀ (l d a : Nat) (p : Place) (w : Bool) (o : AtomOp),
    let ds := descAtom l d a w o
    let da (alone : Bool) := descAtom l d a w o alone
    let way (alone : Bool) (s : State) : Prop := atomAlone a p s = alone
    let n := atomBits w
    let sects (is : Issue) (s : State) : List Nat := sectorSet (is.pas s false a) (n / 8)
    let pages (is : Issue) (s : State) : List (Nat × Nat) := usedPages is s (is.elements s false a is.active)
    let near (is : Issue) (s : State) : List BufItem × List (Nat × Nat) := nearElements s is.g.chunk.buf o n (is.atoms s w o d a) [] []
    let clear (is : Issue) (s : State) : Prop := lineWait is s (is.pas s false a) = none
    let uce (is : Issue) (s : State) : Bool := (is.pas s false a).any (fun pa => s.poisonedPast is.g.chunk.buf pa (n / 8))
    let first (is : Issue) : Prop := is.g.chunk.words ≤ is.g.seq.n
    let home (is : Issue) (s : State) : Prop := ownCheckedOut is s (is.pas s false a) = none
    let saved (is : Issue) (s : State) : List (Nat × Nat × List Byte) := resultUndo is s d (if w then 2 else 1) ++ zeroWrites is d (if w then 2 else 1)
    Performs (.red l d a p w o) ds (fun is s => atomAt w a p .near is s ∧ clear is s) (fun is s =>
      { buf := (near is s).1, reads := sects is s, writes := sects is s, pages := pages is s
        near := unionNat [] ((is.pas s false a).map lineNo)
        post := fun t => learnHeld is.core (is.pas s false a) (if uce is s then (t.unparkReq is.req).consumeUCE is.core is.slot is.first
          else t.unparkReq is.req) }) ∧
    (∀ al, Performs (.atom l d a p w o) (da al) (fun is s => way al s ∧ atomAt w a p .near is s ∧ clear is s) (fun is s =>
      { pendingLoad is s l d (if w then 2 else 1)
          (fun lane => (((near is s).2.find? (fun e => e.1 == lane)).map (fun e => e.2)).getD 0) (uce is s) (is.pas s false a) with
        buf := (near is s).1, reads := sects is s, writes := sects is s, pages := pages is s
        near := unionNat [] ((is.pas s false a).map lineNo)
        post := fun t => learnHeld is.core (is.pas s false a) (((t.unparkReq is.req).request is.core is.slot (is.pas s false a)).due [.loadReturn is.core is.slot]) })) ∧
    Performs (.red l d a p w o) ds (fun is s => atomAt w a p .far is s ∧ home is s) (fun is s =>
      { writes := sects is s, pages := pages is s
        buf := (is.atoms s w o d a).map (fun e => .farRed is.first e.2.1 o n e.2.2.1) }) ∧
    (∀ al, Performs (.atom l d a p w o) (da al)
      (fun is s => way al s ∧ atomAt w a p .far is s ∧ first is ∧ home is s ∧ parking is s (is.pas s false a) = none) (fun is s =>
      { pool := saved is s, reads := sects is s, writes := sects is s, pages := pages is s, ends := some .run, post := fun t => t.unparkReq is.req
        buf := (is.atoms s w o d a).map (fun e => .farAtom is.first e.2.1 o n e.2.2.1 e.2.2.2 (retAddr is d e.1)) })) ∧
    Performs (.red l d a p w o) ds (fun is s => atomAt w a p .cl is s ∧ clusterWriteWait is s (is.pas s false a) = none) (fun is s =>
      { clw := sects is s, pages := pages is s, post := fun t => t.unparkReq is.req
        buf := (is.atoms s w o d a).map (fun e => .clRed e.2.1 o n e.2.2.1) }) ∧
    (∀ al, Performs (.atom l d a p w o) (da al)
      (fun is s => way al s ∧ atomAt w a p .cl is s ∧ first is ∧ clusterWriteWait is s (is.pas s false a) = none) (fun is s =>
      { pool := saved is s, clw := sects is s, pages := pages is s, post := fun t => t.unparkReq is.req, ends := some .run
        buf := (is.atoms s w o d a).map (fun e => .clAtom e.2.1 o n e.2.2.1 e.2.2.2 (retAddr is d e.1)) }))

/-! ## Synchronization -/

/-- R110, R212, R214 to R216: the fences end their Chunk and wait after its commit; RWR sends a register of its lanes after the commit;
ARVW goes on once the counter has reached the threshold.
R217 to R220: the Barrier instructions on Barriers 0 to 47; above 47 they trap PROT.
The model's choices in it, not the manual's: notes/assumptions, logs 12, 32, 82, 83, 87. -/
def Obligations.FenceAndBarrierWords : Prop :=
  (∀ (l d a m : Nat),
     let dr := { descEnds with vd := opV d false, va := opV a false, vb := opS m false }
     let x (is : Issue) (s : State) : Nat := is.sRd s m
     let core (is : Issue) (s : State) : Nat := is.core / 4 * 4 + x is s % 4
     let target (is : Issue) (s : State) : Option Group := s.group? (core is s) (field (x is s) 12 8)
     let legal (is : Issue) (s : State) : Prop :=
       rwrResOk (x is s) = true ∧ (s.core (core is s)).kernel = (s.core is.core).kernel
     let reached (is : Issue) (s : State) : Prop := counterReached (is.g.arrival.getD a 0) (is.sRd s d) = true
     Performs .fenceCl descEnds always (fun _ _ => { ends := some (.fence .cl) }) ∧
     Performs .fenceDv descEnds always (fun _ _ => { ends := some (.fence .dv) }) ∧
     Performs .fenceSy descEnds always (fun _ _ => { ends := some (.fence .sy) }) ∧
     Performs .fenceSv descEnds always (fun _ _ => { ends := some (.fence .sv) }) ∧
     (∀ u, Performs (.rwr d a m) dr (fun is s => (target is s).map (fun g => g.uid) = some u ∧ legal is s) (fun is s =>
       { ends := some .run
         acts := [.rwr (core is s) (field (x is s) 12 8) u d (field (x is s) 19 16) (is.lanes.map (fun l => (l, is.vRd s a l)))] })) ∧
     Traps (.rwr d a m) dr (fun is s => target is s = none ∨ ¬legal is s) causePROT x ∧
     Performs (.arvw l d a) { vec := false, vd := opS d false, look := some l } reached (fun _ _ => {}) ∧
     Waits (.arvw l d a) { vec := false, vd := opS d false, look := some l } (fun is s => ¬reached is s)
       (fun is s => .arrival a (is.sRd s d))) ∧
  (∀ (x : Bool) (d a : Nat),
     let b (is : Issue) (s : State) : Nat := if x then a else is.sRd s a
     let ok (is : Issue) (s : State) : Prop := b is s ≤ 47
     let event (op : Issue → State → BarOp) (is : Issue) (s : State) : Eff :=
       { ends := some .run, acts := [.barrier (op is s) (b is s) is.first is.lanes] }
     let parked (is : Issue) (s : State) : Eff := { stay := true, wait := .bars (b is s) }
     let together (is : Issue) (s : State) : Option (Nat × Nat) :=
       barsMet (s.liveMask is.core is.slot) (moveLanes is (parked is s) is.g.lanes)
     Performs (.bari x d a) { descBar x a with vd := opS d false } ok (event (fun is s => .init (is.sRd s d))) ∧
     Performs (.bara x a) (descBar x a) ok (event (fun _ _ => .arrive)) ∧
     Performs (.bard x a) (descBar x a) ok (event (fun _ _ => .drop)) ∧
     Performs (.barw x a) (descBar x a) ok (fun is s => { event (fun _ _ => .wait) is s with wait := .sent (b is s) }) ∧
     Performs (.bart x d a) { descBar x a with vd := opM d, mdst := some d } ok (event (fun _ _ => .test d)) ∧
     Performs (.barq x d a) { descBar x a with vd := opS d false } ok (event (fun _ _ => .query d)) ∧
     Performs (.bars x a) (descBar x a) (fun is s => ok is s ∧ together is s = none) parked ∧
     (∀ k pc, Performs (.bars x a) (descBar x a) (fun is s => ok is s ∧ together is s = some (k, pc))
       (fun is s => barsEnds is.core is.slot (s.liveMask is.core is.slot) k pc (parked is s))) ∧
     Traps (.bara x a) (descBar x a) (fun is s => ¬ok is s) causePROT (fun is s => 0x100 + b is s) ∧
     Traps (.barw x a) (descBar x a) (fun is s => ¬ok is s) causePROT (fun is s => 0x100 + b is s))

/-- R232 to R235, R250 to R255: PUSH reads its command at issue; WAITTL and TLRD of a timeline; stage rings; CONT.
R255: CONT sends one record for each lane, once its die's store has room for them; until then the Group waits.
The model's choices in it, not the manual's: notes/assumptions, logs 26, 82. -/
def Obligations.QueueAndContinuationWords : Prop :=
  (∀ (x : Bool) (p f a d r : Nat),
     let dp := { descControl with vd := opS (2 * p) true ++ opM f, mdst := some f }
     let pair : Desc := { vec := false, vd := opS d true }
     let dr : Desc := { vec := false, va := if x then [] else opS a false }
     let cmd (is : Issue) (s : State) : List Byte :=
       (upFrom 0 16).foldl (fun acc i => acc ++ toBytes 4 (is.sRd s ((if x then 16 else 0) + i))) []
     let done (is : Issue) (s : State) : Prop := is.sPair s d ≤ (s.timeline is.ctx a).count
     let slot (is : Issue) (s : State) : Nat := if x then a else is.sRd s a
     let ring (h c : Nat) (is : Issue) (s : State) : Prop :=
       (is.team s).bind (fun t => t.ring? r) = some (h, c) ∧ slot is s < ((s.core c).ring h).slots
     let full (h c : Nat) (is : Issue) (s : State) : Bool := ((s.core c).ring h).full (slot is s)
     Performs (.push x p f a) dp (fun is s => (pushFault s is.ctx is.g.role a (cmd is s)).isNone)
       (fun is s => { ends := some .run, acts := [.push a (cmd is s) (2 * p) f is.lanes] }) ∧
     Traps (.push x p f a) dp (fun is _ => is.g.role ≠ queueRole a) causeROLE (fun _ _ => a) ∧
     Performs (.waittl d a) pair done (fun is _ => { post := fun s => s.dropReadCopies (clusterOf is.core) }) ∧
     Waits (.waittl d a) pair (fun is s => ¬done is s) (fun is s => .timeline a (is.sPair s d)) ∧
     Performs (.tlrd d a) pair always (fun is s => is.sResult64 d (s.timeline is.ctx a).count) ∧
     (∀ h c, Performs (.ringp x a r) dr (fun is s => ring h c is s ∧ full h c is s = false) (fun is s => { acts := [.ringp c h (slot is s)] }) ∧
       Waits (.ringp x a r) dr (fun is s => ring h c is s ∧ full h c is s = true) (fun is s => .ringEmpty r (slot is s)) ∧
       Performs (.ringc x a r) dr (fun is s => ring h c is s ∧ full h c is s = true)
         (fun is _ => { post := fun s => s.dropReadCopies (clusterOf is.core) }) ∧
       Waits (.ringc x a r) dr (fun is s => ring h c is s ∧ full h c is s = false) (fun is s => .ringFull r (slot is s)) ∧
       Performs (.ringcRel x a r) dr (ring h c) (fun is s => { acts := [.ringrel c h (slot is s)] })) ∧
     Traps (.ringp x a r) dr (fun is s => (is.team s).bind (fun t => t.ring? r) = none) causePROT (fun _ _ => 0x900 + r)) ∧
  (∀ (d a : Nat),
     let dc := { descControl with vd := [{ file := .v, num := d, count := 15, align := 1 }], va := opS a false }
     let entry (is : Issue) (s : State) : Nat := is.sRd s a
     let good (is : Issue) (s : State) : Prop :=
       entry is s % 4 = 0 ∧ entry is s + 4 ≤ is.l.codelen ∧ prioAt is s (entry is s) = some true
     let room (is : Issue) (s : State) : Prop :=
       is.lanes.length ≤ s.roomOf is.core is.g.uid ∨ is.lanes.length ≤ (s.store (dieOf is.core)).free
     Performs (.cont d a) dc (fun is s => good is s ∧ room is s) (fun is s =>
       { ends := some .run
         acts := [.cont (dieOf is.core) ((s.core is.core).kernel.getD 0) (prioVal is s (entry is s)) (is.lanes.map (fun l =>
           toBytes 4 (entry is s) ++ (upFrom 0 15).foldl (fun acc i => acc ++ toBytes 4 (is.vRd s (d + i) l)) []))]
         post := fun s => s.reserveRoom (dieOf is.core) is.g.uid is.lanes.length }) ∧
     Waits (.cont d a) dc (fun is s => good is s ∧ ¬room is s) (fun is _ => .room is.lanes.length) ∧
     Traps (.cont d a) dc (fun is s => entry is s % 4 ≠ 0) causeALIGN (fun _ _ => 0))

/-! ## The matrix array -/

/-- R222 to R231: MMA takes its place in the core's order with its operands as they stand; MZERO, MRD and MWR of a tile that no earlier
MMA holds.
The model's choices in it, not the manual's: notes/assumptions, logs 10, 31, 63, 84, 85. -/
def Obligations.MatrixWords : Prop :=
  ∀ (l n a slot d : Nat) (q : Act) (w : TileWindow),
    let dm : Desc := { vec := false, vd := opTile n, va := opS a false, look := some l }
    let dz : Desc := { vec := false, vd := opTile n, look := some l }
    let dw : Desc := { vec := false, lim := .window, vd := opRange d w.n, va := opTile n, look := some l }
    let words (is : Issue) (s : State) : List Nat := (upFrom 0 4).map (fun i => is.sRd s (a + i))
    let m (is : Issue) (s : State) : MmaDesc := mmaDesc (words is s)
    let sl (is : Issue) : Slot := is.l.slot slot
    let legal (is : Issue) (s : State) (t : Team) : Prop :=
      a ≤ 28 ∧ is.g.role = .matrix ∧ slotBad (sl is) [0, 1, 2, 3] = false ∧ pairOk q (sl is) = true ∧
        mmaProt (m is s) q (sl is) (256 * t.tscr) = none
    let free (is : Issue) (s : State) (t : Team) : Prop :=
      (actRanges (m is s) q ++ weightRanges (m is s) (sl is) ++ scaleRanges (m is s) (sl is)).any
        (fun r => s.boardHits t.home (t.scr r.1) r.2) = false ∧ tileWait is s n true = none
    let window (s : State) : Prop := windowOf (seqImm s) = w ∧ w.res = 0 ∧ w.row + w.n ≤ 64
    let part (is : Issue) (s : State) : Nat := (s.core is.core).poolpart
    let done (is : Issue) (s : State) : State := s.leavePlaces is.core is.slot is.g.uid
    (∀ t, Performs (.mma l q n a slot) dm (fun is s => is.team s = some t ∧ legal is s t ∧ free is s t) (fun is s =>
      { tiles := [n]
        post := issueMma is { owner := (is.slot, is.g.uid), follow := none, tile := n, act := q, slotIdx := slot, desc := words is s,
                              snap := (s.core t.home).pool.slice (t.scr 0) (256 * t.tscr), pc := is.first, retries := 0 } })) ∧
    Traps (.mma l q n a slot) dm (fun is s => (is.team s).isSome ∧ a ≤ 28 ∧ is.g.role ≠ .matrix) causeROLE (fun _ _ => 1) ∧
    Performs (.mzero l n) dz (fun is s => is.g.role = .matrix ∧ tileWait is s n false = none) 
      (fun is _ => { tiles := [n], post := fun s => done is (zeroTile is n s) }) ∧
    Traps (.mzero l n) dz (fun is _ => is.g.role ≠ .matrix) causeROLE (fun _ _ => 1) ∧
    Performs (.mrd l d n) dw (fun is s => window s ∧ tileReady is s n = true) (fun is s =>
      let ws := (upFrom 0 w.n).foldl (fun acc r => acc ++ is.lanes.map (fun ln =>
        (vAddr is.rb (d + r) ln, (s.core is.core).pool.bytes (windowAddr (part is s) n w r ln) 4))) []
      { pool := ws.map (fun x => (is.core, x.1, (s.core is.core).pool.bytes x.1 4))
        pend := some { pc := is.first, regs := (upFrom d w.n).map (fun r => (.v, r)), win := if l = 0 then none else some (is.lanes, l),
                       writes := ws, uce := false, since := s.clk, chans := [] }
        post := fun s => done is (s.due [.loadReturn is.core is.slot]) }) ∧
    Performs (.mwr l d n) dw (fun is s => window s ∧ is.g.role = .matrix ∧ tileWait is s n false = none) (fun is s =>
      let ws := (upFrom 0 w.n).foldl (fun acc r => acc ++ is.lanes.map (fun ln =>
        (windowAddr (part is s) n w r ln, toBytes 4 (is.vRd s (d + r) ln)))) []
      { tiles := [n], post := fun s => done is (ws.foldl (fun s x => s.poolPut is.core x.1 x.2) (takeCheckpoint is n s)) })

/-! ## Chunks and their order -/

/-- R87, R89, R96: an ended Chunk waits for its long-latency words, its walks and its MMAs; then it commits locally when it writes nothing at device scope,
alone in a solo holding, and otherwise is offered to its die's arbiter.
The model's choices in it, not the manual's: notes/assumptions, log 78. -/
def Obligations.ChunkReady : Prop :=
  ∀ (s : State) (c slot : Nat) (g : Group), s.group? c slot = some g → g.state = .committing →
    let part := s.sealedOf (s.ctx (s.ctxAt c)).part
    let complete : Prop := g.pend = [] ∧ ownsMma (s.core c) slot g.uid = false ∧ s.accessWaits g = false
    let solo : Prop := g.chunk.phase = .soloRun
    let writes : Bool := g.chunk.buf.any needsStamp
    (¬complete → exec (.chunkReady c slot) s = .next (s.due [.chunkReady c slot])) ∧
    (complete → solo → s.chunkWaits c g = false →
      exec (.chunkReady c slot) s = .next ((s.commitChunk c slot).releaseSolo c slot g.uid part)) ∧
    (complete → ¬solo → writes = false → s.commitBlocked c g = false → exec (.chunkReady c slot) s = .next (s.commitChunk c slot)) ∧
    (complete → ¬solo → writes = true → (∀ o ∈ s.offers, o.what ≠ .chunk c slot g.uid) →
      exec (.chunkReady c slot) s = .next
        { s with offers := s.offers ++ [{ die := dieOf c, clk := g.chunk.endClk, what := .chunk c slot g.uid }]
                 agenda := s.agenda ++ [.commitBatch part] })

/-- R72, R89, R90, R93, R98: a Chunk whose buffer holds device stores only commits: its stores become one difference under the next stamp
of its sealed partition, on their way to the homes; memory itself stands; the Group runs on with a fresh Chunk, and chunkstat returns
to limlog 12 and sqcnt 0 with solo clear. A Chunk without stores takes no stamp.
The model's choices in it, not the manual's: notes/assumptions, log 68. -/
def Obligations.ChunkCommits : Prop :=
  ∀ (s : State) (c slot kid : Nat) (g : Group), s.group? c slot = some g → (s.core c).kernel = some kid →
    (∀ it ∈ g.chunk.buf, ∃ sy near pa bytes, it = .store sy near pa bytes) → g.chunk.acts = [] → g.chunk.after = .run →
    g.capPending = none → Memory.wf (s.core c).pool = true →
    let part := s.sealedOf (s.ctx (s.ctxAt c)).part
    let t := s.commitChunk c slot
    let some_ : Prop := g.chunk.buf ≠ []
    (∃ g', t.group? c slot = some g' ∧ g'.state = .running ∧ g'.lanes = g.lanes ∧ g'.uid = g.uid ∧
      g'.chunk = freshChunk (t.uniformOf c slot) g.lanes g.inTrap) ∧
    t.mem = s.mem ∧
    (some_ → t.stamps.getD part 1 = s.stamps.getD part 1 + 1 ∧
      t.diffs = s.diffs ++ [{ part := part, die := dieOf c, stamp := s.stamps.getD part 1, items := g.chunk.buf, owner := some g.uid,
                                op := none, cluster := none, prot := s.protectedOf g.chunk.buf, rebuilt := false }]) ∧
    (¬some_ → t.stamps = s.stamps ∧ t.diffs = s.diffs) ∧
    statLimlog (t.chunkstat c slot) = 12 ∧ statSqcnt (t.chunkstat c slot) = 0 ∧ statSolo (t.chunkstat c slot) = false ∧
    statIovf (t.chunkstat c slot) = statIovf (s.chunkstat c slot)

/-- R82, R88, R89, R100: a squash leaves nothing of the Chunk: the lanes and every logged pool sector stand as they stood at its start,
its stores, effects and awaited words are gone, and memory and the order of stamps are untouched. A conflict raises sqcnt, limlog follows
it, and at 8 the Chunk stands in Solo-wait. -/
def Obligations.SquashRestores : Prop :=
  ∀ (s : State) (c slot : Nat) (conflict : Bool) (g : Group), s.group? c slot = some g →
    (∀ k, Memory.wf (s.core k).pool = true) → g.chunk.uniform.length = 256 → g.chunk.tiles = [] →
    (g.chunk.undo.map (fun e => (e.core, e.sector))).Nodup → (∀ e ∈ g.chunk.undo, e.bytes.length = 32) →
    let t := s.squash c slot conflict
    let rb := regBase (s.launchAt c) slot
    let n := if conflict then min 8 (statSqcnt (s.chunkstat c slot) + 1) else statSqcnt (s.chunkstat c slot)
    (∃ g', t.group? c slot = some g' ∧ g'.lanes = g.chunk.lanes ∧ g'.state = .running ∧ g'.pend = [] ∧ g'.inTrap = g.chunk.inTrap ∧
      g'.chunk = { freshChunk g.chunk.uniform g.chunk.lanes g.chunk.inTrap with phase := if n = 8 then .soloWait else .opened }) ∧
    (∀ e ∈ g.chunk.undo, (e.core = c → 32 * e.sector + 32 ≤ rb ∨ rb + 256 ≤ 32 * e.sector) →
      (t.core e.core).pool.bytes (32 * e.sector) 32 = e.bytes) ∧
    (∀ i, i < 256 → (i < offChunkstat ∨ offChunkstat + 4 ≤ i) → (t.core c).pool.read (rb + i) = g.chunk.uniform.getD i 0) ∧
    statSqcnt (t.chunkstat c slot) = n ∧ statLimlog (t.chunkstat c slot) = limlogAfter n ∧ statSolo (t.chunkstat c slot) = false ∧
    t.mem = s.mem ∧ t.diffs = s.diffs ∧ t.stamps = s.stamps ∧ (∀ o ∈ t.offers, o.what ≠ .chunk c slot g.uid)

/-- R89, R93 to R97, R101, R394, R395: the token passes to the next die with something to do that a way leads to, where a Solo-wait Chunk takes it
before a batch is formed; it stays while a Solo-run Chunk holds it. A broadcast, once its packet has come, squashes the Open and Ended Chunks
whose read signature intersects the sectors that it names, and no other. A solo holding of 20 µs returns its Chunk.
The model's choices in it, not the manual's: notes/assumptions, logs 8, 13. -/
def Obligations.ArbitersAndBroadcasts : Prop :=
  ∀ (s : State) (part : Nat),
    let next (d : Nat) : Prop :=
      (diesFrom (s.token.getD part 2)).find? (fun d => bitAt (s.part part).dmask d && s.arbiterBusy d &&
        (s.reaches (s.token.getD part 2) d || !bitAt (s.part part).dmask (s.token.getD part 2))) = some d
    let at_ (d : Nat) : State := { s with token := s.token.set part d }
    ((s.solo.get? part).isSome → exec (.commitBatch part) s = .next (s.due [.commitBatch part])) ∧
    (∀ d c slot uid, s.solo.get? part = none → next d → (at_ d).soloWaiting d = some (c, slot, uid) →
      exec (.commitBatch part) s = .next ((at_ d).startSolo part c slot uid)) ∧
    (∀ d, s.solo.get? part = none → next d → (at_ d).soloWaiting d = none →
      let t := ((at_ d).batch part (sortOffers (s.offers.filter (fun o => o.die == d && (at_ d).offerOpen o))) batchSize [] []).makeRooms d
      exec (.commitBatch part) s =
        .next (if t.offers.any (fun o => bitAt (s.part part).dmask o.die) then t.due [.commitBatch part] else t)) ∧
    (∀ c b r, (s.core c).inbox = b :: r → s.crossingTo c (castTag (s.partOfDie (dieOf c)) b.stamp) = false →
      let hit (e : Nat × Group) : Bool := (e.2.chunk.phase == .opened || e.2.chunk.phase == .ended) && sigHit e.2.chunk.reads b.sectors
      exec (.signatureBroadcast c) s = .next (((s.core c).groups.filter hit).foldl (fun s e => s.squash c e.1 true)
        (s.setCore c { s.core c with inbox := r, seen := b.stamp }))) ∧
    (∀ c b r, (s.core c).inbox = b :: r → s.crossingTo c (castTag (s.partOfDie (dieOf c)) b.stamp) = true →
      exec (.signatureBroadcast c) s = .next (s.due [.signatureBroadcast c])) ∧
    (∀ c slot g, s.solo = [(part, (c, slot, g.uid))] → s.group? c slot = some g →
      (g.chunk.soloNs + 20000 ≤ s.wall → exec .soloTimeout s = .next ((s.squash c slot false).releaseSolo c slot g.uid part)) ∧
      (s.wall < g.chunk.soloNs + 20000 → exec .soloTimeout s = .next (s.due [.soloTimeout])))

/-! ## Homes and landings -/

/-- R93, R98, R113, R363: the first difference of a sealed partition that nothing holds back is applied whole to memory, and nothing
else of memory changes; a host write joins the order as a unit of its own, or changes the host's own memory; a host read and the
completion of a host-memory write.
R360, R402: a parity difference in its turn is XORed into the parity block once and acknowledged; a duplicate is acknowledged again, an
early one waits, any other is dropped. An acknowledgement ends the wait for it, unless its holder is lost.
The model's choices in it, not the manual's: notes/assumptions, logs 60, 66, 68, 69. -/
def Obligations.DifferencesReachMemory : Prop :=
  (∀ (s : State) (part : Nat) (d : Diff),
     (s.nextDiff part s.diffs [] = some d → ∃ t, exec (.differenceApply part) s = .next t ∧
       t.mem = applyItems s.regions s.mem d.items ∧ t.diffs = s.diffs.erase d ∧ t.cores = s.cores ∧ t.ctxs = s.ctxs ∧ t.queues = s.queues ∧
       t.stamps = s.stamps) ∧
     (s.diffs = [] → exec (.differenceApply part) s = .next s) ∧
     (∀ sys die pa bytes, s.inAperture pa = false → pa < 2 ^ 40 → s.laneDie (s.hostPart pa) pa = some die →
       exec (.hostWrite sys pa bytes) s =
         .next { s with offers := s.offers ++ [{ die := die, clk := s.clk, what := .host [storeItem pa bytes] }]
                        agenda := s.agenda ++ [.commitBatch (s.hostPart pa)] }) ∧
     (∀ sys pa bytes, s.inAperture pa = false → pa < 2 ^ 40 → s.laneDie (s.hostPart pa) pa = none →
       exec (.hostWrite sys pa bytes) s = .next (s.due [.hostWrite sys pa bytes])) ∧
     (∀ sys pa bytes, s.inAperture pa = false → 2 ^ 49 ≤ pa → pa < 2 ^ 50 → ∃ t, exec (.hostWrite sys pa bytes) s = .next t ∧
       t = { s with mem := physPut s.regions s.mem pa bytes, agenda := t.agenda }) ∧
     (∀ sys die pa n, s.inAperture pa = false → pa < 2 ^ 40 → s.laneDie (s.hostPart pa) pa = some die →
       (∀ a ∈ upFrom pa n, s.waits die a = false) → exec (.hostRead { system := sys, pa := pa } n) s = .next { s with hostData := s.readPhys pa n }) ∧
     (∀ sys pa n, s.inAperture pa = false → 2 ^ 49 ≤ pa → pa < 2 ^ 50 →
       exec (.hostRead { system := sys, pa := pa } n) s = .next { s with hostData := physBytes s.regions s.mem pa n }) ∧
     (∀ id w, s.ncl.get? id = some w → exec (.nclAck id) s =
       .next (if (s.laneDie w.part w.pa).isSome then { s with ncl := s.ncl.erase id } else s.due [.nclAck id]))) ∧
  (∀ (s : State) (src seq stripe off stamp : Nat) (bytes : List Byte),
     let next := s.parityIn.getD src 0
     let ahead := (seq % 2 ^ 16 + 2 ^ 16 - next) % 2 ^ 16
     (2 ^ 15 ≤ ahead → exec (.parityDifference src seq stripe off stamp bytes) s =
       .next { s with parityAcks := s.parityAcks ++ [(src, seq)] }) ∧
     (0 < ahead → ahead < 256 → exec (.parityDifference src seq stripe off stamp bytes) s =
       .next (s.due [.parityDifference src seq stripe off stamp bytes])) ∧
     (256 ≤ ahead → ahead < 2 ^ 15 → exec (.parityDifference src seq stripe off stamp bytes) s = .next s) ∧
     (seq % 2 ^ 16 = next → s.stripeOnWay stripe = false → Memory.wf s.mem = true → off + bytes.length ≤ 4096 → stripe < 2 ^ 28 →
       ∃ t, exec (.parityDifference src seq stripe off stamp bytes) s = .next t ∧ t.parityIn = s.parityIn.set src ((next + 1) % 2 ^ 16) ∧
         (∀ i, i < bytes.length → t.mem.read (stripeKey stripe 7 (off + i)) = s.mem.read (stripeKey stripe 7 (off + i)) ^^^ bytes.getD i 0) ∧
         (∀ a, (∀ i, i < bytes.length → a ≠ stripeKey stripe 7 (off + i)) → t.mem.read a = s.mem.read a) ∧
         t = { s with parityIn := t.parityIn, mem := t.mem, parityAcks := s.parityAcks ++ [(src, seq)] }) ∧
     (∀ holder, s.rankLost holder = false → (∀ d ∈ s.parity, d.holder = holder → d.seq = seq → s.parityOpen d = true) → ∃ t, exec (.parityAck holder seq) s = .next t ∧
       t.parity = s.parity.filter (fun d => !(d.holder == holder && d.seq == seq)) ∧ t.mem = s.mem) ∧
     (∀ holder, s.rankLost holder = true → exec (.parityAck holder seq) s = .next s))

/-- R130, R197, R365, R395, R418: the oldest long-latency word of a Group returns and writes its registers, once no request of the Group is on
its way to another die; poisoned data raise UCE instead. The latency of a read of memory is a sample.
R204, R205, R215, R253, R333: what a committed Chunk sends to another core lands there in order: scratchpad bytes once no copy holds
them, registers with one arrival, k registers of a Team still there, ring slots; a publication waits for the ranges of the copies pushed before it
(R334).
R227, R229, R241: the first MMA in a core's order retires with its sums; a residue mismatch squashes the Chunk that owns it, and in a
follow-on MMA it is run again once.
The model's choices in it, not the manual's: notes/assumptions, logs 9, 57, 85. -/
def Obligations.ReturnsAndLandings : Prop :=
  (∀ (s : State) (c slot : Nat) (g : Group) (p : Pend) (r : List Pend), s.group? c slot = some g → g.pend = p :: r →
     let s1 := (s.modGroup c slot (fun g => { g with pend := r })).sampled 1 p.chans (s.clk - p.since : Nat)
     let away : Bool := s.crossing (loadTag c slot)
     (away = true → exec (.loadReturn c slot) s = .next (s.due [.loadReturn c slot])) ∧
     (away = false → p.uce = true → exec (.loadReturn c slot) s = .next (s1.consumeUCE c slot p.pc)) ∧
     (away = false → p.uce = false → ∃ t, exec (.loadReturn c slot) s = .next t ∧
       t.group? c slot = some { g with pend := r } ∧
       (t.core c).pool = p.writes.foldl (fun m w => m.put w.1 w.2) (s.core c).pool ∧
       (∀ k, k ≠ c → t.core k = s.core k) ∧
       t = { s with cores := t.cores, captures := (s.sampled 1 p.chans (s.clk - p.since : Nat)).captures })) ∧
  (∀ (s : State) (id : Nat) (l : Landing), s.landings.get? id = some l →
     let s1 : State := { s with landings := s.landings.erase id }
     let first : Prop := s.landingWaits id l false = false
     let after : Prop := s.landingWaits id l true = false
     (∀ core a bytes, l.act = .stw core a bytes →
       (first → s.boardHits core a bytes.length = false → exec (.stwLanding id) s = .next (s1.poolPut core a bytes)) ∧
       (s.boardHits core a bytes.length = true → exec (.stwLanding id) s = .next (s.due [.stwLanding id]))) ∧
     (∀ core slot uid d ctr vals g, l.act = .rwr core slot uid d ctr vals → after → s.group? core slot = some g →
       (g.uid ≠ uid → exec (.rwrLanding id) s = .next s1) ∧
       (g.uid = uid → ∃ t g', exec (.rwrLanding id) s = .next t ∧ t.group? core slot = some g' ∧
         g'.arrival = g.arrival.set ctr ((g.arrival.getD ctr 0 + 1) % 2 ^ 32) ∧
         (t.core core).pool = vals.foldl (fun m x => m.put (vAddr (regBase (s.launchAt core) slot) d x.1) (toBytes 4 x.2)) (s.core core).pool)) ∧
     (∀ a v, l.act = .kwrite a v → first →
       (s.teams.any (fun e => !e.2.away && e.2.home == l.target && decide (e.2.block ≤ a) && decide (a < e.2.block + 64)) = true →
         exec (.kWrite id) s = .next (s1.poolPut32 l.target a v)) ∧
       (s.teams.any (fun e => !e.2.away && e.2.home == l.target && decide (e.2.block ≤ a) && decide (a < e.2.block + 64)) = false →
         exec (.kWrite id) s = .next s1)) ∧
     (∀ core r slot, l.act = .ringp core r slot → after →
       let s2 := (s.unboarded id l.core).foldl (fun s e => s.register e.1 l.core (landingRows e.2.cmd)) s
       s2.unboarded id l.core ≠ [] → exec (.ringAtCommit id) s = .next (s2.due [.ringAtCommit id])) ∧
     (∀ core r slot full, (l.act = if full then .ringp core r slot else .ringrel core r slot) → after →
       (full = true → s.unboarded id l.core = []) →
       ∃ t, exec (.ringAtCommit id) s = .next t ∧ (((t.core core).ring r).full slot = full) ∧
         (∀ j, j ≠ slot → ((t.core core).ring r).full j = ((s.core core).ring r).full j) ∧ t = { s1 with cores := t.cores })) ∧
  (∀ (s : State) (c : Nat) (m : MmaOp) (rest : List MmaOp), (s.core c).order = m :: rest →
     (∀ p ∈ (s.core c).places, p.tile = m.tile → p.before ≠ 0) →
     exec (.mmaRetire c false) s = .next (s.retireMma c m) ∧
     (mmaHasResidue m = false → exec (.mmaRetire c true) s = .next (s.retireMma c m)) ∧
     (mmaHasResidue m = true → m.follow = none → exec (.mmaRetire c true) s = .next (s.mismatchAt c m.owner.1 m.pc 512)) ∧
     (∀ op, mmaHasResidue m = true → m.follow = some op → m.retries = 0 →
       let s1 := s.addScore c 512
       exec (.mmaRetire c true) s =
         .next ((s1.setCore c { s1.core c with order := { m with retries := 1 } :: rest }).due [.mmaRetire c false])))

/-- R110 to R112: a fenced Group runs again once what its fence awaits is over, and all but FENCE.cl drop the read copies of the cluster;
until then it waits.
R337, R338: arrivals of one clk: a of them complete the phase once they reach what is expected, then the phase bit turns, the count
returns to 0 and the next phase expects nexp less the drops; else they count.
R339 to R342: the events that reach a Barrier in one core clk are applied in three steps, arrivals first, then BARI, then the tests; an
event that has not reached the home core waits. The completion message, once it has come, wakes the lanes of another core and drops read copies.
The model's choices in it, not the manual's: notes/assumptions, log 87. -/
def Obligations.FencesAndBarriers : Prop :=
  (∀ (s : State) (c slot cl : Nat) (g : Group) (k : FenceKind), s.group? c slot = some g → g.state = .fenced k cl →
     let t := s.modGroup c slot (fun g => { g with state := .running })
     (s.fenceOver cl g k = true → exec (.fenceWaitEnd c slot) s = .next (if k = .cl then t else t.dropReadCopies (clusterOf c))) ∧
     (s.fenceOver cl g k = false → exec (.fenceWaitEnd c slot) s = .next (s.due [.fenceWaitEnd c slot])) ∧
     (g.release ≠ [] → k ≠ .cl → s.fenceOver cl g k = false) ∧
     (k = .sy → (∃ id w, s.ncl.get? id = some w ∧ w.uid = g.uid) → s.fenceOver cl g k = false)) ∧
  (∀ (x : Barrier) (a d : Nat),
     (x.expect ≤ x.arrived + a → x.arrive a d = ({ x with nexp := x.nexp - d, ph := !x.ph, arrived := 0, expect := x.nexp - d }, true)) ∧
     (x.arrived + a < x.expect → x.arrive a d = ({ x with nexp := x.nexp - d, arrived := x.arrived + a }, false)) ∧
     (x.arrived < x.expect → (x.arrive a d).1.arrived < (x.arrive a d).1.expect ∨ (x.arrive a d).1.expect = 0)) ∧
  (∀ (s : State) (core bar n : Nat),
     let ms := ((s.core core).barMsgs.getD bar []).take (max 1 n)
     let s1 := s.setCore core { s.core core with
       barMsgs := (s.core core).barMsgs.set bar (((s.core core).barMsgs.getD bar []).drop ms.length) }
     let wake (w : Wait) : Wait := if w = .freed bar then .none else w
     (ms ≠ [] → (∀ m ∈ ms, s.msgArrived core m = true) →
       exec (.barrierEvent core bar n) s = .next (((s1.barArrivals core bar ms).barInits core bar ms).barTests core bar ms)) ∧
     (∀ m ∈ ms, s.msgArrived core m = false → exec (.barrierEvent core bar n) s = .next (s.due [.barrierEvent core bar n])) ∧
     (s.crossingTo core (freeTag bar) = true → exec (.barrierRelease core bar) s = .next (s.due [.barrierRelease core bar])) ∧
     (s.crossingTo core (freeTag bar) = false → ∃ t, exec (.barrierRelease core bar) s = .next t ∧
       (t.core core).groups = (s.core core).groups.map (fun g => (g.1, g.2.mapWaits wake)) ∧
       (t.core core).pool = (s.core core).pool ∧ (∀ k, k ≠ core → t.core k = s.core k) ∧
       t = { s with cores := t.cores, clusters := t.clusters }))

/-! ## Engines -/

/-- R86, R235, R238, R241, R289, R395, R399: the commands of a Context leave in the order in which they were sent; a command is judged at its leaving,
and a node's is numbered then; it goes on once it has reached its engine, in a packet where that lies on another die.
R236, R238, R239, R395: a command that has left waits for its packet; then its status address is translated. The status of one that was judged
is written there, FORMAT counting where there is none to write; one whose Pages refuse it ends with PROT; a missing translation is walked
for.
The model's choices in it, not the manual's: notes/assumptions, logs 34, 38. -/
def Obligations.CommandsLeave : Prop :=
  (∀ (s : State) (id : Nat) (o : Op) (others : List (List Byte)), s.op? id = some o → o.state = .queued →
     let a : Nat × State := if o.num = 0 then s.assign o.ctx o.q else (o.num, s)
     let held : Prop := s.earlierQueued id o = true
     let cases : List (Instr × Option Nat) :=
       [(.copy id, ((copyBad o.cmd).map stFORMAT).or (s.followFault o (copyCmd o.cmd))), (.gather id, (gatherBad o.cmd).map stFORMAT),
        (.redn id, (rednBad o.cmd).map stFORMAT), (.enq id, (enqBad o.cmd).map stFORMAT), (.mcast id, (mcastBad o.cmd).map stFORMAT),
        (.collRs id others, s.collJudge o), (.collAg id others, s.collJudge o), (.collXorrs id others, s.collJudge o),
        (.collXorrb id others, s.collJudge o)]
     (held → ∀ i ∈ [Instr.srch id, .updInsert id, .updDelete id, .updLink id, .publ id], exec i s = .next (s.due [i])) ∧
     (∀ x ∈ cases,
       let o1 : Op := { o with state := .translating, num := a.1, status := x.2.getD 0 }
       (held → exec x.1 s = .next (s.due [x.1])) ∧
       (¬held → o.nearby = true → s.crossing (pushTag id) = false → exec x.1 s = exec x.1 (a.2.setOp id o1)) ∧
       (¬held → o.nearby = false → exec x.1 s = .next (((a.2.setOp id o1).sendPacket o.core o.place (pushTag id)).due [x.1])))) ∧
  (∀ (s : State) (id : Nat) (o : Op), s.op? id = some o → o.state = .translating →
     let here (va : Option Nat) (ps : List Tlb) : Prop := s.statusAt o.ctx (cmdStaddr o.cmd) = .at_ va ps
     let there : Prop := s.crossing (pushTag id) = false
     let cc := copyCmd o.cmd
     let gc := gatherCmd o.cmd
     let mc := mcastCmd o.cmd
     let node := cmdField o.cmd 127 64
     let cases : List (Instr × List (Nat × Nat × AccKind)) :=
       [(.copy id, copyReqs cc), (.gather id, [(gc.ilist, gc.n * gc.isize, .engRead)]),
        (.redn id, [(node, 128, .engRead)]), (.enq id, [(node, 64, .engRead)]), (.mcast id, [(mc.src, mc.len, .engRead)])]
     ∀ x ∈ cases,
       (¬there → exec x.1 s = .next (s.due [x.1])) ∧
       (∀ va ps, there → here va ps → o.status ≠ 0 →
         exec x.1 s = .next (s.finishOp id { o with stva := va, pages := ps } o.status)) ∧
       (∀ va ps, there → here va ps → o.status = 0 → s.reach o.ctx x.2 = .refused →
         exec x.1 s = .next (s.finishOp id { o with stva := va, pages := ps } stPROT)) ∧
       (∀ va ps v acc, there → here va ps → o.status = 0 → s.reach o.ctx x.2 = .missing v acc →
         exec x.1 s = .next ((s.engineWalk id o v acc).due [x.1])) ∧
       (there → s.statusAt o.ctx (cmdStaddr o.cmd) = .refused →
         exec x.1 s = .next (s.finishOp id { o with stva := none } (o.endsWith stPROT))) ∧
       (∀ va, there → s.statusAt o.ctx (cmdStaddr o.cmd) = .missing va → exec x.1 s = .next ((s.engineWalk id o va .engWrite).due [x.1])))

/-- R116, R240, R241: a COPY that has been judged and translated runs: engine Chunks of at most 256 sectors until every row is copied;
then its follow-on MMA takes its place in the core's order, and the COPY retires.
R93, R116, R205, R363, R365: one engine Chunk of a transfer into memory, once its reads are served, offers the source's bytes, piece by piece,
as one unit; one into scratchpad lands at once; data on a poisoned line end the command with UCE; a read that waits is sent again.
R236, R242: a GATHER reads its index list once, translates its rows, and then copies one row for each index.
The model's choices in it, not the manual's: notes/assumptions, log 25. -/
def Obligations.CopyAndGatherCommands : Prop :=
  (∀ (s : State) (id : Nat) (o : Op), s.op? id = some o →
     let c := copyCmd o.cmd
     let k := s.core o.core
     let ps := pieces (fun p => rowLoc o c.swin (c.srcRow (p / c.len) + p % c.len))
       (fun p => rowLoc o c.dwin (c.dstRow (p / c.len) + p % c.len)) (fun p => c.len - p % c.len) 256 o.pos (c.rows * c.len)
     let runs : Prop := o.state = .left ∧ o.units = 0
     (∀ o1, o.gone s id → Translated s o (copyReqs c) o1 → s.copyWindows o1 c = true →
       exec (.copy id) s = .next ((s.setOp id { o1 with state := .left }).due [.copy id])) ∧
     (runs → o.pos < c.rows * c.len → (c.dwin = true → s.registered id o.core (windowRows o.cmd) = true) →
       exec (.copy id) s = .next (s.movePieces id o ps (.copy id))) ∧
     (runs → c.rows * c.len ≤ o.pos → exec (.copy id) s =
       .next ((s.setOp id { o with state := .committing }).due [if c.fo then .followOnMma id else .copyRetire id])) ∧
     (o.state = .committing → o.status = 0 → exec (.copyRetire id) s = .next (s.finishOp id o o.iovf.toNat)) ∧
     (∀ t x, o.state = .committing → o.team = some t → s.teams.get? t = some x → tileBusy k c.tile = false →
       (∀ g ∈ k.groups, c.tile ∉ g.2.chunk.tiles) → s.followHeld id x c = false → exec (.followOnMma id) s =
         .next ((s.setCore o.core { k with order := k.order ++
           [{ owner := (0, 0), follow := some id, tile := c.tile, act := c.act, slotIdx := c.slot, desc := c.fodesc,
              snap := (s.core x.home).pool.slice (x.scr 0) (256 * x.tscr), pc := 0, retries := 0 }] }).due [.mmaRetire o.core false]))) ∧
  (∀ (s : State) (id : Nat) (o : Op) (ps : List Piece) (again : Instr),
     let pas := ps.filterMap (fun p => match p.src with | .mem pa => some pa | .pool _ _ => none)
     let t := s.afterRead id o pas
     let n := (ps.map (fun p => p.len)).sum
     let o1 : Op := { o with state := .left, pos := o.pos + n }
     let here : Prop := s.askAcross o.place (readTag id (2 * o.pos)) pas = none
     (∀ u, s.askAcross o.place (readTag id (2 * o.pos)) pas = some u → s.movePieces id o ps again = u.due [again]) ∧
     (∀ pa, here → pas.find? (s.waitsFor (.op id) o.die) = some pa → s.movePieces id o ps again = (s.await pa (.op id)).due [again]) ∧
     (Served s id o (2 * o.pos) pas → (∃ p ∈ ps, t.piecePoison p = true) → s.movePieces id o ps again = t.finishOp id o stUCE) ∧
     (Served s id o (2 * o.pos) pas → ps ≠ [] → (∀ p ∈ ps, t.piecePoison p = false) → (∀ p ∈ ps, ∃ pa, p.dst = .mem pa) →
       s.movePieces id o ps again = (t.setOp id o1).offerUnit id o1 (ps.map (fun p =>
         storeItem (match p.dst with | .mem pa => pa | .pool _ a => a) (t.locBytes p.src p.len)))) ∧
     (Served s id o (2 * o.pos) pas → (∀ p ∈ ps, t.piecePoison p = false) → (∀ p ∈ ps, ∃ c a, p.dst = .pool c a) →
       ∃ u, s.movePieces id o ps again = u ∧ u.offers = s.offers ∧ u.mem = s.mem ∧ u.op? id = some o1 ∧ u.agenda = s.agenda ++ [again])) ∧
  (∀ (s : State) (id : Nat) (o : Op), s.op? id = some o →
     let c := gatherCmd o.cmd
     let n := c.n * c.isize
     let total := c.n * c.rowlen
     let ps := pieces (fun p => .mem (o.pa (c.srcRow o.aux (p / c.rowlen) + p % c.rowlen)))
       (fun p => rowLoc o c.dwin (c.dstRow (p / c.rowlen) + p % c.rowlen)) (fun p => c.rowlen - p % c.rowlen) 256 o.pos total
     (∀ o1 qs, o.gone s id → Translated s o [(c.ilist, n, .engRead)] o1 → Served s id o1 1 (o1.pas [(c.ilist, n)]) →
       let t := s.afterRead id o1 (o1.pas [(c.ilist, n)])
       let idx := splitNums c.isize c.n (t.vread o1.pages c.ilist n)
       t.vpoison o1.pages c.ilist n = false → t.reach o.ctx (gatherReqs c idx) = .ok qs →
       (c.dwin = true → ∀ i, i < c.n → t.winOk o.kernel o.core (c.dstRow i) c.rowlen = true) → exec (.gather id) s =
         .next ((t.setOp id { o1 with state := .left, aux := idx, pages := addPages o1.pages qs }).due [.gather id])) ∧
     (o.state = .left → o.units = 0 → o.pos < total → (c.dwin = true → s.registered id o.core (windowRows o.cmd) = true) →
       exec (.gather id) s = .next (s.movePieces id o ps (.gather id))) ∧
     (o.state = .left → o.units = 0 → o.pos < total → c.dwin = true → s.registered id o.core (windowRows o.cmd) = false →
       exec (.gather id) s = .next ((s.register id o.core (windowRows o.cmd)).due [.gather id])) ∧
     (o.state = .left → o.units = 0 → total ≤ o.pos → exec (.gather id) s = .next (s.finishOp id o 0)))

/-- R63, R243, R247, R403, R404: the collectives and REDN write engine Chunks in ascending element order: each element the sum of its leaves by the
fixed tree, or a member's element; what the other members need is sent to them on the way. For xorrs and xorrb a member sends the XOR of its
block of a stripe and of those that it takes, line by line, or writes it; the operation ends once what it sent has been acknowledged.
The model's choices in it, not the manual's: notes/assumptions, logs 25, 57, 71. -/
def Obligations.ReductionCommands : Prop :=
  ∀ (s : State) (id : Nat) (o : Op) (others : List (List Byte)), s.op? id = some o → o.state = .left → o.units = 0 →
    let c := collCmd o.cmd
    let g := s.collGroup c.cgrp
    let sz := dtSize c.dtype
    let seg := c.count * sz
    let items (bs : List Byte) : List BufItem := (bs.zip (upFrom (addr64 c.dst o.pos) bs.length)).map (fun x => storeItem (o.pa x.2) [x.1])
    let runs (i : Instr) (rs : Bool) : Prop := others ≠ [] →
      let total := if rs then seg else g.members * seg
      let n := min (255 * 32) (total - o.pos)
      let len := min n (seg - o.pos % seg)
      let part (r : Nat) : Nat := addr64 c.src (if rs then r * seg + o.pos else o.pos % seg)
      let reads := if rs then (upFrom 0 g.members).map (fun r => (part r, len)) else [(part 0, len)]
      let t := s.afterRead id o (o.pas reads)
      (total ≤ o.pos → exec i s = .next (s.finishOp id o 0)) ∧
      (o.pos < total → s.portsUp g = false → exec i s = .next (s.due [i])) ∧
      (o.pos < total → s.portsUp g = true → Served s id o (2 * o.pos) (o.pas reads) → (∀ r ∈ reads, t.vpoison o.pages r.1 r.2 = false) →
        let bs := collBytes t o g c others n
        let u := (if rs || decide (o.pos < seg) then g.others else []).foldl (fun v r =>
          v.contribute id o g r o.pos (v.vread o.pages (part r) len)) t
        exec i s = .next ({ u with fresh := u.fresh + 8 * n }.offerUnit id
          { o with pos := o.pos + bs.length, aux := others.map ofBytes } (items bs)))
    let xors (i : Instr) (rebuild : Bool) : Prop :=
      let stripe := c.src + o.pos
      let row := blockG g.self stripe
      let role := collRole g.self c.lost rebuild stripe
      let taken := role.1.map (collGiven s o g.self (collTaken g.self (rebuild && g.self == c.lost) c.src stripe))
      let s1 : State := { s with fresh := s.fresh + 8 * 4096 }
      let t := s1.afterRead id o (s1.blockLines stripe row)
      let bs := xorAll (t.blockBytes stripe row :: taken)
      (c.count ≤ o.pos → s.contributed id o = false → exec i s = .next (s.due [i])) ∧
      (c.count ≤ o.pos → s.contributed id o = true →
        exec i s = .next ((if rebuild && g.self != c.lost then s.sendHeld g c.lost else s).finishOp id o 0)) ∧
      (o.pos < c.count → s.portsUp g = true → role.2 = none →
        exec i s = .next (s1.offerUnit id { o with pos := o.pos + 1 } (s1.blockItems stripe row (xorAll taken)))) ∧
      (∀ r, o.pos < c.count → s.portsUp g = true → role.2 = some r → Served s1 id o (2 * o.pos) (s1.blockLines stripe row) →
        (∀ pa ∈ t.blockLines stripe row, t.poisoned pa 64 = false) →
        exec i s = .next ((((upFrom 0 64).foldl (fun v k => v.contribute id o g r (64 * stripe + k) ((bs.drop (64 * k)).take 64)) t).setOp id
          { o with pos := o.pos + 1 }).due [i]))
    (cmdVar o.cmd = 0 → runs (.collRs id others) true) ∧
    (cmdVar o.cmd = 1 → runs (.collAg id others) false) ∧
    xors (.collXorrs id others) false ∧ xors (.collXorrb id others) true ∧
    (∀ dst count t srcs, o.aux = dst :: count :: t :: srcs →
      let n := min (255 * 32 / dtSize t) (count - o.pos)
      let reads := srcs.map (fun a => (a + o.pos * dtSize t, n * dtSize t))
      let v := s.afterRead id o (o.pas reads)
      let data := srcs.map (fun a => splitNums (dtSize t) n (v.vread o.pages (a + o.pos * dtSize t) (n * dtSize t)))
      (count ≤ o.pos → exec (.redn id) s = .next (s.finishOp id o 0)) ∧
      (o.pos < count → Served s id o (2 * o.pos) (o.pas reads) → (∀ r ∈ reads, v.vpoison o.pages r.1 r.2 = false) →
        exec (.redn id) s = .next (v.offerUnit id { o with pos := o.pos + n } ((upFrom 0 n).foldl (fun acc e => acc ++
          ((toBytes (dtSize t) (sumLeaves t (data.map (fun x => x.getD e 0)))).zip (upFrom (dst + (o.pos + e) * dtSize t) (dtSize t))).map
            (fun x => storeItem (o.pa x.2) [x.1])) []))))

/-- R248, R249, R287, R405, R406: ENQ writes the record with the next sequence number and the new tail as one unit, and holds while an earlier ENQ
of its Context has not been placed or the ring is full; MCAST fixes the bound Teams of the clusters that it names, with a scoreboard entry
for each, and then lands in them, and counts the clusters that it skips.
The model's choices in it, not the manual's: notes/assumptions, logs 72, 73. -/
def Obligations.EnqueueAndMulticast : Prop :=
  ∀ (s : State) (id : Nat) (o o1 : Op), s.op? id = some o → o.gone s id →
    let n := cmdField o.cmd 63 32
    let q := s.queue n
    let node := cmdField o.cmd 127 64
    let c := mcastCmd o.cmd
    let seq := (q.tail + 1) % 2 ^ 32
    let room : Nat := (q.tail + 2 ^ 32 - q.done) % 2 ^ 32
    let mine : Prop := n < Config.nQueues ∧ q.state = 1 ∧ q.device = true ∧ q.ctx = o.ctx
    let t := s.afterRead id o1 (o1.pas [(node, 64)])
    let u := s.afterRead id o1 (o1.pas [(c.src, c.len)])
    let inPart : Prop := bitAt (s.part (s.sealedOf (s.ctx o1.ctx).part)).dmask c.die = true
    let bound (cl : Nat) : Tab Team := u.teams.filter (fun e => e.2.bound (o1.kernel.getD 0) cl c)
    let ts := c.clusters.foldl (fun acc cl => acc ++ bound cl) []
    let boarded := ts.foldl (fun s e => s.setCore e.2.home { s.core e.2.home with
      board := (s.core e.2.home).board ++ [{ op := id, lo := e.2.scr c.off, len := c.len }] }) u
    (Translated s o [(node, 64, .engRead)] o1 → s.enqAhead o1 = true →
      exec (.enq id) s = .next ((s.setOp id { o1 with state := .left }).due [.enq id])) ∧
    (Translated s o [(node, 64, .engRead)] o1 → s.enqAhead o1 = false → mine → room < 2 ^ q.lgsize →
      Served s id o1 0 (o1.pas [(node, 64)]) → t.vpoison o1.pages node 64 = false →
      exec (.enq id) s = .next ((t.setQueue n { q with tail := seq }).offerUnit id { o1 with state := .left, pos := 1 }
        [storeItem (q.slotAddr seq) (withSeq (t.vread o1.pages node 64) seq), storeItem q.ctl (toBytes 4 seq)])) ∧
    (Translated s o [(node, 64, .engRead)] o1 → s.enqAhead o1 = false → mine → 2 ^ q.lgsize ≤ room →
      exec (.enq id) s = .next ((s.setOp id { o1 with state := .left }).due [.enq id])) ∧
    (Translated s o [(node, 64, .engRead)] o1 → s.enqAhead o1 = false → ¬mine → exec (.enq id) s = .next (s.finishOp id o1 stPROT)) ∧
    (Translated s o [(c.src, c.len, .engRead)] o1 → ¬inPart → exec (.mcast id) s = .next (s.finishOp id o1 stPROT)) ∧
    (Translated s o [(c.src, c.len, .engRead)] o1 → inPart → Served s id o1 0 (o1.pas [(c.src, c.len)]) →
      u.vpoison o1.pages c.src c.len = false → u.mcastAway id o1 c = none → (∀ e ∈ ts, (u.core e.2.home).board.length < 128) →
      exec (.mcast id) s = .next ((boarded.setOp id { o1 with
        state := .left, aux := (c.clusters.filter (fun cl => (bound cl).isEmpty)).length :: ofBytes (u.vread o1.pages c.src c.len) ::
          ts.map (fun e => e.1) }).due [.mcast id])) ∧
    (∀ v ids skipped data, o1 = { o with state := .left, aux := skipped :: data :: ids } → v = s.setOp id o1 →
      let landed := ids.foldl (fun s t => match s.teams.get? t with
        | some x => s.poolPut x.home (x.scr c.off) (toBytes c.len data)
        | none => s) v
      exec (.mcast id) v = .next ((landed.setWindow o1.inst { landed.window o1.inst with
        mcskip := min (2 ^ 32 - 1) ((landed.window o1.inst).mcskip + skipped) }).finishOp id o1 (if skipped = 0 then 0 else stPARTIAL skipped)))

/-- R114, R237: the status word of a finished command is its next engine Chunk, or none is written; when its last unit has committed the
command ends: its number completes its timeline, and it leaves its queue.
R114: numbers complete in any order, and the count moves over the complete prefix. -/
def Obligations.CommandsComplete : Prop :=
  (∀ (s : State) (id : Nat) (o : Op), s.op? id = some o →
     (o.state = .status → o.units = 0 → ∃ t, exec (.operationComplete id) s = .next t ∧ t.op? id = none ∧
       (∀ k, k ≠ id → t.op? k = s.op? k) ∧ t.timeline o.ctx o.q = (s.timeline o.ctx o.q).complete o.num ∧
       (cmdBaren o.cmd = false → t.mem = s.mem ∧ t.cores.map (fun e => e.2.pool) = s.cores.map (fun e => e.2.pool))) ∧
     (o.state ≠ .status ∨ o.units ≠ 0 → exec (.operationComplete id) s = .next s) ∧
     (∀ status va, o.stva = some va → let t := s.finishOp id o status
       t.op? id = some { o with state := .status, status := status, wants := none, units := o.units + 1 } ∧
       t.offers = s.offers ++ [{ die := engineDie o.q o.inst, clk := s.clk, what := .engine id (putAt o.pages va (toBytes 4 status)) }]) ∧
     (∀ status, o.stva = none → let t := s.finishOp id o status
       t.op? id = some { o with state := .status, status := status, wants := none } ∧ t.offers = s.offers ∧
       t.agenda = s.agenda ++ [.operationComplete id])) ∧
  (∀ (t : Timeline) (n : Nat), t.count < n → n ∉ t.beyond → (∀ m ∈ t.beyond, t.count + 1 < m) → t.beyond.Nodup →
     let u := t.complete n
     t.count ≤ u.count ∧ u.assigned = t.assigned ∧
       (∀ m, m ≤ u.count ∨ m ∈ u.beyond ↔ m ≤ t.count ∨ m ∈ t.beyond ∨ m = n) ∧ (u.count + 1) ∉ u.beyond)

/-! ## Indexes -/

/-- R244, R377 to R384, R386, R394, R395: a search leaves with its snapshot and starts its walk; a message that has come, a request also with its
walker context, is served: by the stack that holds the slots, or at the search's home, where replies go on with the walk, which ends when
every result has been refined; one that has not waits. MERGE sends the list of a completed search on its tree's port.
The model's choices in it, not the manual's: notes/assumptions, log 36. -/
def Obligations.Searches : Prop :=
  ∀ (s : State) (n idx : Nat) (x : Search) (m : WalkMsg) (r : List WalkMsg), s.search? n = some x → x.bad = false →
    let ix := s.index x.index
    let y : Search := { x with msgs := r }
    let from_ (p : WalkMsg → Bool) : Prop :=
      takeMsg p (if (x.msgs.filter p).length ≤ 1 then 0 else idx % (x.msgs.filter p).length) x.msgs = some (m, r)
    let served : Prop := s.serves n m = true
    let clean (ids : List Nat) : Prop := ids.findSome? (fun i => s.slotWaits (.op x.op) ix i ix.stride) = none ∧
      ∀ i ∈ ids, s.slotPoison ix i ix.stride = false
    let read (ids : List Nat) : State := s.slotServed x.op ix ids ix.stride
    let answer (t : State) (st : Nat) (z : Search) : State := t.posted n r.length st z
    (∀ st ids k, from_ isScore → m = .score st ids k → served → clean ids →
      exec (.scoreRequest n idx) s = .next (answer (read ids) st (ids.foldl (fun z i => z.post false ((read ids).scoreOf y i)) y))) ∧
    (∀ st id k, from_ isExpand → m = .expand st id k → served →
      let ids := (s.slotAdj ix id).filter ix.valid
      let own := ids.filter (fun i => idStack i == st)
      let t := read (id :: own)
      clean (id :: own) → exec (.expandRequest n idx) s = .next (answer t st ((forwards st ids).foldl (fun z f => z.post true (.score f.1 f.2 0))
        (own.foldl (fun z i => z.post false (t.scoreOf y i)) (y.post false (.expanded ids.length 0)))))) ∧
    (∀ id d vis k, from_ isScored → m = .scored id d vis k → served → (∀ e ∈ x.c ++ x.r, e.id ≠ id) →
      let e : Cand := { d := d, id := id, expanded := false }
      exec (.scoreReply n idx) s = .next (s.walkOn n { y with
        sc := x.sc - 1, c := enlist x.beam x.c e, r := if vis then enlist x.kr x.r e else x.r } r.length)) ∧
    (∀ f k, from_ isExpanded → m = .expanded f k → served →
      exec (.expandReply n idx) s = .next (s.walkOn n { y with ex := x.ex - 1, sc := x.sc + f } r.length)) ∧
    (∀ st id k, from_ isRefine → m = .refine st id k → served → clean [id] →
      let t := read [id]
      let d := (t.index x.index).distance x.query (t.slotVec (t.index x.index) id) 0
      exec (.refineRequest n idx) s = .next (answer t st (y.post false (.refined id d 0)))) ∧
    (∀ id d k, from_ isRefined → m = .refined id d k → served →
      let z : Search := { y with rf := x.rf - 1, refined := enlist x.k x.refined { d := d, id := id, expanded := true } }
      exec (.refineReply n idx) s = .next (if z.rf = 0 then (s.setSearch n z).finishSearch n z else s.setSearch n z)) ∧
    (¬served → (from_ isScore → exec (.scoreRequest n idx) s = .next (s.defer n y m)) ∧
      (from_ isExpand → exec (.expandRequest n idx) s = .next (s.defer n y m)) ∧
      (from_ isRefine → exec (.refineRequest n idx) s = .next (s.defer n y m)) ∧
      (from_ isScored → exec (.scoreReply n idx) s = .next (s.defer n y m)) ∧
      (from_ isExpanded → exec (.expandReply n idx) s = .next (s.defer n y m)) ∧
      (from_ isRefined → exec (.refineReply n idx) s = .next (s.defer n y m))) ∧
    (∀ op o, s.op? op = some o → o.state = .queued → o.num ≠ 0 → s.earlierQueued op o = false → s.srchFault o = none →
      let snap := (srchCmd o.cmd).snap
      let pub := (s.index (srchCmd o.cmd).index).pub
      let o1 : Op := { o with state := .translating, aux := [if pub < snap then pub else snap] }
      (o.nearby = true → exec (.srch op) s = .next ((s.setOp op o1).startSearch op o1)) ∧
      (o.nearby = false → exec (.srch op) s = .next (((s.setOp op o1).sendPacket o.core o.place (pushTag op)).due [.srch op]))) ∧
    (s.op? x.op = none → s.unreachable.contains (switchOf x.tport) = false → s.nslOpen (x.home / 4) x.tport = true →
      ∃ t, exec (.merge n) s = .next t ∧ t.search? n = none ∧
        t.merges = s.merges ++ [(x.tport, mergeBytes x ((if 0 < x.kc then x.refined else x.r).take x.k))])

/-- R379: a list takes an entry in key order, keeps at most its capacity, and never holds an id twice. -/
def Obligations.MergeRule : Prop :=
  ∀ (cap : Nat) (l : List Cand) (c : Cand), (l.map (fun e => e.id)).Nodup → l.length ≤ cap →
    let u := enlist cap l c
    (u.map (fun e => e.id)).Nodup ∧ u.length ≤ cap ∧ (∀ e ∈ u, e = c ∨ e ∈ l) ∧
      (l.length < cap → ∀ e, (e ∈ l ∨ (e = c ∧ ∀ f ∈ l, f.id ≠ c.id)) → e ∈ u) ∧
      (List.Pairwise (fun a b => keyBefore b a = false) l → List.Pairwise (fun a b => keyBefore b a = false) u)

/-- R245, R246, R372 to R375: an insert writes its vector and then, in one engine Chunk, versions, adjacency count and adjacency; a delete
writes the del version; a link writes the adjacency; a held insert goes on once its slot may be reclaimed; pub becomes the highest pending
version whose updates have completed.
R246, R375: a PUBL above pub becomes pending when it leaves; a publication raises pub to the highest pending version whose updates have
completed, never lowers it, and completes the PUBLs that it reaches.
The model's choices in it, not the manual's: notes/assumptions, logs 37, 61. -/
def Obligations.IndexUpdatesAndPublications : Prop :=
  (∀ (s : State) (id : Nat) (o : Op), s.op? id = some o → o.state = .left → o.units = 0 → o.aux = [] →
     let c := updCmd o.cmd
     let x := s.index c.index
     let pa := x.slotPa c.gid
     let ins := s.slotIns x c.gid
     let del := s.slotDel x c.gid
     let held := s.setOp id { o with aux := [1] }
     let reads := (updReqs x (cmdVar o.cmd) c).map (fun r => (r.1, r.2.1))
     let s0 := s.afterRead id o (o.pas reads)
     let t := s0.slotServed id x [c.gid] 8
     let adj : List BufItem :=
       [storeItem (pa + 8) (toBytes 4 c.adjn), storeItem (pa + 0x40) (t.vread o.pages c.adj (8 * c.adjn))]
     let ready : Prop := s.updBehind o c = false ∧ s.slotWaits (.op id) x c.gid 8 = none ∧ Served s id o (2 * o.pos) (o.pas reads) ∧
       (∀ r ∈ reads, s0.vpoison o.pages r.1 r.2 = false) ∧ t.slotPoison x c.gid 8 = false
     (ready → cmdVar o.cmd = 0 → o.pos = x.vb → o.pos ≠ 0 → exec (.updInsert id) s = .next (t.offerUnit id { o with pos := o.pos + 1 }
       (storeItem pa (toBytes 4 c.ver ++ toBytes 4 0xFFFFFFFF) :: adj))) ∧
     (ready → cmdVar o.cmd = 0 → o.pos = 0 → ins = 0 → 0 < x.vb → exec (.updInsert id) s =
       .next (t.offerUnit id { o with pos := min (255 * 32) x.vb } [storeItem (pa + 0x240) (t.vread o.pages c.vec (min (255 * 32) x.vb))])) ∧
     (ready → cmdVar o.cmd = 0 → o.pos = 0 → ins ≠ 0 → del ≠ 0xFFFFFFFF → ¬(del ≤ x.pub ∧ del ≤ t.minsnap c.index) →
       exec (.updInsert id) s = .next ((t.setOp id { o with aux := [1] }).due [.reclaimInsert id])) ∧
     (ready → cmdVar o.cmd = 1 → o.pos = 0 → ins ≠ 0 → del = 0xFFFFFFFF →
       exec (.updDelete id) s = .next (t.offerUnit id { o with pos := 1 } [storeItem (pa + 4) (toBytes 4 c.ver)])) ∧
     (ready → cmdVar o.cmd = 2 → o.pos = 0 → ins ≠ 0 → exec (.updLink id) s = .next (t.offerUnit id { o with pos := 1 } adj)) ∧
     (exec (.reclaimInsert id) held = .next (if held.slotDel x c.gid ≤ x.pub ∧ held.slotDel x c.gid ≤ held.minsnap c.index
         then (held.setOp id { o with aux := [] }).due [.updInsert id] else held.due [.reclaimInsert id]))) ∧
  (∀ (s : State) (id n : Nat) (o : Op), s.op? id = some o →
     let v := cmdField o.cmd 63 32
     let x := s.index n
     (o.state = .queued → o.num ≠ 0 → s.earlierQueued id o = false → o.nearby = true → o.status = 0 → publBad o.cmd = none → cmdField o.cmd 71 64 = n → s.indexServes n o.ctx = true →
       x.pub < v → cmdStaddr o.cmd = 0 → o.aux = [] →
       let t := ({ s with publs := s.publs ++ [(n, v, id)] } : State).due [.publication n]
       let o1 : Op := { o with state := .left, stva := none, pages := [], wants := none }
       exec (.publ id) s = .next ((t.setOp id { o with state := .translating }).setOp id o1)) ∧
     (o.state = .left → s.publs = [(n, v, id)] → s.updsDone n v = true → 0 < v → x.pub < v → ∃ t, exec (.publication n) s = .next t ∧
       (t.index n).pub = v ∧ t.publs = [] ∧ (∀ k, k ≠ n → t.index k = s.index k) ∧ ∃ o', t.op? id = some o' ∧ o'.state = .status ∧ o'.status = 0) ∧
     (o.state = .left → s.publs = [(n, v, id)] → s.updsDone n v = false →
       exec (.publication n) s = .next (s.due [.publication n])))

/-! ## Kernels, Teams, images -/

/-- R255, R303, R308, R311 to R313, R316, R317: the first Kernel node in pool order is read, checked field by field, and takes its first
cores; a core is loaded with the record's poolpart, an empty pool and a reset predictor; one Team at a time is formed, with the coordinates
of its linear index, and where a Kernel drains without a Team every group's rest makes a partial one; a drained Kernel checks its lines in, waits for its commands and ends its node; a stopped one ends with its status; a
partial group is formed after 4,096 clk; a CONT that waits obtains its room.
The model's choices in it, not the manual's: notes/assumptions, logs 15, 30, 74, 91. -/
def Obligations.KernelsAndTeams : Prop :=
  ∀ (s : State) (kid : Nat) (k : Kernel), s.kernels.get? kid = some k →
    let again : State := s.due [.kernelComplete kid]
    let f : State := if s.drainsNow kid k then s.forceAll kid else s
    (∀ c, (s.core c).kernel = some kid → (s.core c).poolpart = 0 → (s.core c).board = [] →
      (∀ o ∈ s.ops, o.2.q ≤ 1 → o.2.inst = c → o.2.kernel = none) → ∃ t, exec (.coreLoad kid c) s = .next t ∧
        (t.core c).pool = [] ∧ (t.core c).poolpart = k.launch.poolpart ∧ (t.core c).pred = [] ∧ (t.core c).kernel = some kid ∧
        (∀ x, x ≠ c → t.core x = s.core x) ∧
        t = { s with cores := t.cores, clusters := t.clusters, kernels := t.kernels, fresh := t.fresh, agenda := t.agenda }) ∧
    (k.state = .running ∨ k.state = .draining → f.teamsLeft kid k = true → (s.ctx k.ctx).state = .live →
      exec (.teamFormation kid) s = .next ((f.formNext kid k).1.due [.teamFormation kid])) ∧
    (k.state = .running ∨ k.state = .draining → f.teamsLeft kid k = true → (s.ctx k.ctx).state ≠ .live →
      exec (.teamFormation kid) s = .next (f.due [.teamFormation kid])) ∧
    (k.state = .draining → (∀ t ∈ s.teams, t.2.kernel ≠ kid) → f = s.forceAll kid) ∧
    (∀ lin cores room, 0 < k.launch.gridx → 0 < k.launch.gridy →
      ∃ tid x, (s.formTeam kid k { lin := lin, recs := none, gang := none } cores room).teams = s.teams.set tid x ∧
        x.kernel = kid ∧ x.x = lin % k.launch.gridx ∧ x.y = lin / k.launch.gridx % k.launch.gridy ∧
        x.z = lin / (k.launch.gridx * k.launch.gridy) ∧ x.home = cores.headD 0 ∧ x.cores = cores ∧ x.block = room.block ∧
        x.barBase = room.base ∧ x.nbar = k.launch.nbar ∧ x.tscr = k.launch.tscr) ∧
    (s.drained kid k = true → k.clusters = [] → k.gangs = [] →
      exec (.kernelComplete kid) s = .next ((s.modKernel kid (fun x => { x with state := .completing })).due [.kernelComplete kid])) ∧
    (k.state = .completing → (∀ o ∈ s.ops, o.2.kernel ≠ some kid) → (∀ o ∈ s.offers, ∀ cl ln, o.what = .checkin cl ln → cl ∉ k.clusters) →
      exec (.kernelComplete kid) s =
        .next ((((if k.launch.lchain then s.demote k.ctx k.launch.chain else s).kernelDone kid k 0)).settleCtx k.ctx)) ∧
    (k.state = .completing → (∃ o ∈ s.ops, o.2.kernel = some kid) → exec (.kernelComplete kid) s = .next again) ∧
    (k.state = .stopping → (∀ g ∈ k.gangs, g.2.images = []) → (∀ o ∈ s.ops, o.2.kernel = some kid → o.2.state = .queued) →
      let s1 : State := { s with stores := s.stores.map (fun d => (d.1, { d.2 with recs := d.2.recs.filter (fun r => r.2.kernel != kid) })) }
      exec (.kernelStopped kid) s = .next ((s1.kernelDone kid k k.status).settleCtx k.ctx)) ∧
    (∀ die entry, let ws := (s.store die).waiting kid entry
      ws.length % 32 ≠ 0 → (s.store die).last = [(kid, entry, s.clk - 4096)] → 4096 ≤ s.clk → ∃ t,
        exec (.gathererTimeout die kid entry) s = .next t ∧ (t.store die).recs = (s.store die).recs ∧
        (t.store die).forced = (s.store die).forced ++ [(kid, (ws.drop (ws.length / 32 * 32)).map (fun r => r.1))]) ∧
    (∀ c slot g n, s.group? c slot = some g → g.lanes.findSome? (fun x => match x.wait with | .room n => some n | _ => none) = some n →
      s.roomOf c g.uid < n → n ≤ (s.store (dieOf c)).free →
      exec (.contRoomReserve c slot) s = .next (s.reserveRoom (dieOf c) g.uid n)) ∧
    (∀ part n, firstNode s.wall (s.nodes.filter (fun n => n.pooled && n.kind == 1 && (s.ctx (s.nodeCtx n)).part == part &&
        (s.ctx (s.nodeCtx n)).state == .live)) = some n →
      let ctx := s.nodeCtx n
      ∀ ps, s.reach ctx [(n.arg0, 192, .engRead)] = .ok ps → s.vwaits (s.nodeDie n) ps n.arg0 192 = none → s.vpoison ps n.arg0 192 = false →
        let l := launchOf (s.vread ps n.arg0 192)
        (∀ off, s.launchBad ctx (s.vread ps n.arg0 192) = some off → exec (.kernelDispatch part) s =
          .next (((s.startNode n).endNode n.queue n.seq (stFORMAT off)).due [.kernelDispatch part])) ∧
        (∀ code, s.launchBad ctx (s.vread ps n.arg0 192) = none → s.reach ctx [(l.codebase, l.codelen, .fetch)] = .ok code →
          s.vwaits (s.nodeDie n) code l.codebase l.codelen = none → s.vpoison code l.codebase l.codelen = false → s.codeBad code l = none →
          exec (.kernelDispatch part) s = .next (s.launchKernel part n l code)))

/-- R128, R263, R273 to R277, R321, R325, R329: an expired quantum with a rival of the same or a higher level pre-empts the Gang, else a
new one starts; a Gang whose effects have all arrived is written to its slots and leaves its cores; a Saved one of a Live Context takes a
cluster with room; its images are loaded once the cores' queues have drained; a Halted Group resumes past its BKPT; the active set.
The model's choices in it, not the manual's: notes/assumptions, logs 59, 65, 75, 90, 91, 92. -/
def Obligations.ImagesAndGroups : Prop :=
  ∀ (s : State) (kid gid : Nat) (k : Kernel) (g : Gang), s.kernels.get? kid = some k → k.gangs.get? gid = some g →
    let part := s.sealedOf (s.ctx k.ctx).part
    let expired : Prop := g.images ≠ [] ∧ (∀ i ∈ g.images, i.state = .resident) ∧ g.started + (s.ctx k.ctx).quantum * 1000 ≤ s.wall
    let rival : Prop := ∃ n ∈ s.nodes, n.pooled = true ∧ n.kind = 1 ∧ s.sealedOf (s.ctx (s.nodeCtx n)).part = part ∧ g.level ≤ n.level s.wall
    (expired → rival → exec (.quantumExpiry kid gid) s = .next ((s.preempt kid gid).due [.quantumExpiry kid gid])) ∧
    (expired → ¬rival → exec (.quantumExpiry kid gid) s =
      .next ((s.setGang kid gid { g with started := s.wall }).due [.quantumExpiry kid gid])) ∧
    ((∃ i ∈ g.images, i.state = .saving) → s.saveWaits kid gid g = false → (∀ i ∈ g.images, s.slotReached i = true) → s.checkedOut g.cluster = [] →
      (g.images.map (fun i => i.core)).Nodup → ∃ t, exec (.imageSaveComplete kid gid) s = .next t ∧
        (∃ g', t.gang? kid gid = some g' ∧ ∀ i ∈ g'.images, i.state = .saved) ∧
        (∀ i ∈ g.images, (t.core i.core).kernel = none ∧ (t.core i.core).groups = []) ∧
        (∀ x ∈ t.teams, x.2.kernel = kid → x.2.gang = gid → x.2.away = true)) ∧
    ((∃ i ∈ g.images, i.state = .saving) → s.saveWaits kid gid g = true →
      exec (.imageSaveComplete kid gid) s = .next (s.due [.imageSaveComplete kid gid])) ∧
    (∀ cl, (∃ i ∈ g.images, i.state = .saved) → (s.ctx k.ctx).state = .live → cl ∈ s.clustersFor k.ctx →
      (∀ x ∈ s.joined kid gid, s.fitsOn cl x = true) →
      exec (.imageRestore kid gid cl) s = .next ((s.joined kid gid).foldl (fun s x => s.takeCores cl x) s)) ∧
    ((∃ i ∈ g.images, i.state = .restoring) → (∀ i ∈ g.images, (s.core i.core).board = []) →
      (∀ o ∈ s.ops, o.2.q ≤ 1 → ∀ i ∈ g.images, o.2.inst ≠ i.core) → (∀ i ∈ g.images, s.slotReached i = true) →
      let s1 := (g.images.foldl (fun s i => s.loadImage kid gid k i) (s.dropReadCopies g.cluster)).mapImages kid gid (fun i => { i with state := .resident, groups := [] })
      let s2 : State := { s1 with teams := s1.teams.map (fun t =>
        if t.2.kernel = kid ∧ t.2.gang = gid then (t.1, t.2.movedTo g.cluster) else t) }
      exec (.restoreComplete kid gid) s = .next ((s2.moveHeirs kid gid g.cluster).mergeGang kid gid g.cluster)) ∧
    (∀ c slot x ls, s.group? c slot = some x → x.state = .halted ls → ∃ t y, exec (.debugResume c slot) s = .next t ∧
      t.group? c slot = some y ∧ y.state = .running ∧ y.lanes = (x.lanes.zip lanes32).map (fun z =>
        if ls.contains z.2 then { z.1 with pc := z.1.pc + 4 } else z.1) ∧ t = { s with cores := t.cores }) ∧
    (∀ c slot a i, (s.core c).active.find? (fun a => a.slot == slot) = some a → s.mayRest c slot = true → a.idle = some i → i + 64 ≤ s.clk →
      a.pin ≤ s.clk → exec (.activeSetLeave c slot) s =
        .next (s.setCore c { s.core c with active := (s.core c).active.filter (fun a => a.slot != slot) })) ∧
    (∃ t, exec .activeSetPinExpiry s = .next t ∧ (∀ c, (t.core c).active = (s.core c).active.map (fun a => if a.pin ≤ s.clk then { a with pin := 0 } else a)) ∧
      t = { s with cores := t.cores, agenda := t.agenda }) ∧
    (∀ c slot x, s.group? c slot = some x → exec (.yieldDemotionEnd c slot) s =
      .next (if x.ydem = 0 then s else s.due [.yieldDemotionEnd c slot]))

/-! ## Pages -/

/-- R348, R350, R351, R353, R361, R363, R366: a walk in flight that reaches a leaf fills the TLBs that asked, and the lanes that waited go on;
one of a Page that migrates waits for the end of the migration; one that reaches none makes the granule Faulted, with one record, which is written while the ring is set and has room; a returned request is
sent again after 1 µs; a rebuilt line takes its bytes, and nothing else of memory changes; a refresh is issued with those postponed, or is
postponed at most eight times, and all are issued before a back-off at eight.
The model's choices in it, not the manual's: notes/assumptions, logs 28, 56, 78, 86. -/
def Obligations.WalksAndLines : Prop :=
  ∀ (s : State) (ctx va : Nat) (acc : AccKind),
    let gr := granOf va
    (∀ w, s.walks.find? (fun w => w.ctx == ctx && w.gran == gr) = some w → s.migrates ctx va 1 = true →
      exec (.walkComplete ctx va acc) s = .next (s.due [.walkComplete ctx va acc])) ∧
    (∀ w, s.walks.find? (fun w => w.ctx == ctx && w.gran == gr) = some w → s.inFlight w = true → s.migrates ctx va 1 = false →
      walkWaits s w.die va 4 0 (s.ctx ctx).ptroot = none →
      (∀ t, s.walk ctx va = .leaf t → exec (.walkComplete ctx va acc) s = .next (s.walkLeaf w t) ∧
        (∀ c, c < 384 → w.units = [c] → s.tlb = [] → (s.walkLeaf w t).tlb = [{ t with unit := c }, { t with unit := 384 + c / 4 }]) ∧
        (∀ c slot g, w.units = [c] → s.ctxAt c = ctx → s.group? c slot = some g →
          ∃ g', (s.walkLeaf w t).group? c slot = some g' ∧ ∀ l ∈ g'.lanes, l.wait ≠ .walk ctx gr)) ∧
      (∀ kind lvl ea, s.walk ctx va = .fault kind lvl ea → (∀ c ∈ s.cores, ∀ g ∈ c.2.groups, g.2.onWalk ctx gr = false) →
        s.faulted.contains (ctx, gr) = false →
        let part := s.sealedOf (s.ctx ctx).part
        exec (.walkComplete ctx va acc) s = .next { s with
          walks := s.walks.filter (fun w => !(w.ctx == ctx && w.gran == gr))
          faulted := s.faulted ++ [(ctx, gr)]
          xrecs := s.xrecs ++ [{ part := part, ctx := ctx, va := gr * 2 ^ 18, acc := accCode acc, lvl := lvl, kind := kind, eaddr := ea }]
          agenda := s.agenda ++ [.xfaultRecordWrite part] })) ∧
    (∀ part r die, s.xrecs.find? (fun r => r.part == part) = some r → s.firstDie part = some die →
      let w := s.window die
      let seq := s.xseq.getD part 0 + 1
      let pa := w.xfbase + 32 * (w.xftail % 2 ^ w.xflg)
      (w.xflg = 0 ∨ 2 ^ w.xflg ≤ seqAhead w.xftail w.xfhead → exec (.xfaultRecordWrite part) s = .next s) ∧
      (w.xflg ≠ 0 → seqAhead w.xftail w.xfhead < 2 ^ w.xflg → s.stampsNow part = true → ∃ t d, exec (.xfaultRecordWrite part) s = .next t ∧
        t.diffs = s.diffs ++ [d] ∧ d.part = part ∧ d.stamp = s.stamps.getD part 1 ∧ d.items = [.store true false pa (r.bytes seq)] ∧
        (t.window die).xftail = (w.xftail + 1) % 2 ^ 32 ∧ t.xseq.getD part 0 = seq ∧ t.xrecs = s.xrecs.erase r ∧ t.mem = s.mem)) ∧
    (∀ c slot g since, s.group? c slot = some g → g.hold = .resend since → exec (.requestResend c slot) s =
      .next (if s.wall < since + 1000 then s.due [.requestResend c slot] else s.setGroup c slot { g with hold := .none })) ∧
    (∀ line bytes, s.badLines.contains line = true → s.groupBroken = false → s.stripeBusy line = false → bytes.length = 64 →
      Memory.wf s.mem = true → ∃ t, exec (.lineRebuild line bytes) s = .next t ∧ (∀ i, i < 64 → t.mem.read (64 * line + i) = bytes.getD i 0) ∧
      (∀ a, (a < 64 * line ∨ 64 * line + 64 ≤ a) → t.mem.read a = s.mem.read a) ∧ line ∉ t.badLines ∧
      t = { s with mem := t.mem, badLines := t.badLines, parked := t.parked }) ∧
    (∀ st ch pc bk, let b := bankNo st ch pc bk; let x := s.banks.getD b (0, 0)
      (x.1 ≤ s.wall → exec (.refresh st ch pc bk) s = .next { s with banks := s.banks.set b (s.wall + 350 * (x.2 + 1), 0) }) ∧
      (s.wall < x.1 → x.2 < 8 → exec (.refresh st ch pc bk) s = .next { s with banks := s.banks.set b (x.1, x.2 + 1) }) ∧
      (x.1 ≤ s.wall → x.2 = 8 → exec (.refreshBackoff st ch pc bk) s = .next { s with banks := s.banks.set b (s.wall + 350 * 9, 0) }) ∧
      (x.1 ≤ s.wall → x.2 ≠ 8 → exec (.refreshBackoff st ch pc bk) s = .next { s with banks := s.banks.set b (s.wall + 350, x.2) }))

/-- R350, R352, R354, R355, R358: INVAL drops and squashes what uses its range, and ends when what used it has ended; XRESOLVE lets the
accesses of a Faulted granule walk again, XFAIL makes its Groups trap; MIGRATE makes its Page Migrating, and its steps copy the frame, move
the leaf, drop the translations, and forward what waited; WRREGION judges eight descriptors, which take effect once no difference waits.
The model's choices in it, not the manual's: notes/assumptions, logs 41, 42, 43, 45. -/
def Obligations.PageCommands : Prop :=
  ∀ (s : State) (die : Nat),
    let w := s.window die
    let ctx := w.op 0x10 1
    let va := w.op 0x18 8
    let new := w.op 0x20 8
    let pa := w.op 0x10 8
    let gr := granOf va
    let known : Prop := (s.ctx ctx).state ≠ .free ∧ va < 2 ^ 57
    let r := invalRange va (w.op 0x20 1)
    let x := s.beginInval die ctx r.1 r.2 []
    (s.goes = [(die, 0x30)] → known → w.op 0x20 1 ≤ 3 → s.migrations = [] → exec .inval s = .next (if x.1.invalDone x.2
      then x.1.answer die 0 [] else (({ x.1 with invals := x.1.invals ++ [x.2] } : State).continueAs die 0x130).due [.inval])) ∧
    (∀ i, s.goes = [(die, 0x130)] → s.invals = [i] → i.die = die → s.diffs = [] → s.offers = [] → s.ops = [] →
      exec .inval s = .next (({ s with invals := [] } : State).answer die 0 [])) ∧
    (s.goes = [(die, 0x30)] → (s.ctx ctx).state = .free → exec .inval s = .next (s.answer die 1 [])) ∧
    (s.taken 0x32 = some die → known → s.faulted.contains (ctx, gr) = true → exec .xresolve s = .next ((s.wakeFaulted ctx gr).answer die 0 [])) ∧
    (s.taken 0x32 = some die → known → s.faulted.contains (ctx, gr) = false → exec .xresolve s = .next (s.answer die 1 [])) ∧
    (s.taken 0x33 = some die → known → s.faulted.contains (ctx, gr) = true → s.migrations = [] → (∀ o ∈ s.ops, o.2.wants = none) →
      (∀ n ∈ s.nodes, n.wants = none) →
      let told := (s.groupsWith (fun _ g => g.hold == .fault ctx gr)).foldl (fun s g =>
        s.modGroup g.1 g.2 (fun x => { x with failed := unionNat x.failed [gr] })) s
      exec .xfail s = .next ((told.wakeFaulted ctx gr).answer die 0 [])) ∧
    (∀ t, s.taken 0x31 = some die → known → s.tlb.find? (fun t => t.maps ctx va) = some t → new % 2 ^ t.lg = 0 → new < 2 ^ 40 →
      s.migrations = [] → s.outIn [t] = [] →
      let part := s.sealedOf (s.ctx ctx).part
      let m : Migration := { die := die, ctx := ctx, va := t.va, lg := t.lg, old := t.frame, new := new, part := part,
                             bound := s.lastStamp part, step := 2, mark := 0, was := [] }
      exec .migrate s = .next ((({ s with migrations := [m] } : State).continueAs die 0x131).due [.migrationComplete die])) ∧
    (∀ m, s.migrations = [m] → m.die = die →
      let ready : Prop := s.migrationReady m = true
      let on (s : State) (k : Nat) : State := (s.setMigration m { m with step := k }).due [.migrationComplete die]
      let y := s.beginInval die m.ctx m.va (2 ^ m.lg) []
      let s1 : State := { s with invals := s.invals.filter (fun i => !(i.die == die && i.ctx == m.ctx && i.lo == m.va)) }
      (s.diffs = [] → s.stampsNow m.part = true → s.badLines = [] → s.rebuilding = [] → s.offers = [] → s.ops = [] → ready) ∧
      (ready → m.step = 2 → exec (.migrationComplete die) s = .next (on (s.copyFrame m) 3)) ∧
      (ready → m.step = 3 → exec (.migrationComplete die) s = .next (on ((s.copyPoison m).moveLeaf m) 4)) ∧
      (ready → m.step = 4 → exec (.migrationComplete die) s =
        .next ((({ y.1 with invals := y.1.invals ++ [y.2] } : State).setMigration m
          { m with step := 5, was := s.tlb.filter (fun t => t.ctx == m.ctx && t.va == m.va) }).due [.migrationComplete die])) ∧
      (ready → m.step = 5 → exec (.migrationComplete die) s = .next (((s1.forward m).answer die 0 []).due [.differenceApply m.part]))) ∧
    (s.taken 0x41 = some die → (pa % 256 ≠ 0 ∨ physOk pa = false) → exec .wrregion s = .next (s.answer die 2 [])) ∧
    (∀ rs, s.taken 0x41 = some die → pa % 256 = 0 → physOk pa = true → physOk (pa + 2047) = true →
      (∀ a ∈ upFrom pa 2048, s.waits 0 a = false) → s.judgeMap (s.readPhys pa 2048) = .inl rs →
      exec .wrregion s = .next ((({ s with newRegions := some rs } : State).continueAs die 0x141).due [.mapTakeEffect])) ∧
    (∀ rs, s.newRegions = some rs → s.diffs = [] → ∃ t, exec .mapTakeEffect s = .next t ∧ t.regions = rs ∧ t.newRegions = none ∧
      t.clusters = [] ∧ t.mem = s.mem)

/-! ## Windows and registers -/

/-- R268, R300, R353, R406, R408, R418: the registers of a command window: cmd, cgo, cop, xfbase, fwwin and the capture units as written;
W1C counts; values out of range are ignored; the sampling rule of a capture unit, whose sensor, rail or meter the model is given; the
register aperture.
The model's choices in it, not the manual's: notes/assumptions, log 100. -/
def Obligations.WindowRegisters : Prop :=
  ∀ (s : State) (die v : Nat), die < 4 →
    let w := s.window die
    let first : Prop := s.firstDie (s.partOfDie die) = some die
    exec (.registerWrite die 0 4 v) s = .next (s.setWindow die { w with cmd := v % 256 }) ∧
    (w.busy = true → exec (.registerWrite die 4 4 v) s = .next s) ∧
    (w.busy = false → ∃ t, exec (.registerWrite die 4 4 1) s = .next t ∧ t.window die = { w with busy := true } ∧
      t.goes = s.goes ++ [(die, if s.dieTakes die w && (commandEvent w.cmd).isSome then w.cmd else 0)]) ∧
    (∀ off, off % 4 = 0 → 0x10 ≤ off → off + 4 ≤ 0x200 →
      exec (.registerWrite die off 4 v) s = .next (s.setWindow die { w with cop := w.cop.put off (toBytes 4 v) })) ∧
    (first → exec (.registerWrite die 0x440 8 v) s = .next (s.setWindow die { w with xfbase := v % 2 ^ 64 })) ∧
    (∀ i, i < 8 → exec (.registerWrite die (0x460 + 8 * i) 8 v) s = .next (s.setWindow die { w with fwwin := w.fwwin.set i (v % 2 ^ 64) })) ∧
    (∀ n i, n < 32 → i < 15 → exec (.registerWrite die (0x2004 + 0x100 * n + 4 * i) 4 v) s = .next (s.setCapture die n
      { s.capture die n with edges := (s.capture die n).edges.set i (signedOf 32 (v % 2 ^ 32)) })) ∧
    (∀ off size, off % 4 ≠ 0 → exec (.registerWrite die off size v) s = .next s) ∧
    (∀ off size, (size = 4 ∨ size = 8) → off % size = 0 → off + size ≤ 16 →
      let old := toBytes 16 s.disc.tdnext
      let n := ofBytes (old.take off ++ toBytes size v ++ old.drop (off + size))
      exec (.tdnextWrite die { off := off, size := size, value := v }) s = .next (if field n 31 0 < 10 ^ 9
        then { s with disc := { s.disc with valid := bitAt n 95, sec := field n 79 32, ns := field n 31 0 } } else s)) ∧
    exec (.tdstatDiscClear die v) s = .next { s with disc := { s.disc with disc := w1c 8 s.disc.disc (field v 23 16) } } ∧
    exec (.mcskipClear die v) s = .next (s.setWindow die { w with mcskip := w1c 32 w.mcskip v }) ∧
    exec (.lperiodWrite die v) s =
      .next (if die = 0 ∧ 10 ≤ field v 13 0 ∧ field v 13 0 ≤ 10080 then { s with lperiod := field v 13 0 } else s) ∧
    (first → 4 ≤ v → v ≤ 12 → exec (.xflgWrite die v) s =
      .next ((s.setWindow die { w with xflg := v }).due [.xfaultRecordWrite (s.partOfDie die)])) ∧
    (v < 4 ∨ 12 < v → exec (.xflgWrite die v) s = .next s) ∧
    (first → exec (.xfheadWrite die v) s =
      .next ((s.setWindow die { w with xfhead := v % 2 ^ 32 }).due [.xfaultRecordWrite (s.partOfDie die)])) ∧
    (∀ n, exec (.captureClear die n) s = .next (s.setCapture die n
      { s.capture die n with min := 0x7FFFFFFF, max := -0x80000000, buckets := List.replicate 16 0 })) ∧
    (∀ n x, let u := s.capture die n
      let i := (u.edges.filter (fun e => decide (e ≤ x))).length
      let meter : Prop := u.src = 4 ∧ u.sel < 16 ∨ u.src = 5 ∧ u.sel < 8 ∨ u.src = 6 ∧ u.sel < 6
      (u.en = true → meter → ascending u.edges = true → exec (.monitorSample die n x) s = .next (s.setCapture die n
        { u with min := min u.min x, max := max u.max x, buckets := u.buckets.set i (min (2 ^ 32 - 1) (u.buckets.getD i 0 + 1)) })) ∧
      (¬meter → exec (.monitorSample die n x) s = .next s)) ∧
    (∀ base, base % 2 ^ 18 = 0 → exec (.nclEnumeration base) s = .next { s with aperture := some base }) ∧
    (s.taken 0 = some die → exec .cmdUnknown s = .next (s.answer die 2 [])) ∧
    (∀ status resp, let t := s.answer die status resp
      (t.window die).busy = false ∧ (t.window die).count = (w.count + 1) % 256 ∧ (t.window die).status = status ∧
        (∀ e ∈ t.goes, e.1 ≠ die) ∧ (∀ d, d ≠ die → t.window d = s.window d))

/-- R266, R267, R269, R270, R272, R399: the commands about Contexts, partitions and collective groups.
R283, R292, R293, R368, R369, R373: the commands about Queues and Indexes.
The model's choices in it, not the manual's: notes/assumptions, logs 43, 44, 62. -/
def Obligations.WindowCommands : Prop :=
  (∀ (s : State) (die : Nat),
     let w := s.window die
     let n := w.op 0x10 1
     let c := s.ctx n
     let image := ofBytes (w.opBytes 0x10 64)
     let free (k : Nat) : Prop := k < 256 ∧ (s.ctx k).state = .free ∧ ∀ j, j < k → (s.ctx j).state ≠ .free
     (s.taken 1 = some die → s.ctxBad image = true → exec .create s = .next (s.answer die 2 [])) ∧
     (∀ k, s.taken 1 = some die → s.ctxBad image = false → free k → exec .create s =
       .next ((s.setCtx k { ctxOf image with state := .live, enrolled := s.enrolled }).answer die 0 (toBytes 1 k))) ∧
     (s.taken 1 = some die → s.ctxBad image = false → (∀ k, k < 256 → (s.ctx k).state ≠ .free) →
       exec .create s = .next (s.answer die 3 [])) ∧
     (s.taken 2 = some die → exec .read s = .next (s.answer die 0 (if c.state = .free then Ctx.reset.bytes n else c.bytes n))) ∧
     (s.taken 3 = some die → c.state ≠ .live → exec .suspend s = .next (s.answer die 1 [])) ∧
     (s.taken 3 = some die → c.state = .live → exec .suspend s =
       let s1 := s.setCtx n { c with state := .suspending }
       .next ((((s1.ctxGangs n).foldl (fun s g => s.preemptGang g.1 g.2) s1).settleCtx n).answer die 0 [])) ∧
     (s.taken 4 = some die → exec .resume s = .next (if c.state = .suspended
       then ((s.setCtx n { c with state := .live }).due [.kernelDispatch c.part]).answer die 0 [] else s.answer die 1 [])) ∧
     (s.taken 5 = some die → exec .kill s = .next (if c.state = .live ∨ c.state = .suspending ∨ c.state = .suspended
       then (s.killCtx n).answer die 0 [] else s.answer die 1 [])) ∧
     (let y := s.beginInval die n 0 (2 ^ 57) [];
       s.taken 6 = some die → s.invals = [] → exec .destroy s = .next (if s.mayDestroy n then
         (if y.1.invalDone y.2 then (y.1.destroyCtx n).answer die 0 []
           else (({ y.1 with invals := y.1.invals ++ [y.2] } : State).continueAs die 0x106).due [.destroy]) else s.answer die 1 [])) ∧
     (∀ i, s.goes = [(die, 0x106)] → s.invals = [i] → i.die = die → s.diffs = [] → s.offers = [] → s.ops = [] → s.mayDestroy i.ctx = true →
       exec .destroy s = .next ((({ s with invals := [] } : State).destroyCtx i.ctx).answer die 0 [])) ∧
     (∀ ps, s.taken 0x40 = some die → s.judgeParts (w.opBytes 0x10 256) = .inl ps → exec .wrpart s = .next ((s.setParts ps).answer die 0 [])) ∧
     (∀ st, s.taken 0x40 = some die → s.judgeParts (w.opBytes 0x10 256) = .inr st → exec .wrpart s = .next (s.answer die st [])) ∧
     (∀ g, s.taken 0x42 = some die → s.judgeColl n (w.opBytes 0x18 16) = .inl g →
       exec .wrcgrp s = .next (({ s with colls := s.colls.set n g } : State).answer die 0 []))) ∧
  (∀ (s : State) (die : Nat),
     let w := s.window die
     let n := w.op 0x10 2
     let q := s.queue n
     let x := ofBytes (w.opBytes 0x18 32)
     let m := w.op 0x10 1
     let segs := (upFrom 0 16).map (fun k => (k, ofBytes (w.opBytes (0x38 + 16 * k) 16)))
     let new : Queue := { Queue.reset with ctl := field x 255 192, qbase := field x 191 128, ctx := field x 63 56, lgsize := field x 55 51,
                                           device := bitAt x 50, state := 1 }
     let icr : Prop := s.taken 0x20 = some die ∧ ∀ g ∈ s.goes, g.2 < 0x1000
     let qopen : Prop := s.taken 0x10 = some die ∧ ∀ g ∈ s.goes, g.2 < 0x1000
     (qopen → (1024 ≤ n ∨ s.queueBad x = true) → exec .qopen s = .next (s.answer die 2 [])) ∧
     (qopen → n < 1024 → s.queueBad x = false → q.state ≠ 0 → exec .qopen s = .next (s.answer die 1 [])) ∧
     (qopen → n < 1024 → s.queueBad x = false → q.state = 0 → ∃ t, exec .qopen s = .next t ∧ t.queue n = new ∧
       (∀ k, k ≠ n → t.queue k = s.queue k) ∧ t.goes = s.goes.filter (fun g => g.1 != die) ++ [(die, 0x1000 + n)] ∧
       t.agenda.getLast? = some .qopen ∧ t.mem = s.mem) ∧
     (∀ k, k < 1024 → s.goes = [(die, 0x1000 + k)] → s.diffs = [] → s.offers = [] → exec .qopen s = .next (s.answer die 0 [])) ∧
     (s.taken 0x11 = some die → n < 1024 → q.state = 1 ∨ q.state = 2 →
       exec .qclose s = .next ((((s.setQueue n { q with state := 3 }).queueWords n).settleQueue n).answer die 0 [])) ∧
     (s.taken 0x12 = some die → n < 1024 → exec .qresume s = .next (if q.state = 2 then
       (((s.setQueue n { q with state := 1, reason := 0 }).queueWords n).due [.nodeFetch n]).answer die 0 [] else s.answer die 1 [])) ∧
     (s.taken 0x13 = some die → n < 1024 → exec .qread s = .next (s.answer die 0 q.bytes)) ∧
     (icr → s.indexBad m x segs = true → exec .icreate s = .next (s.answer die 2 [])) ∧
     (icr → s.indexBad m x segs = false → (s.index m).state ≠ 0 → exec .icreate s = .next (s.answer die 1 [])) ∧
     (icr → s.indexBad m x segs = false → (s.index m).state = 0 →
       let s1 := (indexOf x segs).segs.foldl (fun s g => s.zeroSlots (indexOf x segs) g) (s.setIndex m (indexOf x segs))
       exec .icreate s = .next (if s1.zeroed m then s1.answer die 0 [] else (s1.continueAs die (0x2000 + m)).due [.icreate]) ∧
         s1.index m = indexOf x segs ∧ (∀ k, k ≠ m → s1.index k = s.index k) ∧ s1.mem = s.mem) ∧
     (∀ k, k < 256 → s.goes = [(die, 0x2000 + k)] → s.offers = [] → exec .icreate s = .next (s.answer die 0 [])) ∧
     (s.taken 0x21 = some die → exec .idestroy s = .next (if (s.index m).state = 1
       then ((s.setIndex m { s.index m with state := 2 }).settleIndex m).answer die 0 [] else s.answer die 1 [])) ∧
     (s.taken 0x22 = some die → exec .iread s = .next (s.answer die 0 (s.indexBytes m))))

/-- R270: what KILL and DESTROY leave: a killed Context is Killing or Dead, a destroyed one is Free, and none of its Kernels, Queues and
translations stands. -/
def Obligations.ContextsEnd : Prop :=
  ∀ (s : State) (n : Nat),
    (((s.killCtx n).ctx n).state = .killing ∨ ((s.killCtx n).ctx n).state = .dead) ∧
    (let t := s.destroyCtx n;
      (t.ctx n).state = .free ∧ (∀ k ∈ t.kernels, k.2.ctx ≠ n) ∧ (∀ x ∈ t.tlb, x.ctx ≠ n) ∧
        (∀ q ∈ t.queues, q.2.state ≠ 0 → q.2.ctx ≠ n))

/-! ## Queues and nodes -/

/-- R261, R285 to R293, R296 to R299: a new tail is read and fetched from, one too far ahead halts the Queue; the next record is fetched
within the ring; a node that has ended gets its status word, and done moves over it; join, conditional, engine and timed nodes are taken as
the first of their pool; a conditional node's predicate is read once; a WAITT is woken at its time.
The model's choices in it, not the manual's: notes/assumptions, logs 15, 39, 64. -/
def Obligations.QueuesAndNodes : Prop :=
  ∀ (s : State) (q seq : Nat) (n : Node),
    let x := s.queue q
    let part := s.sealedOf (s.ctx x.ctx).part
    let tail := s.numPhys x.ctl 4
    let next := (x.fetched + 1) % 2 ^ 32
    let mine : Prop := s.node? q seq = some n ∧ n.queue = q ∧ n.seq = seq
    let first : Prop := mine ∧ n.pooled = true ∧ s.controllerFirst n = true
    let newTail : Prop := x.state = 1 ∧ x.device = false ∧ s.waits (s.queueDie x) x.ctl = false ∧ 0 < seqAhead tail x.tail ∧
      seqAhead tail x.tail < 2 ^ 31
    (newTail → seqAhead tail x.done ≤ 2 ^ x.lgsize → exec (.tailWrite q) s = .next ((s.setQueue q { x with tail := tail }).due [.nodeFetch q])) ∧
    (newTail → 2 ^ x.lgsize < seqAhead tail x.done → exec (.tailWrite q) s = .next ((s.setQueue q { x with tail := tail }).haltQueue q 2)) ∧
    (x.state = 1 → x.device = false → seqAhead x.tail x.done ≤ 2 ^ x.lgsize → 0 < seqAhead x.tail x.fetched → seqAhead x.tail x.fetched < 2 ^ 31 →
      seqAhead next x.done ≤ 2 ^ x.lgsize → (∀ a ∈ upFrom (x.slotAddr next) 64, s.waits (s.queueDie x) a = false) →
      physOk (x.slotAddr next) = true → s.poisoned (x.slotAddr next) 64 = false →
      let node : Node := { queue := q, seq := next, bytes := s.readPhys (x.slotAddr next) 64, state := .waiting, status := 0, wants := none,
                           read := false }
      let skips := x.skips.filter (fun k => seqAhead next k.1 ≤ seqAhead k.2 k.1)
      let s1 := (({ s with nodes := s.nodes ++ [node] } : State).setQueue q { x with fetched := next, skips := skips }).queueWords q
      exec (.nodeFetch q) s = .next (((s1.admitNode node).touch (x.slotAddr next)).due [.nodeFetch q])) ∧
    (mine → n.state = .ended → s.stampsNow part = true → ∃ t, exec (.nodeComplete q seq) s = .next t ∧
      (∃ d ∈ t.diffs, d.part = part ∧ d.stamp = s.stamps.getD part 1 ∧ d.items = [storeItem (x.slotAddr seq + 60) (toBytes 4 n.status)]) ∧
      (s.nodes = [n] → x.state = 1 → seq = (x.done + 1) % 2 ^ 32 → n.halt = false → (t.queue q).done = seq ∧ t.nodes = [])) ∧
    (first → exec (.joinNode q seq) s = .next ((s.startNode n).endNode q seq 0)) ∧
    (first → exec (.conditionalNode q seq) s = .next ((s.startNode n).endNode q seq n.status)) ∧
    (∀ c ps, mine → n.state = .waiting → n.kind = 3 → n.read = false → x.skips = [] → n.bad = none → s.badWait n = none → s.unmet n = [] →
      s.reach x.ctx [(n.arg0, 4, .engRead)] = .ok ps → s.vwaits (s.nodeDie n) ps n.arg0 4 = none → s.vpoison ps n.arg0 4 = false →
      icondOf (n.fld 99 96) = some c →
      let m : Node := { n with read := true, status := 0, wants := none }
      let pass : Bool := icondHolds c 32 (ofBytes (s.vread ps n.arg0 4)) (n.fld 95 64)
      (pass = true → exec (.conditionalNode q seq) s = .next ((s.setNode m).poolNode m)) ∧
      (pass = false → exec (.conditionalNode q seq) s = .next (((s.setNode m).skipAfter q seq (n.fld 127 112)).poolNode m))) ∧
    (first → exec (.timedNodeExpiry q seq) s = .next ((s.startNode n).due [.timedNodeExpiry q seq])) ∧
    (mine → n.state = .running → exec (.timedNodeExpiry q seq) s = .next (if n.timeCome s = true ∧ n.fld 144 144 = 0
      then s.endNode q seq s.disc.unlk.toNat else s.due [.timedNodeExpiry q seq])) ∧
    (∀ m, mine → n.state = .running → n.leadCome s = true → s.node? q ((seq + 1) % 2 ^ 32) = some m → m.kind = 1 → m.state = .waiting →
      s.unmet m = [(q, seq)] → s.badWait m = none →
      let s1 := s.setNode { n with state := .held }
      exec (.timedHoldLoad q seq) s = .next (if s1.poolRoom m then s1.poolNode m else s1.due [.timedHoldLoad q seq])) ∧
    (∀ c, mine → (∀ o ∈ s.ops, o.2.node ≠ some (q, seq)) → s.nodeCore n = some c →
      s.accepted (n.fld 71 64) (queueInst (n.fld 71 64) c) < queueDepth (n.fld 71 64) →
      let rivals := s.nodes.filter (fun m => s.mayTake m && m.kind == 2 && s.unitsOf m == s.unitsOf n && s.nodePart m == s.nodePart n)
      (n.pooled = true → s.mayTake n = true → firstNode s.wall rivals = some n →
        exec (.engineNodeTake q seq) s = .next ((s.startNode n).engineImage { n with state := .running } c)) ∧
      (n.state = .running → exec (.engineNodeTake q seq) s = .next (s.engineImage n c))) ∧
    (∀ c slot g sec ns, s.group? c slot = some g → (∀ l ∈ g.lanes, l.wait = .time sec ns ∨ l.wait = .none) → (∃ l ∈ g.lanes, l.wait = .time sec ns) →
      exec (.waittWake c slot) s = .next (if timeReached s.sec s.ns sec ns
        then s.setGroup c slot { g with lanes := g.lanes.map (fun l => { l with wait := .none }) } else s.due [.waittWake c slot]))

/-! ## Power, time, Links, leases, management -/

/-- R1, R34, R36, R269, R419: bands of the input voltage; the shutdown after 1 ms out of range and the restart after 1 s in range; what a
power-on reset of the main domain keeps and what it clears: every byte of device memory is lost, every byte of host memory, which is outside
the part, stands; heat; the clamp; caps, of which the lower governs.
The model's choices in it, not the manual's: notes/assumptions, logs 1, 16, 20, 23, 50, 88, 89, 94. -/
def Obligations.PowerAndHeat : Prop :=
  ∀ (s : State) (mv tenths die : Nat),
    (∃ t, exec (.inputVoltageChange mv) s = .next t ∧ t.power.vin = mv ∧
      (t.power.vhold = true ↔ (38000 ≤ mv ∧ mv < 40000) ∨ (60000 < mv ∧ mv ≤ 66000)) ∧
      (t.power.standby = true ↔ 36000 ≤ mv ∧ mv ≤ 72000) ∧
      (36000 ≤ mv → t = { s with power := t.power, agenda := t.agenda } ∧ t.power.main = s.power.main) ∧
      (36000 ≤ mv → (mv < 38000 ∨ 66000 < mv) → s.power.main = true → .powerFaultShutdown ∈ t.agenda) ∧
      (40000 ≤ mv → mv ≤ 60000 → s.power.main = false → .mainRestart ∈ t.agenda) ∧
      (mv < 36000 → s.power.main = true → t = ({ s with power := t.power } : State).mainReset false)) ∧
    (s.power.main = true → s.power.vin < 38000 ∨ 66000 < s.power.vin →
      exec .powerFaultShutdown s = .next (if s.power.vinAt + 1000000 < s.wall then s.shutDown 4 else s.due [.powerFaultShutdown])) ∧
    (s.power.main = true → 38000 ≤ s.power.vin → s.power.vin ≤ 66000 → exec .powerFaultShutdown s = .next s) ∧
    (s.power.main = false → 40000 ≤ s.power.vin → s.power.vin ≤ 60000 →
      exec .mainRestart s = .next (if s.power.vinAt + 1000000000 ≤ s.wall then s.mainReset true else s.due [.mainRestart])) ∧
    (∀ on, let t := s.mainReset on
      t.power.main = on ∧ t.power.cap = 2400 ∧ t.power.hostCap = 2400 ∧ t.power.mgmtCap = 2400 ∧ 
        (∀ a, a < 2 ^ 49 → t.mem.read a = 0) ∧ (∀ a, 2 ^ 49 ≤ a → t.mem.read a = s.mem.read a) ∧ t.diffs = [] ∧ t.cores = [] ∧
        t.ctxs = [] ∧ t.kernels = [] ∧ t.queues = [] ∧ t.indexes = [] ∧ t.ops = [] ∧ t.tlb = [] ∧ (t.clk, t.sec, t.ns) = (0, 0, 0) ∧
        (∀ l, l < 20 → (t.link l).state = if (s.link l).state = .retired then .retired else .training) ∧ t.parts = s.parts ∧
        t.colls = s.colls ∧ t.lperiod = s.lperiod ∧ t.units = restoredUnits s.nvUnits ∧ t.records = s.records ∧ t.overflow = s.overflow ∧
        t.regions = State.reset.regions ∧ t.windows = []) ∧
    (tenths < 1150 ∨ s.power.main = false → exec (.thermalTrip tenths) s =
      .next { s with power := { s.power with thold := decide (1050 ≤ tenths) } }) ∧
    (1150 ≤ tenths → s.power.main = true → exec (.thermalTrip tenths) s =
      .next ((({ s with power := { s.power with thold := true } } : State).shutDown 7).due [.mainRestart])) ∧
    exec .powerClamp s = .next { s with power := { s.power with clamp := true } } ∧
    (s.taken 0x43 = some die →
      let x := (s.window die).op 0x10 2
      exec .setcap s = .next (if x = 2400 ∨ x = 1600 ∨ x = 1000 then
        (({ s with power := { s.power with hostCap := x } } : State).due [.capTakeEffect]).answer die 0 [] else s.answer die 2 [])) ∧
    exec .capTakeEffect s = .next { s with power := { s.power with cap := min s.power.hostCap s.power.mgmtCap, clamp := false } }

/-- R32, R301: an edge acts once wtime has come to its time; while Unlocked and not stepped, a wide edge with a valid second steps wtime to
it; a Locked discipline slews by the offset, at most 20 ppm, and one that is Unlocked does not; narrow edges, and edges far from the second once
stepped, are counted and change nothing else; four edges within 100 ns lock; an offset above 1 µs, three pulses without a valid second, and
3 s without an accepted edge unlock.
The model's choices in it, not the manual's: notes/assumptions, log 51. -/
def Obligations.TimeDiscipline : Prop :=
  ∀ (s : State) (sec ns : Nat),
    let d := s.disc
    let t0 := timeNs sec ns
    let now := timeNs s.sec s.ns
    let want := timeNs d.sec d.ns
    let off : Int := (t0 : Int) - want
    let near : Prop := t0 ≤ now ∧ d.discards t0 false = false
    let counted : Host.Outcome State Fault Refusal := .next { s with disc := { d with disc := min 255 (d.disc + 1) } }
    let stays (t : State) : Prop := t.sec = s.sec ∧ t.ns = s.ns
    let steps (t : State) : Prop := t.sec = (want + (now - t0)) / 10 ^ 9 % 2 ^ 48 ∧ t.ns = (want + (now - t0)) % 10 ^ 9
    (∀ narrow, now < t0 → exec (.ppsEdge sec ns narrow) s = .next (s.due [.ppsEdge sec ns narrow])) ∧
    (t0 ≤ now → exec (.ppsEdge sec ns true) s = counted) ∧
    (t0 ≤ now → d.stepped = true → ∀ e, d.edgeAt = some e → e ≤ t0 → 1000 < (t0 - e) % 10 ^ 9 → (t0 - e) % 10 ^ 9 < 10 ^ 9 - 1000 →
      exec (.ppsEdge sec ns false) s = counted) ∧
    (near → d.valid = true → d.unlk = true → d.stepped = false → ∃ t, exec (.ppsEdge sec ns false) s = .next t ∧
      steps t ∧ t.disc.stepped = true ∧ t.disc.valid = false ∧ t.disc.good = 0 ∧ t.disc.slew = 0 ∧ t.disc.offs = clampSigned 16 off) ∧
    (near → d.valid = true → d.unlk = true → d.stepped = true → off.natAbs ≤ 100 → ∃ t, exec (.ppsEdge sec ns false) s = .next t ∧
      t.disc.good = d.good + 1 ∧ (t.disc.unlk = true ↔ d.good < 3) ∧ stays t) ∧
    (near → d.valid = true → d.unlk = true → d.stepped = true → 100 < off.natAbs → ∃ t, exec (.ppsEdge sec ns false) s = .next t ∧
      t.disc.good = 0 ∧ t.disc.unlk = true ∧ steps t) ∧
    (near → d.valid = true → d.unlk = false → off.natAbs ≤ 1000 → ∃ t, exec (.ppsEdge sec ns false) s = .next t ∧
      t.disc.slew = max (-20000) (min 20000 (-off)) ∧ t.disc.unlk = false ∧ t.disc.valid = false ∧ t.disc.offs = clampSigned 16 off ∧
      t.disc.miss = 0 ∧ stays t) ∧
    (near → d.valid = true → d.unlk = false → 1000 < off.natAbs → ∃ t, exec (.ppsEdge sec ns false) s = .next t ∧
      t.disc.unlk = true ∧ t.disc.slew = 0 ∧ steps t) ∧
    (near → d.valid = false → d.unlk = false → ∃ t, exec (.ppsEdge sec ns false) s = .next t ∧ stays t ∧
      (t.disc.unlk = true ↔ 2 ≤ d.miss) ∧ (d.miss < 2 → t.disc.miss = d.miss + 1 ∧ t.disc.slew = d.slew) ∧ (2 ≤ d.miss → t.disc.slew = 0)) ∧
    (∀ e, d.unlk = false → d.edgeAt = some e → e + 3 * 10 ^ 9 ≤ timeNs s.sec s.ns →
      exec .ppsLoss s = .next { s with disc := { d with unlk := true, stepped := false, slew := 0 } }) ∧
    (∀ e, d.unlk = false → d.edgeAt = some e → timeNs s.sec s.ns < e + 3 * 10 ^ 9 → .ppsLoss ∉ s.agenda →
      exec .ppsLoss s = .next (s.due [.ppsLoss])) ∧
    (d.unlk = true → exec .ppsLoss s = .next s)

/-- R392, R413: the Link state table: lock, the 100 ms of training and the second before it is tried again, the eighth replay of one flit,
the loss of lock, and the 64 µs of Retraining, after which queued packets are dropped; a Link that is cut drops what queued behind it and what
was crossing it.
R395 to R397: a packet with the number expected is delivered and acknowledged, with those that came early behind it; one ahead of it
within 256 is held; one behind it is acknowledged again and dropped; an acknowledgement frees the source's copy; a packet is
numbered and kept, and sent; a copy without an acknowledgement for 20 µs is sent again, at most 64 times.
The model's choices in it, not the manual's: notes/assumptions, logs 17, 48, 54, 57, 58. -/
def Obligations.LinksAndPackets : Prop :=
  (∀ (s : State) (l : Nat),
     let x := s.link l
     let k := laneLink l
     let y := s.link k
     let up : State := (s.setLink l { state := .up, replays := 0, queued := [], since := s.wall }).recount s
     let scored : State := { s with fresh := s.fresh + 1 }.addScore (laneUnit l) 1
     (x.state = .degraded → exec (.linkLock l) s = .next up) ∧
     (x.state = .training → exec (.linkLock l) s = .next (if s.wall ≤ x.since + 100000000 then up else s)) ∧
     (x.state = .retraining → exec (.linkLock l) s = .next (if s.wall ≤ x.since + 64000 then up.due (arrivals x.queued) else up)) ∧
     (x.state = .training → exec (.trainingTimeout l) s = .next (if x.since + 100000000 ≤ s.wall
       then (s.enterLink l .down).due [.trainingRetry l] else s.due [.trainingTimeout l])) ∧
     (x.state = .down → exec (.trainingRetry l) s = .next (if x.since + 1000000000 ≤ s.wall
       then (s.enterLink l .training).due [.trainingTimeout l] else s.due [.trainingRetry l])) ∧
     (y.state = .up → y.replays < 7 → ∃ n, (n = 1 ∨ n = y.replays + 1) ∧
       exec (.flitReplay l) s = .next (scored.setLink k { y with replays := n })) ∧
     (y.state = .up → y.replays = 7 → exec (.flitReplay l) s = .next (scored.setLink k { y with replays := 1 }) ∨
       exec (.flitReplay l) s = .next (((scored.holdCrossing k).enterLink k .retraining).due [.retrainTimeout k])) ∧
     (y.state = .up → exec (.lockLoss l) s = .next (((s.holdCrossing k).enterLink k .retraining).due [.retrainTimeout k])) ∧
     (y.state ≠ .up → exec (.lockLoss l) s = .next s ∧ exec (.flitReplay l) s = .next s) ∧
     (x.state = .retraining → x.since + 64000 ≤ s.wall → exec (.retrainTimeout l) s =
       .next ((s.cutLink l .degraded).recount s)) ∧
     (∀ into, let t := s.cutLink l into
       t.link l = { state := into, replays := 0, queued := [], since := s.wall } ∧ (∀ m, m ≠ l → t.link m = s.link m) ∧ t.pairs = s.pairs ∧
         (∀ i ∈ t.agenda, i ∈ s.agenda) ∧
         (∀ src dst seq p, .packetArrival src dst seq p ∈ t.agenda → ∀ w, s.packetWay src dst = some w → l ∉ w)) ∧
     (x.state = .retraining → s.wall < x.since + 64000 → exec (.retrainTimeout l) s = .next (s.due [.retrainTimeout l])) ∧
     (x.state = .retired → exec (.linkLock l) s = .next s ∧ exec (.trainingRetry l) s = .next s)) ∧
  (∀ (s : State) (src dst n payload : Nat), n < 2 ^ 16 →
     let p := s.pair src dst
     let ahead := (n + 2 ^ 16 - p.expect) % 2 ^ 16
     (p.expect = n → p.early = [] → exec (.packetArrival src dst n payload) s =
       .next ((s.setPair src dst { p with delivered := p.delivered ++ [payload], expect := (n + 1) % 2 ^ 16 }).due [.packetAck src dst n])) ∧
     (0 < ahead → ahead < 256 → p.expect < 2 ^ 16 → p.early = [] → exec (.packetArrival src dst n payload) s =
       .next ((s.setPair src dst { p with early := [(n, payload)] }).due [])) ∧
     (∀ m other, p.expect = n → n < 2 ^ 16 - 2 → m = n + 1 → p.early = [(m, other)] → exec (.packetArrival src dst n payload) s =
       .next ((s.setPair src dst { p with early := [], delivered := p.delivered ++ [payload, other], expect := n + 2 }).due
         [.packetAck src dst n, .packetAck src dst m])) ∧
     (2 ^ 15 ≤ ahead → exec (.packetArrival src dst n payload) s = .next (s.due [.packetAck src dst n])) ∧
     (256 ≤ ahead → ahead < 2 ^ 15 → exec (.packetArrival src dst n payload) s = .next s) ∧
     ((∃ c ∈ p.copies, c.1 = n) → s.wayOpen src dst = false → exec (.packetAck src dst n) s = .next (s.due [.packetAck src dst n])) ∧
     ((∃ c ∈ p.copies, c.1 = n) → s.wayOpen src dst = true → ∃ t, exec (.packetAck src dst n) s = .next t ∧ t.pair src dst =
       { p with copies := p.copies.filter (fun c => c.1 != n) } ∧ (∀ a b, (a, b) ≠ (src, dst) → a < 2 ^ 17 → b < 2 ^ 17 → src < 2 ^ 17 → dst < 2 ^ 17 →
         t.pair a b = s.pair a b)) ∧
     (∀ y k at_, p.copies = [(n, y, k, at_)] →
       let sent (m : Nat) : State := s.setPair src dst { p with copies := [(n, y, m, s.wall)], unsent := [] }
       (p.unsent = [n] → exec (.resendTimeout src dst n) s = .next (((sent k).transmit src dst n y).due [.resendTimeout src dst n])) ∧
       (p.unsent = [] → s.wall < at_ + 20000 → exec (.resendTimeout src dst n) s = .next (s.due [.resendTimeout src dst n])) ∧
       (p.unsent = [] → at_ + 20000 ≤ s.wall → k < 64 →
         exec (.resendTimeout src dst n) s = .next (((sent (k + 1)).transmit src dst n y).due [.resendTimeout src dst n])) ∧
       (p.unsent = [] → at_ + 20000 ≤ s.wall → 64 ≤ k → exec (.resendTimeout src dst n) s = .next (s.giveUp src dst n y))) ∧
     (let t := s.sendPacket src dst payload
      (t.pair src dst).copies = p.copies ++ [(p.next, payload, 0, s.wall)] ∧ (t.pair src dst).next = (p.next + 1) % 2 ^ 16 ∧
        (t.pair src dst).unsent = p.unsent ++ [p.next] ∧ t.agenda = s.agenda ++ [.resendTimeout src dst p.next]))

/-- R408 to R413, R419: a unit that is due and alone in its scope is Requested, and a core's Gangs are pre-empted 50 ms later; it is tested once
no image stands on it, a lane group once its spare is free; its patterns, and a channel's patrol and row repairs, end the lease; a core that
passes at a lower bin only gets that bin, with a record; a port whose first lane fails goes on with its spare; failures score 4,096 and retire; a
channel's window is pinned while its patterns run, and a row with two corrected events in the lease is repaired, after its lines that parity
rebuilds; at 8,192 the unit is Retired with a record; the watchdog.
The model's choices in it, not the manual's: notes/assumptions, logs 47, 49, 107. -/
def Obligations.Leases : Prop :=
  ∀ (s : State) (u : Nat), unitOk u = true →
    let x := s.unit u
    (x.state ≠ .retired → x.state ≠ .rebuild → 8192 ≤ x.score → exec (.leaseDue u) s = .next (s.retireUnit u 2)) ∧
    (x.state = .inService → x.score < 8192 → 1024 ≤ x.score ∨ x.leasedAt + s.lperiod * 60000000000 ≤ s.wall → unitClass u ≠ 4 →
      s.spareUsed u = false → s.scopeBusy u = false → exec (.leaseDue u) s =
        .next ((s.setUnit u { x with state := .requested, requestedAt := s.wall }).due
          ((if u < 4096 then [.leasePreemptTimer] else []) ++ [.leaseTestingStart u]))) ∧
    (x.state = .inService → x.score < 1024 → s.wall < x.leasedAt + s.lperiod * 60000000000 → unitClass u ≠ 4 → s.spareUsed u = false →
      exec (.leaseDue u) s = .next (s.due [.leaseDue u])) ∧
    (let cs := (s.units.filter (fun e => unitClass e.1 == 0 && e.2.state == .requested)).map (fun e => e.1);
      (∀ c ∈ cs, (s.unit c).requestedAt + 50000000 ≤ s.wall) →
      exec .leasePreemptTimer s = .next (cs.foldl (fun s c => s.preemptCore c) s)) ∧
    (x.state = .requested → (u < 4096 → s.imageOn u = false) → unitClass u ≠ 3 → s.spareFree u = true →
      exec (.leaseTestingStart u) s = .next ((s.setUnit u { x with state := .testing }).recount s)) ∧
    (x.state = .requested → s.spareFree u = false → exec (.leaseTestingStart u) s = .next (s.due [.leaseTestingStart u])) ∧
    (x.state = .requested → unitClass u = 3 → ∃ t, exec (.leaseTestingStart u) s = .next t ∧
      t.unit u = { x with state := .testing, window := some (x.leases % 2048) } ∧ (∀ r ∈ t.rowEvents, channelOf r.1 ≠ unitNum u)) ∧
    (x.state = .requested → u < 4096 → s.imageOn u = true → exec (.leaseTestingStart u) s = .next (s.due [.leaseTestingStart u])) ∧
    (∀ bin, x.state = .testing → x.score < 8192 → u < 4096 → bin ≤ x.bin → bin ≤ 2 →
      exec (.patternComplete u bin) s = .next (s.leaseEnds u id)) ∧
    (∀ bin, x.state = .testing → x.score < 8192 → u < 4096 → x.bin < bin → bin ≤ 2 → exec (.patternComplete u bin) s =
      .next (((s.setUnit u { x with bin := bin }).addRecord u 3 bin 0).leaseEnds u id)) ∧
    (∀ bin, x.state = .testing → x.score < 8192 → u < 4096 → 2 < bin →
      exec (.patternComplete u bin) s = .next ((s.patternFailed u).retireUnit u 1)) ∧
    (∀ bin, x.state = .testing → x.score < 8192 → unitClass u = 1 → exec (.patternComplete u bin) s =
      .next (if bin = 0 then s.leaseEnds u id else (s.patternFailed u).retireUnit u 1)) ∧
    (∀ lane, x.state = .testing → x.score < 8192 → unitClass u = 2 →
      (lane = 0 → exec (.patternComplete u lane) s = .next (s.leaseEnds u id)) ∧
      (lane ≠ 0 → x.failed ≠ 0 → exec (.patternComplete u lane) s = .next ((s.patternFailed u).retireUnit u 1)) ∧
      (lane ≠ 0 → x.failed = 0 → x.score < 4096 → ∃ t, exec (.patternComplete u lane) s = .next t ∧
        t.unit u = { x with score := x.score + 4096, failed := lane } ∧ t = { s with units := t.units, records := t.records, overflow := t.overflow })) ∧
    (x.state = .testing → x.score < 8192 → unitClass u = 3 → exec (.patternComplete u 0) s = .next (s.setUnit u { x with window := none })) ∧
    (x.state = .testing → unitClass u = 3 → x.window.isSome = true → exec (.patrolComplete u []) s = .next s) ∧
    (x.state = .testing → unitClass u = 3 → x.window = none → s.rowsToRepair u [] = [] →
      exec (.patrolComplete u []) s = .next (s.leaseEnds u id)) ∧
    (∀ o, x.state = .testing → unitClass u = 3 → x.window = none → channelOf (rowId o) = unitNum u → channelOf o = unitNum u →
      s.rowEvents.get? (rowId o) = some 1 → ∃ t, exec (.patrolComplete u [o]) s = .next t ∧ (t.unit u).state = .rebuild ∧
        (t.unit u).score = min 65535 (x.score + 1) ∧ rowId o ∈ t.rebuilding ∧ .rowRepair u (rowId o) ∈ t.agenda ∧ t.records = s.records) ∧
    (∀ row, s.rebuilding.contains row = true → (∃ ln ∈ s.badLines, rowId (ln / 4) = row) →
      exec (.rowRepair u row) s = .next (s.due [.rowRepair u row])) ∧
    (∀ row, s.rebuilding.contains row = true → (∀ ln ∈ s.badLines, rowId (ln / 4) ≠ row) →
      let s1 := ({ s with rebuilding := s.rebuilding.filter (· != row) } : State).replay (fun ln => rowId (ln / 4) == row)
      exec (.rowRepair u row) s = .next (if x.state = .rebuild ∧ ∀ r ∈ s1.rebuilding, channelOf r ≠ unitNum u then s1.leaseEnds u id else s1) ∧
      row ∉ s1.rebuilding ∧ s1.mem = s.mem ∧ (∀ e ∈ s1.parked, rowId (e.line / 4) = row → e.ready = true ∧ .other ∉ e.reqs)) ∧
    (∀ why, ((s.retireUnit u why).unit u).state = .retired) ∧
    (∀ die k, (∀ o ∈ s.ops, (opIndex o.2).isSome = true → o.2.inst ≠ k) → exec (.watchdogExpiry die (some k)) s = .next s) ∧
    (∀ die k id o, s.ops = [(id, o)] → (opIndex o).isSome = true → o.inst = k → o.state = .left → s.offers = [] → s.publs = [] →
      s.searches = [] → exec (.watchdogExpiry die (some k)) s = .next (s.finishOp id { o with units := 0 } (0x06 * 2 ^ 24))) ∧
    (∀ die, exec (.watchdogExpiry die none) s = .next s)

/-- R269, R413, R414, R416, R417: scores halve every 24 h and are kept every hour; a record is appended while slots are left, and counted
after that; READREC and READUNIT answer from the store.
R33, R36, R417, R418, R420, R421: the management port: each message answers with a completion byte and its data; codes that are none
answer INVALID; commands of the main domain answer BUSY while that is off; nothing is answered while the standby domain is down. What MCTP
control messages and the PLDM that is served answer lies in their own documents and is free.
The model's choices in it, not the manual's: notes/assumptions, log 52. -/
def Obligations.RecordsAndManagement : Prop :=
  (∀ (s : State) (die : Nat),
     let w := s.window die
     let n := w.op 0x14 1
     let u := w.op 0x10 2
     (s.wall < s.hourly.1 + 86400000000000 → exec .scoreHalving s = .next (s.due [.scoreHalving])) ∧
     (s.hourly.1 + 86400000000000 ≤ s.wall → ∃ t, exec .scoreHalving s = .next t ∧
       (∀ v, (t.unit v).score = (s.unit v).score / 2 ∧ (t.unit v).state = (s.unit v).state) ∧ t.hourly.1 = s.hourly.1 + 86400000000000 ∧
       t.agenda = s.agenda ++ [.scoreHalving]) ∧
     (s.wall < s.hourly.2 + 3600000000000 → exec .scorePersist s = .next (s.due [.scorePersist])) ∧
     (s.hourly.2 + 3600000000000 ≤ s.wall → ∃ t, exec .scorePersist s = .next t ∧ t.nvUnits = s.units ∧ t.units = s.units ∧
       t.hourly.2 = s.hourly.2 + 3600000000000) ∧
     (∀ unit why bin detail, s.records.length < 8192 → ∃ r, r.length = 64 ∧
       (s.addRecord unit why bin detail) = { s with records := s.records ++ [r] } ∧ (s.addRecord unit why bin detail).record (s.records.length + 1) = r) ∧
     (∀ unit why bin detail, 8192 ≤ s.records.length → s.addRecord unit why bin detail = { s with overflow := s.overflow + 1 }) ∧
     (s.taken 0x50 = some die → (n = 0 ∨ 8 < n) → exec .readrec s = .next (s.answer die 2 [])) ∧
     (s.taken 0x50 = some die → n = 1 → exec .readrec s = .next (s.answer die 0 (s.record (w.op 0x10 4)))) ∧
     (s.taken 0x50 = some die → 1 ≤ n → n ≤ 8 → exec .readrec s =
       .next (s.answer die 0 ((upFrom (w.op 0x10 4) n).foldl (fun a k => a ++ s.record k) []))) ∧
     (s.taken 0x51 = some die → exec .readunit s = .next (if unitOk u then s.answer die 0 (toBytes 4 (s.unit u).word) else s.answer die 2 []))) ∧
  ((∀ (s : State) (i : Instr), s.power.standby = false → i ∈ [.mgmtReadrec, .readscore, .readmon, .resetpart, .dump, .readdump, .mgmtSetcap,
     .wrconf, .mgmtUnknown, .mctpControl, .pldmMessage] → exec i s = .next s) ∧
   ∀ (s : State) (c : Byte) (ops : List Byte), s.port = c :: ops → s.power.standby = true →
     let invalid : State := s.reply [2]
     let x := ofBytes ops
     let needsMain : Instr → Prop := fun i => s.power.main = false → exec i s = .next (s.reply [1])
     (c = 1 → ops.length = 5 → 1 ≤ ofBytes (ops.drop 4) → ofBytes (ops.drop 4) ≤ 16 → exec .mgmtReadrec s =
       .next (s.reply (0 :: (upFrom (ofBytes (ops.take 4)) (ofBytes (ops.drop 4))).foldl (fun a k => a ++ s.record k) []))) ∧
     (c = 1 → (ops.length ≠ 5 ∨ ofBytes (ops.drop 4) = 0 ∨ 16 < ofBytes (ops.drop 4)) → exec .mgmtReadrec s = .next invalid) ∧
     (c = 2 → ops.length = 2 → exec .readscore s = .next (if unitOk x then s.reply (0 :: toBytes 4 (s.unit x).word) else invalid)) ∧
     (c = 3 → ops.length = 2 → s.power.main = true → ofBytes (ops.take 1) < 4 → ofBytes (ops.drop 1) < 32 → exec .readmon s =
       .next (s.reply (0 :: (s.capture (ofBytes (ops.take 1)) (ofBytes (ops.drop 1))).bytes))) ∧
     (c = 3 → ops.length = 2 → needsMain .readmon) ∧
     (c = 4 → ops.length = 1 → s.power.main = true → x < 8 → exec .resetpart s = .next ((s.resetPartition x).reply [0])) ∧
     (c = 4 → ops.length = 1 → s.power.main = true → 8 ≤ x → exec .resetpart s = .next invalid) ∧
     (c = 4 → ops.length = 1 → needsMain .resetpart) ∧
     (c = 5 → ops.length = 1 → s.power.main = true → x < 4 → ∃ t, exec .dump s = .next t ∧ t.dump.isSome = true ∧ t.response = [0] ∧
       t = { s with dump := t.dump, fresh := t.fresh, port := [], response := [0], packetsOut := [[0]] }) ∧
     (c = 5 → ops.length = 1 → needsMain .dump) ∧
     (c = 6 → ops.length = 4 → x % 256 = 0 → x < 262144 → s.dump = none → exec .readdump s = .next (s.reply (0 :: List.replicate 256 0))) ∧
     (c = 6 → ops.length = 4 → x % 256 = 0 → x < 262144 → ∃ bs, bs.length = 256 ∧ exec .readdump s = .next (s.reply (0 :: bs))) ∧
     (c = 6 → ops.length = 4 → (x % 256 ≠ 0 ∨ 262144 ≤ x) → exec .readdump s = .next invalid) ∧
     (c = 7 → ops.length = 2 → exec .mgmtSetcap s = .next (if x = 2400 ∨ x = 1600 ∨ x = 1000
       then (({ s with power := { s.power with mgmtCap := x } } : State).due [.capTakeEffect]).reply [0] else invalid)) ∧
     (∀ ps, c = 8 → ops.length = 257 → ops.headD 0 = 0 → s.judgeParts (ops.drop 1) = .inl ps →
       exec .wrconf s = .next ((s.setParts ps).reply [0])) ∧
     (∀ rs, c = 8 → ops.length = 2049 → ops.headD 0 = 1 → s.power.main = true → s.judgeMap (ops.drop 1) = .inl rs →
       exec .wrconf s = .next ((({ s with newRegions := some rs } : State).due [.mapTakeEffect]).reply [0])) ∧
     (∀ g, c = 8 → ops.length = 18 → ops.headD 0 = 2 → s.judgeColl (ofBytes ((ops.drop 1).take 1)) (ops.drop 2) = .inl g →
       exec .wrconf s = .next (({ s with colls := s.colls.set (ofBytes ((ops.drop 1).take 1)) g } : State).reply [0])) ∧
     (c = 0 ∨ 9 ≤ c.toNat → exec .mgmtUnknown s = .next invalid) ∧
     (∃ bs, ∃ t, exec .mctpControl s = .next t ∧ t = { s with fresh := t.fresh, port := [], response := bs, packetsOut := t.packetsOut }) ∧
     (pldmType s.port = Config.pldmPlatform → ∃ bs, ∃ t, exec .pldmMessage s = .next t ∧
       t = { s with fresh := t.fresh, port := [], response := bs, packetsOut := t.packetsOut }) ∧
     (∀ bs, (s.reply bs).response = bs ∧ (s.reply bs).packetsOut.foldl (· ++ ·) [] = bs ∧ ∀ p ∈ (s.reply bs).packetsOut, 0 < p.length ∧ p.length ≤ 64) ∧
     (∀ p, let all := (if p.first then [] else s.assembling) ++ p.bytes
       (64 < p.bytes.length → s.receive p = s) ∧
       (p.bytes.length ≤ 64 → 4096 < all.length → (s.receive p).assembling = [] ∧ (s.receive p).port = s.port) ∧
       (p.bytes.length ≤ 64 → all.length ≤ 4096 → p.last = false → s.receive p = { s with assembling := all }) ∧
       (p.bytes.length ≤ 64 → all.length ≤ 4096 → p.last = true → (s.receive p).assembling = [] ∧ (s.receive p).port = all ∧
         ∃ e, (s.receive p).agenda = s.agenda ++ [e])) ∧
     (pldmType s.port ≠ Config.pldmPlatform → exec .pldmMessage s = .next (s.reply [Config.pldmUnsupported])))

/-! ## Words, steps, rules of the whole machine -/

/-- R117 to R137: words written out from the encodings decode to the instructions that they stand for; reserved encodings are refused by
the reason of R138. -/
def Obligations.DecodeWords : Prop :=
  decode 0x40C10286 = .ok (.ffma false 4 5 6) ∧ decode 0x04008206 = .ok (.iadd true false 2 4 6) ∧ decode 0x14010286 = .ok (.iand true false 4 5 6) ∧
  decode 0x8C008203 = .ok (.npack 2 4 3) ∧ decode 0xC4E00005 = .ok (.brc 3 true 5) ∧ decode 0xE3C2010A = .ok (.ld 15 false 8 2 .cl .b32) ∧
  decode 0xEC0A0301 = .ok (.atom 0 40 6 .auto false .sub) ∧ decode 0xF4040030 = .ok (.mma 0 .n8 0 0 0) ∧
  decode 0xF8200280 = .ok (.trap true 5) ∧ decode 0xFC810003 = .ok (.limm true 3) ∧ decode 0xFC01FF13 = .ok (.xpfx false true 127 true 0 true 3) ∧
  decode 0x3C000000 = .bad .major ∧ decode 0xD1000000 = .bad .code ∧ decode 0xD0000001 = .bad .resField ∧
  decodeTableWord 32 0x40C10286 = some (.ffma false 4 5 6)

/-- Every well-formed instruction has a word of 32 bits, and decoding it gives the instruction back, every operand at every value. -/
def Obligations.DecodeOfEncode : Prop :=
  ∀ i : Instr, i.isCode = true → i.wf = true → ∃ w, encode i = some w ∧ w < 2 ^ 32 ∧ decode w = .ok i ∧
    decodeTableWord 32 w = some i ∧ decodeBytes (toBytes 4 w) = some (.ok i)

/-- Every word that decodes is the word of a well-formed instruction: no bit of it is read by nothing. -/
def Obligations.EncodeOfDecode : Prop :=
  ∀ (w : Nat) (i : Instr), w < 2 ^ 32 → decode w = .ok i → i.isCode = true ∧ i.wf = true ∧ encode i = some w

/-- A step at which a Group issues runs the instruction that the word of its entry decodes to, with the entry chosen and time passed; a
word that decodes to none, and one that cannot be fetched, run their traps; a step at which an event is due runs it.
The model's choices in it, not the manual's: notes/assumptions, logs 3, 4, 7, 27, 93. -/
def Obligations.StepRunsTheWord : Prop :=
  ∀ s : State,
    let t (r : List Nat) : State := { s.tick with sched := r }
    (∀ r c slot g e, s.stop = none → s.sched = 0 :: r → (t r).issuer = some (c, slot) → (t r).group? c slot = some g →
      (t r).nextEntry c slot g = some e →
      let pc := e.pc + 4 * g.seq.n
      let u : State := { (t r).tookTurn c slot with cur := some (c, slot, pc, e.lanes) }
      (∀ w, u.fetch c g.failed pc = .word w →
        let v := u.keepWord c slot pc w
        let fused : Prop := g.seq.n = 0 ∧ ((v.fusedAt? c g.failed pc).isSome = true ∨ (v.fusedNeeds? c g.failed pc).isSome = true)
        (¬fused → ∀ i, decode w = .ok i → step s = exec i v) ∧ (¬fused → ∀ why, decode w = .bad why → step s = exec (.wordNotInstruction why) v) ∧
        (fused → step s = exec .fusedSoftmax v)) ∧
      ((∀ w, u.fetch c g.failed pc ≠ .word w) → step s = exec .codeFetchFault u)) ∧
    (∀ r k ev, s.stop = none → s.sched = (k + 1) :: r → s.tick.agenda[k]? = some ev →
      step s = exec ev { t r with agenda := (t r).agenda.eraseIdx k }) ∧
    (∀ ev rest, s.stop = none → s.sched = [] → s.steps % 2 = 0 → s.agenda ≠ [] → s.tick.agenda = ev :: rest → step s = exec ev { s.tick with agenda := rest }) ∧
    (∀ pa, s.stop = some pa → step s = .fault (.noSuchAddress pa)) ∧
    (s.clk ≤ s.tick.clk ∧ s.wall ≤ s.tick.wall ∧ s.tick.steps = s.steps + 1)

/-- R86, R88, R122, R147: what issuing a word does to its Group: the entry's lanes stand at the next word, or where the word sent them,
with their priority or a new one, and wait for nothing unless the word says so; the others that are not parked stand where they stood; the
Chunk holds one word more, its buffers and sets with the word's in them; it ends where the word ends it, and at the instruction limit. -/
def Obligations.WordsAdvance : Prop :=
  ∀ (is : Issue) (s : State) (e : Eff), s.group? is.core is.slot = some is.g → is.g.lanes.length = 32 → is.g.state = .running →
    e.post = id →
    let t := applyEff is e s
    ∃ g, t.group? is.core is.slot = some g ∧ g.uid = is.g.uid ∧ g.team = is.g.team ∧ g.seq = Seq.empty ∧
      (∀ l x, is.g.lanes[l]? = some x → l ∈ is.lanes → isWaitm e.wait = false → e.stay = false → g.lanes[l]? =
        some { pc := ((e.pcs.find? (fun p => p.1 == l)).map (fun p => p.2)).getD (is.pc + 4), prio := e.prio.getD x.prio, wait := e.wait }) ∧
      (∀ l x, is.g.lanes[l]? = some x → l ∉ is.lanes → isWaitm x.wait = false → g.lanes[l]? = some x) ∧
      g.chunk.words = is.g.chunk.words + 1 ∧ g.chunk.buf = is.g.chunk.buf ++ e.buf ∧ g.chunk.acts = is.g.chunk.acts ++ e.acts ∧
      (∀ x, x ∈ g.chunk.writes ↔ x ∈ is.g.chunk.writes ∨ x ∈ e.writes) ∧ (∀ x, x ∈ g.chunk.reads ↔ x ∈ is.g.chunk.reads ∨ x ∈ e.reads) ∧
      (∀ a, e.ends = some a → g.state = .committing ∧ g.chunk.after = a ∧ .chunkReady is.core is.slot ∈ t.agenda) ∧
      (e.ends = none → e.pool = [] → e.raw = [] → 2 ^ statLimlog (s.chunkstat is.core is.slot) ≤ is.g.chunk.words + 1 →
        g.state = .committing ∧ g.chunk.after = .run)

/-- R86: a word whose effect the open Chunk has no room for ends the Chunk before it, with nothing written, and opens the next one. -/
def Obligations.WordsThatDoNotFit : Prop :=
  ∀ (i : Instr) (d : Desc) (c : Issue → State → Prop) (e : Issue → State → Eff) (body : Issue → State → Verdict),
    (∀ s, exec i s = issueWord d body s) → (∀ is s, c is s → body is s = .go (e is s)) →
    Performs i d c e ∧
    ∀ s is, Issues d s is → c is s → ¬ HasRoom is s (e is s) → ∃ t g, exec i s = .next t ∧ t.group? is.core is.slot = some g ∧
      g.state = .committing ∧ g.chunk.after = .run ∧ g.lanes = is.g.lanes ∧ t = { s with cores := t.cores, agenda := t.agenda } ∧
      (t.core is.core).pool = (s.core is.core).pool ∧ (∀ x, x ≠ is.core → t.core x = s.core x)

/-- R73, R102, R257, R258, R279, R280: a Chunk that ends in a trap commits, and then the cause stands in trapcause, trapval and trappc, and
the entry's lanes stand at the trap entry; with no trap entry the Kernel stops; TRAP gives cause 9, its code and the next word; returning
moves the lanes to trappc with their priorities.
The model's choices in it, not the manual's: notes/assumptions, log 35. -/
def Obligations.TrapAndReturn : Prop :=
  ∀ (s : State) (c slot kid : Nat) (g : Group) (k : Kernel) (t : TrapInfo) (lanes : List Nat),
    s.group? c slot = some g → (s.core c).kernel = some kid → s.kernels.get? kid = some k →
    Memory.wf (s.core c).pool = true → g.lanes.length = 32 →
    (g.state = .committing → g.chunk.phase = .ended → g.chunk.after = .trap t lanes → g.chunk.buf = [] → g.chunk.acts = [] →
      g.pend = [] → s.accessWaits g = false → ownsMma (s.core c) slot g.uid = false → s.commitBlocked c g = false → g.inTrap = none → g.capPending = none →
      (k.launch.trapent ≠ 0xFFFFFFFF → t.cause < 256 → t.code < 256 → t.val < 2 ^ 32 → t.pc < 2 ^ 32 → t.pc % 4 = 0 →
        ∃ u g', exec (.chunkReady c slot) s = .next u ∧ u.group? c slot = some g' ∧ g'.state = .running ∧ g'.inTrap = some lanes ∧
          u.special c slot offTrapcause = t.code * 256 + t.cause ∧ u.special c slot offTrapval = t.val ∧
          u.special c slot offTrappc = t.pc ∧
          (∀ l x, g.lanes[l]? = some x →
            g'.lanes[l]? = some (if l ∈ lanes then { x with pc := k.launch.trapent, wait := .none } else x))) ∧
      (k.launch.trapent = 0xFFFFFFFF → k.state = .running → ∃ u k', exec (.chunkReady c slot) s = .next u ∧
        u.kernels.get? kid = some k' ∧ k'.state = .stopping ∧ k'.status = 0x11 * 2 ^ 24 + (s.ctx k.ctx).faultSeq % 2 ^ 24)) ∧
    (∃ g', (s.leaveTrap c slot lanes).group? c slot = some g' ∧ g'.inTrap = none ∧
      (∀ l x, g.lanes[l]? = some x →
        g'.lanes[l]? = some (if l ∈ lanes then
          { x with pc := s.special c slot offTrappc / 4 * 4, wait := (g.trapWaits.get? l).getD x.wait } else x))) ∧
    (∀ h code, code < 128 → ∃ w, encode (.trap h code) = some w ∧ bitAt w 21 = h ∧ field w 13 7 = code ∧
      Performs (.trap h code) descControl always (fun is _ =>
        { ends := some (.trap { cause := 9, code := h.toNat * 128 + code, val := 0, pc := is.pc + 4 } is.lanes) }))

/-- R230: MZERO leaves every element of its tile zero, and of the pool changes nothing but the tile and its checkpoint.
The model's choices in it, not the manual's: notes/assumptions, log 10. -/
def Obligations.MzeroClears : Prop :=
  ∀ (l n : Nat) (s : State) (is : Issue),
    let p := (s.core is.core).poolpart
    Issues { vec := false, vd := opTile n, look := some l } s is → is.g.role = .matrix → tileWait is s n false = none → PoolCanonical is s →
      HasRoom is s { tiles := [n] } → ∃ t, exec (.mzero l n) s = .next t ∧
        (∀ row col, row < 64 → col < 64 → (t.core is.core).pool.num (tileAddr p n row col) 4 = 0 ∧
          signedOf 32 ((t.core is.core).pool.num (tileAddr p n row col) 4) = 0 ∧
          ∃ e, f32v ((t.core is.core).pool.num (tileAddr p n row col) 4) = .fin false 0 e) ∧
        (∀ a, ¬ (tileAddr p n 0 0 ≤ a ∧ a < tileAddr p n 0 0 + 16384) → ¬ (ckptAddr p n ≤ a ∧ a < ckptAddr p n + 16384) →
          (t.core is.core).pool.read a = (s.core is.core).pool.read a)

/-- R36, R71, R266, R268, R271, R283, R300, R353, R356, R368, R392, R408, R418: what reset leaves, where the manual gives it: caps, the address
map, partitions, the lease period, the discipline Unlocked, Free Contexts, Queues and Indexes, Links in Training, windows, capture units;
and the invariants hold.
The model's choices in it, not the manual's: notes/assumptions, logs 1, 16, 20, 23. -/
def Obligations.ResetState : Prop :=
  let s := State.reset
  s.Inv ∧ s.PoolsCanonical ∧ s.Safe ∧
  s.power.cap = 2400 ∧ s.power.hostCap = 2400 ∧ s.power.mgmtCap = 2400 ∧
  (s.regions[0]? = some { en := true, base := 0, lgsize := 40, rows := (List.range 32).map (fun i => 2 ^ i) }) ∧
  (∀ i, 1 ≤ i → i < 8 → (s.regions[i]?.map (fun r => r.en)) = some false) ∧
  (s.parts[0]?.map (fun p => (p.kind, p.dmask))) = some (1, 15) ∧ (∀ i, 1 ≤ i → i < 8 → (s.parts[i]?.map (fun p => p.kind)) = some 0) ∧
  s.lperiod = 360 ∧ s.disc.unlk = true ∧ (s.sec, s.ns) = (0, 0) ∧ s.cores = [] ∧ s.records = [] ∧ s.mem = [] ∧
  (∀ c, (s.ctx c).state = .free) ∧ (∀ q, (s.queue q).state = 0) ∧ (∀ i, (s.index i).state = 0) ∧ (∀ l, (s.link l).state = .training) ∧
  (∀ d, (s.window d).busy = false ∧ (s.window d).count = 0 ∧ (s.window d).status = 0 ∧ (s.window d).xfhead = 0 ∧ (s.window d).xftail = 0) ∧
  (∀ d u, (s.capture d u).min = 0x7FFFFFFF ∧ (s.capture d u).max = -0x80000000) ∧ (∀ u, (s.unit u).state = .inService ∧ (s.unit u).score = 0)

/-- R36, R272, R358, R408, R417: the configuration of the device stays legal: the caps are among those that may be set, the address map and
the partition configuration pass their tests, at most 8,192 records stand in the store, the lease period stays within its bounds; and memory
keeps its canonical form. -/
def Obligations.StepKeepsInv : Prop := ∀ s t : State, s.Inv → step s = .next t → t.Inv

/-- Every core's pool keeps its canonical form: equal pools are equal data. -/
def Obligations.StepKeepsPools : Prop := ∀ s t : State, s.PoolsCanonical → step s = .next t → t.PoolsCanonical

/-- R90, R93, R98, R268, R270: what a program's words cannot do: no code word, when it issues, changes device memory, the address
map, partitions, caps, command windows, Queues, Indexes, Links, collective groups, records or the time discipline: what it does to any of these
comes with a later event. -/
def Obligations.WordsKeepTheDevice : Prop :=
  ∀ (i : Instr) (s t : State), i.isCode = true → exec i s = .next t →
    t.mem = s.mem ∧ t.regions = s.regions ∧ t.newRegions = s.newRegions ∧ t.parts = s.parts ∧ t.power = s.power ∧ t.windows = s.windows ∧
      t.queues = s.queues ∧ t.indexes = s.indexes ∧ t.links = s.links ∧ t.colls = s.colls ∧ t.records = s.records ∧ t.disc = s.disc ∧
      t.lperiod = s.lperiod ∧ t.sec = s.sec ∧ t.ns = s.ns
end

