-- ==== Sys2Proof/Laws/Memory.lean ====
section
/-! SUPPORT. Memory keeps its canonical form under every operation, and reads follow writes; tables keep what was set. -/

-- One declaration at a time, so that the package as one text compiles in bounded memory.
set_option Elab.async false

namespace Sys2Proof.Machine

theorem Memory.wfFrom_mono {m : Memory} : ∀ {lo lo' : Nat}, lo' ≤ lo → Memory.wfFrom lo m = true → Memory.wfFrom lo' m = true := by
  cases m with
  | nil => intros; rfl
  | cons c r =>
    intro lo lo' h
    simp only [Memory.wfFrom, Bool.and_eq_true, decide_eq_true_eq]
    exact fun ⟨⟨h1, h2⟩, h3⟩ => ⟨⟨by omega, h2⟩, h3⟩

theorem Memory.wf_nil : Memory.wf [] = true := rfl

/-- Below its lower bound a canonical memory lists nothing. -/
theorem Memory.read_below {m : Memory} : ∀ {lo x : Nat}, Memory.wfFrom lo m = true → x < lo → m.read x = Memory.unlisted := by
  induction m with
  | nil => intros; rfl
  | cons c r ih =>
    intro lo x h hx
    simp only [Memory.wfFrom, Bool.and_eq_true, decide_eq_true_eq] at h
    have hne : c.1 ≠ x := by omega
    simp only [Memory.read, hne, if_false]
    exact ih h.2 (by omega)

theorem Memory.write_wfFrom (v : Byte) (x : Nat) {m : Memory} :
    ∀ {lo : Nat}, lo ≤ x → Memory.wfFrom lo m = true → Memory.wfFrom lo (m.write x v) = true := by
  induction m with
  | nil =>
    intro lo hx _
    by_cases hv : v = Memory.unlisted <;> simp [Memory.write, Memory.wfFrom, hv, hx]
  | cons c r ih =>
    intro lo hx h
    have h' := h
    simp only [Memory.wfFrom, Bool.and_eq_true, decide_eq_true_eq] at h
    obtain ⟨⟨h1, h2⟩, h3⟩ := h
    unfold Memory.write
    split
    · split
      · exact h'
      · rename_i hlt hv
        simp only [Memory.wfFrom, Bool.and_eq_true, decide_eq_true_eq]
        exact ⟨⟨hx, by simpa using hv⟩, ⟨⟨by omega, h2⟩, h3⟩⟩
    · split
      · rename_i _ he
        subst he
        split
        · exact Memory.wfFrom_mono (by omega) h3
        · rename_i hv
          simp only [Memory.wfFrom, Bool.and_eq_true, decide_eq_true_eq]
          exact ⟨⟨hx, by simpa using hv⟩, h3⟩
      · simp only [Memory.wfFrom, Bool.and_eq_true, decide_eq_true_eq]
        exact ⟨⟨h1, h2⟩, ih (by omega) h3⟩

/-- A write keeps the canonical form. -/
theorem Memory.write_wf {m : Memory} (x : Nat) (v : Byte) (h : m.wf = true) : (m.write x v).wf = true :=
  Memory.write_wfFrom v x (Nat.zero_le x) h

/-- Reading after a write: the written byte at its address, what stood there elsewhere. -/
theorem Memory.read_write {m : Memory} (v : Byte) : ∀ {lo : Nat} (x y : Nat), Memory.wfFrom lo m = true →
    (m.write x v).read y = if y = x then v else m.read y := by
  induction m with
  | nil =>
    intro lo x y _
    by_cases hv : v = Memory.unlisted
    · by_cases hy : y = x <;> simp [Memory.write, Memory.read, hv, hy]
    · by_cases hy : y = x
      · subst hy; simp [Memory.write, Memory.read, hv]
      · simp [Memory.write, Memory.read, hv, hy, Ne.symm hy]
  | cons c r ih =>
    intro lo x y h
    simp only [Memory.wfFrom, Bool.and_eq_true, decide_eq_true_eq] at h
    obtain ⟨⟨h1, _⟩, h3⟩ := h
    unfold Memory.write
    split
    · rename_i hlt
      split
      · rename_i hv
        by_cases hy : y = x
        · subst hy
          have hne : c.1 ≠ y := by omega
          rw [if_pos rfl, hv, Memory.read, if_neg hne]
          exact Memory.read_below h3 (by omega)
        · rw [if_neg hy]
      · by_cases hy : y = x
        · subst hy; simp [Memory.read]
        · simp [Memory.read, hy, Ne.symm hy]
    · split
      · rename_i _ he
        subst he
        split
        · rename_i hv
          by_cases hy : y = c.1
          · rw [if_pos hy, hv]
            exact Memory.read_below h3 (by omega)
          · rw [if_neg hy, Memory.read, if_neg (Ne.symm hy)]
        · by_cases hy : y = c.1
          · rw [if_pos hy, Memory.read, if_pos hy.symm]
          · rw [if_neg hy, Memory.read, if_neg (Ne.symm hy), Memory.read, if_neg (Ne.symm hy)]
      · rename_i hlt hne
        by_cases hc : c.1 = y
        · subst hc
          simp [Memory.read, Ne.symm hne]
        · simp only [Memory.read, hc, if_false]
          exact ih x y h3

theorem Memory.put_wf (bs : List Byte) : ∀ {m : Memory} (a : Nat), m.wf = true → (m.put a bs).wf = true := by
  induction bs with
  | nil => exact fun _ h => h
  | cons b r ih => exact fun a h => ih (a + 1) (Memory.write_wf a b h)

/-- Reading after a list of bytes is written: those bytes in their range, what stood there elsewhere. -/
theorem Memory.read_put (bs : List Byte) : ∀ {m : Memory} (a y : Nat), m.wf = true →
    (m.put a bs).read y = if a ≤ y ∧ y < a + bs.length then bs.getD (y - a) 0 else m.read y := by
  induction bs with
  | nil =>
    intro m a y _
    simp only [Memory.put, List.length_nil]
    rw [if_neg (by omega)]
  | cons b r ih =>
    intro m a y h
    rw [Memory.put, ih (a + 1) y (Memory.write_wf a b h)]
    by_cases hy : y = a
    · subst hy
      rw [if_neg (by omega), if_pos (by simp), Memory.read_write (lo := 0) b _ _ h]
      simp
    · by_cases hin : a + 1 ≤ y ∧ y < a + 1 + r.length
      · obtain ⟨k, rfl⟩ : ∃ k, y = a + 1 + k := ⟨y - (a + 1), by omega⟩
        rw [if_pos hin, if_pos (by simp; omega)]
        have e1 : a + 1 + k - (a + 1) = k := by omega
        have e2 : a + 1 + k - a = k + 1 := by omega
        rw [e1, e2]; rfl
      · rw [if_neg hin, if_neg (by simp; omega), Memory.read_write (lo := 0) b _ _ h, if_neg hy]

theorem Memory.wfFrom_filter (p : Host.Cell → Bool) {m : Memory} :
    ∀ {lo : Nat}, Memory.wfFrom lo m = true → Memory.wfFrom lo (m.filter p) = true := by
  induction m with
  | nil => intros; rfl
  | cons c r ih =>
    intro lo h
    simp only [Memory.wfFrom, Bool.and_eq_true, decide_eq_true_eq] at h
    obtain ⟨⟨h1, h2⟩, h3⟩ := h
    rw [List.filter_cons]
    split
    · simp only [Memory.wfFrom, Bool.and_eq_true, decide_eq_true_eq]
      exact ⟨⟨h1, h2⟩, ih h3⟩
    · exact Memory.wfFrom_mono (by omega) (ih h3)

/-- Clearing a range keeps the canonical form. -/
theorem Memory.clear_wf {m : Memory} (a n : Nat) (h : m.wf = true) : (m.clear a n).wf = true := Memory.wfFrom_filter _ h

theorem Memory.ofList_wfFrom (bs : List Byte) : ∀ (a lo : Nat), lo ≤ a → Memory.wfFrom lo (Memory.ofList a bs) = true := by
  induction bs with
  | nil => intros; rfl
  | cons b r ih =>
    intro a lo h
    unfold Memory.ofList
    split
    · exact ih (a + 1) lo (by omega)
    · rename_i hb
      simp only [Memory.wfFrom, Bool.and_eq_true, decide_eq_true_eq]
      exact ⟨⟨h, by simpa using hb⟩, ih (a + 1) (a + 1) (Nat.le_refl _)⟩

theorem Memory.ofList_wf (a : Nat) (bs : List Byte) : (Memory.ofList a bs).wf = true := Memory.ofList_wfFrom bs a 0 (Nat.zero_le a)

theorem Memory.wfFrom_append {ys : Memory} {mid : Nat} (hy : Memory.wfFrom mid ys = true) {xs : Memory} :
    ∀ {lo : Nat}, lo ≤ mid → Memory.wfFrom lo xs = true → (∀ c ∈ xs, c.1 < mid) → Memory.wfFrom lo (xs ++ ys) = true := by
  induction xs with
  | nil => exact fun h _ _ => Memory.wfFrom_mono h hy
  | cons c r ih =>
    intro lo _ h hc
    simp only [Memory.wfFrom, Bool.and_eq_true, decide_eq_true_eq, List.cons_append] at h ⊢
    exact ⟨h.1, ih (hc c List.mem_cons_self) h.2 (fun d hd => hc d (List.mem_cons_of_mem _ hd))⟩

theorem Memory.wfFrom_up (a : Nat) {m : Memory} : ∀ {lo : Nat}, Memory.wfFrom lo m = true →
    Memory.wfFrom (a + lo) (m.map (fun c => (a + c.1, c.2))) = true := by
  induction m with
  | nil => intros; rfl
  | cons c r ih =>
    intro lo h
    simp only [Memory.wfFrom, Bool.and_eq_true, decide_eq_true_eq, List.map_cons] at h ⊢
    exact ⟨⟨by omega, h.1.2⟩, by simpa [Nat.add_assoc] using ih h.2⟩

theorem Memory.wfFrom_down (a : Nat) {m : Memory} : ∀ {lo : Nat}, a ≤ lo → Memory.wfFrom lo m = true →
    Memory.wfFrom (lo - a) (m.map (fun c => (c.1 - a, c.2))) = true := by
  induction m with
  | nil => intros; rfl
  | cons c r ih =>
    intro lo ha h
    simp only [Memory.wfFrom, Bool.and_eq_true, decide_eq_true_eq, List.map_cons] at h ⊢
    obtain ⟨⟨h1, h2⟩, h3⟩ := h
    have h4 := ih (lo := c.1 + 1) (by omega) h3
    have e : c.1 + 1 - a = c.1 - a + 1 := by omega
    exact ⟨⟨by omega, h2⟩, e ▸ h4⟩

/-- Raising the bound of a canonical memory whose addresses lie above it. -/
theorem Memory.wfFrom_raise {m : Memory} {lo lo' : Nat} (h : Memory.wfFrom lo m = true) (ha : ∀ c ∈ m, lo' ≤ c.1) :
    Memory.wfFrom lo' m = true := by
  cases m with
  | nil => rfl
  | cons c r =>
    simp only [Memory.wfFrom, Bool.and_eq_true, decide_eq_true_eq] at h ⊢
    exact ⟨⟨ha c List.mem_cons_self, h.1.2⟩, h.2⟩

/-- The cells of a range, counted from 0, are canonical. -/
theorem Memory.slice_wf {m : Memory} (a n : Nat) (h : m.wf = true) : (m.slice a n).wf = true := by
  have h1 : Memory.wfFrom a (m.filter (fun c => decide (a ≤ c.1 ∧ c.1 < a + n))) = true :=
    Memory.wfFrom_raise (Memory.wfFrom_filter _ h) (fun c hc => by have := (List.mem_filter.mp hc).2; simp at this; omega)
  exact Memory.wfFrom_mono (Nat.zero_le _) (Memory.wfFrom_down a (Nat.le_refl a) h1)

/-- Replacing a range keeps the canonical form. -/
theorem Memory.paste_wf {m cells : Memory} (a n : Nat) (h : m.wf = true) (hc : cells.wf = true) : (m.paste a n cells).wf = true := by
  have h3 : Memory.wfFrom (a + n) (m.filter (fun c => decide (a + n ≤ c.1))) = true :=
    Memory.wfFrom_raise (Memory.wfFrom_filter _ h) (fun c hc => by have := (List.mem_filter.mp hc).2; simpa using this)
  have h2 : Memory.wfFrom a ((cells.filter (fun c => decide (c.1 < n))).map (fun c => (a + c.1, c.2))) = true := by
    simpa using Memory.wfFrom_up a (Memory.wfFrom_filter (fun c => decide (c.1 < n)) hc)
  have h23 := Memory.wfFrom_append h3 (lo := a) (Nat.le_add_right a n) h2 (fun c hc => by
    obtain ⟨d, hd, rfl⟩ := List.mem_map.mp hc
    have := (List.mem_filter.mp hd).2
    simp at this
    show a + d.1 < a + n
    omega)
  unfold Memory.paste
  rw [List.append_assoc]
  exact Memory.wfFrom_append h23 (Nat.zero_le a) (Memory.wfFrom_filter _ h) (fun c hc => by
    have := (List.mem_filter.mp hc).2; simpa using this)

/-- Bytes written to physical addresses keep the canonical form. -/
theorem physPut_wf (rs : List Region) (bs : List Byte) : ∀ {m : Memory} (pa : Nat), m.wf = true → (physPut rs m pa bs).wf = true := by
  induction bs with
  | nil => exact fun _ h => h
  | cons b r ih => exact fun pa h => ih (pa + 1) (Memory.write_wf _ b h)

/-- A committed item keeps the canonical form (R98). -/
theorem applyItem_wf (rs : List Region) {m : Memory} (it : BufItem) (h : m.wf = true) : (applyItem rs m it).wf = true := by
  cases it <;> simp only [applyItem] <;> first | exact physPut_wf rs _ _ h | exact h

theorem applyItems_wf (rs : List Region) (its : List BufItem) : ∀ {m : Memory}, m.wf = true → (applyItems rs m its).wf = true := by
  induction its with
  | nil => exact fun h => h
  | cons it r ih => exact fun h => ih (applyItem_wf rs it h)

/-- Bytes written one by one from a list of key and byte keep the canonical form. -/
theorem Memory.foldl_write_wf {α : Type} (key : α → Nat) (val : Memory → α → Byte) (xs : List α) :
    ∀ {m : Memory}, m.wf = true → (xs.foldl (fun m x => m.write (key x) (val m x)) m).wf = true := by
  induction xs with
  | nil => exact fun h => h
  | cons x r ih => exact fun h => ih (Memory.write_wf _ _ h)

/-! ## Tables -/

@[simp] theorem Tab.get?_nil {α : Type} (k : Nat) : Tab.get? ([] : Tab α) k = none := rfl

/-- What was set is found, and nothing else moves. -/
theorem Tab.get?_set {α : Type} (t : Tab α) (k : Nat) (v : α) (j : Nat) :
    (t.set k v).get? j = if j = k then some v else t.get? j := by
  induction t with
  | nil =>
    by_cases hj : j = k
    · subst hj; simp [Tab.set, Tab.get?]
    · simp [Tab.set, Tab.get?, hj, Ne.symm hj]
  | cons e r ih =>
    unfold Tab.set
    split
    · by_cases hj : j = k
      · subst hj; simp [Tab.get?]
      · simp [Tab.get?, hj, Ne.symm hj]
    · split
      · rename_i _ he
        by_cases hj : j = k
        · subst hj; simp [Tab.get?]
        · have : e.1 ≠ j := by omega
          simp [Tab.get?, hj, Ne.symm hj, this]
      · rename_i _ hne
        simp only [Tab.get?]
        by_cases he : e.1 = j
        · have hj : j ≠ k := by omega
          rw [if_pos he, if_pos he, if_neg hj]
        · rw [if_neg he, if_neg he]; exact ih

@[simp] theorem Tab.get?_set_self {α : Type} (t : Tab α) (k : Nat) (v : α) : (t.set k v).get? k = some v := by
  rw [Tab.get?_set, if_pos rfl]

theorem Tab.get?_set_of_ne {α : Type} (t : Tab α) {k j : Nat} (v : α) (h : j ≠ k) : (t.set k v).get? j = t.get? j := by
  rw [Tab.get?_set, if_neg h]

@[simp] theorem Tab.getD_set_self {α : Type} (t : Tab α) (k : Nat) (v d : α) : (t.set k v).getD k d = v := by
  simp [Tab.getD]

theorem Tab.getD_set_of_ne {α : Type} (t : Tab α) {k j : Nat} (v d : α) (h : j ≠ k) : (t.set k v).getD j d = t.getD j d := by
  simp [Tab.getD, Tab.get?_set_of_ne t v h]

end Sys2Proof.Machine
end

