-- ==== Sys2Proof/Laws/State.lean ====
section
/-! SUPPORT. One lemma per field per named update of the machine: what the update writes, and every field that it leaves. -/

-- One declaration at a time, so that the package as one text compiles in bounded memory.
set_option Elab.async false

namespace Sys2Proof.Machine

/-! ## setCore -/

@[simp] theorem State.setCore_mem (s : State) (c : Nat) (k : Core) : (s.setCore c k).mem = s.mem := rfl
@[simp] theorem State.setCore_clusters (s : State) (c : Nat) (k : Core) : (s.setCore c k).clusters = s.clusters := rfl
@[simp] theorem State.setCore_teams (s : State) (c : Nat) (k : Core) : (s.setCore c k).teams = s.teams := rfl
@[simp] theorem State.setCore_kernels (s : State) (c : Nat) (k : Core) : (s.setCore c k).kernels = s.kernels := rfl
@[simp] theorem State.setCore_heirs (s : State) (c : Nat) (k : Core) : (s.setCore c k).heirs = s.heirs := rfl
@[simp] theorem State.setCore_stores (s : State) (c : Nat) (k : Core) : (s.setCore c k).stores = s.stores := rfl
@[simp] theorem State.setCore_ctxs (s : State) (c : Nat) (k : Core) : (s.setCore c k).ctxs = s.ctxs := rfl
@[simp] theorem State.setCore_tlb (s : State) (c : Nat) (k : Core) : (s.setCore c k).tlb = s.tlb := rfl
@[simp] theorem State.setCore_walks (s : State) (c : Nat) (k : Core) : (s.setCore c k).walks = s.walks := rfl
@[simp] theorem State.setCore_invals (s : State) (c : Nat) (k : Core) : (s.setCore c k).invals = s.invals := rfl
@[simp] theorem State.setCore_faulted (s : State) (c : Nat) (k : Core) : (s.setCore c k).faulted = s.faulted := rfl
@[simp] theorem State.setCore_migrations (s : State) (c : Nat) (k : Core) : (s.setCore c k).migrations = s.migrations := rfl
@[simp] theorem State.setCore_xrecs (s : State) (c : Nat) (k : Core) : (s.setCore c k).xrecs = s.xrecs := rfl
@[simp] theorem State.setCore_xseq (s : State) (c : Nat) (k : Core) : (s.setCore c k).xseq = s.xseq := rfl
@[simp] theorem State.setCore_regions (s : State) (c : Nat) (k : Core) : (s.setCore c k).regions = s.regions := rfl
@[simp] theorem State.setCore_newRegions (s : State) (c : Nat) (k : Core) : (s.setCore c k).newRegions = s.newRegions := rfl
@[simp] theorem State.setCore_parts (s : State) (c : Nat) (k : Core) : (s.setCore c k).parts = s.parts := rfl
@[simp] theorem State.setCore_windows (s : State) (c : Nat) (k : Core) : (s.setCore c k).windows = s.windows := rfl
@[simp] theorem State.setCore_aperture (s : State) (c : Nat) (k : Core) : (s.setCore c k).aperture = s.aperture := rfl
@[simp] theorem State.setCore_queues (s : State) (c : Nat) (k : Core) : (s.setCore c k).queues = s.queues := rfl
@[simp] theorem State.setCore_nodes (s : State) (c : Nat) (k : Core) : (s.setCore c k).nodes = s.nodes := rfl
@[simp] theorem State.setCore_ops (s : State) (c : Nat) (k : Core) : (s.setCore c k).ops = s.ops := rfl
@[simp] theorem State.setCore_indexes (s : State) (c : Nat) (k : Core) : (s.setCore c k).indexes = s.indexes := rfl
@[simp] theorem State.setCore_publs (s : State) (c : Nat) (k : Core) : (s.setCore c k).publs = s.publs := rfl
@[simp] theorem State.setCore_searches (s : State) (c : Nat) (k : Core) : (s.setCore c k).searches = s.searches := rfl
@[simp] theorem State.setCore_stamps (s : State) (c : Nat) (k : Core) : (s.setCore c k).stamps = s.stamps := rfl
@[simp] theorem State.setCore_token (s : State) (c : Nat) (k : Core) : (s.setCore c k).token = s.token := rfl
@[simp] theorem State.setCore_solo (s : State) (c : Nat) (k : Core) : (s.setCore c k).solo = s.solo := rfl
@[simp] theorem State.setCore_offers (s : State) (c : Nat) (k : Core) : (s.setCore c k).offers = s.offers := rfl
@[simp] theorem State.setCore_diffs (s : State) (c : Nat) (k : Core) : (s.setCore c k).diffs = s.diffs := rfl
@[simp] theorem State.setCore_landings (s : State) (c : Nat) (k : Core) : (s.setCore c k).landings = s.landings := rfl
@[simp] theorem State.setCore_parked (s : State) (c : Nat) (k : Core) : (s.setCore c k).parked = s.parked := rfl
@[simp] theorem State.setCore_delayed (s : State) (c : Nat) (k : Core) : (s.setCore c k).delayed = s.delayed := rfl
@[simp] theorem State.setCore_badLines (s : State) (c : Nat) (k : Core) : (s.setCore c k).badLines = s.badLines := rfl
@[simp] theorem State.setCore_poison (s : State) (c : Nat) (k : Core) : (s.setCore c k).poison = s.poison := rfl
@[simp] theorem State.setCore_hostData (s : State) (c : Nat) (k : Core) : (s.setCore c k).hostData = s.hostData := rfl
@[simp] theorem State.setCore_rebuilding (s : State) (c : Nat) (k : Core) : (s.setCore c k).rebuilding = s.rebuilding := rfl
@[simp] theorem State.setCore_ncl (s : State) (c : Nat) (k : Core) : (s.setCore c k).ncl = s.ncl := rfl
@[simp] theorem State.setCore_parity (s : State) (c : Nat) (k : Core) : (s.setCore c k).parity = s.parity := rfl
@[simp] theorem State.setCore_paritySeq (s : State) (c : Nat) (k : Core) : (s.setCore c k).paritySeq = s.paritySeq := rfl
@[simp] theorem State.setCore_parityAcks (s : State) (c : Nat) (k : Core) : (s.setCore c k).parityAcks = s.parityAcks := rfl
@[simp] theorem State.setCore_parityIn (s : State) (c : Nat) (k : Core) : (s.setCore c k).parityIn = s.parityIn := rfl
@[simp] theorem State.setCore_banks (s : State) (c : Nat) (k : Core) : (s.setCore c k).banks = s.banks := rfl
@[simp] theorem State.setCore_chainTags (s : State) (c : Nat) (k : Core) : (s.setCore c k).chainTags = s.chainTags := rfl
@[simp] theorem State.setCore_demoted (s : State) (c : Nat) (k : Core) : (s.setCore c k).demoted = s.demoted := rfl
@[simp] theorem State.setCore_hourly (s : State) (c : Nat) (k : Core) : (s.setCore c k).hourly = s.hourly := rfl
@[simp] theorem State.setCore_links (s : State) (c : Nat) (k : Core) : (s.setCore c k).links = s.links := rfl
@[simp] theorem State.setCore_pairs (s : State) (c : Nat) (k : Core) : (s.setCore c k).pairs = s.pairs := rfl
@[simp] theorem State.setCore_unreachable (s : State) (c : Nat) (k : Core) : (s.setCore c k).unreachable = s.unreachable := rfl
@[simp] theorem State.setCore_merges (s : State) (c : Nat) (k : Core) : (s.setCore c k).merges = s.merges := rfl
@[simp] theorem State.setCore_mergesLost (s : State) (c : Nat) (k : Core) : (s.setCore c k).mergesLost = s.mergesLost := rfl
@[simp] theorem State.setCore_colls (s : State) (c : Nat) (k : Core) : (s.setCore c k).colls = s.colls := rfl
@[simp] theorem State.setCore_units (s : State) (c : Nat) (k : Core) : (s.setCore c k).units = s.units := rfl
@[simp] theorem State.setCore_nvUnits (s : State) (c : Nat) (k : Core) : (s.setCore c k).nvUnits = s.nvUnits := rfl
@[simp] theorem State.setCore_records (s : State) (c : Nat) (k : Core) : (s.setCore c k).records = s.records := rfl
@[simp] theorem State.setCore_overflow (s : State) (c : Nat) (k : Core) : (s.setCore c k).overflow = s.overflow := rfl
@[simp] theorem State.setCore_dump (s : State) (c : Nat) (k : Core) : (s.setCore c k).dump = s.dump := rfl
@[simp] theorem State.setCore_captures (s : State) (c : Nat) (k : Core) : (s.setCore c k).captures = s.captures := rfl
@[simp] theorem State.setCore_rowEvents (s : State) (c : Nat) (k : Core) : (s.setCore c k).rowEvents = s.rowEvents := rfl
@[simp] theorem State.setCore_fwdrop (s : State) (c : Nat) (k : Core) : (s.setCore c k).fwdrop = s.fwdrop := rfl
@[simp] theorem State.setCore_lperiod (s : State) (c : Nat) (k : Core) : (s.setCore c k).lperiod = s.lperiod := rfl
@[simp] theorem State.setCore_disc (s : State) (c : Nat) (k : Core) : (s.setCore c k).disc = s.disc := rfl
@[simp] theorem State.setCore_power (s : State) (c : Nat) (k : Core) : (s.setCore c k).power = s.power := rfl
@[simp] theorem State.setCore_clk (s : State) (c : Nat) (k : Core) : (s.setCore c k).clk = s.clk := rfl
@[simp] theorem State.setCore_sec (s : State) (c : Nat) (k : Core) : (s.setCore c k).sec = s.sec := rfl
@[simp] theorem State.setCore_ns (s : State) (c : Nat) (k : Core) : (s.setCore c k).ns = s.ns := rfl
@[simp] theorem State.setCore_wall (s : State) (c : Nat) (k : Core) : (s.setCore c k).wall = s.wall := rfl
@[simp] theorem State.setCore_goes (s : State) (c : Nat) (k : Core) : (s.setCore c k).goes = s.goes := rfl
@[simp] theorem State.setCore_port (s : State) (c : Nat) (k : Core) : (s.setCore c k).port = s.port := rfl
@[simp] theorem State.setCore_response (s : State) (c : Nat) (k : Core) : (s.setCore c k).response = s.response := rfl
@[simp] theorem State.setCore_assembling (s : State) (c : Nat) (k : Core) : (s.setCore c k).assembling = s.assembling := rfl
@[simp] theorem State.setCore_packetsOut (s : State) (c : Nat) (k : Core) : (s.setCore c k).packetsOut = s.packetsOut := rfl
@[simp] theorem State.setCore_agenda (s : State) (c : Nat) (k : Core) : (s.setCore c k).agenda = s.agenda := rfl
@[simp] theorem State.setCore_sched (s : State) (c : Nat) (k : Core) : (s.setCore c k).sched = s.sched := rfl
@[simp] theorem State.setCore_cur (s : State) (c : Nat) (k : Core) : (s.setCore c k).cur = s.cur := rfl
@[simp] theorem State.setCore_fresh (s : State) (c : Nat) (k : Core) : (s.setCore c k).fresh = s.fresh := rfl
@[simp] theorem State.setCore_steps (s : State) (c : Nat) (k : Core) : (s.setCore c k).steps = s.steps := rfl
@[simp] theorem State.setCore_stop (s : State) (c : Nat) (k : Core) : (s.setCore c k).stop = s.stop := rfl
@[simp] theorem State.setCore_losses (s : State) (c : Nat) (k : Core) : (s.setCore c k).losses = s.losses := rfl
@[simp] theorem State.setCore_glitch (s : State) (c : Nat) (k : Core) : (s.setCore c k).glitch = s.glitch := rfl
@[simp] theorem State.setCore_evicts (s : State) (c : Nat) (k : Core) : (s.setCore c k).evicts = s.evicts := rfl
@[simp] theorem State.setCore_refetch (s : State) (c : Nat) (k : Core) : (s.setCore c k).refetch = s.refetch := rfl
@[simp] theorem State.setCore_eccs (s : State) (c : Nat) (k : Core) : (s.setCore c k).eccs = s.eccs := rfl
@[simp] theorem State.setCore_fwWrites (s : State) (c : Nat) (k : Core) : (s.setCore c k).fwWrites = s.fwWrites := rfl
@[simp] theorem State.setCore_packetsIn (s : State) (c : Nat) (k : Core) : (s.setCore c k).packetsIn = s.packetsIn := rfl
@[simp] theorem State.setCore_clkRem (s : State) (c : Nat) (k : Core) : (s.setCore c k).clkRem = s.clkRem := rfl
@[simp] theorem State.setCore_timeRem (s : State) (c : Nat) (k : Core) : (s.setCore c k).timeRem = s.timeRem := rfl
@[simp] theorem State.setCore_nextUid (s : State) (c : Nat) (k : Core) : (s.setCore c k).nextUid = s.nextUid := rfl
@[simp] theorem State.setCore_nextId (s : State) (c : Nat) (k : Core) : (s.setCore c k).nextId = s.nextId := rfl

/-! ## setGroup -/

@[simp] theorem State.setGroup_mem (s : State) (c slot : Nat) (g : Group) : (s.setGroup c slot g).mem = s.mem := rfl
@[simp] theorem State.setGroup_clusters (s : State) (c slot : Nat) (g : Group) : (s.setGroup c slot g).clusters = s.clusters := rfl
@[simp] theorem State.setGroup_teams (s : State) (c slot : Nat) (g : Group) : (s.setGroup c slot g).teams = s.teams := rfl
@[simp] theorem State.setGroup_kernels (s : State) (c slot : Nat) (g : Group) : (s.setGroup c slot g).kernels = s.kernels := rfl
@[simp] theorem State.setGroup_heirs (s : State) (c slot : Nat) (g : Group) : (s.setGroup c slot g).heirs = s.heirs := rfl
@[simp] theorem State.setGroup_stores (s : State) (c slot : Nat) (g : Group) : (s.setGroup c slot g).stores = s.stores := rfl
@[simp] theorem State.setGroup_ctxs (s : State) (c slot : Nat) (g : Group) : (s.setGroup c slot g).ctxs = s.ctxs := rfl
@[simp] theorem State.setGroup_tlb (s : State) (c slot : Nat) (g : Group) : (s.setGroup c slot g).tlb = s.tlb := rfl
@[simp] theorem State.setGroup_walks (s : State) (c slot : Nat) (g : Group) : (s.setGroup c slot g).walks = s.walks := rfl
@[simp] theorem State.setGroup_invals (s : State) (c slot : Nat) (g : Group) : (s.setGroup c slot g).invals = s.invals := rfl
@[simp] theorem State.setGroup_faulted (s : State) (c slot : Nat) (g : Group) : (s.setGroup c slot g).faulted = s.faulted := rfl
@[simp] theorem State.setGroup_migrations (s : State) (c slot : Nat) (g : Group) : (s.setGroup c slot g).migrations = s.migrations := rfl
@[simp] theorem State.setGroup_xrecs (s : State) (c slot : Nat) (g : Group) : (s.setGroup c slot g).xrecs = s.xrecs := rfl
@[simp] theorem State.setGroup_xseq (s : State) (c slot : Nat) (g : Group) : (s.setGroup c slot g).xseq = s.xseq := rfl
@[simp] theorem State.setGroup_regions (s : State) (c slot : Nat) (g : Group) : (s.setGroup c slot g).regions = s.regions := rfl
@[simp] theorem State.setGroup_newRegions (s : State) (c slot : Nat) (g : Group) : (s.setGroup c slot g).newRegions = s.newRegions := rfl
@[simp] theorem State.setGroup_parts (s : State) (c slot : Nat) (g : Group) : (s.setGroup c slot g).parts = s.parts := rfl
@[simp] theorem State.setGroup_windows (s : State) (c slot : Nat) (g : Group) : (s.setGroup c slot g).windows = s.windows := rfl
@[simp] theorem State.setGroup_aperture (s : State) (c slot : Nat) (g : Group) : (s.setGroup c slot g).aperture = s.aperture := rfl
@[simp] theorem State.setGroup_queues (s : State) (c slot : Nat) (g : Group) : (s.setGroup c slot g).queues = s.queues := rfl
@[simp] theorem State.setGroup_nodes (s : State) (c slot : Nat) (g : Group) : (s.setGroup c slot g).nodes = s.nodes := rfl
@[simp] theorem State.setGroup_ops (s : State) (c slot : Nat) (g : Group) : (s.setGroup c slot g).ops = s.ops := rfl
@[simp] theorem State.setGroup_indexes (s : State) (c slot : Nat) (g : Group) : (s.setGroup c slot g).indexes = s.indexes := rfl
@[simp] theorem State.setGroup_publs (s : State) (c slot : Nat) (g : Group) : (s.setGroup c slot g).publs = s.publs := rfl
@[simp] theorem State.setGroup_searches (s : State) (c slot : Nat) (g : Group) : (s.setGroup c slot g).searches = s.searches := rfl
@[simp] theorem State.setGroup_stamps (s : State) (c slot : Nat) (g : Group) : (s.setGroup c slot g).stamps = s.stamps := rfl
@[simp] theorem State.setGroup_token (s : State) (c slot : Nat) (g : Group) : (s.setGroup c slot g).token = s.token := rfl
@[simp] theorem State.setGroup_solo (s : State) (c slot : Nat) (g : Group) : (s.setGroup c slot g).solo = s.solo := rfl
@[simp] theorem State.setGroup_offers (s : State) (c slot : Nat) (g : Group) : (s.setGroup c slot g).offers = s.offers := rfl
@[simp] theorem State.setGroup_diffs (s : State) (c slot : Nat) (g : Group) : (s.setGroup c slot g).diffs = s.diffs := rfl
@[simp] theorem State.setGroup_landings (s : State) (c slot : Nat) (g : Group) : (s.setGroup c slot g).landings = s.landings := rfl
@[simp] theorem State.setGroup_parked (s : State) (c slot : Nat) (g : Group) : (s.setGroup c slot g).parked = s.parked := rfl
@[simp] theorem State.setGroup_delayed (s : State) (c slot : Nat) (g : Group) : (s.setGroup c slot g).delayed = s.delayed := rfl
@[simp] theorem State.setGroup_badLines (s : State) (c slot : Nat) (g : Group) : (s.setGroup c slot g).badLines = s.badLines := rfl
@[simp] theorem State.setGroup_poison (s : State) (c slot : Nat) (g : Group) : (s.setGroup c slot g).poison = s.poison := rfl
@[simp] theorem State.setGroup_hostData (s : State) (c slot : Nat) (g : Group) : (s.setGroup c slot g).hostData = s.hostData := rfl
@[simp] theorem State.setGroup_rebuilding (s : State) (c slot : Nat) (g : Group) : (s.setGroup c slot g).rebuilding = s.rebuilding := rfl
@[simp] theorem State.setGroup_ncl (s : State) (c slot : Nat) (g : Group) : (s.setGroup c slot g).ncl = s.ncl := rfl
@[simp] theorem State.setGroup_parity (s : State) (c slot : Nat) (g : Group) : (s.setGroup c slot g).parity = s.parity := rfl
@[simp] theorem State.setGroup_paritySeq (s : State) (c slot : Nat) (g : Group) : (s.setGroup c slot g).paritySeq = s.paritySeq := rfl
@[simp] theorem State.setGroup_parityAcks (s : State) (c slot : Nat) (g : Group) : (s.setGroup c slot g).parityAcks = s.parityAcks := rfl
@[simp] theorem State.setGroup_parityIn (s : State) (c slot : Nat) (g : Group) : (s.setGroup c slot g).parityIn = s.parityIn := rfl
@[simp] theorem State.setGroup_banks (s : State) (c slot : Nat) (g : Group) : (s.setGroup c slot g).banks = s.banks := rfl
@[simp] theorem State.setGroup_chainTags (s : State) (c slot : Nat) (g : Group) : (s.setGroup c slot g).chainTags = s.chainTags := rfl
@[simp] theorem State.setGroup_demoted (s : State) (c slot : Nat) (g : Group) : (s.setGroup c slot g).demoted = s.demoted := rfl
@[simp] theorem State.setGroup_hourly (s : State) (c slot : Nat) (g : Group) : (s.setGroup c slot g).hourly = s.hourly := rfl
@[simp] theorem State.setGroup_links (s : State) (c slot : Nat) (g : Group) : (s.setGroup c slot g).links = s.links := rfl
@[simp] theorem State.setGroup_pairs (s : State) (c slot : Nat) (g : Group) : (s.setGroup c slot g).pairs = s.pairs := rfl
@[simp] theorem State.setGroup_unreachable (s : State) (c slot : Nat) (g : Group) : (s.setGroup c slot g).unreachable = s.unreachable := rfl
@[simp] theorem State.setGroup_merges (s : State) (c slot : Nat) (g : Group) : (s.setGroup c slot g).merges = s.merges := rfl
@[simp] theorem State.setGroup_mergesLost (s : State) (c slot : Nat) (g : Group) : (s.setGroup c slot g).mergesLost = s.mergesLost := rfl
@[simp] theorem State.setGroup_colls (s : State) (c slot : Nat) (g : Group) : (s.setGroup c slot g).colls = s.colls := rfl
@[simp] theorem State.setGroup_units (s : State) (c slot : Nat) (g : Group) : (s.setGroup c slot g).units = s.units := rfl
@[simp] theorem State.setGroup_nvUnits (s : State) (c slot : Nat) (g : Group) : (s.setGroup c slot g).nvUnits = s.nvUnits := rfl
@[simp] theorem State.setGroup_records (s : State) (c slot : Nat) (g : Group) : (s.setGroup c slot g).records = s.records := rfl
@[simp] theorem State.setGroup_overflow (s : State) (c slot : Nat) (g : Group) : (s.setGroup c slot g).overflow = s.overflow := rfl
@[simp] theorem State.setGroup_dump (s : State) (c slot : Nat) (g : Group) : (s.setGroup c slot g).dump = s.dump := rfl
@[simp] theorem State.setGroup_captures (s : State) (c slot : Nat) (g : Group) : (s.setGroup c slot g).captures = s.captures := rfl
@[simp] theorem State.setGroup_rowEvents (s : State) (c slot : Nat) (g : Group) : (s.setGroup c slot g).rowEvents = s.rowEvents := rfl
@[simp] theorem State.setGroup_fwdrop (s : State) (c slot : Nat) (g : Group) : (s.setGroup c slot g).fwdrop = s.fwdrop := rfl
@[simp] theorem State.setGroup_lperiod (s : State) (c slot : Nat) (g : Group) : (s.setGroup c slot g).lperiod = s.lperiod := rfl
@[simp] theorem State.setGroup_disc (s : State) (c slot : Nat) (g : Group) : (s.setGroup c slot g).disc = s.disc := rfl
@[simp] theorem State.setGroup_power (s : State) (c slot : Nat) (g : Group) : (s.setGroup c slot g).power = s.power := rfl
@[simp] theorem State.setGroup_clk (s : State) (c slot : Nat) (g : Group) : (s.setGroup c slot g).clk = s.clk := rfl
@[simp] theorem State.setGroup_sec (s : State) (c slot : Nat) (g : Group) : (s.setGroup c slot g).sec = s.sec := rfl
@[simp] theorem State.setGroup_ns (s : State) (c slot : Nat) (g : Group) : (s.setGroup c slot g).ns = s.ns := rfl
@[simp] theorem State.setGroup_wall (s : State) (c slot : Nat) (g : Group) : (s.setGroup c slot g).wall = s.wall := rfl
@[simp] theorem State.setGroup_goes (s : State) (c slot : Nat) (g : Group) : (s.setGroup c slot g).goes = s.goes := rfl
@[simp] theorem State.setGroup_port (s : State) (c slot : Nat) (g : Group) : (s.setGroup c slot g).port = s.port := rfl
@[simp] theorem State.setGroup_response (s : State) (c slot : Nat) (g : Group) : (s.setGroup c slot g).response = s.response := rfl
@[simp] theorem State.setGroup_assembling (s : State) (c slot : Nat) (g : Group) : (s.setGroup c slot g).assembling = s.assembling := rfl
@[simp] theorem State.setGroup_packetsOut (s : State) (c slot : Nat) (g : Group) : (s.setGroup c slot g).packetsOut = s.packetsOut := rfl
@[simp] theorem State.setGroup_agenda (s : State) (c slot : Nat) (g : Group) : (s.setGroup c slot g).agenda = s.agenda := rfl
@[simp] theorem State.setGroup_sched (s : State) (c slot : Nat) (g : Group) : (s.setGroup c slot g).sched = s.sched := rfl
@[simp] theorem State.setGroup_cur (s : State) (c slot : Nat) (g : Group) : (s.setGroup c slot g).cur = s.cur := rfl
@[simp] theorem State.setGroup_fresh (s : State) (c slot : Nat) (g : Group) : (s.setGroup c slot g).fresh = s.fresh := rfl
@[simp] theorem State.setGroup_steps (s : State) (c slot : Nat) (g : Group) : (s.setGroup c slot g).steps = s.steps := rfl
@[simp] theorem State.setGroup_stop (s : State) (c slot : Nat) (g : Group) : (s.setGroup c slot g).stop = s.stop := rfl
@[simp] theorem State.setGroup_losses (s : State) (c slot : Nat) (g : Group) : (s.setGroup c slot g).losses = s.losses := rfl
@[simp] theorem State.setGroup_glitch (s : State) (c slot : Nat) (g : Group) : (s.setGroup c slot g).glitch = s.glitch := rfl
@[simp] theorem State.setGroup_evicts (s : State) (c slot : Nat) (g : Group) : (s.setGroup c slot g).evicts = s.evicts := rfl
@[simp] theorem State.setGroup_refetch (s : State) (c slot : Nat) (g : Group) : (s.setGroup c slot g).refetch = s.refetch := rfl
@[simp] theorem State.setGroup_eccs (s : State) (c slot : Nat) (g : Group) : (s.setGroup c slot g).eccs = s.eccs := rfl
@[simp] theorem State.setGroup_fwWrites (s : State) (c slot : Nat) (g : Group) : (s.setGroup c slot g).fwWrites = s.fwWrites := rfl
@[simp] theorem State.setGroup_packetsIn (s : State) (c slot : Nat) (g : Group) : (s.setGroup c slot g).packetsIn = s.packetsIn := rfl
@[simp] theorem State.setGroup_clkRem (s : State) (c slot : Nat) (g : Group) : (s.setGroup c slot g).clkRem = s.clkRem := rfl
@[simp] theorem State.setGroup_timeRem (s : State) (c slot : Nat) (g : Group) : (s.setGroup c slot g).timeRem = s.timeRem := rfl
@[simp] theorem State.setGroup_nextUid (s : State) (c slot : Nat) (g : Group) : (s.setGroup c slot g).nextUid = s.nextUid := rfl
@[simp] theorem State.setGroup_nextId (s : State) (c slot : Nat) (g : Group) : (s.setGroup c slot g).nextId = s.nextId := rfl

/-! ## poolPut -/

@[simp] theorem State.poolPut_mem (s : State) (c a : Nat) (bs : List Byte) : (s.poolPut c a bs).mem = s.mem := rfl
@[simp] theorem State.poolPut_clusters (s : State) (c a : Nat) (bs : List Byte) : (s.poolPut c a bs).clusters = s.clusters := rfl
@[simp] theorem State.poolPut_teams (s : State) (c a : Nat) (bs : List Byte) : (s.poolPut c a bs).teams = s.teams := rfl
@[simp] theorem State.poolPut_kernels (s : State) (c a : Nat) (bs : List Byte) : (s.poolPut c a bs).kernels = s.kernels := rfl
@[simp] theorem State.poolPut_heirs (s : State) (c a : Nat) (bs : List Byte) : (s.poolPut c a bs).heirs = s.heirs := rfl
@[simp] theorem State.poolPut_stores (s : State) (c a : Nat) (bs : List Byte) : (s.poolPut c a bs).stores = s.stores := rfl
@[simp] theorem State.poolPut_ctxs (s : State) (c a : Nat) (bs : List Byte) : (s.poolPut c a bs).ctxs = s.ctxs := rfl
@[simp] theorem State.poolPut_tlb (s : State) (c a : Nat) (bs : List Byte) : (s.poolPut c a bs).tlb = s.tlb := rfl
@[simp] theorem State.poolPut_walks (s : State) (c a : Nat) (bs : List Byte) : (s.poolPut c a bs).walks = s.walks := rfl
@[simp] theorem State.poolPut_invals (s : State) (c a : Nat) (bs : List Byte) : (s.poolPut c a bs).invals = s.invals := rfl
@[simp] theorem State.poolPut_faulted (s : State) (c a : Nat) (bs : List Byte) : (s.poolPut c a bs).faulted = s.faulted := rfl
@[simp] theorem State.poolPut_migrations (s : State) (c a : Nat) (bs : List Byte) : (s.poolPut c a bs).migrations = s.migrations := rfl
@[simp] theorem State.poolPut_xrecs (s : State) (c a : Nat) (bs : List Byte) : (s.poolPut c a bs).xrecs = s.xrecs := rfl
@[simp] theorem State.poolPut_xseq (s : State) (c a : Nat) (bs : List Byte) : (s.poolPut c a bs).xseq = s.xseq := rfl
@[simp] theorem State.poolPut_regions (s : State) (c a : Nat) (bs : List Byte) : (s.poolPut c a bs).regions = s.regions := rfl
@[simp] theorem State.poolPut_newRegions (s : State) (c a : Nat) (bs : List Byte) : (s.poolPut c a bs).newRegions = s.newRegions := rfl
@[simp] theorem State.poolPut_parts (s : State) (c a : Nat) (bs : List Byte) : (s.poolPut c a bs).parts = s.parts := rfl
@[simp] theorem State.poolPut_windows (s : State) (c a : Nat) (bs : List Byte) : (s.poolPut c a bs).windows = s.windows := rfl
@[simp] theorem State.poolPut_aperture (s : State) (c a : Nat) (bs : List Byte) : (s.poolPut c a bs).aperture = s.aperture := rfl
@[simp] theorem State.poolPut_queues (s : State) (c a : Nat) (bs : List Byte) : (s.poolPut c a bs).queues = s.queues := rfl
@[simp] theorem State.poolPut_nodes (s : State) (c a : Nat) (bs : List Byte) : (s.poolPut c a bs).nodes = s.nodes := rfl
@[simp] theorem State.poolPut_ops (s : State) (c a : Nat) (bs : List Byte) : (s.poolPut c a bs).ops = s.ops := rfl
@[simp] theorem State.poolPut_indexes (s : State) (c a : Nat) (bs : List Byte) : (s.poolPut c a bs).indexes = s.indexes := rfl
@[simp] theorem State.poolPut_publs (s : State) (c a : Nat) (bs : List Byte) : (s.poolPut c a bs).publs = s.publs := rfl
@[simp] theorem State.poolPut_searches (s : State) (c a : Nat) (bs : List Byte) : (s.poolPut c a bs).searches = s.searches := rfl
@[simp] theorem State.poolPut_stamps (s : State) (c a : Nat) (bs : List Byte) : (s.poolPut c a bs).stamps = s.stamps := rfl
@[simp] theorem State.poolPut_token (s : State) (c a : Nat) (bs : List Byte) : (s.poolPut c a bs).token = s.token := rfl
@[simp] theorem State.poolPut_solo (s : State) (c a : Nat) (bs : List Byte) : (s.poolPut c a bs).solo = s.solo := rfl
@[simp] theorem State.poolPut_offers (s : State) (c a : Nat) (bs : List Byte) : (s.poolPut c a bs).offers = s.offers := rfl
@[simp] theorem State.poolPut_diffs (s : State) (c a : Nat) (bs : List Byte) : (s.poolPut c a bs).diffs = s.diffs := rfl
@[simp] theorem State.poolPut_landings (s : State) (c a : Nat) (bs : List Byte) : (s.poolPut c a bs).landings = s.landings := rfl
@[simp] theorem State.poolPut_parked (s : State) (c a : Nat) (bs : List Byte) : (s.poolPut c a bs).parked = s.parked := rfl
@[simp] theorem State.poolPut_delayed (s : State) (c a : Nat) (bs : List Byte) : (s.poolPut c a bs).delayed = s.delayed := rfl
@[simp] theorem State.poolPut_badLines (s : State) (c a : Nat) (bs : List Byte) : (s.poolPut c a bs).badLines = s.badLines := rfl
@[simp] theorem State.poolPut_poison (s : State) (c a : Nat) (bs : List Byte) : (s.poolPut c a bs).poison = s.poison := rfl
@[simp] theorem State.poolPut_hostData (s : State) (c a : Nat) (bs : List Byte) : (s.poolPut c a bs).hostData = s.hostData := rfl
@[simp] theorem State.poolPut_rebuilding (s : State) (c a : Nat) (bs : List Byte) : (s.poolPut c a bs).rebuilding = s.rebuilding := rfl
@[simp] theorem State.poolPut_ncl (s : State) (c a : Nat) (bs : List Byte) : (s.poolPut c a bs).ncl = s.ncl := rfl
@[simp] theorem State.poolPut_parity (s : State) (c a : Nat) (bs : List Byte) : (s.poolPut c a bs).parity = s.parity := rfl
@[simp] theorem State.poolPut_paritySeq (s : State) (c a : Nat) (bs : List Byte) : (s.poolPut c a bs).paritySeq = s.paritySeq := rfl
@[simp] theorem State.poolPut_parityAcks (s : State) (c a : Nat) (bs : List Byte) : (s.poolPut c a bs).parityAcks = s.parityAcks := rfl
@[simp] theorem State.poolPut_parityIn (s : State) (c a : Nat) (bs : List Byte) : (s.poolPut c a bs).parityIn = s.parityIn := rfl
@[simp] theorem State.poolPut_banks (s : State) (c a : Nat) (bs : List Byte) : (s.poolPut c a bs).banks = s.banks := rfl
@[simp] theorem State.poolPut_chainTags (s : State) (c a : Nat) (bs : List Byte) : (s.poolPut c a bs).chainTags = s.chainTags := rfl
@[simp] theorem State.poolPut_demoted (s : State) (c a : Nat) (bs : List Byte) : (s.poolPut c a bs).demoted = s.demoted := rfl
@[simp] theorem State.poolPut_hourly (s : State) (c a : Nat) (bs : List Byte) : (s.poolPut c a bs).hourly = s.hourly := rfl
@[simp] theorem State.poolPut_links (s : State) (c a : Nat) (bs : List Byte) : (s.poolPut c a bs).links = s.links := rfl
@[simp] theorem State.poolPut_pairs (s : State) (c a : Nat) (bs : List Byte) : (s.poolPut c a bs).pairs = s.pairs := rfl
@[simp] theorem State.poolPut_unreachable (s : State) (c a : Nat) (bs : List Byte) : (s.poolPut c a bs).unreachable = s.unreachable := rfl
@[simp] theorem State.poolPut_merges (s : State) (c a : Nat) (bs : List Byte) : (s.poolPut c a bs).merges = s.merges := rfl
@[simp] theorem State.poolPut_mergesLost (s : State) (c a : Nat) (bs : List Byte) : (s.poolPut c a bs).mergesLost = s.mergesLost := rfl
@[simp] theorem State.poolPut_colls (s : State) (c a : Nat) (bs : List Byte) : (s.poolPut c a bs).colls = s.colls := rfl
@[simp] theorem State.poolPut_units (s : State) (c a : Nat) (bs : List Byte) : (s.poolPut c a bs).units = s.units := rfl
@[simp] theorem State.poolPut_nvUnits (s : State) (c a : Nat) (bs : List Byte) : (s.poolPut c a bs).nvUnits = s.nvUnits := rfl
@[simp] theorem State.poolPut_records (s : State) (c a : Nat) (bs : List Byte) : (s.poolPut c a bs).records = s.records := rfl
@[simp] theorem State.poolPut_overflow (s : State) (c a : Nat) (bs : List Byte) : (s.poolPut c a bs).overflow = s.overflow := rfl
@[simp] theorem State.poolPut_dump (s : State) (c a : Nat) (bs : List Byte) : (s.poolPut c a bs).dump = s.dump := rfl
@[simp] theorem State.poolPut_captures (s : State) (c a : Nat) (bs : List Byte) : (s.poolPut c a bs).captures = s.captures := rfl
@[simp] theorem State.poolPut_rowEvents (s : State) (c a : Nat) (bs : List Byte) : (s.poolPut c a bs).rowEvents = s.rowEvents := rfl
@[simp] theorem State.poolPut_fwdrop (s : State) (c a : Nat) (bs : List Byte) : (s.poolPut c a bs).fwdrop = s.fwdrop := rfl
@[simp] theorem State.poolPut_lperiod (s : State) (c a : Nat) (bs : List Byte) : (s.poolPut c a bs).lperiod = s.lperiod := rfl
@[simp] theorem State.poolPut_disc (s : State) (c a : Nat) (bs : List Byte) : (s.poolPut c a bs).disc = s.disc := rfl
@[simp] theorem State.poolPut_power (s : State) (c a : Nat) (bs : List Byte) : (s.poolPut c a bs).power = s.power := rfl
@[simp] theorem State.poolPut_clk (s : State) (c a : Nat) (bs : List Byte) : (s.poolPut c a bs).clk = s.clk := rfl
@[simp] theorem State.poolPut_sec (s : State) (c a : Nat) (bs : List Byte) : (s.poolPut c a bs).sec = s.sec := rfl
@[simp] theorem State.poolPut_ns (s : State) (c a : Nat) (bs : List Byte) : (s.poolPut c a bs).ns = s.ns := rfl
@[simp] theorem State.poolPut_wall (s : State) (c a : Nat) (bs : List Byte) : (s.poolPut c a bs).wall = s.wall := rfl
@[simp] theorem State.poolPut_goes (s : State) (c a : Nat) (bs : List Byte) : (s.poolPut c a bs).goes = s.goes := rfl
@[simp] theorem State.poolPut_port (s : State) (c a : Nat) (bs : List Byte) : (s.poolPut c a bs).port = s.port := rfl
@[simp] theorem State.poolPut_response (s : State) (c a : Nat) (bs : List Byte) : (s.poolPut c a bs).response = s.response := rfl
@[simp] theorem State.poolPut_assembling (s : State) (c a : Nat) (bs : List Byte) : (s.poolPut c a bs).assembling = s.assembling := rfl
@[simp] theorem State.poolPut_packetsOut (s : State) (c a : Nat) (bs : List Byte) : (s.poolPut c a bs).packetsOut = s.packetsOut := rfl
@[simp] theorem State.poolPut_agenda (s : State) (c a : Nat) (bs : List Byte) : (s.poolPut c a bs).agenda = s.agenda := rfl
@[simp] theorem State.poolPut_sched (s : State) (c a : Nat) (bs : List Byte) : (s.poolPut c a bs).sched = s.sched := rfl
@[simp] theorem State.poolPut_cur (s : State) (c a : Nat) (bs : List Byte) : (s.poolPut c a bs).cur = s.cur := rfl
@[simp] theorem State.poolPut_fresh (s : State) (c a : Nat) (bs : List Byte) : (s.poolPut c a bs).fresh = s.fresh := rfl
@[simp] theorem State.poolPut_steps (s : State) (c a : Nat) (bs : List Byte) : (s.poolPut c a bs).steps = s.steps := rfl
@[simp] theorem State.poolPut_stop (s : State) (c a : Nat) (bs : List Byte) : (s.poolPut c a bs).stop = s.stop := rfl
@[simp] theorem State.poolPut_losses (s : State) (c a : Nat) (bs : List Byte) : (s.poolPut c a bs).losses = s.losses := rfl
@[simp] theorem State.poolPut_glitch (s : State) (c a : Nat) (bs : List Byte) : (s.poolPut c a bs).glitch = s.glitch := rfl
@[simp] theorem State.poolPut_evicts (s : State) (c a : Nat) (bs : List Byte) : (s.poolPut c a bs).evicts = s.evicts := rfl
@[simp] theorem State.poolPut_refetch (s : State) (c a : Nat) (bs : List Byte) : (s.poolPut c a bs).refetch = s.refetch := rfl
@[simp] theorem State.poolPut_eccs (s : State) (c a : Nat) (bs : List Byte) : (s.poolPut c a bs).eccs = s.eccs := rfl
@[simp] theorem State.poolPut_fwWrites (s : State) (c a : Nat) (bs : List Byte) : (s.poolPut c a bs).fwWrites = s.fwWrites := rfl
@[simp] theorem State.poolPut_packetsIn (s : State) (c a : Nat) (bs : List Byte) : (s.poolPut c a bs).packetsIn = s.packetsIn := rfl
@[simp] theorem State.poolPut_clkRem (s : State) (c a : Nat) (bs : List Byte) : (s.poolPut c a bs).clkRem = s.clkRem := rfl
@[simp] theorem State.poolPut_timeRem (s : State) (c a : Nat) (bs : List Byte) : (s.poolPut c a bs).timeRem = s.timeRem := rfl
@[simp] theorem State.poolPut_nextUid (s : State) (c a : Nat) (bs : List Byte) : (s.poolPut c a bs).nextUid = s.nextUid := rfl
@[simp] theorem State.poolPut_nextId (s : State) (c a : Nat) (bs : List Byte) : (s.poolPut c a bs).nextId = s.nextId := rfl

/-! ## setSpecial -/

@[simp] theorem State.setSpecial_mem (s : State) (c slot off x : Nat) : (s.setSpecial c slot off x).mem = s.mem := rfl
@[simp] theorem State.setSpecial_clusters (s : State) (c slot off x : Nat) : (s.setSpecial c slot off x).clusters = s.clusters := rfl
@[simp] theorem State.setSpecial_teams (s : State) (c slot off x : Nat) : (s.setSpecial c slot off x).teams = s.teams := rfl
@[simp] theorem State.setSpecial_kernels (s : State) (c slot off x : Nat) : (s.setSpecial c slot off x).kernels = s.kernels := rfl
@[simp] theorem State.setSpecial_heirs (s : State) (c slot off x : Nat) : (s.setSpecial c slot off x).heirs = s.heirs := rfl
@[simp] theorem State.setSpecial_stores (s : State) (c slot off x : Nat) : (s.setSpecial c slot off x).stores = s.stores := rfl
@[simp] theorem State.setSpecial_ctxs (s : State) (c slot off x : Nat) : (s.setSpecial c slot off x).ctxs = s.ctxs := rfl
@[simp] theorem State.setSpecial_tlb (s : State) (c slot off x : Nat) : (s.setSpecial c slot off x).tlb = s.tlb := rfl
@[simp] theorem State.setSpecial_walks (s : State) (c slot off x : Nat) : (s.setSpecial c slot off x).walks = s.walks := rfl
@[simp] theorem State.setSpecial_invals (s : State) (c slot off x : Nat) : (s.setSpecial c slot off x).invals = s.invals := rfl
@[simp] theorem State.setSpecial_faulted (s : State) (c slot off x : Nat) : (s.setSpecial c slot off x).faulted = s.faulted := rfl
@[simp] theorem State.setSpecial_migrations (s : State) (c slot off x : Nat) : (s.setSpecial c slot off x).migrations = s.migrations := rfl
@[simp] theorem State.setSpecial_xrecs (s : State) (c slot off x : Nat) : (s.setSpecial c slot off x).xrecs = s.xrecs := rfl
@[simp] theorem State.setSpecial_xseq (s : State) (c slot off x : Nat) : (s.setSpecial c slot off x).xseq = s.xseq := rfl
@[simp] theorem State.setSpecial_regions (s : State) (c slot off x : Nat) : (s.setSpecial c slot off x).regions = s.regions := rfl
@[simp] theorem State.setSpecial_newRegions (s : State) (c slot off x : Nat) : (s.setSpecial c slot off x).newRegions = s.newRegions := rfl
@[simp] theorem State.setSpecial_parts (s : State) (c slot off x : Nat) : (s.setSpecial c slot off x).parts = s.parts := rfl
@[simp] theorem State.setSpecial_windows (s : State) (c slot off x : Nat) : (s.setSpecial c slot off x).windows = s.windows := rfl
@[simp] theorem State.setSpecial_aperture (s : State) (c slot off x : Nat) : (s.setSpecial c slot off x).aperture = s.aperture := rfl
@[simp] theorem State.setSpecial_queues (s : State) (c slot off x : Nat) : (s.setSpecial c slot off x).queues = s.queues := rfl
@[simp] theorem State.setSpecial_nodes (s : State) (c slot off x : Nat) : (s.setSpecial c slot off x).nodes = s.nodes := rfl
@[simp] theorem State.setSpecial_ops (s : State) (c slot off x : Nat) : (s.setSpecial c slot off x).ops = s.ops := rfl
@[simp] theorem State.setSpecial_indexes (s : State) (c slot off x : Nat) : (s.setSpecial c slot off x).indexes = s.indexes := rfl
@[simp] theorem State.setSpecial_publs (s : State) (c slot off x : Nat) : (s.setSpecial c slot off x).publs = s.publs := rfl
@[simp] theorem State.setSpecial_searches (s : State) (c slot off x : Nat) : (s.setSpecial c slot off x).searches = s.searches := rfl
@[simp] theorem State.setSpecial_stamps (s : State) (c slot off x : Nat) : (s.setSpecial c slot off x).stamps = s.stamps := rfl
@[simp] theorem State.setSpecial_token (s : State) (c slot off x : Nat) : (s.setSpecial c slot off x).token = s.token := rfl
@[simp] theorem State.setSpecial_solo (s : State) (c slot off x : Nat) : (s.setSpecial c slot off x).solo = s.solo := rfl
@[simp] theorem State.setSpecial_offers (s : State) (c slot off x : Nat) : (s.setSpecial c slot off x).offers = s.offers := rfl
@[simp] theorem State.setSpecial_diffs (s : State) (c slot off x : Nat) : (s.setSpecial c slot off x).diffs = s.diffs := rfl
@[simp] theorem State.setSpecial_landings (s : State) (c slot off x : Nat) : (s.setSpecial c slot off x).landings = s.landings := rfl
@[simp] theorem State.setSpecial_parked (s : State) (c slot off x : Nat) : (s.setSpecial c slot off x).parked = s.parked := rfl
@[simp] theorem State.setSpecial_delayed (s : State) (c slot off x : Nat) : (s.setSpecial c slot off x).delayed = s.delayed := rfl
@[simp] theorem State.setSpecial_badLines (s : State) (c slot off x : Nat) : (s.setSpecial c slot off x).badLines = s.badLines := rfl
@[simp] theorem State.setSpecial_poison (s : State) (c slot off x : Nat) : (s.setSpecial c slot off x).poison = s.poison := rfl
@[simp] theorem State.setSpecial_hostData (s : State) (c slot off x : Nat) : (s.setSpecial c slot off x).hostData = s.hostData := rfl
@[simp] theorem State.setSpecial_rebuilding (s : State) (c slot off x : Nat) : (s.setSpecial c slot off x).rebuilding = s.rebuilding := rfl
@[simp] theorem State.setSpecial_ncl (s : State) (c slot off x : Nat) : (s.setSpecial c slot off x).ncl = s.ncl := rfl
@[simp] theorem State.setSpecial_parity (s : State) (c slot off x : Nat) : (s.setSpecial c slot off x).parity = s.parity := rfl
@[simp] theorem State.setSpecial_paritySeq (s : State) (c slot off x : Nat) : (s.setSpecial c slot off x).paritySeq = s.paritySeq := rfl
@[simp] theorem State.setSpecial_parityAcks (s : State) (c slot off x : Nat) : (s.setSpecial c slot off x).parityAcks = s.parityAcks := rfl
@[simp] theorem State.setSpecial_parityIn (s : State) (c slot off x : Nat) : (s.setSpecial c slot off x).parityIn = s.parityIn := rfl
@[simp] theorem State.setSpecial_banks (s : State) (c slot off x : Nat) : (s.setSpecial c slot off x).banks = s.banks := rfl
@[simp] theorem State.setSpecial_chainTags (s : State) (c slot off x : Nat) : (s.setSpecial c slot off x).chainTags = s.chainTags := rfl
@[simp] theorem State.setSpecial_demoted (s : State) (c slot off x : Nat) : (s.setSpecial c slot off x).demoted = s.demoted := rfl
@[simp] theorem State.setSpecial_hourly (s : State) (c slot off x : Nat) : (s.setSpecial c slot off x).hourly = s.hourly := rfl
@[simp] theorem State.setSpecial_links (s : State) (c slot off x : Nat) : (s.setSpecial c slot off x).links = s.links := rfl
@[simp] theorem State.setSpecial_pairs (s : State) (c slot off x : Nat) : (s.setSpecial c slot off x).pairs = s.pairs := rfl
@[simp] theorem State.setSpecial_unreachable (s : State) (c slot off x : Nat) : (s.setSpecial c slot off x).unreachable = s.unreachable := rfl
@[simp] theorem State.setSpecial_merges (s : State) (c slot off x : Nat) : (s.setSpecial c slot off x).merges = s.merges := rfl
@[simp] theorem State.setSpecial_mergesLost (s : State) (c slot off x : Nat) : (s.setSpecial c slot off x).mergesLost = s.mergesLost := rfl
@[simp] theorem State.setSpecial_colls (s : State) (c slot off x : Nat) : (s.setSpecial c slot off x).colls = s.colls := rfl
@[simp] theorem State.setSpecial_units (s : State) (c slot off x : Nat) : (s.setSpecial c slot off x).units = s.units := rfl
@[simp] theorem State.setSpecial_nvUnits (s : State) (c slot off x : Nat) : (s.setSpecial c slot off x).nvUnits = s.nvUnits := rfl
@[simp] theorem State.setSpecial_records (s : State) (c slot off x : Nat) : (s.setSpecial c slot off x).records = s.records := rfl
@[simp] theorem State.setSpecial_overflow (s : State) (c slot off x : Nat) : (s.setSpecial c slot off x).overflow = s.overflow := rfl
@[simp] theorem State.setSpecial_dump (s : State) (c slot off x : Nat) : (s.setSpecial c slot off x).dump = s.dump := rfl
@[simp] theorem State.setSpecial_captures (s : State) (c slot off x : Nat) : (s.setSpecial c slot off x).captures = s.captures := rfl
@[simp] theorem State.setSpecial_rowEvents (s : State) (c slot off x : Nat) : (s.setSpecial c slot off x).rowEvents = s.rowEvents := rfl
@[simp] theorem State.setSpecial_fwdrop (s : State) (c slot off x : Nat) : (s.setSpecial c slot off x).fwdrop = s.fwdrop := rfl
@[simp] theorem State.setSpecial_lperiod (s : State) (c slot off x : Nat) : (s.setSpecial c slot off x).lperiod = s.lperiod := rfl
@[simp] theorem State.setSpecial_disc (s : State) (c slot off x : Nat) : (s.setSpecial c slot off x).disc = s.disc := rfl
@[simp] theorem State.setSpecial_power (s : State) (c slot off x : Nat) : (s.setSpecial c slot off x).power = s.power := rfl
@[simp] theorem State.setSpecial_clk (s : State) (c slot off x : Nat) : (s.setSpecial c slot off x).clk = s.clk := rfl
@[simp] theorem State.setSpecial_sec (s : State) (c slot off x : Nat) : (s.setSpecial c slot off x).sec = s.sec := rfl
@[simp] theorem State.setSpecial_ns (s : State) (c slot off x : Nat) : (s.setSpecial c slot off x).ns = s.ns := rfl
@[simp] theorem State.setSpecial_wall (s : State) (c slot off x : Nat) : (s.setSpecial c slot off x).wall = s.wall := rfl
@[simp] theorem State.setSpecial_goes (s : State) (c slot off x : Nat) : (s.setSpecial c slot off x).goes = s.goes := rfl
@[simp] theorem State.setSpecial_port (s : State) (c slot off x : Nat) : (s.setSpecial c slot off x).port = s.port := rfl
@[simp] theorem State.setSpecial_response (s : State) (c slot off x : Nat) : (s.setSpecial c slot off x).response = s.response := rfl
@[simp] theorem State.setSpecial_assembling (s : State) (c slot off x : Nat) : (s.setSpecial c slot off x).assembling = s.assembling := rfl
@[simp] theorem State.setSpecial_packetsOut (s : State) (c slot off x : Nat) : (s.setSpecial c slot off x).packetsOut = s.packetsOut := rfl
@[simp] theorem State.setSpecial_agenda (s : State) (c slot off x : Nat) : (s.setSpecial c slot off x).agenda = s.agenda := rfl
@[simp] theorem State.setSpecial_sched (s : State) (c slot off x : Nat) : (s.setSpecial c slot off x).sched = s.sched := rfl
@[simp] theorem State.setSpecial_cur (s : State) (c slot off x : Nat) : (s.setSpecial c slot off x).cur = s.cur := rfl
@[simp] theorem State.setSpecial_fresh (s : State) (c slot off x : Nat) : (s.setSpecial c slot off x).fresh = s.fresh := rfl
@[simp] theorem State.setSpecial_steps (s : State) (c slot off x : Nat) : (s.setSpecial c slot off x).steps = s.steps := rfl
@[simp] theorem State.setSpecial_stop (s : State) (c slot off x : Nat) : (s.setSpecial c slot off x).stop = s.stop := rfl
@[simp] theorem State.setSpecial_losses (s : State) (c slot off x : Nat) : (s.setSpecial c slot off x).losses = s.losses := rfl
@[simp] theorem State.setSpecial_glitch (s : State) (c slot off x : Nat) : (s.setSpecial c slot off x).glitch = s.glitch := rfl
@[simp] theorem State.setSpecial_evicts (s : State) (c slot off x : Nat) : (s.setSpecial c slot off x).evicts = s.evicts := rfl
@[simp] theorem State.setSpecial_refetch (s : State) (c slot off x : Nat) : (s.setSpecial c slot off x).refetch = s.refetch := rfl
@[simp] theorem State.setSpecial_eccs (s : State) (c slot off x : Nat) : (s.setSpecial c slot off x).eccs = s.eccs := rfl
@[simp] theorem State.setSpecial_fwWrites (s : State) (c slot off x : Nat) : (s.setSpecial c slot off x).fwWrites = s.fwWrites := rfl
@[simp] theorem State.setSpecial_packetsIn (s : State) (c slot off x : Nat) : (s.setSpecial c slot off x).packetsIn = s.packetsIn := rfl
@[simp] theorem State.setSpecial_clkRem (s : State) (c slot off x : Nat) : (s.setSpecial c slot off x).clkRem = s.clkRem := rfl
@[simp] theorem State.setSpecial_timeRem (s : State) (c slot off x : Nat) : (s.setSpecial c slot off x).timeRem = s.timeRem := rfl
@[simp] theorem State.setSpecial_nextUid (s : State) (c slot off x : Nat) : (s.setSpecial c slot off x).nextUid = s.nextUid := rfl
@[simp] theorem State.setSpecial_nextId (s : State) (c slot off x : Nat) : (s.setSpecial c slot off x).nextId = s.nextId := rfl

/-! ## due -/

@[simp] theorem State.due_mem (s : State) (es : List Instr) : (s.due es).mem = s.mem := rfl
@[simp] theorem State.due_cores (s : State) (es : List Instr) : (s.due es).cores = s.cores := rfl
@[simp] theorem State.due_clusters (s : State) (es : List Instr) : (s.due es).clusters = s.clusters := rfl
@[simp] theorem State.due_teams (s : State) (es : List Instr) : (s.due es).teams = s.teams := rfl
@[simp] theorem State.due_kernels (s : State) (es : List Instr) : (s.due es).kernels = s.kernels := rfl
@[simp] theorem State.due_heirs (s : State) (es : List Instr) : (s.due es).heirs = s.heirs := rfl
@[simp] theorem State.due_stores (s : State) (es : List Instr) : (s.due es).stores = s.stores := rfl
@[simp] theorem State.due_ctxs (s : State) (es : List Instr) : (s.due es).ctxs = s.ctxs := rfl
@[simp] theorem State.due_tlb (s : State) (es : List Instr) : (s.due es).tlb = s.tlb := rfl
@[simp] theorem State.due_walks (s : State) (es : List Instr) : (s.due es).walks = s.walks := rfl
@[simp] theorem State.due_invals (s : State) (es : List Instr) : (s.due es).invals = s.invals := rfl
@[simp] theorem State.due_faulted (s : State) (es : List Instr) : (s.due es).faulted = s.faulted := rfl
@[simp] theorem State.due_migrations (s : State) (es : List Instr) : (s.due es).migrations = s.migrations := rfl
@[simp] theorem State.due_xrecs (s : State) (es : List Instr) : (s.due es).xrecs = s.xrecs := rfl
@[simp] theorem State.due_xseq (s : State) (es : List Instr) : (s.due es).xseq = s.xseq := rfl
@[simp] theorem State.due_regions (s : State) (es : List Instr) : (s.due es).regions = s.regions := rfl
@[simp] theorem State.due_newRegions (s : State) (es : List Instr) : (s.due es).newRegions = s.newRegions := rfl
@[simp] theorem State.due_parts (s : State) (es : List Instr) : (s.due es).parts = s.parts := rfl
@[simp] theorem State.due_windows (s : State) (es : List Instr) : (s.due es).windows = s.windows := rfl
@[simp] theorem State.due_aperture (s : State) (es : List Instr) : (s.due es).aperture = s.aperture := rfl
@[simp] theorem State.due_queues (s : State) (es : List Instr) : (s.due es).queues = s.queues := rfl
@[simp] theorem State.due_nodes (s : State) (es : List Instr) : (s.due es).nodes = s.nodes := rfl
@[simp] theorem State.due_ops (s : State) (es : List Instr) : (s.due es).ops = s.ops := rfl
@[simp] theorem State.due_indexes (s : State) (es : List Instr) : (s.due es).indexes = s.indexes := rfl
@[simp] theorem State.due_publs (s : State) (es : List Instr) : (s.due es).publs = s.publs := rfl
@[simp] theorem State.due_searches (s : State) (es : List Instr) : (s.due es).searches = s.searches := rfl
@[simp] theorem State.due_stamps (s : State) (es : List Instr) : (s.due es).stamps = s.stamps := rfl
@[simp] theorem State.due_token (s : State) (es : List Instr) : (s.due es).token = s.token := rfl
@[simp] theorem State.due_solo (s : State) (es : List Instr) : (s.due es).solo = s.solo := rfl
@[simp] theorem State.due_offers (s : State) (es : List Instr) : (s.due es).offers = s.offers := rfl
@[simp] theorem State.due_diffs (s : State) (es : List Instr) : (s.due es).diffs = s.diffs := rfl
@[simp] theorem State.due_landings (s : State) (es : List Instr) : (s.due es).landings = s.landings := rfl
@[simp] theorem State.due_parked (s : State) (es : List Instr) : (s.due es).parked = s.parked := rfl
@[simp] theorem State.due_delayed (s : State) (es : List Instr) : (s.due es).delayed = s.delayed := rfl
@[simp] theorem State.due_badLines (s : State) (es : List Instr) : (s.due es).badLines = s.badLines := rfl
@[simp] theorem State.due_poison (s : State) (es : List Instr) : (s.due es).poison = s.poison := rfl
@[simp] theorem State.due_hostData (s : State) (es : List Instr) : (s.due es).hostData = s.hostData := rfl
@[simp] theorem State.due_rebuilding (s : State) (es : List Instr) : (s.due es).rebuilding = s.rebuilding := rfl
@[simp] theorem State.due_ncl (s : State) (es : List Instr) : (s.due es).ncl = s.ncl := rfl
@[simp] theorem State.due_parity (s : State) (es : List Instr) : (s.due es).parity = s.parity := rfl
@[simp] theorem State.due_paritySeq (s : State) (es : List Instr) : (s.due es).paritySeq = s.paritySeq := rfl
@[simp] theorem State.due_parityAcks (s : State) (es : List Instr) : (s.due es).parityAcks = s.parityAcks := rfl
@[simp] theorem State.due_parityIn (s : State) (es : List Instr) : (s.due es).parityIn = s.parityIn := rfl
@[simp] theorem State.due_banks (s : State) (es : List Instr) : (s.due es).banks = s.banks := rfl
@[simp] theorem State.due_chainTags (s : State) (es : List Instr) : (s.due es).chainTags = s.chainTags := rfl
@[simp] theorem State.due_demoted (s : State) (es : List Instr) : (s.due es).demoted = s.demoted := rfl
@[simp] theorem State.due_hourly (s : State) (es : List Instr) : (s.due es).hourly = s.hourly := rfl
@[simp] theorem State.due_links (s : State) (es : List Instr) : (s.due es).links = s.links := rfl
@[simp] theorem State.due_pairs (s : State) (es : List Instr) : (s.due es).pairs = s.pairs := rfl
@[simp] theorem State.due_unreachable (s : State) (es : List Instr) : (s.due es).unreachable = s.unreachable := rfl
@[simp] theorem State.due_merges (s : State) (es : List Instr) : (s.due es).merges = s.merges := rfl
@[simp] theorem State.due_mergesLost (s : State) (es : List Instr) : (s.due es).mergesLost = s.mergesLost := rfl
@[simp] theorem State.due_colls (s : State) (es : List Instr) : (s.due es).colls = s.colls := rfl
@[simp] theorem State.due_units (s : State) (es : List Instr) : (s.due es).units = s.units := rfl
@[simp] theorem State.due_nvUnits (s : State) (es : List Instr) : (s.due es).nvUnits = s.nvUnits := rfl
@[simp] theorem State.due_records (s : State) (es : List Instr) : (s.due es).records = s.records := rfl
@[simp] theorem State.due_overflow (s : State) (es : List Instr) : (s.due es).overflow = s.overflow := rfl
@[simp] theorem State.due_dump (s : State) (es : List Instr) : (s.due es).dump = s.dump := rfl
@[simp] theorem State.due_captures (s : State) (es : List Instr) : (s.due es).captures = s.captures := rfl
@[simp] theorem State.due_rowEvents (s : State) (es : List Instr) : (s.due es).rowEvents = s.rowEvents := rfl
@[simp] theorem State.due_fwdrop (s : State) (es : List Instr) : (s.due es).fwdrop = s.fwdrop := rfl
@[simp] theorem State.due_lperiod (s : State) (es : List Instr) : (s.due es).lperiod = s.lperiod := rfl
@[simp] theorem State.due_disc (s : State) (es : List Instr) : (s.due es).disc = s.disc := rfl
@[simp] theorem State.due_power (s : State) (es : List Instr) : (s.due es).power = s.power := rfl
@[simp] theorem State.due_clk (s : State) (es : List Instr) : (s.due es).clk = s.clk := rfl
@[simp] theorem State.due_sec (s : State) (es : List Instr) : (s.due es).sec = s.sec := rfl
@[simp] theorem State.due_ns (s : State) (es : List Instr) : (s.due es).ns = s.ns := rfl
@[simp] theorem State.due_wall (s : State) (es : List Instr) : (s.due es).wall = s.wall := rfl
@[simp] theorem State.due_goes (s : State) (es : List Instr) : (s.due es).goes = s.goes := rfl
@[simp] theorem State.due_port (s : State) (es : List Instr) : (s.due es).port = s.port := rfl
@[simp] theorem State.due_response (s : State) (es : List Instr) : (s.due es).response = s.response := rfl
@[simp] theorem State.due_assembling (s : State) (es : List Instr) : (s.due es).assembling = s.assembling := rfl
@[simp] theorem State.due_packetsOut (s : State) (es : List Instr) : (s.due es).packetsOut = s.packetsOut := rfl
@[simp] theorem State.due_sched (s : State) (es : List Instr) : (s.due es).sched = s.sched := rfl
@[simp] theorem State.due_cur (s : State) (es : List Instr) : (s.due es).cur = s.cur := rfl
@[simp] theorem State.due_fresh (s : State) (es : List Instr) : (s.due es).fresh = s.fresh := rfl
@[simp] theorem State.due_steps (s : State) (es : List Instr) : (s.due es).steps = s.steps := rfl
@[simp] theorem State.due_stop (s : State) (es : List Instr) : (s.due es).stop = s.stop := rfl
@[simp] theorem State.due_losses (s : State) (es : List Instr) : (s.due es).losses = s.losses := rfl
@[simp] theorem State.due_glitch (s : State) (es : List Instr) : (s.due es).glitch = s.glitch := rfl
@[simp] theorem State.due_evicts (s : State) (es : List Instr) : (s.due es).evicts = s.evicts := rfl
@[simp] theorem State.due_refetch (s : State) (es : List Instr) : (s.due es).refetch = s.refetch := rfl
@[simp] theorem State.due_eccs (s : State) (es : List Instr) : (s.due es).eccs = s.eccs := rfl
@[simp] theorem State.due_fwWrites (s : State) (es : List Instr) : (s.due es).fwWrites = s.fwWrites := rfl
@[simp] theorem State.due_packetsIn (s : State) (es : List Instr) : (s.due es).packetsIn = s.packetsIn := rfl
@[simp] theorem State.due_clkRem (s : State) (es : List Instr) : (s.due es).clkRem = s.clkRem := rfl
@[simp] theorem State.due_timeRem (s : State) (es : List Instr) : (s.due es).timeRem = s.timeRem := rfl
@[simp] theorem State.due_nextUid (s : State) (es : List Instr) : (s.due es).nextUid = s.nextUid := rfl
@[simp] theorem State.due_nextId (s : State) (es : List Instr) : (s.due es).nextId = s.nextId := rfl

/-! ## setCtx -/

@[simp] theorem State.setCtx_mem (s : State) (c : Nat) (x : Ctx) : (s.setCtx c x).mem = s.mem := rfl
@[simp] theorem State.setCtx_cores (s : State) (c : Nat) (x : Ctx) : (s.setCtx c x).cores = s.cores := rfl
@[simp] theorem State.setCtx_clusters (s : State) (c : Nat) (x : Ctx) : (s.setCtx c x).clusters = s.clusters := rfl
@[simp] theorem State.setCtx_teams (s : State) (c : Nat) (x : Ctx) : (s.setCtx c x).teams = s.teams := rfl
@[simp] theorem State.setCtx_kernels (s : State) (c : Nat) (x : Ctx) : (s.setCtx c x).kernels = s.kernels := rfl
@[simp] theorem State.setCtx_heirs (s : State) (c : Nat) (x : Ctx) : (s.setCtx c x).heirs = s.heirs := rfl
@[simp] theorem State.setCtx_stores (s : State) (c : Nat) (x : Ctx) : (s.setCtx c x).stores = s.stores := rfl
@[simp] theorem State.setCtx_tlb (s : State) (c : Nat) (x : Ctx) : (s.setCtx c x).tlb = s.tlb := rfl
@[simp] theorem State.setCtx_walks (s : State) (c : Nat) (x : Ctx) : (s.setCtx c x).walks = s.walks := rfl
@[simp] theorem State.setCtx_invals (s : State) (c : Nat) (x : Ctx) : (s.setCtx c x).invals = s.invals := rfl
@[simp] theorem State.setCtx_faulted (s : State) (c : Nat) (x : Ctx) : (s.setCtx c x).faulted = s.faulted := rfl
@[simp] theorem State.setCtx_migrations (s : State) (c : Nat) (x : Ctx) : (s.setCtx c x).migrations = s.migrations := rfl
@[simp] theorem State.setCtx_xrecs (s : State) (c : Nat) (x : Ctx) : (s.setCtx c x).xrecs = s.xrecs := rfl
@[simp] theorem State.setCtx_xseq (s : State) (c : Nat) (x : Ctx) : (s.setCtx c x).xseq = s.xseq := rfl
@[simp] theorem State.setCtx_regions (s : State) (c : Nat) (x : Ctx) : (s.setCtx c x).regions = s.regions := rfl
@[simp] theorem State.setCtx_newRegions (s : State) (c : Nat) (x : Ctx) : (s.setCtx c x).newRegions = s.newRegions := rfl
@[simp] theorem State.setCtx_parts (s : State) (c : Nat) (x : Ctx) : (s.setCtx c x).parts = s.parts := rfl
@[simp] theorem State.setCtx_windows (s : State) (c : Nat) (x : Ctx) : (s.setCtx c x).windows = s.windows := rfl
@[simp] theorem State.setCtx_aperture (s : State) (c : Nat) (x : Ctx) : (s.setCtx c x).aperture = s.aperture := rfl
@[simp] theorem State.setCtx_queues (s : State) (c : Nat) (x : Ctx) : (s.setCtx c x).queues = s.queues := rfl
@[simp] theorem State.setCtx_nodes (s : State) (c : Nat) (x : Ctx) : (s.setCtx c x).nodes = s.nodes := rfl
@[simp] theorem State.setCtx_ops (s : State) (c : Nat) (x : Ctx) : (s.setCtx c x).ops = s.ops := rfl
@[simp] theorem State.setCtx_indexes (s : State) (c : Nat) (x : Ctx) : (s.setCtx c x).indexes = s.indexes := rfl
@[simp] theorem State.setCtx_publs (s : State) (c : Nat) (x : Ctx) : (s.setCtx c x).publs = s.publs := rfl
@[simp] theorem State.setCtx_searches (s : State) (c : Nat) (x : Ctx) : (s.setCtx c x).searches = s.searches := rfl
@[simp] theorem State.setCtx_stamps (s : State) (c : Nat) (x : Ctx) : (s.setCtx c x).stamps = s.stamps := rfl
@[simp] theorem State.setCtx_token (s : State) (c : Nat) (x : Ctx) : (s.setCtx c x).token = s.token := rfl
@[simp] theorem State.setCtx_solo (s : State) (c : Nat) (x : Ctx) : (s.setCtx c x).solo = s.solo := rfl
@[simp] theorem State.setCtx_offers (s : State) (c : Nat) (x : Ctx) : (s.setCtx c x).offers = s.offers := rfl
@[simp] theorem State.setCtx_diffs (s : State) (c : Nat) (x : Ctx) : (s.setCtx c x).diffs = s.diffs := rfl
@[simp] theorem State.setCtx_landings (s : State) (c : Nat) (x : Ctx) : (s.setCtx c x).landings = s.landings := rfl
@[simp] theorem State.setCtx_parked (s : State) (c : Nat) (x : Ctx) : (s.setCtx c x).parked = s.parked := rfl
@[simp] theorem State.setCtx_delayed (s : State) (c : Nat) (x : Ctx) : (s.setCtx c x).delayed = s.delayed := rfl
@[simp] theorem State.setCtx_badLines (s : State) (c : Nat) (x : Ctx) : (s.setCtx c x).badLines = s.badLines := rfl
@[simp] theorem State.setCtx_poison (s : State) (c : Nat) (x : Ctx) : (s.setCtx c x).poison = s.poison := rfl
@[simp] theorem State.setCtx_hostData (s : State) (c : Nat) (x : Ctx) : (s.setCtx c x).hostData = s.hostData := rfl
@[simp] theorem State.setCtx_rebuilding (s : State) (c : Nat) (x : Ctx) : (s.setCtx c x).rebuilding = s.rebuilding := rfl
@[simp] theorem State.setCtx_ncl (s : State) (c : Nat) (x : Ctx) : (s.setCtx c x).ncl = s.ncl := rfl
@[simp] theorem State.setCtx_parity (s : State) (c : Nat) (x : Ctx) : (s.setCtx c x).parity = s.parity := rfl
@[simp] theorem State.setCtx_paritySeq (s : State) (c : Nat) (x : Ctx) : (s.setCtx c x).paritySeq = s.paritySeq := rfl
@[simp] theorem State.setCtx_parityAcks (s : State) (c : Nat) (x : Ctx) : (s.setCtx c x).parityAcks = s.parityAcks := rfl
@[simp] theorem State.setCtx_parityIn (s : State) (c : Nat) (x : Ctx) : (s.setCtx c x).parityIn = s.parityIn := rfl
@[simp] theorem State.setCtx_banks (s : State) (c : Nat) (x : Ctx) : (s.setCtx c x).banks = s.banks := rfl
@[simp] theorem State.setCtx_chainTags (s : State) (c : Nat) (x : Ctx) : (s.setCtx c x).chainTags = s.chainTags := rfl
@[simp] theorem State.setCtx_demoted (s : State) (c : Nat) (x : Ctx) : (s.setCtx c x).demoted = s.demoted := rfl
@[simp] theorem State.setCtx_hourly (s : State) (c : Nat) (x : Ctx) : (s.setCtx c x).hourly = s.hourly := rfl
@[simp] theorem State.setCtx_links (s : State) (c : Nat) (x : Ctx) : (s.setCtx c x).links = s.links := rfl
@[simp] theorem State.setCtx_pairs (s : State) (c : Nat) (x : Ctx) : (s.setCtx c x).pairs = s.pairs := rfl
@[simp] theorem State.setCtx_unreachable (s : State) (c : Nat) (x : Ctx) : (s.setCtx c x).unreachable = s.unreachable := rfl
@[simp] theorem State.setCtx_merges (s : State) (c : Nat) (x : Ctx) : (s.setCtx c x).merges = s.merges := rfl
@[simp] theorem State.setCtx_mergesLost (s : State) (c : Nat) (x : Ctx) : (s.setCtx c x).mergesLost = s.mergesLost := rfl
@[simp] theorem State.setCtx_colls (s : State) (c : Nat) (x : Ctx) : (s.setCtx c x).colls = s.colls := rfl
@[simp] theorem State.setCtx_units (s : State) (c : Nat) (x : Ctx) : (s.setCtx c x).units = s.units := rfl
@[simp] theorem State.setCtx_nvUnits (s : State) (c : Nat) (x : Ctx) : (s.setCtx c x).nvUnits = s.nvUnits := rfl
@[simp] theorem State.setCtx_records (s : State) (c : Nat) (x : Ctx) : (s.setCtx c x).records = s.records := rfl
@[simp] theorem State.setCtx_overflow (s : State) (c : Nat) (x : Ctx) : (s.setCtx c x).overflow = s.overflow := rfl
@[simp] theorem State.setCtx_dump (s : State) (c : Nat) (x : Ctx) : (s.setCtx c x).dump = s.dump := rfl
@[simp] theorem State.setCtx_captures (s : State) (c : Nat) (x : Ctx) : (s.setCtx c x).captures = s.captures := rfl
@[simp] theorem State.setCtx_rowEvents (s : State) (c : Nat) (x : Ctx) : (s.setCtx c x).rowEvents = s.rowEvents := rfl
@[simp] theorem State.setCtx_fwdrop (s : State) (c : Nat) (x : Ctx) : (s.setCtx c x).fwdrop = s.fwdrop := rfl
@[simp] theorem State.setCtx_lperiod (s : State) (c : Nat) (x : Ctx) : (s.setCtx c x).lperiod = s.lperiod := rfl
@[simp] theorem State.setCtx_disc (s : State) (c : Nat) (x : Ctx) : (s.setCtx c x).disc = s.disc := rfl
@[simp] theorem State.setCtx_power (s : State) (c : Nat) (x : Ctx) : (s.setCtx c x).power = s.power := rfl
@[simp] theorem State.setCtx_clk (s : State) (c : Nat) (x : Ctx) : (s.setCtx c x).clk = s.clk := rfl
@[simp] theorem State.setCtx_sec (s : State) (c : Nat) (x : Ctx) : (s.setCtx c x).sec = s.sec := rfl
@[simp] theorem State.setCtx_ns (s : State) (c : Nat) (x : Ctx) : (s.setCtx c x).ns = s.ns := rfl
@[simp] theorem State.setCtx_wall (s : State) (c : Nat) (x : Ctx) : (s.setCtx c x).wall = s.wall := rfl
@[simp] theorem State.setCtx_goes (s : State) (c : Nat) (x : Ctx) : (s.setCtx c x).goes = s.goes := rfl
@[simp] theorem State.setCtx_port (s : State) (c : Nat) (x : Ctx) : (s.setCtx c x).port = s.port := rfl
@[simp] theorem State.setCtx_response (s : State) (c : Nat) (x : Ctx) : (s.setCtx c x).response = s.response := rfl
@[simp] theorem State.setCtx_assembling (s : State) (c : Nat) (x : Ctx) : (s.setCtx c x).assembling = s.assembling := rfl
@[simp] theorem State.setCtx_packetsOut (s : State) (c : Nat) (x : Ctx) : (s.setCtx c x).packetsOut = s.packetsOut := rfl
@[simp] theorem State.setCtx_agenda (s : State) (c : Nat) (x : Ctx) : (s.setCtx c x).agenda = s.agenda := rfl
@[simp] theorem State.setCtx_sched (s : State) (c : Nat) (x : Ctx) : (s.setCtx c x).sched = s.sched := rfl
@[simp] theorem State.setCtx_cur (s : State) (c : Nat) (x : Ctx) : (s.setCtx c x).cur = s.cur := rfl
@[simp] theorem State.setCtx_fresh (s : State) (c : Nat) (x : Ctx) : (s.setCtx c x).fresh = s.fresh := rfl
@[simp] theorem State.setCtx_steps (s : State) (c : Nat) (x : Ctx) : (s.setCtx c x).steps = s.steps := rfl
@[simp] theorem State.setCtx_stop (s : State) (c : Nat) (x : Ctx) : (s.setCtx c x).stop = s.stop := rfl
@[simp] theorem State.setCtx_losses (s : State) (c : Nat) (x : Ctx) : (s.setCtx c x).losses = s.losses := rfl
@[simp] theorem State.setCtx_glitch (s : State) (c : Nat) (x : Ctx) : (s.setCtx c x).glitch = s.glitch := rfl
@[simp] theorem State.setCtx_evicts (s : State) (c : Nat) (x : Ctx) : (s.setCtx c x).evicts = s.evicts := rfl
@[simp] theorem State.setCtx_refetch (s : State) (c : Nat) (x : Ctx) : (s.setCtx c x).refetch = s.refetch := rfl
@[simp] theorem State.setCtx_eccs (s : State) (c : Nat) (x : Ctx) : (s.setCtx c x).eccs = s.eccs := rfl
@[simp] theorem State.setCtx_fwWrites (s : State) (c : Nat) (x : Ctx) : (s.setCtx c x).fwWrites = s.fwWrites := rfl
@[simp] theorem State.setCtx_packetsIn (s : State) (c : Nat) (x : Ctx) : (s.setCtx c x).packetsIn = s.packetsIn := rfl
@[simp] theorem State.setCtx_clkRem (s : State) (c : Nat) (x : Ctx) : (s.setCtx c x).clkRem = s.clkRem := rfl
@[simp] theorem State.setCtx_timeRem (s : State) (c : Nat) (x : Ctx) : (s.setCtx c x).timeRem = s.timeRem := rfl
@[simp] theorem State.setCtx_nextUid (s : State) (c : Nat) (x : Ctx) : (s.setCtx c x).nextUid = s.nextUid := rfl
@[simp] theorem State.setCtx_nextId (s : State) (c : Nat) (x : Ctx) : (s.setCtx c x).nextId = s.nextId := rfl

/-! ## setTimeline -/

@[simp] theorem State.setTimeline_mem (s : State) (c q : Nat) (x : Timeline) : (s.setTimeline c q x).mem = s.mem := rfl
@[simp] theorem State.setTimeline_cores (s : State) (c q : Nat) (x : Timeline) : (s.setTimeline c q x).cores = s.cores := rfl
@[simp] theorem State.setTimeline_clusters (s : State) (c q : Nat) (x : Timeline) : (s.setTimeline c q x).clusters = s.clusters := rfl
@[simp] theorem State.setTimeline_teams (s : State) (c q : Nat) (x : Timeline) : (s.setTimeline c q x).teams = s.teams := rfl
@[simp] theorem State.setTimeline_kernels (s : State) (c q : Nat) (x : Timeline) : (s.setTimeline c q x).kernels = s.kernels := rfl
@[simp] theorem State.setTimeline_heirs (s : State) (c q : Nat) (x : Timeline) : (s.setTimeline c q x).heirs = s.heirs := rfl
@[simp] theorem State.setTimeline_stores (s : State) (c q : Nat) (x : Timeline) : (s.setTimeline c q x).stores = s.stores := rfl
@[simp] theorem State.setTimeline_tlb (s : State) (c q : Nat) (x : Timeline) : (s.setTimeline c q x).tlb = s.tlb := rfl
@[simp] theorem State.setTimeline_walks (s : State) (c q : Nat) (x : Timeline) : (s.setTimeline c q x).walks = s.walks := rfl
@[simp] theorem State.setTimeline_invals (s : State) (c q : Nat) (x : Timeline) : (s.setTimeline c q x).invals = s.invals := rfl
@[simp] theorem State.setTimeline_faulted (s : State) (c q : Nat) (x : Timeline) : (s.setTimeline c q x).faulted = s.faulted := rfl
@[simp] theorem State.setTimeline_migrations (s : State) (c q : Nat) (x : Timeline) : (s.setTimeline c q x).migrations = s.migrations := rfl
@[simp] theorem State.setTimeline_xrecs (s : State) (c q : Nat) (x : Timeline) : (s.setTimeline c q x).xrecs = s.xrecs := rfl
@[simp] theorem State.setTimeline_xseq (s : State) (c q : Nat) (x : Timeline) : (s.setTimeline c q x).xseq = s.xseq := rfl
@[simp] theorem State.setTimeline_regions (s : State) (c q : Nat) (x : Timeline) : (s.setTimeline c q x).regions = s.regions := rfl
@[simp] theorem State.setTimeline_newRegions (s : State) (c q : Nat) (x : Timeline) : (s.setTimeline c q x).newRegions = s.newRegions := rfl
@[simp] theorem State.setTimeline_parts (s : State) (c q : Nat) (x : Timeline) : (s.setTimeline c q x).parts = s.parts := rfl
@[simp] theorem State.setTimeline_windows (s : State) (c q : Nat) (x : Timeline) : (s.setTimeline c q x).windows = s.windows := rfl
@[simp] theorem State.setTimeline_aperture (s : State) (c q : Nat) (x : Timeline) : (s.setTimeline c q x).aperture = s.aperture := rfl
@[simp] theorem State.setTimeline_queues (s : State) (c q : Nat) (x : Timeline) : (s.setTimeline c q x).queues = s.queues := rfl
@[simp] theorem State.setTimeline_nodes (s : State) (c q : Nat) (x : Timeline) : (s.setTimeline c q x).nodes = s.nodes := rfl
@[simp] theorem State.setTimeline_ops (s : State) (c q : Nat) (x : Timeline) : (s.setTimeline c q x).ops = s.ops := rfl
@[simp] theorem State.setTimeline_indexes (s : State) (c q : Nat) (x : Timeline) : (s.setTimeline c q x).indexes = s.indexes := rfl
@[simp] theorem State.setTimeline_publs (s : State) (c q : Nat) (x : Timeline) : (s.setTimeline c q x).publs = s.publs := rfl
@[simp] theorem State.setTimeline_searches (s : State) (c q : Nat) (x : Timeline) : (s.setTimeline c q x).searches = s.searches := rfl
@[simp] theorem State.setTimeline_stamps (s : State) (c q : Nat) (x : Timeline) : (s.setTimeline c q x).stamps = s.stamps := rfl
@[simp] theorem State.setTimeline_token (s : State) (c q : Nat) (x : Timeline) : (s.setTimeline c q x).token = s.token := rfl
@[simp] theorem State.setTimeline_solo (s : State) (c q : Nat) (x : Timeline) : (s.setTimeline c q x).solo = s.solo := rfl
@[simp] theorem State.setTimeline_offers (s : State) (c q : Nat) (x : Timeline) : (s.setTimeline c q x).offers = s.offers := rfl
@[simp] theorem State.setTimeline_diffs (s : State) (c q : Nat) (x : Timeline) : (s.setTimeline c q x).diffs = s.diffs := rfl
@[simp] theorem State.setTimeline_landings (s : State) (c q : Nat) (x : Timeline) : (s.setTimeline c q x).landings = s.landings := rfl
@[simp] theorem State.setTimeline_parked (s : State) (c q : Nat) (x : Timeline) : (s.setTimeline c q x).parked = s.parked := rfl
@[simp] theorem State.setTimeline_delayed (s : State) (c q : Nat) (x : Timeline) : (s.setTimeline c q x).delayed = s.delayed := rfl
@[simp] theorem State.setTimeline_badLines (s : State) (c q : Nat) (x : Timeline) : (s.setTimeline c q x).badLines = s.badLines := rfl
@[simp] theorem State.setTimeline_poison (s : State) (c q : Nat) (x : Timeline) : (s.setTimeline c q x).poison = s.poison := rfl
@[simp] theorem State.setTimeline_hostData (s : State) (c q : Nat) (x : Timeline) : (s.setTimeline c q x).hostData = s.hostData := rfl
@[simp] theorem State.setTimeline_rebuilding (s : State) (c q : Nat) (x : Timeline) : (s.setTimeline c q x).rebuilding = s.rebuilding := rfl
@[simp] theorem State.setTimeline_ncl (s : State) (c q : Nat) (x : Timeline) : (s.setTimeline c q x).ncl = s.ncl := rfl
@[simp] theorem State.setTimeline_parity (s : State) (c q : Nat) (x : Timeline) : (s.setTimeline c q x).parity = s.parity := rfl
@[simp] theorem State.setTimeline_paritySeq (s : State) (c q : Nat) (x : Timeline) : (s.setTimeline c q x).paritySeq = s.paritySeq := rfl
@[simp] theorem State.setTimeline_parityAcks (s : State) (c q : Nat) (x : Timeline) : (s.setTimeline c q x).parityAcks = s.parityAcks := rfl
@[simp] theorem State.setTimeline_parityIn (s : State) (c q : Nat) (x : Timeline) : (s.setTimeline c q x).parityIn = s.parityIn := rfl
@[simp] theorem State.setTimeline_banks (s : State) (c q : Nat) (x : Timeline) : (s.setTimeline c q x).banks = s.banks := rfl
@[simp] theorem State.setTimeline_chainTags (s : State) (c q : Nat) (x : Timeline) : (s.setTimeline c q x).chainTags = s.chainTags := rfl
@[simp] theorem State.setTimeline_demoted (s : State) (c q : Nat) (x : Timeline) : (s.setTimeline c q x).demoted = s.demoted := rfl
@[simp] theorem State.setTimeline_hourly (s : State) (c q : Nat) (x : Timeline) : (s.setTimeline c q x).hourly = s.hourly := rfl
@[simp] theorem State.setTimeline_links (s : State) (c q : Nat) (x : Timeline) : (s.setTimeline c q x).links = s.links := rfl
@[simp] theorem State.setTimeline_pairs (s : State) (c q : Nat) (x : Timeline) : (s.setTimeline c q x).pairs = s.pairs := rfl
@[simp] theorem State.setTimeline_unreachable (s : State) (c q : Nat) (x : Timeline) : (s.setTimeline c q x).unreachable = s.unreachable := rfl
@[simp] theorem State.setTimeline_merges (s : State) (c q : Nat) (x : Timeline) : (s.setTimeline c q x).merges = s.merges := rfl
@[simp] theorem State.setTimeline_mergesLost (s : State) (c q : Nat) (x : Timeline) : (s.setTimeline c q x).mergesLost = s.mergesLost := rfl
@[simp] theorem State.setTimeline_colls (s : State) (c q : Nat) (x : Timeline) : (s.setTimeline c q x).colls = s.colls := rfl
@[simp] theorem State.setTimeline_units (s : State) (c q : Nat) (x : Timeline) : (s.setTimeline c q x).units = s.units := rfl
@[simp] theorem State.setTimeline_nvUnits (s : State) (c q : Nat) (x : Timeline) : (s.setTimeline c q x).nvUnits = s.nvUnits := rfl
@[simp] theorem State.setTimeline_records (s : State) (c q : Nat) (x : Timeline) : (s.setTimeline c q x).records = s.records := rfl
@[simp] theorem State.setTimeline_overflow (s : State) (c q : Nat) (x : Timeline) : (s.setTimeline c q x).overflow = s.overflow := rfl
@[simp] theorem State.setTimeline_dump (s : State) (c q : Nat) (x : Timeline) : (s.setTimeline c q x).dump = s.dump := rfl
@[simp] theorem State.setTimeline_captures (s : State) (c q : Nat) (x : Timeline) : (s.setTimeline c q x).captures = s.captures := rfl
@[simp] theorem State.setTimeline_rowEvents (s : State) (c q : Nat) (x : Timeline) : (s.setTimeline c q x).rowEvents = s.rowEvents := rfl
@[simp] theorem State.setTimeline_fwdrop (s : State) (c q : Nat) (x : Timeline) : (s.setTimeline c q x).fwdrop = s.fwdrop := rfl
@[simp] theorem State.setTimeline_lperiod (s : State) (c q : Nat) (x : Timeline) : (s.setTimeline c q x).lperiod = s.lperiod := rfl
@[simp] theorem State.setTimeline_disc (s : State) (c q : Nat) (x : Timeline) : (s.setTimeline c q x).disc = s.disc := rfl
@[simp] theorem State.setTimeline_power (s : State) (c q : Nat) (x : Timeline) : (s.setTimeline c q x).power = s.power := rfl
@[simp] theorem State.setTimeline_clk (s : State) (c q : Nat) (x : Timeline) : (s.setTimeline c q x).clk = s.clk := rfl
@[simp] theorem State.setTimeline_sec (s : State) (c q : Nat) (x : Timeline) : (s.setTimeline c q x).sec = s.sec := rfl
@[simp] theorem State.setTimeline_ns (s : State) (c q : Nat) (x : Timeline) : (s.setTimeline c q x).ns = s.ns := rfl
@[simp] theorem State.setTimeline_wall (s : State) (c q : Nat) (x : Timeline) : (s.setTimeline c q x).wall = s.wall := rfl
@[simp] theorem State.setTimeline_goes (s : State) (c q : Nat) (x : Timeline) : (s.setTimeline c q x).goes = s.goes := rfl
@[simp] theorem State.setTimeline_port (s : State) (c q : Nat) (x : Timeline) : (s.setTimeline c q x).port = s.port := rfl
@[simp] theorem State.setTimeline_response (s : State) (c q : Nat) (x : Timeline) : (s.setTimeline c q x).response = s.response := rfl
@[simp] theorem State.setTimeline_assembling (s : State) (c q : Nat) (x : Timeline) : (s.setTimeline c q x).assembling = s.assembling := rfl
@[simp] theorem State.setTimeline_packetsOut (s : State) (c q : Nat) (x : Timeline) : (s.setTimeline c q x).packetsOut = s.packetsOut := rfl
@[simp] theorem State.setTimeline_agenda (s : State) (c q : Nat) (x : Timeline) : (s.setTimeline c q x).agenda = s.agenda := rfl
@[simp] theorem State.setTimeline_sched (s : State) (c q : Nat) (x : Timeline) : (s.setTimeline c q x).sched = s.sched := rfl
@[simp] theorem State.setTimeline_cur (s : State) (c q : Nat) (x : Timeline) : (s.setTimeline c q x).cur = s.cur := rfl
@[simp] theorem State.setTimeline_fresh (s : State) (c q : Nat) (x : Timeline) : (s.setTimeline c q x).fresh = s.fresh := rfl
@[simp] theorem State.setTimeline_steps (s : State) (c q : Nat) (x : Timeline) : (s.setTimeline c q x).steps = s.steps := rfl
@[simp] theorem State.setTimeline_stop (s : State) (c q : Nat) (x : Timeline) : (s.setTimeline c q x).stop = s.stop := rfl
@[simp] theorem State.setTimeline_losses (s : State) (c q : Nat) (x : Timeline) : (s.setTimeline c q x).losses = s.losses := rfl
@[simp] theorem State.setTimeline_glitch (s : State) (c q : Nat) (x : Timeline) : (s.setTimeline c q x).glitch = s.glitch := rfl
@[simp] theorem State.setTimeline_evicts (s : State) (c q : Nat) (x : Timeline) : (s.setTimeline c q x).evicts = s.evicts := rfl
@[simp] theorem State.setTimeline_refetch (s : State) (c q : Nat) (x : Timeline) : (s.setTimeline c q x).refetch = s.refetch := rfl
@[simp] theorem State.setTimeline_eccs (s : State) (c q : Nat) (x : Timeline) : (s.setTimeline c q x).eccs = s.eccs := rfl
@[simp] theorem State.setTimeline_fwWrites (s : State) (c q : Nat) (x : Timeline) : (s.setTimeline c q x).fwWrites = s.fwWrites := rfl
@[simp] theorem State.setTimeline_packetsIn (s : State) (c q : Nat) (x : Timeline) : (s.setTimeline c q x).packetsIn = s.packetsIn := rfl
@[simp] theorem State.setTimeline_clkRem (s : State) (c q : Nat) (x : Timeline) : (s.setTimeline c q x).clkRem = s.clkRem := rfl
@[simp] theorem State.setTimeline_timeRem (s : State) (c q : Nat) (x : Timeline) : (s.setTimeline c q x).timeRem = s.timeRem := rfl
@[simp] theorem State.setTimeline_nextUid (s : State) (c q : Nat) (x : Timeline) : (s.setTimeline c q x).nextUid = s.nextUid := rfl
@[simp] theorem State.setTimeline_nextId (s : State) (c q : Nat) (x : Timeline) : (s.setTimeline c q x).nextId = s.nextId := rfl

/-! ## setCluster -/

@[simp] theorem State.setCluster_mem (s : State) (c : Nat) (x : Tab ClLine) : (s.setCluster c x).mem = s.mem := rfl
@[simp] theorem State.setCluster_cores (s : State) (c : Nat) (x : Tab ClLine) : (s.setCluster c x).cores = s.cores := rfl
@[simp] theorem State.setCluster_teams (s : State) (c : Nat) (x : Tab ClLine) : (s.setCluster c x).teams = s.teams := rfl
@[simp] theorem State.setCluster_kernels (s : State) (c : Nat) (x : Tab ClLine) : (s.setCluster c x).kernels = s.kernels := rfl
@[simp] theorem State.setCluster_heirs (s : State) (c : Nat) (x : Tab ClLine) : (s.setCluster c x).heirs = s.heirs := rfl
@[simp] theorem State.setCluster_stores (s : State) (c : Nat) (x : Tab ClLine) : (s.setCluster c x).stores = s.stores := rfl
@[simp] theorem State.setCluster_ctxs (s : State) (c : Nat) (x : Tab ClLine) : (s.setCluster c x).ctxs = s.ctxs := rfl
@[simp] theorem State.setCluster_tlb (s : State) (c : Nat) (x : Tab ClLine) : (s.setCluster c x).tlb = s.tlb := rfl
@[simp] theorem State.setCluster_walks (s : State) (c : Nat) (x : Tab ClLine) : (s.setCluster c x).walks = s.walks := rfl
@[simp] theorem State.setCluster_invals (s : State) (c : Nat) (x : Tab ClLine) : (s.setCluster c x).invals = s.invals := rfl
@[simp] theorem State.setCluster_faulted (s : State) (c : Nat) (x : Tab ClLine) : (s.setCluster c x).faulted = s.faulted := rfl
@[simp] theorem State.setCluster_migrations (s : State) (c : Nat) (x : Tab ClLine) : (s.setCluster c x).migrations = s.migrations := rfl
@[simp] theorem State.setCluster_xrecs (s : State) (c : Nat) (x : Tab ClLine) : (s.setCluster c x).xrecs = s.xrecs := rfl
@[simp] theorem State.setCluster_xseq (s : State) (c : Nat) (x : Tab ClLine) : (s.setCluster c x).xseq = s.xseq := rfl
@[simp] theorem State.setCluster_regions (s : State) (c : Nat) (x : Tab ClLine) : (s.setCluster c x).regions = s.regions := rfl
@[simp] theorem State.setCluster_newRegions (s : State) (c : Nat) (x : Tab ClLine) : (s.setCluster c x).newRegions = s.newRegions := rfl
@[simp] theorem State.setCluster_parts (s : State) (c : Nat) (x : Tab ClLine) : (s.setCluster c x).parts = s.parts := rfl
@[simp] theorem State.setCluster_windows (s : State) (c : Nat) (x : Tab ClLine) : (s.setCluster c x).windows = s.windows := rfl
@[simp] theorem State.setCluster_aperture (s : State) (c : Nat) (x : Tab ClLine) : (s.setCluster c x).aperture = s.aperture := rfl
@[simp] theorem State.setCluster_queues (s : State) (c : Nat) (x : Tab ClLine) : (s.setCluster c x).queues = s.queues := rfl
@[simp] theorem State.setCluster_nodes (s : State) (c : Nat) (x : Tab ClLine) : (s.setCluster c x).nodes = s.nodes := rfl
@[simp] theorem State.setCluster_ops (s : State) (c : Nat) (x : Tab ClLine) : (s.setCluster c x).ops = s.ops := rfl
@[simp] theorem State.setCluster_indexes (s : State) (c : Nat) (x : Tab ClLine) : (s.setCluster c x).indexes = s.indexes := rfl
@[simp] theorem State.setCluster_publs (s : State) (c : Nat) (x : Tab ClLine) : (s.setCluster c x).publs = s.publs := rfl
@[simp] theorem State.setCluster_searches (s : State) (c : Nat) (x : Tab ClLine) : (s.setCluster c x).searches = s.searches := rfl
@[simp] theorem State.setCluster_stamps (s : State) (c : Nat) (x : Tab ClLine) : (s.setCluster c x).stamps = s.stamps := rfl
@[simp] theorem State.setCluster_token (s : State) (c : Nat) (x : Tab ClLine) : (s.setCluster c x).token = s.token := rfl
@[simp] theorem State.setCluster_solo (s : State) (c : Nat) (x : Tab ClLine) : (s.setCluster c x).solo = s.solo := rfl
@[simp] theorem State.setCluster_offers (s : State) (c : Nat) (x : Tab ClLine) : (s.setCluster c x).offers = s.offers := rfl
@[simp] theorem State.setCluster_diffs (s : State) (c : Nat) (x : Tab ClLine) : (s.setCluster c x).diffs = s.diffs := rfl
@[simp] theorem State.setCluster_landings (s : State) (c : Nat) (x : Tab ClLine) : (s.setCluster c x).landings = s.landings := rfl
@[simp] theorem State.setCluster_parked (s : State) (c : Nat) (x : Tab ClLine) : (s.setCluster c x).parked = s.parked := rfl
@[simp] theorem State.setCluster_delayed (s : State) (c : Nat) (x : Tab ClLine) : (s.setCluster c x).delayed = s.delayed := rfl
@[simp] theorem State.setCluster_badLines (s : State) (c : Nat) (x : Tab ClLine) : (s.setCluster c x).badLines = s.badLines := rfl
@[simp] theorem State.setCluster_poison (s : State) (c : Nat) (x : Tab ClLine) : (s.setCluster c x).poison = s.poison := rfl
@[simp] theorem State.setCluster_hostData (s : State) (c : Nat) (x : Tab ClLine) : (s.setCluster c x).hostData = s.hostData := rfl
@[simp] theorem State.setCluster_rebuilding (s : State) (c : Nat) (x : Tab ClLine) : (s.setCluster c x).rebuilding = s.rebuilding := rfl
@[simp] theorem State.setCluster_ncl (s : State) (c : Nat) (x : Tab ClLine) : (s.setCluster c x).ncl = s.ncl := rfl
@[simp] theorem State.setCluster_parity (s : State) (c : Nat) (x : Tab ClLine) : (s.setCluster c x).parity = s.parity := rfl
@[simp] theorem State.setCluster_paritySeq (s : State) (c : Nat) (x : Tab ClLine) : (s.setCluster c x).paritySeq = s.paritySeq := rfl
@[simp] theorem State.setCluster_parityAcks (s : State) (c : Nat) (x : Tab ClLine) : (s.setCluster c x).parityAcks = s.parityAcks := rfl
@[simp] theorem State.setCluster_parityIn (s : State) (c : Nat) (x : Tab ClLine) : (s.setCluster c x).parityIn = s.parityIn := rfl
@[simp] theorem State.setCluster_banks (s : State) (c : Nat) (x : Tab ClLine) : (s.setCluster c x).banks = s.banks := rfl
@[simp] theorem State.setCluster_chainTags (s : State) (c : Nat) (x : Tab ClLine) : (s.setCluster c x).chainTags = s.chainTags := rfl
@[simp] theorem State.setCluster_demoted (s : State) (c : Nat) (x : Tab ClLine) : (s.setCluster c x).demoted = s.demoted := rfl
@[simp] theorem State.setCluster_hourly (s : State) (c : Nat) (x : Tab ClLine) : (s.setCluster c x).hourly = s.hourly := rfl
@[simp] theorem State.setCluster_links (s : State) (c : Nat) (x : Tab ClLine) : (s.setCluster c x).links = s.links := rfl
@[simp] theorem State.setCluster_pairs (s : State) (c : Nat) (x : Tab ClLine) : (s.setCluster c x).pairs = s.pairs := rfl
@[simp] theorem State.setCluster_unreachable (s : State) (c : Nat) (x : Tab ClLine) : (s.setCluster c x).unreachable = s.unreachable := rfl
@[simp] theorem State.setCluster_merges (s : State) (c : Nat) (x : Tab ClLine) : (s.setCluster c x).merges = s.merges := rfl
@[simp] theorem State.setCluster_mergesLost (s : State) (c : Nat) (x : Tab ClLine) : (s.setCluster c x).mergesLost = s.mergesLost := rfl
@[simp] theorem State.setCluster_colls (s : State) (c : Nat) (x : Tab ClLine) : (s.setCluster c x).colls = s.colls := rfl
@[simp] theorem State.setCluster_units (s : State) (c : Nat) (x : Tab ClLine) : (s.setCluster c x).units = s.units := rfl
@[simp] theorem State.setCluster_nvUnits (s : State) (c : Nat) (x : Tab ClLine) : (s.setCluster c x).nvUnits = s.nvUnits := rfl
@[simp] theorem State.setCluster_records (s : State) (c : Nat) (x : Tab ClLine) : (s.setCluster c x).records = s.records := rfl
@[simp] theorem State.setCluster_overflow (s : State) (c : Nat) (x : Tab ClLine) : (s.setCluster c x).overflow = s.overflow := rfl
@[simp] theorem State.setCluster_dump (s : State) (c : Nat) (x : Tab ClLine) : (s.setCluster c x).dump = s.dump := rfl
@[simp] theorem State.setCluster_captures (s : State) (c : Nat) (x : Tab ClLine) : (s.setCluster c x).captures = s.captures := rfl
@[simp] theorem State.setCluster_rowEvents (s : State) (c : Nat) (x : Tab ClLine) : (s.setCluster c x).rowEvents = s.rowEvents := rfl
@[simp] theorem State.setCluster_fwdrop (s : State) (c : Nat) (x : Tab ClLine) : (s.setCluster c x).fwdrop = s.fwdrop := rfl
@[simp] theorem State.setCluster_lperiod (s : State) (c : Nat) (x : Tab ClLine) : (s.setCluster c x).lperiod = s.lperiod := rfl
@[simp] theorem State.setCluster_disc (s : State) (c : Nat) (x : Tab ClLine) : (s.setCluster c x).disc = s.disc := rfl
@[simp] theorem State.setCluster_power (s : State) (c : Nat) (x : Tab ClLine) : (s.setCluster c x).power = s.power := rfl
@[simp] theorem State.setCluster_clk (s : State) (c : Nat) (x : Tab ClLine) : (s.setCluster c x).clk = s.clk := rfl
@[simp] theorem State.setCluster_sec (s : State) (c : Nat) (x : Tab ClLine) : (s.setCluster c x).sec = s.sec := rfl
@[simp] theorem State.setCluster_ns (s : State) (c : Nat) (x : Tab ClLine) : (s.setCluster c x).ns = s.ns := rfl
@[simp] theorem State.setCluster_wall (s : State) (c : Nat) (x : Tab ClLine) : (s.setCluster c x).wall = s.wall := rfl
@[simp] theorem State.setCluster_goes (s : State) (c : Nat) (x : Tab ClLine) : (s.setCluster c x).goes = s.goes := rfl
@[simp] theorem State.setCluster_port (s : State) (c : Nat) (x : Tab ClLine) : (s.setCluster c x).port = s.port := rfl
@[simp] theorem State.setCluster_response (s : State) (c : Nat) (x : Tab ClLine) : (s.setCluster c x).response = s.response := rfl
@[simp] theorem State.setCluster_assembling (s : State) (c : Nat) (x : Tab ClLine) : (s.setCluster c x).assembling = s.assembling := rfl
@[simp] theorem State.setCluster_packetsOut (s : State) (c : Nat) (x : Tab ClLine) : (s.setCluster c x).packetsOut = s.packetsOut := rfl
@[simp] theorem State.setCluster_agenda (s : State) (c : Nat) (x : Tab ClLine) : (s.setCluster c x).agenda = s.agenda := rfl
@[simp] theorem State.setCluster_sched (s : State) (c : Nat) (x : Tab ClLine) : (s.setCluster c x).sched = s.sched := rfl
@[simp] theorem State.setCluster_cur (s : State) (c : Nat) (x : Tab ClLine) : (s.setCluster c x).cur = s.cur := rfl
@[simp] theorem State.setCluster_fresh (s : State) (c : Nat) (x : Tab ClLine) : (s.setCluster c x).fresh = s.fresh := rfl
@[simp] theorem State.setCluster_steps (s : State) (c : Nat) (x : Tab ClLine) : (s.setCluster c x).steps = s.steps := rfl
@[simp] theorem State.setCluster_stop (s : State) (c : Nat) (x : Tab ClLine) : (s.setCluster c x).stop = s.stop := rfl
@[simp] theorem State.setCluster_losses (s : State) (c : Nat) (x : Tab ClLine) : (s.setCluster c x).losses = s.losses := rfl
@[simp] theorem State.setCluster_glitch (s : State) (c : Nat) (x : Tab ClLine) : (s.setCluster c x).glitch = s.glitch := rfl
@[simp] theorem State.setCluster_evicts (s : State) (c : Nat) (x : Tab ClLine) : (s.setCluster c x).evicts = s.evicts := rfl
@[simp] theorem State.setCluster_refetch (s : State) (c : Nat) (x : Tab ClLine) : (s.setCluster c x).refetch = s.refetch := rfl
@[simp] theorem State.setCluster_eccs (s : State) (c : Nat) (x : Tab ClLine) : (s.setCluster c x).eccs = s.eccs := rfl
@[simp] theorem State.setCluster_fwWrites (s : State) (c : Nat) (x : Tab ClLine) : (s.setCluster c x).fwWrites = s.fwWrites := rfl
@[simp] theorem State.setCluster_packetsIn (s : State) (c : Nat) (x : Tab ClLine) : (s.setCluster c x).packetsIn = s.packetsIn := rfl
@[simp] theorem State.setCluster_clkRem (s : State) (c : Nat) (x : Tab ClLine) : (s.setCluster c x).clkRem = s.clkRem := rfl
@[simp] theorem State.setCluster_timeRem (s : State) (c : Nat) (x : Tab ClLine) : (s.setCluster c x).timeRem = s.timeRem := rfl
@[simp] theorem State.setCluster_nextUid (s : State) (c : Nat) (x : Tab ClLine) : (s.setCluster c x).nextUid = s.nextUid := rfl
@[simp] theorem State.setCluster_nextId (s : State) (c : Nat) (x : Tab ClLine) : (s.setCluster c x).nextId = s.nextId := rfl

/-! ## setOp -/

@[simp] theorem State.setOp_mem (s : State) (n : Nat) (x : Op) : (s.setOp n x).mem = s.mem := rfl
@[simp] theorem State.setOp_cores (s : State) (n : Nat) (x : Op) : (s.setOp n x).cores = s.cores := rfl
@[simp] theorem State.setOp_clusters (s : State) (n : Nat) (x : Op) : (s.setOp n x).clusters = s.clusters := rfl
@[simp] theorem State.setOp_teams (s : State) (n : Nat) (x : Op) : (s.setOp n x).teams = s.teams := rfl
@[simp] theorem State.setOp_kernels (s : State) (n : Nat) (x : Op) : (s.setOp n x).kernels = s.kernels := rfl
@[simp] theorem State.setOp_heirs (s : State) (n : Nat) (x : Op) : (s.setOp n x).heirs = s.heirs := rfl
@[simp] theorem State.setOp_stores (s : State) (n : Nat) (x : Op) : (s.setOp n x).stores = s.stores := rfl
@[simp] theorem State.setOp_ctxs (s : State) (n : Nat) (x : Op) : (s.setOp n x).ctxs = s.ctxs := rfl
@[simp] theorem State.setOp_tlb (s : State) (n : Nat) (x : Op) : (s.setOp n x).tlb = s.tlb := rfl
@[simp] theorem State.setOp_walks (s : State) (n : Nat) (x : Op) : (s.setOp n x).walks = s.walks := rfl
@[simp] theorem State.setOp_invals (s : State) (n : Nat) (x : Op) : (s.setOp n x).invals = s.invals := rfl
@[simp] theorem State.setOp_faulted (s : State) (n : Nat) (x : Op) : (s.setOp n x).faulted = s.faulted := rfl
@[simp] theorem State.setOp_migrations (s : State) (n : Nat) (x : Op) : (s.setOp n x).migrations = s.migrations := rfl
@[simp] theorem State.setOp_xrecs (s : State) (n : Nat) (x : Op) : (s.setOp n x).xrecs = s.xrecs := rfl
@[simp] theorem State.setOp_xseq (s : State) (n : Nat) (x : Op) : (s.setOp n x).xseq = s.xseq := rfl
@[simp] theorem State.setOp_regions (s : State) (n : Nat) (x : Op) : (s.setOp n x).regions = s.regions := rfl
@[simp] theorem State.setOp_newRegions (s : State) (n : Nat) (x : Op) : (s.setOp n x).newRegions = s.newRegions := rfl
@[simp] theorem State.setOp_parts (s : State) (n : Nat) (x : Op) : (s.setOp n x).parts = s.parts := rfl
@[simp] theorem State.setOp_windows (s : State) (n : Nat) (x : Op) : (s.setOp n x).windows = s.windows := rfl
@[simp] theorem State.setOp_aperture (s : State) (n : Nat) (x : Op) : (s.setOp n x).aperture = s.aperture := rfl
@[simp] theorem State.setOp_queues (s : State) (n : Nat) (x : Op) : (s.setOp n x).queues = s.queues := rfl
@[simp] theorem State.setOp_nodes (s : State) (n : Nat) (x : Op) : (s.setOp n x).nodes = s.nodes := rfl
@[simp] theorem State.setOp_indexes (s : State) (n : Nat) (x : Op) : (s.setOp n x).indexes = s.indexes := rfl
@[simp] theorem State.setOp_publs (s : State) (n : Nat) (x : Op) : (s.setOp n x).publs = s.publs := rfl
@[simp] theorem State.setOp_searches (s : State) (n : Nat) (x : Op) : (s.setOp n x).searches = s.searches := rfl
@[simp] theorem State.setOp_stamps (s : State) (n : Nat) (x : Op) : (s.setOp n x).stamps = s.stamps := rfl
@[simp] theorem State.setOp_token (s : State) (n : Nat) (x : Op) : (s.setOp n x).token = s.token := rfl
@[simp] theorem State.setOp_solo (s : State) (n : Nat) (x : Op) : (s.setOp n x).solo = s.solo := rfl
@[simp] theorem State.setOp_offers (s : State) (n : Nat) (x : Op) : (s.setOp n x).offers = s.offers := rfl
@[simp] theorem State.setOp_diffs (s : State) (n : Nat) (x : Op) : (s.setOp n x).diffs = s.diffs := rfl
@[simp] theorem State.setOp_landings (s : State) (n : Nat) (x : Op) : (s.setOp n x).landings = s.landings := rfl
@[simp] theorem State.setOp_parked (s : State) (n : Nat) (x : Op) : (s.setOp n x).parked = s.parked := rfl
@[simp] theorem State.setOp_delayed (s : State) (n : Nat) (x : Op) : (s.setOp n x).delayed = s.delayed := rfl
@[simp] theorem State.setOp_badLines (s : State) (n : Nat) (x : Op) : (s.setOp n x).badLines = s.badLines := rfl
@[simp] theorem State.setOp_poison (s : State) (n : Nat) (x : Op) : (s.setOp n x).poison = s.poison := rfl
@[simp] theorem State.setOp_hostData (s : State) (n : Nat) (x : Op) : (s.setOp n x).hostData = s.hostData := rfl
@[simp] theorem State.setOp_rebuilding (s : State) (n : Nat) (x : Op) : (s.setOp n x).rebuilding = s.rebuilding := rfl
@[simp] theorem State.setOp_ncl (s : State) (n : Nat) (x : Op) : (s.setOp n x).ncl = s.ncl := rfl
@[simp] theorem State.setOp_parity (s : State) (n : Nat) (x : Op) : (s.setOp n x).parity = s.parity := rfl
@[simp] theorem State.setOp_paritySeq (s : State) (n : Nat) (x : Op) : (s.setOp n x).paritySeq = s.paritySeq := rfl
@[simp] theorem State.setOp_parityAcks (s : State) (n : Nat) (x : Op) : (s.setOp n x).parityAcks = s.parityAcks := rfl
@[simp] theorem State.setOp_parityIn (s : State) (n : Nat) (x : Op) : (s.setOp n x).parityIn = s.parityIn := rfl
@[simp] theorem State.setOp_banks (s : State) (n : Nat) (x : Op) : (s.setOp n x).banks = s.banks := rfl
@[simp] theorem State.setOp_chainTags (s : State) (n : Nat) (x : Op) : (s.setOp n x).chainTags = s.chainTags := rfl
@[simp] theorem State.setOp_demoted (s : State) (n : Nat) (x : Op) : (s.setOp n x).demoted = s.demoted := rfl
@[simp] theorem State.setOp_hourly (s : State) (n : Nat) (x : Op) : (s.setOp n x).hourly = s.hourly := rfl
@[simp] theorem State.setOp_links (s : State) (n : Nat) (x : Op) : (s.setOp n x).links = s.links := rfl
@[simp] theorem State.setOp_pairs (s : State) (n : Nat) (x : Op) : (s.setOp n x).pairs = s.pairs := rfl
@[simp] theorem State.setOp_unreachable (s : State) (n : Nat) (x : Op) : (s.setOp n x).unreachable = s.unreachable := rfl
@[simp] theorem State.setOp_merges (s : State) (n : Nat) (x : Op) : (s.setOp n x).merges = s.merges := rfl
@[simp] theorem State.setOp_mergesLost (s : State) (n : Nat) (x : Op) : (s.setOp n x).mergesLost = s.mergesLost := rfl
@[simp] theorem State.setOp_colls (s : State) (n : Nat) (x : Op) : (s.setOp n x).colls = s.colls := rfl
@[simp] theorem State.setOp_units (s : State) (n : Nat) (x : Op) : (s.setOp n x).units = s.units := rfl
@[simp] theorem State.setOp_nvUnits (s : State) (n : Nat) (x : Op) : (s.setOp n x).nvUnits = s.nvUnits := rfl
@[simp] theorem State.setOp_records (s : State) (n : Nat) (x : Op) : (s.setOp n x).records = s.records := rfl
@[simp] theorem State.setOp_overflow (s : State) (n : Nat) (x : Op) : (s.setOp n x).overflow = s.overflow := rfl
@[simp] theorem State.setOp_dump (s : State) (n : Nat) (x : Op) : (s.setOp n x).dump = s.dump := rfl
@[simp] theorem State.setOp_captures (s : State) (n : Nat) (x : Op) : (s.setOp n x).captures = s.captures := rfl
@[simp] theorem State.setOp_rowEvents (s : State) (n : Nat) (x : Op) : (s.setOp n x).rowEvents = s.rowEvents := rfl
@[simp] theorem State.setOp_fwdrop (s : State) (n : Nat) (x : Op) : (s.setOp n x).fwdrop = s.fwdrop := rfl
@[simp] theorem State.setOp_lperiod (s : State) (n : Nat) (x : Op) : (s.setOp n x).lperiod = s.lperiod := rfl
@[simp] theorem State.setOp_disc (s : State) (n : Nat) (x : Op) : (s.setOp n x).disc = s.disc := rfl
@[simp] theorem State.setOp_power (s : State) (n : Nat) (x : Op) : (s.setOp n x).power = s.power := rfl
@[simp] theorem State.setOp_clk (s : State) (n : Nat) (x : Op) : (s.setOp n x).clk = s.clk := rfl
@[simp] theorem State.setOp_sec (s : State) (n : Nat) (x : Op) : (s.setOp n x).sec = s.sec := rfl
@[simp] theorem State.setOp_ns (s : State) (n : Nat) (x : Op) : (s.setOp n x).ns = s.ns := rfl
@[simp] theorem State.setOp_wall (s : State) (n : Nat) (x : Op) : (s.setOp n x).wall = s.wall := rfl
@[simp] theorem State.setOp_goes (s : State) (n : Nat) (x : Op) : (s.setOp n x).goes = s.goes := rfl
@[simp] theorem State.setOp_port (s : State) (n : Nat) (x : Op) : (s.setOp n x).port = s.port := rfl
@[simp] theorem State.setOp_response (s : State) (n : Nat) (x : Op) : (s.setOp n x).response = s.response := rfl
@[simp] theorem State.setOp_assembling (s : State) (n : Nat) (x : Op) : (s.setOp n x).assembling = s.assembling := rfl
@[simp] theorem State.setOp_packetsOut (s : State) (n : Nat) (x : Op) : (s.setOp n x).packetsOut = s.packetsOut := rfl
@[simp] theorem State.setOp_agenda (s : State) (n : Nat) (x : Op) : (s.setOp n x).agenda = s.agenda := rfl
@[simp] theorem State.setOp_sched (s : State) (n : Nat) (x : Op) : (s.setOp n x).sched = s.sched := rfl
@[simp] theorem State.setOp_cur (s : State) (n : Nat) (x : Op) : (s.setOp n x).cur = s.cur := rfl
@[simp] theorem State.setOp_fresh (s : State) (n : Nat) (x : Op) : (s.setOp n x).fresh = s.fresh := rfl
@[simp] theorem State.setOp_steps (s : State) (n : Nat) (x : Op) : (s.setOp n x).steps = s.steps := rfl
@[simp] theorem State.setOp_stop (s : State) (n : Nat) (x : Op) : (s.setOp n x).stop = s.stop := rfl
@[simp] theorem State.setOp_losses (s : State) (n : Nat) (x : Op) : (s.setOp n x).losses = s.losses := rfl
@[simp] theorem State.setOp_glitch (s : State) (n : Nat) (x : Op) : (s.setOp n x).glitch = s.glitch := rfl
@[simp] theorem State.setOp_evicts (s : State) (n : Nat) (x : Op) : (s.setOp n x).evicts = s.evicts := rfl
@[simp] theorem State.setOp_refetch (s : State) (n : Nat) (x : Op) : (s.setOp n x).refetch = s.refetch := rfl
@[simp] theorem State.setOp_eccs (s : State) (n : Nat) (x : Op) : (s.setOp n x).eccs = s.eccs := rfl
@[simp] theorem State.setOp_fwWrites (s : State) (n : Nat) (x : Op) : (s.setOp n x).fwWrites = s.fwWrites := rfl
@[simp] theorem State.setOp_packetsIn (s : State) (n : Nat) (x : Op) : (s.setOp n x).packetsIn = s.packetsIn := rfl
@[simp] theorem State.setOp_clkRem (s : State) (n : Nat) (x : Op) : (s.setOp n x).clkRem = s.clkRem := rfl
@[simp] theorem State.setOp_timeRem (s : State) (n : Nat) (x : Op) : (s.setOp n x).timeRem = s.timeRem := rfl
@[simp] theorem State.setOp_nextUid (s : State) (n : Nat) (x : Op) : (s.setOp n x).nextUid = s.nextUid := rfl
@[simp] theorem State.setOp_nextId (s : State) (n : Nat) (x : Op) : (s.setOp n x).nextId = s.nextId := rfl

/-! ## setQueue -/

@[simp] theorem State.setQueue_mem (s : State) (n : Nat) (x : Queue) : (s.setQueue n x).mem = s.mem := rfl
@[simp] theorem State.setQueue_cores (s : State) (n : Nat) (x : Queue) : (s.setQueue n x).cores = s.cores := rfl
@[simp] theorem State.setQueue_clusters (s : State) (n : Nat) (x : Queue) : (s.setQueue n x).clusters = s.clusters := rfl
@[simp] theorem State.setQueue_teams (s : State) (n : Nat) (x : Queue) : (s.setQueue n x).teams = s.teams := rfl
@[simp] theorem State.setQueue_kernels (s : State) (n : Nat) (x : Queue) : (s.setQueue n x).kernels = s.kernels := rfl
@[simp] theorem State.setQueue_heirs (s : State) (n : Nat) (x : Queue) : (s.setQueue n x).heirs = s.heirs := rfl
@[simp] theorem State.setQueue_stores (s : State) (n : Nat) (x : Queue) : (s.setQueue n x).stores = s.stores := rfl
@[simp] theorem State.setQueue_ctxs (s : State) (n : Nat) (x : Queue) : (s.setQueue n x).ctxs = s.ctxs := rfl
@[simp] theorem State.setQueue_tlb (s : State) (n : Nat) (x : Queue) : (s.setQueue n x).tlb = s.tlb := rfl
@[simp] theorem State.setQueue_walks (s : State) (n : Nat) (x : Queue) : (s.setQueue n x).walks = s.walks := rfl
@[simp] theorem State.setQueue_invals (s : State) (n : Nat) (x : Queue) : (s.setQueue n x).invals = s.invals := rfl
@[simp] theorem State.setQueue_faulted (s : State) (n : Nat) (x : Queue) : (s.setQueue n x).faulted = s.faulted := rfl
@[simp] theorem State.setQueue_migrations (s : State) (n : Nat) (x : Queue) : (s.setQueue n x).migrations = s.migrations := rfl
@[simp] theorem State.setQueue_xrecs (s : State) (n : Nat) (x : Queue) : (s.setQueue n x).xrecs = s.xrecs := rfl
@[simp] theorem State.setQueue_xseq (s : State) (n : Nat) (x : Queue) : (s.setQueue n x).xseq = s.xseq := rfl
@[simp] theorem State.setQueue_regions (s : State) (n : Nat) (x : Queue) : (s.setQueue n x).regions = s.regions := rfl
@[simp] theorem State.setQueue_newRegions (s : State) (n : Nat) (x : Queue) : (s.setQueue n x).newRegions = s.newRegions := rfl
@[simp] theorem State.setQueue_parts (s : State) (n : Nat) (x : Queue) : (s.setQueue n x).parts = s.parts := rfl
@[simp] theorem State.setQueue_windows (s : State) (n : Nat) (x : Queue) : (s.setQueue n x).windows = s.windows := rfl
@[simp] theorem State.setQueue_aperture (s : State) (n : Nat) (x : Queue) : (s.setQueue n x).aperture = s.aperture := rfl
@[simp] theorem State.setQueue_nodes (s : State) (n : Nat) (x : Queue) : (s.setQueue n x).nodes = s.nodes := rfl
@[simp] theorem State.setQueue_ops (s : State) (n : Nat) (x : Queue) : (s.setQueue n x).ops = s.ops := rfl
@[simp] theorem State.setQueue_indexes (s : State) (n : Nat) (x : Queue) : (s.setQueue n x).indexes = s.indexes := rfl
@[simp] theorem State.setQueue_publs (s : State) (n : Nat) (x : Queue) : (s.setQueue n x).publs = s.publs := rfl
@[simp] theorem State.setQueue_searches (s : State) (n : Nat) (x : Queue) : (s.setQueue n x).searches = s.searches := rfl
@[simp] theorem State.setQueue_stamps (s : State) (n : Nat) (x : Queue) : (s.setQueue n x).stamps = s.stamps := rfl
@[simp] theorem State.setQueue_token (s : State) (n : Nat) (x : Queue) : (s.setQueue n x).token = s.token := rfl
@[simp] theorem State.setQueue_solo (s : State) (n : Nat) (x : Queue) : (s.setQueue n x).solo = s.solo := rfl
@[simp] theorem State.setQueue_offers (s : State) (n : Nat) (x : Queue) : (s.setQueue n x).offers = s.offers := rfl
@[simp] theorem State.setQueue_diffs (s : State) (n : Nat) (x : Queue) : (s.setQueue n x).diffs = s.diffs := rfl
@[simp] theorem State.setQueue_landings (s : State) (n : Nat) (x : Queue) : (s.setQueue n x).landings = s.landings := rfl
@[simp] theorem State.setQueue_parked (s : State) (n : Nat) (x : Queue) : (s.setQueue n x).parked = s.parked := rfl
@[simp] theorem State.setQueue_delayed (s : State) (n : Nat) (x : Queue) : (s.setQueue n x).delayed = s.delayed := rfl
@[simp] theorem State.setQueue_badLines (s : State) (n : Nat) (x : Queue) : (s.setQueue n x).badLines = s.badLines := rfl
@[simp] theorem State.setQueue_poison (s : State) (n : Nat) (x : Queue) : (s.setQueue n x).poison = s.poison := rfl
@[simp] theorem State.setQueue_hostData (s : State) (n : Nat) (x : Queue) : (s.setQueue n x).hostData = s.hostData := rfl
@[simp] theorem State.setQueue_rebuilding (s : State) (n : Nat) (x : Queue) : (s.setQueue n x).rebuilding = s.rebuilding := rfl
@[simp] theorem State.setQueue_ncl (s : State) (n : Nat) (x : Queue) : (s.setQueue n x).ncl = s.ncl := rfl
@[simp] theorem State.setQueue_parity (s : State) (n : Nat) (x : Queue) : (s.setQueue n x).parity = s.parity := rfl
@[simp] theorem State.setQueue_paritySeq (s : State) (n : Nat) (x : Queue) : (s.setQueue n x).paritySeq = s.paritySeq := rfl
@[simp] theorem State.setQueue_parityAcks (s : State) (n : Nat) (x : Queue) : (s.setQueue n x).parityAcks = s.parityAcks := rfl
@[simp] theorem State.setQueue_parityIn (s : State) (n : Nat) (x : Queue) : (s.setQueue n x).parityIn = s.parityIn := rfl
@[simp] theorem State.setQueue_banks (s : State) (n : Nat) (x : Queue) : (s.setQueue n x).banks = s.banks := rfl
@[simp] theorem State.setQueue_chainTags (s : State) (n : Nat) (x : Queue) : (s.setQueue n x).chainTags = s.chainTags := rfl
@[simp] theorem State.setQueue_demoted (s : State) (n : Nat) (x : Queue) : (s.setQueue n x).demoted = s.demoted := rfl
@[simp] theorem State.setQueue_hourly (s : State) (n : Nat) (x : Queue) : (s.setQueue n x).hourly = s.hourly := rfl
@[simp] theorem State.setQueue_links (s : State) (n : Nat) (x : Queue) : (s.setQueue n x).links = s.links := rfl
@[simp] theorem State.setQueue_pairs (s : State) (n : Nat) (x : Queue) : (s.setQueue n x).pairs = s.pairs := rfl
@[simp] theorem State.setQueue_unreachable (s : State) (n : Nat) (x : Queue) : (s.setQueue n x).unreachable = s.unreachable := rfl
@[simp] theorem State.setQueue_merges (s : State) (n : Nat) (x : Queue) : (s.setQueue n x).merges = s.merges := rfl
@[simp] theorem State.setQueue_mergesLost (s : State) (n : Nat) (x : Queue) : (s.setQueue n x).mergesLost = s.mergesLost := rfl
@[simp] theorem State.setQueue_colls (s : State) (n : Nat) (x : Queue) : (s.setQueue n x).colls = s.colls := rfl
@[simp] theorem State.setQueue_units (s : State) (n : Nat) (x : Queue) : (s.setQueue n x).units = s.units := rfl
@[simp] theorem State.setQueue_nvUnits (s : State) (n : Nat) (x : Queue) : (s.setQueue n x).nvUnits = s.nvUnits := rfl
@[simp] theorem State.setQueue_records (s : State) (n : Nat) (x : Queue) : (s.setQueue n x).records = s.records := rfl
@[simp] theorem State.setQueue_overflow (s : State) (n : Nat) (x : Queue) : (s.setQueue n x).overflow = s.overflow := rfl
@[simp] theorem State.setQueue_dump (s : State) (n : Nat) (x : Queue) : (s.setQueue n x).dump = s.dump := rfl
@[simp] theorem State.setQueue_captures (s : State) (n : Nat) (x : Queue) : (s.setQueue n x).captures = s.captures := rfl
@[simp] theorem State.setQueue_rowEvents (s : State) (n : Nat) (x : Queue) : (s.setQueue n x).rowEvents = s.rowEvents := rfl
@[simp] theorem State.setQueue_fwdrop (s : State) (n : Nat) (x : Queue) : (s.setQueue n x).fwdrop = s.fwdrop := rfl
@[simp] theorem State.setQueue_lperiod (s : State) (n : Nat) (x : Queue) : (s.setQueue n x).lperiod = s.lperiod := rfl
@[simp] theorem State.setQueue_disc (s : State) (n : Nat) (x : Queue) : (s.setQueue n x).disc = s.disc := rfl
@[simp] theorem State.setQueue_power (s : State) (n : Nat) (x : Queue) : (s.setQueue n x).power = s.power := rfl
@[simp] theorem State.setQueue_clk (s : State) (n : Nat) (x : Queue) : (s.setQueue n x).clk = s.clk := rfl
@[simp] theorem State.setQueue_sec (s : State) (n : Nat) (x : Queue) : (s.setQueue n x).sec = s.sec := rfl
@[simp] theorem State.setQueue_ns (s : State) (n : Nat) (x : Queue) : (s.setQueue n x).ns = s.ns := rfl
@[simp] theorem State.setQueue_wall (s : State) (n : Nat) (x : Queue) : (s.setQueue n x).wall = s.wall := rfl
@[simp] theorem State.setQueue_goes (s : State) (n : Nat) (x : Queue) : (s.setQueue n x).goes = s.goes := rfl
@[simp] theorem State.setQueue_port (s : State) (n : Nat) (x : Queue) : (s.setQueue n x).port = s.port := rfl
@[simp] theorem State.setQueue_response (s : State) (n : Nat) (x : Queue) : (s.setQueue n x).response = s.response := rfl
@[simp] theorem State.setQueue_assembling (s : State) (n : Nat) (x : Queue) : (s.setQueue n x).assembling = s.assembling := rfl
@[simp] theorem State.setQueue_packetsOut (s : State) (n : Nat) (x : Queue) : (s.setQueue n x).packetsOut = s.packetsOut := rfl
@[simp] theorem State.setQueue_agenda (s : State) (n : Nat) (x : Queue) : (s.setQueue n x).agenda = s.agenda := rfl
@[simp] theorem State.setQueue_sched (s : State) (n : Nat) (x : Queue) : (s.setQueue n x).sched = s.sched := rfl
@[simp] theorem State.setQueue_cur (s : State) (n : Nat) (x : Queue) : (s.setQueue n x).cur = s.cur := rfl
@[simp] theorem State.setQueue_fresh (s : State) (n : Nat) (x : Queue) : (s.setQueue n x).fresh = s.fresh := rfl
@[simp] theorem State.setQueue_steps (s : State) (n : Nat) (x : Queue) : (s.setQueue n x).steps = s.steps := rfl
@[simp] theorem State.setQueue_stop (s : State) (n : Nat) (x : Queue) : (s.setQueue n x).stop = s.stop := rfl
@[simp] theorem State.setQueue_losses (s : State) (n : Nat) (x : Queue) : (s.setQueue n x).losses = s.losses := rfl
@[simp] theorem State.setQueue_glitch (s : State) (n : Nat) (x : Queue) : (s.setQueue n x).glitch = s.glitch := rfl
@[simp] theorem State.setQueue_evicts (s : State) (n : Nat) (x : Queue) : (s.setQueue n x).evicts = s.evicts := rfl
@[simp] theorem State.setQueue_refetch (s : State) (n : Nat) (x : Queue) : (s.setQueue n x).refetch = s.refetch := rfl
@[simp] theorem State.setQueue_eccs (s : State) (n : Nat) (x : Queue) : (s.setQueue n x).eccs = s.eccs := rfl
@[simp] theorem State.setQueue_fwWrites (s : State) (n : Nat) (x : Queue) : (s.setQueue n x).fwWrites = s.fwWrites := rfl
@[simp] theorem State.setQueue_packetsIn (s : State) (n : Nat) (x : Queue) : (s.setQueue n x).packetsIn = s.packetsIn := rfl
@[simp] theorem State.setQueue_clkRem (s : State) (n : Nat) (x : Queue) : (s.setQueue n x).clkRem = s.clkRem := rfl
@[simp] theorem State.setQueue_timeRem (s : State) (n : Nat) (x : Queue) : (s.setQueue n x).timeRem = s.timeRem := rfl
@[simp] theorem State.setQueue_nextUid (s : State) (n : Nat) (x : Queue) : (s.setQueue n x).nextUid = s.nextUid := rfl
@[simp] theorem State.setQueue_nextId (s : State) (n : Nat) (x : Queue) : (s.setQueue n x).nextId = s.nextId := rfl

/-! ## setWindow -/

@[simp] theorem State.setWindow_mem (s : State) (n : Nat) (x : Window) : (s.setWindow n x).mem = s.mem := rfl
@[simp] theorem State.setWindow_cores (s : State) (n : Nat) (x : Window) : (s.setWindow n x).cores = s.cores := rfl
@[simp] theorem State.setWindow_clusters (s : State) (n : Nat) (x : Window) : (s.setWindow n x).clusters = s.clusters := rfl
@[simp] theorem State.setWindow_teams (s : State) (n : Nat) (x : Window) : (s.setWindow n x).teams = s.teams := rfl
@[simp] theorem State.setWindow_kernels (s : State) (n : Nat) (x : Window) : (s.setWindow n x).kernels = s.kernels := rfl
@[simp] theorem State.setWindow_heirs (s : State) (n : Nat) (x : Window) : (s.setWindow n x).heirs = s.heirs := rfl
@[simp] theorem State.setWindow_stores (s : State) (n : Nat) (x : Window) : (s.setWindow n x).stores = s.stores := rfl
@[simp] theorem State.setWindow_ctxs (s : State) (n : Nat) (x : Window) : (s.setWindow n x).ctxs = s.ctxs := rfl
@[simp] theorem State.setWindow_tlb (s : State) (n : Nat) (x : Window) : (s.setWindow n x).tlb = s.tlb := rfl
@[simp] theorem State.setWindow_walks (s : State) (n : Nat) (x : Window) : (s.setWindow n x).walks = s.walks := rfl
@[simp] theorem State.setWindow_invals (s : State) (n : Nat) (x : Window) : (s.setWindow n x).invals = s.invals := rfl
@[simp] theorem State.setWindow_faulted (s : State) (n : Nat) (x : Window) : (s.setWindow n x).faulted = s.faulted := rfl
@[simp] theorem State.setWindow_migrations (s : State) (n : Nat) (x : Window) : (s.setWindow n x).migrations = s.migrations := rfl
@[simp] theorem State.setWindow_xrecs (s : State) (n : Nat) (x : Window) : (s.setWindow n x).xrecs = s.xrecs := rfl
@[simp] theorem State.setWindow_xseq (s : State) (n : Nat) (x : Window) : (s.setWindow n x).xseq = s.xseq := rfl
@[simp] theorem State.setWindow_regions (s : State) (n : Nat) (x : Window) : (s.setWindow n x).regions = s.regions := rfl
@[simp] theorem State.setWindow_newRegions (s : State) (n : Nat) (x : Window) : (s.setWindow n x).newRegions = s.newRegions := rfl
@[simp] theorem State.setWindow_parts (s : State) (n : Nat) (x : Window) : (s.setWindow n x).parts = s.parts := rfl
@[simp] theorem State.setWindow_aperture (s : State) (n : Nat) (x : Window) : (s.setWindow n x).aperture = s.aperture := rfl
@[simp] theorem State.setWindow_queues (s : State) (n : Nat) (x : Window) : (s.setWindow n x).queues = s.queues := rfl
@[simp] theorem State.setWindow_nodes (s : State) (n : Nat) (x : Window) : (s.setWindow n x).nodes = s.nodes := rfl
@[simp] theorem State.setWindow_ops (s : State) (n : Nat) (x : Window) : (s.setWindow n x).ops = s.ops := rfl
@[simp] theorem State.setWindow_indexes (s : State) (n : Nat) (x : Window) : (s.setWindow n x).indexes = s.indexes := rfl
@[simp] theorem State.setWindow_publs (s : State) (n : Nat) (x : Window) : (s.setWindow n x).publs = s.publs := rfl
@[simp] theorem State.setWindow_searches (s : State) (n : Nat) (x : Window) : (s.setWindow n x).searches = s.searches := rfl
@[simp] theorem State.setWindow_stamps (s : State) (n : Nat) (x : Window) : (s.setWindow n x).stamps = s.stamps := rfl
@[simp] theorem State.setWindow_token (s : State) (n : Nat) (x : Window) : (s.setWindow n x).token = s.token := rfl
@[simp] theorem State.setWindow_solo (s : State) (n : Nat) (x : Window) : (s.setWindow n x).solo = s.solo := rfl
@[simp] theorem State.setWindow_offers (s : State) (n : Nat) (x : Window) : (s.setWindow n x).offers = s.offers := rfl
@[simp] theorem State.setWindow_diffs (s : State) (n : Nat) (x : Window) : (s.setWindow n x).diffs = s.diffs := rfl
@[simp] theorem State.setWindow_landings (s : State) (n : Nat) (x : Window) : (s.setWindow n x).landings = s.landings := rfl
@[simp] theorem State.setWindow_parked (s : State) (n : Nat) (x : Window) : (s.setWindow n x).parked = s.parked := rfl
@[simp] theorem State.setWindow_delayed (s : State) (n : Nat) (x : Window) : (s.setWindow n x).delayed = s.delayed := rfl
@[simp] theorem State.setWindow_badLines (s : State) (n : Nat) (x : Window) : (s.setWindow n x).badLines = s.badLines := rfl
@[simp] theorem State.setWindow_poison (s : State) (n : Nat) (x : Window) : (s.setWindow n x).poison = s.poison := rfl
@[simp] theorem State.setWindow_hostData (s : State) (n : Nat) (x : Window) : (s.setWindow n x).hostData = s.hostData := rfl
@[simp] theorem State.setWindow_rebuilding (s : State) (n : Nat) (x : Window) : (s.setWindow n x).rebuilding = s.rebuilding := rfl
@[simp] theorem State.setWindow_ncl (s : State) (n : Nat) (x : Window) : (s.setWindow n x).ncl = s.ncl := rfl
@[simp] theorem State.setWindow_parity (s : State) (n : Nat) (x : Window) : (s.setWindow n x).parity = s.parity := rfl
@[simp] theorem State.setWindow_paritySeq (s : State) (n : Nat) (x : Window) : (s.setWindow n x).paritySeq = s.paritySeq := rfl
@[simp] theorem State.setWindow_parityAcks (s : State) (n : Nat) (x : Window) : (s.setWindow n x).parityAcks = s.parityAcks := rfl
@[simp] theorem State.setWindow_parityIn (s : State) (n : Nat) (x : Window) : (s.setWindow n x).parityIn = s.parityIn := rfl
@[simp] theorem State.setWindow_banks (s : State) (n : Nat) (x : Window) : (s.setWindow n x).banks = s.banks := rfl
@[simp] theorem State.setWindow_chainTags (s : State) (n : Nat) (x : Window) : (s.setWindow n x).chainTags = s.chainTags := rfl
@[simp] theorem State.setWindow_demoted (s : State) (n : Nat) (x : Window) : (s.setWindow n x).demoted = s.demoted := rfl
@[simp] theorem State.setWindow_hourly (s : State) (n : Nat) (x : Window) : (s.setWindow n x).hourly = s.hourly := rfl
@[simp] theorem State.setWindow_links (s : State) (n : Nat) (x : Window) : (s.setWindow n x).links = s.links := rfl
@[simp] theorem State.setWindow_pairs (s : State) (n : Nat) (x : Window) : (s.setWindow n x).pairs = s.pairs := rfl
@[simp] theorem State.setWindow_unreachable (s : State) (n : Nat) (x : Window) : (s.setWindow n x).unreachable = s.unreachable := rfl
@[simp] theorem State.setWindow_merges (s : State) (n : Nat) (x : Window) : (s.setWindow n x).merges = s.merges := rfl
@[simp] theorem State.setWindow_mergesLost (s : State) (n : Nat) (x : Window) : (s.setWindow n x).mergesLost = s.mergesLost := rfl
@[simp] theorem State.setWindow_colls (s : State) (n : Nat) (x : Window) : (s.setWindow n x).colls = s.colls := rfl
@[simp] theorem State.setWindow_units (s : State) (n : Nat) (x : Window) : (s.setWindow n x).units = s.units := rfl
@[simp] theorem State.setWindow_nvUnits (s : State) (n : Nat) (x : Window) : (s.setWindow n x).nvUnits = s.nvUnits := rfl
@[simp] theorem State.setWindow_records (s : State) (n : Nat) (x : Window) : (s.setWindow n x).records = s.records := rfl
@[simp] theorem State.setWindow_overflow (s : State) (n : Nat) (x : Window) : (s.setWindow n x).overflow = s.overflow := rfl
@[simp] theorem State.setWindow_dump (s : State) (n : Nat) (x : Window) : (s.setWindow n x).dump = s.dump := rfl
@[simp] theorem State.setWindow_captures (s : State) (n : Nat) (x : Window) : (s.setWindow n x).captures = s.captures := rfl
@[simp] theorem State.setWindow_rowEvents (s : State) (n : Nat) (x : Window) : (s.setWindow n x).rowEvents = s.rowEvents := rfl
@[simp] theorem State.setWindow_fwdrop (s : State) (n : Nat) (x : Window) : (s.setWindow n x).fwdrop = s.fwdrop := rfl
@[simp] theorem State.setWindow_lperiod (s : State) (n : Nat) (x : Window) : (s.setWindow n x).lperiod = s.lperiod := rfl
@[simp] theorem State.setWindow_disc (s : State) (n : Nat) (x : Window) : (s.setWindow n x).disc = s.disc := rfl
@[simp] theorem State.setWindow_power (s : State) (n : Nat) (x : Window) : (s.setWindow n x).power = s.power := rfl
@[simp] theorem State.setWindow_clk (s : State) (n : Nat) (x : Window) : (s.setWindow n x).clk = s.clk := rfl
@[simp] theorem State.setWindow_sec (s : State) (n : Nat) (x : Window) : (s.setWindow n x).sec = s.sec := rfl
@[simp] theorem State.setWindow_ns (s : State) (n : Nat) (x : Window) : (s.setWindow n x).ns = s.ns := rfl
@[simp] theorem State.setWindow_wall (s : State) (n : Nat) (x : Window) : (s.setWindow n x).wall = s.wall := rfl
@[simp] theorem State.setWindow_goes (s : State) (n : Nat) (x : Window) : (s.setWindow n x).goes = s.goes := rfl
@[simp] theorem State.setWindow_port (s : State) (n : Nat) (x : Window) : (s.setWindow n x).port = s.port := rfl
@[simp] theorem State.setWindow_response (s : State) (n : Nat) (x : Window) : (s.setWindow n x).response = s.response := rfl
@[simp] theorem State.setWindow_assembling (s : State) (n : Nat) (x : Window) : (s.setWindow n x).assembling = s.assembling := rfl
@[simp] theorem State.setWindow_packetsOut (s : State) (n : Nat) (x : Window) : (s.setWindow n x).packetsOut = s.packetsOut := rfl
@[simp] theorem State.setWindow_agenda (s : State) (n : Nat) (x : Window) : (s.setWindow n x).agenda = s.agenda := rfl
@[simp] theorem State.setWindow_sched (s : State) (n : Nat) (x : Window) : (s.setWindow n x).sched = s.sched := rfl
@[simp] theorem State.setWindow_cur (s : State) (n : Nat) (x : Window) : (s.setWindow n x).cur = s.cur := rfl
@[simp] theorem State.setWindow_fresh (s : State) (n : Nat) (x : Window) : (s.setWindow n x).fresh = s.fresh := rfl
@[simp] theorem State.setWindow_steps (s : State) (n : Nat) (x : Window) : (s.setWindow n x).steps = s.steps := rfl
@[simp] theorem State.setWindow_stop (s : State) (n : Nat) (x : Window) : (s.setWindow n x).stop = s.stop := rfl
@[simp] theorem State.setWindow_losses (s : State) (n : Nat) (x : Window) : (s.setWindow n x).losses = s.losses := rfl
@[simp] theorem State.setWindow_glitch (s : State) (n : Nat) (x : Window) : (s.setWindow n x).glitch = s.glitch := rfl
@[simp] theorem State.setWindow_evicts (s : State) (n : Nat) (x : Window) : (s.setWindow n x).evicts = s.evicts := rfl
@[simp] theorem State.setWindow_refetch (s : State) (n : Nat) (x : Window) : (s.setWindow n x).refetch = s.refetch := rfl
@[simp] theorem State.setWindow_eccs (s : State) (n : Nat) (x : Window) : (s.setWindow n x).eccs = s.eccs := rfl
@[simp] theorem State.setWindow_fwWrites (s : State) (n : Nat) (x : Window) : (s.setWindow n x).fwWrites = s.fwWrites := rfl
@[simp] theorem State.setWindow_packetsIn (s : State) (n : Nat) (x : Window) : (s.setWindow n x).packetsIn = s.packetsIn := rfl
@[simp] theorem State.setWindow_clkRem (s : State) (n : Nat) (x : Window) : (s.setWindow n x).clkRem = s.clkRem := rfl
@[simp] theorem State.setWindow_timeRem (s : State) (n : Nat) (x : Window) : (s.setWindow n x).timeRem = s.timeRem := rfl
@[simp] theorem State.setWindow_nextUid (s : State) (n : Nat) (x : Window) : (s.setWindow n x).nextUid = s.nextUid := rfl
@[simp] theorem State.setWindow_nextId (s : State) (n : Nat) (x : Window) : (s.setWindow n x).nextId = s.nextId := rfl

/-! ## setKernel -/

@[simp] theorem State.setKernel_mem (s : State) (n : Nat) (x : Kernel) : (s.setKernel n x).mem = s.mem := rfl
@[simp] theorem State.setKernel_cores (s : State) (n : Nat) (x : Kernel) : (s.setKernel n x).cores = s.cores := rfl
@[simp] theorem State.setKernel_clusters (s : State) (n : Nat) (x : Kernel) : (s.setKernel n x).clusters = s.clusters := rfl
@[simp] theorem State.setKernel_teams (s : State) (n : Nat) (x : Kernel) : (s.setKernel n x).teams = s.teams := rfl
@[simp] theorem State.setKernel_heirs (s : State) (n : Nat) (x : Kernel) : (s.setKernel n x).heirs = s.heirs := rfl
@[simp] theorem State.setKernel_stores (s : State) (n : Nat) (x : Kernel) : (s.setKernel n x).stores = s.stores := rfl
@[simp] theorem State.setKernel_ctxs (s : State) (n : Nat) (x : Kernel) : (s.setKernel n x).ctxs = s.ctxs := rfl
@[simp] theorem State.setKernel_tlb (s : State) (n : Nat) (x : Kernel) : (s.setKernel n x).tlb = s.tlb := rfl
@[simp] theorem State.setKernel_walks (s : State) (n : Nat) (x : Kernel) : (s.setKernel n x).walks = s.walks := rfl
@[simp] theorem State.setKernel_invals (s : State) (n : Nat) (x : Kernel) : (s.setKernel n x).invals = s.invals := rfl
@[simp] theorem State.setKernel_faulted (s : State) (n : Nat) (x : Kernel) : (s.setKernel n x).faulted = s.faulted := rfl
@[simp] theorem State.setKernel_migrations (s : State) (n : Nat) (x : Kernel) : (s.setKernel n x).migrations = s.migrations := rfl
@[simp] theorem State.setKernel_xrecs (s : State) (n : Nat) (x : Kernel) : (s.setKernel n x).xrecs = s.xrecs := rfl
@[simp] theorem State.setKernel_xseq (s : State) (n : Nat) (x : Kernel) : (s.setKernel n x).xseq = s.xseq := rfl
@[simp] theorem State.setKernel_regions (s : State) (n : Nat) (x : Kernel) : (s.setKernel n x).regions = s.regions := rfl
@[simp] theorem State.setKernel_newRegions (s : State) (n : Nat) (x : Kernel) : (s.setKernel n x).newRegions = s.newRegions := rfl
@[simp] theorem State.setKernel_parts (s : State) (n : Nat) (x : Kernel) : (s.setKernel n x).parts = s.parts := rfl
@[simp] theorem State.setKernel_windows (s : State) (n : Nat) (x : Kernel) : (s.setKernel n x).windows = s.windows := rfl
@[simp] theorem State.setKernel_aperture (s : State) (n : Nat) (x : Kernel) : (s.setKernel n x).aperture = s.aperture := rfl
@[simp] theorem State.setKernel_queues (s : State) (n : Nat) (x : Kernel) : (s.setKernel n x).queues = s.queues := rfl
@[simp] theorem State.setKernel_nodes (s : State) (n : Nat) (x : Kernel) : (s.setKernel n x).nodes = s.nodes := rfl
@[simp] theorem State.setKernel_ops (s : State) (n : Nat) (x : Kernel) : (s.setKernel n x).ops = s.ops := rfl
@[simp] theorem State.setKernel_indexes (s : State) (n : Nat) (x : Kernel) : (s.setKernel n x).indexes = s.indexes := rfl
@[simp] theorem State.setKernel_publs (s : State) (n : Nat) (x : Kernel) : (s.setKernel n x).publs = s.publs := rfl
@[simp] theorem State.setKernel_searches (s : State) (n : Nat) (x : Kernel) : (s.setKernel n x).searches = s.searches := rfl
@[simp] theorem State.setKernel_stamps (s : State) (n : Nat) (x : Kernel) : (s.setKernel n x).stamps = s.stamps := rfl
@[simp] theorem State.setKernel_token (s : State) (n : Nat) (x : Kernel) : (s.setKernel n x).token = s.token := rfl
@[simp] theorem State.setKernel_solo (s : State) (n : Nat) (x : Kernel) : (s.setKernel n x).solo = s.solo := rfl
@[simp] theorem State.setKernel_offers (s : State) (n : Nat) (x : Kernel) : (s.setKernel n x).offers = s.offers := rfl
@[simp] theorem State.setKernel_diffs (s : State) (n : Nat) (x : Kernel) : (s.setKernel n x).diffs = s.diffs := rfl
@[simp] theorem State.setKernel_landings (s : State) (n : Nat) (x : Kernel) : (s.setKernel n x).landings = s.landings := rfl
@[simp] theorem State.setKernel_parked (s : State) (n : Nat) (x : Kernel) : (s.setKernel n x).parked = s.parked := rfl
@[simp] theorem State.setKernel_delayed (s : State) (n : Nat) (x : Kernel) : (s.setKernel n x).delayed = s.delayed := rfl
@[simp] theorem State.setKernel_badLines (s : State) (n : Nat) (x : Kernel) : (s.setKernel n x).badLines = s.badLines := rfl
@[simp] theorem State.setKernel_poison (s : State) (n : Nat) (x : Kernel) : (s.setKernel n x).poison = s.poison := rfl
@[simp] theorem State.setKernel_hostData (s : State) (n : Nat) (x : Kernel) : (s.setKernel n x).hostData = s.hostData := rfl
@[simp] theorem State.setKernel_rebuilding (s : State) (n : Nat) (x : Kernel) : (s.setKernel n x).rebuilding = s.rebuilding := rfl
@[simp] theorem State.setKernel_ncl (s : State) (n : Nat) (x : Kernel) : (s.setKernel n x).ncl = s.ncl := rfl
@[simp] theorem State.setKernel_parity (s : State) (n : Nat) (x : Kernel) : (s.setKernel n x).parity = s.parity := rfl
@[simp] theorem State.setKernel_paritySeq (s : State) (n : Nat) (x : Kernel) : (s.setKernel n x).paritySeq = s.paritySeq := rfl
@[simp] theorem State.setKernel_parityAcks (s : State) (n : Nat) (x : Kernel) : (s.setKernel n x).parityAcks = s.parityAcks := rfl
@[simp] theorem State.setKernel_parityIn (s : State) (n : Nat) (x : Kernel) : (s.setKernel n x).parityIn = s.parityIn := rfl
@[simp] theorem State.setKernel_banks (s : State) (n : Nat) (x : Kernel) : (s.setKernel n x).banks = s.banks := rfl
@[simp] theorem State.setKernel_chainTags (s : State) (n : Nat) (x : Kernel) : (s.setKernel n x).chainTags = s.chainTags := rfl
@[simp] theorem State.setKernel_demoted (s : State) (n : Nat) (x : Kernel) : (s.setKernel n x).demoted = s.demoted := rfl
@[simp] theorem State.setKernel_hourly (s : State) (n : Nat) (x : Kernel) : (s.setKernel n x).hourly = s.hourly := rfl
@[simp] theorem State.setKernel_links (s : State) (n : Nat) (x : Kernel) : (s.setKernel n x).links = s.links := rfl
@[simp] theorem State.setKernel_pairs (s : State) (n : Nat) (x : Kernel) : (s.setKernel n x).pairs = s.pairs := rfl
@[simp] theorem State.setKernel_unreachable (s : State) (n : Nat) (x : Kernel) : (s.setKernel n x).unreachable = s.unreachable := rfl
@[simp] theorem State.setKernel_merges (s : State) (n : Nat) (x : Kernel) : (s.setKernel n x).merges = s.merges := rfl
@[simp] theorem State.setKernel_mergesLost (s : State) (n : Nat) (x : Kernel) : (s.setKernel n x).mergesLost = s.mergesLost := rfl
@[simp] theorem State.setKernel_colls (s : State) (n : Nat) (x : Kernel) : (s.setKernel n x).colls = s.colls := rfl
@[simp] theorem State.setKernel_units (s : State) (n : Nat) (x : Kernel) : (s.setKernel n x).units = s.units := rfl
@[simp] theorem State.setKernel_nvUnits (s : State) (n : Nat) (x : Kernel) : (s.setKernel n x).nvUnits = s.nvUnits := rfl
@[simp] theorem State.setKernel_records (s : State) (n : Nat) (x : Kernel) : (s.setKernel n x).records = s.records := rfl
@[simp] theorem State.setKernel_overflow (s : State) (n : Nat) (x : Kernel) : (s.setKernel n x).overflow = s.overflow := rfl
@[simp] theorem State.setKernel_dump (s : State) (n : Nat) (x : Kernel) : (s.setKernel n x).dump = s.dump := rfl
@[simp] theorem State.setKernel_captures (s : State) (n : Nat) (x : Kernel) : (s.setKernel n x).captures = s.captures := rfl
@[simp] theorem State.setKernel_rowEvents (s : State) (n : Nat) (x : Kernel) : (s.setKernel n x).rowEvents = s.rowEvents := rfl
@[simp] theorem State.setKernel_fwdrop (s : State) (n : Nat) (x : Kernel) : (s.setKernel n x).fwdrop = s.fwdrop := rfl
@[simp] theorem State.setKernel_lperiod (s : State) (n : Nat) (x : Kernel) : (s.setKernel n x).lperiod = s.lperiod := rfl
@[simp] theorem State.setKernel_disc (s : State) (n : Nat) (x : Kernel) : (s.setKernel n x).disc = s.disc := rfl
@[simp] theorem State.setKernel_power (s : State) (n : Nat) (x : Kernel) : (s.setKernel n x).power = s.power := rfl
@[simp] theorem State.setKernel_clk (s : State) (n : Nat) (x : Kernel) : (s.setKernel n x).clk = s.clk := rfl
@[simp] theorem State.setKernel_sec (s : State) (n : Nat) (x : Kernel) : (s.setKernel n x).sec = s.sec := rfl
@[simp] theorem State.setKernel_ns (s : State) (n : Nat) (x : Kernel) : (s.setKernel n x).ns = s.ns := rfl
@[simp] theorem State.setKernel_wall (s : State) (n : Nat) (x : Kernel) : (s.setKernel n x).wall = s.wall := rfl
@[simp] theorem State.setKernel_goes (s : State) (n : Nat) (x : Kernel) : (s.setKernel n x).goes = s.goes := rfl
@[simp] theorem State.setKernel_port (s : State) (n : Nat) (x : Kernel) : (s.setKernel n x).port = s.port := rfl
@[simp] theorem State.setKernel_response (s : State) (n : Nat) (x : Kernel) : (s.setKernel n x).response = s.response := rfl
@[simp] theorem State.setKernel_assembling (s : State) (n : Nat) (x : Kernel) : (s.setKernel n x).assembling = s.assembling := rfl
@[simp] theorem State.setKernel_packetsOut (s : State) (n : Nat) (x : Kernel) : (s.setKernel n x).packetsOut = s.packetsOut := rfl
@[simp] theorem State.setKernel_agenda (s : State) (n : Nat) (x : Kernel) : (s.setKernel n x).agenda = s.agenda := rfl
@[simp] theorem State.setKernel_sched (s : State) (n : Nat) (x : Kernel) : (s.setKernel n x).sched = s.sched := rfl
@[simp] theorem State.setKernel_cur (s : State) (n : Nat) (x : Kernel) : (s.setKernel n x).cur = s.cur := rfl
@[simp] theorem State.setKernel_fresh (s : State) (n : Nat) (x : Kernel) : (s.setKernel n x).fresh = s.fresh := rfl
@[simp] theorem State.setKernel_steps (s : State) (n : Nat) (x : Kernel) : (s.setKernel n x).steps = s.steps := rfl
@[simp] theorem State.setKernel_stop (s : State) (n : Nat) (x : Kernel) : (s.setKernel n x).stop = s.stop := rfl
@[simp] theorem State.setKernel_losses (s : State) (n : Nat) (x : Kernel) : (s.setKernel n x).losses = s.losses := rfl
@[simp] theorem State.setKernel_glitch (s : State) (n : Nat) (x : Kernel) : (s.setKernel n x).glitch = s.glitch := rfl
@[simp] theorem State.setKernel_evicts (s : State) (n : Nat) (x : Kernel) : (s.setKernel n x).evicts = s.evicts := rfl
@[simp] theorem State.setKernel_refetch (s : State) (n : Nat) (x : Kernel) : (s.setKernel n x).refetch = s.refetch := rfl
@[simp] theorem State.setKernel_eccs (s : State) (n : Nat) (x : Kernel) : (s.setKernel n x).eccs = s.eccs := rfl
@[simp] theorem State.setKernel_fwWrites (s : State) (n : Nat) (x : Kernel) : (s.setKernel n x).fwWrites = s.fwWrites := rfl
@[simp] theorem State.setKernel_packetsIn (s : State) (n : Nat) (x : Kernel) : (s.setKernel n x).packetsIn = s.packetsIn := rfl
@[simp] theorem State.setKernel_clkRem (s : State) (n : Nat) (x : Kernel) : (s.setKernel n x).clkRem = s.clkRem := rfl
@[simp] theorem State.setKernel_timeRem (s : State) (n : Nat) (x : Kernel) : (s.setKernel n x).timeRem = s.timeRem := rfl
@[simp] theorem State.setKernel_nextUid (s : State) (n : Nat) (x : Kernel) : (s.setKernel n x).nextUid = s.nextUid := rfl
@[simp] theorem State.setKernel_nextId (s : State) (n : Nat) (x : Kernel) : (s.setKernel n x).nextId = s.nextId := rfl

/-! ## setUnit -/

@[simp] theorem State.setUnit_mem (s : State) (n : Nat) (x : HUnit) : (s.setUnit n x).mem = s.mem := rfl
@[simp] theorem State.setUnit_cores (s : State) (n : Nat) (x : HUnit) : (s.setUnit n x).cores = s.cores := rfl
@[simp] theorem State.setUnit_clusters (s : State) (n : Nat) (x : HUnit) : (s.setUnit n x).clusters = s.clusters := rfl
@[simp] theorem State.setUnit_teams (s : State) (n : Nat) (x : HUnit) : (s.setUnit n x).teams = s.teams := rfl
@[simp] theorem State.setUnit_kernels (s : State) (n : Nat) (x : HUnit) : (s.setUnit n x).kernels = s.kernels := rfl
@[simp] theorem State.setUnit_heirs (s : State) (n : Nat) (x : HUnit) : (s.setUnit n x).heirs = s.heirs := rfl
@[simp] theorem State.setUnit_stores (s : State) (n : Nat) (x : HUnit) : (s.setUnit n x).stores = s.stores := rfl
@[simp] theorem State.setUnit_ctxs (s : State) (n : Nat) (x : HUnit) : (s.setUnit n x).ctxs = s.ctxs := rfl
@[simp] theorem State.setUnit_tlb (s : State) (n : Nat) (x : HUnit) : (s.setUnit n x).tlb = s.tlb := rfl
@[simp] theorem State.setUnit_walks (s : State) (n : Nat) (x : HUnit) : (s.setUnit n x).walks = s.walks := rfl
@[simp] theorem State.setUnit_invals (s : State) (n : Nat) (x : HUnit) : (s.setUnit n x).invals = s.invals := rfl
@[simp] theorem State.setUnit_faulted (s : State) (n : Nat) (x : HUnit) : (s.setUnit n x).faulted = s.faulted := rfl
@[simp] theorem State.setUnit_migrations (s : State) (n : Nat) (x : HUnit) : (s.setUnit n x).migrations = s.migrations := rfl
@[simp] theorem State.setUnit_xrecs (s : State) (n : Nat) (x : HUnit) : (s.setUnit n x).xrecs = s.xrecs := rfl
@[simp] theorem State.setUnit_xseq (s : State) (n : Nat) (x : HUnit) : (s.setUnit n x).xseq = s.xseq := rfl
@[simp] theorem State.setUnit_regions (s : State) (n : Nat) (x : HUnit) : (s.setUnit n x).regions = s.regions := rfl
@[simp] theorem State.setUnit_newRegions (s : State) (n : Nat) (x : HUnit) : (s.setUnit n x).newRegions = s.newRegions := rfl
@[simp] theorem State.setUnit_parts (s : State) (n : Nat) (x : HUnit) : (s.setUnit n x).parts = s.parts := rfl
@[simp] theorem State.setUnit_windows (s : State) (n : Nat) (x : HUnit) : (s.setUnit n x).windows = s.windows := rfl
@[simp] theorem State.setUnit_aperture (s : State) (n : Nat) (x : HUnit) : (s.setUnit n x).aperture = s.aperture := rfl
@[simp] theorem State.setUnit_queues (s : State) (n : Nat) (x : HUnit) : (s.setUnit n x).queues = s.queues := rfl
@[simp] theorem State.setUnit_nodes (s : State) (n : Nat) (x : HUnit) : (s.setUnit n x).nodes = s.nodes := rfl
@[simp] theorem State.setUnit_ops (s : State) (n : Nat) (x : HUnit) : (s.setUnit n x).ops = s.ops := rfl
@[simp] theorem State.setUnit_indexes (s : State) (n : Nat) (x : HUnit) : (s.setUnit n x).indexes = s.indexes := rfl
@[simp] theorem State.setUnit_publs (s : State) (n : Nat) (x : HUnit) : (s.setUnit n x).publs = s.publs := rfl
@[simp] theorem State.setUnit_searches (s : State) (n : Nat) (x : HUnit) : (s.setUnit n x).searches = s.searches := rfl
@[simp] theorem State.setUnit_stamps (s : State) (n : Nat) (x : HUnit) : (s.setUnit n x).stamps = s.stamps := rfl
@[simp] theorem State.setUnit_token (s : State) (n : Nat) (x : HUnit) : (s.setUnit n x).token = s.token := rfl
@[simp] theorem State.setUnit_solo (s : State) (n : Nat) (x : HUnit) : (s.setUnit n x).solo = s.solo := rfl
@[simp] theorem State.setUnit_offers (s : State) (n : Nat) (x : HUnit) : (s.setUnit n x).offers = s.offers := rfl
@[simp] theorem State.setUnit_diffs (s : State) (n : Nat) (x : HUnit) : (s.setUnit n x).diffs = s.diffs := rfl
@[simp] theorem State.setUnit_landings (s : State) (n : Nat) (x : HUnit) : (s.setUnit n x).landings = s.landings := rfl
@[simp] theorem State.setUnit_parked (s : State) (n : Nat) (x : HUnit) : (s.setUnit n x).parked = s.parked := rfl
@[simp] theorem State.setUnit_delayed (s : State) (n : Nat) (x : HUnit) : (s.setUnit n x).delayed = s.delayed := rfl
@[simp] theorem State.setUnit_badLines (s : State) (n : Nat) (x : HUnit) : (s.setUnit n x).badLines = s.badLines := rfl
@[simp] theorem State.setUnit_poison (s : State) (n : Nat) (x : HUnit) : (s.setUnit n x).poison = s.poison := rfl
@[simp] theorem State.setUnit_hostData (s : State) (n : Nat) (x : HUnit) : (s.setUnit n x).hostData = s.hostData := rfl
@[simp] theorem State.setUnit_rebuilding (s : State) (n : Nat) (x : HUnit) : (s.setUnit n x).rebuilding = s.rebuilding := rfl
@[simp] theorem State.setUnit_ncl (s : State) (n : Nat) (x : HUnit) : (s.setUnit n x).ncl = s.ncl := rfl
@[simp] theorem State.setUnit_parity (s : State) (n : Nat) (x : HUnit) : (s.setUnit n x).parity = s.parity := rfl
@[simp] theorem State.setUnit_paritySeq (s : State) (n : Nat) (x : HUnit) : (s.setUnit n x).paritySeq = s.paritySeq := rfl
@[simp] theorem State.setUnit_parityAcks (s : State) (n : Nat) (x : HUnit) : (s.setUnit n x).parityAcks = s.parityAcks := rfl
@[simp] theorem State.setUnit_parityIn (s : State) (n : Nat) (x : HUnit) : (s.setUnit n x).parityIn = s.parityIn := rfl
@[simp] theorem State.setUnit_banks (s : State) (n : Nat) (x : HUnit) : (s.setUnit n x).banks = s.banks := rfl
@[simp] theorem State.setUnit_chainTags (s : State) (n : Nat) (x : HUnit) : (s.setUnit n x).chainTags = s.chainTags := rfl
@[simp] theorem State.setUnit_demoted (s : State) (n : Nat) (x : HUnit) : (s.setUnit n x).demoted = s.demoted := rfl
@[simp] theorem State.setUnit_hourly (s : State) (n : Nat) (x : HUnit) : (s.setUnit n x).hourly = s.hourly := rfl
@[simp] theorem State.setUnit_links (s : State) (n : Nat) (x : HUnit) : (s.setUnit n x).links = s.links := rfl
@[simp] theorem State.setUnit_pairs (s : State) (n : Nat) (x : HUnit) : (s.setUnit n x).pairs = s.pairs := rfl
@[simp] theorem State.setUnit_unreachable (s : State) (n : Nat) (x : HUnit) : (s.setUnit n x).unreachable = s.unreachable := rfl
@[simp] theorem State.setUnit_merges (s : State) (n : Nat) (x : HUnit) : (s.setUnit n x).merges = s.merges := rfl
@[simp] theorem State.setUnit_mergesLost (s : State) (n : Nat) (x : HUnit) : (s.setUnit n x).mergesLost = s.mergesLost := rfl
@[simp] theorem State.setUnit_colls (s : State) (n : Nat) (x : HUnit) : (s.setUnit n x).colls = s.colls := rfl
@[simp] theorem State.setUnit_nvUnits (s : State) (n : Nat) (x : HUnit) : (s.setUnit n x).nvUnits = s.nvUnits := rfl
@[simp] theorem State.setUnit_records (s : State) (n : Nat) (x : HUnit) : (s.setUnit n x).records = s.records := rfl
@[simp] theorem State.setUnit_overflow (s : State) (n : Nat) (x : HUnit) : (s.setUnit n x).overflow = s.overflow := rfl
@[simp] theorem State.setUnit_dump (s : State) (n : Nat) (x : HUnit) : (s.setUnit n x).dump = s.dump := rfl
@[simp] theorem State.setUnit_captures (s : State) (n : Nat) (x : HUnit) : (s.setUnit n x).captures = s.captures := rfl
@[simp] theorem State.setUnit_rowEvents (s : State) (n : Nat) (x : HUnit) : (s.setUnit n x).rowEvents = s.rowEvents := rfl
@[simp] theorem State.setUnit_fwdrop (s : State) (n : Nat) (x : HUnit) : (s.setUnit n x).fwdrop = s.fwdrop := rfl
@[simp] theorem State.setUnit_lperiod (s : State) (n : Nat) (x : HUnit) : (s.setUnit n x).lperiod = s.lperiod := rfl
@[simp] theorem State.setUnit_disc (s : State) (n : Nat) (x : HUnit) : (s.setUnit n x).disc = s.disc := rfl
@[simp] theorem State.setUnit_power (s : State) (n : Nat) (x : HUnit) : (s.setUnit n x).power = s.power := rfl
@[simp] theorem State.setUnit_clk (s : State) (n : Nat) (x : HUnit) : (s.setUnit n x).clk = s.clk := rfl
@[simp] theorem State.setUnit_sec (s : State) (n : Nat) (x : HUnit) : (s.setUnit n x).sec = s.sec := rfl
@[simp] theorem State.setUnit_ns (s : State) (n : Nat) (x : HUnit) : (s.setUnit n x).ns = s.ns := rfl
@[simp] theorem State.setUnit_wall (s : State) (n : Nat) (x : HUnit) : (s.setUnit n x).wall = s.wall := rfl
@[simp] theorem State.setUnit_goes (s : State) (n : Nat) (x : HUnit) : (s.setUnit n x).goes = s.goes := rfl
@[simp] theorem State.setUnit_port (s : State) (n : Nat) (x : HUnit) : (s.setUnit n x).port = s.port := rfl
@[simp] theorem State.setUnit_response (s : State) (n : Nat) (x : HUnit) : (s.setUnit n x).response = s.response := rfl
@[simp] theorem State.setUnit_assembling (s : State) (n : Nat) (x : HUnit) : (s.setUnit n x).assembling = s.assembling := rfl
@[simp] theorem State.setUnit_packetsOut (s : State) (n : Nat) (x : HUnit) : (s.setUnit n x).packetsOut = s.packetsOut := rfl
@[simp] theorem State.setUnit_agenda (s : State) (n : Nat) (x : HUnit) : (s.setUnit n x).agenda = s.agenda := rfl
@[simp] theorem State.setUnit_sched (s : State) (n : Nat) (x : HUnit) : (s.setUnit n x).sched = s.sched := rfl
@[simp] theorem State.setUnit_cur (s : State) (n : Nat) (x : HUnit) : (s.setUnit n x).cur = s.cur := rfl
@[simp] theorem State.setUnit_fresh (s : State) (n : Nat) (x : HUnit) : (s.setUnit n x).fresh = s.fresh := rfl
@[simp] theorem State.setUnit_steps (s : State) (n : Nat) (x : HUnit) : (s.setUnit n x).steps = s.steps := rfl
@[simp] theorem State.setUnit_stop (s : State) (n : Nat) (x : HUnit) : (s.setUnit n x).stop = s.stop := rfl
@[simp] theorem State.setUnit_losses (s : State) (n : Nat) (x : HUnit) : (s.setUnit n x).losses = s.losses := rfl
@[simp] theorem State.setUnit_glitch (s : State) (n : Nat) (x : HUnit) : (s.setUnit n x).glitch = s.glitch := rfl
@[simp] theorem State.setUnit_evicts (s : State) (n : Nat) (x : HUnit) : (s.setUnit n x).evicts = s.evicts := rfl
@[simp] theorem State.setUnit_refetch (s : State) (n : Nat) (x : HUnit) : (s.setUnit n x).refetch = s.refetch := rfl
@[simp] theorem State.setUnit_eccs (s : State) (n : Nat) (x : HUnit) : (s.setUnit n x).eccs = s.eccs := rfl
@[simp] theorem State.setUnit_fwWrites (s : State) (n : Nat) (x : HUnit) : (s.setUnit n x).fwWrites = s.fwWrites := rfl
@[simp] theorem State.setUnit_packetsIn (s : State) (n : Nat) (x : HUnit) : (s.setUnit n x).packetsIn = s.packetsIn := rfl
@[simp] theorem State.setUnit_clkRem (s : State) (n : Nat) (x : HUnit) : (s.setUnit n x).clkRem = s.clkRem := rfl
@[simp] theorem State.setUnit_timeRem (s : State) (n : Nat) (x : HUnit) : (s.setUnit n x).timeRem = s.timeRem := rfl
@[simp] theorem State.setUnit_nextUid (s : State) (n : Nat) (x : HUnit) : (s.setUnit n x).nextUid = s.nextUid := rfl
@[simp] theorem State.setUnit_nextId (s : State) (n : Nat) (x : HUnit) : (s.setUnit n x).nextId = s.nextId := rfl

/-! ## setLink -/

@[simp] theorem State.setLink_mem (s : State) (n : Nat) (x : Link) : (s.setLink n x).mem = s.mem := rfl
@[simp] theorem State.setLink_cores (s : State) (n : Nat) (x : Link) : (s.setLink n x).cores = s.cores := rfl
@[simp] theorem State.setLink_clusters (s : State) (n : Nat) (x : Link) : (s.setLink n x).clusters = s.clusters := rfl
@[simp] theorem State.setLink_teams (s : State) (n : Nat) (x : Link) : (s.setLink n x).teams = s.teams := rfl
@[simp] theorem State.setLink_kernels (s : State) (n : Nat) (x : Link) : (s.setLink n x).kernels = s.kernels := rfl
@[simp] theorem State.setLink_heirs (s : State) (n : Nat) (x : Link) : (s.setLink n x).heirs = s.heirs := rfl
@[simp] theorem State.setLink_stores (s : State) (n : Nat) (x : Link) : (s.setLink n x).stores = s.stores := rfl
@[simp] theorem State.setLink_ctxs (s : State) (n : Nat) (x : Link) : (s.setLink n x).ctxs = s.ctxs := rfl
@[simp] theorem State.setLink_tlb (s : State) (n : Nat) (x : Link) : (s.setLink n x).tlb = s.tlb := rfl
@[simp] theorem State.setLink_walks (s : State) (n : Nat) (x : Link) : (s.setLink n x).walks = s.walks := rfl
@[simp] theorem State.setLink_invals (s : State) (n : Nat) (x : Link) : (s.setLink n x).invals = s.invals := rfl
@[simp] theorem State.setLink_faulted (s : State) (n : Nat) (x : Link) : (s.setLink n x).faulted = s.faulted := rfl
@[simp] theorem State.setLink_migrations (s : State) (n : Nat) (x : Link) : (s.setLink n x).migrations = s.migrations := rfl
@[simp] theorem State.setLink_xrecs (s : State) (n : Nat) (x : Link) : (s.setLink n x).xrecs = s.xrecs := rfl
@[simp] theorem State.setLink_xseq (s : State) (n : Nat) (x : Link) : (s.setLink n x).xseq = s.xseq := rfl
@[simp] theorem State.setLink_regions (s : State) (n : Nat) (x : Link) : (s.setLink n x).regions = s.regions := rfl
@[simp] theorem State.setLink_newRegions (s : State) (n : Nat) (x : Link) : (s.setLink n x).newRegions = s.newRegions := rfl
@[simp] theorem State.setLink_parts (s : State) (n : Nat) (x : Link) : (s.setLink n x).parts = s.parts := rfl
@[simp] theorem State.setLink_windows (s : State) (n : Nat) (x : Link) : (s.setLink n x).windows = s.windows := rfl
@[simp] theorem State.setLink_aperture (s : State) (n : Nat) (x : Link) : (s.setLink n x).aperture = s.aperture := rfl
@[simp] theorem State.setLink_queues (s : State) (n : Nat) (x : Link) : (s.setLink n x).queues = s.queues := rfl
@[simp] theorem State.setLink_nodes (s : State) (n : Nat) (x : Link) : (s.setLink n x).nodes = s.nodes := rfl
@[simp] theorem State.setLink_ops (s : State) (n : Nat) (x : Link) : (s.setLink n x).ops = s.ops := rfl
@[simp] theorem State.setLink_indexes (s : State) (n : Nat) (x : Link) : (s.setLink n x).indexes = s.indexes := rfl
@[simp] theorem State.setLink_publs (s : State) (n : Nat) (x : Link) : (s.setLink n x).publs = s.publs := rfl
@[simp] theorem State.setLink_searches (s : State) (n : Nat) (x : Link) : (s.setLink n x).searches = s.searches := rfl
@[simp] theorem State.setLink_stamps (s : State) (n : Nat) (x : Link) : (s.setLink n x).stamps = s.stamps := rfl
@[simp] theorem State.setLink_token (s : State) (n : Nat) (x : Link) : (s.setLink n x).token = s.token := rfl
@[simp] theorem State.setLink_solo (s : State) (n : Nat) (x : Link) : (s.setLink n x).solo = s.solo := rfl
@[simp] theorem State.setLink_offers (s : State) (n : Nat) (x : Link) : (s.setLink n x).offers = s.offers := rfl
@[simp] theorem State.setLink_diffs (s : State) (n : Nat) (x : Link) : (s.setLink n x).diffs = s.diffs := rfl
@[simp] theorem State.setLink_landings (s : State) (n : Nat) (x : Link) : (s.setLink n x).landings = s.landings := rfl
@[simp] theorem State.setLink_parked (s : State) (n : Nat) (x : Link) : (s.setLink n x).parked = s.parked := rfl
@[simp] theorem State.setLink_delayed (s : State) (n : Nat) (x : Link) : (s.setLink n x).delayed = s.delayed := rfl
@[simp] theorem State.setLink_badLines (s : State) (n : Nat) (x : Link) : (s.setLink n x).badLines = s.badLines := rfl
@[simp] theorem State.setLink_poison (s : State) (n : Nat) (x : Link) : (s.setLink n x).poison = s.poison := rfl
@[simp] theorem State.setLink_hostData (s : State) (n : Nat) (x : Link) : (s.setLink n x).hostData = s.hostData := rfl
@[simp] theorem State.setLink_rebuilding (s : State) (n : Nat) (x : Link) : (s.setLink n x).rebuilding = s.rebuilding := rfl
@[simp] theorem State.setLink_ncl (s : State) (n : Nat) (x : Link) : (s.setLink n x).ncl = s.ncl := rfl
@[simp] theorem State.setLink_parity (s : State) (n : Nat) (x : Link) : (s.setLink n x).parity = s.parity := rfl
@[simp] theorem State.setLink_paritySeq (s : State) (n : Nat) (x : Link) : (s.setLink n x).paritySeq = s.paritySeq := rfl
@[simp] theorem State.setLink_parityAcks (s : State) (n : Nat) (x : Link) : (s.setLink n x).parityAcks = s.parityAcks := rfl
@[simp] theorem State.setLink_parityIn (s : State) (n : Nat) (x : Link) : (s.setLink n x).parityIn = s.parityIn := rfl
@[simp] theorem State.setLink_banks (s : State) (n : Nat) (x : Link) : (s.setLink n x).banks = s.banks := rfl
@[simp] theorem State.setLink_chainTags (s : State) (n : Nat) (x : Link) : (s.setLink n x).chainTags = s.chainTags := rfl
@[simp] theorem State.setLink_demoted (s : State) (n : Nat) (x : Link) : (s.setLink n x).demoted = s.demoted := rfl
@[simp] theorem State.setLink_hourly (s : State) (n : Nat) (x : Link) : (s.setLink n x).hourly = s.hourly := rfl
@[simp] theorem State.setLink_pairs (s : State) (n : Nat) (x : Link) : (s.setLink n x).pairs = s.pairs := rfl
@[simp] theorem State.setLink_unreachable (s : State) (n : Nat) (x : Link) : (s.setLink n x).unreachable = s.unreachable := rfl
@[simp] theorem State.setLink_merges (s : State) (n : Nat) (x : Link) : (s.setLink n x).merges = s.merges := rfl
@[simp] theorem State.setLink_mergesLost (s : State) (n : Nat) (x : Link) : (s.setLink n x).mergesLost = s.mergesLost := rfl
@[simp] theorem State.setLink_colls (s : State) (n : Nat) (x : Link) : (s.setLink n x).colls = s.colls := rfl
@[simp] theorem State.setLink_units (s : State) (n : Nat) (x : Link) : (s.setLink n x).units = s.units := rfl
@[simp] theorem State.setLink_nvUnits (s : State) (n : Nat) (x : Link) : (s.setLink n x).nvUnits = s.nvUnits := rfl
@[simp] theorem State.setLink_records (s : State) (n : Nat) (x : Link) : (s.setLink n x).records = s.records := rfl
@[simp] theorem State.setLink_overflow (s : State) (n : Nat) (x : Link) : (s.setLink n x).overflow = s.overflow := rfl
@[simp] theorem State.setLink_dump (s : State) (n : Nat) (x : Link) : (s.setLink n x).dump = s.dump := rfl
@[simp] theorem State.setLink_captures (s : State) (n : Nat) (x : Link) : (s.setLink n x).captures = s.captures := rfl
@[simp] theorem State.setLink_rowEvents (s : State) (n : Nat) (x : Link) : (s.setLink n x).rowEvents = s.rowEvents := rfl
@[simp] theorem State.setLink_fwdrop (s : State) (n : Nat) (x : Link) : (s.setLink n x).fwdrop = s.fwdrop := rfl
@[simp] theorem State.setLink_lperiod (s : State) (n : Nat) (x : Link) : (s.setLink n x).lperiod = s.lperiod := rfl
@[simp] theorem State.setLink_disc (s : State) (n : Nat) (x : Link) : (s.setLink n x).disc = s.disc := rfl
@[simp] theorem State.setLink_power (s : State) (n : Nat) (x : Link) : (s.setLink n x).power = s.power := rfl
@[simp] theorem State.setLink_clk (s : State) (n : Nat) (x : Link) : (s.setLink n x).clk = s.clk := rfl
@[simp] theorem State.setLink_sec (s : State) (n : Nat) (x : Link) : (s.setLink n x).sec = s.sec := rfl
@[simp] theorem State.setLink_ns (s : State) (n : Nat) (x : Link) : (s.setLink n x).ns = s.ns := rfl
@[simp] theorem State.setLink_wall (s : State) (n : Nat) (x : Link) : (s.setLink n x).wall = s.wall := rfl
@[simp] theorem State.setLink_goes (s : State) (n : Nat) (x : Link) : (s.setLink n x).goes = s.goes := rfl
@[simp] theorem State.setLink_port (s : State) (n : Nat) (x : Link) : (s.setLink n x).port = s.port := rfl
@[simp] theorem State.setLink_response (s : State) (n : Nat) (x : Link) : (s.setLink n x).response = s.response := rfl
@[simp] theorem State.setLink_assembling (s : State) (n : Nat) (x : Link) : (s.setLink n x).assembling = s.assembling := rfl
@[simp] theorem State.setLink_packetsOut (s : State) (n : Nat) (x : Link) : (s.setLink n x).packetsOut = s.packetsOut := rfl
@[simp] theorem State.setLink_agenda (s : State) (n : Nat) (x : Link) : (s.setLink n x).agenda = s.agenda := rfl
@[simp] theorem State.setLink_sched (s : State) (n : Nat) (x : Link) : (s.setLink n x).sched = s.sched := rfl
@[simp] theorem State.setLink_cur (s : State) (n : Nat) (x : Link) : (s.setLink n x).cur = s.cur := rfl
@[simp] theorem State.setLink_fresh (s : State) (n : Nat) (x : Link) : (s.setLink n x).fresh = s.fresh := rfl
@[simp] theorem State.setLink_steps (s : State) (n : Nat) (x : Link) : (s.setLink n x).steps = s.steps := rfl
@[simp] theorem State.setLink_stop (s : State) (n : Nat) (x : Link) : (s.setLink n x).stop = s.stop := rfl
@[simp] theorem State.setLink_losses (s : State) (n : Nat) (x : Link) : (s.setLink n x).losses = s.losses := rfl
@[simp] theorem State.setLink_glitch (s : State) (n : Nat) (x : Link) : (s.setLink n x).glitch = s.glitch := rfl
@[simp] theorem State.setLink_evicts (s : State) (n : Nat) (x : Link) : (s.setLink n x).evicts = s.evicts := rfl
@[simp] theorem State.setLink_refetch (s : State) (n : Nat) (x : Link) : (s.setLink n x).refetch = s.refetch := rfl
@[simp] theorem State.setLink_eccs (s : State) (n : Nat) (x : Link) : (s.setLink n x).eccs = s.eccs := rfl
@[simp] theorem State.setLink_fwWrites (s : State) (n : Nat) (x : Link) : (s.setLink n x).fwWrites = s.fwWrites := rfl
@[simp] theorem State.setLink_packetsIn (s : State) (n : Nat) (x : Link) : (s.setLink n x).packetsIn = s.packetsIn := rfl
@[simp] theorem State.setLink_clkRem (s : State) (n : Nat) (x : Link) : (s.setLink n x).clkRem = s.clkRem := rfl
@[simp] theorem State.setLink_timeRem (s : State) (n : Nat) (x : Link) : (s.setLink n x).timeRem = s.timeRem := rfl
@[simp] theorem State.setLink_nextUid (s : State) (n : Nat) (x : Link) : (s.setLink n x).nextUid = s.nextUid := rfl
@[simp] theorem State.setLink_nextId (s : State) (n : Nat) (x : Link) : (s.setLink n x).nextId = s.nextId := rfl

/-! ## setIndex -/

@[simp] theorem State.setIndex_mem (s : State) (n : Nat) (x : Index) : (s.setIndex n x).mem = s.mem := rfl
@[simp] theorem State.setIndex_cores (s : State) (n : Nat) (x : Index) : (s.setIndex n x).cores = s.cores := rfl
@[simp] theorem State.setIndex_clusters (s : State) (n : Nat) (x : Index) : (s.setIndex n x).clusters = s.clusters := rfl
@[simp] theorem State.setIndex_teams (s : State) (n : Nat) (x : Index) : (s.setIndex n x).teams = s.teams := rfl
@[simp] theorem State.setIndex_kernels (s : State) (n : Nat) (x : Index) : (s.setIndex n x).kernels = s.kernels := rfl
@[simp] theorem State.setIndex_heirs (s : State) (n : Nat) (x : Index) : (s.setIndex n x).heirs = s.heirs := rfl
@[simp] theorem State.setIndex_stores (s : State) (n : Nat) (x : Index) : (s.setIndex n x).stores = s.stores := rfl
@[simp] theorem State.setIndex_ctxs (s : State) (n : Nat) (x : Index) : (s.setIndex n x).ctxs = s.ctxs := rfl
@[simp] theorem State.setIndex_tlb (s : State) (n : Nat) (x : Index) : (s.setIndex n x).tlb = s.tlb := rfl
@[simp] theorem State.setIndex_walks (s : State) (n : Nat) (x : Index) : (s.setIndex n x).walks = s.walks := rfl
@[simp] theorem State.setIndex_invals (s : State) (n : Nat) (x : Index) : (s.setIndex n x).invals = s.invals := rfl
@[simp] theorem State.setIndex_faulted (s : State) (n : Nat) (x : Index) : (s.setIndex n x).faulted = s.faulted := rfl
@[simp] theorem State.setIndex_migrations (s : State) (n : Nat) (x : Index) : (s.setIndex n x).migrations = s.migrations := rfl
@[simp] theorem State.setIndex_xrecs (s : State) (n : Nat) (x : Index) : (s.setIndex n x).xrecs = s.xrecs := rfl
@[simp] theorem State.setIndex_xseq (s : State) (n : Nat) (x : Index) : (s.setIndex n x).xseq = s.xseq := rfl
@[simp] theorem State.setIndex_regions (s : State) (n : Nat) (x : Index) : (s.setIndex n x).regions = s.regions := rfl
@[simp] theorem State.setIndex_newRegions (s : State) (n : Nat) (x : Index) : (s.setIndex n x).newRegions = s.newRegions := rfl
@[simp] theorem State.setIndex_parts (s : State) (n : Nat) (x : Index) : (s.setIndex n x).parts = s.parts := rfl
@[simp] theorem State.setIndex_windows (s : State) (n : Nat) (x : Index) : (s.setIndex n x).windows = s.windows := rfl
@[simp] theorem State.setIndex_aperture (s : State) (n : Nat) (x : Index) : (s.setIndex n x).aperture = s.aperture := rfl
@[simp] theorem State.setIndex_queues (s : State) (n : Nat) (x : Index) : (s.setIndex n x).queues = s.queues := rfl
@[simp] theorem State.setIndex_nodes (s : State) (n : Nat) (x : Index) : (s.setIndex n x).nodes = s.nodes := rfl
@[simp] theorem State.setIndex_ops (s : State) (n : Nat) (x : Index) : (s.setIndex n x).ops = s.ops := rfl
@[simp] theorem State.setIndex_publs (s : State) (n : Nat) (x : Index) : (s.setIndex n x).publs = s.publs := rfl
@[simp] theorem State.setIndex_searches (s : State) (n : Nat) (x : Index) : (s.setIndex n x).searches = s.searches := rfl
@[simp] theorem State.setIndex_stamps (s : State) (n : Nat) (x : Index) : (s.setIndex n x).stamps = s.stamps := rfl
@[simp] theorem State.setIndex_token (s : State) (n : Nat) (x : Index) : (s.setIndex n x).token = s.token := rfl
@[simp] theorem State.setIndex_solo (s : State) (n : Nat) (x : Index) : (s.setIndex n x).solo = s.solo := rfl
@[simp] theorem State.setIndex_offers (s : State) (n : Nat) (x : Index) : (s.setIndex n x).offers = s.offers := rfl
@[simp] theorem State.setIndex_diffs (s : State) (n : Nat) (x : Index) : (s.setIndex n x).diffs = s.diffs := rfl
@[simp] theorem State.setIndex_landings (s : State) (n : Nat) (x : Index) : (s.setIndex n x).landings = s.landings := rfl
@[simp] theorem State.setIndex_parked (s : State) (n : Nat) (x : Index) : (s.setIndex n x).parked = s.parked := rfl
@[simp] theorem State.setIndex_delayed (s : State) (n : Nat) (x : Index) : (s.setIndex n x).delayed = s.delayed := rfl
@[simp] theorem State.setIndex_badLines (s : State) (n : Nat) (x : Index) : (s.setIndex n x).badLines = s.badLines := rfl
@[simp] theorem State.setIndex_poison (s : State) (n : Nat) (x : Index) : (s.setIndex n x).poison = s.poison := rfl
@[simp] theorem State.setIndex_hostData (s : State) (n : Nat) (x : Index) : (s.setIndex n x).hostData = s.hostData := rfl
@[simp] theorem State.setIndex_rebuilding (s : State) (n : Nat) (x : Index) : (s.setIndex n x).rebuilding = s.rebuilding := rfl
@[simp] theorem State.setIndex_ncl (s : State) (n : Nat) (x : Index) : (s.setIndex n x).ncl = s.ncl := rfl
@[simp] theorem State.setIndex_parity (s : State) (n : Nat) (x : Index) : (s.setIndex n x).parity = s.parity := rfl
@[simp] theorem State.setIndex_paritySeq (s : State) (n : Nat) (x : Index) : (s.setIndex n x).paritySeq = s.paritySeq := rfl
@[simp] theorem State.setIndex_parityAcks (s : State) (n : Nat) (x : Index) : (s.setIndex n x).parityAcks = s.parityAcks := rfl
@[simp] theorem State.setIndex_parityIn (s : State) (n : Nat) (x : Index) : (s.setIndex n x).parityIn = s.parityIn := rfl
@[simp] theorem State.setIndex_banks (s : State) (n : Nat) (x : Index) : (s.setIndex n x).banks = s.banks := rfl
@[simp] theorem State.setIndex_chainTags (s : State) (n : Nat) (x : Index) : (s.setIndex n x).chainTags = s.chainTags := rfl
@[simp] theorem State.setIndex_demoted (s : State) (n : Nat) (x : Index) : (s.setIndex n x).demoted = s.demoted := rfl
@[simp] theorem State.setIndex_hourly (s : State) (n : Nat) (x : Index) : (s.setIndex n x).hourly = s.hourly := rfl
@[simp] theorem State.setIndex_links (s : State) (n : Nat) (x : Index) : (s.setIndex n x).links = s.links := rfl
@[simp] theorem State.setIndex_pairs (s : State) (n : Nat) (x : Index) : (s.setIndex n x).pairs = s.pairs := rfl
@[simp] theorem State.setIndex_unreachable (s : State) (n : Nat) (x : Index) : (s.setIndex n x).unreachable = s.unreachable := rfl
@[simp] theorem State.setIndex_merges (s : State) (n : Nat) (x : Index) : (s.setIndex n x).merges = s.merges := rfl
@[simp] theorem State.setIndex_mergesLost (s : State) (n : Nat) (x : Index) : (s.setIndex n x).mergesLost = s.mergesLost := rfl
@[simp] theorem State.setIndex_colls (s : State) (n : Nat) (x : Index) : (s.setIndex n x).colls = s.colls := rfl
@[simp] theorem State.setIndex_units (s : State) (n : Nat) (x : Index) : (s.setIndex n x).units = s.units := rfl
@[simp] theorem State.setIndex_nvUnits (s : State) (n : Nat) (x : Index) : (s.setIndex n x).nvUnits = s.nvUnits := rfl
@[simp] theorem State.setIndex_records (s : State) (n : Nat) (x : Index) : (s.setIndex n x).records = s.records := rfl
@[simp] theorem State.setIndex_overflow (s : State) (n : Nat) (x : Index) : (s.setIndex n x).overflow = s.overflow := rfl
@[simp] theorem State.setIndex_dump (s : State) (n : Nat) (x : Index) : (s.setIndex n x).dump = s.dump := rfl
@[simp] theorem State.setIndex_captures (s : State) (n : Nat) (x : Index) : (s.setIndex n x).captures = s.captures := rfl
@[simp] theorem State.setIndex_rowEvents (s : State) (n : Nat) (x : Index) : (s.setIndex n x).rowEvents = s.rowEvents := rfl
@[simp] theorem State.setIndex_fwdrop (s : State) (n : Nat) (x : Index) : (s.setIndex n x).fwdrop = s.fwdrop := rfl
@[simp] theorem State.setIndex_lperiod (s : State) (n : Nat) (x : Index) : (s.setIndex n x).lperiod = s.lperiod := rfl
@[simp] theorem State.setIndex_disc (s : State) (n : Nat) (x : Index) : (s.setIndex n x).disc = s.disc := rfl
@[simp] theorem State.setIndex_power (s : State) (n : Nat) (x : Index) : (s.setIndex n x).power = s.power := rfl
@[simp] theorem State.setIndex_clk (s : State) (n : Nat) (x : Index) : (s.setIndex n x).clk = s.clk := rfl
@[simp] theorem State.setIndex_sec (s : State) (n : Nat) (x : Index) : (s.setIndex n x).sec = s.sec := rfl
@[simp] theorem State.setIndex_ns (s : State) (n : Nat) (x : Index) : (s.setIndex n x).ns = s.ns := rfl
@[simp] theorem State.setIndex_wall (s : State) (n : Nat) (x : Index) : (s.setIndex n x).wall = s.wall := rfl
@[simp] theorem State.setIndex_goes (s : State) (n : Nat) (x : Index) : (s.setIndex n x).goes = s.goes := rfl
@[simp] theorem State.setIndex_port (s : State) (n : Nat) (x : Index) : (s.setIndex n x).port = s.port := rfl
@[simp] theorem State.setIndex_response (s : State) (n : Nat) (x : Index) : (s.setIndex n x).response = s.response := rfl
@[simp] theorem State.setIndex_assembling (s : State) (n : Nat) (x : Index) : (s.setIndex n x).assembling = s.assembling := rfl
@[simp] theorem State.setIndex_packetsOut (s : State) (n : Nat) (x : Index) : (s.setIndex n x).packetsOut = s.packetsOut := rfl
@[simp] theorem State.setIndex_agenda (s : State) (n : Nat) (x : Index) : (s.setIndex n x).agenda = s.agenda := rfl
@[simp] theorem State.setIndex_sched (s : State) (n : Nat) (x : Index) : (s.setIndex n x).sched = s.sched := rfl
@[simp] theorem State.setIndex_cur (s : State) (n : Nat) (x : Index) : (s.setIndex n x).cur = s.cur := rfl
@[simp] theorem State.setIndex_fresh (s : State) (n : Nat) (x : Index) : (s.setIndex n x).fresh = s.fresh := rfl
@[simp] theorem State.setIndex_steps (s : State) (n : Nat) (x : Index) : (s.setIndex n x).steps = s.steps := rfl
@[simp] theorem State.setIndex_stop (s : State) (n : Nat) (x : Index) : (s.setIndex n x).stop = s.stop := rfl
@[simp] theorem State.setIndex_losses (s : State) (n : Nat) (x : Index) : (s.setIndex n x).losses = s.losses := rfl
@[simp] theorem State.setIndex_glitch (s : State) (n : Nat) (x : Index) : (s.setIndex n x).glitch = s.glitch := rfl
@[simp] theorem State.setIndex_evicts (s : State) (n : Nat) (x : Index) : (s.setIndex n x).evicts = s.evicts := rfl
@[simp] theorem State.setIndex_refetch (s : State) (n : Nat) (x : Index) : (s.setIndex n x).refetch = s.refetch := rfl
@[simp] theorem State.setIndex_eccs (s : State) (n : Nat) (x : Index) : (s.setIndex n x).eccs = s.eccs := rfl
@[simp] theorem State.setIndex_fwWrites (s : State) (n : Nat) (x : Index) : (s.setIndex n x).fwWrites = s.fwWrites := rfl
@[simp] theorem State.setIndex_packetsIn (s : State) (n : Nat) (x : Index) : (s.setIndex n x).packetsIn = s.packetsIn := rfl
@[simp] theorem State.setIndex_clkRem (s : State) (n : Nat) (x : Index) : (s.setIndex n x).clkRem = s.clkRem := rfl
@[simp] theorem State.setIndex_timeRem (s : State) (n : Nat) (x : Index) : (s.setIndex n x).timeRem = s.timeRem := rfl
@[simp] theorem State.setIndex_nextUid (s : State) (n : Nat) (x : Index) : (s.setIndex n x).nextUid = s.nextUid := rfl
@[simp] theorem State.setIndex_nextId (s : State) (n : Nat) (x : Index) : (s.setIndex n x).nextId = s.nextId := rfl

/-! ## modGroup: it writes cores only -/

@[simp] theorem State.modGroup_mem (s : State) (c slot : Nat) (f : Group → Group) : (s.modGroup c slot f).mem = s.mem := by
  unfold State.modGroup; split <;> rfl
@[simp] theorem State.modGroup_clusters (s : State) (c slot : Nat) (f : Group → Group) : (s.modGroup c slot f).clusters = s.clusters := by
  unfold State.modGroup; split <;> rfl
@[simp] theorem State.modGroup_teams (s : State) (c slot : Nat) (f : Group → Group) : (s.modGroup c slot f).teams = s.teams := by
  unfold State.modGroup; split <;> rfl
@[simp] theorem State.modGroup_kernels (s : State) (c slot : Nat) (f : Group → Group) : (s.modGroup c slot f).kernels = s.kernels := by
  unfold State.modGroup; split <;> rfl
@[simp] theorem State.modGroup_heirs (s : State) (c slot : Nat) (f : Group → Group) : (s.modGroup c slot f).heirs = s.heirs := by
  unfold State.modGroup; split <;> rfl
@[simp] theorem State.modGroup_stores (s : State) (c slot : Nat) (f : Group → Group) : (s.modGroup c slot f).stores = s.stores := by
  unfold State.modGroup; split <;> rfl
@[simp] theorem State.modGroup_ctxs (s : State) (c slot : Nat) (f : Group → Group) : (s.modGroup c slot f).ctxs = s.ctxs := by
  unfold State.modGroup; split <;> rfl
@[simp] theorem State.modGroup_tlb (s : State) (c slot : Nat) (f : Group → Group) : (s.modGroup c slot f).tlb = s.tlb := by
  unfold State.modGroup; split <;> rfl
@[simp] theorem State.modGroup_walks (s : State) (c slot : Nat) (f : Group → Group) : (s.modGroup c slot f).walks = s.walks := by
  unfold State.modGroup; split <;> rfl
@[simp] theorem State.modGroup_invals (s : State) (c slot : Nat) (f : Group → Group) : (s.modGroup c slot f).invals = s.invals := by
  unfold State.modGroup; split <;> rfl
@[simp] theorem State.modGroup_faulted (s : State) (c slot : Nat) (f : Group → Group) : (s.modGroup c slot f).faulted = s.faulted := by
  unfold State.modGroup; split <;> rfl
@[simp] theorem State.modGroup_migrations (s : State) (c slot : Nat) (f : Group → Group) : (s.modGroup c slot f).migrations = s.migrations := by
  unfold State.modGroup; split <;> rfl
@[simp] theorem State.modGroup_xrecs (s : State) (c slot : Nat) (f : Group → Group) : (s.modGroup c slot f).xrecs = s.xrecs := by
  unfold State.modGroup; split <;> rfl
@[simp] theorem State.modGroup_xseq (s : State) (c slot : Nat) (f : Group → Group) : (s.modGroup c slot f).xseq = s.xseq := by
  unfold State.modGroup; split <;> rfl
@[simp] theorem State.modGroup_regions (s : State) (c slot : Nat) (f : Group → Group) : (s.modGroup c slot f).regions = s.regions := by
  unfold State.modGroup; split <;> rfl
@[simp] theorem State.modGroup_newRegions (s : State) (c slot : Nat) (f : Group → Group) : (s.modGroup c slot f).newRegions = s.newRegions := by
  unfold State.modGroup; split <;> rfl
@[simp] theorem State.modGroup_parts (s : State) (c slot : Nat) (f : Group → Group) : (s.modGroup c slot f).parts = s.parts := by
  unfold State.modGroup; split <;> rfl
@[simp] theorem State.modGroup_windows (s : State) (c slot : Nat) (f : Group → Group) : (s.modGroup c slot f).windows = s.windows := by
  unfold State.modGroup; split <;> rfl
@[simp] theorem State.modGroup_aperture (s : State) (c slot : Nat) (f : Group → Group) : (s.modGroup c slot f).aperture = s.aperture := by
  unfold State.modGroup; split <;> rfl
@[simp] theorem State.modGroup_queues (s : State) (c slot : Nat) (f : Group → Group) : (s.modGroup c slot f).queues = s.queues := by
  unfold State.modGroup; split <;> rfl
@[simp] theorem State.modGroup_nodes (s : State) (c slot : Nat) (f : Group → Group) : (s.modGroup c slot f).nodes = s.nodes := by
  unfold State.modGroup; split <;> rfl
@[simp] theorem State.modGroup_ops (s : State) (c slot : Nat) (f : Group → Group) : (s.modGroup c slot f).ops = s.ops := by
  unfold State.modGroup; split <;> rfl
@[simp] theorem State.modGroup_indexes (s : State) (c slot : Nat) (f : Group → Group) : (s.modGroup c slot f).indexes = s.indexes := by
  unfold State.modGroup; split <;> rfl
@[simp] theorem State.modGroup_publs (s : State) (c slot : Nat) (f : Group → Group) : (s.modGroup c slot f).publs = s.publs := by
  unfold State.modGroup; split <;> rfl
@[simp] theorem State.modGroup_searches (s : State) (c slot : Nat) (f : Group → Group) : (s.modGroup c slot f).searches = s.searches := by
  unfold State.modGroup; split <;> rfl
@[simp] theorem State.modGroup_stamps (s : State) (c slot : Nat) (f : Group → Group) : (s.modGroup c slot f).stamps = s.stamps := by
  unfold State.modGroup; split <;> rfl
@[simp] theorem State.modGroup_token (s : State) (c slot : Nat) (f : Group → Group) : (s.modGroup c slot f).token = s.token := by
  unfold State.modGroup; split <;> rfl
@[simp] theorem State.modGroup_solo (s : State) (c slot : Nat) (f : Group → Group) : (s.modGroup c slot f).solo = s.solo := by
  unfold State.modGroup; split <;> rfl
@[simp] theorem State.modGroup_offers (s : State) (c slot : Nat) (f : Group → Group) : (s.modGroup c slot f).offers = s.offers := by
  unfold State.modGroup; split <;> rfl
@[simp] theorem State.modGroup_diffs (s : State) (c slot : Nat) (f : Group → Group) : (s.modGroup c slot f).diffs = s.diffs := by
  unfold State.modGroup; split <;> rfl
@[simp] theorem State.modGroup_landings (s : State) (c slot : Nat) (f : Group → Group) : (s.modGroup c slot f).landings = s.landings := by
  unfold State.modGroup; split <;> rfl
@[simp] theorem State.modGroup_parked (s : State) (c slot : Nat) (f : Group → Group) : (s.modGroup c slot f).parked = s.parked := by
  unfold State.modGroup; split <;> rfl
@[simp] theorem State.modGroup_delayed (s : State) (c slot : Nat) (f : Group → Group) : (s.modGroup c slot f).delayed = s.delayed := by
  unfold State.modGroup; split <;> rfl
@[simp] theorem State.modGroup_badLines (s : State) (c slot : Nat) (f : Group → Group) : (s.modGroup c slot f).badLines = s.badLines := by
  unfold State.modGroup; split <;> rfl
@[simp] theorem State.modGroup_poison (s : State) (c slot : Nat) (f : Group → Group) : (s.modGroup c slot f).poison = s.poison := by
  unfold State.modGroup; split <;> rfl
@[simp] theorem State.modGroup_hostData (s : State) (c slot : Nat) (f : Group → Group) : (s.modGroup c slot f).hostData = s.hostData := by
  unfold State.modGroup; split <;> rfl
@[simp] theorem State.modGroup_rebuilding (s : State) (c slot : Nat) (f : Group → Group) : (s.modGroup c slot f).rebuilding = s.rebuilding := by
  unfold State.modGroup; split <;> rfl
@[simp] theorem State.modGroup_ncl (s : State) (c slot : Nat) (f : Group → Group) : (s.modGroup c slot f).ncl = s.ncl := by
  unfold State.modGroup; split <;> rfl
@[simp] theorem State.modGroup_parity (s : State) (c slot : Nat) (f : Group → Group) : (s.modGroup c slot f).parity = s.parity := by
  unfold State.modGroup; split <;> rfl
@[simp] theorem State.modGroup_paritySeq (s : State) (c slot : Nat) (f : Group → Group) : (s.modGroup c slot f).paritySeq = s.paritySeq := by
  unfold State.modGroup; split <;> rfl
@[simp] theorem State.modGroup_parityAcks (s : State) (c slot : Nat) (f : Group → Group) : (s.modGroup c slot f).parityAcks = s.parityAcks := by
  unfold State.modGroup; split <;> rfl
@[simp] theorem State.modGroup_parityIn (s : State) (c slot : Nat) (f : Group → Group) : (s.modGroup c slot f).parityIn = s.parityIn := by
  unfold State.modGroup; split <;> rfl
@[simp] theorem State.modGroup_banks (s : State) (c slot : Nat) (f : Group → Group) : (s.modGroup c slot f).banks = s.banks := by
  unfold State.modGroup; split <;> rfl
@[simp] theorem State.modGroup_chainTags (s : State) (c slot : Nat) (f : Group → Group) : (s.modGroup c slot f).chainTags = s.chainTags := by
  unfold State.modGroup; split <;> rfl
@[simp] theorem State.modGroup_demoted (s : State) (c slot : Nat) (f : Group → Group) : (s.modGroup c slot f).demoted = s.demoted := by
  unfold State.modGroup; split <;> rfl
@[simp] theorem State.modGroup_hourly (s : State) (c slot : Nat) (f : Group → Group) : (s.modGroup c slot f).hourly = s.hourly := by
  unfold State.modGroup; split <;> rfl
@[simp] theorem State.modGroup_links (s : State) (c slot : Nat) (f : Group → Group) : (s.modGroup c slot f).links = s.links := by
  unfold State.modGroup; split <;> rfl
@[simp] theorem State.modGroup_pairs (s : State) (c slot : Nat) (f : Group → Group) : (s.modGroup c slot f).pairs = s.pairs := by
  unfold State.modGroup; split <;> rfl
@[simp] theorem State.modGroup_unreachable (s : State) (c slot : Nat) (f : Group → Group) : (s.modGroup c slot f).unreachable = s.unreachable := by
  unfold State.modGroup; split <;> rfl
@[simp] theorem State.modGroup_merges (s : State) (c slot : Nat) (f : Group → Group) : (s.modGroup c slot f).merges = s.merges := by
  unfold State.modGroup; split <;> rfl
@[simp] theorem State.modGroup_mergesLost (s : State) (c slot : Nat) (f : Group → Group) : (s.modGroup c slot f).mergesLost = s.mergesLost := by
  unfold State.modGroup; split <;> rfl
@[simp] theorem State.modGroup_colls (s : State) (c slot : Nat) (f : Group → Group) : (s.modGroup c slot f).colls = s.colls := by
  unfold State.modGroup; split <;> rfl
@[simp] theorem State.modGroup_units (s : State) (c slot : Nat) (f : Group → Group) : (s.modGroup c slot f).units = s.units := by
  unfold State.modGroup; split <;> rfl
@[simp] theorem State.modGroup_nvUnits (s : State) (c slot : Nat) (f : Group → Group) : (s.modGroup c slot f).nvUnits = s.nvUnits := by
  unfold State.modGroup; split <;> rfl
@[simp] theorem State.modGroup_records (s : State) (c slot : Nat) (f : Group → Group) : (s.modGroup c slot f).records = s.records := by
  unfold State.modGroup; split <;> rfl
@[simp] theorem State.modGroup_overflow (s : State) (c slot : Nat) (f : Group → Group) : (s.modGroup c slot f).overflow = s.overflow := by
  unfold State.modGroup; split <;> rfl
@[simp] theorem State.modGroup_dump (s : State) (c slot : Nat) (f : Group → Group) : (s.modGroup c slot f).dump = s.dump := by
  unfold State.modGroup; split <;> rfl
@[simp] theorem State.modGroup_captures (s : State) (c slot : Nat) (f : Group → Group) : (s.modGroup c slot f).captures = s.captures := by
  unfold State.modGroup; split <;> rfl
@[simp] theorem State.modGroup_rowEvents (s : State) (c slot : Nat) (f : Group → Group) : (s.modGroup c slot f).rowEvents = s.rowEvents := by
  unfold State.modGroup; split <;> rfl
@[simp] theorem State.modGroup_fwdrop (s : State) (c slot : Nat) (f : Group → Group) : (s.modGroup c slot f).fwdrop = s.fwdrop := by
  unfold State.modGroup; split <;> rfl
@[simp] theorem State.modGroup_lperiod (s : State) (c slot : Nat) (f : Group → Group) : (s.modGroup c slot f).lperiod = s.lperiod := by
  unfold State.modGroup; split <;> rfl
@[simp] theorem State.modGroup_disc (s : State) (c slot : Nat) (f : Group → Group) : (s.modGroup c slot f).disc = s.disc := by
  unfold State.modGroup; split <;> rfl
@[simp] theorem State.modGroup_power (s : State) (c slot : Nat) (f : Group → Group) : (s.modGroup c slot f).power = s.power := by
  unfold State.modGroup; split <;> rfl
@[simp] theorem State.modGroup_clk (s : State) (c slot : Nat) (f : Group → Group) : (s.modGroup c slot f).clk = s.clk := by
  unfold State.modGroup; split <;> rfl
@[simp] theorem State.modGroup_sec (s : State) (c slot : Nat) (f : Group → Group) : (s.modGroup c slot f).sec = s.sec := by
  unfold State.modGroup; split <;> rfl
@[simp] theorem State.modGroup_ns (s : State) (c slot : Nat) (f : Group → Group) : (s.modGroup c slot f).ns = s.ns := by
  unfold State.modGroup; split <;> rfl
@[simp] theorem State.modGroup_wall (s : State) (c slot : Nat) (f : Group → Group) : (s.modGroup c slot f).wall = s.wall := by
  unfold State.modGroup; split <;> rfl
@[simp] theorem State.modGroup_goes (s : State) (c slot : Nat) (f : Group → Group) : (s.modGroup c slot f).goes = s.goes := by
  unfold State.modGroup; split <;> rfl
@[simp] theorem State.modGroup_port (s : State) (c slot : Nat) (f : Group → Group) : (s.modGroup c slot f).port = s.port := by
  unfold State.modGroup; split <;> rfl
@[simp] theorem State.modGroup_response (s : State) (c slot : Nat) (f : Group → Group) : (s.modGroup c slot f).response = s.response := by
  unfold State.modGroup; split <;> rfl
@[simp] theorem State.modGroup_assembling (s : State) (c slot : Nat) (f : Group → Group) : (s.modGroup c slot f).assembling = s.assembling := by
  unfold State.modGroup; split <;> rfl
@[simp] theorem State.modGroup_packetsOut (s : State) (c slot : Nat) (f : Group → Group) : (s.modGroup c slot f).packetsOut = s.packetsOut := by
  unfold State.modGroup; split <;> rfl
@[simp] theorem State.modGroup_agenda (s : State) (c slot : Nat) (f : Group → Group) : (s.modGroup c slot f).agenda = s.agenda := by
  unfold State.modGroup; split <;> rfl
@[simp] theorem State.modGroup_sched (s : State) (c slot : Nat) (f : Group → Group) : (s.modGroup c slot f).sched = s.sched := by
  unfold State.modGroup; split <;> rfl
@[simp] theorem State.modGroup_cur (s : State) (c slot : Nat) (f : Group → Group) : (s.modGroup c slot f).cur = s.cur := by
  unfold State.modGroup; split <;> rfl
@[simp] theorem State.modGroup_fresh (s : State) (c slot : Nat) (f : Group → Group) : (s.modGroup c slot f).fresh = s.fresh := by
  unfold State.modGroup; split <;> rfl
@[simp] theorem State.modGroup_steps (s : State) (c slot : Nat) (f : Group → Group) : (s.modGroup c slot f).steps = s.steps := by
  unfold State.modGroup; split <;> rfl
@[simp] theorem State.modGroup_stop (s : State) (c slot : Nat) (f : Group → Group) : (s.modGroup c slot f).stop = s.stop := by
  unfold State.modGroup; split <;> rfl
@[simp] theorem State.modGroup_losses (s : State) (c slot : Nat) (f : Group → Group) : (s.modGroup c slot f).losses = s.losses := by
  unfold State.modGroup; split <;> rfl
@[simp] theorem State.modGroup_glitch (s : State) (c slot : Nat) (f : Group → Group) : (s.modGroup c slot f).glitch = s.glitch := by
  unfold State.modGroup; split <;> rfl
@[simp] theorem State.modGroup_evicts (s : State) (c slot : Nat) (f : Group → Group) : (s.modGroup c slot f).evicts = s.evicts := by
  unfold State.modGroup; split <;> rfl
@[simp] theorem State.modGroup_refetch (s : State) (c slot : Nat) (f : Group → Group) : (s.modGroup c slot f).refetch = s.refetch := by
  unfold State.modGroup; split <;> rfl
@[simp] theorem State.modGroup_eccs (s : State) (c slot : Nat) (f : Group → Group) : (s.modGroup c slot f).eccs = s.eccs := by
  unfold State.modGroup; split <;> rfl
@[simp] theorem State.modGroup_fwWrites (s : State) (c slot : Nat) (f : Group → Group) : (s.modGroup c slot f).fwWrites = s.fwWrites := by
  unfold State.modGroup; split <;> rfl
@[simp] theorem State.modGroup_packetsIn (s : State) (c slot : Nat) (f : Group → Group) : (s.modGroup c slot f).packetsIn = s.packetsIn := by
  unfold State.modGroup; split <;> rfl
@[simp] theorem State.modGroup_clkRem (s : State) (c slot : Nat) (f : Group → Group) : (s.modGroup c slot f).clkRem = s.clkRem := by
  unfold State.modGroup; split <;> rfl
@[simp] theorem State.modGroup_timeRem (s : State) (c slot : Nat) (f : Group → Group) : (s.modGroup c slot f).timeRem = s.timeRem := by
  unfold State.modGroup; split <;> rfl
@[simp] theorem State.modGroup_nextUid (s : State) (c slot : Nat) (f : Group → Group) : (s.modGroup c slot f).nextUid = s.nextUid := by
  unfold State.modGroup; split <;> rfl
@[simp] theorem State.modGroup_nextId (s : State) (c slot : Nat) (f : Group → Group) : (s.modGroup c slot f).nextId = s.nextId := by
  unfold State.modGroup; split <;> rfl

/-! ## What the updates write -/

@[simp] theorem State.due_agenda (s : State) (es : List Instr) : (s.due es).agenda = s.agenda ++ es := rfl
@[simp] theorem State.setCore_cores (s : State) (c : Nat) (k : Core) : (s.setCore c k).cores = s.cores.set c k := rfl
@[simp] theorem State.setCtx_ctxs (s : State) (c : Nat) (x : Ctx) : (s.setCtx c x).ctxs = s.ctxs.set c x := rfl
@[simp] theorem State.setOp_ops (s : State) (n : Nat) (x : Op) : (s.setOp n x).ops = s.ops.set n x := rfl
@[simp] theorem State.setQueue_queues (s : State) (n : Nat) (x : Queue) : (s.setQueue n x).queues = s.queues.set n x := rfl
@[simp] theorem State.setWindow_windows (s : State) (n : Nat) (x : Window) : (s.setWindow n x).windows = s.windows.set n x := rfl
@[simp] theorem State.setKernel_kernels (s : State) (n : Nat) (x : Kernel) : (s.setKernel n x).kernels = s.kernels.set n x := rfl
@[simp] theorem State.setUnit_units (s : State) (n : Nat) (x : HUnit) : (s.setUnit n x).units = s.units.set n x := rfl
@[simp] theorem State.setLink_links (s : State) (n : Nat) (x : Link) : (s.setLink n x).links = s.links.set n x := rfl
@[simp] theorem State.setIndex_indexes (s : State) (n : Nat) (x : Index) : (s.setIndex n x).indexes = s.indexes.set n x := rfl

end Sys2Proof.Machine
end

