-- ==== Sys2Proof/Laws/Ops.lean ====
section
/-! SUPPORT. What the shared operations over cores, Groups, Chunks, Teams and Kernels can do to the device around them: each keeps memory,
the configuration, the windows, the Queues and the times as they are, and every pool in canonical form. -/

-- One declaration at a time, so that the package as one text compiles in bounded memory.
set_option Elab.async false

namespace Sys2Proof.Machine

/-- The device around the cores is the same in both states, and pools stay canonical. -/
structure Keeps (s t : State) : Prop where
  mem : t.mem = s.mem
  regions : t.regions = s.regions
  newRegions : t.newRegions = s.newRegions
  parts : t.parts = s.parts
  power : t.power = s.power
  windows : t.windows = s.windows
  queues : t.queues = s.queues
  indexes : t.indexes = s.indexes
  links : t.links = s.links
  colls : t.colls = s.colls
  records : t.records = s.records
  disc : t.disc = s.disc
  lperiod : t.lperiod = s.lperiod
  sec : t.sec = s.sec
  ns : t.ns = s.ns
  pools : s.PoolsCanonical → t.PoolsCanonical

theorem Keeps.refl (s : State) : Keeps s s := ⟨rfl, rfl, rfl, rfl, rfl, rfl, rfl, rfl, rfl, rfl, rfl, rfl, rfl, rfl, rfl, id⟩

theorem Keeps.trans {s t u : State} (h : Keeps s t) (k : Keeps t u) : Keeps s u :=
  ⟨k.mem.trans h.mem, k.regions.trans h.regions, k.newRegions.trans h.newRegions, k.parts.trans h.parts, k.power.trans h.power,
    k.windows.trans h.windows, k.queues.trans h.queues, k.indexes.trans h.indexes, k.links.trans h.links, k.colls.trans h.colls,
    k.records.trans h.records, k.disc.trans h.disc, k.lperiod.trans h.lperiod, k.sec.trans h.sec, k.ns.trans h.ns,
    fun p => k.pools (h.pools p)⟩

/-- A state that keeps the device keeps its invariant. -/
theorem Keeps.inv {s t : State} (h : Keeps s t) (hi : s.Inv) : t.Inv := by
  obtain ⟨h1, h2, h3, h4, h5⟩ := hi
  refine ⟨?_, ?_, ?_, ?_, ?_⟩
  · simpa only [State.MemCanonical, h.mem] using h1
  · simpa only [State.CapsLegal, h.power] using h2
  · simpa only [State.MapLegal, h.regions, h.newRegions] using h3
  · simpa only [State.PartsLegal, h.parts] using h4
  · simpa only [State.StoreLegal, h.records, h.lperiod] using h5

/-- Same cores and same device: only other fields differ. -/
theorem Keeps.of_cores {s t : State} (h1 : t.mem = s.mem) (h2 : t.regions = s.regions) (h3 : t.newRegions = s.newRegions)
    (h4 : t.parts = s.parts) (h5 : t.power = s.power) (h6 : t.windows = s.windows) (h7 : t.queues = s.queues)
    (h8 : t.indexes = s.indexes) (h9 : t.links = s.links) (h10 : t.colls = s.colls) (h11 : t.records = s.records) (h12 : t.disc = s.disc)
    (h13 : t.lperiod = s.lperiod) (h14 : t.sec = s.sec) (h15 : t.ns = s.ns) (h16 : t.cores = s.cores) : Keeps s t :=
  ⟨h1, h2, h3, h4, h5, h6, h7, h8, h9, h10, h11, h12, h13, h14, h15, fun h => by simpa only [State.PoolsCanonical, h16] using h⟩

theorem Keeps.foldl {α : Type} {f : State → α → State} (hf : ∀ s a, Keeps s (f s a)) (xs : List α) :
    ∀ s : State, Keeps s (xs.foldl f s) := by
  induction xs with
  | nil => exact Keeps.refl
  | cons a xs ih => exact fun s => (hf s a).trans (ih _)

/-! ## Cores and pools -/

theorem Tab.mem_set {α : Type} {t : Tab α} {k : Nat} {v : α} {e : Nat × α} (h : e ∈ t.set k v) : e ∈ t ∨ e = (k, v) := by
  induction t with
  | nil => simpa [Tab.set] using h
  | cons x xs ih =>
    obtain ⟨j, w⟩ := x
    simp only [Tab.set] at h
    split at h
    · simp only [List.mem_cons] at h ⊢
      rcases h with h | h | h <;> simp [h]
    · split at h
      · simp only [List.mem_cons] at h ⊢
        rcases h with h | h <;> simp [h]
      · simp only [List.mem_cons] at h ⊢
        rcases h with h | h
        · simp [h]
        · rcases ih h with h | h <;> simp [h]

theorem Tab.mem_of_get? {α : Type} {t : Tab α} {k : Nat} {v : α} (h : t.get? k = some v) : (k, v) ∈ t := by
  induction t with
  | nil => simp at h
  | cons x xs ih =>
    obtain ⟨j, w⟩ := x
    simp only [Tab.get?] at h
    split at h
    · next e => subst e; simp only [Option.some.injEq] at h; subst h; exact List.mem_cons_self ..
    · exact List.mem_cons_of_mem _ (ih h)

/-- The pool of every core, listed or not, is canonical. -/
theorem State.PoolsCanonical.core {s : State} (h : s.PoolsCanonical) (c : Nat) : Memory.wf (s.core c).pool = true := by
  unfold State.core Tab.getD
  cases e : s.cores.get? c with
  | none => rfl
  | some k => exact h _ (Tab.mem_of_get? e)

/-- A core with a canonical pool takes the place of another. -/
theorem Keeps.setCore (s : State) (c : Nat) (k : Core) (h : s.PoolsCanonical → Memory.wf k.pool = true) : Keeps s (s.setCore c k) :=
  ⟨rfl, rfl, rfl, rfl, rfl, rfl, rfl, rfl, rfl, rfl, rfl, rfl, rfl, rfl, rfl, fun hp e he => by
    rcases Tab.mem_set he with he | rfl
    · exact hp e he
    · exact h hp⟩

/-- A core changed in anything but its pool. -/
theorem Keeps.setCore_same (s : State) (c : Nat) (k : Core) (h : k.pool = (s.core c).pool) : Keeps s (s.setCore c k) :=
  Keeps.setCore s c k (fun hp => h ▸ hp.core c)

/-- Every core changed in anything but its pool. -/
theorem Keeps.mapCores (s : State) (f : Nat × Core → Nat × Core) (h : ∀ e, (f e).2.pool = e.2.pool) :
    Keeps s { s with cores := s.cores.map f } :=
  ⟨rfl, rfl, rfl, rfl, rfl, rfl, rfl, rfl, rfl, rfl, rfl, rfl, rfl, rfl, rfl, fun hp e he => by
    obtain ⟨x, hx, rfl⟩ := List.mem_map.1 he
    exact (h x).symm ▸ hp x hx⟩

theorem Keeps.setGroup (s : State) (c slot : Nat) (g : Group) : Keeps s (s.setGroup c slot g) := Keeps.setCore_same s c _ rfl

theorem Keeps.modGroup (s : State) (c slot : Nat) (f : Group → Group) : Keeps s (s.modGroup c slot f) := by
  unfold State.modGroup
  split
  · exact Keeps.setGroup ..
  · exact Keeps.refl s

theorem Keeps.due (s : State) (es : List Instr) : Keeps s (s.due es) :=
  Keeps.of_cores rfl rfl rfl rfl rfl rfl rfl rfl rfl rfl rfl rfl rfl rfl rfl rfl

theorem Keeps.poolPut (s : State) (c a : Nat) (bs : List Byte) : Keeps s (s.poolPut c a bs) :=
  Keeps.setCore s c _ (fun h => Memory.put_wf bs a (h.core c))

theorem Keeps.poolPut32 (s : State) (c a x : Nat) : Keeps s (s.poolPut32 c a x) := Keeps.poolPut ..

theorem Keeps.setSpecial (s : State) (c slot off x : Nat) : Keeps s (s.setSpecial c slot off x) := Keeps.poolPut ..

theorem Keeps.poolLogged (s : State) (c slot core a : Nat) (bs : List Byte) : Keeps s (s.poolLogged c slot core a bs) := by
  unfold State.poolLogged
  split
  · exact (Keeps.setGroup ..).trans (Keeps.poolPut ..)
  · exact Keeps.poolPut ..

theorem Keeps.restoreUndo (s : State) (u : List Undo) : Keeps s (s.restoreUndo u) := Keeps.foldl (fun _ _ => Keeps.poolPut ..) _ s

/-! ## Chunks -/

theorem Keeps.openChunk (s : State) (c slot : Nat) : Keeps s (s.openChunk c slot) := by
  unfold State.openChunk
  split
  · exact Keeps.setGroup ..
  · exact Keeps.refl s

theorem Keeps.endChunk (s : State) (c slot : Nat) (a : After) : Keeps s (s.endChunk c slot a) := by
  unfold State.endChunk
  split
  · exact (Keeps.setGroup ..).trans (Keeps.due ..)
  · exact Keeps.refl s

theorem Keeps.trapAt (s : State) (c slot cause val pc : Nat) (lanes : List Nat) : Keeps s (s.trapAt c slot cause val pc lanes) :=
  Keeps.endChunk ..

theorem Keeps.restoreTiles (s : State) (c : Nat) (ts : List Nat) : Keeps s (s.restoreTiles c ts) :=
  Keeps.foldl (fun s _ => Keeps.setCore s c _ (fun h => Memory.paste_wf _ _ (h.core c) (Memory.slice_wf _ _ (h.core c)))) ts s

theorem Keeps.dropChunk (s : State) (c slot : Nat) (g : Group) : Keeps s (s.dropChunk c slot g) := by
  refine (Keeps.setCore_same s c ((s.core c).dropMmas slot g.uid) rfl).trans ?_
  exact Keeps.of_cores rfl rfl rfl rfl rfl rfl rfl rfl rfl rfl rfl rfl rfl rfl rfl rfl

theorem Keeps.undoChunk (s : State) (c slot : Nat) : Keeps s (s.undoChunk c slot) := by
  unfold State.undoChunk
  split
  · exact ((((Keeps.dropChunk ..).trans (Keeps.restoreUndo ..)).trans (Keeps.restoreTiles ..)).trans (Keeps.poolPut ..)).trans
      (Keeps.modGroup ..)
  · exact Keeps.refl s

theorem Keeps.ite {p : Prop} [Decidable p] {s t u : State} (ht : Keeps s t) (hu : Keeps s u) : Keeps s (if p then t else u) := by
  split
  · exact ht
  · exact hu

theorem Keeps.squash (s : State) (c slot : Nat) (conflict : Bool) : Keeps s (s.squash c slot conflict) := by
  unfold State.squash
  split
  · have h1 := Keeps.undoChunk s c slot
    refine Keeps.ite (Keeps.trans ?_ (Keeps.due ..)) ?_ <;>
    · refine Keeps.trans (Keeps.trans ?_ (Keeps.setSpecial ..)) (Keeps.modGroup ..)
      exact Keeps.ite (h1.trans (Keeps.setCore_same _ _ _ rfl)) h1
  · exact Keeps.refl s

theorem Keeps.squashOut (s : State) (c slot : Nat) : Keeps s (s.squashOut c slot) := by
  unfold State.squashOut
  split
  · refine (Keeps.squash s c slot false).trans (Keeps.foldl (fun _ _ => ?_) _ _)
    exact Keeps.of_cores rfl rfl rfl rfl rfl rfl rfl rfl rfl rfl rfl rfl rfl rfl rfl rfl
  · exact Keeps.refl s

/-- A packet is kept, and is to be sent. -/
theorem Keeps.sendPacket (s : State) (src dst payload : Nat) : Keeps s (s.sendPacket src dst payload) :=
  Keeps.of_cores rfl rfl rfl rfl rfl rfl rfl rfl rfl rfl rfl rfl rfl rfl rfl rfl

theorem Keeps.sendAcross (s : State) (src tag : Nat) (pas : List Nat) : Keeps s (s.sendAcross src tag pas) :=
  Keeps.foldl (fun s e => Keeps.sendPacket s src e tag) _ _

/-- Packets to endpoints change what the pairs hold, and add to what is due. -/
theorem sendPackets_only {α : Type} (dst payload : α → Nat) (src : Nat) (es : List α) (s : State) :
    ∃ ps ag, es.foldl (fun s e => s.sendPacket src (dst e) (payload e)) s = { s with pairs := ps, agenda := s.agenda ++ ag } := by
  induction es generalizing s with
  | nil => exact ⟨s.pairs, [], by simp⟩
  | cons e r ih =>
    obtain ⟨ps, ag, h⟩ := ih (s.sendPacket src (dst e) (payload e))
    refine ⟨ps, .resendTimeout src (dst e) (s.pair src (dst e)).next :: ag, h.trans ?_⟩
    simp only [State.sendPacket, State.due, State.setPair, List.append_assoc, List.singleton_append]

/-- What packets leave as it is beside what Keeps says: stamps, differences, cores. -/
theorem sendAcross_only (s : State) (src tag : Nat) (pas : List Nat) :
    ∃ ps ag, s.sendAcross src tag pas = { s with pairs := ps, agenda := s.agenda ++ ag } := by
  unfold State.sendAcross
  generalize unionNat [] _ = es
  exact sendPackets_only (fun e => e) (fun _ => tag) src es s

/-- A committed unit waits as a difference; memory is as it was. -/
theorem Keeps.commitItems (s : State) (part die : Nat) (items : List BufItem) (owner op : Option Nat) (cluster : Option (Nat × Nat)) :
    Keeps s (s.commitItems part die items owner op cluster) := by
  unfold State.commitItems
  dsimp only
  obtain ⟨ps, ag, h⟩ := sendAcross_only s (s.unitEnd die owner op cluster) (diffTag part (s.stamps.getD part 1)) (itemAddrs s.regions items)
  rw [h]
  obtain ⟨qs, ah, k⟩ := sendPackets_only (fun c => c) (fun _ => castTag part (s.stamps.getD part 1)) (s.unitEnd die owner op cluster)
    ((s.coresOf part).filter (fun c => dieOf c != endDie (s.unitEnd die owner op cluster))) { s with pairs := ps, agenda := s.agenda ++ ag }
  rw [k]
  refine ⟨rfl, rfl, rfl, rfl, rfl, rfl, rfl, rfl, rfl, rfl, rfl, rfl, rfl, rfl, rfl, fun hp e he => ?_⟩
  obtain ⟨x, hx, rfl⟩ := List.mem_map.1 he
  split <;> exact hp x hx

/-- A unit of the device's controllers takes its stamp, or waits for it; memory is as it was. -/
theorem Keeps.deviceUnit (s : State) (part : Nat) (items : List BufItem) (op : Option Nat) : Keeps s (s.deviceUnit part items op) :=
  Keeps.ite (Keeps.commitItems ..) (Keeps.of_cores rfl rfl rfl rfl rfl rfl rfl rfl rfl rfl rfl rfl rfl rfl rfl rfl)

/-! ## Teams, Gangs and Kernels -/

theorem Keeps.freeRings (s : State) : Keeps s s.freeRings :=
  Keeps.mapCores s (fun e => (e.1, { e.2 with rings := e.2.rings.filter (fun r => s.ringUsed r.1 e.1) })) (fun _ => rfl)

theorem Keeps.pruneHeirs (s : State) : Keeps s s.pruneHeirs :=
  Keeps.trans (t := { s with heirs := s.heirs.filter s.heirNeeded })
    (Keeps.of_cores rfl rfl rfl rfl rfl rfl rfl rfl rfl rfl rfl rfl rfl rfl rfl rfl) (Keeps.freeRings _)

theorem Keeps.leaveRings (s : State) (x : Team) : Keeps s (s.leaveRings x) := by
  unfold State.leaveRings
  split
  · refine Keeps.ite (Keeps.refl s) ?_
    exact Keeps.of_cores rfl rfl rfl rfl rfl rfl rfl rfl rfl rfl rfl rfl rfl rfl rfl rfl
  · exact Keeps.refl s

theorem Keeps.setTeams (s : State) (x : Tab Team) : Keeps s { s with teams := x } :=
  Keeps.of_cores rfl rfl rfl rfl rfl rfl rfl rfl rfl rfl rfl rfl rfl rfl rfl rfl

theorem Keeps.releaseTeam (s : State) (t : Nat) : Keeps s (s.releaseTeam t) := by
  unfold State.releaseTeam
  split
  · next x _ =>
    dsimp only
    exact (((Keeps.setCore_same _ _ _ (by rfl)).trans (Keeps.setTeams ..)).trans (Keeps.leaveRings ..)).trans (Keeps.pruneHeirs _)
  · exact Keeps.refl s

theorem Keeps.emptyCore (s : State) (c : Nat) : Keeps s (s.emptyCore c) := by
  refine Keeps.trans (t := { s with landings := s.landings.filter (fun l => !l.2.entersCore c) }) ?_ (Keeps.setCore_same _ _ _ rfl)
  exact Keeps.of_cores rfl rfl rfl rfl rfl rfl rfl rfl rfl rfl rfl rfl rfl rfl rfl rfl

theorem Keeps.setStores (s : State) (x : Tab ContStore) : Keeps s { s with stores := x } :=
  Keeps.of_cores rfl rfl rfl rfl rfl rfl rfl rfl rfl rfl rfl rfl rfl rfl rfl rfl

theorem Keeps.setKernels (s : State) (x : Tab Kernel) : Keeps s { s with kernels := x } :=
  Keeps.of_cores rfl rfl rfl rfl rfl rfl rfl rfl rfl rfl rfl rfl rfl rfl rfl rfl

/-- The images of a Gang leave their cores. -/
theorem Keeps.images (is : List Image) (s : State) : Keeps s (is.foldl (fun s i =>
    if i.state = .saved then s
    else ((s.core i.core).groups.foldl (fun s e => s.dropChunk i.core e.1 e.2) s).emptyCore i.core) s) := by
  refine Keeps.foldl (fun t i => ?_) is s
  split
  · exact Keeps.refl t
  · exact (Keeps.foldl (fun _ _ => Keeps.dropChunk ..) _ t).trans (Keeps.emptyCore ..)

theorem Keeps.discardGang (s : State) (kid gid : Nat) (again : Bool) : Keeps s (s.discardGang kid gid again) := by
  unfold State.discardGang
  split
  · split
    · next k _ _ g _ =>
      dsimp only
      have h0 (ts : List Nat) : Keeps s (ts.foldl (fun s t => { s with teams := s.teams.erase t }) s) :=
        Keeps.foldl (fun _ _ => Keeps.setTeams ..) ts s
      have h1 (ts : List Nat) := (h0 ts).trans (Keeps.images g.images _)
      exact Keeps.trans (Keeps.ite (h1 _) ((h1 _).trans (Keeps.setStores ..))) (Keeps.setKernels ..)
    · exact Keeps.refl s
  · exact Keeps.refl s

theorem Keeps.discardKernel (s : State) (kid : Nat) : Keeps s (s.discardKernel kid) := by
  unfold State.discardKernel
  split
  · exact Keeps.foldl (fun _ _ => Keeps.discardGang ..) _ s
  · exact Keeps.refl s

theorem Keeps.setCtx (s : State) (c : Nat) (x : Ctx) : Keeps s (s.setCtx c x) :=
  Keeps.of_cores rfl rfl rfl rfl rfl rfl rfl rfl rfl rfl rfl rfl rfl rfl rfl rfl

theorem Keeps.settleSuspend (s : State) (ctx : Nat) : Keeps s (s.settleSuspend ctx) :=
  Keeps.ite (Keeps.setCtx ..) (Keeps.refl s)

theorem Keeps.touch (s : State) (pa : Nat) : Keeps s (s.touch pa) := by
  unfold State.touch
  refine Keeps.ite (Keeps.refl s) ?_
  exact Keeps.of_cores rfl rfl rfl rfl rfl rfl rfl rfl rfl rfl rfl rfl rfl rfl rfl rfl

theorem Keeps.writeFault (s : State) (ctx : Nat) (bytes : Nat → List Byte) : Keeps s (s.writeFault ctx bytes) :=
  ((Keeps.setCtx ..).trans (Keeps.deviceUnit ..)).trans (Keeps.touch ..)

theorem Keeps.stopping (s : State) (kid status : Nat) : Keeps s (s.stopping kid status) := by
  have h := Keeps.discardKernel s kid
  unfold State.stopping
  dsimp only
  split
  · exact Keeps.ite h ((((h.trans (Keeps.setKernels ..)).trans (Keeps.pruneHeirs _)).trans (Keeps.settleSuspend ..)).trans (Keeps.due ..))
  · exact h

theorem Keeps.stopKernel (s : State) (kid core slot kind : Nat) (t : TrapInfo) : Keeps s (s.stopKernel kid core slot kind t) := by
  unfold State.stopKernel
  split
  · exact Keeps.ite (Keeps.refl s) ((Keeps.writeFault ..).trans (Keeps.foldl (fun _ _ => Keeps.stopping ..) _ _))
  · exact Keeps.refl s

/-! ## Traps -/

theorem Keeps.enterTrap (s : State) (c slot : Nat) (t : TrapInfo) (lanes : List Nat) : Keeps s (s.enterTrap c slot t lanes) := by
  unfold State.enterTrap
  split
  · exact Keeps.ite (Keeps.stopKernel ..) (Keeps.ite (Keeps.stopKernel ..)
      ((((Keeps.setSpecial ..).trans (Keeps.setSpecial ..)).trans (Keeps.setSpecial ..)).trans (Keeps.modGroup ..)))
  · exact Keeps.refl s

theorem Keeps.leaveTrap (s : State) (c slot : Nat) (lanes : List Nat) : Keeps s (s.leaveTrap c slot lanes) := Keeps.modGroup ..

theorem Keeps.relaunch (s : State) (g : Nat × Nat) : Keeps s (s.relaunch g) := by
  have h := Keeps.discardGang s g.1 g.2 true
  unfold State.relaunch
  dsimp only
  split
  · split
    · refine (h.trans ?_).trans (Keeps.settleSuspend ..)
      exact Keeps.of_cores rfl rfl rfl rfl rfl rfl rfl rfl rfl rfl rfl rfl rfl rfl rfl rfl
    · exact h
  · exact h

theorem Keeps.consumeUCE (s : State) (c slot pc : Nat) : Keeps s (s.consumeUCE c slot pc) := by
  unfold State.consumeUCE
  split
  · split
    · exact Keeps.ite (Keeps.foldl (fun _ _ => Keeps.relaunch ..) _ s) (Keeps.stopKernel ..)
    · exact Keeps.refl s
  · exact Keeps.refl s

theorem Keeps.addScore (s : State) (u n : Nat) : Keeps s (s.addScore u n) := by
  have h : Keeps s { s with units := s.units.set u { s.unit u with score := min 65535 ((s.unit u).score + n) } } :=
    Keeps.of_cores rfl rfl rfl rfl rfl rfl rfl rfl rfl rfl rfl rfl rfl rfl rfl rfl
  exact Keeps.ite (h.trans (Keeps.due ..)) h

theorem Keeps.mismatchAt (s : State) (c slot pc score : Nat) : Keeps s (s.mismatchAt c slot pc score) := by
  unfold State.mismatchAt
  split
  · exact Keeps.ite ((Keeps.addScore ..).trans (Keeps.consumeUCE ..))
      (((Keeps.addScore ..).trans (Keeps.squash ..)).trans (Keeps.modGroup ..))
  · exact Keeps.refl s

/-! ## Timelines and cluster copies -/

theorem Keeps.setTimeline (s : State) (ctx q : Nat) (t : Timeline) : Keeps s (s.setTimeline ctx q t) := Keeps.setCtx ..

theorem Keeps.setCluster (s : State) (cl : Nat) (t : Tab ClLine) : Keeps s (s.setCluster cl t) :=
  Keeps.of_cores rfl rfl rfl rfl rfl rfl rfl rfl rfl rfl rfl rfl rfl rfl rfl rfl

theorem Keeps.dropReadCopies (s : State) (cl : Nat) : Keeps s (s.dropReadCopies cl) := Keeps.setCluster ..

theorem Keeps.checkIn (s : State) (cl line : Nat) : Keeps s (s.checkIn cl line) := by
  unfold State.checkIn
  split
  · refine Keeps.ite ?_ (Keeps.refl s)
    exact Keeps.of_cores rfl rfl rfl rfl rfl rfl rfl rfl rfl rfl rfl rfl rfl rfl rfl rfl
  · exact Keeps.refl s

theorem Keeps.evictCopy (s : State) (cl ln : Nat) : Keeps s (s.evictCopy cl ln) := by
  unfold State.evictCopy
  split
  · exact Keeps.ite ((Keeps.setCluster ..).trans (Keeps.checkIn ..)) (Keeps.setCluster ..)
  · exact Keeps.refl s

theorem Keeps.release (s : State) (c slot : Nat) : Keeps s (s.release c slot) :=
  (Keeps.foldl (fun _ _ => Keeps.checkIn ..) _ s).trans (Keeps.modGroup ..)

theorem Keeps.newId (s : State) : Keeps s s.newId.2 :=
  Keeps.of_cores rfl rfl rfl rfl rfl rfl rfl rfl rfl rfl rfl rfl rfl rfl rfl rfl

/-! ## The issue of a word -/

theorem Keeps.raise (is : Issue) (cause val : Nat) (s : State) : Keeps s (raise is cause val s) := Keeps.trapAt ..

theorem Keeps.stallOn (is : Issue) (s : State) : Keeps s (stallOn is s) := Keeps.modGroup ..

theorem Keeps.waitAt (is : Issue) (w : Wait) (s : State) : Keeps s (waitAt is w s) :=
  Keeps.ite (Keeps.endChunk ..) ((Keeps.modGroup ..).trans (Keeps.due ..))

theorem Keeps.tagLines (s : State) (c : Nat) (sectors : List Nat) : Keeps s (s.tagLines c sectors) :=
  Keeps.of_cores rfl rfl rfl rfl rfl rfl rfl rfl rfl rfl rfl rfl rfl rfl rfl rfl

/-- TLB entries and walks are no part of the device around the cores. -/
theorem Keeps.tlbPut (s : State) (t : Tlb) : Keeps s (s.tlbPut t) := by
  unfold State.tlbPut
  refine Keeps.ite (Keeps.refl s) ?_
  dsimp only
  split
  · exact Keeps.ite (Keeps.of_cores rfl rfl rfl rfl rfl rfl rfl rfl rfl rfl rfl rfl rfl rfl rfl rfl)
      (Keeps.of_cores rfl rfl rfl rfl rfl rfl rfl rfl rfl rfl rfl rfl rfl rfl rfl rfl)
  · exact Keeps.of_cores rfl rfl rfl rfl rfl rfl rfl rfl rfl rfl rfl rfl rfl rfl rfl rfl

theorem Keeps.tlbTouch (s : State) (c ctx va : Nat) : Keeps s (s.tlbTouch c ctx va) := by
  unfold State.tlbTouch
  split
  · exact Keeps.tlbPut ..
  · exact Keeps.refl s

theorem Keeps.askWalk (s : State) (ctx va die unit : Nat) (acc : AccKind) : Keeps s (s.askWalk ctx va die unit acc) :=
  Keeps.ite (Keeps.of_cores rfl rfl rfl rfl rfl rfl rfl rfl rfl rfl rfl rfl rfl rfl rfl rfl)
    (Keeps.of_cores rfl rfl rfl rfl rfl rfl rfl rfl rfl rfl rfl rfl rfl rfl rfl rfl)

theorem Keeps.awaitWalk (s : State) (c slot : Nat) (lanes : List Nat) (va : Nat) (acc : AccKind) :
    Keeps s (s.awaitWalk c slot lanes va acc) :=
  Keeps.ite ((Keeps.squashOut ..).trans (Keeps.modGroup ..)) ((Keeps.modGroup ..).trans (Keeps.askWalk ..))

/-- The homes' queues are no part of the device around the cores. -/
theorem Keeps.unparkReq (s : State) (r : Req) : Keeps s (s.unparkReq r) := Keeps.of_cores rfl rfl rfl rfl rfl rfl rfl rfl rfl rfl rfl rfl rfl rfl rfl rfl

theorem Keeps.parkLine (s : State) (pa : Nat) (r : Req) : Keeps s (s.parkLine pa r) := by
  unfold State.parkLine
  refine Keeps.ite (Keeps.refl s) ?_
  dsimp only
  exact Keeps.ite ((Keeps.unparkReq s r).trans (Keeps.of_cores rfl rfl rfl rfl rfl rfl rfl rfl rfl rfl rfl rfl rfl rfl rfl rfl))
    ((Keeps.unparkReq s r).trans (Keeps.of_cores rfl rfl rfl rfl rfl rfl rfl rfl rfl rfl rfl rfl rfl rfl rfl rfl))

theorem Keeps.parkAt (is : Issue) (s : State) (pa : Nat) : Keeps s (parkAt is s pa) :=
  Keeps.ite ((Keeps.parkLine ..).trans (Keeps.modGroup ..)) ((Keeps.modGroup ..).trans (Keeps.due ..))

/-- An effect keeps the device when what it adds to the writes and the Chunk does. -/
theorem Keeps.applyEff (is : Issue) (e : Eff) (s : State) (hpost : ∀ t, Keeps t (e.post t)) : Keeps s (applyEff is e s) := by
  have h2 : Keeps s (e.raw.foldl (fun s w => s.poolPut is.core w.1 w.2) (e.pool.foldl (fun s w => s.poolPut w.1 w.2.1 w.2.2) s)) :=
    (Keeps.foldl (fun _ _ => Keeps.poolPut ..) _ s).trans (Keeps.foldl (fun _ _ => Keeps.poolPut ..) _ _)
  have h4 : ∀ (f : Group → Group) x, Keeps s ((e.pages.foldl (fun s p => s.tlbTouch is.core is.ctx p.1)
      (e.post ((e.raw.foldl (fun s w => s.poolPut is.core w.1 w.2)
        (e.pool.foldl (fun s w => s.poolPut w.1 w.2.1 w.2.2) s)).modGroup is.core is.slot f))).tagLines is.core x) := fun f x =>
    (((h2.trans (Keeps.modGroup ..)).trans (hpost _)).trans (Keeps.foldl (fun _ _ => Keeps.tlbTouch ..) _ _)).trans (Keeps.tagLines ..)
  unfold Machine.applyEff
  dsimp only
  split
  · exact (h4 _ _).trans (Keeps.endChunk ..)
  · split
    · refine Keeps.ite (h4 _ _) (Keeps.ite ((h4 _ _).trans (Keeps.endChunk ..)) (Keeps.ite ((h4 _ _).trans (Keeps.endChunk ..)) (h4 _ _)))
    · exact h4 _ _

/-- What a verdict has to keep for the issue to keep the device: a stall's state, and what an effect adds. -/
def Verdict.Keeps (s : State) : Verdict → Prop
  | .stall t => Machine.Keeps s t
  | .hold t => Machine.Keeps s t
  | .go e => ∀ t, Machine.Keeps t (e.post t)
  | _ => True

theorem Keeps.settle (is : Issue) (v : Verdict) (s : State) (h : v.Keeps s) : Keeps s (settle is v s) := by
  cases v with
  | trap cause val => exact Keeps.raise ..
  | stall t => exact Keeps.trans (show Keeps s t from h) (Keeps.stallOn ..)
  | wait w => exact Keeps.waitAt ..
  | hold t => exact Keeps.ite (Keeps.endChunk ..) (Keeps.trans (show Keeps s t from h) (Keeps.stallOn ..))
  | walk va acc => exact Keeps.awaitWalk ..
  | park pa => exact Keeps.parkAt ..
  | mismatch => exact Keeps.mismatchAt ..
  | before a => exact Keeps.endChunk ..
  | go e => exact Keeps.ite (Keeps.endChunk ..) (Keeps.applyEff is e s h)

theorem precheck_keeps (d : Desc) (is : Issue) (s : State) (v : Verdict) (h : precheck d is s = some v) : v.Keeps s := by
  unfold precheck at h
  repeat' split at h
  all_goals first
    | cases h; trivial
    | cases h; exact Keeps.refl s
    | cases h

/-- A word whose body's verdicts keep the device keeps it. -/
theorem Keeps.issueWord (d : Desc) (body : Issue → State → Verdict) (s t : State) (hb : ∀ is, (body is s).Keeps s)
    (h : issueWord d body s = .next t) : Keeps s t := by
  unfold Machine.issueWord at h
  split at h
  · cases h
  · split at h
    · cases h
    · simp only [Host.Outcome.next.injEq] at h
      subst h
      split
      · next v hv => exact Keeps.settle _ _ _ (precheck_keeps _ _ _ _ hv)
      · exact Keeps.ite (Keeps.mismatchAt ..) (Keeps.settle _ _ _ (hb _))

theorem Keeps.issueBare (body : Issue → State → Verdict) (s t : State) (hb : ∀ is, (body is s).Keeps s)
    (h : issueBare body s = .next t) : Keeps s t := by
  unfold Machine.issueBare at h
  split at h
  · cases h
  · split at h
    · cases h
    · simp only [Host.Outcome.next.injEq] at h
      subst h
      exact Keeps.settle _ _ _ (hb _)

/-! ## The choice of the agent -/

theorem Keeps.keepWord (s : State) (c slot off w : Nat) : Keeps s (s.keepWord c slot off w) := by
  have h : Keeps s ((s.setCore c { s.core c with icache := (s.core c).icache.set off w }).unparkReq s.curReq) :=
    Keeps.trans (Keeps.setCore_same s c { s.core c with icache := (s.core c).icache.set off w } rfl) (Keeps.unparkReq ..)
  unfold State.keepWord
  dsimp only
  split
  · exact ((Keeps.ite (Keeps.refl s) (h.trans (Keeps.tagLines ..))).trans (Keeps.modGroup ..)).trans (Keeps.tlbTouch ..)
  · exact Keeps.ite (Keeps.refl s) h

theorem Keeps.tookTurn (s : State) (c slot : Nat) : Keeps s (s.tookTurn c slot) := by
  unfold State.tookTurn
  dsimp only
  exact (Keeps.setCore_same _ _ _ (by rfl)).trans (Keeps.due ..)

/-- An uncorrectable line is noted, for a rebuild or as poison. -/
theorem Keeps.spoil (s : State) (ln : Nat) : Keeps s (s.spoil ln) :=
  Keeps.ite (Keeps.refl s) (Keeps.ite (Keeps.of_cores rfl rfl rfl rfl rfl rfl rfl rfl rfl rfl rfl rfl rfl rfl rfl rfl)
    (Keeps.of_cores rfl rfl rfl rfl rfl rfl rfl rfl rfl rfl rfl rfl rfl rfl rfl rfl))

theorem Keeps.rowEvent (s : State) (o n : Nat) : Keeps s (s.rowEvent o n) := Keeps.ite (Keeps.of_cores rfl rfl rfl rfl rfl rfl rfl rfl rfl rfl rfl rfl rfl rfl rfl rfl) (Keeps.refl s)

theorem Keeps.report (s : State) (e : Ecc) : Keeps s (s.report e) := by
  unfold State.report
  dsimp only
  refine Keeps.ite (((Keeps.spoil ..).trans (Keeps.rowEvent ..)).trans (Keeps.addScore ..)) ?_
  split
  · exact Keeps.addScore ..
  · exact (Keeps.rowEvent ..).trans (Keeps.addScore ..)

/-- An operation and what it offers are no part of the device around the cores. -/
theorem Keeps.setOp (s : State) (id : Nat) (o : Op) : Keeps s (s.setOp id o) := Keeps.of_cores rfl rfl rfl rfl rfl rfl rfl rfl rfl rfl rfl rfl rfl rfl rfl rfl

theorem Keeps.tagOp (s : State) (o : Op) (sectors : List Nat) : Keeps s (s.tagOp o sectors) := by
  unfold State.tagOp State.tagFor
  exact Keeps.of_cores rfl rfl rfl rfl rfl rfl rfl rfl rfl rfl rfl rfl rfl rfl rfl rfl

theorem Keeps.offerUnit (s : State) (id : Nat) (o : Op) (items : List BufItem) : Keeps s (s.offerUnit id o items) := by
  have h (t : State) (ops : Tab Op) (os : List Offer) (ev : List Instr) : Keeps t { t with ops := ops, offers := os, agenda := ev } :=
    Keeps.of_cores rfl rfl rfl rfl rfl rfl rfl rfl rfl rfl rfl rfl rfl rfl rfl rfl
  unfold State.offerUnit State.setOp
  dsimp only
  exact (Keeps.tagOp s o _).trans (h _ _ _ _)

theorem Keeps.finishOp (s : State) (id : Nat) (o : Op) (status : Nat) : Keeps s (s.finishOp id o status) := by
  have h : Keeps s ((s.unregister id).unparkReq (.op id)) := (Keeps.mapCores s (fun e =>
    (e.1, { e.2 with board := e.2.board.filter (fun r => r.op != id) })) (fun _ => rfl)).trans (Keeps.unparkReq ..)
  unfold State.finishOp
  dsimp only
  split
  · exact h.trans (Keeps.offerUnit ..)
  · exact (h.trans (Keeps.setOp ..)).trans (Keeps.due ..)

/-- A module is declared unreachable, or lost. -/
theorem Keeps.loseModule (s : State) (m : Nat) : Keeps s (s.loseModule m) := by
  have h (us : List Nat) (ps : Tab Pair) (n : Nat) : Keeps s { s with unreachable := us, pairs := ps, mergesLost := n } :=
    Keeps.of_cores rfl rfl rfl rfl rfl rfl rfl rfl rfl rfl rfl rfl rfl rfl rfl rfl
  unfold State.loseModule
  dsimp only
  refine (h _ _ _).trans (Keeps.foldl (fun t e => ?_) _ _)
  split
  · exact Keeps.ite (Keeps.finishOp ..) (Keeps.setOp ..)
  · exact Keeps.refl t

theorem Keeps.firmwareWrite (s : State) (f : FwWrite) : Keeps s (s.firmwareWrite f) :=
  Keeps.ite (Keeps.deviceUnit ..) (Keeps.of_cores rfl rfl rfl rfl rfl rfl rfl rfl rfl rfl rfl rfl rfl rfl rfl rfl)

theorem Keeps.receive (s : State) (p : MsgPacket) : Keeps s (s.receive p) :=
  Keeps.ite (Keeps.refl s) (Keeps.ite (Keeps.of_cores rfl rfl rfl rfl rfl rfl rfl rfl rfl rfl rfl rfl rfl rfl rfl rfl) (Keeps.ite (Keeps.of_cores rfl rfl rfl rfl rfl rfl rfl rfl rfl rfl rfl rfl rfl rfl rfl rfl) (Keeps.of_cores rfl rfl rfl rfl rfl rfl rfl rfl rfl rfl rfl rfl rfl rfl rfl rfl)))

theorem Keeps.takePacket (s : State) : Keeps s s.takePacket := by
  have h (r : List MsgPacket) : Keeps s { s with packetsIn := r } := Keeps.of_cores rfl rfl rfl rfl rfl rfl rfl rfl rfl rfl rfl rfl rfl rfl rfl rfl
  unfold State.takePacket
  split
  · exact Keeps.ite (Keeps.refl s) (Keeps.ite (h _) (Keeps.ite ((h _).trans (Keeps.receive ..)) (Keeps.refl s)))
  · exact Keeps.refl s

theorem Keeps.lose (s : State) : Keeps s s.lose :=
  (((((Keeps.foldl (fun _ _ => Keeps.evictCopy ..) _ s).trans (Keeps.foldl (fun _ _ => Keeps.report ..) _ _)).trans
    (Keeps.foldl (fun _ _ => Keeps.loseModule ..) _ _)).trans (Keeps.foldl (fun _ _ => Keeps.firmwareWrite ..) _ _)).trans
    (Keeps.takePacket _)).trans (Keeps.mapCores _
    (fun c => if (State.refetch _).contains (State.steps _, c.1) then (c.1, { c.2 with icache := [] }) else c)
    (fun c => by split <;> rfl))

/-- The passing of time changes the times and nothing else of a state. -/
theorem State.tick_of_lose (s : State) : ∃ clk clkRem timeRem sec ns wall, s.tick =
    { s.lose with clk := clk, clkRem := clkRem, timeRem := timeRem, sec := sec, ns := ns, wall := wall, steps := s.lose.steps + 1,
                  cur := none } := by
  unfold State.tick
  dsimp only
  split
  · exact ⟨_, _, _, _, _, _, rfl⟩
  · exact ⟨_, _, _, _, _, _, rfl⟩

/-- What a power-on reset keeps of memory is in its canonical form, holds the host's bytes, and nothing of the device's (R1, R34). -/
theorem hostCells_wf {m : Memory} (h : m.wf = true) : (hostCells m).wf = true := Memory.wfFrom_filter _ h

theorem hostCells_read_host {a : Nat} (h : 2 ^ 49 ≤ a) (m : Memory) : (hostCells m).read a = m.read a := by
  induction m with
  | nil => rfl
  | cons e r ih =>
    unfold hostCells at ih ⊢
    rw [List.filter_cons]
    split
    · simp only [Memory.read, ih]
    · next hn =>
      have hne : e.1 ≠ a := fun he => hn (by simpa [he] using h)
      simp only [Memory.read, if_neg hne, ih]

theorem hostCells_read_device {a : Nat} (h : a < 2 ^ 49) (m : Memory) : (hostCells m).read a = Memory.unlisted := by
  induction m with
  | nil => rfl
  | cons e r ih =>
    unfold hostCells at ih ⊢
    rw [List.filter_cons]
    split
    · next hy =>
      have hne : e.1 ≠ a := fun he => by simp [he] at hy; omega
      simp only [Memory.read, if_neg hne, ih]
    · exact ih

/-- Time passes; what every step keeps, it keeps. -/
theorem tick_inv {s : State} (h : s.Inv) : s.tick.Inv := by
  obtain ⟨h1, h2, h3, h4, h5⟩ := (Keeps.lose s).inv h
  obtain ⟨_, _, _, _, _, _, e⟩ := s.tick_of_lose
  rw [e]
  exact ⟨h1, h2, h3, h4, h5⟩

theorem tick_pools {s : State} (h : s.PoolsCanonical) : s.tick.PoolsCanonical := by
  obtain ⟨_, _, _, _, _, _, e⟩ := s.tick_of_lose
  rw [e]
  exact (Keeps.lose s).pools h

theorem Keeps.pickIssue (s : State) (c slot : Nat) : Keeps s (s.pickIssue c slot).1 := by
  unfold State.pickIssue
  split
  · split
    · have h (x : Option (Nat × Nat × Nat × List Nat)) : Keeps s { s.tookTurn c slot with cur := x } :=
        (Keeps.tookTurn s c slot).trans (Keeps.of_cores rfl rfl rfl rfl rfl rfl rfl rfl rfl rfl rfl rfl rfl rfl rfl rfl)
      dsimp only
      split
      · split
        · exact (h _).trans (Keeps.keepWord ..)
        · split <;> exact (h _).trans (Keeps.keepWord ..)
      · exact h _
    · exact Keeps.refl s
  · exact Keeps.refl s

theorem Keeps.pickAny (s : State) : Keeps s s.pickAny.1 := by
  unfold State.pickAny
  split
  · exact Keeps.pickIssue ..
  · exact Keeps.refl s

theorem Keeps.pickEvent (s : State) (k : Nat) : Keeps s (s.pickEvent k).1 := by
  unfold State.pickEvent
  split
  · exact Keeps.of_cores rfl rfl rfl rfl rfl rfl rfl rfl rfl rfl rfl rfl rfl rfl rfl rfl
  · exact Keeps.refl s

/-- Choosing the agent of a step keeps the device around it as the passing of time left it. -/
theorem Keeps.pick (s : State) : Keeps s.tick s.pick.1 := by
  have h (r : List Nat) : Keeps s.tick { s.tick with sched := r } :=
    Keeps.of_cores rfl rfl rfl rfl rfl rfl rfl rfl rfl rfl rfl rfl rfl rfl rfl rfl
  unfold State.pick
  dsimp only
  split
  · exact (h _).trans (Keeps.pickAny ..)
  · exact (h _).trans (Keeps.pickEvent ..)
  · split
    · split
      · exact Keeps.pickAny ..
      · exact Keeps.pickEvent ..
    · split
      · exact Keeps.pickIssue ..
      · exact Keeps.pickEvent ..

/-! ## What caches and memories lose of themselves -/

/-- What a loss leaves: the times, the agents' choice and the steps stay, and events are only added. -/
structure Passes (s t : State) : Prop where
  clk : t.clk = s.clk
  wall : t.wall = s.wall
  steps : t.steps = s.steps
  sched : t.sched = s.sched
  stop : t.stop = s.stop
  power : t.power = s.power
  agenda : ∃ es, t.agenda = s.agenda ++ es

theorem Passes.refl (s : State) : Passes s s := ⟨rfl, rfl, rfl, rfl, rfl, rfl, [], by simp⟩

theorem Passes.trans {s t u : State} (h : Passes s t) (k : Passes t u) : Passes s u := by
  obtain ⟨a1, a2, a3, a4, a5, a6, es, a7⟩ := h
  obtain ⟨b1, b2, b3, b4, b5, b6, fs, b7⟩ := k
  exact ⟨b1.trans a1, b2.trans a2, b3.trans a3, b4.trans a4, b5.trans a5, b6.trans a6, es ++ fs, by
    rw [b7, a7, List.append_assoc]⟩

theorem Passes.foldl {α : Type} {f : State → α → State} (hf : ∀ s a, Passes s (f s a)) (xs : List α) :
    ∀ s : State, Passes s (xs.foldl f s) := by
  induction xs with
  | nil => exact Passes.refl
  | cons a xs ih => exact fun s => (hf s a).trans (ih _)

/-- A cluster loses a copy. -/
theorem Passes.evictCopy (s : State) (cl ln : Nat) : Passes s (s.evictCopy cl ln) := by
  unfold State.evictCopy
  split
  · split
    · unfold State.checkIn
      split
      · split
        · exact ⟨rfl, rfl, rfl, rfl, rfl, rfl, _, rfl⟩
        · exact ⟨rfl, rfl, rfl, rfl, rfl, rfl, [], by simp⟩
      · exact ⟨rfl, rfl, rfl, rfl, rfl, rfl, [], by simp⟩
    · exact ⟨rfl, rfl, rfl, rfl, rfl, rfl, [], by simp⟩
  · exact Passes.refl s

theorem Passes.addScore (s : State) (u n : Nat) : Passes s (s.addScore u n) := by
  unfold State.addScore
  dsimp only
  split
  · exact ⟨rfl, rfl, rfl, rfl, rfl, rfl, _, rfl⟩
  · exact ⟨rfl, rfl, rfl, rfl, rfl, rfl, [], by simp⟩

/-- ECC reports an event. -/
theorem Passes.report (s : State) (e : Ecc) : Passes s (s.report e) := by
  have h : Passes s (s.spoil e.line) := by
    unfold State.spoil
    split
    · exact Passes.refl s
    · split
      · exact ⟨rfl, rfl, rfl, rfl, rfl, rfl, _, rfl⟩
      · exact ⟨rfl, rfl, rfl, rfl, rfl, rfl, [], by simp⟩
  have hr (t : State) (o n : Nat) : Passes t (t.rowEvent o n) := by
    unfold State.rowEvent
    split
    · exact ⟨rfl, rfl, rfl, rfl, rfl, rfl, [], by simp⟩
    · exact Passes.refl t
  unfold State.report
  dsimp only
  split
  · exact (h.trans (hr ..)).trans (Passes.addScore ..)
  · split
    · exact Passes.addScore ..
    · exact (hr ..).trans (Passes.addScore ..)

theorem Passes.finishOp (s : State) (id : Nat) (o : Op) (status : Nat) : Passes s (s.finishOp id o status) := by
  unfold State.finishOp
  dsimp only
  split
  · exact ⟨rfl, rfl, rfl, rfl, rfl, rfl, _, rfl⟩
  · exact ⟨rfl, rfl, rfl, rfl, rfl, rfl, _, rfl⟩

theorem Passes.loseModule (s : State) (m : Nat) : Passes s (s.loseModule m) := by
  have h (us : List Nat) (ps : Tab Pair) (n : Nat) : Passes s { s with unreachable := us, pairs := ps, mergesLost := n } :=
    ⟨rfl, rfl, rfl, rfl, rfl, rfl, [], by simp⟩
  unfold State.loseModule
  dsimp only
  refine (h _ _ _).trans (Passes.foldl (fun t e => ?_) _ _)
  split
  · split
    · exact Passes.finishOp ..
    · exact ⟨rfl, rfl, rfl, rfl, rfl, rfl, [], by simp⟩
  · exact Passes.refl t

/-- A device unit is stamped, or offered. -/
theorem Passes.deviceUnit (s : State) (part : Nat) (items : List BufItem) (op : Option Nat) : Passes s (s.deviceUnit part items op) := by
  unfold State.deviceUnit
  split
  · unfold State.commitItems
    dsimp only
    obtain ⟨ps, ag, h⟩ := sendAcross_only s (s.unitEnd (s.lowestDie part) none op none) (diffTag part (s.stamps.getD part 1)) (itemAddrs s.regions items)
    rw [h]
    obtain ⟨qs, ah, k⟩ := sendPackets_only (fun c => c) (fun _ => castTag part (s.stamps.getD part 1)) (s.unitEnd (s.lowestDie part) none op none)
      ((s.coresOf part).filter (fun c => dieOf c != endDie (s.unitEnd (s.lowestDie part) none op none))) { s with pairs := ps, agenda := s.agenda ++ ag }
    rw [k]
    exact ⟨rfl, rfl, rfl, rfl, rfl, rfl, _, by simp only [List.append_assoc]; rfl⟩
  · exact ⟨rfl, rfl, rfl, rfl, rfl, rfl, _, rfl⟩

theorem Passes.firmwareWrite (s : State) (f : FwWrite) : Passes s (s.firmwareWrite f) := by
  unfold State.firmwareWrite
  dsimp only
  split
  · exact Passes.deviceUnit ..
  · exact ⟨rfl, rfl, rfl, rfl, rfl, rfl, [], by simp⟩

theorem Passes.ite {p : Prop} [Decidable p] {s t u : State} (ht : Passes s t) (hu : Passes s u) : Passes s (if p then t else u) := by
  split
  · exact ht
  · exact hu

theorem Passes.receive (s : State) (p : MsgPacket) : Passes s (s.receive p) :=
  Passes.ite (Passes.refl s) (Passes.ite ⟨rfl, rfl, rfl, rfl, rfl, rfl, [], by simp⟩
    (Passes.ite ⟨rfl, rfl, rfl, rfl, rfl, rfl, _, rfl⟩ ⟨rfl, rfl, rfl, rfl, rfl, rfl, [], by simp⟩))

theorem Passes.takePacket (s : State) : Passes s s.takePacket := by
  have h (r : List MsgPacket) : Passes s { s with packetsIn := r } := ⟨rfl, rfl, rfl, rfl, rfl, rfl, [], by simp⟩
  unfold State.takePacket
  split
  · split
    · exact Passes.refl s
    · split
      · exact h _
      · split
        · exact (h _).trans (Passes.receive ..)
        · exact Passes.refl s
  · exact Passes.refl s

theorem Passes.lose (s : State) : Passes s s.lose := by
  obtain ⟨a1, a2, a3, a4, a5, a6, a7⟩ :=
    ((((Passes.foldl (fun s (e : Nat × Nat × Nat) => Passes.evictCopy s e.2.1 e.2.2) (s.evicts.filter (fun e => e.1 == s.steps)) s).trans
      (Passes.foldl (fun s e => Passes.report s e) (s.eccs.filter (fun e => e.step == s.steps)) _)).trans
      (Passes.foldl (fun s (e : Nat × Nat) => Passes.loseModule s e.2) (s.losses.filter (fun e => e.1 == s.steps)) _)).trans
      (Passes.foldl (fun s e => Passes.firmwareWrite s e) (s.fwWrites.filter (fun e => e.step == s.steps)) _)).trans (Passes.takePacket _)
  exact ⟨a1, a2, a3, a4, a5, a6, a7⟩

/-- The passing of time: the clocks do not go back, wall time goes on, the agents' choice stays, and the events due stay in front of new
ones. -/
theorem State.tick_frame (s : State) : s.clk ≤ s.tick.clk ∧ s.wall ≤ s.tick.wall ∧ s.tick.steps = s.steps + 1 ∧ s.tick.sched = s.sched ∧
    s.tick.stop = s.stop ∧ s.tick.cur = none ∧ ∃ es, s.tick.agenda = s.agenda ++ es := by
  have h := Passes.lose s
  unfold State.tick
  dsimp only
  split
  · refine ⟨?_, ?_, congrArg (· + 1) h.steps, h.sched, h.stop, rfl, h.agenda⟩
    · show s.clk ≤ s.lose.clk + _
      rw [h.clk]; omega
    · show s.wall ≤ s.lose.wall + _
      rw [h.wall]; omega
  · refine ⟨?_, ?_, congrArg (· + 1) h.steps, h.sched, h.stop, rfl, h.agenda⟩
    · show s.clk ≤ s.lose.clk
      rw [h.clk]
    · show s.wall ≤ s.lose.wall + _
      rw [h.wall]; omega

end Sys2Proof.Machine
end

