-- ==== Sys2Proof/Laws/Engines.lean ====
section
/-! SUPPORT. What the shared operations of the engine commands answer: a request that is served, a command that has left and is translated. -/

namespace Sys2Proof.Machine

/-- A request that is served goes on with the machine that has read. -/
theorem opReads_served {s : State} {id n : Nat} {o : Op} {pas : List Nat} (h : Served s id o n pas) (again : Instr) (k : State → State) :
    s.opReads id o n pas again k = k (s.afterRead id o pas) := by
  simp only [State.opReads, h.1, h.2, State.afterRead]

/-- A request for virtual ranges that is served, and finds no poison. -/
theorem opVreads_served {s : State} {id n : Nat} {o : Op} {rs : List (Nat × Nat)} (h : Served s id o n (o.pas rs))
    (hp : ∀ r ∈ rs, (s.afterRead id o (o.pas rs)).vpoison o.pages r.1 r.2 = false) (again : Instr) (k : State → State) :
    s.opVreads id o n rs again k = k (s.afterRead id o (o.pas rs)) := by
  have hq : rs.any (fun r => (s.afterRead id o (o.pas rs)).vpoison o.pages r.1 r.2) = false := by
    rw [List.any_eq_false]; intro r hr; simp [hp r hr]
  unfold State.opVreads
  change s.opReads id o n (o.pas rs) again _ = _
  rw [opReads_served h, hq]; rfl

/-- A command that has left and reached its engine goes on with k2. -/
theorem leaveThen_gone {s : State} {id : Nat} {o : Op} (ho : s.op? id = some o) (h : o.gone s id) (self : Instr)
    (atLeave : State → Op → State × Op) (k2 : State → Op → State) : leaveThen id self atLeave k2 s = k2 s o := by
  simp [leaveThen, ho, h.1, h.2.2]

/-- A command that has left and is translated goes on with k. -/
theorem leaveWith_translated {s : State} {id : Nat} {o o1 : Op} {reqs : State → Op → List (Nat × Nat × AccKind)} (ho : s.op? id = some o)
    (h : o.gone s id) (ht : Translated s o (reqs s o) o1) (self : Instr) (judge : State → Op → Option Nat) (k : State → Op → State) :
    leaveWith id self judge reqs k s = k s o1 := by
  obtain ⟨va, ps, qs, h1, h2, rfl⟩ := ht
  rw [leaveWith, leaveThen_gone ho h]
  simp [translateWith, h1, h2, h.2.1]

/-- An operation that has left is starting. -/
theorem gone_starting {s : State} {id : Nat} {o : Op} (h : o.gone s id) : o.starting = true := by simp [Op.starting, h.1]

end Sys2Proof.Machine
end

