-- ==== Sys2Proof/Laws/Operands.lean ====
section
/-! SUPPORT. What the effect of a word that writes only the pool leaves: the one lemma that statements about such words cite. -/

-- One declaration at a time, so that the package as one text compiles in bounded memory.
set_option Elab.async false

namespace Sys2Proof.Machine

/-- From s to t only core c has changed: its pool is p, its Group slot holds what h says, its other slots stand. -/
structure CoreOnly (c slot : Nat) (s t : State) (p : Memory) : Prop where
  outside : t = { s with cores := t.cores, agenda := t.agenda }
  others : ∀ x, x ≠ c → t.core x = s.core x
  core : t.core c = { s.core c with pool := p, groups := (t.core c).groups }
  groups : ∀ k, k ≠ slot → (t.core c).groups.get? k = (s.core c).groups.get? k

theorem CoreOnly.refl (c slot : Nat) (s : State) : CoreOnly c slot s s (s.core c).pool := ⟨rfl, fun _ _ => rfl, rfl, fun _ _ => rfl⟩

theorem State.core_setCore_self (s : State) (c : Nat) (k : Core) : (s.setCore c k).core c = k := by
  simp [State.core, State.setCore]

theorem State.core_setCore_ne (s : State) {c x : Nat} (k : Core) (h : x ≠ c) : (s.setCore c k).core x = s.core x := by
  simp only [State.core, State.setCore]; exact Tab.getD_set_of_ne _ _ _ h

/-- A change of one core's pool and of its Group slot. -/
theorem CoreOnly.setCore {c slot : Nat} {s t : State} {p q : Memory} (h : CoreOnly c slot s t p) (k : Core)
    (hk : k = { s.core c with pool := q, groups := k.groups })
    (hg : ∀ j, j ≠ slot → k.groups.get? j = (t.core c).groups.get? j) : CoreOnly c slot s (t.setCore c k) q := by
  refine ⟨?_, ?_, ?_, ?_⟩
  · have := h.outside
    rw [State.setCore]
    conv_lhs => rw [this]
  · intro x hx; rw [State.core_setCore_ne t k hx]; exact h.others x hx
  · rw [State.core_setCore_self]; exact hk
  · intro j hj; rw [State.core_setCore_self, hg j hj]; exact h.groups j hj

theorem CoreOnly.poolPut {c slot : Nat} {s t : State} {p : Memory} (h : CoreOnly c slot s t p) (a : Nat) (bs : List Byte) :
    CoreOnly c slot s (t.poolPut c a bs) (p.put a bs) := by
  have hc := h.core
  refine h.setCore _ ?_ (fun _ _ => rfl)
  rw [hc]

theorem CoreOnly.setGroup {c slot : Nat} {s t : State} {p : Memory} (h : CoreOnly c slot s t p) (g : Group) :
    CoreOnly c slot s (t.setGroup c slot g) p := by
  have hc := h.core
  refine h.setCore _ ?_ (fun j hj => Tab.get?_set_of_ne _ _ hj)
  rw [hc]

theorem CoreOnly.modGroup {c slot : Nat} {s t : State} {p : Memory} (h : CoreOnly c slot s t p) (f : Group → Group) :
    CoreOnly c slot s (t.modGroup c slot f) p := by
  unfold State.modGroup; split
  · exact h.setGroup _
  · exact h

theorem CoreOnly.due {c slot : Nat} {s t : State} {p : Memory} (h : CoreOnly c slot s t p) (es : List Instr) :
    CoreOnly c slot s (t.due es) p := by
  refine ⟨?_, h.others, h.core, h.groups⟩
  have := h.outside
  rw [State.due]
  conv_lhs => rw [this]

theorem CoreOnly.endChunk {c slot : Nat} {s t : State} {p : Memory} (h : CoreOnly c slot s t p) (a : After) :
    CoreOnly c slot s (t.endChunk c slot a) p := by
  unfold State.endChunk; split
  · exact (h.setGroup _).due _
  · exact h

/-- Nothing is tagged where nothing is accessed. -/
theorem State.tagLines_nil (s : State) (c : Nat) : s.tagLines c [] = s := by
  simp [State.tagLines, State.tagFor]

/-- The pool after the writes of an effect. -/
def Eff.poolAfter (e : Eff) (p : Memory) : Memory :=
  e.raw.foldl (fun p w => p.put w.1 w.2) (e.pool.foldl (fun p w => p.put w.2.1 w.2.2) p)

theorem CoreOnly.foldl_pool {c slot : Nat} {s : State} (ws : List (Nat × Nat × List Byte)) (hw : ∀ w ∈ ws, w.1 = c) :
    ∀ {t : State} {p : Memory}, CoreOnly c slot s t p →
      CoreOnly c slot s (ws.foldl (fun s w => s.poolPut w.1 w.2.1 w.2.2) t) (ws.foldl (fun p w => p.put w.2.1 w.2.2) p) := by
  induction ws with
  | nil => exact fun h => h
  | cons w r ih =>
    intro t p h
    have e : w.1 = c := hw w List.mem_cons_self
    refine ih (fun x hx => hw x (List.mem_cons_of_mem _ hx)) ?_
    show CoreOnly c slot s (t.poolPut w.1 w.2.1 w.2.2) _
    rw [e]; exact h.poolPut _ _

theorem CoreOnly.foldl_raw {c slot : Nat} {s : State} (ws : List (Nat × List Byte)) :
    ∀ {t : State} {p : Memory}, CoreOnly c slot s t p →
      CoreOnly c slot s (ws.foldl (fun s w => s.poolPut c w.1 w.2) t) (ws.foldl (fun p w => p.put w.1 w.2) p) := by
  induction ws with
  | nil => exact fun h => h
  | cons w r ih => exact fun h => ih (h.poolPut _ _)

/-- A word that only writes its own core's pool. -/
structure Eff.PoolOnly (c : Nat) (e : Eff) : Prop where
  pool : ∀ w ∈ e.pool, w.1 = c
  post : e.post = id
  touched : e.reads = [] ∧ e.writes = [] ∧ e.clw = [] ∧ e.tags = [] ∧ e.pages = []

@[simp] theorem State.endChunk_agenda (s : State) (c slot : Nat) (a : After) :
    (s.endChunk c slot a).agenda = s.agenda ∨ (s.endChunk c slot a).agenda = s.agenda ++ [.chunkReady c slot] := by
  unfold State.endChunk; split
  · exact .inr rfl
  · exact .inl rfl

theorem foldl_poolPut_agenda (ws : List (Nat × Nat × List Byte)) :
    ∀ s : State, (ws.foldl (fun s w => s.poolPut w.1 w.2.1 w.2.2) s).agenda = s.agenda := by
  induction ws with
  | nil => exact fun _ => rfl
  | cons w r ih => exact fun s => (ih _).trans rfl

theorem foldl_rawPut_agenda (c : Nat) (ws : List (Nat × List Byte)) :
    ∀ s : State, (ws.foldl (fun s w => s.poolPut c w.1 w.2) s).agenda = s.agenda := by
  induction ws with
  | nil => exact fun _ => rfl
  | cons w r ih => exact fun s => (ih _).trans rfl

/-- What applyEff does for a word that only writes its own core's pool: the pool takes the writes, and nothing outside the Group moves but
the agenda, where the Chunk ends. -/
theorem applyEff_poolOnly (is : Issue) (e : Eff) (s : State) (he : e.PoolOnly is.core) :
    CoreOnly is.core is.slot s (applyEff is e s) (e.poolAfter (s.core is.core).pool) ∧
      ((applyEff is e s).agenda = s.agenda ∨ (applyEff is e s).agenda = s.agenda ++ [.chunkReady is.core is.slot]) := by
  obtain ⟨hp, hpost, hr, hw, hcl, ht, hpg⟩ := he
  have h1 := CoreOnly.foldl_pool e.pool hp (CoreOnly.refl is.core is.slot s)
  have h2 := CoreOnly.foldl_raw e.raw h1
  have a2 := (foldl_rawPut_agenda is.core e.raw (e.pool.foldl (fun s w => s.poolPut w.1 w.2.1 w.2.2) s)).trans
    (foldl_poolPut_agenda e.pool s)
  unfold applyEff
  simp only [hpost, hr, hw, hcl, ht, hpg, List.append_nil, List.foldl_nil, State.tagLines_nil, id_eq]
  generalize hs3 : State.modGroup _ is.core is.slot _ = s3
  have h3 : CoreOnly is.core is.slot s s3 (e.poolAfter (s.core is.core).pool) := hs3 ▸ h2.modGroup _
  have a3 : s3.agenda = s.agenda := by rw [← hs3, State.modGroup_agenda]; exact a2
  clear hs3
  have hend : ∀ a, CoreOnly is.core is.slot s (s3.endChunk is.core is.slot a) (e.poolAfter (s.core is.core).pool) ∧
      ((s3.endChunk is.core is.slot a).agenda = s.agenda ∨
        (s3.endChunk is.core is.slot a).agenda = s.agenda ++ [.chunkReady is.core is.slot]) := fun a =>
    ⟨h3.endChunk a, a3 ▸ State.endChunk_agenda s3 is.core is.slot a⟩
  have hself : CoreOnly is.core is.slot s s3 (e.poolAfter (s.core is.core).pool) ∧
      (s3.agenda = s.agenda ∨ s3.agenda = s.agenda ++ [.chunkReady is.core is.slot]) := ⟨h3, .inl a3⟩
  split
  · exact hend _
  · split
    · split
      · exact hself
      · split
        · exact hend _
        · split
          · exact hend _
          · exact hself
    · exact hself

/-! ## Words of a pool -/

theorem Memory.bytes_congr {m m' : Memory} (n : Nat) : ∀ {a : Nat}, (∀ x, a ≤ x → x < a + n → m.read x = m'.read x) →
    m.bytes a n = m'.bytes a n := by
  induction n with
  | zero => intros; rfl
  | succ n ih =>
    intro a h
    simp only [Memory.bytes]
    rw [h a (Nat.le_refl _) (by omega), ih (fun x h1 h2 => h x (by omega) (by omega))]

/-- A word that a write does not touch. -/
theorem Memory.num_put_of_disjoint {m : Memory} (h : m.wf = true) (a b : Nat) (bs : List Byte) (hd : a + bs.length ≤ b ∨ b + 4 ≤ a) :
    (m.put a bs).num b 4 = m.num b 4 := by
  unfold Memory.num
  rw [Memory.bytes_congr 4 (m' := m) (fun x h1 h2 => by rw [Memory.read_put bs a x h, if_neg (by omega)])]

theorem toBytes_length (n x : Nat) : (toBytes n x).length = n := by
  induction n generalizing x with
  | zero => rfl
  | succ n ih => simp [toBytes, ih]

/-- A word that was written. -/
theorem Memory.num_put_self {m : Memory} (h : m.wf = true) (a x : Nat) : (m.put a (toBytes 4 x)).num a 4 = x % 2 ^ 32 := by
  have r (k : Nat) (hk : k < 4) : (m.put a (toBytes 4 x)).read (a + k) = (toBytes 4 x).getD k 0 := by
    rw [Memory.read_put _ a _ h, if_pos (by rw [toBytes_length]; omega)]
    congr 1; omega
  have r0 := r 0 (by omega)
  have r1 := r 1 (by omega)
  have r2 := r 2 (by omega)
  have r3 := r 3 (by omega)
  simp only [Nat.add_zero] at r0
  simp only [Memory.num, Memory.bytes, ofBytes, r0, Nat.add_assoc, r1, r2, r3, Nat.reduceAdd]
  simp only [toBytes, List.getD_cons_zero, List.getD_cons_succ, BitVec.toNat_ofNat]
  omega

theorem foldl_put_wf (ws : List (Nat × Nat × List Byte)) :
    ∀ {p : Memory}, p.wf = true → (ws.foldl (fun p w => p.put w.2.1 w.2.2) p).wf = true := by
  induction ws with
  | nil => exact fun h => h
  | cons w r ih => exact fun h => ih (Memory.put_wf _ _ h)

/-- A word after a list of writes, each of which writes v to it or leaves it alone. -/
theorem foldl_put_num (b v : Nat) (ws : List (Nat × Nat × List Byte))
    (hw : ∀ w ∈ ws, (w.2.1 = b ∧ w.2.2 = toBytes 4 v) ∨ (w.2.1 + w.2.2.length ≤ b ∨ b + 4 ≤ w.2.1)) :
    ∀ {p : Memory}, p.wf = true →
      (ws.foldl (fun p w => p.put w.2.1 w.2.2) p).num b 4 = if ∃ w ∈ ws, w.2.1 = b ∧ w.2.2 = toBytes 4 v then v % 2 ^ 32 else p.num b 4 := by
  induction ws with
  | nil => intro p _; simp
  | cons w r ih =>
    intro p h
    rw [List.foldl_cons, ih (fun x hx => hw x (List.mem_cons_of_mem _ hx)) (Memory.put_wf _ _ h)]
    by_cases hr : ∃ x ∈ r, x.2.1 = b ∧ x.2.2 = toBytes 4 v
    · obtain ⟨x, hx, e⟩ := hr
      rw [if_pos ⟨x, hx, e⟩, if_pos ⟨x, List.mem_cons_of_mem _ hx, e⟩]
    · rw [if_neg hr]
      rcases hw w List.mem_cons_self with ⟨e1, e2⟩ | hd
      · rw [if_pos ⟨w, List.mem_cons_self, e1, e2⟩, e1, e2, Memory.num_put_self h]
      · rw [Memory.num_put_of_disjoint h _ _ _ hd]
        by_cases hself : w.2.1 = b ∧ w.2.2 = toBytes 4 v
        · rw [hself.1, hself.2, toBytes_length] at hd; omega
        · rw [if_neg]
          rintro ⟨x, hx, e⟩
          rcases List.mem_cons.mp hx with rfl | hx
          · exact hself e
          · exact hr ⟨x, hx, e⟩

/-- A byte that no write of a list touches. -/
theorem foldl_put_read (x : Nat) (ws : List (Nat × Nat × List Byte))
    (hw : ∀ w ∈ ws, w.2.1 + w.2.2.length ≤ x ∨ x < w.2.1) :
    ∀ {p : Memory}, p.wf = true → (ws.foldl (fun p w => p.put w.2.1 w.2.2) p).read x = p.read x := by
  induction ws with
  | nil => intro p _; rfl
  | cons w r ih =>
    intro p h
    rw [List.foldl_cons, ih (fun y hy => hw y (List.mem_cons_of_mem _ hy)) (Memory.put_wf _ _ h), Memory.read_put _ _ _ h,
      if_neg (by rcases hw w List.mem_cons_self with h1 | h1 <;> omega)]

/-! ## Vector results -/

/-- The writes of one lane of a vector result. -/
def Issue.laneWrites (is : Issue) (d n : Nat) (f : Nat → Nat) (l : Nat) : List (Nat × Nat × List Byte) :=
  if is.active.contains l then (upFrom 0 n).map (fun i => (is.core, vAddr is.rb (d + i) l, toBytes 4 (f l / 2 ^ (32 * i))))
  else if is.x.zero then (upFrom 0 n).map (fun i => (is.core, vAddr is.rb (d + i) l, toBytes 4 0))
  else []

theorem foldl_append_flatMap {α β : Type} (g : α → List β) (xs : List α) : ∀ acc : List β,
    xs.foldl (fun acc x => acc ++ g x) acc = acc ++ xs.flatMap g := by
  induction xs with
  | nil => simp
  | cons x r ih => intro acc; rw [List.foldl_cons, ih, List.flatMap_cons, List.append_assoc]

theorem Issue.vWrites_eq (is : Issue) (d n : Nat) (f : Nat → Nat) : is.vWrites d n f = lanes32.flatMap (is.laneWrites d n f) := by
  have h : is.vWrites d n f = lanes32.foldl (fun acc l => acc ++ is.laneWrites d n f l) [] := by
    unfold Issue.vWrites
    congr 1
    funext acc l
    unfold Issue.laneWrites
    split
    · rfl
    · split <;> simp
  rw [h, foldl_append_flatMap]; rfl

theorem mem_upFrom (n : Nat) : ∀ {a x : Nat}, x ∈ upFrom a n ↔ a ≤ x ∧ x < a + n := by
  induction n with
  | zero => intro a x; simp only [upFrom, List.not_mem_nil, false_iff]; omega
  | succ n ih => intro a x; simp only [upFrom, List.mem_cons, ih]; omega

theorem mem_lanes32 {l : Nat} : l ∈ lanes32 ↔ l < 32 := by simp [lanes32]

/-- A write of a vector result: its lane, its register, its value. -/
theorem Issue.mem_vWrites (is : Issue) (d n : Nat) (f : Nat → Nat) (w : Nat × Nat × List Byte) :
    w ∈ is.vWrites d n f ↔ ∃ l i, l < 32 ∧ i < n ∧
      ((l ∈ is.active ∧ w = (is.core, vAddr is.rb (d + i) l, toBytes 4 (f l / 2 ^ (32 * i)))) ∨
        (l ∉ is.active ∧ is.x.zero = true ∧ w = (is.core, vAddr is.rb (d + i) l, toBytes 4 0))) := by
  rw [Issue.vWrites_eq, List.mem_flatMap]
  constructor
  · rintro ⟨l, hl, hw⟩
    unfold Issue.laneWrites at hw
    split at hw
    · rename_i ha
      obtain ⟨i, hi, rfl⟩ := List.mem_map.mp hw
      exact ⟨l, i, mem_lanes32.mp hl, by have := (mem_upFrom n).mp hi; omega, .inl ⟨by simpa using ha, rfl⟩⟩
    · rename_i ha
      split at hw
      · rename_i hz
        obtain ⟨i, hi, rfl⟩ := List.mem_map.mp hw
        exact ⟨l, i, mem_lanes32.mp hl, by have := (mem_upFrom n).mp hi; omega, .inr ⟨by simpa using ha, hz, rfl⟩⟩
      · cases hw
  · rintro ⟨l, i, hl, hi, h⟩
    refine ⟨l, mem_lanes32.mpr hl, ?_⟩
    unfold Issue.laneWrites
    rcases h with ⟨ha, rfl⟩ | ⟨ha, hz, rfl⟩
    · rw [if_pos (by simpa using ha)]
      exact List.mem_map.mpr ⟨i, (mem_upFrom n).mpr (by omega), rfl⟩
    · rw [if_neg (by simpa using ha), if_pos hz]
      exact List.mem_map.mpr ⟨i, (mem_upFrom n).mpr (by omega), rfl⟩

theorem vAddr_inj {rb n n' l l' : Nat} (hl : l < 32) (hl' : l' < 32) (h : vAddr rb n l = vAddr rb n' l') : n = n' ∧ l = l' := by
  unfold vAddr at h; omega

theorem vAddr_apart {rb n n' l l' : Nat} (hl : l < 32) (hl' : l' < 32) (h : ¬(n = n' ∧ l = l')) :
    vAddr rb n l + 4 ≤ vAddr rb n' l' ∨ vAddr rb n' l' + 4 ≤ vAddr rb n l := by
  unfold vAddr; omega

/-- A register of a vector result, after it: the value in an active lane, else zero or what stood there. -/
theorem Issue.num_vWrites (is : Issue) (d n i : Nat) (f : Nat → Nat) (l : Nat) (hl : l < 32) (hi : i < n) {p : Memory}
    (h : p.wf = true) :
    ((is.vWrites d n f).foldl (fun p w => p.put w.2.1 w.2.2) p).num (vAddr is.rb (d + i) l) 4 =
      if l ∈ is.active then f l / 2 ^ (32 * i) % 2 ^ 32 else if is.x.zero then 0 else p.num (vAddr is.rb (d + i) l) 4 := by
  have key (v : Nat) (hv : (l ∈ is.active ∧ v = f l / 2 ^ (32 * i)) ∨ (l ∉ is.active ∧ v = 0)) :=
    foldl_put_num (vAddr is.rb (d + i) l) v (is.vWrites d n f) (fun w hw => by
      obtain ⟨l', i', hl', hi', hc⟩ := (is.mem_vWrites d n f w).mp hw
      by_cases hs : i' = i ∧ l' = l
      · obtain ⟨rfl, rfl⟩ := hs
        left
        rcases hc with ⟨ha, rfl⟩ | ⟨ha, hz, rfl⟩
        · rcases hv with ⟨_, rfl⟩ | ⟨hn, _⟩
          · exact ⟨rfl, rfl⟩
          · exact absurd ha hn
        · rcases hv with ⟨hn, _⟩ | ⟨_, rfl⟩
          · exact absurd hn ha
          · exact ⟨rfl, rfl⟩
      · right
        have hap := vAddr_apart (rb := is.rb) (n := d + i') (n' := d + i) hl' hl (by omega)
        rcases hc with ⟨ha, rfl⟩ | ⟨ha, hz, rfl⟩ <;> simp only [toBytes_length] <;> omega) h
  by_cases ha : l ∈ is.active
  · rw [if_pos ha, key _ (.inl ⟨ha, rfl⟩), if_pos]
    exact ⟨_, (is.mem_vWrites d n f _).mpr ⟨l, i, hl, hi, .inl ⟨ha, rfl⟩⟩, rfl, rfl⟩
  · rw [if_neg ha, key 0 (.inr ⟨ha, rfl⟩)]
    by_cases hz : is.x.zero = true
    · have hex : ∃ w ∈ is.vWrites d n f, w.2.1 = vAddr is.rb (d + i) l ∧ w.2.2 = toBytes 4 0 :=
        ⟨_, (is.mem_vWrites d n f _).mpr ⟨l, i, hl, hi, .inr ⟨ha, hz, rfl⟩⟩, rfl, rfl⟩
      rw [if_pos hex, if_pos hz, Nat.zero_mod]
    · rw [if_neg, if_neg hz]
      rintro ⟨w, hw, e, _⟩
      obtain ⟨l', i', hl', hi', hc⟩ := (is.mem_vWrites d n f w).mp hw
      rcases hc with ⟨ha', rfl⟩ | ⟨_, hz', _⟩
      · obtain ⟨_, rfl⟩ := vAddr_inj hl' hl e
        exact ha ha'
      · exact hz hz'

/-- Bytes outside the registers of a vector result. -/
theorem Issue.read_vWrites (is : Issue) (d n : Nat) (f : Nat → Nat) (x : Nat) (hx : ¬vBytes is d n x) {p : Memory} (h : p.wf = true) :
    ((is.vWrites d n f).foldl (fun p w => p.put w.2.1 w.2.2) p).read x = p.read x := by
  refine foldl_put_read x _ (fun w hw => ?_) h
  obtain ⟨l, i, hl, hi, hc⟩ := (is.mem_vWrites d n f w).mp hw
  unfold vBytes vAddr at hx
  rcases hc with ⟨_, rfl⟩ | ⟨_, _, rfl⟩ <;> simp only [toBytes_length, vAddr] <;> omega

/-! ## The issue of a word, by what its own rules say -/

/-- A word whose checks pass does what its own rules say. -/
theorem issueWord_settle {d : Desc} {s : State} {is : Issue} (h : Issues d s is) (body : Issue → State → Verdict) :
    issueWord d body s = .next (settle is (body is s) s) := by
  obtain ⟨hcur, hg, his, hck, hm⟩ := h
  simp only [issueWord, hcur, hg, ← his, hck, hm, Bool.false_eq_true, if_false]

/-- It completes where its Chunk has room. -/
theorem issueWord_go {d : Desc} {s : State} {is : Issue} (h : Issues d s is) {body : Issue → State → Verdict} {e : Eff}
    (hb : body is s = .go e) (hr : HasRoom is s e) : issueWord d body s = .next (applyEff is e s) := by
  rw [issueWord_settle h, hb]
  simp only [settle]
  rw [if_neg]
  rcases hr with ⟨h1, h2⟩ | h3
  · simp only [Bool.and_eq_true, Bool.or_eq_true, decide_eq_true_eq, not_and]
    intro h; omega
  · simp only [Bool.and_eq_true, Bool.or_eq_true, decide_eq_true_eq, not_and]
    intro _; omega

theorem issueWord_trap {d : Desc} {s : State} {is : Issue} (h : Issues d s is) {body : Issue → State → Verdict} {cause val : Nat}
    (hb : body is s = .trap cause val) : issueWord d body s = .next (raise is cause val s) := by
  rw [issueWord_settle h, hb]; rfl

theorem issueWord_wait {d : Desc} {s : State} {is : Issue} (h : Issues d s is) {body : Issue → State → Verdict} {w : Wait}
    (hb : body is s = .wait w) : issueWord d body s = .next (waitAt is w s) := by
  rw [issueWord_settle h, hb]; rfl

/-! ## What statements cite -/

/-- What a word that only writes its core's pool leaves. -/
theorem onlyPool_of (is : Issue) (e : Eff) (s : State) (W : Nat → Prop) (he : e.PoolOnly is.core)
    (hr : ∀ a, ¬W a → (e.poolAfter (s.core is.core).pool).read a = (s.core is.core).pool.read a) :
    OnlyPool is s (applyEff is e s) W := by
  obtain ⟨h, ha⟩ := applyEff_poolOnly is e s he
  have hc := h.core
  refine ⟨h.outside, ha, h.others, ?_, h.groups, fun a hW => ?_⟩
  · conv_lhs => rw [hc]
    rw [hc]
  · rw [hc]; exact hr a hW

/-- The pool of the core after such a word. -/
theorem applyEff_pool (is : Issue) (e : Eff) (s : State) (he : e.PoolOnly is.core) :
    ((applyEff is e s).core is.core).pool = e.poolAfter (s.core is.core).pool := by
  rw [(applyEff_poolOnly is e s he).1.core]

theorem Issue.vResult_poolOnly (is : Issue) (w : Bool) (d : Nat) (f : Nat → Nat) : (is.vResult w d f).PoolOnly is.core := by
  refine ⟨fun x hx => ?_, rfl, rfl, rfl, rfl, rfl, rfl⟩
  obtain ⟨_, _, _, _, ⟨_, rfl⟩ | ⟨_, _, rfl⟩⟩ := (is.mem_vWrites _ _ f x).mp hx <;> rfl

/-- A completed word with a vector result writes its registers and nothing else (R147). -/
theorem writesV_of_performs {i : Instr} {dsc : Desc} {c : Issue → State → Prop} {w : Bool} {d : Nat} {f : Issue → State → Nat → Nat}
    (h : Performs i dsc c (fun is s => is.vResult w d (f is s))) : WritesV i dsc c w d f := by
  intro s is hi hc hp hroom
  refine ⟨h s is hi hc hroom, fun l hl => ?_, onlyPool_of is _ s _ (is.vResult_poolOnly w d _)
    (fun a ha => is.read_vWrites d _ _ a ha hp)⟩
  have hpool := applyEff_pool is (is.vResult w d (f is s)) s (is.vResult_poolOnly w d _)
  have hn (i : Nat) (hi' : i < if w then 2 else 1) := is.num_vWrites d _ i (f is s) l hl hi' hp
  have e0 := hn 0 (by split <;> omega)
  have rd (n : Nat) : is.vRd (applyEff is (is.vResult w d (f is s)) s) n l =
      ((is.vWrites d (if w then 2 else 1) (f is s)).foldl (fun p w => p.put w.2.1 w.2.2) (s.core is.core).pool).num (vAddr is.rb n l) 4 := by
    unfold Issue.vRd State.poolNum; rw [hpool]; rfl
  simp only [Nat.add_zero, Nat.mul_zero, Nat.pow_zero, Nat.div_one] at e0
  cases w with
  | false =>
    simp only [Issue.vVal, Bool.false_eq_true, if_false] at *
    rw [rd d, e0]; rfl
  | true =>
    have e1 := hn 1 (by simp)
    simp only [Issue.vVal, Issue.vPair, if_true] at *
    rw [rd d, rd (d + 1), e0, e1]
    by_cases ha : l ∈ is.active
    · simp only [ha, if_true]
      have : f is s l / 2 ^ (32 * 1) = f is s l / 2 ^ 32 := by norm_num
      rw [this]; omega
    · simp only [ha, if_false]
      by_cases hz : is.x.zero = true
      · simp [hz]
      · simp only [hz]; rfl

theorem raw_poolOnly (c p : Nat) (bs : List Byte) : ({ raw := [(p, bs)] } : Eff).PoolOnly c := by
  refine ⟨fun _ hx => ?_, rfl, rfl, rfl, rfl, rfl, rfl⟩
  cases hx

/-- A completed word with an s result writes it and nothing else. -/
theorem writesS_of_performs {i : Instr} {dsc : Desc} {c : Issue → State → Prop} {d : Nat} {f : Issue → State → Nat}
    (h : Performs i dsc c (fun is s => is.sResult d (f is s))) : WritesS i dsc c d f := by
  intro s is hi hc hp hroom
  have hpo : (is.sResult d (f is s)).PoolOnly is.core := raw_poolOnly _ _ _
  refine ⟨h s is hi hc hroom, ?_, onlyPool_of is _ s _ hpo (fun a ha => ?_)⟩
  · unfold Issue.sRd State.poolNum
    rw [applyEff_pool is _ s hpo]
    exact Memory.num_put_self hp _ _
  · show ((s.core is.core).pool.put (sAddr is.rb d) (toBytes 4 (f is s))).read a = _
    rw [Memory.read_put _ _ _ hp, toBytes_length]
    exact if_neg ha

/-- The bits of a word built lane by lane. -/
theorem bitAt_foldl (p : Nat → Bool) (n : Nat) : ∀ l, l < n →
    bitAt ((List.range n).foldl (fun acc k => if p k then acc + 2 ^ k else acc) 0) l = p l ∧
      (List.range n).foldl (fun acc k => if p k then acc + 2 ^ k else acc) 0 < 2 ^ n := by
  induction n with
  | zero => intro l hl; omega
  | succ n ih =>
    have hb : (List.range n).foldl (fun acc k => if p k then acc + 2 ^ k else acc) 0 < 2 ^ n := by
      cases n with
      | zero => simp
      | succ m => exact (ih 0 (by omega)).2
    intro l hl
    rw [List.range_succ, List.foldl_append]
    simp only [List.foldl_cons, List.foldl_nil]
    generalize hx : (List.range n).foldl (fun acc k => if p k then acc + 2 ^ k else acc) 0 = x at hb ih
    have hpow : 2 ^ (n + 1) = 2 ^ n + 2 ^ n := by rw [Nat.pow_succ]; omega
    refine ⟨?_, by split <;> omega⟩
    by_cases e : l = n
    · subst e
      unfold bitAt
      by_cases hp : p l = true
      · rw [if_pos hp, Nat.add_div_right _ (Nat.two_pow_pos l), Nat.div_eq_of_lt hb, hp]; rfl
      · rw [if_neg hp, Nat.div_eq_of_lt hb]; simpa using hp
    · have hl' : l < n := by omega
      have := (ih l hl').1
      by_cases hp : p n = true
      · rw [if_pos hp, ← this]
        unfold bitAt
        obtain ⟨k, rfl⟩ : ∃ k, n = l + 1 + k := ⟨n - l - 1, by omega⟩
        have e2 : x + 2 ^ (l + 1 + k) = x + 2 ^ l * (2 * 2 ^ k) := by rw [Nat.pow_add, Nat.pow_succ]; ring
        rw [e2, Nat.add_mul_div_left _ _ (Nat.two_pow_pos l), Nat.add_mul_mod_self_left]
      · rw [if_neg hp]; exact this

/-- A completed word with a mask result writes the bits of its mask and nothing else (R147, R157). -/
theorem writesM_of_performs {i : Instr} {dsc : Desc} {c : Issue → State → Prop} {d : Nat} {f : Issue → State → Nat → Bool}
    (h : Performs i dsc c (fun is s => is.mResult s d (f is s))) : WritesM i dsc c d f := by
  intro s is hi hc hp hroom
  have hpo : (is.mResult s d (f is s)).PoolOnly is.core := raw_poolOnly _ _ _
  refine ⟨h s is hi hc hroom, fun l hl => ?_, onlyPool_of is _ s _ hpo (fun a ha => ?_)⟩
  · have hb := bitAt_foldl (fun l => if is.active.contains l then f is s l else if is.x.zero then false else bitAt (is.mRd s d) l) 32 l hl
    have e : is.mRd (applyEff is (is.mResult s d (f is s)) s) d =
        (List.range 32).foldl (fun acc k => if (if is.active.contains k then f is s k else if is.x.zero then false
          else bitAt (is.mRd s d) k) then acc + 2 ^ k else acc) 0 := by
      unfold Issue.mRd State.poolNum
      rw [applyEff_pool is _ s hpo]
      exact (Memory.num_put_self hp _ _).trans (Nat.mod_eq_of_lt hb.2)
    rw [e, hb.1]
    simp only [List.contains_iff_mem]
  · show ((s.core is.core).pool.put (mAddr is.rb d) (toBytes 4 _)).read a = _
    rw [Memory.read_put _ _ _ hp, toBytes_length]
    exact if_neg ha

end Sys2Proof.Machine
end

