-- ==== Sys2Proof/Laws/PerInstr.lean ====
section
/-! SUPPORT. For every instruction: it has a word of its own exactly when it is a code word. -/

-- One declaration at a time, so that the package as one text compiles in bounded memory.
set_option Elab.async false

namespace Sys2Proof.Laws.Words

/-- The encoder gives an instruction a word exactly when the manual gives it an encoding; a device step has none. -/
def Statement (i : Instr) : Prop := (encode i).isSome = i.isCode

theorem iadd (w t : Bool) (d a b : Nat) : Statement (.iadd w t d a b) := rfl
theorem iaddc (w t : Bool) (d a b : Nat) : Statement (.iaddc w t d a b) := rfl
theorem isub (w t : Bool) (d a b : Nat) : Statement (.isub w t d a b) := rfl
theorem ineg (w t : Bool) (d a : Nat) : Statement (.ineg w t d a) := rfl
theorem iabs (w t : Bool) (d a : Nat) : Statement (.iabs w t d a) := rfl
theorem iminS (w t : Bool) (d a b : Nat) : Statement (.iminS w t d a b) := rfl
theorem iminN (w t : Bool) (d a b : Nat) : Statement (.iminN w t d a b) := rfl
theorem imaxS (w t : Bool) (d a b : Nat) : Statement (.imaxS w t d a b) := rfl
theorem imaxN (w t : Bool) (d a b : Nat) : Statement (.imaxN w t d a b) := rfl
theorem imul (w t : Bool) (d a b : Nat) : Statement (.imul w t d a b) := rfl
theorem imulhS (w t : Bool) (d a b : Nat) : Statement (.imulhS w t d a b) := rfl
theorem imulhN (w t : Bool) (d a b : Nat) : Statement (.imulhN w t d a b) := rfl
theorem imad (w t : Bool) (d a b : Nat) : Statement (.imad w t d a b) := rfl
theorem idivS (w t : Bool) (d a b : Nat) : Statement (.idivS w t d a b) := rfl
theorem idivN (w t : Bool) (d a b : Nat) : Statement (.idivN w t d a b) := rfl
theorem iremS (w t : Bool) (d a b : Nat) : Statement (.iremS w t d a b) := rfl
theorem iremN (w t : Bool) (d a b : Nat) : Statement (.iremN w t d a b) := rfl
theorem iand (w t : Bool) (d a b : Nat) : Statement (.iand w t d a b) := rfl
theorem ior (w t : Bool) (d a b : Nat) : Statement (.ior w t d a b) := rfl
theorem ixor (w t : Bool) (d a b : Nat) : Statement (.ixor w t d a b) := rfl
theorem inot (w t : Bool) (d a : Nat) : Statement (.inot w t d a) := rfl
theorem shl (w t : Bool) (d a b : Nat) : Statement (.shl w t d a b) := rfl
theorem shr (w t : Bool) (d a b : Nat) : Statement (.shr w t d a b) := rfl
theorem sra (w t : Bool) (d a b : Nat) : Statement (.sra w t d a b) := rfl
theorem rotl (w t : Bool) (d a b : Nat) : Statement (.rotl w t d a b) := rfl
theorem clz (w t : Bool) (d a : Nat) : Statement (.clz w t d a) := rfl
theorem popc (w t : Bool) (d a : Nat) : Statement (.popc w t d a) := rfl
theorem brev (w t : Bool) (d a : Nat) : Statement (.brev w t d a) := rfl
theorem bfxS (w t : Bool) (d a b : Nat) : Statement (.bfxS w t d a b) := rfl
theorem bfxN (w t : Bool) (d a b : Nat) : Statement (.bfxN w t d a b) := rfl
theorem bfi (w t : Bool) (d a b : Nat) : Statement (.bfi w t d a b) := rfl
theorem iset (w : Bool) (c : ICond) (t : Bool) (d a b : Nat) : Statement (.iset w c t d a b) := rfl
theorem mov (w t : Bool) (d a : Nat) : Statement (.mov w t d a) := rfl
theorem sel (w t : Bool) (d a b : Nat) : Statement (.sel w t d a b) := rfl
theorem movsSV (d a : Nat) : Statement (.movsSV d a) := rfl
theorem movsSK (d a : Nat) : Statement (.movsSK d a) := rfl
theorem movsKS (d a : Nat) : Statement (.movsKS d a) := rfl
theorem movsSM (d a : Nat) : Statement (.movsSM d a) := rfl
theorem movsMS (d a : Nat) : Statement (.movsMS d a) := rfl
theorem lea (c : LeaScale) (t : Bool) (d a b : Nat) : Statement (.lea c t d a b) := by cases c <;> rfl
theorem sadd (d a b : Nat) : Statement (.sadd d a b) := rfl
theorem ssub (d a b : Nat) : Statement (.ssub d a b) := rfl
theorem smul (d a b : Nat) : Statement (.smul d a b) := rfl
theorem sand (d a b : Nat) : Statement (.sand d a b) := rfl
theorem sor (d a b : Nat) : Statement (.sor d a b) := rfl
theorem sxor (d a b : Nat) : Statement (.sxor d a b) := rfl
theorem sshl (d a b : Nat) : Statement (.sshl d a b) := rfl
theorem sshr (d a b : Nat) : Statement (.sshr d a b) := rfl
theorem smov (d a : Nat) : Statement (.smov d a) := rfl
theorem slea (d a b : Nat) : Statement (.slea d a b) := rfl
theorem srdl (d a b : Nat) : Statement (.srdl d a b) := rfl
theorem sset (c : ICond) (d a b : Nat) : Statement (.sset c d a b) := rfl
theorem fadd (t : Bool) (d a b : Nat) : Statement (.fadd t d a b) := rfl
theorem fsub (t : Bool) (d a b : Nat) : Statement (.fsub t d a b) := rfl
theorem fmul (t : Bool) (d a b : Nat) : Statement (.fmul t d a b) := rfl
theorem ffma (t : Bool) (d a b : Nat) : Statement (.ffma t d a b) := rfl
theorem fmin (t : Bool) (d a b : Nat) : Statement (.fmin t d a b) := rfl
theorem fmax (t : Bool) (d a b : Nat) : Statement (.fmax t d a b) := rfl
theorem fclass (t : Bool) (d a : Nat) : Statement (.fclass t d a) := rfl
theorem fset (c : FCond) (t : Bool) (d a b : Nat) : Statement (.fset c t d a b) := rfl
theorem frcp (t : Bool) (d a : Nat) : Statement (.frcp t d a) := rfl
theorem frsq (t : Bool) (d a : Nat) : Statement (.frsq t d a) := rfl
theorem fsqrt (t : Bool) (d a : Nat) : Statement (.fsqrt t d a) := rfl
theorem fexp2 (t : Bool) (d a : Nat) : Statement (.fexp2 t d a) := rfl
theorem flog2 (t : Bool) (d a : Nat) : Statement (.flog2 t d a) := rfl
theorem fsin (t : Bool) (d a : Nat) : Statement (.fsin t d a) := rfl
theorem fcos (t : Bool) (d a : Nat) : Statement (.fcos t d a) := rfl
theorem ftanh (t : Bool) (d a : Nat) : Statement (.ftanh t d a) := rfl
theorem hadd2F16 (t : Bool) (d a b : Nat) : Statement (.hadd2F16 t d a b) := rfl
theorem hmul2F16 (t : Bool) (d a b : Nat) : Statement (.hmul2F16 t d a b) := rfl
theorem hfma2F16 (t : Bool) (d a b : Nat) : Statement (.hfma2F16 t d a b) := rfl
theorem hmax2F16 (t : Bool) (d a b : Nat) : Statement (.hmax2F16 t d a b) := rfl
theorem hadd2Bf16 (t : Bool) (d a b : Nat) : Statement (.hadd2Bf16 t d a b) := rfl
theorem hmul2Bf16 (t : Bool) (d a b : Nat) : Statement (.hmul2Bf16 t d a b) := rfl
theorem hfma2Bf16 (t : Bool) (d a b : Nat) : Statement (.hfma2Bf16 t d a b) := rfl
theorem hmax2Bf16 (t : Bool) (d a b : Nat) : Statement (.hmax2Bf16 t d a b) := rfl
theorem fcvt (c : FcvtKind) (t : Bool) (d a : Nat) : Statement (.fcvt c t d a) := rfl
theorem fcvtNp (c : Bool) (d a slot : Nat) : Statement (.fcvtNp c d a slot) := rfl
theorem f2i (y : IntTy) (t : Bool) (d a : Nat) : Statement (.f2i y t d a) := rfl
theorem i2f (y : IntTy) (t : Bool) (d a : Nat) : Statement (.i2f y t d a) := rfl
theorem npack (d a slot : Nat) : Statement (.npack d a slot) := rfl
theorem nunpack (d a slot : Nat) : Statement (.nunpack d a slot) := rfl
theorem scenc (t : Bool) (d a slot : Nat) : Statement (.scenc t d a slot) := rfl
theorem scdec (t : Bool) (d a slot : Nat) : Statement (.scdec t d a slot) := rfl
theorem shfl (c : ShflMode) (t : Bool) (d a b : Nat) : Statement (.shfl c t d a b) := rfl
theorem putl (c t : Bool) (d a b : Nat) : Statement (.putl c t d a b) := rfl
theorem vote (c : VoteMode) (d a : Nat) : Statement (.vote c d a) := rfl
theorem redl (c : RedOp) (t : Bool) (d a : Nat) : Statement (.redl c t d a) := rfl
theorem scanl (c : RedOp) (t : Bool) (d a : Nat) : Statement (.scanl c t d a) := rfl
theorem lpart (c : Nat) : Statement (.lpart c) := rfl
theorem bra (off : Nat) : Statement (.bra off) := rfl
theorem brc (m : Nat) (neg : Bool) (off : Nat) : Statement (.brc m neg off) := rfl
theorem call (off : Nat) : Statement (.call off) := rfl
theorem brx (a : Nat) : Statement (.brx a) := rfl
theorem join (d : Nat) : Statement (.join d) := rfl
theorem leave (d : Nat) : Statement (.leave d) := rfl
theorem waitm (d : Nat) : Statement (.waitm d) := rfl
theorem xpfx (f4s f4en : Bool) (f4 : Nat) (sat : Bool) (rm : Nat) (zero : Bool) (m : Nat) : Statement (.xpfx f4s f4en f4 sat rm zero m) := rfl
theorem limm (hi : Bool) (v : Nat) : Statement (.limm hi v) := rfl
theorem prio (p : Nat) : Statement (.prio p) := rfl
theorem shint (c : Nat) : Statement (.shint c) := rfl
theorem ld (l : Nat) (x : Bool) (d a : Nat) (c : Scope) (z : Size) : Statement (.ld l x d a c z) := rfl
theorem lda (l : Nat) (x : Bool) (d a : Nat) (c : Scope) (z : Size) : Statement (.lda l x d a c z) := rfl
theorem st (l : Nat) (x : Bool) (d a : Nat) (c : Scope) (z : Size) : Statement (.st l x d a c z) := rfl
theorem stl (x : Bool) (d a : Nat) (c : Scope) (z : Size) : Statement (.stl x d a c z) := rfl
theorem lds (l : Nat) (x : Bool) (d a : Nat) (z : Size) : Statement (.lds l x d a z) := rfl
theorem sts (l : Nat) (x : Bool) (d a : Nat) (z : Size) : Statement (.sts l x d a z) := rfl
theorem ldw (l : Nat) (x : Bool) (d a : Nat) (z : Size) : Statement (.ldw l x d a z) := rfl
theorem stw (l : Nat) (x : Bool) (d a : Nat) (z : Size) : Statement (.stw l x d a z) := rfl
theorem ldp (l : Nat) (x : Bool) (d a : Nat) (z : Size) : Statement (.ldp l x d a z) := rfl
theorem stp (l : Nat) (x : Bool) (d a : Nat) (z : Size) : Statement (.stp l x d a z) := rfl
theorem atom (l d a : Nat) (p : Place) (w : Bool) (o : AtomOp) : Statement (.atom l d a p w o) := rfl
theorem red (l d a : Nat) (p : Place) (w : Bool) (o : AtomOp) : Statement (.red l d a p w o) := rfl
theorem pref (l : Nat) (x : Bool) (a : Nat) (m : Level) : Statement (.pref l x a m) := rfl
theorem evict (l : Nat) (x : Bool) (a : Nat) (m : Level) : Statement (.evict l x a m) := rfl
theorem ckin (l : Nat) (x : Bool) (a : Nat) : Statement (.ckin l x a) := rfl
theorem rwr (d a m : Nat) : Statement (.rwr d a m) := rfl
theorem arvw (l d a : Nat) : Statement (.arvw l d a) := rfl
theorem bari (x : Bool) (d a : Nat) : Statement (.bari x d a) := rfl
theorem bara (x : Bool) (a : Nat) : Statement (.bara x a) := rfl
theorem bard (x : Bool) (a : Nat) : Statement (.bard x a) := rfl
theorem barw (x : Bool) (a : Nat) : Statement (.barw x a) := rfl
theorem bart (x : Bool) (d a : Nat) : Statement (.bart x d a) := rfl
theorem bars (x : Bool) (a : Nat) : Statement (.bars x a) := rfl
theorem barq (x : Bool) (d a : Nat) : Statement (.barq x d a) := rfl
theorem push (x : Bool) (p f a : Nat) : Statement (.push x p f a) := rfl
theorem waittl (d a : Nat) : Statement (.waittl d a) := rfl
theorem tlrd (d a : Nat) : Statement (.tlrd d a) := rfl
theorem ringp (x : Bool) (a r : Nat) : Statement (.ringp x a r) := rfl
theorem ringc (x : Bool) (a r : Nat) : Statement (.ringc x a r) := rfl
theorem ringcRel (x : Bool) (a r : Nat) : Statement (.ringcRel x a r) := rfl
theorem cont (d a : Nat) : Statement (.cont d a) := rfl
theorem mma (l : Nat) (q : Act) (n a slot : Nat) : Statement (.mma l q n a slot) := rfl
theorem mzero (l n : Nat) : Statement (.mzero l n) := rfl
theorem mrd (l d n : Nat) : Statement (.mrd l d n) := rfl
theorem mwr (l d n : Nat) : Statement (.mwr l d n) := rfl
theorem trap (h : Bool) (c : Nat) : Statement (.trap h c) := rfl
theorem sregr (x : Bool) (d a : Nat) : Statement (.sregr x d a) := rfl
theorem sregw (d a : Nat) : Statement (.sregw d a) := rfl
theorem waitt (d : Nat) : Statement (.waitt d) := rfl
theorem capq (d : Nat) : Statement (.capq d) := rfl
theorem chunkReady (core slot : Nat) : Statement (.chunkReady core slot) := rfl
theorem commitBatch (part : Nat) : Statement (.commitBatch part) := rfl
theorem signatureBroadcast (core : Nat) : Statement (.signatureBroadcast core) := rfl
theorem differenceApply (part : Nat) : Statement (.differenceApply part) := rfl
theorem loadReturn (core slot : Nat) : Statement (.loadReturn core slot) := rfl
theorem mmaRetire (core : Nat) (mismatch : Bool) : Statement (.mmaRetire core mismatch) := rfl
theorem stwLanding (id : Nat) : Statement (.stwLanding id) := rfl
theorem rwrLanding (id : Nat) : Statement (.rwrLanding id) := rfl
theorem kWrite (id : Nat) : Statement (.kWrite id) := rfl
theorem ringAtCommit (id : Nat) : Statement (.ringAtCommit id) := rfl
theorem barrierEvent (core bar n : Nat) : Statement (.barrierEvent core bar n) := rfl
theorem barrierRelease (core bar : Nat) : Statement (.barrierRelease core bar) := rfl
theorem fenceWaitEnd (core slot : Nat) : Statement (.fenceWaitEnd core slot) := rfl
theorem nclAck (id : Nat) : Statement (.nclAck id) := rfl
theorem hostWrite (system : Bool) (pa : Nat) (bytes : List (BitVec 8)) : Statement (.hostWrite system pa bytes) := rfl
theorem hostRead (req : HostReq) (n : Nat) : Statement (.hostRead req n) := rfl
theorem parityDifference (src seq stripe off stamp : Nat) (bytes : List (BitVec 8)) : Statement (.parityDifference src seq stripe off stamp bytes) := rfl
theorem parityAck (holder seq : Nat) : Statement (.parityAck holder seq) := rfl
theorem copy (op : Nat) : Statement (.copy op) := rfl
theorem copyRetire (op : Nat) : Statement (.copyRetire op) := rfl
theorem followOnMma (op : Nat) : Statement (.followOnMma op) := rfl
theorem gather (op : Nat) : Statement (.gather op) := rfl
theorem collRs (op : Nat) (others : List (List (BitVec 8))) : Statement (.collRs op others) := rfl
theorem collAg (op : Nat) (others : List (List (BitVec 8))) : Statement (.collAg op others) := rfl
theorem collXorrs (op : Nat) (others : List (List (BitVec 8))) : Statement (.collXorrs op others) := rfl
theorem collXorrb (op : Nat) (others : List (List (BitVec 8))) : Statement (.collXorrb op others) := rfl
theorem srch (op : Nat) : Statement (.srch op) := rfl
theorem scoreRequest (search idx : Nat) : Statement (.scoreRequest search idx) := rfl
theorem expandRequest (search idx : Nat) : Statement (.expandRequest search idx) := rfl
theorem scoreReply (search idx : Nat) : Statement (.scoreReply search idx) := rfl
theorem expandReply (search idx : Nat) : Statement (.expandReply search idx) := rfl
theorem refineRequest (search idx : Nat) : Statement (.refineRequest search idx) := rfl
theorem refineReply (search idx : Nat) : Statement (.refineReply search idx) := rfl
theorem merge (search : Nat) : Statement (.merge search) := rfl
theorem updInsert (op : Nat) : Statement (.updInsert op) := rfl
theorem updDelete (op : Nat) : Statement (.updDelete op) := rfl
theorem updLink (op : Nat) : Statement (.updLink op) := rfl
theorem reclaimInsert (op : Nat) : Statement (.reclaimInsert op) := rfl
theorem publ (op : Nat) : Statement (.publ op) := rfl
theorem publication (index : Nat) : Statement (.publication index) := rfl
theorem redn (op : Nat) : Statement (.redn op) := rfl
theorem enq (op : Nat) : Statement (.enq op) := rfl
theorem mcast (op : Nat) : Statement (.mcast op) := rfl
theorem operationComplete (op : Nat) : Statement (.operationComplete op) := rfl
theorem contRoomReserve (core slot : Nat) : Statement (.contRoomReserve core slot) := rfl
theorem gathererTimeout (die kernel : Nat) (entry : Nat) : Statement (.gathererTimeout die kernel entry) := rfl
theorem teamFormation (kernel : Nat) : Statement (.teamFormation kernel) := rfl
theorem debugResume (core slot : Nat) : Statement (.debugResume core slot) := rfl
theorem activeSetLeave (core slot : Nat) : Statement (.activeSetLeave core slot) := rfl
theorem yieldDemotionEnd (core slot : Nat) : Statement (.yieldDemotionEnd core slot) := rfl
theorem kernelDispatch (part : Nat) : Statement (.kernelDispatch part) := rfl
theorem coreLoad (kernel core : Nat) : Statement (.coreLoad kernel core) := rfl
theorem kernelComplete (kernel : Nat) : Statement (.kernelComplete kernel) := rfl
theorem kernelStopped (kernel : Nat) : Statement (.kernelStopped kernel) := rfl
theorem quantumExpiry (kernel cluster : Nat) : Statement (.quantumExpiry kernel cluster) := rfl
theorem imageSaveComplete (kernel cluster : Nat) : Statement (.imageSaveComplete kernel cluster) := rfl
theorem imageRestore (kernel cluster target : Nat) : Statement (.imageRestore kernel cluster target) := rfl
theorem restoreComplete (kernel cluster : Nat) : Statement (.restoreComplete kernel cluster) := rfl
theorem migrationComplete (die : Nat) : Statement (.migrationComplete die) := rfl
theorem tdnextWrite (die : Nat) (word : TdWord) : Statement (.tdnextWrite die word) := rfl
theorem tdstatDiscClear (die : Nat) (value : Nat) : Statement (.tdstatDiscClear die value) := rfl
theorem mcskipClear (die : Nat) (value : Nat) : Statement (.mcskipClear die value) := rfl
theorem lperiodWrite (die : Nat) (value : Nat) : Statement (.lperiodWrite die value) := rfl
theorem xflgWrite (die : Nat) (value : Nat) : Statement (.xflgWrite die value) := rfl
theorem xfheadWrite (die : Nat) (value : Nat) : Statement (.xfheadWrite die value) := rfl
theorem captureClear (die unit : Nat) : Statement (.captureClear die unit) := rfl
theorem registerWrite (die off size value : Nat) : Statement (.registerWrite die off size value) := rfl
theorem tailWrite (queue : Nat) : Statement (.tailWrite queue) := rfl
theorem nodeFetch (queue : Nat) : Statement (.nodeFetch queue) := rfl
theorem nodeComplete (queue seq : Nat) : Statement (.nodeComplete queue seq) := rfl
theorem engineNodeTake (queue seq : Nat) : Statement (.engineNodeTake queue seq) := rfl
theorem joinNode (queue seq : Nat) : Statement (.joinNode queue seq) := rfl
theorem conditionalNode (queue seq : Nat) : Statement (.conditionalNode queue seq) := rfl
theorem timedNodeExpiry (queue seq : Nat) : Statement (.timedNodeExpiry queue seq) := rfl
theorem timedHoldLoad (queue seq : Nat) : Statement (.timedHoldLoad queue seq) := rfl
theorem waittWake (core slot : Nat) : Statement (.waittWake core slot) := rfl
theorem ppsEdge (sec ns : Nat) (narrow : Bool) : Statement (.ppsEdge sec ns narrow) := rfl
theorem walkComplete (ctx va : Nat) (acc : AccKind) : Statement (.walkComplete ctx va acc) := rfl
theorem xfaultRecordWrite (part : Nat) : Statement (.xfaultRecordWrite part) := rfl
theorem requestResend (core slot : Nat) : Statement (.requestResend core slot) := rfl
theorem lineRebuild (line : Nat) (bytes : List (BitVec 8)) : Statement (.lineRebuild line bytes) := rfl
theorem refresh (stack channel pc bank : Nat) : Statement (.refresh stack channel pc bank) := rfl
theorem refreshBackoff (stack channel pc bank : Nat) : Statement (.refreshBackoff stack channel pc bank) := rfl
theorem linkLock (link : Nat) : Statement (.linkLock link) := rfl
theorem trainingTimeout (link : Nat) : Statement (.trainingTimeout link) := rfl
theorem trainingRetry (link : Nat) : Statement (.trainingRetry link) := rfl
theorem flitReplay (link : Nat) : Statement (.flitReplay link) := rfl
theorem lockLoss (link : Nat) : Statement (.lockLoss link) := rfl
theorem retrainTimeout (link : Nat) : Statement (.retrainTimeout link) := rfl
theorem packetArrival (src dst seq payload : Nat) : Statement (.packetArrival src dst seq payload) := rfl
theorem packetAck (src dst seq : Nat) : Statement (.packetAck src dst seq) := rfl
theorem resendTimeout (src dst seq : Nat) : Statement (.resendTimeout src dst seq) := rfl
theorem leaseDue (unit : Nat) : Statement (.leaseDue unit) := rfl
theorem leaseTestingStart (unit : Nat) : Statement (.leaseTestingStart unit) := rfl
theorem patternComplete (unit passBin : Nat) : Statement (.patternComplete unit passBin) := rfl
theorem patrolComplete (unit : Nat) (rows : List Nat) : Statement (.patrolComplete unit rows) := rfl
theorem rowRepair (unit row : Nat) : Statement (.rowRepair unit row) := rfl
theorem monitorSample (die unit : Nat) (sample : Int) : Statement (.monitorSample die unit sample) := rfl
theorem inputVoltageChange (mv : Nat) : Statement (.inputVoltageChange mv) := rfl
theorem thermalTrip (tenths : Nat) : Statement (.thermalTrip tenths) := rfl
theorem watchdogExpiry (die : Nat) (stack : Option Nat) : Statement (.watchdogExpiry die stack) := rfl
theorem wordNotInstruction (r : IllReason) : Statement (.wordNotInstruction r) := rfl
theorem nclEnumeration (base : Nat) : Statement (.nclEnumeration base) := rfl
theorem fusedSoftmax : Statement (.fusedSoftmax) := rfl
theorem ret : Statement (.ret) := rfl
theorem exit : Statement (.exit) := rfl
theorem yield : Statement (.yield) := rfl
theorem nop : Statement (.nop) := rfl
theorem chk : Statement (.chk) := rfl
theorem fenceCl : Statement (.fenceCl) := rfl
theorem fenceDv : Statement (.fenceDv) := rfl
theorem fenceSy : Statement (.fenceSy) := rfl
theorem fenceSv : Statement (.fenceSv) := rfl
theorem tret : Statement (.tret) := rfl
theorem bkpt : Statement (.bkpt) := rfl
theorem synci : Statement (.synci) := rfl
theorem create : Statement (.create) := rfl
theorem read : Statement (.read) := rfl
theorem suspend : Statement (.suspend) := rfl
theorem resume : Statement (.resume) := rfl
theorem kill : Statement (.kill) := rfl
theorem destroy : Statement (.destroy) := rfl
theorem qopen : Statement (.qopen) := rfl
theorem qclose : Statement (.qclose) := rfl
theorem qresume : Statement (.qresume) := rfl
theorem qread : Statement (.qread) := rfl
theorem icreate : Statement (.icreate) := rfl
theorem idestroy : Statement (.idestroy) := rfl
theorem iread : Statement (.iread) := rfl
theorem inval : Statement (.inval) := rfl
theorem migrate : Statement (.migrate) := rfl
theorem xresolve : Statement (.xresolve) := rfl
theorem xfail : Statement (.xfail) := rfl
theorem wrpart : Statement (.wrpart) := rfl
theorem wrregion : Statement (.wrregion) := rfl
theorem mapTakeEffect : Statement (.mapTakeEffect) := rfl
theorem wrcgrp : Statement (.wrcgrp) := rfl
theorem setcap : Statement (.setcap) := rfl
theorem capTakeEffect : Statement (.capTakeEffect) := rfl
theorem readrec : Statement (.readrec) := rfl
theorem readunit : Statement (.readunit) := rfl
theorem cmdUnknown : Statement (.cmdUnknown) := rfl
theorem ppsLoss : Statement (.ppsLoss) := rfl
theorem scoreHalving : Statement (.scoreHalving) := rfl
theorem scorePersist : Statement (.scorePersist) := rfl
theorem powerFaultShutdown : Statement (.powerFaultShutdown) := rfl
theorem mainRestart : Statement (.mainRestart) := rfl
theorem powerClamp : Statement (.powerClamp) := rfl
theorem mgmtReadrec : Statement (.mgmtReadrec) := rfl
theorem readscore : Statement (.readscore) := rfl
theorem readmon : Statement (.readmon) := rfl
theorem resetpart : Statement (.resetpart) := rfl
theorem dump : Statement (.dump) := rfl
theorem readdump : Statement (.readdump) := rfl
theorem mgmtSetcap : Statement (.mgmtSetcap) := rfl
theorem wrconf : Statement (.wrconf) := rfl
theorem mgmtUnknown : Statement (.mgmtUnknown) := rfl
theorem mctpControl : Statement (.mctpControl) := rfl
theorem pldmMessage : Statement (.pldmMessage) := rfl
theorem codeFetchFault : Statement (.codeFetchFault) := rfl
theorem soloTimeout : Statement (.soloTimeout) := rfl
theorem activeSetPinExpiry : Statement (.activeSetPinExpiry) := rfl
theorem leasePreemptTimer : Statement (.leasePreemptTimer) := rfl

end Sys2Proof.Laws.Words
end

