-- ==== Sys2Proof/Tests/Slice0.lean ====
section
/-! SUPPORT. Tests: words written out from the encodings, ill-formed terms, witnesses of the hypotheses of every statement, and single
steps whose results are worked out by hand from the rules. -/

-- One declaration at a time, so that the package as one text compiles in bounded memory.
set_option Elab.async false

namespace Sys2Proof.Tests

open Sys2Proof.Machine

/-! ## Words -/

/-- Each word decodes to its instruction, which is well formed and whose word it is. -/
def stands (l : List (Nat × Instr)) : Bool :=
  l.all (fun e => decodeTableWord 32 e.1 == some e.2 && e.2.wf && encode e.2 == some e.1)

/-- Words of IADD to SRA, from the match and the field places of spec/opcode_table.json and the codes of R132 to R137. -/
theorem test_decode_integer_1 : stands [
  (0x042A8AE6, .iadd true true 42 21 102),
  (0x046A8AE6, .iaddc true true 42 21 102),
  (0x04AA8AE6, .isub true true 42 21 102),
  (0x04EA8A80, .ineg true true 42 21),
  (0x052A8A80, .iabs true true 42 21),
  (0x056A8AE6, .iminS true true 42 21 102),
  (0x05AA8AE6, .iminN true true 42 21 102),
  (0x05EA8AE6, .imaxS true true 42 21 102),
  (0x062A8AE6, .imaxN true true 42 21 102),
  (0x0C2A8AE6, .imul true true 42 21 102),
  (0x0C6A8AE6, .imulhS true true 42 21 102),
  (0x0CAA8AE6, .imulhN true true 42 21 102),
  (0x0CEA8AE6, .imad true true 42 21 102),
  (0x0D2A8AE6, .idivS true true 42 21 102),
  (0x0D6A8AE6, .idivN true true 42 21 102),
  (0x0DAA8AE6, .iremS true true 42 21 102),
  (0x0DEA8AE6, .iremN true true 42 21 102),
  (0x142A8AE6, .iand true true 42 21 102),
  (0x146A8AE6, .ior true true 42 21 102),
  (0x14AA8AE6, .ixor true true 42 21 102),
  (0x14EA8A80, .inot true true 42 21),
  (0x152A8AE6, .shl true true 42 21 102),
  (0x156A8AE6, .shr true true 42 21 102),
  (0x15AA8AE6, .sra true true 42 21 102)] = true := by decide +kernel

/-- Words of ROTL to ISET, from the match and the field places of spec/opcode_table.json and the codes of R132 to R137. -/
theorem test_decode_integer_2 : stands [
  (0x15EA8AE6, .rotl true true 42 21 102),
  (0x1C2A8A80, .clz true true 42 21),
  (0x1C6A8A80, .popc true true 42 21),
  (0x1CAA8A80, .brev true true 42 21),
  (0x1CEA8AE6, .bfxS true true 42 21 102),
  (0x1D2A8AE6, .bfxN true true 42 21 102),
  (0x1D6A8AE6, .bfi true true 42 21 102),
  (0x25EA8AE6, .iset true .leN true 42 21 102)] = true := by decide +kernel

/-- Words of MOV to SSET, from the match and the field places of spec/opcode_table.json and the codes of R132 to R137. -/
theorem test_decode_move_scalar : stands [
  (0x2C2A8A80, .mov true true 42 21),
  (0x2DAA8AE6, .sel true true 42 21 102),
  (0x284A8A80, .movsSV 42 21),
  (0x288A8A80, .movsSK 42 21),
  (0x28CA8A80, .movsKS 42 21),
  (0x290A8A80, .movsSM 42 21),
  (0x294A8A80, .movsMS 42 21),
  (0x2A6A8AE6, .lea .x4 true 42 21 102),
  (0x300A8AE6, .sadd 42 21 102),
  (0x304A8AE6, .ssub 42 21 102),
  (0x308A8AE6, .smul 42 21 102),
  (0x30CA8AE6, .sand 42 21 102),
  (0x310A8AE6, .sor 42 21 102),
  (0x314A8AE6, .sxor 42 21 102),
  (0x318A8AE6, .sshl 42 21 102),
  (0x31CA8AE6, .sshr 42 21 102),
  (0x320A8A80, .smov 42 21),
  (0x324A8AE6, .slea 42 21 102),
  (0x328A8AE6, .srdl 42 21 102),
  (0x35CA8AE6, .sset .leN 42 21 102)] = true := by decide +kernel

/-- Words of FADD to HMAX2_BF16, from the match and the field places of spec/opcode_table.json and the codes of R132 to R137. -/
theorem test_decode_float : stands [
  (0x402A8AE6, .fadd true 42 21 102),
  (0x406A8AE6, .fsub true 42 21 102),
  (0x40AA8AE6, .fmul true 42 21 102),
  (0x40EA8AE6, .ffma true 42 21 102),
  (0x412A8AE6, .fmin true 42 21 102),
  (0x416A8AE6, .fmax true 42 21 102),
  (0x41AA8A80, .fclass true 42 21),
  (0x45AA8AE6, .fset .un true 42 21 102),
  (0x482A8A80, .frcp true 42 21),
  (0x486A8A80, .frsq true 42 21),
  (0x48AA8A80, .fsqrt true 42 21),
  (0x48EA8A80, .fexp2 true 42 21),
  (0x492A8A80, .flog2 true 42 21),
  (0x496A8A80, .fsin true 42 21),
  (0x49AA8A80, .fcos true 42 21),
  (0x49EA8A80, .ftanh true 42 21),
  (0x4C2A8AE6, .hadd2F16 true 42 21 102),
  (0x4C6A8AE6, .hmul2F16 true 42 21 102),
  (0x4CAA8AE6, .hfma2F16 true 42 21 102),
  (0x4CEA8AE6, .hmax2F16 true 42 21 102),
  (0x502A8AE6, .hadd2Bf16 true 42 21 102),
  (0x506A8AE6, .hmul2Bf16 true 42 21 102),
  (0x50AA8AE6, .hfma2Bf16 true 42 21 102),
  (0x50EA8AE6, .hmax2Bf16 true 42 21 102)] = true := by decide +kernel

/-- Words of FCVT to SCDEC, from the match and the field places of spec/opcode_table.json and the codes of R132 to R137. -/
theorem test_decode_convert : stands [
  (0x812A8A80, .fcvt .bf16F16 true 42 21),
  (0x81CA8A85, .fcvtNp true 42 21 5),
  (0x856A8A80, .f2i .n16 true 42 21),
  (0x896A8A80, .i2f .n16 true 42 21),
  (0x8C0A8A85, .npack 42 21 5),
  (0x8C4A8A85, .nunpack 42 21 5),
  (0x902A8A85, .scenc true 42 21 5),
  (0x906A8A85, .scdec true 42 21 5)] = true := by decide +kernel

/-- Words of SHFL to LPART, from the match and the field places of spec/opcode_table.json and the codes of R132 to R137. -/
theorem test_decode_crosslane : stands [
  (0xA0AA8AE6, .shfl .down true 42 21 102),
  (0xA46A8AE6, .putl true true 42 21 102),
  (0xA88A8A80, .vote .bal 42 21),
  (0xAE6A8A80, .redl .fmin true 42 21),
  (0xB26A8A80, .scanl .fmin true 42 21),
  (0xB4000002, .lpart 2)] = true := by decide +kernel

/-- Words of BRA to WAITM, from the match and the field places of spec/opcode_table.json and the codes of R132 to R137. -/
theorem test_decode_control : stands [
  (0xC0012345, .bra 74565),
  (0xC6C12345, .brc 11 false 74565),
  (0xC8012345, .call 74565),
  (0xCC000A80, .brx 21),
  (0xCC400000, .ret),
  (0xCC800000, .exit),
  (0xCCC00000, .yield),
  (0xCD000000, .nop),
  (0xD00A8000, .join 42),
  (0xD04A8000, .leave 42),
  (0xD08A8000, .waitm 42)] = true := by decide +kernel

/-- Words of XPFX to CHK, from the match and the field places of spec/opcode_table.json and the codes of R132 to R137. -/
theorem test_decode_hint : stands [
  (0xFC019A7B, .xpfx false true 77 false 3 true 11),
  (0xFC81BEEF, .limm true 48879),
  (0xFD00BEEF, .prio 48879),
  (0xFD800002, .shint 2),
  (0xFE000000, .chk)] = true := by decide +kernel

/-- Words of LD to BARD, from the match and the field places of spec/opcode_table.json and the codes of R132 to R137. -/
theorem test_decode_memory_1 : stands [
  (0xE26A8A93, .ld 9 true 42 21 .sy .b64),
  (0xE26A8AB3, .lda 9 true 42 21 .sy .b64),
  (0xE66A8A93, .st 9 true 42 21 .sy .b64),
  (0xE42A8AB3, .stl true 42 21 .sy .b64),
  (0xEA6A8A83, .lds 9 true 42 21 .b64),
  (0xEA6A8A8B, .sts 9 true 42 21 .b64),
  (0xEA6A8A93, .ldw 9 true 42 21 .b64),
  (0xEA6A8A9B, .stw 9 true 42 21 .b64),
  (0xEA6A8AA3, .ldp 9 true 42 21 .b64),
  (0xEA6A8AAB, .stp 9 true 42 21 .b64),
  (0xEC0A8AD8, .atom 0 42 21 .far true .xor),
  (0xEE6A8AD8, .red 9 42 21 .far true .xor),
  (0xF0000000, .fenceCl),
  (0xF0000001, .fenceDv),
  (0xF0000002, .fenceSy),
  (0xF0000003, .fenceSv),
  (0xF2600A8A, .pref 9 true 21 .mc),
  (0xF2600A92, .evict 9 true 21 .mc),
  (0xF2600A98, .ckin 9 true 21),
  (0xF00A8AA2, .rwr 42 21 2),
  (0xF24A86A8, .arvw 9 42 13),
  (0xF02A8AB0, .bari true 42 21),
  (0xF0200AB8, .bara true 21),
  (0xF0200AC0, .bard true 21)] = true := by decide +kernel

/-- Words of BARW to BARQ, from the match and the field places of spec/opcode_table.json and the codes of R132 to R137. -/
theorem test_decode_memory_2 : stands [
  (0xF0200AC8, .barw true 21),
  (0xF02A8AD0, .bart true 42 21),
  (0xF0200AD8, .bars true 21),
  (0xF02A8AE0, .barq true 42 21)] = true := by decide +kernel

/-- Words of PUSH to SYNCI, from the match and the field places of spec/opcode_table.json and the codes of R132 to R137. -/
theorem test_decode_engine_system : stands [
  (0xF42CCA80, .push true 6 3 21),
  (0xF40A8A88, .waittl 42 21),
  (0xF40A8A90, .tlrd 42 21),
  (0xF420069B, .ringp true 13 3),
  (0xF42006A3, .ringc true 13 3),
  (0xF42046A3, .ringcRel true 13 3),
  (0xF40A8AA8, .cont 42 21),
  (0xF6494AB5, .mma 9 .bf16 5 21 5),
  (0xF6414038, .mzero 9 5),
  (0xF64A82C0, .mrd 9 42 5),
  (0xF64A82C8, .mwr 9 42 5),
  (0xF8202D00, .trap true 90),
  (0xF8000008, .tret),
  (0xF82A8490, .sregr true 42 9),
  (0xF80A8498, .sregw 42 9),
  (0xF80A8020, .waitt 42),
  (0xF80A8028, .capq 42),
  (0xF8000030, .bkpt),
  (0xF8000038, .synci)] = true := by decide +kernel
/-- Words that are no instruction, by the reason of R138: a reserved major, a reserved code, a res field, a reserved hint kind, an XPFX with
rm 5, a look field of a far ATOM. -/
theorem test_decode_refuses :
    decode 0x3C000000 = .bad .major ∧ decode 0xD1000000 = .bad .code ∧ decode 0xD0000001 = .bad .resField ∧ decode 0xFF800000 = .bad .hintKind ∧
      decodeTableWord 32 0xFFFFFFFF = none ∧ decodeTableWord 16 0x40C10286 = none := by decide +kernel

/-- R117: bytes of a word, lowest first; three bytes are no word. -/
theorem test_decode_bytes :
    decodeBytes [0x86, 0x02, 0xC1, 0x40] = some (.ok (.ffma false 4 5 6)) ∧ decodeBytes [0x86, 0x02, 0xC1] = none := by decide +kernel

/-- One term for each bound of WellFormed, one past it. -/
theorem test_ill_formed :
    ([.iadd false false 128 0 0, .iadd false false 0 128 0, .iadd false false 0 0 128, .mov false false 128 0, .npack 0 0 8, .lpart 8, .bra (2 ^ 21),
      .brc 16 false 0, .brc 0 false (2 ^ 21), .brx 128, .join 128, .xpfx false false 128 false 0 false 0, .xpfx false false 0 false 8 false 0,
      .xpfx false false 0 false 0 false 16, .limm false (2 ^ 16), .prio (2 ^ 16), .shint 4, .ld 16 false 0 0 .dv .b32, .stl false 128 0 .dv .b32,
      .atom 16 0 0 .auto false .add, .atom 0 0 0 .auto true .fadd, .atom 1 0 0 .far false .add, .atom 1 0 0 .cl false .add, .red 0 0 0 .auto false .cas,
      .pref 16 false 0 .l1, .rwr 0 0 8, .arvw 0 0 16, .bari true 0 48, .bara true 48, .push false 16 1 0, .push false 0 8 0, .push false 0 1 5,
      .waittl 0 48, .ringp false 0 8, .cont 128 0, .mma 16 .s8 0 0 0, .mma 0 .s8 8 0 0, .mzero 0 8, .mrd 0 128 0, .trap false 128, .sregr false 0 21,
      .chunkReady 384 0, .chunkReady 0 32, .signatureBroadcast 384, .barrierEvent 0 48 1, .commitBatch 8, .migrationComplete 4, .tailWrite 1024,
      .linkLock 20, .flitReplay 100, .leaseDue 65536] : List Instr).all (fun i => !i.wf) = true := by decide +kernel

/-- The same bounds reached: the terms are well formed. -/
theorem test_well_formed :
    ([.iadd true true 127 127 127, .npack 127 127 7, .bra (2 ^ 21 - 1), .brc 15 true (2 ^ 21 - 1), .limm true 0xFFFF, .shint 3, .arvw 15 127 15,
      .bari true 127 47, .bari false 127 127, .push true 15 7 47, .waittl 127 16, .ringp true 127 7, .sregw 127 20, .chunkReady 383 31,
      .barrierEvent 383 47 9, .tailWrite 1023, .flitReplay 99, .leaseDue 65535] : List Instr).all (fun i => i.wf) = true := by decide +kernel

/-! ## Witnesses for statements about code words -/

/-- The next word of these lanes is chosen to issue on core 0, on a device with a loaded program that f prepares. -/
def chosen (ls : List Nat) (f : State → State) : State :=
  let s := f (State.reset.withFetchWord 32 0xCD000000)
  { s with cur := some (0, 0, 4 * ((s.group? 0 0).map (fun g => g.seq.n)).getD 0, ls) }
def about (f : State → State) : State := chosen lanes32 f

/-- What the entry that cur names issues. -/
def issueOf (s : State) : Option Issue :=
  match s.cur with
  | some (c, slot, pc, ls) => (s.group? c slot).map (mkIssue s c slot pc ls)
  | none => none

/-- A word described by d issues in s, its Chunk has room, the pool is canonical, and c holds. -/
def ready (s : State) (d : Desc) (c : Issue → State → Bool) : Bool :=
  match issueOf s with
  | some is => (precheck d is s).isNone && !(d.mirror && is.g.mirrored && !is.active.isEmpty && s.glitch.contains s.steps) && Memory.wf (s.core is.core).pool
      && decide (is.g.chunk.words ≤ is.g.seq.n) && c is s
  | none => false

/-- Where ready holds, there are a state and an issue that meet the hypotheses of a statement about a word together. -/
theorem ready_meets {s : State} {d : Desc} {c : Issue → State → Bool} (h : ready s d c = true) :
    ∃ is, Issues d s is ∧ PoolCanonical is s ∧ (∀ e, HasRoom is s e) ∧ c is s = true := by
  unfold ready issueOf at h
  split at h
  · rename_i is his
    split at his
    · rename_i cc slot pc ls hcur
      cases hg : s.group? cc slot with
      | none => rw [hg] at his; cases his
      | some g =>
        rw [hg] at his
        cases his
        simp only [Bool.and_eq_true, decide_eq_true_eq, Option.isNone_iff_eq_none, Bool.not_eq_true'] at h
        exact ⟨_, ⟨hcur, hg, rfl, h.1.1.1.1, h.1.1.1.2⟩, h.1.1.2, fun _ => .inr h.1.2, h.2⟩
    · cases his
  · cases h

/-- Every word of a list is ready in its state. -/
def allReady (l : List (State × Desc × (Issue → State → Bool))) : Bool := l.all (fun e => ready e.1 e.2.1 e.2.2)

def plain : State := about id
def any_ : Issue → State → Bool := fun _ _ => true

/-- Every Link Up. -/
def linked (s : State) : State := { s with links := (upFrom 0 20).foldl (fun t l => t.set l { s.link l with state := .up }) s.links }

/-- Preparations: a launch field, the Group, the Team, registers, a sequence. -/
def withLaunch (f : Launch → Launch) (s : State) : State := s.modKernel 0 (fun k => { k with launch := f k.launch })
def withGroup (f : Group → Group) (s : State) : State := s.modGroup 0 0 f
def withTeam (f : Team → Team) (s : State) : State := { s with teams := s.teams.set 0 (f placedTeam) }
def withReg (a : Nat) (bs : List Byte) (s : State) : State := s.poolPut 0 a bs
def withXpfx (x : Xpfx) (s : State) : State :=
  withGroup (fun g => { g with seq := { n := 1, first := 0, xp := some x, limms := [] }, chunk := { g.chunk with words := 1 }, chosen := some (0, 0) }) s
def noLanes : State := about (withXpfx { Xpfx.none with mask := 1 })
def selector (s : Bool) (n : Nat) : State := about (withXpfx { Xpfx.none with f4en := true, f4s := s, f4 := n })
def inRole (r : Role) : State := about (withGroup (fun g => { g with role := r }))

/-- A signalling NaN in v4 and v6 of lane 0, every condition enabled. -/
def snans : State :=
  about (fun s => withReg (vAddr 0 4 0) (toBytes 4 0x7F817F81) (withReg (vAddr 0 6 0) (toBytes 4 0x7F817F81) (withLaunch (fun l => { l with fpen := 31 }) s)))

/-- Whether the results of a float word meet an enabled condition. -/
def calm (r : Issue → State → Nat → FRes) (is : Issue) (s : State) : Bool := (condsOf r is s).isNone
def stormy (r : Issue → State → Nat → FRes) (is : Issue) (s : State) : Bool := (condsOf r is s).isSome

/-- Words of one or two sources, 32 and 64 bits wide, at the last registers of a Group of 32; with t; a fourth operand in vd. -/
theorem witness_IntegerWords : allReady [
    (plain, { descTwo false false 31 30 29 with sat := true }, any_), (plain, { descTwo true true 30 30 28 with sat := true }, any_),
    (plain, { descTwo true false 30 28 26 with sat := true, f4v := true }, any_), (plain, { descOne false true 31 31 true with sat := true }, any_),
    (plain, { descOne true false 30 28 false with sat := false }, any_)] = true := by decide +kernel

theorem witness_LogicShiftsAndBits : allReady [
    (plain, descTwo true true 30 30 28, any_), (plain, { descTwo true false 30 28 31 with vb := opV 31 false }, any_),
    (plain, { descTwo false false 31 30 29 with vb := opV 29 false, f4v := true }, any_),
    (plain, { descTwo true true 11 30 28 with vd := opM 11, mdst := some 11 }, any_)] = true := by decide +kernel

/-- SEL needs its selector; MOVS with an active lane and with none; scalar words at s31, and SLEA at the pair s30. -/
theorem witness_MoveAndScalarWords : allReady [
    (selector false 11, { descTwo true true 30 30 28 with f4m := true }, any_), (plain, { descTwo true true 30 30 31 with vb := opV 31 false }, any_),
    (plain, { vd := opS 31 false, va := opV 31 false }, fun is _ => is.active ≠ []),
    (noLanes, { vd := opS 31 false, va := opV 31 false }, fun is _ => is.active = []),
    (noLanes, { vd := opS 31 false, va := [{ file := .k, num := 15, count := 1 }] }, fun is _ => is.active = []),
    (noLanes, { vd := opS 31 false, va := opM 11 }, fun is _ => is.active = []), (plain, { vd := opS 31 false, va := opM 11 }, fun is _ => is.active ≠ []),
    (noLanes, { vd := opM 11, va := opS 31 false, mdst := some 11 }, fun is _ => is.active = []),
    (noLanes, { vd := [{ file := .k, num := 15, count := 1 }], va := opS 31 false, closes := true }, fun is _ => is.active = []),
    (plain, { vd := opS 31 false, va := [{ file := .k, num := 15, count := 1 }] }, fun is _ => is.active ≠ []),
    (plain, { vd := opM 11, va := opS 31 false, mdst := some 11 }, fun is _ => is.active ≠ []),
    (plain, { vd := [{ file := .k, num := 15, count := 1 }], va := opS 31 false, closes := true }, fun is _ => is.active ≠ []),
    (plain, descScalar 31 30 29, any_), (plain, { descScalar 30 28 31 with vd := opS 30 true, va := opS 28 true }, any_)] = true := by decide +kernel

/-- A sum of zeros meets no condition; a signalling NaN meets an enabled one. -/
theorem witness_FloatWords :
    let ds := { descTwo false false 31 4 6 with rm := true, sat := true }
    let add (is : Issue) (s : State) (l : Nat) : FRes := addIn fmtF32 is.rm is.x.sat (is.srcA s false false false 4 l) (is.srcB s false 6 l)
    let root (is : Issue) (s : State) (l : Nat) : FRes := fsqrtVal fmtF32 is.rm (f32v (is.srcA s true false false 4 l))
    allReady [(plain, ds, calm add), (snans, ds, stormy add), (plain, { ds with f4v := true }, calm add),
      (plain, { ds with vd := opM 11, mdst := some 11 }, calm add), (snans, { ds with vd := opM 11, mdst := some 11 }, stormy add),
      (plain, { descOne false false 31 4 false with rm := true, sat := true }, calm root),
      (snans, { descOne false false 31 4 false with rm := true, sat := true }, stormy root)] = true := by decide +kernel

/-- The largest finite number of binary16 is a value itself; at twice its size there is overflow. -/
theorem witness_FloatRounding :
    (roundMag fmtF16 .rne false 65504 0 false).conds.overflow = false ∧ (roundMag fmtF16 .rtz false 131072 0 false).conds.overflow = true ∧
      fmtQmin fmtF16 = -24 ∧ fdecode fmtF16 0x7BFF = .fin false 2047 5 := by decide +kernel

theorem witness_PackedHalves :
    let ds (f4 : Bool) (lim : LimUse) := { descTwo false false 31 4 6 with rm := true, sat := true, f4v := f4, lim := lim }
    let two (is : Issue) (s : State) (l : Nat) : FRes :=
      packed (fun i => addIn fmtBf16 is.rm is.x.sat (half (is.srcA s false false false 4 l) i) (half (is.srcB s false 6 l) i))
    allReady [(plain, ds false .b, calm two), (snans, ds false .b, stormy two), (plain, ds true .b, calm two), (plain, ds false .none, calm two)] = true := by
  decide +kernel

/-- Slot 0 planar with four planes, slot 1 with scale codes, slot 2 reserved. -/
def slots : State := about (withLaunch (fun l => { l with slots := [4 * 8, 4 * 8 + 2 ^ 9 + 2 ^ 34, 7, 0, 0, 0, 0, 0] }))

theorem witness_ConversionWords :
    let sl : Slot := slotOf (4 * 8)
    let dn := { descOne false false 31 4 false with rm := true, sat := true }
    let cvt (is : Issue) (s : State) (l : Nat) : FRes := fcvtVal fmtF16 is.rm (f32v (is.srcA s true false false 4 l))
    allReady [(plain, { descOne false false 31 4 true with rm := true, sat := true }, calm cvt),
      (snans, { descOne false false 31 4 true with rm := true, sat := true }, stormy cvt),
      (slots, dn, fun is _ => slotBad (is.l.slot 0) [0, 1] = false), (slots, dn, fun is _ => ¬ slotBad (is.l.slot 2) [0, 1] = false),
      (plain, { descOne false false 30 4 true with rm := true, sat := true, vd := opV 30 (tyWide .s64) }, calm cvt),
      (plain, { descOne false false 31 4 true with rm := true, sat := true, va := opA false (tyWide .n64) 4 }, calm cvt),
      (slots, { rm := true, vd := opRange 28 (planesOf sl), va := opRange 24 8, mirror := true },
        fun is _ => is.l.slot 0 = sl ∧ slotBad sl [0] = false),
      (slots, { rm := true, vd := opRange 24 8, va := opRange 28 (planesOf sl), mirror := true },
        fun is _ => is.l.slot 0 = sl ∧ slotBad sl [0] = false),
      (slots, { rm := true, vd := opRange 31 (planesOf (slotOf 7)), va := opRange 24 8, mirror := true },
        fun is _ => is.l.slot 2 = slotOf 7 ∧ slotBad (slotOf 7) [0] = true),
      (slots, { descOne false true 31 4 false with rm := true },
        fun is _ => slotBad (is.l.slot 1) [0, 1] = false ∧ (is.l.slot 1).scmode = true),
      (slots, { descOne false true 31 4 false with rm := true },
        fun is _ => ¬(slotBad (is.l.slot 0) [0, 1] = false ∧ (is.l.slot 0).scmode = true))] = true := by decide +kernel

/-- FREDL of zeros, and of a signalling NaN under FPE; PUTL with a mask; VOTE; the LPART codes 5 and 6. -/
theorem witness_CrossLaneWords :
    let dr := { descOne false false 31 4 false with rm := redIsFloat .fadd, mirror := false }
    let fpe (is : Issue) (s : State) : Option Nat :=
      fpeVal is.l.fpen (redlConds .fadd is.rm (is.tile s) is.active (fun l => is.srcA s true false false 4 l))
    let scan (is : Issue) (s : State) (l : Nat) : FRes :=
      ((scanAll .fadd is.rm (is.tile s) is.active (fun l => is.srcA s true false false 4 l)).getD l none).getD { bits := 0 }
    let scanFpe (is : Issue) (s : State) : Option Nat := fpeVal is.l.fpen (lanes32.map (fun l => (l, condsBits (scan is s l).conds)))
    allReady [(plain, { descTwo false true 31 30 29 with mirror := false }, any_),
      (selector false 11, { descTwo false false 31 30 29 with mirror := false, f4m := true, f4dst := true }, any_),
      (plain, { vd := opM 11, va := opM 1, mdst := some 11 }, any_), (plain, { vd := opS 31 false, va := opM 11 }, fun is _ => is.active ≠ []),
      (noLanes, { vd := opS 31 false, va := opM 11 }, fun is _ => is.active = []), (noLanes, {}, fun is _ => 5 ∈ [1, 2, 3, 4, 5] ∧ is.active = []),
      (plain, dr, fun is s => fpe is s = none), (snans, dr, fun is s => fpe is s ≠ none),
      (plain, dr, fun is s => scanFpe is s = none), (snans, dr, fun is s => scanFpe is s ≠ none),
      (plain, {}, fun is _ => 5 ∈ [1, 2, 3, 4, 5] ∧ is.active ≠ []), (plain, {}, fun _ _ => 6 ∈ [0, 6, 7])] = true := by decide +kernel

/-- Call depth n. -/
def cdepth (n : Nat) (s : State) : State := withLaunch (fun l => { l with cdepth := n }) s

/-- Call depth 2; the stack of every lane empty, one deep, and full. Row contents of lane 0 to 31 stand as return addresses. -/
def stack (n : Nat) : State :=
  about (fun s => (upFrom 0 n).foldl (fun s r => lanes32.foldl (fun s l => withReg (rowAddr 0 32 r l) (toBytes 4 4) s) s)
    { cdepth 2 s with mem := physPut s.regions s.mem (2 ^ 30 + 4) (toBytes 4 0xFD000005) })

/-- A PRIO stands at code offset 4; v8 names it, v9 an address that is no word's. -/
def prioAhead : State :=
  about (fun s => lanes32.foldl (fun s l => withReg (vAddr 0 9 l) (toBytes 4 6) (withReg (vAddr 0 8 l) (toBytes 4 4) s))
    { s with mem := physPut s.regions s.mem (2 ^ 30 + 4) (toBytes 4 0xFD000005) })

def backOf (is : Issue) (s : State) : List (Nat × Nat) :=
  (is.lanes.filter (fun l => is.depth s l != 0)).map (fun l => (l, is.row s (is.depth s l - 1) l))

/-- A PRIO, and some word, read at a target. -/
def prioThere (is : Issue) (s : State) (x : Nat) : Bool :=
  match s.fetch is.core is.g.failed x with
  | .word w => match decode w with
    | .ok (.prio _) => true
    | _ => false
  | _ => false
def wordThere (is : Issue) (s : State) (x : Nat) : Bool :=
  match s.fetch is.core is.g.failed x with
  | .word _ => true
  | _ => false

/-- Targets at a PRIO; misaligned ones; one past the code; the word after the PRIO, at lane 0; stacks empty, one deep and full. -/
theorem witness_Branches :
    let to_ (is : Issue) (n : Nat) : List (Nat × Nat) := is.lanes.map (fun l => (l, branchTarget is.pc n))
    let reg (n : Nat) (is : Issue) (s : State) : List (Nat × Nat) := is.lanes.map (fun l => (l, is.vRd s n l))
    let within (is : Issue) (ts : List (Nat × Nat)) : Bool := ts.all (fun x => x.2 % 4 == 0 && decide (x.2 + 4 ≤ is.l.codelen))
    let lands (is : Issue) (s : State) (ts : List (Nat × Nat)) : Bool := within is ts && ts.all (fun x => prioThere is s x.2)
    let deep (is : Issue) (s : State) : Bool := is.lanes.any (fun l => is.depth s l == is.l.cdepth)
    let callers (is : Issue) (s : State) : Bool := is.lanes.all (fun l => is.depth s l != 0)
    allReady [(prioAhead, descControl, fun is s => lands is s (to_ is 1)), (prioAhead, { descControl with va := opV 8 false }, fun is s => lands is s (reg 8 is s)),
      (prioAhead, { descControl with va := opV 9 false }, fun is s => (firstBad (reg 9 is s) (fun x => x % 4 != 0)).isSome),
      (prioAhead, descControl, fun is _ => firstBad (to_ is 1000) (fun x => x % 4 != 0) = none && (firstBad (to_ is 1000) (fun x => decide (is.l.codelen < x + 4))).isSome),
      (prioAhead, descControl, fun is s => within is (to_ is 0) && (to_ is 0).all (fun x => wordThere is s x.2) && !prioThere is s ((to_ is 0).headD (0, 0)).2),
      (prioAhead, { descControl with va := opM 1 }, fun is s => lands is s ((is.lanes.filter (fun l => bitAt (is.mRd s 1) l != true)).map (fun l => (l, branchTarget is.pc 1)))),
      (cdepth 2 prioAhead, descControl, fun is s => lands is s (to_ is 1) && !deep is s), (prioAhead, descControl, fun is s => lands is s (to_ is 1) && deep is s),
      (stack 1, descControl, fun is s => callers is s && lands is s (backOf is s)), (stack 0, descControl, fun is s => lands is s (backOf is s) && !callers is s)] = true := by
  decide +kernel

/-- One lane of two live ones issues; every lane does. -/
def twoLanes : State :=
  chosen [0] (fun s => withReg (mAddr 0 0) (toBytes 4 3) (withGroup (fun g => { g with lanes := g.lanes.set 1 { pc := 4, prio := 0, wait := .none } }) s))

theorem witness_FrontierWords :
    let left (is : Issue) (s : State) : Nat := maskOf ((lanesOf (s.liveMask is.core is.slot)).filter (fun l => !is.lanes.contains l))
    allReady [(plain, descControl, fun is s => left is s = 0), (twoLanes, descControl, fun is s => left is s = 2 ∧ barsMet (left is s) is.g.lanes = none),
      (plain, { vec := false }, any_), (plain, { vec := false, vd := opM 11, mdst := some 11 }, any_),
      (plain, { vec := false, vd := opM 11 }, fun is s => ¬(is.g.chunk.phase = .soloRun ∧ waitmParks is s 11 = true)),
      (plain, { vec := false, closes := true, alone := true }, any_), (plain, { vec := false, alone := true }, any_)] = true := by decide +kernel

/-- The first word of a Chunk fits; an XPFX after a LIMM and a second LIMM of one half do not stand in their places. -/
theorem witness_SequenceWords :
    (match issueOf plain with
      | some is => decide (is.g.seq.xp = none ∧ is.g.seq.limms = [] ∧ is.g.chunk.words = 0)
      | none => false) = true ∧
    (match issueOf (about (withGroup (fun g => { g with seq := { n := 1, first := 0, xp := none, limms := [(true, 5)] } }))) with
      | some is => decide (is.g.seq.limms ≠ [] ∧ is.g.seq.limms.length < 2 ∧ (∃ x ∈ is.g.seq.limms, x.1 = true) ∧ ∀ x ∈ is.g.seq.limms, x.1 ≠ false)
      | none => false) = true := by decide +kernel

/-- The seven words of a fused softmax run of v4 to v7, written from their encodings. -/
def softmaxAhead : State :=
  let code := [0xAE814200, 0x40418205, 0xFC813FB8, 0xFC80AA3B, 0x40818300, 0x48C18300, 0xAE01C300].foldl (fun acc w => acc ++ toBytes 4 w) []
  about (fun s => { s with mem := physPut s.regions s.mem (2 ^ 30) code })

/-- The same run with a signalling NaN in v4 and every condition enabled; the run cut off by the end of what is translated. -/
def softmaxStorm : State :=
  let s := withReg (vAddr 0 4 0) (toBytes 4 0x7F817F81) (withLaunch (fun l => { l with fpen := 31 }) softmaxAhead)
  s
def softmaxCut : State := { softmaxAhead with tlb := softmaxAhead.tlb.map (fun e => { e with ctx := 1 }) }

/-- The same run across the end of the Page, the next one without a translation. -/
def softmaxEdge : State :=
  let s := withLaunch (fun l => { l with codelen := 2 ^ 20 }) (linked softmaxAhead)
  { s with mem := physPut s.regions s.mem (2 ^ 30 + 2 ^ 18 - 8) ([0xAE814200, 0x40418205].foldl (fun acc w => acc ++ toBytes 4 w) []),
           cur := some (0, 0, 2 ^ 18 - 8, lanes32) }

/-- The issue of a fused run, under its XPFX. -/
def underRun (r : FusedRun) (is : Issue) (s : State) : Issue :=
  let x := r.xp.getD Xpfx.none
  { is with x := x, active := is.lanes.filter (bitAt (if x.mask < 12 then is.mRd s x.mask else 0)) }

theorem witness_FusedSoftmax :
    let run (p : Option Nat → Bool) (s : State) : Bool := match issueOf s with
      | some is => (match s.fusedLook is.core is.g.failed is.pc with
        | .got r => decide (r.vx = 4 ∧ r.vm = 5 ∧ r.vd = 6 ∧ r.vs = 7 ∧ r.words = 7) && decide (is.g.chunk.words = 0)
            && !(is.g.mirrored && !(underRun r is s).active.isEmpty && s.glitch.contains s.steps) && (fusedCheck r (underRun r is s) s).isNone
            && p (fpeVal is.l.fpen (fusedValues r (underRun r is s) s).2.2.2)
        | _ => false)
      | none => false
    ready softmaxEdge {} (fun is s => (s.fusedLook is.core is.g.failed is.pc).needs? == some (2 ^ 18)) = true ∧
    run Option.isNone softmaxAhead = true ∧ run Option.isSome softmaxStorm = true ∧ allReady [(softmaxAhead, {}, any_), (softmaxStorm, {}, any_)] = true := by
  decide +kernel

/-- The code Page refuses fetches; its fault was ended; no translation stands. -/
def fetchRefused : State := about (fun s => { s with tlb := [{ placedTlb with x := false }] })
def fetchFailed : State := about (fun s => withGroup (fun g => { g with failed := [0] }) { s with tlb := [] })
def fetchUntranslated : State := about (fun s => { s with tlb := [] })

theorem witness_NoInstruction :
    (match fetchRefused.fetch 0 [] 0 with | .refused => true | _ => false) = true ∧
    (match fetchUntranslated.fetch 0 [] 0 with | .untranslated => true | _ => false) = true ∧
    (match fetchFailed.fetch 0 [0] 0 with | .failed => true | _ => false) = true ∧
    fetchRefused.cur = some (0, 0, 0, lanes32) ∧ (fetchFailed.group? 0 0).map (fun g => g.failed) = some [0] := by decide +kernel

/-- A wake time that has come, one that has not, one with 10^9 nanoseconds; in and out of a trap entry; SREGW of a priority, of a read-only
register; a Context under the debugger. -/
theorem witness_SystemWords :
    let wait : Desc := { vec := false, vd := opS 30 true }
    let later (is : Issue) (s : State) : Bool := timeReached s.sec s.ns (is.sRd s 31) (is.sRd s 30)
    allReady [(plain, descControl, any_), (about (withGroup (fun g => { g with inTrap := some [0] })), { vec := false }, fun is _ => is.g.inTrap.isSome),
      (plain, { vec := false }, fun is s => is.g.inTrap.isNone ∧ (s.ctx is.ctx).dbg = false),
      (about (fun s => s.setCtx 0 { s.ctx 0 with dbg := true }), { vec := false }, fun is s => (s.ctx is.ctx).dbg = true),
      (plain, { vec := false, vd := opS 30 true }, any_), (plain, { vec := false, vd := opV 31 false }, any_),
      (about (withReg (sAddr 0 31) (toBytes 4 5)), { descControl with vd := opS 31 false }, fun is s => is.sRd s 31 % 8 ∈ [1, 2, 3, 4, 5]),
      (plain, { descControl with vd := opS 31 false }, fun _ _ => 10 ≠ 9 ∧ 10 ≠ 13 ∧ 10 ≠ 17),
      (plain, wait, fun is s => is.sRd s 30 < 10 ^ 9 ∧ later is s), (about (withReg (sAddr 0 30) (toBytes 4 999999999)), wait,
        fun is s => is.sRd s 30 < 10 ^ 9 ∧ ¬later is s),
      (about (withReg (sAddr 0 30) (toBytes 4 1000000000)), wait, fun is s => 10 ^ 9 ≤ is.sRd s 30)] = true := by decide +kernel

/-- v8:v9 of lane 31 holds n; the other lanes hold 0. -/
def address (n : Nat) : State := about (fun s => withReg (vAddr 0 9 31) (toBytes 4 (n / 2 ^ 32)) (withReg (vAddr 0 8 31) (toBytes 4 n) (linked s)))

/-- The last word of a Page, a misaligned lane, an address of 2^57; a Chunk with a word in it. -/
theorem witness_GlobalMemoryWords :
    let high (is : Issue) (s : State) : Option Nat := badLane (is.elements s false 8 is.active) (fun v => decide (2 ^ 57 ≤ v))
    let askew (is : Issue) (s : State) : Option Nat := badLane (is.elements s false 8 is.active) (fun v => v % 4 != 0)
    let clear (f : Issue → State → Option Verdict) (is : Issue) (s : State) : Bool := (f is s).isNone
    let load (c : Scope) (is : Issue) (s : State) : Option Verdict :=
      globalFault is s (is.elements s false 8 is.active) 4 .load (fun pa => c == .cl && isHost pa)
    let store (is : Issue) (s : State) : Option Verdict := globalFault is s (is.elements s false 8 is.active) 4 .store (fun _ => false)
    let ld := descLoad 15 false 31 8 .b32
    let st := { descStore false 31 8 .b32 with look := some 15 }
    allReady [(address 262140, ld, clear (load .dv)), (address 262140, ld, fun is s => (lineWait is s (is.pas s false 8)).isNone),
      (address 262140, ld, fun is s => (parking is s (is.pas s false 8)).isNone && (load .cl is s).isNone),
      (address 2, ld, fun is s => (askew is s).isSome), (address (2 ^ 57), ld, fun is s => askew is s = none ∧ (high is s).isSome),
      (address 262140, st, fun is s => (store is s).isNone && (ownCheckedOut is s (is.pas s false 8)).isNone &&
        (clusterWriteWait is s (is.pas s false 8)).isNone),
      (address 262140, { descStore false 31 8 .b32 with closes := true }, fun is s => is.g.chunk.words ≤ is.g.seq.n ∧ (store is s).isNone)] = true ∧
    (match issueOf (chosen lanes32 (withGroup (fun g => { g with chunk := { g.chunk with words := 1 } }))) with
      | some is => decide (is.g.seq.n < is.g.chunk.words) | none => false) = true := by decide +kernel

/-- A Team with 4,096 bytes of scratchpad; v8 of lane 31 at its last word, one past it, askew. -/
def scratch (n : Nat) : State := about (fun s => withReg (vAddr 0 8 31) (toBytes 4 n) (withTeam (fun t => { t with tscr := 16 }) s))

/-- The same bytes through the cluster window and the pool: every lane names the Team's scratchpad. -/
def window (n : Nat) : State :=
  about (fun s => lanes32.foldl (fun s l => withReg (vAddr 0 8 l) (toBytes 4 n) s) (withTeam (fun t => { t with tscr := 16 }) s))

theorem witness_LocalMemoryAndCacheWords :
    let ds := descLocal 15 false 31 8 .b32
    let ok (sp : LocalSpace) (w : Bool) (is : Issue) (s : State) : Bool := (localFault is s sp w (is.locals s false 8) 4).isNone &&
      !((is.locals s false 8).map (fun e => is.spot s sp e.2 4)).any (fun p => localBusy is s p 4)
    allReady [(scratch 4092, ds, ok .scratch true), (scratch 4092, ds, ok .scratch false), (window 20732, ds, ok .window false),
      (window 20732, ds, ok .window true), (window 20732, ds, ok .pool false), (window 20732, ds, ok .pool true),
      (scratch 2, ds, fun is s => (badLane (is.locals s false 8) (fun v => v % 4 != 0)).isSome),
      (address 262143, descCache 15 false 8, fun is s => (globalFault is s (is.elements s false 8 is.lanes) 1 .load (fun _ => false)).isNone)] = true := by
  decide +kernel

theorem witness_Atomics :
    let ds (o : AtomOp) := descAtom 0 28 8 true o
    let at_ (p q : Place) (is : Issue) (s : State) : Bool := is.placement s p (is.pas s false 8) == q &&
      (globalFault is s (is.elements s false 8 is.active) 8 .atomic (fun pa => isHost pa && (p == .near || p == .cl))).isNone
    allReady [(address 262136, ds .add, fun is s => at_ .auto .near is s && (lineWait is s (is.pas s false 8)).isNone &&
        !(is.pas s false 8).any (fun pa => s.poisoned pa 8)),
      (address 262136, ds .cas, fun is s => at_ .far .far is s && (ownCheckedOut is s (is.pas s false 8)).isNone &&
        (parking is s (is.pas s false 8)).isNone && decide (is.g.chunk.words ≤ is.g.seq.n)),
      (address 262136, descAtom 0 28 8 true .cas true, fun is s => at_ .far .far is s && atomAlone 8 .far s && (ownCheckedOut is s (is.pas s false 8)).isNone &&
        (parking is s (is.pas s false 8)).isNone && decide (is.g.chunk.words ≤ is.g.seq.n)),
      (address 262136, descAtom 0 28 8 true .xor true, fun is s => at_ .cl .cl is s && atomAlone 8 .cl s && (clusterWriteWait is s (is.pas s false 8)).isNone),
      (address 262136, ds .add, fun is s => at_ .auto .near is s && !atomAlone 8 .auto s),
      (address 262136, ds .xor, fun is s => at_ .cl .cl is s && (clusterWriteWait is s (is.pas s false 8)).isNone)] = true := by decide +kernel

/-- RWR of the Group's own registers, of a Group that is absent; an arrival threshold that is reached, and one that is not; Barriers 47
and 48; the last lane of a Group at a BARS. -/
theorem witness_FenceAndBarrierWords :
    let dr := { descEnds with vd := opV 31 false, va := opV 30 false, vb := opS 31 false }
    let x (is : Issue) (s : State) : Nat := is.sRd s 31
    let core (is : Issue) (s : State) : Nat := is.core / 4 * 4 + x is s % 4
    let group (is : Issue) (s : State) : Option Group := s.group? (core is s) (field (x is s) 12 8)
    let legal (is : Issue) (s : State) : Bool := rwrResOk (x is s) && (s.core (core is s)).kernel == (s.core is.core).kernel
    let arv : Desc := { vec := false, vd := opS 31 false, look := some 15 }
    let reached (is : Issue) (s : State) : Bool := counterReached (is.g.arrival.getD 15 0) (is.sRd s 31)
    let bars (is : Issue) (s : State) (n : Nat) : Option (Nat × Nat) :=
      barsMet (s.liveMask is.core is.slot) (moveLanes is { stay := true, wait := .bars n } is.g.lanes)
    allReady [(plain, descEnds, any_), (plain, dr, fun is s => (group is s).map (fun g => g.uid) == some 0 && legal is s),
      (about (withReg (sAddr 0 31) (toBytes 4 0x100)), dr, fun is s => (group is s).isNone),
      (about (withReg (sAddr 0 31) (toBytes 4 0x80000000)), dr, fun is s => !legal is s),
      (plain, arv, reached), (about (withReg (sAddr 0 31) (toBytes 4 1)), arv, fun is s => !reached is s),
      (about (withReg (sAddr 0 30) (toBytes 4 47)), { descBar false 30 with vd := opM 11, mdst := some 11 }, fun is s => is.sRd s 30 ≤ 47),
      (about (withReg (sAddr 0 30) (toBytes 4 48)), descBar false 30, fun is s => ¬is.sRd s 30 ≤ 47),
      (plain, { descBar true 47 with vd := opS 31 false }, fun _ _ => 47 ≤ 47),
      (plain, descBar true 0, fun is s => bars is s 0 = some (0, 0)), (twoLanes, descBar true 0, fun is s => bars is s 0 = none)] = true := by decide +kernel

/-- Ring 7 of the Team on core 0 with one slot, empty or full. -/
def ringed (ph : Nat) : State :=
  about (fun s => withTeam (fun t => { t with rings := [(7, 0, 0)] })
    (s.setCore 0 { s.core 0 with rings := [(0, { ph := ph, cph := 0, slots := 1 })] }))

/-- A CONT whose die's store has no room left. -/
def crowded : State :=
  let s := chosen lanes32 (fun s => withReg (sAddr 0 31) (toBytes 4 4) { s with mem := physPut s.regions s.mem (2 ^ 30 + 4) (toBytes 4 0xFD000005) })
  s.setStore 0 { s.store 0 with reserved := [(7, 65536)] }

theorem witness_QueueAndContinuationWords :
    let dp := { descControl with vd := opS 14 true ++ opM 7, mdst := some 7 }
    let pair : Desc := { vec := false, vd := opS 30 true }
    let cmd (is : Issue) (s : State) : List Byte := (upFrom 0 16).foldl (fun acc i => acc ++ toBytes 4 (is.sRd s (16 + i))) []
    let ring (is : Issue) (s : State) : Bool := (is.team s).bind (fun t => t.ring? 7) == some (0, 0) && decide (0 < ((s.core 0).ring 0).slots)
    let full (s : State) : Bool := ((s.core 0).ring 0).full 0
    let dc := { descControl with vd := [{ file := .v, num := 17, count := 15, align := 1 }], va := opS 31 false }
    allReady [(about (fun s => withReg (sAddr 0 16) (toBytes 4 1) (withGroup (fun g => { g with role := .copy }) s)), dp, fun is s => (pushFault s is.ctx is.g.role 0 (cmd is s)).isNone), (plain, dp, fun is _ => is.g.role ≠ queueRole 0),
      (plain, pair, fun is s => is.sPair s 30 ≤ (s.timeline is.ctx 4).count),
      (about (withReg (sAddr 0 30) (toBytes 4 1)), pair, fun is s => ¬is.sPair s 30 ≤ (s.timeline is.ctx 4).count),
      (ringed 0, { vec := false, va := [] }, fun is s => ring is s && !full s), (ringed 1, { vec := false, va := [] }, fun is s => ring is s && full s),
      (plain, { vec := false, va := [] }, fun is s => (is.team s).bind (fun t => t.ring? 7) = none),
      (chosen lanes32 (fun s => withReg (sAddr 0 31) (toBytes 4 4) { s with mem := physPut s.regions s.mem (2 ^ 30 + 4) (toBytes 4 0xFD000005) }), dc,
        fun is s => is.sRd s 31 % 4 = 0 ∧ is.sRd s 31 + 4 ≤ is.l.codelen ∧ prioAt is s (is.sRd s 31) = some true ∧
          is.lanes.length ≤ (s.store (dieOf is.core)).free),
      (crowded, dc, fun is s => is.sRd s 31 % 4 = 0 ∧ is.sRd s 31 + 4 ≤ is.l.codelen ∧ prioAt is s (is.sRd s 31) = some true ∧
          ¬is.lanes.length ≤ s.roomOf is.core is.g.uid ∧ ¬is.lanes.length ≤ (s.store (dieOf is.core)).free),
      (about (withReg (sAddr 0 31) (toBytes 4 2)), dc, fun is s => is.sRd s 31 % 4 ≠ 0)] = true := by decide +kernel

/-- A matrix Group with a legal one-slice operand descriptor in s28 to s31, a planar slot of two planes, a Team with scratchpad. -/
def matrix : State :=
  about (fun s => withReg (sAddr 0 30) (toBytes 4 (2 ^ 16)) (withReg (sAddr 0 29) (toBytes 4 256)
    (withGroup (fun g => { g with role := .matrix }) (withTeam (fun t => { t with tscr := 16 })
      (withLaunch (fun l => { l with poolpart := 1 + 1 * 2 ^ 7 + 1 * 2 ^ 14 + 1 * 2 ^ 18, slots := [2 * 8, 0, 0, 0, 0, 0, 0, 0] }) s)))))

/-- The same Group behind a LIMM that selects one row, the last. -/
def tileRow : State :=
  let q : Seq := { n := 1, first := 0, xp := none, limms := [(false, 63)] }
  about (withGroup (fun g => { g with role := .matrix, seq := q, chunk := { g.chunk with words := 1 } }))

theorem witness_MatrixWords :
    let dz : Desc := { vec := false, vd := opTile 0, look := some 15 }
    let dw : Desc := { vec := false, lim := .window, vd := opRange 31 1, va := opTile 0, look := some 15 }
    let d (is : Issue) (s : State) : MmaDesc := mmaDesc ((upFrom 0 4).map (fun i => is.sRd s (28 + i)))
    allReady [(matrix, { dz with va := opS 28 false }, fun is s => is.g.role = .matrix ∧ slotBad (is.l.slot 0) [0, 1, 2, 3] = false ∧
        pairOk .s8 (is.l.slot 0) = true ∧ mmaProt (d is s) .s8 (is.l.slot 0) 4096 = none ∧
        (is.team s).any (fun t => !(actRanges (d is s) .s8 ++ weightRanges (d is s) (is.l.slot 0) ++ scaleRanges (d is s) (is.l.slot 0)).any
          (fun r => s.boardHits t.home (t.scr r.1) r.2)) ∧ (tileWait is s 0 true).isNone),
      (matrix, dz, fun is s => decide (is.g.role = .matrix) && (tileWait is s 0 true).isNone && (tileWait is s 0 false).isNone),
      (plain, dz, fun is s => (is.team s).isSome ∧ is.g.role ≠ .matrix),
      (tileRow, dw, fun is s => (windowOf (seqImm s)).n = 1 ∧ (windowOf (seqImm s)).res = 0 ∧ (windowOf (seqImm s)).row + 1 ≤ 64 ∧
        tileReady is s 0 = true),
      (tileRow, { dw with vd := opRange 31 1 }, fun is s => is.g.role = .matrix ∧ (tileWait is s 0 false).isNone)] = true := by decide +kernel

/-! ## Witnesses for statements about device steps -/

/-- The placed program, its Group prepared by f. -/
def grouped (f : Group → Group) : State := (linked (State.reset.place 0)).modGroup 0 0 f
/-- The same with the Group's Chunk ended. -/
def ended (f : Group → Group) : State := grouped (fun g => f { g with state := .committing, chunk := { g.chunk with phase := .ended } })
def has (s : State) (p : Group → Bool) : Bool := match s.group? 0 0 with | some g => p g | none => false
def isStore : BufItem → Bool
  | .store _ _ _ _ => true
  | _ => false
def aStore (pa n : Nat) : BufItem := .store false false pa (toBytes 4 n)
def inFlight (uce : Bool) : Pend := { pc := 0, regs := [(.v, 3)], win := none, writes := [(vAddr 0 3 0, toBytes 4 7)], uce := uce, since := 0, chans := [] }

/-- A load in flight; a solo holding; no store at device scope; a store; the last address of device memory. -/
theorem witness_ChunkReady :
    let complete (s : State) (g : Group) : Bool := g.state == .committing && g.pend.isEmpty && !ownsMma (s.core 0) 0 g.uid && !s.accessWaits g
    let solo := ended (fun g => { g with chunk := { g.chunk with phase := .soloRun } })
    let none_ := ended id
    let writes := ended (fun g => { g with chunk := { g.chunk with buf := [aStore (2 ^ 40 - 4) 1] } })
    has (ended (fun g => { g with pend := [inFlight false] })) (fun g => !g.pend.isEmpty && g.state == .committing) = true ∧
    has solo (fun g => complete solo g && g.chunk.phase == .soloRun && !solo.chunkWaits 0 g) = true ∧
    has none_ (fun g => complete none_ g && !g.chunk.buf.any needsStamp && !none_.commitBlocked 0 g && g.chunk.phase == .ended) = true ∧
    has writes (fun g => complete writes g && g.chunk.buf.any needsStamp && g.chunk.phase == .ended) = true ∧ writes.offers = [] := by decide +kernel

theorem witness_ChunkCommits :
    let ok (s : State) : Bool := has s (fun g => g.chunk.buf.all isStore && g.chunk.acts.isEmpty && g.chunk.after == .run && g.capPending.isNone) &&
      (s.core 0).kernel == some 0 && Memory.wf (s.core 0).pool
    ok (ended id) = true ∧ ok (ended (fun g => { g with chunk := { g.chunk with buf := [aStore (2 ^ 40 - 4) 1, aStore 0 0xFFFFFFFF] } })) = true := by
  decide +kernel

/-- Two logged sectors, the last of the pool among them; the seventh conflict and the eighth. -/
theorem witness_SquashRestores :
    let undo : List Undo := [{ core := 0, sector := 8, bytes := List.replicate 32 1 }, { core := 0, sector := 32767, bytes := List.replicate 32 2 }]
    let at_ (n : Nat) : State := (grouped (fun g => { g with chunk := { g.chunk with uniform := List.replicate 256 0, undo := undo } })).poolPut 0 offChunkstat
      (toBytes 4 (mkStat 10 n false false))
    let ok (s : State) : Bool := has s (fun g => g.chunk.uniform.length == 256 && g.chunk.tiles.isEmpty &&
      decide (g.chunk.undo.map (fun e => (e.core, e.sector))).Nodup && g.chunk.undo.all (fun e => e.bytes.length == 32)) &&
        s.cores.all (fun e => Memory.wf e.2.pool)
    ok (at_ 6) = true ∧ ok (at_ 7) = true ∧ statSqcnt ((at_ 7).chunkstat 0 0) = 7 := by decide +kernel

/-- A Solo-run Chunk holds the token, one that asks for it, none, a broadcast at a core, a holding of 20 µs and one a nanosecond short of it. -/
theorem witness_ArbitersAndBroadcasts :
    let s := State.reset.place 0
    let asks := grouped (fun g => { g with chunk := { g.chunk with phase := .soloWait } })
    let offered : State := { linked s with offers := [{ die := 3, clk := 0, what := .host [aStore 0 1] }] }
    let held (n : Nat) : State := { grouped (fun g => { g with chunk := { g.chunk with phase := .soloRun, soloNs := 5 } }) with
      solo := [(0, (0, 0, 0))], wall := n }
    let next (s : State) (part : Nat) : Option Nat :=
      (diesFrom (s.token.getD part 2)).find? (fun d => bitAt (s.part part).dmask d && s.arbiterBusy d &&
        (s.reaches (s.token.getD part 2) d || !bitAt (s.part part).dmask (s.token.getD part 2)))
    ((held 0).solo.get? 0).isSome = true ∧ next asks 0 = some 0 ∧ asks.solo.get? 0 = none ∧
    ({ asks with token := asks.token.set 0 0 } : State).soloWaiting 0 = some (0, 0, 0) ∧
    next offered 0 = some 3 ∧ ({ offered with token := offered.token.set 0 3 } : State).soloWaiting 3 = none ∧
    (let told (die : Nat) : State := linked (s.setCore 0 { s.core 0 with inbox := [{ stamp := 1, die := die, sectors := [0] }] })
     let tag := castTag ((told 3).partOfDie 0) 1
     ((told 3).core 0).inbox = [{ stamp := 1, die := 3, sectors := [0] }] ∧ (told 3).crossingTo 0 tag = false ∧
     (((told 3).sendPacket 288 0 tag).core 0).inbox = ((told 3).core 0).inbox ∧ ((told 3).sendPacket 288 0 tag).crossingTo 0 tag = true) ∧
    has (held 20005) (fun g => g.chunk.soloNs + 20000 == 20005 && g.uid == 0) = true ∧
    has (held 20004) (fun g => decide (20004 < g.chunk.soloNs + 20000)) = true := by decide +kernel

def difference (stamp : Nat) (items : List BufItem) : Diff := { part := 0, die := 0, stamp := stamp, items := items, owner := none, op := none, cluster := none, prot := [], rebuilt := false }

/-- A difference; none; the bounds of device and host memory, reached and not; a write of NCL. -/
theorem witness_DifferencesReachMemory :
    let s : State := { linked State.reset with diffs := [difference 1 [aStore 0 1]], ncl := [(5, { uid := 0, part := 0, pa := 2 ^ 49 })] }
    (s.nextDiff 0 s.diffs []).any (fun d => d.stamp == 1) = true ∧ State.reset.diffs = [] ∧
    s.inAperture (2 ^ 40 - 1) = false ∧ s.inAperture (2 ^ 49) = false ∧ s.inAperture (2 ^ 50 - 1) = false ∧
    (s.laneDie (s.hostPart (2 ^ 40 - 8)) (2 ^ 40 - 8)).any (fun d => (upFrom (2 ^ 40 - 8) 8).all (fun a => !s.waits d a)) = true ∧
    State.reset.laneDie (State.reset.hostPart (2 ^ 40 - 8)) (2 ^ 40 - 8) = none ∧ (s.ncl.get? 5).isSome = true ∧ (s.laneDie 0 (2 ^ 49)).isSome = true := by
  decide +kernel

/-- A parity difference in turn, early and late, the last byte of a block; holders. -/
theorem witness_ParityDifferences :
    let s : State := { linked State.reset with parityIn := [(7, 3)] }
    s.parityIn.getD 7 0 = 3 ∧ (3 % 2 ^ 16 + 2 ^ 16 - 3) % 2 ^ 16 = 0 ∧ (258 % 2 ^ 16 + 2 ^ 16 - 3) % 2 ^ 16 = 255 ∧ 2 ^ 15 ≤ (2 % 2 ^ 16 + 2 ^ 16 - 3) % 2 ^ 16 ∧
    s.stripeOnWay (2 ^ 28 - 1) = false ∧ 4095 + [0].length ≤ 4096 ∧ Memory.wf s.mem = true ∧ s.rankLost 0 = false ∧ s.parity = [] ∧
    (let g : CollGroup := { CollGroup.reset with msz := 1, par := true, self := 0, mods := [0, 9] }
     ({ s with colls := [(0, g)], unreachable := [9] } : State).rankLost 1) = true := by decide +kernel

def landing (a : AtCommit) : Landing := { core := 0, slot := 0, uid := 0, target := 0, stamp := 3, act := a }
def arrived (a : AtCommit) : State := { State.reset.place 0 with landings := [(9, landing a)] }
def mma (act : Act) (follow : Option Nat) (retries : Nat) : MmaOp :=
  { owner := (0, 0), follow := follow, tile := 0, act := act, slotIdx := 0, desc := [0, 0, 0, 0], snap := [], pc := 0, retries := retries }
def ordered (m : MmaOp) : State := let s := State.reset.place 0; s.setCore 0 { s.core 0 with order := [m] }

/-- A load with good data and one with poisoned data; a copy into the pool with its range on the scoreboard and without; each kind of landing, to a Group that stands and to one that is gone, held by a copy's
range, k registers inside a block and past its end; MMAs with and without a residue. -/
theorem witness_ReturnsAndLandings :
    has (grouped (fun g => { g with pend := [inFlight true] })) (fun g => g.pend.any (fun p => p.uce)) = true ∧
    has (grouped (fun g => { g with pend := [inFlight false] })) (fun g => g.pend.all (fun p => !p.uce)) = true ∧
    State.reset.crossing (loadTag 0 0) = false ∧ ((State.reset.place 0).request 0 0 [2 ^ 30 + 262140]).crossing (loadTag 0 0) = true ∧
    (let acts : List AtCommit := [.stw 0 20000 (toBytes 4 1), .rwr 0 0 0 3 15 [(31, 7)], .rwr 0 0 1 3 15 [(31, 7)], .kwrite 16384 5, .kwrite 16447 5,
        .kwrite 16448 5, .ringp 0 1 0, .ringrel 0 7 63]
     acts.all (fun a => let s := arrived a
      match s.landings.get? 9 with
      | some l => !s.landingWaits 9 l false && !s.landingWaits 9 l true && !s.boardHits 0 20000 4
      | none => false)) = true ∧
    (let s := arrived (.stw 0 20000 (toBytes 4 1)); s.setCore 0 { s.core 0 with board := [{ op := 1, lo := 20003, len := 1 }] }).boardHits 0 20000 4 = true ∧
    (let o : Op := { q := 1, inst := 0, ctx := 0, kernel := some 0, team := some 0, core := 0, num := 1, cmd := toBytes 64 (1 + 4 * 2 ^ 16 + 64 * 2 ^ 32 + 2 ^ 192),
                     state := .left, pos := 0, units := 0, status := 0, stva := none, node := none, pages := [], wants := none, iovf := false, aux := [] }
     let s : State := { arrived (.ringp 0 1 0) with ops := [(7, o)] }
     (s.unboarded 9 0).length = 1 ∧ (s.register 7 0 (landingRows o.cmd)).unboarded 9 0 = [] ∧ (arrived (.ringp 0 1 0)).unboarded 9 0 = []) ∧
    (let inside (a : Nat) : Bool := (State.reset.place 0).teams.any (fun e => !e.2.away && e.2.home == 0 && decide (e.2.block ≤ a) && decide (a < e.2.block + 64))
     inside 16384 && inside 16447 && !inside 16448) = true ∧
    ((ordered (mma .s8 none 0)).core 0).order = [mma .s8 none 0] ∧ mmaHasResidue (mma .bf16 none 0) = false ∧
    mmaHasResidue (mma .n8 none 0) = true ∧ ((ordered (mma .s8 none 0)).core 0).places = [] ∧ mmaHasResidue (mma .s8 (some 0) 0) = true ∧ (mma .s8 (some 0) 0).retries = 0 := by decide +kernel

/-- Fences that are over and that wait; arrivals that complete a phase and one short of it; an event that has arrived, and one that a broadcast
holds back. -/
theorem witness_FencesAndBarriers :
    let fenced (k : FenceKind) (r : List Nat) : State := grouped (fun g => { g with state := .fenced k 95, release := r })
    let ends_ (k : FenceKind) (r : List Nat) : Bool := has (fenced k r) (fun g => (fenced k r).fenceOver 95 g k && g.state == .fenced k 95)
    let bar : Barrier := { nexp := 4, ph := false, init := true, expect := 4, arrived := 2 }
    let s := State.reset.place 0
    let told (inbox : List (Nat × List Nat)) : State := s.setCore 0 { s.core 0 with barMsgs := [(47, [.other])], inbox := inbox.map (fun e => { stamp := e.1, die := 0, sectors := e.2 }) }
    (ends_ .cl [] && ends_ .dv [] && ends_ .sy [] && ends_ .sv [] && ends_ .cl [1]) = true ∧ ends_ .dv [1] = false ∧
    has ({ fenced .sy [] with ncl := [(3, { uid := 0, part := 0, pa := 2 ^ 49 })] }) (fun g => !({ fenced .sy [] with ncl := [(3, { uid := 0, part := 0, pa := 2 ^ 49 })] } : State).fenceOver 95 g .sy) = true ∧
    bar.expect ≤ bar.arrived + 2 ∧ bar.arrived + 1 < bar.expect ∧ bar.arrived < bar.expect ∧
    (((told []).core 0).barMsgs.getD 47 []).all ((told []).msgArrived 0) = true ∧
    (((told [(1, [])]).core 0).barMsgs.getD 47 []).any (fun m => !(told [(1, [])]).msgArrived 0 m) = true ∧
    s.crossingTo 383 (freeTag 47) = false ∧ (s.sendPacket 0 383 (freeTag 47)).crossingTo 383 (freeTag 47) = true := by decide +kernel

/-! Engine commands stand at address 0 of Context 0's Page, 256 KiB in device memory from 2^30. -/

def cmdOf (fmt var : Nat) (fs : List (Nat × Nat)) : List Byte := toBytes 64 (fs.foldl (fun n f => n + f.2 * 2 ^ f.1) (fmt + var * 2 ^ 16))
def opOf (q : Nat) (st : OpState) (cmd : List Byte) : Op :=
  { q := q, inst := 0, ctx := 0, kernel := some 0, team := some 0, core := 0, num := 1, cmd := cmd, state := st, pos := 0, units := 0, status := 0,
    stva := none, node := none, pages := [], wants := none, iovf := false, aux := [] }
/-- The Page as the engines hold it. -/
def engTlb : Tlb := { placedTlb with unit := 480 }
def engine (o : Op) : State := { linked (State.reset.place 0) with ops := [(7, o)], tlb := [engTlb] }
def reached (s : State) (reqs : List (Nat × Nat × AccKind)) : Bool := match s.reach 0 reqs with | .ok _ => true | _ => false
def refuses (s : State) (reqs : List (Nat × Nat × AccKind)) : Bool := match s.reach 0 reqs with | .refused => true | _ => false
def statusOk (s : State) (va : Nat) : Bool := match s.statusAt 0 va with | .at_ _ _ => true | _ => false
def statusRefused (s : State) (va : Nat) : Bool := match s.statusAt 0 va with | .refused => true | _ => false
def statusMissing (s : State) (va : Nat) : Bool := match s.statusAt 0 va with | .missing _ => true | _ => false

/-- A command has come to its engine; its request is served; its addresses are translated: the operation with what was found. -/
def gone (s : State) (o : Op) : Bool := o.state == .translating && o.status == 0 && !s.crossing (pushTag 7)
def served (s : State) (o : Op) (n : Nat) (pas : List Nat) : Bool :=
  (s.askAcross o.place (readTag 7 n) pas).isNone && (pas.find? (s.waitsFor (.op 7) o.die)).isNone
def translated (s : State) (o : Op) (reqs : List (Nat × Nat × AccKind)) (p : Op → Bool) : Bool :=
  match s.statusAt o.ctx (cmdStaddr o.cmd), s.reach o.ctx reqs with
  | .at_ va ps, .ok qs => p { o with stva := va, pages := addPages ps qs, wants := none }
  | _, _ => false

/-- 64 bytes from 0 to 64; to the last 64 bytes of the Page. -/
def copyToMem : List Byte := cmdOf 1 0 [(32, 64), (128, 64), (192, 1)]
def copyToWindow : List Byte := cmdOf 1 4 [(32, 64), (128, 16384), (192, 1)]

/-- An earlier command, none, a node's command; an engine on the core's die and on another; the packet on its way and come; fields that are bad,
Pages that refuse, status addresses that are refused or missing. -/
theorem witness_CommandsLeave :
    let o := opOf 0 .queued copyToMem
    let s := engine { o with num := 2 }
    let far : Op := { o with q := 16, inst := 15, core := 0 }
    let gone_ : Op := { far with state := .translating }
    let readOnly : State := { engine o with tlb := [{ engTlb with w := false }] }
    ({ s with ops := (6, o) :: s.ops } : State).earlierQueued 7 { o with num := 2 } = true ∧ s.earlierQueued 7 { o with num := 2 } = false ∧
    s.op? 7 = some { o with num := 2 } ∧ o.nearby = true ∧ far.nearby = false ∧ s.crossing (pushTag 7) = false ∧
    ((engine gone_).sendPacket 0 far.place (pushTag 7)).crossing (pushTag 7) = true ∧ ({ o with num := 0 } : Op).num = 0 ∧
    copyBad (cmdOf 1 0 [(32, 16777217), (192, 1)]) = some 4 ∧ copyBad (cmdOf 1 0 [(32, 16777216), (192, 1)]) = none ∧
    gatherBad (cmdOf 2 0 [(32, 65537), (64, 4)]) = some 4 ∧ rednBad (cmdOf 7 0 [(64, 8)]) = some 8 ∧ enqBad (cmdOf 8 0 [(64, 32)]) = some 8 ∧
    mcastBad (cmdOf 9 0 [(32, 31)]) = some 4 ∧ statusOk s 0 = true ∧ statusOk s 262140 = true ∧ reached s (copyReqs (copyCmd copyToMem)) = true ∧
    reached { s with tlb := [] } (copyReqs (copyCmd copyToMem)) = false ∧ refuses { s with tlb := [] } (copyReqs (copyCmd copyToMem)) = false ∧
    refuses readOnly (copyReqs (copyCmd copyToMem)) = true ∧ statusRefused readOnly 4 = true ∧ statusRefused s (2 ^ 57) = true ∧
    statusMissing s 262144 = true := by decide +kernel

/-- A COPY to leave, at its first Chunk, at its end; registered; with a follow-on MMA; pieces into memory, into a pool, poisoned, from a home on
another die and from one that waits; a GATHER. -/
theorem witness_CopyAndGatherCommands :
    let o := opOf 0 .translating copyToMem
    let s := engine o
    let c := copyCmd copyToMem
    let w := opOf 1 .left copyToWindow
    let sw := (engine w).register 7 0 (windowRows copyToWindow)
    let piece (l : Loc) : Piece := { src := .mem (2 ^ 30), dst := l, len := 64 }
    let gcmd := cmdOf 2 0 [(32, 1), (64, 4), (128, 4096), (192, 8192), (256, 128)]
    let g := opOf 0 .translating gcmd
    let ga := gatherCmd gcmd
    let wcmd := cmdOf 2 2 [(32, 1), (64, 4), (128, 4096), (192, 8192), (256, 16640)]
    copyBad copyToMem = none ∧ gone s o = true ∧ translated s o (copyReqs c) (fun o1 => s.copyWindows o1 c) = true ∧ s.followFault o c = none ∧
    o.pos < c.rows * c.len ∧ sw.registered 7 0 (windowRows copyToWindow) = true ∧ (copyCmd copyToWindow).dwin = true ∧
    c.rows * c.len ≤ ({ o with pos := 64 } : Op).pos ∧ ((engine w).teams.get? 0).isSome = true ∧
    tileBusy ((engine w).core 0) (copyCmd copyToWindow).tile = false ∧ has (engine w) (fun g => g.chunk.tiles.isEmpty) = true ∧
    s.followHeld 7 placedTeam (copyCmd copyToWindow) = false ∧ served s o 0 [2 ^ 30] = true ∧ served s o (2 ^ 64) [] = true ∧
    (State.reset.askAcross 0 (readTag 7 0) [2 ^ 40 - 64]).isSome = true ∧
    ({ s with badLines := [lineKey s.regions (2 ^ 30)] } : State).waitsFor (.op 7) o.die (2 ^ 30) = true ∧
    s.piecePoison (piece (.mem 0)) = false ∧ s.piecePoison (piece (.pool 0 16384)) = false ∧
    ({ s with poison := [(2 ^ 24, { done := 0, since := [] })] } : State).piecePoison (piece (.mem 0)) = true ∧
    gatherBad gcmd = none ∧ ga.dwin = false ∧ gone s g = true ∧ translated s g [(ga.ilist, 4, .engRead)] (fun o1 => served s o1 1 (o1.pas [(ga.ilist, 4)]) &&
      !(s.afterRead 7 o1 (o1.pas [(ga.ilist, 4)])).vpoison o1.pages ga.ilist 4 &&
      reached (s.afterRead 7 o1 (o1.pas [(ga.ilist, 4)])) (gatherReqs ga (splitNums 4 1 ((s.afterRead 7 o1 (o1.pas [(ga.ilist, 4)])).vread o1.pages ga.ilist 4)))) = true ∧
    ga.n * ga.rowlen = 4 ∧ (gatherCmd wcmd).dwin = true ∧ ({ s with teams := [(0, { placedTeam with tscr := 16 })] } : State).winOk (some 0) 0 ((gatherCmd wcmd).dstRow 0) 4 = true ∧
    s.registered 7 0 (windowRows wcmd) = false ∧ (s.register 7 0 (windowRows wcmd)).registered 7 0 (windowRows wcmd) = true := by decide +kernel

/-- A reduce-scatter, an all-gather, a REDN: at the first element, and past the last; members that hold a stripe, give to it, rebuild it, and take
it back; what is sent, acknowledged or not; a port that is not Up. -/
theorem witness_ReductionCommands :
    let rs := { opOf 2 .left (cmdOf 3 0 [(32, 4), (128, 128)]) with pages := [engTlb] }
    let s := engine rs
    let c := collCmd rs.cmd
    let red := { opOf 32 .left (cmdOf 7 0 [(64, 128)]) with aux := [4096, 8, 0, 0, 64], pages := [engTlb] }
    let g : CollGroup := { CollGroup.reset with msz := 7, par := true, self := 0, mods := upFrom 1000 8 }
    let x := opOf 2 .left (cmdOf 3 2 [(32, 8)])
    let xs : State := { engine x with colls := [(0, g)] }
    rs.units = 0 ∧ cmdVar rs.cmd = 0 ∧ cmdVar (cmdOf 3 1 [(32, 4)]) = 1 ∧ c.count = 4 ∧ rs.pos < c.count * dtSize c.dtype ∧
    c.count * dtSize c.dtype ≤ ({ rs with pos := 64 } : Op).pos ∧ served s rs 0 (rs.pas [(0, 16)]) = true ∧ s.vpoison [engTlb] 0 16 = false ∧
    s.portsUp (s.collGroup c.cgrp) = true ∧ xs.portsUp g = true ∧ ({ xs with links := [] } : State).portsUp g = false ∧
    red.aux = 4096 :: 8 :: 0 :: [0, 64] ∧ red.pos < 8 ∧ 8 ≤ ({ red with pos := 8 } : Op).pos ∧
    served (engine red) red 0 (red.pas [(0, 32), (64, 32)]) = true ∧ (engine red).vpoison [engTlb] 64 32 = false ∧
    ([[0]] : List (List Byte)) ≠ [] ∧
    (collRole 0 0 false 0).2 = none ∧ (collRole 0 0 false 7).2 = some 7 ∧ (collRole 0 7 true 0).2 = some 7 ∧ (collRole 0 7 true 7).2 = some 7 ∧ (collRole 7 7 true 0).2 = none ∧
    x.pos < (collCmd x.cmd).count ∧ (collCmd x.cmd).count ≤ ({ x with pos := 8 } : Op).pos ∧
    served { xs with fresh := xs.fresh + 32768 } x 0 ((xs.blockLines 7 (blockG 0 7)).take 1) = true ∧
    xs.contributed 7 x = true ∧ (xs.contribute 7 x g 7 0 [1]).contributed 7 x = false := by decide +kernel

/-- A ring of 16 with 15 nodes and with 16 nodes outstanding; an ENQ behind one that has not been placed; a Queue that is not open; MCAST to the
last cluster of its die, to a die outside the partition, and one that lands. -/
theorem witness_EnqueueAndMulticast :
    let o := opOf 3 .translating (cmdOf 8 0 [(32, 1023), (64, 64)])
    let q (tail : Nat) : Queue := { Queue.reset with state := 1, device := true, lgsize := 4, tail := tail }
    let s (tail : Nat) : State := (engine o).setQueue 1023 (q tail)
    let m := opOf 4 .translating (cmdOf 9 0 [(32, 32), (160, 2 ^ 23)])
    let e := engine m
    let mc := mcastCmd m.cmd
    enqBad o.cmd = none ∧ gone (s 15) o = true ∧ cmdField o.cmd 63 32 < Config.nQueues ∧
    translated (s 15) o [(64, 64, .engRead)] (fun o1 => !(s 15).enqAhead o1 && served (s 15) o1 0 (o1.pas [(64, 64)]) &&
      !((s 15).afterRead 7 o1 (o1.pas [(64, 64)])).vpoison o1.pages 64 64) = true ∧
    translated { s 15 with ops := (6, { o with num := 0 }) :: (5, { o with state := .left }) :: (s 15).ops } { o with num := 2 } [(64, 64, .engRead)]
      (fun o1 => ({ s 15 with ops := (6, { o with num := 0 }) :: (5, { o with state := .left }) :: (s 15).ops } : State).enqAhead o1) = true ∧
    ((s 15).queue 1023).state = 1 ∧ ((s 15).queue 1023).ctx = o.ctx ∧ (15 + 2 ^ 32 - ((s 15).queue 1023).done) % 2 ^ 32 < 2 ^ 4 ∧
    2 ^ 4 ≤ (16 + 2 ^ 32 - ((s 16).queue 1023).done) % 2 ^ 32 ∧ ((engine o).queue 1023).state ≠ 1 ∧ Config.nQueues ≤ 1024 ∧
    mcastBad m.cmd = none ∧ gone e m = true ∧ mc.die = 0 ∧ mc.cmask = 2 ^ 23 ∧
    translated e m [(0, 32, .engRead)] (fun o1 => served e o1 0 (o1.pas [(mc.src, mc.len)]) &&
      (let u := e.afterRead 7 o1 (o1.pas [(mc.src, mc.len)])
       !u.vpoison o1.pages mc.src mc.len && (u.mcastAway 7 o1 mc).isNone)) = true ∧ (e.core 0).board.length < 128 ∧
    bitAt (e.part (e.sealedOf (e.ctx 0).part)).dmask 0 = true ∧
    bitAt (({ e with parts := [{ Partition.whole with dmask := 1 }] } : State).part 0).dmask 3 = false ∧
    ({ m with state := .left, aux := [1, 5] } : Op).aux = 1 :: 5 :: ([] : List Nat) := by decide +kernel

theorem witness_CommandsComplete :
    let o := { opOf 0 .status copyToMem with stva := some 0 }
    let t : Timeline := { assigned := 5, count := 1, beyond := [3, 5] }
    (engine o).op? 7 = some o ∧ o.state = .status ∧ o.units = 0 ∧ cmdBaren o.cmd = false ∧ ({ o with units := 1 } : Op).units ≠ 0 ∧
    o.stva = some 0 ∧ ({ o with stva := none } : Op).stva = none ∧ t.count < 2 ∧ 2 ∉ t.beyond ∧ (∀ m ∈ t.beyond, t.count + 1 < m) ∧
    t.beyond.Nodup ∧ t.count < 4 ∧ 4 ∉ t.beyond := by decide +kernel

/-! Indexes: one f32 Index of 16 elements over slots at physical address 0. -/

def anIndex : Index := { Index.reset with state := 1, dim := 16, segs := [{ stack := 0, base := 0, nslot := 4 }] }
def aSearch (ms : List WalkMsg) : Search :=
  { op := 7, index := 0, home := 0, tile := 0, modid := 0, tport := 0, snap := 5, kc := 0, k := 1, beam := 1, budget := 1, query := List.replicate 64 0, c := [], r := [], refined := [],
    hops := 0, ex := 0, sc := 0, rf := 1, spent := false, bad := false, msgs := ms, refining := false, rbuf := 0, status := 0 }
def searching (ms : List WalkMsg) : State := { linked (State.reset.place 0) with indexes := [(0, anIndex)], searches := [(3, aSearch ms)] }
def srchOp : Op := { opOf 16 .queued (cmdOf 4 0 [(32, 1), (48, 1), (64, 0), (128, 1024), (192, 1), (224, 5)]) with num := 1 }

/-- A message of each kind, alone and behind one of another kind; a stack in reach and one out of it; a search to leave; a walk that has ended. -/
theorem witness_Searches :
    let s := searching []
    let clean (ids : List Nat) : Bool := ids.all (fun i => (s.slotWaits (.op 7) anIndex i anIndex.stride).isNone && !s.slotPoison anIndex i anIndex.stride)
    takeMsg isScore 0 [.score 0 [0] 1] = some (.score 0 [0] 1, []) ∧ takeMsg isExpand 0 [.score 0 [0] 1, .expand 0 0 2] = some (.expand 0 0 2, [.score 0 [0] 1]) ∧
    takeMsg isScored 1 [.scored 1 2 true 1, .scored 2 3 false 2] = some (.scored 2 3 false 2, [.scored 1 2 true 1]) ∧
    takeMsg isExpanded 0 [.expanded 64 1] = some (.expanded 64 1, []) ∧ takeMsg isRefine 0 [.refine 0 3 1] = some (.refine 0 3 1, []) ∧
    takeMsg isRefined 0 [.refined 3 0 1] = some (.refined 3 0 1, []) ∧ clean [0, 3] = true ∧ clean (0 :: (s.slotAdj anIndex 0).filter anIndex.valid) = true ∧
    (searching [.score 15 [0] 1]).serves 3 (.score 15 [0] 1) = true ∧ (searching [.expand 0 0 1]).serves 3 (.expand 0 0 1) = true ∧
    ((searching [.score 15 [0] 1]).sendHop 3 0 0 (.score 15 [0] 1)).serves 3 (.score 15 [0] 1) = false ∧ s.serves 3 (.scored 1 2 true 1) = true ∧
    (aSearch []).rf - 1 = 0 ∧ (∀ e ∈ (aSearch []).c ++ (aSearch []).r, e.id ≠ 1) ∧
    (s.search? 3).map (fun x => (x.bad, x.index)) = some (false, 0) ∧ s.index 0 = anIndex ∧ s.op? 7 = none ∧
    s.unreachable.contains (switchOf 0) = false ∧ s.nslOpen 0 0 = true ∧
    ({ s with ops := [(7, srchOp)] } : State).op? 7 = some srchOp ∧ srchOp.state = .queued ∧ srchOp.num ≠ 0 ∧ srchOp.nearby = true ∧ ({ srchOp with q := 31, inst := 15 } : Op).nearby = false ∧
    ({ s with ops := [(7, srchOp)] } : State).earlierQueued 7 srchOp = false ∧ s.srchFault srchOp = none := by decide +kernel

theorem witness_MergeRule :
    let l : List Cand := [{ d := 0, id := 1, expanded := false }, { d := 0x3F800000, id := 2, expanded := true }]
    (l.map (fun e => e.id)).Nodup ∧ l.length ≤ 2 ∧ l.length < 3 ∧ List.Pairwise (fun a b => keyBefore b a = false) l ∧
    (∀ f ∈ l, f.id ≠ 3) := by decide +kernel

def updOp (var : Nat) (fs : List (Nat × Nat)) : Op := opOf 16 .left (cmdOf 5 var ([(32, 9), (128, 0)] ++ fs))
def slotWords (ins del : Nat) : State := { linked (State.reset.place 0) with indexes := [(0, anIndex)], tlb := [engTlb], mem := physPut State.reset.regions [] 0 (toBytes 4 ins ++ toBytes 4 del) }
def pubOp : Op := opOf 16 .queued (cmdOf 6 0 [(32, 9)])

/-- An insert at its vector, after it, and held by a version not yet published; a delete; a link; a publication above pub, pending and published. -/
theorem witness_IndexUpdatesAndPublications :
    let ready (s : State) (o : Op) : Bool :=
      let o := { o with pages := [engTlb] }
      let reads := (updReqs anIndex (cmdVar o.cmd) (updCmd o.cmd)).map (fun r => (r.1, r.2.1))
      let s0 := s.afterRead 7 o (o.pas reads)
      !s.updBehind o (updCmd o.cmd) && (s.slotWaits (.op 7) anIndex 0 8).isNone && served s o (2 * o.pos) (o.pas reads) &&
        reads.all (fun r => !s0.vpoison [engTlb] r.1 r.2) && !(s0.slotServed 7 anIndex [0] 8).slotPoison anIndex 0 8
    let empty := slotWords 0 0
    let held := slotWords 3 7
    let live := slotWords 3 0xFFFFFFFF
    ready empty (updOp 0 []) = true ∧ cmdVar (updOp 0 []).cmd = 0 ∧ (updOp 0 []).aux = [] ∧ anIndex.vb = 64 ∧ empty.slotIns anIndex 0 = 0 ∧
    ({ updOp 0 [] with pos := 64 } : Op).pos = anIndex.vb ∧
    ready held (updOp 0 []) = true ∧ held.slotIns anIndex 0 = 3 ∧ held.slotDel anIndex 0 = 7 ∧ ¬(7 ≤ anIndex.pub ∧ 7 ≤ held.minsnap 0) ∧
    ready live (updOp 1 []) = true ∧ cmdVar (updOp 1 []).cmd = 1 ∧ live.slotDel anIndex 0 = 0xFFFFFFFF ∧ live.slotIns anIndex 0 ≠ 0 ∧
    ready live (updOp 2 [(256, 64)]) = true ∧ cmdVar (updOp 2 []).cmd = 2 ∧
    publBad pubOp.cmd = none ∧ cmdField pubOp.cmd 71 64 = 0 ∧ held.indexServes 0 0 = true ∧ anIndex.pub < cmdField pubOp.cmd 63 32 ∧
    cmdStaddr pubOp.cmd = 0 ∧ pubOp.aux = [] ∧ pubOp.nearby = true ∧ pubOp.status = 0 ∧ pubOp.num ≠ 0 ∧ ({ held with ops := [(7, pubOp)] } : State).earlierQueued 7 pubOp = false ∧
    held.updsDone 0 9 = true ∧ ({ held with ops := [(6, updOp 0 [])] } : State).updsDone 0 9 = false ∧
    ({ held with publs := [(0, 9, 7)] } : State).publs = [(0, cmdField pubOp.cmd 63 32, 7)] := by decide +kernel

/-! Kernels -/

def kernelIn (st : KState) (f : Kernel → Kernel) : State := let s := State.reset.place 0; s.setKernel 0 (f { placedKernel with state := st })
def with0 (s : State) (p : Kernel → Bool) : Bool := match s.kernels.get? 0 with | some k => p k | none => false

/-- A launch record of one Team of one Group at virtual 4096, and a PRIO at the code base; the same with a bad codelen. -/
def recordBytes (codelen : Nat) : List Byte :=
  toBytes 192 (codelen * 2 ^ 64 + 0xFFFFFFFF * 2 ^ 96 + 2 ^ 160 + 2 ^ 176 + 2 ^ 192 + 2 ^ 208 + 2 ^ 232 + 32 * 2 ^ 240 + placedLaunch.poolpart * 2 ^ 320)
def launchNode : Node := { queue := 0, seq := 1, bytes := toBytes 64 (1 + 4096 * 2 ^ 352), state := .inPool 0 0, status := 0, wants := none, read := false }
def dispatching (codelen : Nat) : State :=
  let s := linked (State.reset.place 0xFD00BEEF)
  { s with tlb := [engTlb], mem := physPut s.regions s.mem (2 ^ 30 + 4096) (recordBytes codelen), nodes := [launchNode] }

/-- A core to load; Teams to form in a Live and in a suspended Context; Kernels that drain, complete and stop, with and without a command in
flight; records in the gatherer 4,096 clk old; a lane that waits for room; launch records, good and bad. -/
theorem witness_KernelsAndTeams :
    let load := (kernelIn .loading id).setCore 0 { (kernelIn .loading id).core 0 with poolpart := 0 }
    let more := kernelIn .running (fun k => { k with launch := { k.launch with gridx := 2, gridy := 1, gridz := 1 } })
    let alone (st : KState) : State := { kernelIn st (fun k => { k with clusters := [], gangs := [], nextTeam := 1 }) with teams := [] }
    let busy : State := { alone .completing with ops := [(7, opOf 0 .left copyToMem)] }
    let st : ContStore := { ContStore.reset with recs := [(1, { kernel := 0, entry := 64, prio := 0, args := [], team := none })], last := [(0, 64, 4)] }
    let gathering : State := { State.reset.place 0 with stores := [(3, st)], clk := 4100 }
    let waits := grouped (fun g => { g with lanes := List.replicate 32 { pc := 0, prio := 0, wait := .room 32 } })
    let d := dispatching 64
    load.core 0 = { load.core 0 with kernel := some 0, poolpart := 0, board := [] } ∧ load.ops = [] ∧
    with0 more (fun k => more.teamsLeft 0 k && k.state == .running && (more.ctx k.ctx).state == .live) = true ∧
    with0 more (fun k => (more.setCtx 0 { more.ctx 0 with state := .suspending }).teamsLeft 0 k) = true ∧
    (placedKernel.launch.gridx = 0 ∨ 0 < placedKernel.launch.gridx) ∧ with0 more (fun k => decide (0 < k.launch.gridx ∧ 0 < k.launch.gridy)) = true ∧
    with0 (alone .draining) (fun k => (alone .draining).drained 0 k && k.clusters.isEmpty && k.gangs.isEmpty) = true ∧
    with0 (alone .completing) (fun k => k.state == .completing && (alone .completing).ops.isEmpty && (alone .completing).offers.isEmpty) = true ∧
    with0 (alone .draining) (fun k => (alone .draining).drainsNow 0 k) = true ∧ with0 more (fun k => !more.drainsNow 0 k) = true ∧
    with0 busy (fun k => k.state == .completing && busy.ops.any (fun o => o.2.kernel == some 0)) = true ∧
    with0 (alone .stopping) (fun k => k.state == .stopping && k.gangs.isEmpty && (alone .stopping).ops.isEmpty) = true ∧
    ((gathering.store 3).waiting 0 64).length = 1 ∧ (gathering.store 3).last = [(0, 64, gathering.clk - 4096)] ∧ 4096 ≤ gathering.clk ∧
    has waits (fun g => (g.lanes.findSome? (fun x => match x.wait with | .room n => some n | _ => none)) == some 32 &&
      decide (waits.roomOf 0 g.uid < 32 ∧ 32 ≤ (waits.store (dieOf 0)).free)) = true ∧
    firstNode d.wall d.nodes = some launchNode ∧ launchNode.pooled = true ∧ launchNode.kind = 1 ∧ launchNode.arg0 = 4096 ∧
    (d.ctx (d.nodeCtx launchNode)).state = .live ∧ reached d [(4096, 192, .engRead)] = true ∧ (let l := launchOf (d.vread [engTlb] 4096 192)
     d.vwaits (d.nodeDie launchNode) [engTlb] 4096 192 = none ∧ d.vpoison [engTlb] 4096 192 = false ∧ d.launchBad 0 (d.vread [engTlb] 4096 192) = none ∧
     (dispatching 3).launchBad 0 ((dispatching 3).vread [engTlb] 4096 192) = some 8 ∧ d.vwaits (d.nodeDie launchNode) [engTlb] l.codebase l.codelen = none ∧
     d.vpoison [engTlb] l.codebase l.codelen = false ∧ reached d [(l.codebase, l.codelen, .fetch)] = true ∧ d.codeBad [engTlb] l = none) := by decide +kernel

def imaged (st : ImgState) (f : Gang → Gang) : State :=
  kernelIn .running (fun k => { k with gangs := k.gangs.map (fun g => (g.1, f { g.2 with images := g.2.images.map (fun i => { i with state := st }) })) })
def gang0 (s : State) (p : Gang → Bool) : Bool := match s.gang? 0 0 with | some g => p g | none => false

/-- An expired quantum with and without a rival; a Gang to save; one whose effects are on their way; one to restore to a free cluster; one whose
cores have drained; a Halted Group; a rested Group at its 64th clk; a pin at its end; ydem 0 and 64. -/
theorem witness_ImagesAndGroups :
    let resident := imaged .resident id
    let rival : State := { resident with nodes := [{ launchNode with bytes := toBytes 64 (1 + 7 * 2 ^ 10) }] }
    let saving := linked (imaged .saving id)
    let busy : State := { saving with landings := [(9, landing (.stw 0 20000 []))] }
    let saved := let s := imaged .saved id; s.setCore 0 { s.core 0 with kernel := none, groups := [] }
    let restoring := linked (imaged .restoring id)
    let halted := grouped (fun g => { g with state := .halted lanes32 })
    let rests : State := let s := grouped (fun g => { g with state := .halted lanes32 }); { s.setCore 0 { s.core 0 with active := [{ slot := 0, last := 0, idle := some 0, pin := 64 }] } with clk := 64 }
    gang0 resident (fun g => !g.images.isEmpty && g.images.all (fun i => i.state == .resident) &&
      decide (g.started + (resident.ctx 0).quantum * 1000 ≤ ({ resident with wall := (resident.ctx 0).quantum * 1000 } : State).wall)) = true ∧
    resident.nodes = [] ∧ rival.nodes.any (fun n => n.pooled && n.kind == 1 && rival.sealedOf (rival.ctx (rival.nodeCtx n)).part == 0 &&
      decide (0 ≤ n.level rival.wall)) = true ∧
    gang0 saving (fun g => g.images.all (fun i => saving.slotReached i)) = true ∧ gang0 saving (fun g => g.images.any (fun i => i.state == .saving) && !saving.saveWaits 0 0 g && (saving.checkedOut g.cluster).isEmpty &&
      decide (g.images.map (fun i => i.core)).Nodup) = true ∧
    gang0 busy (fun g => busy.saveWaits 0 0 g) = true ∧
    gang0 saved (fun g => g.images.any (fun i => i.state == .saved)) = true ∧ 95 ∈ saved.clustersFor 0 ∧
    (saved.joined 0 0).all (fun x => saved.fitsOn 95 x) = true ∧
    gang0 restoring (fun g => g.images.any (fun i => i.state == .restoring) && g.images.all (fun i => restoring.slotReached i) && g.images.all (fun i => (restoring.core i.core).board.isEmpty) &&
      restoring.ops.isEmpty) = true ∧
    has halted (fun g => g.state == .halted lanes32) = true ∧
    (rests.core 0).active.find? (fun a => a.slot == 0) = some { slot := 0, last := 0, idle := some 0, pin := 64 } ∧ 0 + 64 ≤ rests.clk ∧ 64 ≤ rests.clk ∧
    rests.mayRest 0 0 = true ∧ has rests (fun g => g.ydem == 0) = true ∧
    has (grouped (fun g => { g with ydem := 64 })) (fun g => g.ydem == 64) = true := by decide +kernel

/-- A root entry that leads to a leaf, for core 0; a root that faults, with no Group on the granule; a Page that migrates; records with the ring unset, full and with
room; a request returned 1 µs ago and one returned just now; a line to rebuild; a bank at each bound. -/
theorem witness_WalksAndLines :
    let w : Walk := { ctx := 0, gran := 0, die := 0, units := [0] }
    let walking (root : Nat) : State := { linked (State.reset.place 0) with walks := [w], tlb := [], mem := physPut State.reset.regions [] 0 (toBytes 8 root) }
    let leafy : State := { walking (2 ^ 16 + 1) with mem := physPut State.reset.regions (physPut State.reset.regions [] 0 (toBytes 8 (2 ^ 16 + 1))) (2 ^ 16) (toBytes 8 0x0F) }
    let r : XRec := { part := 0, ctx := 0, va := 0, acc := 1, lvl := 0, kind := 0, eaddr := 0 }
    let ring (lg tail : Nat) : State :=
      let s : State := { linked (State.reset.place 0) with xrecs := [r] }; s.setWindow 0 { s.window 0 with xflg := lg, xftail := tail }
    let sent (n : Nat) : State := { grouped (fun g => { g with hold := .resend 5 }) with wall := n }
    let bad : State := { State.reset with badLines := [2 ^ 34 - 1] }
    let bank (t n : Nat) : State := { State.reset with banks := [(bankNo 15 7 3 3, (t, n))], wall := 100 }
    (walking 0).walks.find? (fun w => w.ctx == 0 && w.gran == granOf 0) = some w ∧ (walking 0).inFlight w = true ∧ walkWaits (walking 0) 0 0 4 0 0 = none ∧
    (match (walking 0).walk 0 0 with | .fault _ _ _ => true | _ => false) = true ∧
    (walking 0).migrates 0 0 1 = false ∧ ({ walking 0 with migrations := [{ die := 0, ctx := 0, va := 0, lg := 18, old := 2 ^ 30, new := 0, part := 0, bound := 0, step := 6, mark := 0, was := [] }] } : State).migrates 0 0 1 = true ∧
    (walking 0).cores.all (fun c => c.2.groups.all (fun g => !g.2.onWalk 0 0)) = true ∧ (walking 0).faulted = [] ∧
    (match leafy.walk 0 0 with | .leaf t => decide (t.lg = 32 ∧ t.w ∧ ¬t.x) | .fault _ _ _ => false) = true ∧ walkWaits leafy 0 0 4 0 0 = none ∧
    leafy.tlb = [] ∧ leafy.ctxAt 0 = 0 ∧ (leafy.group? 0 0).isSome = true ∧
    (ring 0 0).firstDie 0 = some 0 ∧ (ring 0 0).xrecs.find? (fun x => x.part == 0) = some r ∧ (ring 4 15).stampsNow 0 = true ∧
    ((ring 4 16).window 0).xflg = 4 ∧ 2 ^ 4 ≤ seqAhead ((ring 4 16).window 0).xftail ((ring 4 16).window 0).xfhead ∧
    seqAhead ((ring 4 15).window 0).xftail ((ring 4 15).window 0).xfhead < 2 ^ 4 ∧
    has (sent 1005) (fun g => g.hold == .resend 5) = true ∧ (sent 1004).wall < 5 + 1000 ∧ ¬(sent 1005).wall < 5 + 1000 ∧
    bad.badLines.contains (2 ^ 34 - 1) = true ∧ bad.groupBroken = false ∧ bad.stripeBusy (2 ^ 34 - 1) = false ∧ Memory.wf bad.mem = true ∧
    (bank 100 8).banks.getD (bankNo 15 7 3 3) (0, 0) = (100, 8) ∧ (bank 101 7).wall < 101 ∧ (bank 100 7).wall = 100 := by decide +kernel

/-! Commands of the windows: operands by offset, the command with the device. -/

def withCop (die : Nat) (puts : List (Nat × List Byte)) (s : State) : State :=
  s.setWindow die { s.window die with cop := puts.foldl (fun m p => m.put p.1 p.2) [] }
def going (code : Nat) (puts : List (Nat × List Byte)) (s : State) : State := { withCop 0 puts s with goes := [(0, code)] }
def mapHead : List Byte := toBytes 256 ((upFrom 0 32).foldl (fun n i => n + 2 ^ i * 2 ^ (32 * i + 1024)) (1 + 40 * 2 ^ 42))
def mapImage : List Byte := mapHead ++ List.replicate 1792 0

/-- A MIGRATE of the Page at step n. -/
def migrationAt (n : Nat) : Migration :=
  { die := 0, ctx := 0, va := 0, lg := 18, old := 2 ^ 30, new := 2 ^ 40 - 2 ^ 18, part := 0, bound := 0, step := n, mark := 0, was := [] }

/-- INVAL of the last Page of a Context and of a Free one, and its end; a granule that is Faulted and one that is not; a Page to migrate and one
migrating, at each step; maps that are refused, read and accepted. -/
theorem witness_PageCommands :
    let s := linked (State.reset.place 0)
    let last := toBytes 8 (2 ^ 57 - 2 ^ 18)
    let inval := going 0x30 [(0x18, last), (0x20, [3])] s
    let ending : State := { s with goes := [(0, 0x130)], invals := [{ die := 0, ctx := 0, lo := 0, len := 1, part := 0, bound := 0, lines := [], ops := [] }] }
    let freed := going 0x30 [(0x10, [255])] s
    let faulted (code : Nat) : State := { going code [(0x18, last)] s with faulted := [(0, granOf (2 ^ 57 - 2 ^ 18))] }
    let moves := going 0x31 [(0x20, toBytes 8 (2 ^ 40 - 2 ^ 18))] s
    let moving (n : Nat) : State := { s with migrations := [migrationAt n] }
    let odd := going 0x41 [(0x10, toBytes 8 128)] s
    let mapped := { going 0x41 [(0x10, toBytes 8 4096)] (linked State.reset) with mem := physPut State.reset.regions [] 4096 mapHead }
    inval.goes = [(0, 0x30)] ∧ (inval.ctx 0).state = .live ∧ (inval.window 0).op 0x18 8 = 2 ^ 57 - 2 ^ 18 ∧ (inval.window 0).op 0x20 1 = 3 ∧
    inval.migrations = [] ∧ ending.invals.length = 1 ∧ ending.diffs = [] ∧ ending.offers = [] ∧ ending.ops = [] ∧
    freed.goes = [(0, 0x30)] ∧ (freed.ctx ((freed.window 0).op 0x10 1)).state = .free ∧
    (faulted 0x32).taken 0x32 = some 0 ∧ (0, granOf (2 ^ 57 - 2 ^ 18)) ∈ (faulted 0x32).faulted ∧ (0, granOf 0) ∉ (faulted 0x32).faulted ∧
    (faulted 0x33).taken 0x33 = some 0 ∧ (faulted 0x33).nodes = [] ∧ (faulted 0x33).ops = [] ∧ (faulted 0x33).migrations = [] ∧
    moves.taken 0x31 = some 0 ∧ moves.tlb.find? (fun t => t.maps 0 0) = some placedTlb ∧ (moves.window 0).op 0x20 8 % 2 ^ 18 = 0 ∧
    (moves.window 0).op 0x20 8 < 2 ^ 40 ∧ moves.migrations = [] ∧ moves.outIn [placedTlb] = [] ∧
    (moving 2).diffs = [] ∧ (moving 2).stampsNow 0 = true ∧ s.badLines = [] ∧ s.rebuilding = [] ∧ s.offers = [] ∧ s.ops = [] ∧
    (moving 3).migrationReady (migrationAt 3) = true ∧ (moving 4).migrationReady (migrationAt 4) = true ∧ (moving 5).migrationReady (migrationAt 5) = true ∧
    odd.taken 0x41 = some 0 ∧ (odd.window 0).op 0x10 8 % 256 ≠ 0 ∧
    mapped.taken 0x41 = some 0 ∧ physOk ((mapped.window 0).op 0x10 8 + 2047) = true ∧ (upFrom 4096 2048).all (fun a => !mapped.waits 0 a) = true ∧
    (upFrom 0 8).all (fun i => mapped.readPhys (4096 + 256 * i) 256 == (mapImage.drop (256 * i)).take 256) = true ∧
    (match mapped.judgeMap mapImage with | .inl _ => true | .inr _ => false) = true ∧
    ({ State.reset with newRegions := some State.reset.regions } : State).newRegions = some State.reset.regions ∧ State.reset.diffs = [] := by
  decide +kernel

/-- The copy of a Page of one line may begin. -/
theorem witness_PageCommands_copy :
    let m := { migrationAt 2 with lg := 6 }
    ({ linked (State.reset.place 0) with migrations := [m] } : State).migrationReady m = true := by decide +kernel

/-- A window that is busy and one that is not; the first and last offsets of each range; the bounds of tdnext, lperiod and xflg; a capture unit that
is on; a command that is none. -/
theorem witness_WindowRegisters :
    let s := State.reset
    let busy := s.setWindow 3 { s.window 3 with busy := true }
    let unit : Capture := { Capture.reset with en := true, src := 6, edges := (upFrom 0 15).map Int.ofNat }
    (busy.window 3).busy = true ∧ (s.window 3).busy = false ∧ s.firstDie (s.partOfDie 0) = some 0 ∧ s.firstDie (s.partOfDie 3) ≠ some 3 ∧
    0x10 % 4 = 0 ∧ 0x1FC + 4 ≤ 0x200 ∧ 0x1FC % 4 = 0 ∧ field 999999999 31 0 < 10 ^ 9 ∧ 10 ^ 9 ≤ field 1000000000 31 0 ∧
    ((s.setCapture 3 31 unit).capture 3 31).en = true ∧ 1 ≤ ((s.setCapture 3 31 unit).capture 3 31).src ∧
    ascending ((s.setCapture 3 31 unit).capture 3 31).edges = true ∧ (unit.src = 6 ∧ unit.sel < 6) ∧
    ¬(Capture.reset.src = 4 ∧ Capture.reset.sel < 16 ∨ Capture.reset.src = 5 ∧ Capture.reset.sel < 8 ∨ Capture.reset.src = 6 ∧ Capture.reset.sel < 6) ∧ 12 + 4 ≤ 16 ∧ 8 + 8 ≤ 16 ∧ field 10080 13 0 ≤ 10080 ∧ 10 ≤ field (2 ^ 14 + 10) 13 0 ∧ 2 ^ 50 % 2 ^ 18 = 0 ∧ (going 0 [] s).taken 0 = some 0 := by decide +kernel

/-- A Context image that is good, and one that is not; no Context left; each command on Contexts of each kind; Queues and Indexes likewise. -/
theorem witness_WindowCommands :
    let live := State.reset.place 0
    let image := toBytes 64 (2 ^ 310 + 2 ^ 288 + 100 * 2 ^ 256)
    let create := going 1 [(0x10, image)] live
    let bad := going 1 [] live
    let full : State := { create with ctxs := (upFrom 0 256).map (fun n => (n, { Ctx.reset with state := .live })) }
    let paused := going 4 [] (live.setCtx 0 { live.ctx 0 with state := .suspended })
    let colls := going 0x42 [(0x10, [15]), (0x18, toBytes 16 (7 + 7 * 2 ^ 8))] State.reset
    let parts := going 0x40 [] State.reset
    let ending : State := { live.setCtx 0 { live.ctx 0 with state := .dead } with goes := [(0, 0x106)], invals := [{ die := 0, ctx := 0, lo := 0, len := 2 ^ 57, part := 0, bound := 0, lines := [], ops := [] }] }
    let opened : State := { live with goes := [(0, 0x1000 + 1023)] }
    let noParts := going 0x40 [(0x10, List.replicate 256 0xFF)] State.reset
    let q := toBytes 32 (4 * 2 ^ 51 + 4096 * 2 ^ 128 + 128 * 2 ^ 192)
    let opens := going 0x10 [(0x10, toBytes 2 1023), (0x18, q)] live
    let taken := opens.setQueue 1023 { Queue.reset with state := 1 }
    let halted := going 0x12 [(0x10, toBytes 2 1023)] (live.setQueue 1023 { Queue.reset with state := 2, reason := 1 })
    let icreate := going 0x20 [(0x10, [255]), (0x18, toBytes 32 (1 * 2 ^ 136))] live
    create.taken 1 = some 0 ∧ create.ctxBad (ofBytes image) = false ∧ (create.ctx 1).state = .free ∧ (create.ctx 0).state ≠ .free ∧
    bad.ctxBad (ofBytes ((bad.window 0).opBytes 0x10 64)) = true ∧ (upFrom 0 256).all (fun k => (full.ctx k).state != .free) = true ∧
    (going 2 [] live).taken 2 = some 0 ∧ (going 3 [] live).taken 3 = some 0 ∧ (live.ctx 0).state = .live ∧ (live.ctx 255).state ≠ .live ∧
    paused.taken 4 = some 0 ∧ (paused.ctx 0).state = .suspended ∧ (going 5 [] live).taken 5 = some 0 ∧ (going 6 [] live).taken 6 = some 0 ∧
    (live.invals = [] ∧ ending.invals.length = 1 ∧ ending.diffs = [] ∧ ending.offers = [] ∧ ending.ops = [] ∧ ending.mayDestroy 0 = true) ∧
    (match parts.judgeParts ((parts.window 0).opBytes 0x10 256) with | .inl _ => true | .inr _ => false) = true ∧
    (match noParts.judgeParts ((noParts.window 0).opBytes 0x10 256) with | .inl _ => false | .inr _ => true) = true ∧
    (match colls.judgeColl 15 ((colls.window 0).opBytes 0x18 16) with | .inl g => g.msz == 7 | .inr _ => false) = true ∧
    opens.taken 0x10 = some 0 ∧ opens.goes.all (fun g => decide (g.2 < 0x1000)) = true ∧ opened.diffs = [] ∧ opened.offers = [] ∧ opened.goes = [(0, 0x1000 + 1023)] ∧ opens.queueBad (ofBytes q) = false ∧ (opens.queue 1023).state = 0 ∧ (taken.queue 1023).state ≠ 0 ∧
    live.queueBad 0 = true ∧ (going 0x11 [(0x10, toBytes 2 1023)] taken).taken 0x11 = some 0 ∧ (taken.queue 1023).state = 1 ∧
    halted.taken 0x12 = some 0 ∧ (halted.queue 1023).state = 2 ∧ (going 0x13 [] live).taken 0x13 = some 0 ∧
    icreate.taken 0x20 = some 0 ∧ icreate.indexBad 255 (ofBytes ((icreate.window 0).opBytes 0x18 32)) [] = false ∧ (icreate.index 255).state = 0 ∧
    icreate.goes.all (fun g => decide (g.2 < 0x1000)) = true ∧ (icreate.setIndex 255 { Index.reset with state := 1 } |>.index 255).state ≠ 0 ∧
    (icreate.setIndex 255 { Index.reset with state := 1 }).indexBad 255 (ofBytes ((icreate.window 0).opBytes 0x18 32)) [] = false ∧
    ({ live with goes := [(0, 0x2000 + 255)] } : State).offers = [] ∧
    live.indexBad 0 0 [] = true ∧ (going 0x21 [] live).taken 0x21 = some 0 ∧ (going 0x22 [] live).taken 0x22 = some 0 := by decide +kernel

/-! Queues: Queue 0 of 16 nodes, its control area at 128 and its ring at 4096. -/

def queued0 (f : Queue → Queue) (tail : Nat) : State :=
  let s := linked (State.reset.place 0)
  { s.setQueue 0 (f { Queue.reset with state := 1, ctl := 128, qbase := 4096, lgsize := 4 }) with mem := physPut s.regions s.mem 128 (toBytes 4 tail), tlb := [engTlb] }
def nodeOf (kind : Nat) (st : NState) (x : Nat) : Node :=
  { queue := 0, seq := 1, bytes := toBytes 64 (kind + x), state := st, status := 0, wants := none, read := false }
def noded (ns : List Node) : State := { queued0 id 1 with nodes := ns }

/-- A tail that is new, one more than the ring's length ahead; the next record; nodes ended and taken. -/
theorem witness_QueuesAndNodes :
    let new := queued0 id 16
    let far := queued0 id 17
    let fetches := queued0 (fun q => { q with tail := 16, fetched := 15 }) 16
    let pooled (kind x : Nat) : Bool := (nodeOf kind (.inPool 0 0) x).pooled && (noded [nodeOf kind (.inPool 0 0) x]).controllerFirst (nodeOf kind (.inPool 0 0) x)
    let ended : Node := nodeOf 0 .ended 0
    (new.queue 0).state = 1 ∧ new.numPhys 128 4 = 16 ∧ 0 < seqAhead 16 0 ∧ seqAhead 16 0 ≤ 2 ^ 4 ∧ new.waits (new.queueDie (new.queue 0)) 128 = false ∧
    (new.queue 0).device = false ∧ far.numPhys 128 4 = 17 ∧ 2 ^ 4 < seqAhead 17 0 ∧ seqAhead 17 0 < 2 ^ 31 ∧
    0 < seqAhead 16 15 ∧ seqAhead 16 15 < 2 ^ 31 ∧ seqAhead 16 (fetches.queue 0).done ≤ 2 ^ 4 ∧ (fetches.queue 0).skips = [] ∧
    (upFrom ((fetches.queue 0).slotAddr 16) 64).all (fun a => !fetches.waits (fetches.queueDie (fetches.queue 0)) a) = true ∧
    physOk ((fetches.queue 0).slotAddr 16) = true ∧ fetches.poisoned ((fetches.queue 0).slotAddr 16) 64 = false ∧
    (noded [ended]).node? 0 1 = some ended ∧ ended.state = .ended ∧ (noded [ended]).stampsNow 0 = true ∧ ended.halt = false ∧
    1 = (((noded [ended]).queue 0).done + 1) % 2 ^ 32 ∧ pooled 0 0 = true ∧ pooled 3 (1 * 2 ^ 96) = true ∧ pooled 4 0 = true := by decide +kernel

/-- A conditional node whose condition holds, and one whose condition fails; timed nodes that run, at their time and before it, and with hold; an
engine node, pooled and running; WAITT. -/
theorem witness_QueuesAndNodes_running :
    let cond (c : Nat) : Node := nodeOf 3 .waiting (2 ^ 32 + c * 2 ^ 96 + 2 ^ 112)
    let holds (c : Nat) : Option Bool := (icondOf ((cond c).fld 99 96)).map (fun i =>
      icondHolds i 32 (ofBytes ((noded [cond c]).vread [engTlb] (cond c).arg0 4)) ((cond c).fld 95 64))
    let timed := nodeOf 4 .running (5 * 2 ^ 112)
    let next : Node := { nodeOf 1 .waiting 0 with seq := 2, bytes := toBytes 64 (1 + 2 ^ 13) }
    let held := noded [nodeOf 4 .running (2 ^ 144), next]
    let eng (st : NState) := nodeOf 2 st 0
    let pool := noded [eng (.inPool 0 0)]
    let waits := grouped (fun g => { g with lanes := List.replicate 32 { pc := 0, prio := 0, wait := .time 0 5 } })
    let c0 := noded [cond 0]
    reached c0 [((cond 0).arg0, 4, .engRead)] = true ∧ c0.vwaits (c0.nodeDie (cond 0)) [engTlb] (cond 0).arg0 4 = none ∧ (cond 0).kind = 3 ∧
    c0.vpoison [engTlb] (cond 0).arg0 4 = false ∧ (cond 0).bad = none ∧ c0.badWait (cond 0) = none ∧ c0.unmet (cond 0) = [] ∧
    holds 0 = some true ∧ holds 1 = some false ∧
    timed.timeCome { noded [timed] with ns := 5 } = true ∧ timed.timeCome { noded [timed] with ns := 4 } = false ∧ timed.fld 144 144 = 0 ∧
    (nodeOf 4 .running (2 ^ 144)).leadCome held = true ∧ held.node? 0 2 = some next ∧ next.kind = 1 ∧ next.state = .waiting ∧
    held.unmet next = [(0, 1)] ∧ held.badWait next = none ∧ held.poolRoom next = true ∧ pool.ops = [] ∧ pool.nodeCore (eng (.inPool 0 0)) = some 0 ∧
    pool.mayTake (eng (.inPool 0 0)) = true ∧ firstNode pool.wall pool.nodes = some (eng (.inPool 0 0)) ∧
    (pool.nodes.filter (fun m => pool.mayTake m && m.kind == 2 && pool.unitsOf m == pool.unitsOf (eng (.inPool 0 0)) && pool.nodePart m == pool.nodePart (eng (.inPool 0 0)))) = [eng (.inPool 0 0)] ∧
    (noded [eng .running]).nodeCore (eng .running) = some 0 ∧ pool.accepted 0 (queueInst 0 0) < queueDepth 0 ∧
    has waits (fun g => g.lanes.all (fun l => l.wait == .time 0 5)) = true := by decide +kernel

/-- The voltages at which a band begins and ends; supply out of range, in range, with the domain on and off; 105 and 115 °C; SETCAP. -/
theorem witness_PowerAndHeat :
    let at_ (mv : Nat) (main : Bool) : State := { State.reset with power := { State.reset.power with vin := mv, main := main } }
    (at_ 37999 true).power.main = true ∧ (at_ 37999 true).power.vin < 38000 ∧ 66000 < (at_ 66001 true).power.vin ∧
    38000 ≤ (at_ 38000 true).power.vin ∧ (at_ 66000 true).power.vin ≤ 66000 ∧ 40000 ≤ (at_ 40000 false).power.vin ∧
    (at_ 60000 false).power.vin ≤ 60000 ∧ 36000 ≤ 36000 ∧ (36000 < 38000 ∨ 66000 < 36000) ∧ 35999 < 36000 ∧ (at_ 35999 true).power.main = true ∧
    40000 ≤ 40000 ∧ (at_ 60000 false).power.main = false ∧ (1149 < 1150 ∨ (at_ 48000 true).power.main = false) ∧ 1150 ≤ 1150 ∧
    (going 0x43 [(0x10, toBytes 2 1600)] State.reset).taken 0x43 = some 0 := by decide +kernel

/-- Disciplines Unlocked and Locked, stepped and not, with an offset of 100, 1,000 and 1,001 ns; an edge 1,001 ns from the second; 3 s without one. -/
theorem witness_TimeDiscipline :
    let d (unlk stepped : Bool) (ns : Nat) : Disc := { Disc.reset with unlk := unlk, stepped := stepped, valid := true, sec := 4, ns := ns, edgeAt := some (3 * 10 ^ 9) }
    let t0 := timeNs 4 0
    (d true true 0).discards t0 false = false ∧ (d true true 0).valid = true ∧ (d true false 0).stepped = false ∧
    ((t0 : Int) - timeNs 4 100).natAbs ≤ 100 ∧ (d true true 100).good = 0 ∧ ((t0 : Int) - timeNs 4 1000).natAbs ≤ 1000 ∧
    1000 < ((t0 : Int) - timeNs 4 1001).natAbs ∧ (d false true 1001).unlk = false ∧ (d false true 0).discards t0 false = false ∧
    3 * 10 ^ 9 ≤ timeNs 4 1001 ∧ 1000 < (timeNs 4 1001 - 3 * 10 ^ 9) % 10 ^ 9 ∧ (timeNs 4 1001 - 3 * 10 ^ 9) % 10 ^ 9 < 10 ^ 9 - 1000 ∧
    3 * 10 ^ 9 + 3 * 10 ^ 9 ≤ timeNs 6 0 ∧ timeNs 5 999999999 < 3 * 10 ^ 9 + 3 * 10 ^ 9 ∧ .ppsLoss ∉ ({ State.reset with disc := d false true 0 } : State).agenda ∧
    Disc.reset.unlk = true ∧ timeNs State.reset.sec State.reset.ns < t0 ∧ t0 ≤ timeNs 4 0 ∧ (d true true 0).stepped = true ∧ 3 * 10 ^ 9 ≤ t0 ∧
    100 < ((t0 : Int) - timeNs 4 101).natAbs ∧ ({ d false true 0 with valid := false } : Disc).discards t0 false = false ∧
    2 ≤ ({ d false true 0 with valid := false, miss := 2 } : Disc).miss ∧ (d false true 0).miss < 2 := by decide +kernel

/-- A Link in each state, at the seventh and eighth replay, at the bounds of its timers; packets with the number expected, early, held, late and
far; copies at the bounds of 20 µs and 64 sends. -/
theorem witness_LinksAndPackets :
    let at_ (st : LinkState) (n since wall : Nat) : State := { State.reset.setLink 99 { state := st, replays := n, queued := [], since := since } with wall := wall }
    let l (st : LinkState) (n : Nat) : State := { State.reset.setLink (laneLink 99) { state := st, replays := n, queued := [], since := 0 } with wall := 0 }
    let paired (p : Pair) : State := State.reset.setPair 2 131071 p
    let p0 : Pair := { Pair.reset with expect := 65280 }
    ((at_ .training 0 0 100000000).link 99).state = .training ∧ 0 + 100000000 ≤ (at_ .training 0 0 100000000).wall ∧
    ((at_ .degraded 0 0 0).link 99).state = .degraded ∧ ((at_ .retraining 0 0 64000).link 99).state = .retraining ∧
    (at_ .retraining 0 0 63999).wall < 0 + 64000 ∧ ((at_ .down 0 0 1000000000).link 99).state = .down ∧ ((l .up 6).link (laneLink 99)).replays < 7 ∧
    ((l .up 7).link (laneLink 99)).replays = 7 ∧ ((l .up 7).link (laneLink 99)).state = .up ∧ ((l .training 0).link (laneLink 99)).state ≠ .up ∧
    ((at_ .retired 0 0 0).link 99).state = .retired ∧ (at_ .training 0 0 100000000).wall ≤ 0 + 100000000 ∧ (at_ .retraining 0 0 64000).wall ≤ 0 + 64000 ∧
    ((linked State.reset).packetWay 0 383).isSome = true ∧
    ((paired p0).pair 2 131071).expect = 65280 ∧ (65535 + 2 ^ 16 - 65280) % 2 ^ 16 = 255 ∧ (0 + 2 ^ 16 - 65280) % 2 ^ 16 = 256 ∧
    2 ^ 15 ≤ (65279 + 2 ^ 16 - 65280) % 2 ^ 16 ∧ 65280 < 2 ^ 16 - 2 ∧ ((paired { p0 with early := [(65281, 4)] }).pair 2 131071).early = [(65281, 4)] ∧
    ((paired { p0 with copies := [(65535, 1, 63, 5)] }).pair 2 131071).copies = [(65535, 1, 63, 5)] ∧
    ((paired { p0 with copies := [(65535, 1, 63, 5)] }).pair 2 131071).unsent = [] ∧
    ((paired { p0 with copies := [(65535, 1, 64, 5)], unsent := [65535] }).pair 2 131071).unsent = [65535] ∧
    (linked State.reset).wayOpen 0 1 = true ∧ State.reset.wayOpen 0 383 = false ∧ ({ State.reset with wall := 20004 } : State).wall < 5 + 20000 ∧ 5 + 20000 ≤ ({ State.reset with wall := 20005 } : State).wall := by decide +kernel

/-- Units of each class, due by score and by period and short of both; requested cores with and without an image; testing units at each outcome. -/
theorem witness_Leases :
    let unit (u : Nat) (x : HUnit) (wall : Nat) : State := { State.reset.setUnit u x with wall := wall }
    let x (st : UState) (score : Nat) : HUnit := { HUnit.reset with state := st, score := score }
    let period := 360 * 60000000000
    unitOk 383 = true ∧ unitOk (4096 + 67) = true ∧ unitOk (3 * 4096 + 511) = true ∧
    ((unit 383 (x .inService 8192) 0).unit 383).score = 8192 ∧ ((unit 383 (x .inService 8191) 0).unit 383).state = .inService ∧
    1024 ≤ ((unit 383 (x .inService 1024) 0).unit 383).score ∧ (unit 383 (x .inService 1024) 0).spareUsed 383 = false ∧
    (unit 383 (x .inService 1024) 0).scopeBusy 383 = false ∧ ((unit 383 (x .inService 0) period).unit 383).leasedAt + State.reset.lperiod * 60000000000 ≤ period ∧
    period - 1 < ((unit 383 (x .inService 1023) 0).unit 383).leasedAt + State.reset.lperiod * 60000000000 ∧
    (unit 383 (x .requested 0) 50000000).units = [(383, x .requested 0)] ∧ (x .requested 0).requestedAt + 50000000 ≤ 50000000 ∧
    (let two : State := (State.reset.setUnit (4096 + 67) (x .requested 0)).setUnit (4096 + 66) (x .testing 0)
     two.spareFree (4096 + 67) = false ∧ (two.unit (4096 + 67)).state = .requested) ∧ (unit 383 (x .requested 0) 0).spareFree 383 = true ∧
    (x .inService 0).bin < 2 ∧ unitClass (2 * 4096 + 11) = 2 ∧ unitOk (2 * 4096 + 11) = true ∧ ({ x .testing 0 with failed := 12 } : HUnit).failed ≠ 0 ∧
    ({ x .testing 0 with window := some 2047 } : HUnit).window.isSome = true ∧ (x .testing 0).window = none ∧
    State.reset.rowsToRepair (3 * 4096 + 511) [] = [] ∧ channelOf 1022 = unitNum (3 * 4096 + 511) ∧
    ({ State.reset with rowEvents := [(rowId 1022, 1)] } : State).rowEvents.get? (rowId 1022) = some 1 ∧
    (∃ ln ∈ ({ State.reset with badLines := [4 * rowId 1022 + 3] } : State).badLines, rowId (ln / 4) = rowId 1022) ∧ (∀ ln ∈ State.reset.badLines, rowId (ln / 4) ≠ 0) ∧
    (unit 383 (x .requested 0) 0).imageOn 383 = false ∧ ({ unit 0 (x .requested 0) 0 with cores := (State.reset.place 0).cores } : State).imageOn 0 = true ∧
    ((unit 383 (x .testing 8191) 0).unit 383).bin = 0 ∧ unitClass (4096 + 67) = 1 ∧ unitClass (3 * 4096 + 511) = 3 ∧
    channelOf (rowId 1022) = unitNum (3 * 4096 + 511) ∧
    ({ State.reset with rebuilding := [rowId 1022] } : State).rebuilding.contains (rowId 1022) = true ∧ (State.reset.unit (3 * 4096 + 511)).state ≠ .rebuild ∧
    State.reset.ops = [] ∧ (opIndex srchOp).isSome = true ∧ srchOp.inst = 0 ∧
    (engine { srchOp with state := .left }).ops = [(7, { srchOp with state := .left })] ∧ (engine { srchOp with state := .left }).searches = [] ∧
    ((unit 383 (x .inService 0) period).unit 383).score < 8192 ∧ unitClass 383 ≠ 4 := by decide +kernel

/-- The hours at which scores are halved and kept; a full store and one with a slot; commands and messages with operands at their bounds. -/
theorem witness_RecordsAndManagement :
    let asks (code : Nat) (puts : List (Nat × List Byte)) := going code puts State.reset
    let port (m : List Byte) : State := { State.reset with port := m }
    ({ State.reset with wall := 86400000000000 } : State).hourly.1 + 86400000000000 ≤ 86400000000000 ∧
    86399999999999 < State.reset.hourly.1 + 86400000000000 ∧ State.reset.hourly.2 + 3600000000000 ≤ 3600000000000 ∧
    3599999999999 < State.reset.hourly.2 + 3600000000000 ∧ State.reset.records.length < 8192 ∧
    8192 ≤ (List.replicate 8192 ([] : List Byte)).length ∧ (asks 0x50 [(0x14, [8])]).taken 0x50 = some 0 ∧
    ((asks 0x50 [(0x14, [8])]).window 0).op 0x14 1 = 8 ∧ ((asks 0x50 [(0x14, [9])]).window 0).op 0x14 1 = 9 ∧
    ((asks 0x50 [(0x14, [1])]).window 0).op 0x14 1 = 1 ∧ (asks 0x51 []).taken 0x51 = some 0 ∧
    (port [1]).power.standby = true ∧ (port [1]).power.main = true ∧ ({ State.reset with power := { State.reset.power with standby := false } } : State).power.standby = false ∧
    ofBytes (([0, 0, 0, 0, 16] : List Byte).drop 4) = 16 ∧ ofBytes ([7] : List Byte) < 8 ∧ 8 ≤ ofBytes ([8] : List Byte) ∧ ofBytes ([3] : List Byte) < 4 ∧
    ofBytes (toBytes 4 261888) % 256 = 0 ∧ ofBytes (toBytes 4 261888) < 262144 ∧ ofBytes (toBytes 4 262144) = 262144 ∧ State.reset.dump = none ∧
    (match State.reset.judgeParts ((0 :: List.replicate 256 (0 : Byte)).drop 1) with | .inl _ => true | .inr _ => false) = true ∧
    (match State.reset.judgeMap ((1 :: mapImage).drop 1) with | .inl _ => true | .inr _ => false) = true ∧ (1 :: mapImage).length = 2049 ∧
    (match State.reset.judgeColl 15 (toBytes 16 0x707) with | .inl _ => true | .inr _ => false) = true ∧
    (let part (n : Nat) (last : Bool) : MsgPacket := { step := 0, kind := .nerom, first := false, last := last, bytes := List.replicate n 1 }
     let after (n : Nat) : State := { State.reset with assembling := List.replicate n 2 }
     64 < (part 65 true).bytes.length ∧ (part 64 true).bytes.length ≤ 64 ∧ (after 4032).assembling.length + (part 64 true).bytes.length ≤ 4096 ∧
       4096 < (after 4033).assembling.length + (part 64 true).bytes.length ∧ (part 64 false).last = false) := by decide +kernel

/-- A message of the PLDM type that is served, and one of another type. -/
theorem witness_RecordsAndManagement_pldm :
    pldmType [1, Config.pldmPlatform.setWidth 8] = Config.pldmPlatform ∧ pldmType [1, (~~~Config.pldmPlatform).setWidth 8] ≠ Config.pldmPlatform := by
  have h (x : BitVec 6) : (x.setWidth 8).setWidth 6 = x := by ext i hi; simp
  constructor
  · exact h _
  · show ((~~~Config.pldmPlatform).setWidth 8).setWidth 6 ≠ _
    rw [h]
    generalize Config.pldmPlatform = x
    revert x; decide

/-! Words, steps, rules of the whole machine -/

/-- The next step issues, runs an event that sched names, or the oldest one due; a fault of the device's own access; a fused run stands. -/
theorem witness_StepRunsTheWord :
    let s := State.reset.withFetchWord 32 0x04008206
    let t : State := { s.tick with sched := [] }
    let due : State := { s with sched := [], agenda := [.ppsLoss] }
    s.stop = none ∧ s.sched = [0] ∧ ({ s with sched := [1], agenda := [.ppsLoss] } : State).agenda[0]? = some .ppsLoss ∧ due.steps % 2 = 0 ∧ due.agenda ≠ [] ∧ due.tick.agenda = [.ppsLoss] ∧
    ({ s with stop := some (2 ^ 40) } : State).stop = some (2 ^ 40) ∧
    (match softmaxAhead.fetch 0 [] 0 with | .word w => ((softmaxAhead.keepWord 0 0 0 w).fusedAt? 0 [] 0).isSome | _ => false) = true ∧
    (match fetchRefused.fetch 0 [] 0 with | .word _ => false | _ => true) = true ∧
    (match t.fetch 0 [] 0 with | .word w => (decide (decode w = .ok (.iadd true false 2 4 6)) && ((t.keepWord 0 0 0 w).fusedAt? 0 [] 0).isNone && ((t.keepWord 0 0 0 w).fusedNeeds? 0 [] 0).isNone) | _ => false) = true ∧
    (match (State.reset.withFetchWord 32 0x3C000000).fetch 0 [] 0 with | .word w => decide (decode w = .bad .major) | _ => false) = true ∧
    t.issuer = some (0, 0) ∧ has t (fun g => (t.nextEntry 0 0 g).isSome) = true := by decide +kernel

/-- The placed Group issues; the last word of the instruction limit; an effect for which there is no room. -/
theorem witness_WordsAdvance :
    has plain (fun g => g.lanes.length == 32 && g.state == .running) = true ∧
    has (grouped (fun g => { g with chunk := { g.chunk with words := 4095 } })) (fun g => decide (2 ^ statLimlog ((grouped id).chunkstat 0 0) ≤ g.chunk.words + 1)) = true := by
  decide +kernel

/-- A word that writes v2, in a Chunk of one word whose 224 undo rows are taken. -/
theorem witness_WordsThatDoNotFit :
    let rows : List Undo := (upFrom 4000 224).map (fun x => { core := 0, sector := x, bytes := List.replicate 32 0 })
    let full := about (withGroup (fun g => { g with chunk := { g.chunk with words := 1, undo := rows } }))
    (match issueOf full with
      | some is => (precheck {} is full).isNone && decide (is.g.seq.n < is.g.chunk.words) &&
          decide (224 < (undoAfter full is.g.chunk.undo (is.vResult false 2 (fun _ => 1))).length)
      | none => false) = true := by decide +kernel

/-- A Chunk that ends in a trap, with a trap entry and with none; a Group inside its trap entry. -/
theorem witness_TrapAndReturn :
    let info : TrapInfo := { cause := 255, code := 255, val := 2 ^ 32 - 1, pc := 2 ^ 32 - 4 }
    let s := ended (fun g => { g with chunk := { g.chunk with after := .trap info lanes32 } })
    has s (fun g => g.state == .committing && g.chunk.phase == .ended && g.chunk.after == .trap info lanes32 && g.chunk.buf.isEmpty && g.chunk.acts.isEmpty &&
      g.pend.isEmpty && !s.accessWaits g && !ownsMma (s.core 0) 0 g.uid && !s.commitBlocked 0 g && g.inTrap.isNone && g.capPending.isNone && g.lanes.length == 32) = true ∧
    (s.core 0).kernel = some 0 ∧ with0 s (fun k => k.launch.trapent == 0xFFFFFFFF && k.state == .running) = true ∧
    with0 (kernelIn .running (fun k => { k with launch := { k.launch with trapent := 64 } })) (fun k => k.launch.trapent != 0xFFFFFFFF) = true ∧
    Memory.wf (s.core 0).pool = true ∧ info.cause < 256 ∧ info.code < 256 ∧ info.pc % 4 = 0 := by decide +kernel

theorem witness_MzeroClears :
    allReady [(inRole .matrix, { vec := false, vd := opTile 0, look := some 15 }, fun is s => is.g.role = .matrix ∧ (tileWait is s 0 false).isNone)] = true := by
  decide +kernel

/-- The invariants hold where a program stands loaded, and the device steps there; a code word that completes. -/
theorem witness_StepKeepsInv : (State.reset.withFetchWord 32 0x04008206).Inv ∧ State.reset.Inv := by
  refine ⟨⟨?_, ?_, ⟨?_, ?_⟩, ?_, ?_⟩, ⟨?_, ?_, ⟨?_, ?_⟩, ?_, ?_⟩⟩ <;>
    (try simp only [State.MemCanonical, State.CapsLegal, State.PartsLegal, State.StoreLegal]) <;> decide +kernel
theorem witness_StepKeepsPools : (State.reset.withFetchWord 32 0x04008206).PoolsCanonical ∧ State.reset.PoolsCanonical := by
  simp only [State.PoolsCanonical]; decide +kernel
theorem witness_a_step : (match step (State.reset.withFetchWord 32 0x04008206) with | .next _ => true | _ => false) = true := by decide +kernel
theorem witness_WordsKeepTheDevice :
    (Instr.iadd true false 2 4 6).isCode = true ∧ (match exec (.iadd true false 2 4 6) plain with | .next _ => true | _ => false) = true := by decide +kernel
theorem witness_DecodeOfEncode : (Instr.bra (2 ^ 21 - 1)).isCode = true ∧ (Instr.bra (2 ^ 21 - 1)).wf = true := by decide
theorem witness_EncodeOfDecode : decode 0x04008206 = .ok (.iadd true false 2 4 6) := by decide

/-! ## Single steps, with results worked out by hand from the rules named -/

/-- The state after an instruction, from lane 0 with v4 = a, v6 = b, s4 and s6 alike. -/
def after (i : Instr) (a b : Nat) : State :=
  match exec i (about (fun s => withReg (sAddr 0 4) (toBytes 8 a) (withReg (sAddr 0 6) (toBytes 8 b)
    (withReg (vAddr 0 4 0) (toBytes 4 a) (withReg (vAddr 0 5 0) (toBytes 4 (a / 2 ^ 32))
    (withReg (vAddr 0 6 0) (toBytes 4 b) (withReg (vAddr 0 7 0) (toBytes 4 (b / 2 ^ 32)) s))))))) with
  | .next t => t
  | _ => State.reset
def v (r l : Nat) (s : State) : Nat := s.poolNum 0 (vAddr 0 r l) 4
def m (r : Nat) (s : State) : Nat := s.poolNum 0 (mAddr 0 r) 4
def sr (r : Nat) (s : State) : Nat := s.poolNum 0 (sAddr 0 r) 4

/-- R150: the sum of .32 wraps; the product of two minus ones is 1; the high half of 2^31 squared. -/
theorem test_integer_wraps : v 2 0 (after (.iadd false false 2 4 6) 0xFFFFFFFF 2) = 1 ∧ v 2 0 (after (.imul false false 2 4 6) 0xFFFFFFFF 0xFFFFFFFF) = 1 ∧
    v 2 0 (after (.imulhS false false 2 4 6) 0x80000000 0x80000000) = 0x40000000 ∧ v 2 0 (after (.isub false false 2 4 6) 0 1) = 0xFFFFFFFF := by decide +kernel

/-- R152: -7 / 2 = -3 with remainder -1; division by zero gives all ones and the dividend; the overflow case wraps, with remainder 0. -/
theorem test_division : v 2 0 (after (.idivS false false 2 4 6) 0xFFFFFFF9 2) = 0xFFFFFFFD ∧ v 2 0 (after (.iremS false false 2 4 6) 0xFFFFFFF9 2) = 0xFFFFFFFF ∧
    v 2 0 (after (.idivS false false 2 4 6) 7 0) = 0xFFFFFFFF ∧ v 2 0 (after (.iremS false false 2 4 6) 7 0) = 7 ∧
    v 2 0 (after (.idivS false false 2 4 6) 0x80000000 0xFFFFFFFF) = 0x80000000 ∧ v 2 0 (after (.iremS false false 2 4 6) 0x80000000 0xFFFFFFFF) = 0 := by decide +kernel

/-- A source that is also the destination, and a pair in .64: 2^32 - 1 plus 1 carries into v5. -/
theorem test_pair_carries : v 4 0 (after (.iadd true false 4 4 6) 0xFFFFFFFF 1) = 0 ∧ v 5 0 (after (.iadd true false 4 4 6) 0xFFFFFFFF 1) = 1 := by decide +kernel

/-- R154, R155: SRA keeps the sign; CLZ of 1 is 31; ISET of 1 < 2 sets the bit of lane 0 alone among lanes that hold 0 < 0. -/
theorem test_bits : v 2 0 (after (.sra false false 2 4 6) 0x80000000 31) = 0xFFFFFFFF ∧ v 2 0 (after (.clz false false 2 4) 1 0) = 31 ∧
    m 1 (after (.iset false .ltS false 1 4 6) 1 2) % 2 = 1 ∧ m 1 (after (.iset false .ltS false 1 4 6) 1 2) / 2 % 2 = 0 := by decide +kernel

/-- R161, R162: scalar subtraction wraps; SSET writes 1 and 0. -/
theorem test_scalar : sr 2 (after (.ssub 2 4 6) 0 1) = 0xFFFFFFFF ∧ sr 2 (after (.sset .ltS 2 4 6) 0xFFFFFFFF 1) = 1 ∧
    sr 2 (after (.sset .ltN 2 4 6) 0xFFFFFFFF 1) = 0 := by decide +kernel

/-- R42, R163: 1 + 2^-24 ties to even, 1; 1 + 3 * 2^-24 to 1 + 2^-22; 0.1 * 10 is exactly 1 after one rounding; 1 - 1 is +0. -/
theorem test_float : v 2 0 (after (.fadd false 2 4 6) 0x3F800000 0x33800000) = 0x3F800000 ∧ v 2 0 (after (.fadd false 2 4 6) 0x3F800001 0x33800000) = 0x3F800002 ∧
    v 2 0 (after (.fmul false 2 4 6) 0x3DCCCCCD 0x41200000) = 0x3F800000 ∧ v 2 0 (after (.fsub false 2 4 6) 0x3F800000 0x3F800000) = 0 := by decide +kernel

/-- R164 to R167: the minimum of -0 and +0 is -0; the square root of 4 is 2; 2^3 = 8; log2 8 = 3; the sine of +0 is +0. -/
theorem test_float_functions : v 2 0 (after (.fmin false 2 4 6) 0 0x80000000) = 0x80000000 ∧ v 2 0 (after (.fsqrt false 2 4) 0x40800000 0) = 0x40000000 ∧
    v 2 0 (after (.fexp2 false 2 4) 0x40400000 0) = 0x41000000 ∧ v 2 0 (after (.flog2 false 2 4) 0x41000000 0) = 0x40400000 ∧
    v 2 0 (after (.fsin false 2 4) 0 0) = 0 := by decide +kernel

/-- R169 to R171: 1.0 in f16 is 0x3C00 and back; -1.5 to an integer under rne is -2; 2^24 + 1 to f32 is 2^24. -/
theorem test_conversions : v 2 0 (after (.i2f .s32 false 2 4) 0x01000001 0) = 0x4B800000 ∧ v 2 0 (after (.f2i .s32 false 2 4) 0xBFC00000 0) = 0xFFFFFFFE := by
  decide +kernel

/-- R178: lane 0 holds 5 and the others 0: the sum in every lane is 5. -/
theorem test_reduction : v 2 31 (after (.redl .add false 2 4) 5 0) = 5 ∧ v 2 0 (after (.redl .add false 2 4) 5 0) = 5 := by decide +kernel

/-- The atomic of "Lanes that meet in one store and one atomic" (07_isa_memory.md): A = 13 and B = 12; the lanes get 13, 23, 12 and 34, A becomes
47 and B 24. -/
def atomics : State :=
  let s := chosen [0, 1, 2, 3] (fun s =>
    let s := (upFrom 0 4).foldl (fun s l => withReg (vAddr 0 9 l) (toBytes 4 (10 + l)) (withReg (vAddr 0 2 l) (toBytes 4 (if l = 2 then 4100 else 4096)) s)) s
    { s with mem := physPut s.regions (physPut s.regions s.mem (2 ^ 30 + 4096) [13]) (2 ^ 30 + 4100) [12] })
  match exec (.atom 15 9 2 .near false .add) s with
  | .next t => t
  | _ => State.reset
theorem test_atomic : has atomics (fun g =>
      (g.pend.flatMap (fun p => p.writes) == [(vAddr 0 9 0, toBytes 4 13), (vAddr 0 9 1, toBytes 4 23), (vAddr 0 9 2, toBytes 4 12), (vAddr 0 9 3, toBytes 4 34)]) &&
      (physBytes atomics.regions (applyItems atomics.regions atomics.mem g.chunk.buf) (2 ^ 30 + 4096) 1 == [47]) &&
      (physBytes atomics.regions (applyItems atomics.regions atomics.mem g.chunk.buf) (2 ^ 30 + 4100) 1 == [24])) = true := by decide +kernel

/-- "An engine arrival and a same-clk drop" (13_barrier.md): 0x4000_3001 with a = 2 and d = 1 becomes 0xC000_2000, nexp 2. -/
theorem test_barrier : let b : Barrier := { nexp := 3, ph := false, init := true, expect := 3, arrived := 1 }
    b.word = 0x40003001 ∧ (b.arrive 2 1).1.word = 0xC0002000 ∧ (b.arrive 2 1).1.nexp = 2 ∧ (b.arrive 2 1).2 = true := by decide

/-- The worked partition of 03_machine_state.md, poolpart 0x0021_0809: its regions, and v7 of lane 3 of the Group in slot 5. -/
theorem test_partition : scrBase 0x00210809 = 0x24000 ∧ accBase 0x00210809 = 0x64000 ∧ ckptBase 0x00210809 = 0x74000 ∧ undoBase 0x00210809 = 0x84000 ∧
    l1Base 0x00210809 = 0xA4000 ∧ bsize { Launch.empty with regs := 64, cdepth := 2 } = 8704 ∧
    vAddr (regBase { Launch.empty with regs := 64, cdepth := 2 } 5) 7 3 = 0xAE8C := by decide

/-- The worked map of 14_page.md: pa 0x12_3456_7800 lies in stack 3, channel 13, row 2,330, column 5. -/
theorem test_map : let rows := (upFrom 0 32).map (fun i => 2 ^ i + (if 1 ≤ i ∧ i ≤ 5 then 2 ^ (i + 20) else 0) + (if 6 ≤ i ∧ i ≤ 9 then 2 ^ (i + 11) else 0))
    let rs : List Region := [{ en := true, base := 0, lgsize := 40, rows := rows }]
    stackOf rs 0x1234567800 = 3 ∧ locOf rs 0x1234567800 / 2 % 32 = 13 ∧ locOf rs 0x1234567800 / 2 ^ 17 = 2330 ∧ locOf rs 0x1234567800 / 2 ^ 10 % 8 = 5 := by decide +kernel

/-- R185, R186: a branch to a PRIO moves every lane there; one to another word traps ILL under reason 7. -/
theorem test_branch :
    let s := about (fun s => { s with mem := physPut s.regions s.mem (2 ^ 30 + 12) (toBytes 4 0xFD000000) })
    (match exec (.bra 3) s with | .next t => has t (fun g => g.lanes.all (fun l => l.pc == 12)) | _ => false) = true ∧
    has (after (.bra 2) 0 0) (fun g => match g.chunk.after with | .trap t _ => decide (t.cause = causeILL) | _ => false) = true := by decide +kernel

/-- TRAP 5 ends the Chunk with cause 9 and code 5; EXIT of every lane ends it to retire. -/
theorem test_trap_exit : has (after (.trap false 5) 0 0) (fun g => (match g.chunk.after with | .trap t _ => decide (t.cause = 9 ∧ t.code = 5 ∧ t.pc = 4) | _ => false)) = true ∧
    has (after .exit 0 0) (fun g => g.chunk.after == .retire) = true := by decide +kernel

/-- A step fetches, decodes and runs the placed word: IADD.64 v2, v4, v6 moves the lanes to word 4 and counts one word. -/
theorem test_step : (match step (State.reset.withFetchWord 32 0x04008206) with
    | .next t => has t (fun g => decide (g.chunk.words = 1) && g.lanes.all (fun l => l.pc == 4))
    | _ => false) = true := by decide +kernel

end Sys2Proof.Tests
end

section
/-! The supply, heat and caps of the main domain (R34, R36, R419), and what its power-on reset keeps and clears (R1, R34, R269). -/

namespace Sys2Proof.Machine

/-! ## Memory and tables -/

/-- Keeping cells by a test of the address keeps the reads of the addresses that pass it; the others read as unlisted. -/
theorem Memory.read_filter_addr (p : Nat → Bool) (m : Memory) (a : Nat) :
    Memory.read (m.filter (fun c => p c.1)) a = if p a then m.read a else Memory.unlisted := by
  induction m with
  | nil => simp [Memory.read]
  | cons c r ih =>
    obtain ⟨x, b⟩ := c
    by_cases hx : x = a
    · subst hx
      cases hp : p x
      · simpa [List.filter_cons, hp] using ih
      · simp [hp, Memory.read]
    · cases hp : p x
      · simpa [List.filter_cons, hp, Memory.read, hx] using ih
      · simpa [List.filter_cons, hp, Memory.read, hx] using ih

/-- Setting every key of a list by one function: each of them holds its value, any other key what it held. -/
theorem Tab.getD_foldl_set {α : Type} (f : Nat → α) (d : α) (j : Nat) (ks : List Nat) : ∀ t : Tab α,
    (ks.foldl (fun t k => t.set k (f k)) t).getD j d = if j ∈ ks then f j else t.getD j d := by
  induction ks with
  | nil => intro t; simp
  | cons k ks ih =>
    intro t
    rw [List.foldl_cons, ih]
    by_cases hk : j = k
    · subst hk; simp
    · simp [hk, Tab.getD_set_of_ne t (f k) d hk]

/-! ## The power-on reset of the main domain (R1, R34, R269) -/

theorem State.mainReset_mem (s : State) (on : Bool) : (s.mainReset on).mem = hostCells s.mem := rfl

theorem State.mainReset_links (s : State) (on : Bool) : (s.mainReset on).links = s.linksReset := by
  simp only [State.mainReset]

/-- R1: what is left of memory is host memory. -/
theorem read_hostCells (m : Memory) (a : Nat) : Memory.read (hostCells m) a = if 2 ^ 49 ≤ a then m.read a else 0 := by
  simpa only [hostCells, decide_eq_true_eq, Memory.unlisted] using Memory.read_filter_addr (fun x => decide (2 ^ 49 ≤ x)) m a

/-- R1, R34: device memory is lost and host memory stands. -/
theorem State.read_mainReset (s : State) (on : Bool) (a : Nat) :
    (s.mainReset on).mem.read a = if 2 ^ 49 ≤ a then s.mem.read a else 0 := by
  rw [State.mainReset_mem, read_hostCells]

/-- R392, R409: what a Link is after the reset. -/
theorem State.getD_linksReset (s : State) {l : Nat} (hl : l < 20) :
    s.linksReset.getD l Link.reset = if (s.link l).state = .retired
      then { Link.reset with state := .retired, since := s.wall } else { Link.reset with since := s.wall } := by
  have hmem : l ∈ upFrom 0 20 := (mem_upFrom 20).2 ⟨Nat.zero_le l, by omega⟩
  rw [State.linksReset, Tab.getD_foldl_set, if_pos hmem]

/-- R392, R409: each Link trains anew, but for one that is Retired. -/
theorem State.link_mainReset_state (s : State) (on : Bool) {l : Nat} (hl : l < 20) :
    ((s.mainReset on).link l).state = if (s.link l).state = .retired then .retired else .training := by
  rw [State.link, State.mainReset_links, State.getD_linksReset s hl]
  split <;> rfl

/-- R1, R34: the nonvolatile store and the wiring of the part stand. -/
theorem State.mainReset_keeps (s : State) (on : Bool) : let t := s.mainReset on
    t.parts = s.parts ∧ t.colls = s.colls ∧ t.lperiod = s.lperiod ∧ t.units = restoredUnits s.nvUnits ∧ t.records = s.records ∧
      t.overflow = s.overflow := by
  simp only [State.mainReset, and_self]

/-- R34, R36: the supply is seen as before, the caps are those of reset, and the clamp ends. -/
theorem State.mainReset_power (s : State) (on : Bool) :
    (s.mainReset on).power = { s.power with hostCap := 2400, mgmtCap := 2400, cap := 2400, clamp := false, main := on } := by
  simp only [State.mainReset]

/-- R34: what the main domain held is as at reset. -/
theorem State.mainReset_clears (s : State) (on : Bool) : let t := s.mainReset on
    t.diffs = [] ∧ t.cores = [] ∧ t.ctxs = [] ∧ t.kernels = [] ∧ t.queues = [] ∧ t.indexes = [] ∧ t.ops = [] ∧ t.tlb = [] ∧
      (t.clk, t.sec, t.ns) = (0, 0, 0) ∧ t.regions = State.reset.regions ∧ t.windows = [] := by
  simp only [State.mainReset]
  simp only [State.reset, and_self]

/-- What the reset does to the power state it does once: its own power in the place of the old one changes nothing. -/
theorem State.mainReset_power_again (s : State) (p : Power) (on : Bool) :
    ({ s with power := (({ s with power := p } : State).mainReset on).power } : State).mainReset on
      = ({ s with power := p } : State).mainReset on := by
  simp only [State.mainReset]
  rfl

/-! ## The input voltage (R34) -/

theorem inputBand_eq_zero_iff (mv : Nat) : inputBand mv = 0 ↔ mv < 36000 := by
  unfold inputBand; grind

theorem inputBand_eq_one_iff (mv : Nat) : inputBand mv = 1 ↔ 36000 ≤ mv ∧ (mv < 38000 ∨ 66000 < mv) := by
  unfold inputBand; grind

theorem inputBand_eq_two_iff (mv : Nat) : inputBand mv = 2 ↔ (38000 ≤ mv ∧ mv < 40000) ∨ (60000 < mv ∧ mv ≤ 66000) := by
  unfold inputBand; grind

theorem inputBand_eq_three_iff (mv : Nat) : inputBand mv = 3 ↔ 40000 ≤ mv ∧ mv ≤ 60000 := by
  unfold inputBand; grind

/-- The main domain may not stay on in the two lowest bands. -/
theorem one_lt_inputBand_iff (mv : Nat) : 1 < inputBand mv ↔ 38000 ≤ mv ∧ mv ≤ 66000 := by
  unfold inputBand; grind

/-- R34, log 89: the device sees a new supply. The time of its condition stands while the condition is the same: in range, or in one band on
one side of the middle, where the bands of a shutdown are one. -/
def State.supplied (s : State) (mv : Nat) : State :=
  let old := s.power.vin
  let same := (if decide (inputBand mv ≤ 1) && decide (inputBand old ≤ 1) then true else inputBand mv == inputBand old) &&
    inputSide mv == inputSide old || (inputBand mv == 3 && inputBand old == 3)
  { s with power := { s.power with vin := mv, vinAt := if same then s.power.vinAt else s.wall, vhold := inputBand mv == 2,
                                   standby := decide (36000 ≤ mv) && decide (mv ≤ 72000) } }

/-- R34: what a band asks of a device that has seen its supply enter it. -/
def State.afterInput (s : State) (band : Nat) : State :=
  if band = 0 then (if s.power.main then s.mainReset false else s)
  else if band = 1 then (if s.power.main then s.due [.powerFaultShutdown] else s)
  else if band = 3 && !s.power.main then s.due [.mainRestart] else s

/-- R34: the new supply is seen, and its band asks what it asks. -/
theorem exec_inputVoltageChange (s : State) (mv : Nat) :
    exec (.inputVoltageChange mv) s = .next ((s.supplied mv).afterInput (inputBand mv)) := by
  change execInputVoltageChange mv s = _
  rw [State.afterInput, apply_ite Host.Outcome.next (inputBand mv = 0), apply_ite Host.Outcome.next (inputBand mv = 1)]
  rfl

/-- What is known of a new supply. -/
theorem State.supplied_power (s : State) (mv : Nat) : let p := (s.supplied mv).power
    p.vin = mv ∧ p.vhold = (inputBand mv == 2) ∧ p.standby = (decide (36000 ≤ mv) && decide (mv ≤ 72000)) ∧ p.main = s.power.main :=
  ⟨rfl, rfl, rfl, rfl⟩

/-- No band changes what is known of the supply. -/
theorem State.afterInput_supply (s : State) (band : Nat) : let t := s.afterInput band
    t.power.vin = s.power.vin ∧ t.power.vhold = s.power.vhold ∧ t.power.standby = s.power.standby := by
  unfold State.afterInput
  split_ifs <;> simp [State.mainReset_power]

/-- Only the lowest band does more than set events due. -/
theorem State.afterInput_of_ne_zero (s : State) {band : Nat} (h : band ≠ 0) :
    s.afterInput band = { s with agenda := (s.afterInput band).agenda } := by
  simp only [State.afterInput, if_neg h]
  split_ifs <;> rfl

theorem State.afterInput_zero {s : State} (h : s.power.main = true) : s.afterInput 0 = s.mainReset false := by
  simp [State.afterInput, h]

theorem State.afterInput_one {s : State} (h : s.power.main = true) : s.afterInput 1 = s.due [.powerFaultShutdown] := by
  simp [State.afterInput, h]

theorem State.afterInput_three {s : State} (h : s.power.main = false) : s.afterInput 3 = s.due [.mainRestart] := by
  simp [State.afterInput, h]

/-- R34: the bands of the input voltage, from the device as it was to the device after the change. -/
theorem inputVoltageChange_bands (s : State) (mv : Nat) :
    ∃ t, exec (.inputVoltageChange mv) s = .next t ∧ t.power.vin = mv ∧
      (t.power.vhold = true ↔ (38000 ≤ mv ∧ mv < 40000) ∨ (60000 < mv ∧ mv ≤ 66000)) ∧
      (t.power.standby = true ↔ 36000 ≤ mv ∧ mv ≤ 72000) ∧
      (36000 ≤ mv → t = { s with power := t.power, agenda := t.agenda } ∧ t.power.main = s.power.main) ∧
      (36000 ≤ mv → (mv < 38000 ∨ 66000 < mv) → s.power.main = true → .powerFaultShutdown ∈ t.agenda) ∧
      (40000 ≤ mv → mv ≤ 60000 → s.power.main = false → .mainRestart ∈ t.agenda) ∧
      (mv < 36000 → s.power.main = true → t = ({ s with power := t.power } : State).mainReset false) := by
  obtain ⟨hvin, hhold, hstandby, hmain⟩ := s.supplied_power mv
  obtain ⟨tvin, thold, tstandby⟩ := (s.supplied mv).afterInput_supply (inputBand mv)
  refine ⟨_, exec_inputVoltageChange s mv, tvin.trans hvin, ?_, ?_, fun h => ?_, fun h ho hm => ?_, fun h1 h2 hm => ?_, fun h hm => ?_⟩
  · rw [thold, hhold, beq_iff_eq, inputBand_eq_two_iff]
  · rw [tstandby, hstandby, Bool.and_eq_true, decide_eq_true_eq, decide_eq_true_eq]
  · have hb : inputBand mv ≠ 0 := fun h0 => absurd ((inputBand_eq_zero_iff mv).1 h0) (by omega)
    rw [State.afterInput_of_ne_zero _ hb]
    exact ⟨rfl, hmain⟩
  · rw [(inputBand_eq_one_iff mv).2 ⟨h, ho⟩, State.afterInput_one (hmain.trans hm)]
    simp
  · rw [(inputBand_eq_three_iff mv).2 ⟨h1, h2⟩, State.afterInput_three (hmain.trans hm)]
    simp
  · rw [(inputBand_eq_zero_iff mv).2 h, State.afterInput_zero (hmain.trans hm)]
    exact (s.mainReset_power_again (s.supplied mv).power false).symm

/-! ## Shutdown and restart (R34) -/

/-- R34: out of range, the main domain shuts down once 1 ms has passed. -/
theorem powerFaultShutdown_out_of_range {s : State} (hm : s.power.main = true) (h : s.power.vin < 38000 ∨ 66000 < s.power.vin) :
    exec .powerFaultShutdown s =
      .next (if s.power.vinAt + 1000000 < s.wall then s.shutDown 4 else s.due [.powerFaultShutdown]) := by
  have hb : ¬ 1 < inputBand s.power.vin := by rw [one_lt_inputBand_iff]; omega
  change execPowerFaultShutdown s = _
  unfold execPowerFaultShutdown
  by_cases hw : s.power.vinAt + 1000000 < s.wall
  · simp [hm, hb, hw, whyPower]
  · simp [hm, hb, hw, Nat.not_lt.1 hw]

/-- R34: a supply that is in range again shuts nothing down. -/
theorem powerFaultShutdown_in_range {s : State} (h1 : 38000 ≤ s.power.vin) (h2 : s.power.vin ≤ 66000) :
    exec .powerFaultShutdown s = .next s := by
  change execPowerFaultShutdown s = _
  simp [execPowerFaultShutdown, (one_lt_inputBand_iff _).2 ⟨h1, h2⟩]

/-- R34: in range, the main domain restarts once 1 s has passed. -/
theorem mainRestart_in_range {s : State} (hm : s.power.main = false) (h1 : 40000 ≤ s.power.vin) (h2 : s.power.vin ≤ 60000) :
    exec .mainRestart s =
      .next (if s.power.vinAt + 1000000000 ≤ s.wall then s.mainReset true else s.due [.mainRestart]) := by
  change execMainRestart s = _
  unfold execMainRestart
  by_cases hw : s.power.vinAt + 1000000000 ≤ s.wall
  · simp [hm, (inputBand_eq_three_iff _).2 ⟨h1, h2⟩, hw, Nat.not_lt.2 hw]
  · simp [hm, (inputBand_eq_three_iff _).2 ⟨h1, h2⟩, hw, Nat.not_le.1 hw]

/-! ## Heat and caps (R36, R419) -/

/-- R419: below 115 °C, or with the main domain off, only the hold of the clocks follows the heat. -/
theorem thermalTrip_hold {s : State} {tenths : Nat} (h : tenths < 1150 ∨ s.power.main = false) :
    exec (.thermalTrip tenths) s = .next { s with power := { s.power with thold := decide (1050 ≤ tenths) } } := by
  have hcond : (decide (1150 ≤ tenths) && s.power.main) = false := by
    rcases h with h | h
    · simp [Nat.not_le.2 h]
    · simp [h]
  change execThermalTrip tenths s = _
  simp [execThermalTrip, hcond]

/-- R419: at 115 °C the main domain shuts down. -/
theorem thermalTrip_shutDown {s : State} {tenths : Nat} (h : 1150 ≤ tenths) (hm : s.power.main = true) :
    exec (.thermalTrip tenths) s =
      .next ((({ s with power := { s.power with thold := true } } : State).shutDown 7).due [.mainRestart]) := by
  have hhold : 1050 ≤ tenths := by omega
  change execThermalTrip tenths s = _
  simp [execThermalTrip, h, hm, hhold, whyThermal]

/-- R268: a command whose code waits runs on the window of its die. -/
theorem withCommand_taken {s : State} {code die : Nat} (h : s.taken code = some die) (f : Nat → Window → State → State) :
    withCommand code f s = .next (f die (s.window die) s) := by
  simp only [withCommand, h]

theorem capOk_iff (watts : Nat) : capOk watts = true ↔ watts = 2400 ∨ watts = 1600 ∨ watts = 1000 := by
  simp [capOk, or_assoc]

/-- R36, R269: one of the three caps is noted and is to take effect; any other value is invalid. -/
theorem setcap_taken {s : State} {die : Nat} (h : s.taken 0x43 = some die) : let x := (s.window die).op 0x10 2
    exec .setcap s = .next (if x = 2400 ∨ x = 1600 ∨ x = 1000 then
      (({ s with power := { s.power with hostCap := x } } : State).due [.capTakeEffect]).answer die 0 [] else s.answer die 2 []) := by
  intro x
  change execSetcap s = _
  rw [execSetcap, withCommand_taken h]
  simp only [capOk_iff]
  rfl

/-! ## The obligation -/

/-- Settles O44: the bands by `State.afterInput`, the reset field by field, each event by the lemma of its rule. -/
theorem powerAndHeat : Obligations.PowerAndHeat := by
  intro s mv tenths die
  refine ⟨inputVoltageChange_bands s mv, powerFaultShutdown_out_of_range, fun _ => powerFaultShutdown_in_range, mainRestart_in_range, ?_,
    thermalTrip_hold, thermalTrip_shutDown, rfl, setcap_taken, rfl⟩
  intro on t
  obtain ⟨hdiffs, hcores, hctxs, hkernels, hqueues, hindexes, hops, htlb, htime, hregions, hwindows⟩ := s.mainReset_clears on
  obtain ⟨hparts, hcolls, hlperiod, hunits, hrecords, hoverflow⟩ := s.mainReset_keeps on
  have hpower := s.mainReset_power on
  have hdevice (a : Nat) (h : a < 2 ^ 49) : t.mem.read a = 0 := (s.read_mainReset on a).trans (if_neg (Nat.not_le.2 h))
  have hhost (a : Nat) (h : 2 ^ 49 ≤ a) : t.mem.read a = s.mem.read a := (s.read_mainReset on a).trans (if_pos h)
  exact ⟨congrArg Power.main hpower, congrArg Power.cap hpower, congrArg Power.hostCap hpower, congrArg Power.mgmtCap hpower, hdevice, hhost,
    hdiffs, hcores, hctxs, hkernels, hqueues, hindexes, hops, htlb, htime, fun _ => s.link_mainReset_state on, hparts, hcolls, hlperiod,
    hunits, hrecords, hoverflow, hregions, hwindows⟩

end Sys2Proof.Machine
end

section
/-! LEMMAS. The time discipline: what an edge that is accepted does in each row of the table of R301. -/
set_option Elab.async false

namespace Sys2Proof.Machine

/-- The state after an accepted edge: the discipline stands as the table says, and wtime has stepped where the table steps it. -/
def State.edged (s : State) (r : Disc × Option Nat) (since : Nat) : State :=
  (match r.2 with
    | some w => ({ s with disc := r.1 } : State).setTime (w + since)
    | none => { s with disc := r.1 }).due [.ppsLoss]

theorem State.edged_none_time (s : State) (d : Disc) (since : Nat) :
    (s.edged (d, none) since).sec = s.sec ∧ (s.edged (d, none) since).ns = s.ns := ⟨rfl, rfl⟩

theorem State.edged_some_time (s : State) (d : Disc) (w since : Nat) :
    (s.edged (d, some w) since).sec = (w + since) / 10 ^ 9 % 2 ^ 48 ∧ (s.edged (d, some w) since).ns = (w + since) % 10 ^ 9 := ⟨rfl, rfl⟩

/-- R32: an edge whose time wtime has not reached waits. -/
theorem execPpsEdge_early {s : State} {sec ns : Nat} (narrow : Bool) (h : timeNs s.sec s.ns < timeNs sec ns) :
    execPpsEdge sec ns narrow s = .next (s.due [.ppsEdge sec ns narrow]) := if_pos h

/-- R301: an edge that is discarded is counted. -/
theorem execPpsEdge_discarded {s : State} {sec ns : Nat} {narrow : Bool} (h : timeNs sec ns ≤ timeNs s.sec s.ns)
    (hd : s.disc.discards (timeNs sec ns) narrow = true) :
    execPpsEdge sec ns narrow s = .next { s with disc := { s.disc with disc := min 255 (s.disc.disc + 1) } } := by
  simp only [execPpsEdge, Nat.not_lt.mpr h, hd, if_true, if_false]

/-- R301: an edge that is not discarded moves the discipline by the table. -/
theorem execPpsEdge_accepted {s : State} {sec ns : Nat} {narrow : Bool} (h : timeNs sec ns ≤ timeNs s.sec s.ns)
    (hd : s.disc.discards (timeNs sec ns) narrow = false) {r : Disc × Option Nat} (hr : s.disc.edge (timeNs sec ns) = r) :
    execPpsEdge sec ns narrow s = .next (s.edged r (timeNs s.sec s.ns - timeNs sec ns)) := by
  simp only [execPpsEdge, Nat.not_lt.mpr h, hd, if_false, hr, Bool.false_eq_true]
  rfl

/-- R32: a narrow edge is discarded. -/
theorem Disc.discards_narrow (d : Disc) (t : Nat) : d.discards t true = true := rfl

/-- R301: once stepped, an edge more than 1 µs from the second that the last accepted one expects is discarded. -/
theorem Disc.discards_far {d : Disc} {t e : Nat} (hs : d.stepped = true) (he : d.edgeAt = some e) (het : e ≤ t)
    (hlo : 1000 < (t - e) % 10 ^ 9) (hhi : (t - e) % 10 ^ 9 < 10 ^ 9 - 1000) : d.discards t false = true := by
  have hr : (t + 10 ^ 9 - e % 10 ^ 9) % 10 ^ 9 = (t - e) % 10 ^ 9 := by omega
  simp only [Disc.discards, hs, he, hr, Bool.false_or, Bool.true_and, decide_eq_true_eq]
  omega

/-- What an accepted edge leaves of a valid second: it is used, its offset is recorded, and a discipline that is Unlocked has no slew. -/
def Disc.used (d : Disc) (t : Nat) : Disc :=
  { d with valid := false, offs := clampSigned 16 ((t : Int) - (timeNs d.sec d.ns : Int)), slew := if d.unlk then 0 else d.slew }

section
variable {d : Disc} {t : Nat} (hv : d.valid = true)
include hv

/-- R301: Unlocked and not stepped, a valid second is stepped to. -/
theorem Disc.edge_first (hu : d.unlk = true) (hs : d.stepped = false) :
    d.edge t = ({ d.used t with stepped := true, good := 0, edgeAt := some (timeNs d.sec d.ns) }, some (timeNs d.sec d.ns)) := by
  simp [Disc.edge, Disc.used, hv, hu, hs]

/-- R301: Unlocked and stepped, an offset of more than 100 ns steps again and counts from zero. -/
theorem Disc.edge_unlocked_far (hu : d.unlk = true) (hs : d.stepped = true) (ho : 100 < ((t : Int) - timeNs d.sec d.ns).natAbs) :
    d.edge t = ({ d.used t with good := 0, edgeAt := some (timeNs d.sec d.ns) }, some (timeNs d.sec d.ns)) := by
  simp [Disc.edge, Disc.used, hv, hu, hs, ho]

/-- R301: Unlocked and stepped, the fourth offset in a row of at most 100 ns locks. -/
theorem Disc.edge_locks (hu : d.unlk = true) (hs : d.stepped = true) (ho : ((t : Int) - timeNs d.sec d.ns).natAbs ≤ 100)
    (hg : 3 ≤ d.good) : d.edge t = ({ d.used t with good := d.good + 1, unlk := false, miss := 0, edgeAt := some t }, none) := by
  simp [Disc.edge, Disc.used, hv, hu, hs, Nat.not_lt.mpr ho, hg]

/-- R301: Unlocked and stepped, an offset of at most 100 ns that is not the fourth counts. -/
theorem Disc.edge_counts (hu : d.unlk = true) (hs : d.stepped = true) (ho : ((t : Int) - timeNs d.sec d.ns).natAbs ≤ 100)
    (hg : d.good < 3) : d.edge t = ({ d.used t with good := d.good + 1, edgeAt := some t }, none) := by
  simp [Disc.edge, Disc.used, hv, hu, hs, Nat.not_lt.mpr ho, Nat.not_le.mpr hg]

/-- R301: Locked, an offset of at most 1 µs slews. -/
theorem Disc.edge_slews (hu : d.unlk = false) (ho : ((t : Int) - timeNs d.sec d.ns).natAbs ≤ 1000) :
    d.edge t = ({ d.used t with slew := slewFor ((t : Int) - timeNs d.sec d.ns), miss := 0, edgeAt := some t }, none) := by
  simp [Disc.edge, Disc.used, hv, hu, Nat.not_lt.mpr ho]

/-- R301: Locked, an offset of more than 1 µs unlocks and steps. -/
theorem Disc.edge_unlocks (hu : d.unlk = false) (ho : 1000 < ((t : Int) - timeNs d.sec d.ns).natAbs) :
    d.edge t = ({ d.used t with unlk := true, stepped := true, good := 0, slew := 0, edgeAt := some (timeNs d.sec d.ns) },
      some (timeNs d.sec d.ns)) := by
  simp [Disc.edge, Disc.used, hv, hu, ho]

end

/-- R301: Locked, up to two pulses without a valid second count, with the slew as it is. -/
theorem Disc.edge_misses {d : Disc} {t : Nat} (hv : d.valid = false) (hu : d.unlk = false) (hm : d.miss < 2) :
    d.edge t = ({ d with miss := d.miss + 1, edgeAt := some t }, none) := by
  simp [Disc.edge, hv, hu, hm]

/-- R301: Locked, the third pulse without a valid second unlocks. -/
theorem Disc.edge_third_miss {d : Disc} {t : Nat} (hv : d.valid = false) (hu : d.unlk = false) (hm : 2 ≤ d.miss) :
    d.edge t = ({ d with unlk := true, stepped := false, slew := 0, edgeAt := some t }, none) := by
  simp [Disc.edge, hv, hu, Nat.not_lt.mpr hm]

/-- R301: 3 s after the last accepted edge a Locked discipline is Unlocked. -/
theorem execPpsLoss_late {s : State} {e : Nat} (hu : s.disc.unlk = false) (he : s.disc.edgeAt = some e)
    (h : e + 3 * 10 ^ 9 ≤ timeNs s.sec s.ns) :
    execPpsLoss s = .next { s with disc := { s.disc with unlk := true, stepped := false, slew := 0 } } := by
  simp only [execPpsLoss, hu, he, h, decide_true, if_true, if_false, Bool.false_eq_true]

/-- R301: before that the watch waits on. -/
theorem execPpsLoss_early {s : State} {e : Nat} (hu : s.disc.unlk = false) (he : s.disc.edgeAt = some e)
    (h : timeNs s.sec s.ns < e + 3 * 10 ^ 9) (hw : .ppsLoss ∉ s.agenda) : execPpsLoss s = .next (s.due [.ppsLoss]) := by
  simp only [execPpsLoss, hu, he, Nat.not_le.mpr h, decide_false, if_false, Bool.false_eq_true]
  rw [if_neg (by simpa using hw)]

/-- An Unlocked discipline has nothing to lose. -/
theorem execPpsLoss_unlocked {s : State} (hu : s.disc.unlk = true) : execPpsLoss s = .next s := if_pos hu

/-- Settles O45: each row of the discipline's table, by the lemma of that row. -/
theorem timeDiscipline : Obligations.TimeDiscipline := by
  intro s sec ns d t0 now want off near counted stays steps
  refine ⟨fun narrow => execPpsEdge_early narrow, fun h => execPpsEdge_discarded h (Disc.discards_narrow ..),
    fun h hs e he het hlo hhi => execPpsEdge_discarded h (Disc.discards_far hs he het hlo hhi),
    fun ⟨h, hd⟩ hv hu hs => ⟨_, execPpsEdge_accepted h hd (Disc.edge_first hv hu hs), State.edged_some_time .., ?first⟩,
    fun ⟨h, hd⟩ hv hu hs ho => ?good,
    fun ⟨h, hd⟩ hv hu hs ho => ⟨_, execPpsEdge_accepted h hd (Disc.edge_unlocked_far hv hu hs ho), rfl, hu, State.edged_some_time ..⟩,
    fun ⟨h, hd⟩ hv hu ho => ⟨_, execPpsEdge_accepted h hd (Disc.edge_slews hv hu ho), rfl, hu, rfl, rfl, rfl, State.edged_none_time ..⟩,
    fun ⟨h, hd⟩ hv hu ho => ⟨_, execPpsEdge_accepted h hd (Disc.edge_unlocks hv hu ho), rfl, rfl, State.edged_some_time ..⟩,
    fun ⟨h, hd⟩ hv hu => ?miss,
    fun e => execPpsLoss_late, fun e => execPpsLoss_early, execPpsLoss_unlocked⟩
  case first => exact ⟨rfl, rfl, rfl, if_pos hu, rfl⟩
  case good =>
    rcases Nat.lt_or_ge d.good 3 with hg | hg
    · exact ⟨_, execPpsEdge_accepted h hd (Disc.edge_counts hv hu hs ho hg), rfl, iff_of_true hu hg, State.edged_none_time ..⟩
    · exact ⟨_, execPpsEdge_accepted h hd (Disc.edge_locks hv hu hs ho hg), rfl, iff_of_false Bool.false_ne_true (Nat.not_lt.mpr hg),
        State.edged_none_time ..⟩
  case miss =>
    rcases Nat.lt_or_ge d.miss 2 with hm | hm
    · exact ⟨_, execPpsEdge_accepted h hd (Disc.edge_misses hv hu hm), State.edged_none_time ..,
        iff_of_false (hu ▸ Bool.false_ne_true) (Nat.not_le.mpr hm), fun _ => ⟨rfl, rfl⟩, fun h2 => absurd h2 (Nat.not_le.mpr hm)⟩
    · exact ⟨_, execPpsEdge_accepted h hd (Disc.edge_third_miss hv hu hm), State.edged_none_time ..,
        iff_of_true rfl hm, fun h2 => absurd h2 (Nat.not_lt.mpr hm), fun _ => rfl⟩

end Sys2Proof.Machine
end

section
/-! LEMMAS. What reset leaves. -/
set_option Elab.async false

namespace Sys2Proof.Machine

theorem State.reset_mapLegal : State.reset.MapLegal :=
  ⟨⟨rfl, by decide +kernel⟩, fun _ h => nomatch h⟩

theorem State.reset_partsLegal : State.reset.PartsLegal := by
  unfold State.PartsLegal; decide +kernel

/-- The configuration at reset is legal, and its memory is empty. -/
theorem State.reset_inv : State.reset.Inv where
  mem := rfl
  caps := ⟨rfl, rfl, rfl⟩
  map := State.reset_mapLegal
  parts := State.reset_partsLegal
  store := ⟨Nat.zero_le _, by decide, by decide⟩

theorem State.reset_pools : State.reset.PoolsCanonical := fun _ h => nomatch h

/-- R392: a Link that trains waits, or its training has failed; nothing refuses it. -/
theorem execTrainingTimeout_next (l : Nat) (s : State) : ∃ t, execTrainingTimeout l s = .next t := by
  unfold execTrainingTimeout
  extract_lets x
  split
  · exact ⟨_, rfl⟩
  · split <;> exact ⟨_, rfl⟩

/-- An even step with nothing prescribed takes the first event due. -/
theorem step_first_event {s : State} {e x : Instr} {es xs : List Instr} (hstop : s.stop = none) (hsched : s.sched = []) (heven : s.steps % 2 = 0)
    (hagenda : s.agenda = x :: xs) (htick : s.tick.agenda = e :: es) : step s = exec e { s.tick with agenda := es } := by
  simp only [step, hstop, State.pick, hsched, heven, if_true, hagenda, State.pickEvent, htick, List.getElem?_cons_zero, List.eraseIdx_cons_zero]

/-- A step in which nothing comes from outside leaves the agenda as it is. -/
theorem State.tick_agenda {s : State} (hevicts : s.evicts = []) (heccs : s.eccs = []) (hlosses : s.losses = []) (hfw : s.fwWrites = [])
    (hpackets : s.packetsIn = []) : s.tick.agenda = s.agenda := by
  have hlose : s.lose.agenda = s.agenda := by simp [State.lose, hevicts, heccs, hlosses, hfw, State.takePacket, hpackets]
  unfold State.tick
  dsimp only
  rw [← hlose]
  split <;> rfl

/-- At reset the first event of the boot happens: a Link's training. -/
theorem State.reset_safe : State.reset.Safe := by
  have hboot : State.reset.agenda = .trainingTimeout 0 :: bootEvents.tail := by decide +kernel
  have htick : State.reset.tick.agenda = State.reset.agenda := State.tick_agenda rfl rfl rfl rfl rfl
  have hexec (u : State) : ∃ t, exec (.trainingTimeout 0) u = .next t := by unfold exec; exact execTrainingTimeout_next 0 u
  unfold State.Safe
  rw [step_first_event rfl rfl rfl hboot (htick.trans hboot)]
  exact hexec _

theorem State.reset_regions_off {i : Nat} (h1 : 1 ≤ i) (h8 : i < 8) : State.reset.regions[i]? = some Region.off := by
  obtain ⟨j, rfl⟩ : ∃ j, i = j + 1 := ⟨i - 1, by omega⟩
  exact List.getElem?_replicate_of_lt (by omega)

theorem State.reset_parts_unused {i : Nat} (h1 : 1 ≤ i) (h8 : i < 8) : State.reset.parts[i]? = some Partition.unused := by
  obtain ⟨j, rfl⟩ : ∃ j, i = j + 1 := ⟨i - 1, by omega⟩
  exact List.getElem?_replicate_of_lt (by omega)

/-- Settles O57: tables are empty at reset, so each entry is read as its default; the rest is read off `State.reset`. -/
theorem resetState : Obligations.ResetState := by
  unfold Obligations.ResetState
  intro s
  refine ⟨State.reset_inv, State.reset_pools, State.reset_safe, rfl, rfl, rfl, rfl, fun i h1 h8 => ?_, rfl, fun i h1 h8 => ?_, rfl, rfl, rfl, rfl,
    rfl, rfl, fun _ => rfl, fun _ => rfl, fun _ => rfl, fun _ => rfl, fun _ => ⟨rfl, rfl, rfl, rfl, rfl⟩, fun _ _ => ⟨rfl, rfl⟩,
    fun _ => ⟨rfl, rfl⟩⟩
  · rw [State.reset_regions_off h1 h8]; rfl
  · rw [State.reset_parts_unused h1 h8]; rfl

end Sys2Proof.Machine
end

section
/-! LEMMAS. Code words (R90, R93): what any of them does to the device around the cores, which is nothing. -/
set_option Elab.async false

namespace Sys2Proof.Machine

/-! ## What keeps the device -/

/-- Fields other than those that Keeps names have changed. -/
theorem Keeps.elsewhere {s t : State} (h1 : t.mem = s.mem := by rfl) (h2 : t.regions = s.regions := by rfl)
    (h3 : t.newRegions = s.newRegions := by rfl) (h4 : t.parts = s.parts := by rfl) (h5 : t.power = s.power := by rfl)
    (h6 : t.windows = s.windows := by rfl) (h7 : t.queues = s.queues := by rfl) (h8 : t.indexes = s.indexes := by rfl)
    (h9 : t.links = s.links := by rfl) (h10 : t.colls = s.colls := by rfl) (h11 : t.records = s.records := by rfl)
    (h12 : t.disc = s.disc := by rfl) (h13 : t.lperiod = s.lperiod := by rfl) (h14 : t.sec = s.sec := by rfl) (h15 : t.ns = s.ns := by rfl)
    (h16 : t.cores = s.cores := by rfl) : Keeps s t :=
  Keeps.of_cores h1 h2 h3 h4 h5 h6 h7 h8 h9 h10 h11 h12 h13 h14 h15 h16

theorem Keeps.fetchLine (s : State) (cl ln : Nat) : Keeps s (s.fetchLine cl ln) := by
  unfold State.fetchLine
  split
  · exact Keeps.refl s
  · exact Keeps.setCluster ..

theorem Keeps.request (s : State) (c slot : Nat) (pas : List Nat) : Keeps s (s.request c slot pas) := Keeps.sendAcross ..

theorem Keeps.delayAt (s : State) (pa : Nat) (r : Req) : Keeps s (s.delayAt pa r) :=
  Keeps.ite (Keeps.refl s) ((Keeps.unparkReq s r).trans .elsewhere)

theorem Keeps.await (s : State) (pa : Nat) (r : Req) : Keeps s (s.await pa r) :=
  Keeps.ite (Keeps.parkLine ..) (Keeps.ite (Keeps.delayAt ..) (Keeps.refl s))

theorem Keeps.takePlace (s : State) (is : Issue) (tile : Nat) : Keeps s (s.takePlace is tile) := by
  unfold State.takePlace
  dsimp only
  split
  · exact Keeps.refl s
  · exact Keeps.setCore_same _ _ _ rfl

theorem Keeps.leavePlaces (s : State) (c slot uid : Nat) : Keeps s (s.leavePlaces c slot uid) := Keeps.setCore_same _ _ _ rfl

theorem Keeps.takeCheckpoint (is : Issue) (tile : Nat) (s : State) : Keeps s (takeCheckpoint is tile s) :=
  Keeps.ite (Keeps.refl s) (Keeps.setCore _ _ _ fun h => Memory.paste_wf _ _ (h.core _) (Memory.slice_wf _ _ (h.core _)))

theorem Keeps.issueMma (is : Issue) (op : MmaOp) (s : State) : Keeps s (issueMma is op s) :=
  ((Keeps.takeCheckpoint ..).trans (Keeps.setCore_same _ _ _ (by rfl))).trans (Keeps.due ..)

theorem Keeps.zeroTile (is : Issue) (n : Nat) (s : State) : Keeps s (zeroTile is n s) :=
  (Keeps.takeCheckpoint ..).trans (Keeps.setCore _ _ _ fun h => Memory.clear_wf _ _ (h.core _))

theorem Keeps.learnHeld (core : Nat) (pas : List Nat) (s : State) : Keeps s (learnHeld core pas s) := Keeps.setCore_same _ _ _ rfl

theorem Keeps.shintEffect (code core slot : Nat) (s : State) : Keeps s (shintEffect code core slot s) :=
  Keeps.ite (Keeps.setCore_same _ _ _ (by rfl)) (Keeps.ite ((Keeps.setCore_same _ _ _ (by rfl)).trans (Keeps.due ..))
    (Keeps.ite (Keeps.setCore_same _ _ _ (by rfl)) (Keeps.refl s)))

theorem Keeps.setStore (s : State) (die : Nat) (d : ContStore) : Keeps s (s.setStore die d) := Keeps.setStores ..

theorem Keeps.reserveRoom (s : State) (die uid n : Nat) : Keeps s (s.reserveRoom die uid n) := Keeps.setStore ..

/-! ## Verdicts that several words share -/

/-- A verdict that may be there keeps the device. -/
def KeepsIfSome (s : State) : Option Verdict → Prop
  | some v => v.Keeps s
  | none => True

theorem KeepsIfSome.of_eq {s : State} {o : Option Verdict} {v : Verdict} (e : o = some v) (h : KeepsIfSome s o) : v.Keeps s := by
  subst e; exact h

theorem KeepsIfSome.map {α : Type} {s : State} {f : α → Verdict} {o : Option α} (h : ∀ a, (f a).Keeps s) : KeepsIfSome s (o.map f) := by
  cases o with
  | none => trivial
  | some a => exact h a

theorem KeepsIfSome.ite {p : Prop} [Decidable p] {s : State} {a b : Option Verdict} (ha : KeepsIfSome s a) (hb : KeepsIfSome s b) :
    KeepsIfSome s (if p then a else b) := by
  split
  · exact ha
  · exact hb

theorem Verdict.Keeps.ite {p : Prop} [Decidable p] {s : State} {v w : Verdict} (hv : v.Keeps s) (hw : w.Keeps s) :
    Verdict.Keeps s (if p then v else w) := by
  split
  · exact hv
  · exact hw

/-- An effect that adds nothing of its own. -/
theorem Verdict.Keeps.go {s : State} {e : Eff} (h : e.post = id) : Verdict.Keeps s (.go e) := fun t => h ▸ Machine.Keeps.refl t

theorem fetchHold_keeps (is : Issue) (s : State) (off : Nat) : (fetchHold is s off).Keeps s := by
  unfold fetchHold
  split
  · exact .ite trivial (Keeps.await ..)
  · trivial

theorem globalFault_keeps (is : Issue) (s : State) (els : List (Nat × Nat)) (size : Nat) (acc : AccKind) (refuses : Nat → Bool) :
    KeepsIfSome s (globalFault is s els size acc refuses) := by
  unfold globalFault
  repeat' split
  all_goals first | trivial | exact .map (fun _ => trivial)

theorem parking_keeps (is : Issue) (s : State) (pas : List Nat) : KeepsIfSome s (parking is s pas) := by
  unfold parking
  split
  · trivial
  · exact .map (fun _ => Keeps.await ..)

theorem lineWait_keeps (is : Issue) (s : State) (pas : List Nat) : KeepsIfSome s (lineWait is s pas) := by
  unfold lineWait
  split
  · next v h => exact KeepsIfSome.of_eq h (parking_keeps ..)
  · exact .map (fun _ => Keeps.checkIn ..)

theorem clusterWriteWait_keeps (is : Issue) (s : State) (pas : List Nat) : KeepsIfSome s (clusterWriteWait is s pas) := by
  unfold clusterWriteWait
  dsimp only
  split
  · next v h => exact KeepsIfSome.of_eq h (parking_keeps ..)
  · exact .ite (Keeps.refl s) (.map (fun _ => Keeps.checkIn ..))

theorem localFault_keeps (is : Issue) (s : State) (sp : LocalSpace) (write : Bool) (els : List (Nat × Nat)) (n : Nat) :
    KeepsIfSome s (localFault is s sp write els n) := by
  unfold localFault
  split
  · trivial
  · exact .map (fun _ => trivial)

theorem tileWait_keeps (is : Issue) (s : State) (tile : Nat) (mma : Bool) : KeepsIfSome s (tileWait is s tile mma) := by
  unfold tileWait
  dsimp only
  refine .ite (.ite (Keeps.takePlace ..) trivial) ?_
  split
  · exact Keeps.ite (Keeps.endChunk ..) (Keeps.refl s)
  · exact .ite (.ite (Keeps.refl s) trivial) (.ite trivial (Keeps.takePlace ..))

theorem targetFault_keeps (is : Issue) (s : State) (ts : List (Nat × Nat)) : KeepsIfSome s (targetFault is s ts) := by
  unfold targetFault
  split
  · trivial
  split
  · trivial
  split
  · trivial
  split
  · trivial
  split
  · exact fetchHold_keeps ..
  · exact .map (fun _ => trivial)

theorem moveTo_keeps (is : Issue) (s : State) (ts : List (Nat × Nat)) : (moveTo is s ts).Keeps s := by
  unfold moveTo
  cases h : targetFault is s ts with
  | none => exact .go rfl
  | some v => exact KeepsIfSome.of_eq h (targetFault_keeps is s ts)

theorem floatVerdict_keeps (is : Issue) (f : Nat → FRes) (e : (Nat → Nat) → Eff) (s : State) (he : ∀ g, (e g).post = id) :
    (floatVerdict is f e).Keeps s := by
  unfold floatVerdict
  split
  · trivial
  · exact .go (he _)

theorem pushFault_keeps (s : State) (ctx : Nat) (role : Role) (q : Nat) (cmd : List Byte) : KeepsIfSome s (pushFault s ctx role q cmd) :=
  .ite trivial (.ite trivial (.ite trivial (.ite trivial trivial)))

theorem barOf_keeps (is : Issue) (s : State) (x : Bool) (a : Nat) (k : Nat → Verdict) (hk : ∀ b, (k b).Keeps s) : (barOf is s x a k).Keeps s :=
  .ite trivial (hk _)

theorem precheck_keepsIfSome (d : Desc) (is : Issue) (s : State) : KeepsIfSome s (precheck d is s) := by
  cases h : precheck d is s with
  | none => trivial
  | some v => exact precheck_keeps d is s v h

theorem fusedCheck_keeps (r : FusedRun) (is : Issue) (s : State) : KeepsIfSome s (fusedCheck r is s) := by
  have h (fs : List (Nat × Desc)) (f : Nat × Desc → Option Verdict) (hf : ∀ x, KeepsIfSome s (f x)) : ∀ a, KeepsIfSome s a →
      KeepsIfSome s (fs.foldl (fun acc x => match acc with | some v => some v | none => f x) a) := by
    induction fs with
    | nil => exact fun _ h => h
    | cons x fs ih =>
      intro a ha
      refine ih _ ?_
      cases a with
      | none => exact hf x
      | some v => exact ha
  exact h _ _ (fun _ => precheck_keepsIfSome ..) _ trivial

theorem storeBody_keeps (x : Bool) (d a : Nat) (c : Scope) (z : Size) (is : Issue) (s : State) : (storeBody x d a c z is s).Keeps s := by
  unfold storeBody
  dsimp only
  split
  · next v h => exact KeepsIfSome.of_eq h (globalFault_keeps ..)
  split
  · next v h => exact KeepsIfSome.of_eq h (.ite (clusterWriteWait_keeps ..) (.map fun _ => Keeps.checkIn ..))
  · exact fun t => Keeps.ite (Keeps.unparkReq ..) (Keeps.refl t)

theorem atomBody_keeps (ret : Bool) (l d a : Nat) (p : Place) (w : Bool) (o : AtomOp) (is : Issue) (s : State) :
    (atomBody ret l d a p w o is s).Keeps s := by
  unfold atomBody
  dsimp only
  split
  · next v h => exact KeepsIfSome.of_eq h (globalFault_keeps ..)
  split
  · refine .ite trivial ?_
    split
    · next v h => exact KeepsIfSome.of_eq h (clusterWriteWait_keeps ..)
    · exact .ite (fun _ => Keeps.unparkReq ..) (fun _ => Keeps.unparkReq ..)
  · refine .ite trivial ?_
    split
    · exact Keeps.checkIn ..
    · refine .ite ?_ (.go rfl)
      split
      · next v h => exact KeepsIfSome.of_eq h (parking_keeps ..)
      · exact fun _ => Keeps.unparkReq ..
  · split
    · next v h => exact KeepsIfSome.of_eq h (lineWait_keeps ..)
    · exact fun t => (Keeps.ite (((Keeps.unparkReq ..).trans (Keeps.request ..)).trans (Keeps.due ..))
        (Keeps.ite ((Keeps.unparkReq ..).trans (Keeps.consumeUCE ..)) (Keeps.unparkReq ..))).trans (Keeps.learnHeld ..)

/-! ## Forms that several words share -/

/-- What a meaning answers keeps the device of the state that it was asked in. -/
def OutKeeps (s : State) : Out → Prop
  | .next t => Keeps s t
  | _ => True

theorem issueWord_keeps (d : Desc) (body : Issue → State → Verdict) (s : State) (hb : ∀ is, (body is s).Keeps s) :
    OutKeeps s (issueWord d body s) := by
  cases h : issueWord d body s with
  | next t => exact Keeps.issueWord d body s t hb h
  | _ => trivial

theorem issueBare_keeps (body : Issue → State → Verdict) (s : State) (hb : ∀ is, (body is s).Keeps s) :
    OutKeeps s (issueBare body s) := by
  cases h : issueBare body s with
  | next t => exact Keeps.issueBare body s t hb h
  | _ => trivial

theorem intTwo_keeps (w t : Bool) (d a b : Nat) (sat f4 : Bool) (f : Bool → Nat → Nat → Nat → Nat → Nat) (s : State) :
    OutKeeps s (intTwo w t d a b sat f4 f s) := issueWord_keeps _ _ s fun _ => .go rfl

theorem intCtl_keeps (w t : Bool) (d a b : Nat) (f4 : Bool) (f : Nat → Nat → Nat → Nat → Nat) (s : State) :
    OutKeeps s (intCtl w t d a b f4 f s) := issueWord_keeps _ _ s fun _ => .go rfl

theorem intOne_keeps (w t : Bool) (d a : Nat) (sat imm : Bool) (f : Bool → Nat → Nat → Nat) (s : State) :
    OutKeeps s (intOne w t d a sat imm f s) := issueWord_keeps _ _ s fun _ => .go rfl

theorem scalarTwo_keeps (d a b : Nat) (f : Nat → Nat → Nat) (s : State) : OutKeeps s (scalarTwo d a b f s) :=
  issueWord_keeps _ _ s fun _ => .go rfl

theorem movsWord_keeps (vd va : List Opnd) (mdst : Option Nat) (closes : Bool) (body : Issue → State → Eff) (e : Eff) (s : State)
    (hb : ∀ is, (body is s).post = id) (he : e.post = id) : OutKeeps s (movsWord vd va mdst closes body e s) :=
  issueWord_keeps _ _ s fun is => .go (by split; exacts [he, hb is])

theorem floatTwo_keeps (t : Bool) (d a b : Nat) (f4 : Bool) (f : Rm → Bool → Nat → Nat → Nat → FRes) (s : State) :
    OutKeeps s (floatTwo t d a b f4 f s) := issueWord_keeps _ _ s fun _ => floatVerdict_keeps _ _ _ s fun _ => rfl

theorem floatOne_keeps (t : Bool) (d a : Nat) (f : Rm → Bool → Nat → FRes) (s : State) : OutKeeps s (floatOne t d a f s) :=
  issueWord_keeps _ _ s fun _ => floatVerdict_keeps _ _ _ s fun _ => rfl

theorem packedTwo_keeps (t : Bool) (d a b : Nat) (f4 imm : Bool) (f : Rm → Bool → Nat → Nat → Nat → FRes) (s : State) :
    OutKeeps s (packedTwo t d a b f4 imm f s) := issueWord_keeps _ _ s fun _ => floatVerdict_keeps _ _ _ s fun _ => rfl

theorem planeWord_keeps (slot : Nat) (desc : Slot → Desc) (body : Slot → Issue → State → Eff) (s : State)
    (hb : ∀ sl is, (body sl is s).post = id) : OutKeeps s (planeWord slot desc body s) := by
  unfold planeWord
  extract_lets sl
  exact issueWord_keeps _ _ s fun is => .ite trivial (.go (hb sl is))

theorem scaleWord_keeps (t : Bool) (d a slot : Nat) (f : Nat → Nat) (s : State) : OutKeeps s (scaleWord t d a slot f s) :=
  issueWord_keeps _ _ s fun _ => .ite trivial (.go rfl)

theorem loadWord_keeps (acq : Bool) (l : Nat) (x : Bool) (d a : Nat) (c : Scope) (z : Size) (s : State) :
    OutKeeps s (loadWord acq l x d a c z s) := by
  refine issueWord_keeps _ _ s fun is => ?_
  dsimp only
  split
  · next v h => exact KeepsIfSome.of_eq h (globalFault_keeps ..)
  split
  · next v h => exact KeepsIfSome.of_eq h (.ite (parking_keeps ..) (lineWait_keeps ..))
  · exact fun t => (((Keeps.ite (Keeps.foldl (fun _ _ => Keeps.fetchLine ..) _ t) (Keeps.ite (Keeps.dropReadCopies ..) (Keeps.refl t))).trans
      (Keeps.unparkReq ..)).trans (Keeps.request ..)).trans (Keeps.due ..)

theorem localLoad_keeps (sp : LocalSpace) (l : Nat) (x : Bool) (d a : Nat) (z : Size) (s : State) :
    OutKeeps s (localLoad sp l x d a z s) := by
  refine issueWord_keeps _ _ s fun is => ?_
  dsimp only
  split
  · next v h => exact KeepsIfSome.of_eq h (localFault_keeps ..)
  · exact .ite (Keeps.refl s) (fun _ => Keeps.due ..)

theorem localStore_keeps (sp : LocalSpace) (l : Nat) (x : Bool) (d a : Nat) (z : Size) (s : State) :
    OutKeeps s (localStore sp l x d a z s) := by
  refine issueWord_keeps _ _ s fun is => ?_
  dsimp only
  split
  · next v h => exact KeepsIfSome.of_eq h (localFault_keeps ..)
  · exact .ite (Keeps.refl s) (.go rfl)

theorem cacheWord_keeps (l : Nat) (x : Bool) (a : Nat) (act : Nat → AtCommit) (s : State) : OutKeeps s (cacheWord l x a act s) := by
  refine issueWord_keeps _ _ s fun is => ?_
  dsimp only
  split
  · next v h => exact KeepsIfSome.of_eq h (globalFault_keeps ..)
  · exact .go rfl

theorem ringWord_keeps (x : Bool) (a r : Nat) (k : Issue → State → Nat → Nat → Nat → Verdict) (s : State)
    (hk : ∀ is h c slot, (k is s h c slot).Keeps s) : OutKeeps s (ringWord x a r k s) := by
  refine issueWord_keeps _ _ s fun is => ?_
  dsimp only
  split
  · exact .ite trivial (hk ..)
  · trivial

theorem barWord_keeps (dsc : Desc) (x : Bool) (a : Nat) (op : Issue → State → BarOp) (s : State) : OutKeeps s (barWord dsc x a op s) :=
  issueWord_keeps _ _ s fun _ => barOf_keeps _ _ _ _ _ fun _ => .go rfl

theorem fenceWord_keeps (k : FenceKind) (s : State) : OutKeeps s (fenceWord k s) := issueWord_keeps _ _ s fun _ => .go rfl

theorem hintWord_keeps (f : Seq → Option Seq) (s : State) : OutKeeps s (hintWord f s) := by
  unfold hintWord
  split
  · trivial
  split
  · trivial
  · dsimp only [OutKeeps]
    split
    · exact Keeps.raise ..
    · exact Keeps.ite (Keeps.settle _ _ _ (fetchHold_keeps ..)) (Keeps.ite (Keeps.endChunk ..) ((Keeps.stallOn ..).trans (Keeps.modGroup ..)))

/-! ## Words of a form of their own -/

theorem execStl_keeps (x : Bool) (d a : Nat) (c : Scope) (z : Size) (s : State) : OutKeeps s (execStl x d a c z s) := by
  refine issueWord_keeps _ _ s fun is => .ite trivial (.ite trivial ?_)
  have h := storeBody_keeps x d a c z is s
  split
  · next e he => exact fun t => (Keeps.ite (Keeps.refl t) (Keeps.release ..)).trans ((he ▸ h : Verdict.Keeps s (.go e)) _)
  · exact h

theorem execStw_keeps (l : Nat) (x : Bool) (d a : Nat) (z : Size) (s : State) : OutKeeps s (execStw l x d a z s) := by
  refine issueWord_keeps _ _ s fun is => ?_
  dsimp only
  split
  · next v h => exact KeepsIfSome.of_eq h (localFault_keeps ..)
  · exact .go rfl

theorem execMma_keeps (l : Nat) (q : Act) (n a slot : Nat) (s : State) : OutKeeps s (execMma l q n a slot s) := by
  refine issueWord_keeps _ _ s fun is => ?_
  dsimp only
  split
  · exact Keeps.refl s
  refine .ite trivial (.ite trivial (.ite trivial (.ite trivial ?_)))
  split
  · trivial
  refine .ite (Keeps.refl s) ?_
  split
  · next v h => exact KeepsIfSome.of_eq h (tileWait_keeps ..)
  · exact fun _ => Keeps.issueMma ..

theorem execMzero_keeps (l n : Nat) (s : State) : OutKeeps s (execMzero l n s) := by
  refine issueWord_keeps _ _ s fun is => .ite trivial ?_
  split
  · next v h => exact KeepsIfSome.of_eq h (tileWait_keeps ..)
  · exact fun _ => (Keeps.zeroTile ..).trans (Keeps.leavePlaces ..)

theorem execMrd_keeps (l d n : Nat) (s : State) : OutKeeps s (execMrd l d n s) := by
  unfold execMrd
  extract_lets w
  exact issueWord_keeps _ _ s fun _ => .ite trivial (.ite trivial (.ite (Keeps.takePlace ..)
    fun _ => (Keeps.due ..).trans (Keeps.leavePlaces ..)))

theorem execMwr_keeps (l d n : Nat) (s : State) : OutKeeps s (execMwr l d n s) := by
  unfold execMwr
  extract_lets w
  refine issueWord_keeps _ _ s fun is => .ite trivial (.ite trivial (.ite trivial ?_))
  split
  · next v h => exact KeepsIfSome.of_eq h (tileWait_keeps ..)
  · exact fun _ => ((Keeps.takeCheckpoint ..).trans (Keeps.foldl (fun _ _ => Keeps.poolPut ..) _ _)).trans (Keeps.leavePlaces ..)

theorem execVote_keeps (c : VoteMode) (d a : Nat) (s : State) : OutKeeps s (execVote c d a s) :=
  issueWord_keeps _ _ s fun _ => .ite (.go (by split <;> rfl)) (.go rfl)

theorem execRedl_keeps (c : RedOp) (t : Bool) (d a : Nat) (s : State) : OutKeeps s (execRedl c t d a s) := by
  refine issueWord_keeps _ _ s fun is => ?_
  dsimp only
  split
  · trivial
  · exact .go rfl

theorem execScanl_keeps (c : RedOp) (t : Bool) (d a : Nat) (s : State) : OutKeeps s (execScanl c t d a s) := by
  refine issueWord_keeps _ _ s fun is => ?_
  dsimp only
  split
  · trivial
  · exact .go rfl

theorem execCall_keeps (off : Nat) (s : State) : OutKeeps s (execCall off s) := by
  refine issueWord_keeps _ _ s fun is => ?_
  dsimp only
  split
  · next v h => exact KeepsIfSome.of_eq h (targetFault_keeps ..)
  · exact .ite trivial (.go rfl)

theorem execRet_keeps (s : State) : OutKeeps s (execRet s) := by
  refine issueWord_keeps _ _ s fun is => ?_
  dsimp only
  split
  · next v h => exact KeepsIfSome.of_eq h (targetFault_keeps ..)
  · exact .ite trivial (.go rfl)

theorem execExit_keeps (s : State) : OutKeeps s (execExit s) := by
  refine issueWord_keeps _ _ s fun is => .ite (.go rfl) ?_
  split
  · exact fun _ => Keeps.modGroup ..
  · exact .go rfl

theorem execBars_keeps (x : Bool) (a : Nat) (s : State) : OutKeeps s (execBars x a s) := by
  refine issueWord_keeps _ _ s fun is => barOf_keeps _ _ _ _ _ fun b => ?_
  dsimp only
  split
  · exact fun _ => Keeps.modGroup ..
  · exact .go rfl

theorem execPush_keeps (x : Bool) (p f a : Nat) (s : State) : OutKeeps s (execPush x p f a s) := by
  refine issueWord_keeps _ _ s fun is => ?_
  dsimp only
  split
  · next v h => exact KeepsIfSome.of_eq h (pushFault_keeps ..)
  · exact .go rfl

theorem execCont_keeps (d a : Nat) (s : State) : OutKeeps s (execCont d a s) := by
  refine issueWord_keeps _ _ s fun is => .ite trivial (.ite trivial ?_)
  split
  · exact fetchHold_keeps ..
  · trivial
  · exact .ite (fun _ => Keeps.reserveRoom ..) trivial

theorem execSregr_keeps (x : Bool) (d a : Nat) (s : State) : OutKeeps s (execSregr x d a s) := by
  unfold execSregr
  extract_lets w
  exact issueWord_keeps _ _ s fun _ => .ite (.go rfl) (.go rfl)

theorem execRwr_keeps (d a m : Nat) (s : State) : OutKeeps s (execRwr d a m s) := by
  refine issueWord_keeps _ _ s fun is => ?_
  dsimp only
  split
  · exact .ite (.go rfl) trivial
  · trivial

theorem execFusedSoftmax_keeps (s : State) : OutKeeps s (execFusedSoftmax s) := by
  refine issueWord_keeps _ _ s fun is => ?_
  split
  · exact Keeps.refl s
  · exact fetchHold_keeps ..
  · refine .ite trivial ?_
    split
    case h_1 hv => exact KeepsIfSome.of_eq hv (fusedCheck_keeps ..)
    case h_2 =>
      refine .ite trivial ?_
      split
      split
      · trivial
      · exact fun _ => Keeps.modGroup ..

theorem execWordNotInstruction_keeps (r : IllReason) (s : State) : OutKeeps s (execWordNotInstruction r s) :=
  issueBare_keeps _ s fun _ => trivial

theorem execCodeFetchFault_keeps (s : State) : OutKeeps s (execCodeFetchFault s) := by
  refine issueBare_keeps _ s fun is => ?_
  split
  · trivial
  · exact fetchHold_keeps ..
  · exact fetchHold_keeps ..
  · trivial

/-- R90, R93, R98: what a code word does when it issues keeps the device around the cores. -/
theorem exec_code_keeps (i : Instr) (s : State) (hi : i.isCode = true) : OutKeeps s (exec i s) := by
  cases i <;> unfold exec
  case iadd | iaddc | isub | iminS | iminN | imaxS | imaxN | imul | imulhS | imulhN | imad | idivS | idivN | iremS | iremN | iand | ior |
      ixor => exact intTwo_keeps ..
  case shl | shr | sra | rotl | bfxS | bfxN | bfi => exact intCtl_keeps ..
  case ineg | iabs | inot | clz | popc | brev | mov => exact intOne_keeps ..
  case sadd | ssub | smul | sand | sor | sxor | sshl | sshr | sset => exact scalarTwo_keeps ..
  case movsSV | movsSK | movsKS | movsSM | movsMS => exact movsWord_keeps _ _ _ _ _ _ _ (fun _ => rfl) rfl
  case fadd | fsub | fmul | ffma | fmin | fmax => exact floatTwo_keeps ..
  case fclass | frcp | frsq | fsqrt | fexp2 | flog2 | fsin | fcos | ftanh => exact floatOne_keeps ..
  case hadd2F16 | hmul2F16 | hfma2F16 | hmax2F16 | hadd2Bf16 | hmul2Bf16 | hfma2Bf16 | hmax2Bf16 => exact packedTwo_keeps ..
  case npack | nunpack => exact planeWord_keeps _ _ _ s fun _ _ => rfl
  case scenc | scdec => exact scaleWord_keeps ..
  case fset | fcvt | f2i | i2f => exact issueWord_keeps _ _ s fun _ => floatVerdict_keeps _ _ _ s fun _ => rfl
  case fcvtNp => exact issueWord_keeps _ _ s fun _ => .ite trivial (floatVerdict_keeps _ _ _ s fun _ => rfl)
  case iset | sel | lea | smov | slea | srdl | shfl | putl | pref | yield | nop | join | leave | prio | chk | trap | capq | tlrd =>
    exact issueWord_keeps _ _ s fun _ => .go rfl
  case vote => exact execVote_keeps ..
  case redl => exact execRedl_keeps ..
  case scanl => exact execScanl_keeps ..
  case lpart => exact issueWord_keeps _ _ s fun _ => .ite trivial (.go (by split <;> rfl))
  case bra | brc | brx => exact issueWord_keeps _ _ s fun _ => moveTo_keeps ..
  case call => exact execCall_keeps ..
  case ret => exact execRet_keeps ..
  case exit => exact execExit_keeps ..
  case waitm => exact issueWord_keeps _ _ s fun _ => .ite trivial (.go rfl)
  case xpfx | limm => exact hintWord_keeps ..
  case shint => exact issueWord_keeps _ _ s fun _ _ => Keeps.shintEffect ..
  case ld | lda => exact loadWord_keeps ..
  case st => exact issueWord_keeps _ _ s fun _ => storeBody_keeps ..
  case stl => exact execStl_keeps ..
  case lds | ldw | ldp => exact localLoad_keeps ..
  case sts | stp => exact localStore_keeps ..
  case stw => exact execStw_keeps ..
  case atom | red => exact issueWord_keeps _ _ s fun _ => atomBody_keeps ..
  case evict | ckin => exact cacheWord_keeps ..
  case rwr => exact execRwr_keeps ..
  case arvw => exact issueWord_keeps _ _ s fun _ => .ite (.go rfl) trivial
  case bari | bara | bard | bart | barq => exact barWord_keeps ..
  case barw => exact issueWord_keeps _ _ s fun _ => barOf_keeps _ _ _ _ _ fun _ => .go rfl
  case bars => exact execBars_keeps ..
  case push => exact execPush_keeps ..
  case waittl => exact issueWord_keeps _ _ s fun _ => .ite (fun _ => Keeps.dropReadCopies ..) trivial
  case ringp => exact ringWord_keeps _ _ _ _ s fun _ _ _ _ => .ite trivial (.go rfl)
  case ringc => exact ringWord_keeps _ _ _ _ s fun _ _ _ _ => .ite (fun _ => Keeps.dropReadCopies ..) trivial
  case ringcRel => exact ringWord_keeps _ _ _ _ s fun _ _ _ _ => .go rfl
  case cont => exact execCont_keeps ..
  case mma => exact execMma_keeps ..
  case mzero => exact execMzero_keeps ..
  case mrd => exact execMrd_keeps ..
  case mwr => exact execMwr_keeps ..
  case tret => exact issueWord_keeps _ _ s fun _ => .ite trivial (fun _ => Keeps.leaveTrap ..)
  case sregr => exact execSregr_keeps ..
  case sregw => exact issueWord_keeps _ _ s fun _ => .ite (.ite trivial (.go rfl)) (.ite (.go rfl) trivial)
  case waitt => exact issueWord_keeps _ _ s fun _ => .ite trivial (.ite (.go rfl) trivial)
  case bkpt => exact issueWord_keeps _ _ s fun _ => .ite trivial (.go rfl)
  case synci => exact issueWord_keeps _ _ s fun _ _ => Keeps.setCore_same _ _ _ rfl
  case fenceCl | fenceDv | fenceSy | fenceSv => exact fenceWord_keeps ..
  all_goals exact absurd hi Bool.false_ne_true

end Sys2Proof.Machine
end

section
/-! LEMMAS. What an event may do to the device, so that its configuration stays legal, and memory and pools canonical: the operations that events
share, from cores to commits. -/
set_option Elab.async false

namespace Sys2Proof.Machine

/-! ## What the device keeps -/

/-- On the way from one state to another the invariant, and the canonical form of the pools, are kept. -/
structure Stays (s t : State) : Prop where
  inv : s.Inv → t.Inv
  pools : s.PoolsCanonical → t.PoolsCanonical

/-- An outcome that is a state, if it is one, keeps both. -/
def OutStays (s : State) : Out → Prop
  | .next t => Stays s t
  | _ => True

section
variable {s t u : State}

theorem Keeps.stays (h : Keeps s t) : Stays s t := ⟨h.inv, h.pools⟩

theorem Stays.refl (s : State) : Stays s s := ⟨id, id⟩

theorem Stays.trans (h : Stays s t) (k : Stays t u) : Stays s u := ⟨k.inv ∘ h.inv, k.pools ∘ h.pools⟩

theorem Stays.keeps (h : Stays s t) (k : Keeps t u) : Stays s u := h.trans k.stays

theorem Stays.ite {p : Prop} [Decidable p] (ht : Stays s t) (hu : Stays s u) : Stays s (if p then t else u) := by
  split
  · exact ht
  · exact hu

theorem Stays.foldl {α : Type} {f : State → α → State} {l : List α} (h : Stays s t) (hf : ∀ {u a}, Stays s u → Stays s (f u a)) :
    Stays s (l.foldl f t) := by
  induction l generalizing t with
  | nil => exact h
  | cons a l ih => exact ih (hf h)

/-- Only fields of which the invariant does not speak have changed. -/
theorem Stays.elsewhere (h : Stays s t) (h1 : u.mem = t.mem := by rfl) (h2 : u.regions = t.regions := by rfl)
    (h3 : u.newRegions = t.newRegions := by rfl) (h4 : u.parts = t.parts := by rfl) (h5 : u.power = t.power := by rfl)
    (h6 : u.records = t.records := by rfl) (h7 : u.lperiod = t.lperiod := by rfl) (h8 : u.cores = t.cores := by rfl) : Stays s u := by
  refine h.trans ⟨fun ⟨mem, caps, map, parts, store⟩ => ⟨?_, ?_, ?_, ?_, ?_⟩, fun hp => ?_⟩
  · simpa only [State.MemCanonical, h1] using mem
  · simpa only [State.CapsLegal, h5] using caps
  · simpa only [State.MapLegal, h2, h3] using map
  · simpa only [State.PartsLegal, h4] using parts
  · simpa only [State.StoreLegal, h6, h7] using store
  · simpa only [State.PoolsCanonical, h8] using hp

theorem OutStays.ite {p : Prop} [Decidable p] {o o' : Out} (ho : OutStays s o) (ho' : OutStays s o') : OutStays s (if p then o else o') := by
  split
  · exact ho
  · exact ho'

theorem OutKeeps.stays {o : Out} (h : OutKeeps s o) : OutStays s o := by
  cases o with
  | next t => exact Keeps.stays h
  | fault _ | refused _ => trivial

end

/-! ## Memory, cores and pools -/

section
variable {s t : State}

/-- Memory changes to what is canonical if it was. -/
theorem Stays.setMem {m : Memory} (h : Stays s t) (hm : t.mem.wf = true → m.wf = true) : Stays s { t with mem := m } :=
  h.trans ⟨fun ⟨mem, caps, map, parts, store⟩ => ⟨hm mem, caps, map, parts, store⟩, id⟩

variable {c slot a x off n : Nat} {k : Core} {es : List Instr} {bs : List Byte} {f : Group → Group}

theorem Stays.due (h : Stays s t) : Stays s (t.due es) := h.keeps (.due ..)

theorem Stays.setCore (h : Stays s t) (hp : k.pool = (t.core c).pool := by rfl) : Stays s (t.setCore c k) := h.keeps (.setCore_same _ _ _ hp)

theorem Stays.setCore_wf (h : Stays s t) (hp : Memory.wf (t.core c).pool = true → k.pool.wf = true) : Stays s (t.setCore c k) :=
  h.keeps (.setCore _ _ _ fun w => hp (w.core c))

theorem Stays.mapCores {f : Nat × Core → Nat × Core} (h : Stays s t) (hf : ∀ e, (f e).2.pool = e.2.pool) :
    Stays s { t with cores := t.cores.map f } := h.keeps (.mapCores _ _ hf)

theorem Stays.modGroup (h : Stays s t) : Stays s (t.modGroup c slot f) := h.keeps (.modGroup ..)
theorem Stays.poolPut (h : Stays s t) : Stays s (t.poolPut c a bs) := h.keeps (.poolPut ..)
theorem Stays.poolPut32 (h : Stays s t) : Stays s (t.poolPut32 c a x) := h.keeps (.poolPut32 ..)
theorem Stays.setSpecial (h : Stays s t) : Stays s (t.setSpecial c slot off x) := h.keeps (.setSpecial ..)
theorem Stays.openChunk (h : Stays s t) : Stays s (t.openChunk c slot) := h.keeps (.openChunk ..)
theorem Stays.enterTrap {i : TrapInfo} {ls : List Nat} (h : Stays s t) : Stays s (t.enterTrap c slot i ls) := h.keeps (.enterTrap ..)
theorem Stays.release (h : Stays s t) : Stays s (t.release c slot) := h.keeps (.release ..)
theorem Stays.retestWaitm (h : Stays s t) : Stays s (t.retestWaitm c slot) := h.modGroup

theorem Stays.putResult {v : Nat} (h : Stays s t) : Stays s (t.putResult c a n v) := .ite h.poolPut32.poolPut32 h.poolPut32

theorem Stays.writeSreg (h : Stays s t) : Stays s (t.writeSreg c slot n x) := .ite h.setSpecial (.ite h.setSpecial h.setSpecial)

theorem Stays.trapNow {i : TrapInfo} {ls : List Nat} (h : Stays s t) : Stays s (t.trapNow c slot i ls) := h.enterTrap.openChunk

theorem Stays.barrierTrap {v pc : Nat} {ls : List Nat} (h : Stays s t) : Stays s (t.barrierTrap c slot v pc ls) := h.modGroup.trapNow

/-- R245: a tile's product is as canonical as the pool it is pasted into. -/
theorem Stays.retireMma {m : MmaOp} (h : Stays s t) : Stays s (t.retireMma c m) := by
  unfold State.retireMma
  extract_lets k base r s1
  have h1 : Stays s s1 := h.setCore_wf fun w => Memory.paste_wf _ _ w (Memory.ofList_wf ..)
  split
  · exact .ite h1.setSpecial h1
  · split
    · exact h1.elsewhere.due
    · exact h1

end

/-! ## Lines, Links and the walker -/

section
variable {s t : State} {c slot src dst tag cl ln uid part n va id : Nat} {o : Op}

theorem Stays.replay {ls : Nat → Bool} (h : Stays s t) : Stays s (t.replay ls) := h.elsewhere
theorem Stays.unparkGroup (h : Stays s t) : Stays s (t.unparkGroup c slot uid) := h.elsewhere
theorem Stays.releaseSolo (h : Stays s t) : Stays s (t.releaseSolo c slot uid part) := h.elsewhere
theorem Stays.sampled {ls : List Nat} {v : Int} (h : Stays s t) : Stays s (t.sampled src ls v) := h.elsewhere
theorem Stays.setPair {p : Pair} (h : Stays s t) : Stays s (t.setPair src dst p) := h.elsewhere
theorem Stays.tagFor {ls : List Nat} (h : Stays s t) : Stays s (t.tagFor c n ls) := h.elsewhere
theorem Stays.sendPacket (h : Stays s t) : Stays s (t.sendPacket src dst n) := h.keeps (.sendPacket ..)
theorem Stays.message (h : Stays s t) : Stays s (t.message src dst tag) := .ite h h.sendPacket

theorem Stays.askAcross {ls : List Nat} {u : State} (h : Stays s t) (hu : t.askAcross src tag ls = some u) : Stays s u := by
  unfold State.askAcross at hu
  split at hu
  · cases hu
  · split at hu
    · cases hu; exact h.keeps (.sendAcross ..)
    · split at hu
      · cases hu; exact h
      · cases hu

theorem Stays.mapAllWaits {f : Nat → Group → Wait → Wait} (h : Stays s t) : Stays s (t.mapAllWaits f) := h.mapCores fun _ => rfl

theorem Stays.tlbFill {us : List Nat} {e : Tlb} (h : Stays s t) : Stays s (t.tlbFill us e) :=
  h.foldl fun k => .ite ((k.keeps (.tlbPut ..)).keeps (.tlbPut ..)) (k.keeps (.tlbPut ..))

theorem Stays.setCluster {x : Tab ClLine} (h : Stays s t) : Stays s (t.setCluster cl x) := h.keeps (.setCluster ..)
theorem Stays.checkIn (h : Stays s t) : Stays s (t.checkIn cl ln) := h.keeps (.checkIn ..)

theorem Stays.checkOut (h : Stays s t) : Stays s (t.checkOut cl ln) := by
  unfold State.checkOut
  extract_lets s1
  have h1 : Stays s s1 := h.keeps (.fetchLine ..)
  split
  · exact .ite h1 h1.setCluster
  · exact h1

theorem Stays.clPut {pa : Nat} {bs : List Byte} (h : Stays s t) : Stays s (t.clPut cl pa bs) := by
  unfold State.clPut
  extract_lets s1
  have h1 : Stays s s1 := h.checkOut
  split
  · exact h1.setCluster
  · exact h1

theorem Stays.clItem {it : BufItem} (h : Stays s t) : Stays s (t.clItem c it) := by
  unfold State.clItem
  extract_lets cl
  split
  · exact h.clPut
  · exact h.checkOut.clPut
  · exact h.checkOut.clPut.putResult
  · exact h

theorem Stays.makeRoom {g : Group} (h : Stays s t) : Stays s (t.makeRoom c g) := by
  unfold State.makeRoom
  extract_lets s1
  have h1 : Stays s s1 := h.foldl fun k => k.checkIn
  split
  · exact h1.checkIn
  · exact h1

/-! ## Operations of an engine -/

theorem Stays.setOp (h : Stays s t) : Stays s (t.setOp id o) := h.keeps (.setOp ..)
theorem Stays.finishOp {st : Nat} (h : Stays s t) : Stays s (t.finishOp id o st) := h.keeps (.finishOp ..)
theorem Stays.tagOp {ls : List Nat} (h : Stays s t) : Stays s (t.tagOp o ls) := h.keeps (.tagOp ..)
theorem Stays.offerUnit {its : List BufItem} (h : Stays s t) : Stays s (t.offerUnit id o its) := h.keeps (.offerUnit ..)
theorem Stays.setTimeline {x : Timeline} {q : Nat} (h : Stays s t) : Stays s (t.setTimeline c q x) := h.keeps (.setTimeline ..)

theorem Stays.register {rows : List (Nat × Nat)} (h : Stays s t) : Stays s (t.register id c rows) := h.foldl fun k => .ite k k.setCore

theorem Stays.unregister (h : Stays s t) : Stays s (t.unregister id) := h.mapCores fun _ => rfl

theorem Stays.assign {q : Nat} (h : Stays s t) : Stays s (t.assign c q).2 := h.setTimeline

theorem Stays.enter {q ctx : Nat} {kernel team : Option Nat} {node : Option (Nat × Nat)} {cmd : List Byte} (h : Stays s t) :
    Stays s (t.enter q ctx c n kernel team node cmd) := h.elsewhere.register

theorem Stays.send {q ctx : Nat} {kernel team : Option Nat} {cmd : List Byte} (h : Stays s t) : Stays s (t.send q ctx c kernel team cmd).2 :=
  h.assign.enter

theorem Stays.engineWalk {acc : AccKind} (h : Stays s t) : Stays s (t.engineWalk id o va acc) := .ite h.setOp (h.setOp.keeps (.askWalk ..))

/-- An operation whose pages are found goes on as its kind does. -/
theorem Stays.translateWith {self : Instr} {reqs : State → Op → List (Nat × Nat × AccKind)} {k : State → Op → State} (h : Stays s t)
    (hk : ∀ {u o}, Stays s u → Stays s (k u o)) : Stays s (translateWith id self reqs k t o) := by
  unfold Machine.translateWith
  split
  · exact h.engineWalk.due
  · exact h.finishOp
  · extract_lets o1
    split
    · exact h.finishOp
    · split
      · exact h.finishOp
      · exact h.engineWalk.due
      · exact hk h

/-- An operation leaves its queue, and goes on as its kind does. -/
theorem Stays.leaveThen {self : Instr} {atLeave : State → Op → State × Op} {k : State → Op → State} (h : Stays s t)
    (hl : ∀ {u o}, Stays s u → Stays s (atLeave u o).1) (hk : ∀ {u o}, Stays s u → Stays s (k u o)) :
    Stays s (leaveThen id self atLeave k t) := by
  unfold Machine.leaveThen
  split
  · exact h
  · refine .ite (.ite h.due (hk h)) (.ite h (.ite h.due ?_))
    extract_lets n r t1
    have hn : Stays s n.2 := by
      unfold n
      split
      · exact h.assign
      · exact h
    exact .ite (hk (hl hn).setOp) (hl hn).setOp.sendPacket.due

theorem Stays.leaveWith {self : Instr} {judge : State → Op → Option Nat} {reqs : State → Op → List (Nat × Nat × AccKind)}
    {k : State → Op → State} (h : Stays s t) (hk : ∀ {u o}, Stays s u → Stays s (k u o)) : Stays s (leaveWith id self judge reqs k t) :=
  h.leaveThen (fun k => k) fun k => k.translateWith hk

/-- What an operation reads is there, or it waits for it. -/
theorem Stays.opReads {pas : List Nat} {again : Instr} {k : State → State} (h : Stays s t) (hk : ∀ {u}, Stays s u → Stays s (k u)) :
    Stays s (t.opReads id o n pas again k) := by
  unfold State.opReads
  split
  case h_1 hu => exact (h.askAcross hu).due
  · split
    · exact (h.keeps (.await ..)).due
    · exact hk (h.keeps (.unparkReq ..)).tagOp

theorem Stays.movePieces {ps : List Piece} {again : Instr} (h : Stays s t) : Stays s (t.movePieces id o ps again) := by
  refine h.opReads fun h => ?_
  refine .ite h.finishOp ?_
  extract_lets n o1 items s1
  have h1 : Stays s s1 := h.setOp.foldl fun k => by
    split
    · exact k.poolPut
    · exact k
  exact .ite h1.due h1.offerUnit

end

end Sys2Proof.Machine
end

section
/-! LEMMAS. Commits, differences and host writes keep the device as an event must. -/
set_option Elab.async false

namespace Sys2Proof.Machine

/-! ## Chunks and their ends -/

section
variable {s t : State} {c slot dst cl ln uid part n kid gid die stamp : Nat} {o : Op} {g : Group} {ls : List Nat}

theorem Stays.dropImage (h : Stays s t) : Stays s (t.dropImage kid gid c) := by
  unfold State.dropImage
  extract_lets k s1
  have h1 : Stays s s1 := h.keeps (.emptyCore ..)
  refine .ite ?_ h
  split
  · split
    · exact h1.elsewhere
    · exact h1
  · exact h1

theorem Stays.endGang (h : Stays s t) : Stays s (t.endGang kid gid) := by
  unfold State.endGang
  split
  · split
    · exact .ite (h.elsewhere.foldl fun k => k.checkIn) h
    · exact h
  · exact h

theorem Stays.leaveStores {team : Option Nat} (h : Stays s t) : Stays s (t.leaveStores uid team) := h.elsewhere

theorem Stays.retireGroup (h : Stays s t) : Stays s (t.retireGroup c slot) := by
  unfold State.retireGroup
  split
  · extract_lets k s1 cont s2
    have h2 : Stays s s2 := h.setCore.leaveStores
    split
    · extract_lets last s3 s4
      have h3 : Stays s s3 := .ite (h2.keeps (.releaseTeam ..)) h2
      have h4 : Stays s s4 := h3.foldl fun k => k.dropImage
      exact (h4.endGang.keeps (.settleSuspend ..)).due
    · exact h2.dropImage
  · exact h

theorem Stays.sendLanding {target : Nat} {a : AtCommit} (h : Stays s t) : Stays s (t.sendLanding c slot uid target stamp a) := h.elsewhere.message

theorem Stays.pushNow {q pair full : Nat} {cmd : List Byte} (h : Stays s t) : Stays s (t.pushNow c slot q cmd pair full ls) := by
  unfold State.pushNow
  extract_lets rb old r
  exact .ite h.send.poolPut.poolPut32.retestWaitm h.poolPut.poolPut32.retestWaitm

theorem Stays.deliver {prio : Nat} {recs : List (List Byte)} (h : Stays s t) : Stays s (t.deliver die kid uid prio recs) :=
  h.foldl fun k => k.elsewhere

theorem Stays.sendBarrier {op : BarOp} {b pc : Nat} (h : Stays s t) : Stays s (t.sendBarrier c slot op b pc ls) := by
  unfold State.sendBarrier
  split
  · split
    · split
      · exact h.barrierTrap
      · exact h.setCore.modGroup.message.due
    · exact h
  · exact h

theorem Stays.atCommit {a : AtCommit} (h : Stays s t) : Stays s (t.atCommit c slot stamp g a) := by
  unfold State.atCommit
  extract_lets cl
  split
  case h_1 =>
    split
    · exact .ite h.poolPut32 h.sendLanding
    · exact h
  case h_2 => exact h.pushNow.release
  case h_5 => exact h.deliver
  case h_6 => exact h.writeSreg
  case h_7 => exact h.release
  case h_10 => exact h.keeps (.evictCopy ..)
  case h_11 => exact h.foldl fun k => k.checkIn
  case h_12 => exact h.checkIn
  case h_13 => exact h.modGroup.due
  all_goals exact h.sendLanding

theorem Stays.farResults {m : Memory} {its : List BufItem} (h : Stays s t) : Stays s (t.farResults c m its) := by
  induction its generalizing t m with
  | nil => exact h
  | cons it r ih =>
    refine ih ?_
    split
    · exact h.putResult
    · exact h

theorem Stays.deliverCap (h : Stays s t) : Stays s (t.deliverCap c slot) := by
  unfold State.deliverCap
  split
  · split
    · refine .ite h (.ite h.modGroup ?_)
      split
      · exact h.enterTrap.modGroup.openChunk
      · exact h
    · exact h
  · exact h

theorem Stays.afterCommit {a : After} (h : Stays s t) : Stays s (t.afterCommit c slot a) := by
  unfold State.afterCommit
  split
  · exact h.modGroup.openChunk
  · extract_lets s1
    have h1 : Stays s s1 := h.modGroup.openChunk
    refine Stays.due ?_
    split
    · exact h1
    · exact h1.release
  · exact h.modGroup.trapNow
  · exact h.modGroup.openChunk
  · exact h.retireGroup

theorem Stays.commitItems {its : List BufItem} {owner op : Option Nat} {cluster : Option (Nat × Nat)} (h : Stays s t) :
    Stays s (t.commitItems part die its owner op cluster) := h.keeps (.commitItems ..)

theorem Stays.commitChunk (h : Stays s t) : Stays s (t.commitChunk c slot) := by
  unfold State.commitChunk
  split
  · extract_lets ch part far bad dev stamped s1 s2 stamp s3 s4 st k4 s5 s6 s7 s8 s9 s10
    have h1 : Stays s s1 := h.farResults
    have h2 : Stays s s2 := .ite h1.commitItems h1
    have h3 : Stays s s3 := h2.foldl fun k => k.clItem
    have h4 : Stays s s4 := h3.foldl fun k => k.atCommit
    have h5 : Stays s s5 := .ite h4.setCore h4
    have h7 : Stays s s7 := (h5.setSpecial.modGroup.keeps (.leavePlaces ..)).unparkGroup
    have h8 : Stays s s8 := by
      refine .ite ?_ h7
      split
      · exact h7.elsewhere
      · exact h7
    clear_value bad
    split
    · exact h8.keeps (.consumeUCE ..)
    · have h10 : Stays s s10 := by
        unfold s10
        split
        · exact h8.afterCommit.sendBarrier
        · exact h8.afterCommit
      exact h10.deliverCap
  · exact h

theorem execChunkReady_stays (c slot : Nat) (s : State) : OutStays s (execChunkReady c slot s) := by
  have h := Stays.refl s
  unfold execChunkReady
  split
  · exact h
  · refine .ite h (.ite h.due (.ite (.ite h.makeRoom.due h.commitChunk.releaseSolo) (.ite (.ite h h.elsewhere) (.ite h.makeRoom.due h.commitChunk))))

/-! ## Commits in turn -/

theorem Stays.checkinStamped (h : Stays s t) : Stays s (t.checkinStamped cl ln) := h.mapCores fun e => by
  dsimp only
  split <;> rfl

theorem Stays.commitUnit {u : CUnit} (h : Stays s t) : Stays s (t.commitUnit part die u) := by
  unfold State.commitUnit
  split
  · exact h.commitChunk
  · extract_lets s1
    have h1 : Stays s s1 := h.commitItems
    split
    · exact .ite h1.setOp.due.replay h1.setOp.due
    · exact h1
  · split
    · exact h.commitItems.checkinStamped
    · exact h
  · exact h.commitItems
  · exact h.commitItems

theorem Stays.landK {ks : List KPut} (h : Stays s t) : Stays s (t.landK ks) := h.foldl fun k => k.poolPut32

theorem Stays.squash {x : Bool} (h : Stays s t) : Stays s (t.squash c slot x) := h.keeps (.squash ..)

theorem Stays.batch {os : List Offer} {written : List (List Nat)} {ks : List KPut} (h : Stays s t) :
    Stays s (t.batch part os n written ks) := by
  induction os generalizing t n written ks with
  | nil => exact h.landK
  | cons o r ih =>
    unfold State.batch
    refine .ite h.landK ?_
    extract_lets s0
    have h0 : Stays s s0 := h.elsewhere
    split
    · split
      · exact .ite (ih h0) (.ite (ih h) (.ite (ih h0.squash) (ih h0.commitUnit)))
      · exact ih h0
    · exact ih h0.commitUnit

theorem Stays.startSolo (h : Stays s t) : Stays s (t.startSolo part c slot uid) := h.setSpecial.modGroup.elsewhere

theorem Stays.makeRooms (h : Stays s t) : Stays s (t.makeRooms die) := h.foldl fun k => by
  split
  · refine .ite ?_ k
    split
    · exact .ite k.makeRoom k
    · exact k
  · exact k

theorem execCommitBatch_stays (part : Nat) (s : State) : OutStays s (execCommitBatch part s) := by
  have h := Stays.refl s
  unfold execCommitBatch
  refine .ite h.due ?_
  extract_lets at_ s1
  split
  · have h1 : Stays s s1 := h.foldl fun k => k.makeRooms
    exact Stays.ite h1.due h1
  · extract_lets s1
    have h1 : Stays s s1 := h.elsewhere
    split
    · exact h1.startSolo
    · exact Stays.ite h1.batch.makeRooms.due h1.batch.makeRooms

theorem execSoloTimeout_stays (s : State) : OutStays s (execSoloTimeout s) := by
  have h := Stays.refl s
  unfold execSoloTimeout
  refine .ite h ?_
  extract_lets late s1
  have h1 : Stays s s1 := h.foldl fun k => k.squash.releaseSolo
  exact Stays.ite h1 h1.due

theorem execSignatureBroadcast_stays (c : Nat) (s : State) : OutStays s (execSignatureBroadcast c s) := by
  have h := Stays.refl s
  unfold execSignatureBroadcast
  extract_lets k
  split
  · exact h
  · exact .ite h.due (h.setCore.foldl fun k => .ite k.squash k)

/-! ## Differences -/

theorem Stays.dropCopies (h : Stays s t) : Stays s (t.dropCopies dst n) := h.elsewhere

theorem Keeps.sendParity (s : State) (x : CollGroup) (stamp pa : Nat) (prot : Bool) (owner cluster : Option Nat) (d : List Byte) :
    Keeps s (s.sendParity x stamp pa prot owner cluster d) := by
  unfold State.sendParity
  extract_lets o q n s1
  have h1 : Keeps s s1 := .ite (.refl s) (.sendPacket ..)
  exact h1.trans .elsewhere

theorem Keeps.parityOf (s : State) (m : Memory) (stamp : Nat) (prot : List Nat) (owner cluster : Option Nat) (it : BufItem) :
    Keeps s (s.parityOf m stamp prot owner cluster it) := by
  unfold State.parityOf
  split
  · exact .ite (.refl s) (.foldl (fun _ _ => .sendParity ..) _ s)
  · exact .refl s

theorem Stays.sendNcl {pas : List Nat} (h : Stays s t) : Stays s (t.sendNcl uid part pas) := h.foldl fun k => k.elsewhere


end

end Sys2Proof.Machine
end

section
/-! LEMMAS. The events of differences, landings and barriers keep the device as an event must. -/
set_option Elab.async false

namespace Sys2Proof.Machine

/-! ## Differences -/

section
variable {s t : State} {c slot src cl part n id stamp pa core home bar team b : Nat} {bs : List Byte}

theorem Stays.unparkReq {r : Req} (h : Stays s t) : Stays s (t.unparkReq r) := h.keeps (.unparkReq ..)

theorem Stays.applyDiff {d : Diff} (h : Stays s t) : Stays s (t.applyDiff d) := by
  unfold State.applyDiff
  extract_lets cl s1 s2
  have h1 : Stays s s1 := by
    refine Stays.foldl (h.elsewhere.unparkReq) fun {u it} k => ?_
    extract_lets t t1
    have ht : Keeps u t := .ite (.refl u) (.parityOf ..)
    have h1 : Stays s t1 := (k.keeps ht).setMem fun w => applyItem_wf _ _ (ht.mem ▸ w)
    split
    · exact h1.elsewhere
    · exact h1
  have h2 : Stays s s2 := h1.sendNcl
  split
  · split
    · exact h2.setCluster
    · exact h2
  · exact h2

theorem Stays.parkDiffs (h : Stays s t) : Stays s (t.parkDiffs part) := h.foldl fun k => by
  split
  · exact k.keeps (.parkLine ..)
  · exact k

theorem execDifferenceApply_stays (part : Nat) (s : State) : OutStays s (execDifferenceApply part s) := by
  have h := Stays.refl s
  unfold execDifferenceApply
  split
  · exact h.applyDiff
  · exact Stays.ite h.parkDiffs.due h

theorem execLoadReturn_stays (c slot : Nat) (s : State) : OutStays s (execLoadReturn c slot s) := by
  have h := Stays.refl s
  unfold execLoadReturn
  split
  · exact h
  · split
    · exact h
    · extract_lets s1
      have h1 : Stays s s1 := h.modGroup.sampled
      exact .ite h.due (.ite (h1.keeps (.consumeUCE ..)) (h1.foldl fun k => k.poolPut))

theorem execHostWrite_stays (system : Bool) (pa : Nat) (bytes : List Byte) (s : State) : OutStays s (execHostWrite system pa bytes s) := by
  have h := Stays.refl s
  unfold execHostWrite
  extract_lets off
  refine .ite (Stays.ite h.due h) (.ite h (.ite ?_ ?_))
  · exact (h.setMem fun w => physPut_wf _ _ _ w).elsewhere
  · split
    · exact h.elsewhere
    · exact h.due

theorem execNclAck_stays (id : Nat) (s : State) : OutStays s (execNclAck id s) := by
  have h := Stays.refl s
  unfold execNclAck
  split
  · exact h
  · exact .ite h.elsewhere h.due

theorem Stays.ackParity (h : Stays s t) : Stays s (t.ackParity src n) := h.elsewhere

theorem execParityDifference_stays (src seq stripe off stamp : Nat) (bytes : List Byte) (s : State) :
    OutStays s (execParityDifference src seq stripe off stamp bytes s) := by
  have h := Stays.refl s
  unfold execParityDifference
  extract_lets next ahead m
  have hm : s.mem.wf = true → m.wf = true := Memory.foldl_write_wf _ _ _
  exact .ite h.ackParity (.ite h (.ite h.due (h.setMem hm).elsewhere.ackParity))

theorem execParityAck_stays (holder seq : Nat) (s : State) : OutStays s (execParityAck holder seq s) := by
  have h := Stays.refl s
  unfold execParityAck
  refine .ite h (.ite h.due ?_)
  extract_lets s1
  have h1 : Stays s s1 := by
    unfold s1
    split
    · exact h.dropCopies
    · exact h
  exact h1.elsewhere

/-! ## Landings -/

theorem Stays.endLanding (h : Stays s t) : Stays s (t.endLanding id) := h.elsewhere

theorem execStwLanding_stays (id : Nat) (s : State) : OutStays s (execStwLanding id s) := by
  have h := Stays.refl s
  unfold execStwLanding
  split
  · split
    · exact .ite h.due h.endLanding.poolPut
    · exact h
  · exact h

theorem execRwrLanding_stays (id : Nat) (s : State) : OutStays s (execRwrLanding id s) := by
  have h := Stays.refl s
  unfold execRwrLanding
  split
  · split
    · refine .ite h.due ?_
      extract_lets s1
      have h1 : Stays s s1 := h.endLanding
      split
      · exact .ite h1 (h1.foldl fun k => k.poolPut32.modGroup).modGroup
      · exact h1
    · exact h
  · exact h

theorem execKWrite_stays (id : Nat) (s : State) : OutStays s (execKWrite id s) := by
  have h := Stays.refl s
  unfold execKWrite
  split
  · split
    · exact .ite h.due (Stays.ite h.endLanding.poolPut32 h.endLanding)
    · exact h
  · exact h

theorem execRingAtCommit_stays (id : Nat) (s : State) : OutStays s (execRingAtCommit id s) := by
  have h := Stays.refl s
  unfold execRingAtCommit
  split
  · refine .ite h.due ?_
    split
    · extract_lets s1 k
      have h1 : Stays s s1 := h.foldl fun k => k.register
      exact .ite h1.due h1.endLanding.setCore
    · exact h.endLanding.setCore
    · exact h.endLanding
  · exact h

theorem Stays.dropReadCopies (h : Stays s t) : Stays s (t.dropReadCopies cl) := h.keeps (.dropReadCopies ..)

theorem execFenceWaitEnd_stays (c slot : Nat) (s : State) : OutStays s (execFenceWaitEnd c slot s) := by
  have h := Stays.refl s
  unfold execFenceWaitEnd
  split
  · split
    · refine .ite ?_ h.due
      extract_lets s1
      have h1 : Stays s s1 := h.modGroup
      split
      · exact h1
      · exact h1.dropReadCopies
    · exact h
  · exact h

/-! ## Barriers -/

theorem Stays.mapTeam {f : Group → Group} (h : Stays s t) : Stays s (t.mapTeam team f) := h.mapCores fun _ => rfl

theorem Stays.barrierDone (h : Stays s t) : Stays s (t.barrierDone core slot) := h.modGroup.openChunk.deliverCap

theorem Stays.setBar {x : Barrier} (h : Stays s t) : Stays s (t.setBar home bar x) := h.setCore

theorem Stays.releaseWaiters (h : Stays s t) : Stays s (t.releaseWaiters home bar team b) := by
  unfold State.releaseWaiters
  extract_lets here away isFreed s1 waits told
  have h1 : Stays s s1 := h.mapCores fun _ => rfl
  exact (h1.dropReadCopies.foldl fun k => k.message).due

theorem Stays.barArrivals {ms : List BarMsg} (h : Stays s t) : Stays s (t.barArrivals home bar ms) := by
  unfold State.barArrivals
  split
  · exact h.foldl fun k => by
      split
      · exact .ite k.barrierDone k
      · exact k
  · extract_lets b x arr d r phased s1 s2
    have h1 : Stays s s1 := h.setBar.foldl fun k => by
      split
      · exact .ite k.modGroup k
      · exact k
    have h2 : Stays s s2 := .ite h1.releaseWaiters h1
    refine .ite h (.ite ?_ ?_)
    · exact h.foldl fun k => by
        split
        · exact .ite k.barrierTrap k
        · exact k
    · exact h2.foldl fun k => by
        split
        · exact .ite k.barrierDone k
        · exact k

theorem Stays.barInits {ms : List BarMsg} (h : Stays s t) : Stays s (t.barInits home bar ms) := by
  unfold State.barInits
  split
  · exact h
  · exact h.foldl fun k => by
      split
      · extract_lets x s1
        have h1 : Stays s s1 := k.setBar.mapTeam
        exact .ite (.ite k.barrierTrap k) (.ite h1.barrierDone h1)
      · exact k

theorem Stays.barTests {ms : List BarMsg} (h : Stays s t) : Stays s (t.barTests home bar ms) := by
  unfold State.barTests
  split
  · exact h
  · exact h.foldl fun k => by
      split
      · split
        · extract_lets x a
          exact .ite k.barrierTrap k.poolPut32.retestWaitm.barrierDone
        · exact k
      · exact .ite k.poolPut32.barrierDone k
      · exact k

theorem execBarrierEvent_stays (core bar n : Nat) (s : State) : OutStays s (execBarrierEvent core bar n s) := by
  have h := Stays.refl s
  unfold execBarrierEvent
  extract_lets k ms s1
  have h1 : Stays s s1 := h.setCore
  exact .ite h (.ite h.due h1.barArrivals.barInits.barTests)

theorem execBarrierRelease_stays (core bar : Nat) (s : State) : OutStays s (execBarrierRelease core bar s) := by
  have h := Stays.refl s
  exact Stays.ite h.due h.setCore.dropReadCopies

/-- R98: the device itself writes memory, and the parity of what it writes. -/
theorem Stays.rawPut (h : Stays s t) : Stays s (t.rawPut pa bs) := by
  unfold State.rawPut
  extract_lets it u
  have hu : Keeps t u := .parityOf ..
  exact ((h.keeps hu).setMem fun w => applyItem_wf _ _ (hu.mem ▸ w)).elsewhere

theorem Stays.writeBar {base : Nat} {x : Barrier} (h : Stays s t) : Stays s (t.writeBar base bar x) := h.rawPut

theorem Stays.arriveOther (h : Stays s t) : Stays s (t.arriveOther team b) := by
  unfold State.arriveOther
  split
  · exact h
  · refine .ite h ?_
    extract_lets bar k
    split
    · extract_lets x r s1
      have h1 : Stays s s1 := h.writeBar
      refine .ite h (.ite ?_ h1)
      split
      · split
        · exact h1.foldl fun k => k.foldl fun k => by
            extract_lets a m
            exact .ite k.rawPut k
        · exact h1
      · exact h1
    · exact h.setCore.due

end

end Sys2Proof.Machine
end

section
/-! LEMMAS. The engines' operations keep the device as an event must: COPY, GATHER, collectives, REDN, ENQ and MCAST. -/
set_option Elab.async false

namespace Sys2Proof.Machine

section
variable {s t : State} {c part n id die q : Nat} {o : Op} {g : CollGroup} {bs : List Byte}

/-! ## COPY and GATHER -/

theorem Stays.copyRun (h : Stays s t) : Stays s (t.copyRun id o) := by
  unfold State.copyRun
  extract_lets c total ps
  exact .ite h.setOp.due (.ite h.register.due h.movePieces)

theorem execCopy_stays (id : Nat) (s : State) : OutStays s (execCopy id s) := by
  have h := Stays.refl s
  unfold execCopy
  split
  · exact h
  · exact .ite (h.leaveWith fun k => .ite k.setOp.due k.finishOp) (.ite h.copyRun h)

theorem execCopyRetire_stays (id : Nat) (s : State) : OutStays s (execCopyRetire id s) := by
  have h := Stays.refl s
  unfold execCopyRetire
  split
  · exact .ite h.finishOp h
  · exact h

theorem execFollowOnMma_stays (id : Nat) (s : State) : OutStays s (execFollowOnMma id s) := by
  have h := Stays.refl s
  unfold execFollowOnMma
  split
  · extract_lets c k
    refine .ite h (.ite h.due ?_)
    split
    · exact .ite h.due h.setCore.due
    · exact h.finishOp
  · exact h

/-- What an operation reads at virtual addresses is there and not poisoned, or it waits or fails. -/
theorem Stays.opVreads {rs : List (Nat × Nat)} {again : Instr} {k : State → State} (h : Stays s t) (hk : ∀ {u}, Stays s u → Stays s (k u)) :
    Stays s (t.opVreads id o n rs again k) := h.opReads fun h => .ite h.finishOp (hk h)

theorem Stays.gatherLeave {x : GatherCmd} (h : Stays s t) : Stays s (t.gatherLeave id x o) := h.opVreads fun h => by
  extract_lets idx
  split
  · exact h.finishOp
  · exact h.engineWalk.due
  · exact .ite h.setOp.due h.finishOp

theorem execGather_stays (id : Nat) (s : State) : OutStays s (execGather id s) := by
  have h := Stays.refl s
  unfold execGather
  split
  · exact h
  · extract_lets c total ps
    exact .ite (h.leaveWith fun k => k.gatherLeave) (.ite (.ite h.finishOp (.ite h.register.due h.movePieces)) h)

/-! ## Collectives -/

theorem Stays.contribute {r key : Nat} (h : Stays s t) : Stays s (t.contribute id o g r key bs) := h.sendPacket.due

theorem collRun_stays (id : Nat) (self : Instr) (given : List (List Byte)) (s : State) : OutStays s (collRun id self given s) := by
  have h := Stays.refl s
  unfold collRun
  split
  · exact h
  · extract_lets c g sz rs others kept srcLen total n seg len part
    refine .ite (h.leaveWith fun k => k.setOp.due) (.ite (.ite h.finishOp (.ite h.due (h.opVreads fun h => ?_))) h)
    extract_lets bs items s1
    have h1 : Stays s s1 := h.foldl fun k => k.contribute
    exact h1.elsewhere.offerUnit

theorem Stays.sendHeld {rank : Nat} (h : Stays s t) : Stays s (t.sendHeld g rank) := h.foldl fun k => k.sendPacket.due

theorem collXor_stays (id : Nat) (self : Instr) (rebuild : Bool) (others : List (List Byte)) (s : State) :
    OutStays s (collXor id self rebuild others s) := by
  have h := Stays.refl s
  unfold collXor
  split
  · exact h
  · extract_lets c g stripe row role i taken o1 s1
    have h1 : Stays s s1 := h.elsewhere
    refine .ite (h.leaveWith fun k => k.setOp.due) (.ite (.ite (.ite h.due ?_) (.ite h.due ?_)) h)
    · exact Stays.finishOp (.ite h.sendHeld h)
    · split
      · exact h1.offerUnit
      · exact h1.opReads fun k => .ite k.finishOp (k.foldl fun k => k.contribute).setOp.due

/-! ## REDN -/

theorem Stays.rednCheck (h : Stays s t) : Stays s (t.rednCheck id o) := by
  unfold State.rednCheck
  split
  · extract_lets n
    split
    · exact h.finishOp
    · exact h.engineWalk.due
    · exact .ite h.setOp.due h.finishOp
  · exact h

theorem Stays.rednLeave (h : Stays s t) : Stays s (t.rednLeave id o) := by
  unfold State.rednLeave
  extract_lets pblk
  refine .ite h.rednCheck (h.opVreads fun h => ?_)
  split
  · exact h.finishOp
  · exact h.rednCheck

theorem execRedn_stays (id : Nat) (s : State) : OutStays s (execRedn id s) := by
  have h := Stays.refl s
  unfold execRedn
  split
  · exact h
  · refine .ite (h.leaveWith fun k => k.rednLeave) (.ite ?_ h)
    split
    · exact .ite h.finishOp (h.opVreads fun k => k.offerUnit)
    · exact h

/-! ## ENQ and MCAST -/

theorem Stays.setQueue {x : Queue} (h : Stays s t) : Stays s (t.setQueue q x) := h.elsewhere
theorem Stays.setWindow {x : Window} (h : Stays s t) : Stays s (t.setWindow die x) := h.elsewhere

theorem Stays.enqueue (h : Stays s t) : Stays s (t.enqueue id o) := by
  unfold State.enqueue
  extract_lets n q node
  exact .ite h.setOp.due (.ite h.finishOp (.ite h.setOp.due (h.opVreads fun k => k.setQueue.offerUnit)))

theorem execEnq_stays (id : Nat) (s : State) : OutStays s (execEnq id s) := by
  have h := Stays.refl s
  unfold execEnq
  split
  · exact h
  · exact .ite (h.leaveWith fun k => k.enqueue) (.ite (Stays.ite h.finishOp h.enqueue) h)

theorem Stays.mcastAway {x : McastCmd} {u : State} (h : Stays s t) (hu : t.mcastAway id o x = some u) : Stays s u := by
  unfold State.mcastAway at hu
  split at hu
  · cases hu
  · split at hu
    · cases hu; exact h.foldl fun k => k.sendPacket
    · split at hu
      · cases hu; exact h
      · cases hu

theorem Stays.mcastBegin (h : Stays s t) : Stays s (t.mcastBegin id o bs) := by
  unfold State.mcastBegin
  extract_lets c bound ts s1 skipped
  have h1 : Stays s s1 := h.foldl fun k => k.setCore
  split
  case h_1 hu => exact (h.mcastAway hu).due
  · exact .ite h.due h1.setOp.due

theorem Stays.mcastLand (h : Stays s t) : Stays s (t.mcastLand id o) := by
  unfold State.mcastLand
  extract_lets c
  split
  · extract_lets s1 w
    have h1 : Stays s s1 := h.foldl fun k => by
      split
      · exact k.poolPut
      · exact k
    exact h1.setWindow.finishOp
  · exact h

theorem Stays.multicast (h : Stays s t) : Stays s (t.multicast id o) := .ite h.finishOp (h.opVreads fun k => k.mcastBegin)

theorem execMcast_stays (id : Nat) (s : State) : OutStays s (execMcast id s) := by
  have h := Stays.refl s
  unfold execMcast
  split
  · exact h
  · exact .ite (h.leaveWith fun k => k.multicast) (.ite h.mcastLand h)

end

end Sys2Proof.Machine
end

section
/-! LEMMAS. Searches, updates and publications of an Index keep the device as an event must. -/
set_option Elab.async false

namespace Sys2Proof.Machine

section
variable {s t : State} {n id src home before index : Nat} {o : Op} {x : Search}

/-! ## Searches -/

theorem Stays.setSearch (h : Stays s t) : Stays s (t.setSearch n x) := h.elsewhere
theorem Stays.setIndex {y : Index} (h : Stays s t) : Stays s (t.setIndex n y) := h.elsewhere

theorem Stays.slotServed {y : Index} {ids : List Nat} {k : Nat} (h : Stays s t) : Stays s (t.slotServed id y ids k) := by
  unfold State.slotServed
  extract_lets u
  have hu : Stays s u := h.unparkReq
  split
  · exact hu.tagOp
  · exact hu

theorem Stays.endSearch {st snap hops : Nat} {l : List Cand} (h : Stays s t) : Stays s (t.endSearch id o st snap hops l) := by
  unfold State.endSearch
  extract_lets u o1
  have hu : Stays s u := h.unparkReq
  split
  · exact hu.offerUnit
  · exact hu.setOp.due

theorem Stays.searchStatus (h : Stays s t) : Stays s (t.searchStatus id o) := h.offerUnit

theorem Stays.sendHop {m : WalkMsg} (h : Stays s t) : Stays s (t.sendHop n src home m) := .ite h h.sendPacket

theorem Stays.posted (h : Stays s t) : Stays s (t.posted n before src x) := by
  unfold State.posted
  extract_lets ms u
  have hu : Stays s u := h.elsewhere.foldl fun k => k.sendHop
  exact hu.setSearch.due

theorem Stays.defer {m : WalkMsg} (h : Stays s t) : Stays s (t.defer n x m) := h.elsewhere.due

theorem Stays.finishSearch (h : Stays s t) : Stays s (t.finishSearch n x) := by
  unfold State.finishSearch
  split
  · exact h.setSearch.endSearch
  · exact h

theorem Stays.walkEnds (h : Stays s t) : Stays s (t.walkEnds n x) := .ite h.finishSearch h.posted

theorem Stays.walkOn (h : Stays s t) : Stays s (t.walkOn n x before) := .ite h.walkEnds h.posted

theorem Stays.searchUce (h : Stays s t) : Stays s (t.searchUce n x) := by
  unfold State.searchUce
  split
  · exact h.setSearch.endSearch
  · exact h

/-- A message of a search is served, or it waits its turn. -/
theorem State.withMsg_stays {idx : Nat} {p : WalkMsg → Bool} {k : Search → WalkMsg → State} (hk : ∀ x m, Stays s (k x m)) :
    OutStays s (s.withMsg n idx p k) := by
  have h := Stays.refl s
  unfold State.withMsg
  split
  · exact h
  · extract_lets c
    refine .ite h ?_
    split
    · exact Stays.ite (hk ..) h.defer
    · exact h

/-- What a search reads of slots is there and not poisoned, or it waits or fails. -/
theorem Stays.slotReads {m : WalkMsg} {ids : List Nat} {k : State → State} (h : Stays s t) (hk : ∀ {u}, Stays s u → Stays s (k u)) :
    Stays s (t.slotReads n x m ids k) := by
  unfold State.slotReads
  extract_lets ix
  split
  · exact (h.keeps (.await ..)).defer
  · exact .ite h.searchUce (hk h.slotServed)

theorem srchLeave_stays (h : Stays s t) : Stays s (srchLeave t o).1 := by
  unfold srchLeave
  split
  · exact h
  · exact h

theorem Stays.startSearch (h : Stays s t) : Stays s (t.startSearch id o) := by
  unfold State.startSearch
  extract_lets c x early len
  refine .ite h.endSearch ?_
  split
  · exact h.engineWalk.due
  · exact h.endSearch
  · extract_lets o1
    refine .ite h.endSearch ?_
    split
    · exact h.engineWalk.due
    · exact h.endSearch
    · exact h.opReads fun k => .ite k.endSearch k.setOp.walkOn

theorem execSrch_stays (id : Nat) (s : State) : OutStays s (execSrch id s) := by
  have h := Stays.refl s
  unfold execSrch
  show Stays s _
  split
  · exact .ite (.ite h.searchStatus h) (h.leaveThen srchLeave_stays fun k => k.startSearch)
  · exact h

theorem execScoreRequest_stays (n idx : Nat) (s : State) : OutStays s (execScoreRequest n idx s) := State.withMsg_stays fun x m => by
  split
  · exact (Stays.refl s).slotReads fun k => k.posted
  · exact .refl s

theorem execExpandRequest_stays (n idx : Nat) (s : State) : OutStays s (execExpandRequest n idx s) := State.withMsg_stays fun x m => by
  split
  · exact (Stays.refl s).slotReads fun k => k.posted
  · exact .refl s

theorem execScoreReply_stays (n idx : Nat) (s : State) : OutStays s (execScoreReply n idx s) := State.withMsg_stays fun x m => by
  split
  · exact (Stays.refl s).walkOn
  · exact .refl s

theorem execExpandReply_stays (n idx : Nat) (s : State) : OutStays s (execExpandReply n idx s) := State.withMsg_stays fun x m => by
  split
  · exact (Stays.refl s).walkOn
  · exact .refl s

theorem execRefineRequest_stays (n idx : Nat) (s : State) : OutStays s (execRefineRequest n idx s) := State.withMsg_stays fun x m => by
  split
  · exact (Stays.refl s).slotReads fun k => k.posted
  · exact .refl s

theorem execRefineReply_stays (n idx : Nat) (s : State) : OutStays s (execRefineReply n idx s) := State.withMsg_stays fun x m => by
  have h := Stays.refl s
  split
  · exact .ite h.setSearch.finishSearch h.setSearch
  · exact h

theorem execMerge_stays (n : Nat) (s : State) : OutStays s (execMerge n s) := by
  have h := Stays.refl s
  unfold execMerge
  split
  · exact h
  · extract_lets s1 gone l s2
    have h2 : Stays s s2 := h.elsewhere
    exact .ite h.due (.ite h.elsewhere (.ite h.due h2.sendPacket))

/-! ## Updates and publications -/

theorem Stays.updRun {self : Instr} (h : Stays s t) : Stays s (t.updRun id o self) := by
  unfold State.updRun
  extract_lets c x pa ins del v reads
  refine .ite h.due ?_
  split
  · exact (h.keeps (.await ..)).due
  · refine h.opVreads fun k => ?_
    extract_lets u
    have hu : Stays s u := k.slotServed
    refine .ite hu.finishOp (.ite ?_ (.ite hu.finishOp (.ite (.ite hu.finishOp hu.offerUnit) (.ite hu.finishOp hu.offerUnit))))
    exact .ite hu.finishOp (.ite hu.setOp.due (.ite hu.offerUnit (.ite hu.offerUnit hu.finishOp)))

theorem updWord_stays (id : Nat) (self : Instr) (s : State) : OutStays s (updWord id self s) := by
  have h := Stays.refl s
  unfold updWord
  split
  · exact h
  · extract_lets c
    refine .ite ?_ (.ite h.updRun h)
    refine h.leaveThen (fun k => k) fun k => k.translateWith fun k => ?_
    split
    · exact k.finishOp
    · exact k.engineWalk.due
    · exact k.setOp.due

theorem execReclaimInsert_stays (id : Nat) (s : State) : OutStays s (execReclaimInsert id s) := by
  have h := Stays.refl s
  unfold execReclaimInsert
  split
  · exact .ite h (.ite h.setOp.due h.due)
  · exact h

theorem publLeave_stays (h : Stays s t) : Stays s (publLeave id t o).1 := by
  unfold publLeave
  split
  · exact h
  · split
    · exact h
    · exact h.elsewhere.due

theorem execPubl_stays (id : Nat) (s : State) : OutStays s (execPubl id s) :=
  (Stays.refl s).leaveThen publLeave_stays fun k => k.translateWith fun k => .ite k.finishOp k.setOp

theorem execPublication_stays (index : Nat) (s0 : State) : OutStays s0 (execPublication index s0) := by
  unfold execPublication
  extract_lets s mine best x s1 done s2
  have h : Stays s0 s := (Stays.refl s0).elsewhere
  have h2 : Stays s0 s2 := h.elsewhere.foldl fun k => by
    split
    · exact .ite k.finishOp k.setOp
    · exact k
  exact .ite h (.ite h.due (Stays.ite h2 h2.due))

theorem Stays.settleIndex (h : Stays s t) : Stays s (t.settleIndex n) := .ite h.setIndex h

end

end Sys2Proof.Machine
end

section
/-! LEMMAS. Queue nodes, Kernels and their Teams keep the device as an event must. -/
set_option Elab.async false

namespace Sys2Proof.Machine

section
variable {s t : State} {n id kid gid tid c core die q seq st ctx part : Nat} {o : Op} {nd : Node} {k : Kernel} {w : Want}

/-! ## Nodes -/

theorem Stays.setNode (h : Stays s t) : Stays s (t.setNode nd) := h.elsewhere

theorem Stays.endNode (h : Stays s t) : Stays s (t.endNode q seq st) := by
  unfold State.endNode
  split
  · exact .ite h.setNode.due h
  · exact h

theorem Stays.setCtx {x : Ctx} (h : Stays s t) : Stays s (t.setCtx c x) := h.keeps (.setCtx ..)

theorem Stays.settleCtx (h : Stays s t) : Stays s (t.settleCtx ctx) := by
  unfold State.settleCtx
  extract_lets c
  split
  · exact h.keeps (.settleSuspend ..)
  · exact .ite (h.setCtx.keeps (.writeFault ..)) h
  · exact h

theorem Stays.afterOp (h : Stays s t) : Stays s (t.afterOp id o) := by
  unfold State.afterOp
  extract_lets c x s1 s2
  have h1 : Stays s s1 := .ite (.ite h.elsewhere.due h.elsewhere) h
  have h2 : Stays s s2 := by
    unfold s2
    split
    · exact h1.endNode
    · exact h1
  split
  · exact h2.due
  · exact h2

theorem execOperationComplete_stays (id : Nat) (s : State) : OutStays s (execOperationComplete id s) := by
  have h := Stays.refl s
  unfold execOperationComplete
  split
  · exact h
  · extract_lets s1 s2 s3 s4
    have h1 : Stays s s1 := by
      refine .ite ?_ h
      split
      · exact h.arriveOther
      · exact h
    have h2 : Stays s s2 := h1.setTimeline
    have h3 : Stays s s3 := h2.elsewhere
    have h4 : Stays s s4 := h3.afterOp
    refine .ite h (Stays.settleCtx ?_)
    split
    · exact h4.settleIndex
    · exact h4

theorem Stays.nodeWalk {va : Nat} {acc : AccKind} (h : Stays s t) : Stays s (t.nodeWalk nd va acc) :=
  .ite h.setNode (h.setNode.keeps (.askWalk ..))

theorem Stays.poolNode (h : Stays s t) : Stays s (t.poolNode nd) := .ite h.setNode.due h

theorem Stays.skipAfter (h : Stays s t) : Stays s (t.skipAfter q seq n) := by
  unfold State.skipAfter
  extract_lets x s1
  have h1 : Stays s s1 := h.setQueue
  exact .ite h (h1.foldl fun k => .ite k.endNode k)

theorem Stays.readPredicate (h : Stays s t) : Stays s (t.readPredicate nd) := by
  unfold State.readPredicate
  extract_lets settle again
  have hs (st : Nat) (b : Bool) : Stays s (settle st b) := .ite h.setNode h.setNode.skipAfter
  split
  · exact h.nodeWalk.due
  · exact hs ..
  · split
    · exact (h.keeps (.await ..)).due
    · exact .ite (hs ..) (hs ..)

theorem Stays.admitNode (h : Stays s t) : Stays s (t.admitNode nd) := by
  unfold State.admitNode
  refine .ite h ?_
  split
  · exact h.endNode
  · split
    · exact h.endNode
    · split
      · exact h.endNode
      · refine .ite h (.ite ?_ h.poolNode)
        extract_lets s1
        have h1 : Stays s s1 := h.readPredicate
        split
        · exact .ite h1.poolNode h1
        · exact h1

theorem Stays.admitAll (h : Stays s t) : Stays s t.admitAll := h.foldl fun k => by
  split
  · exact k.admitNode
  · exact k

theorem Stays.startNode (h : Stays s t) : Stays s (t.startNode nd) := h.sampled.setNode.admitAll

/-! ## Kernels and gangs -/

theorem Stays.setKernel (h : Stays s t) : Stays s (t.setKernel kid k) := h.elsewhere

theorem Stays.modKernel {f : Kernel → Kernel} (h : Stays s t) : Stays s (t.modKernel kid f) := by
  unfold State.modKernel
  split
  · exact h.setKernel
  · exact h

theorem Stays.setGang {g : Gang} (h : Stays s t) : Stays s (t.setGang kid gid g) := h.modKernel

theorem Stays.newGang (h : Stays s t) : Stays s (State.gangFor.newGang t kid c k).2 := h.elsewhere.setGang.due

theorem Stays.gangFor {again : Option Nat} (h : Stays s t) : Stays s (t.gangFor kid c again).2 := by
  unfold State.gangFor
  split
  · exact h
  · split
    · exact h
    · split
      · split
        · exact h.setGang
        · exact h.newGang
      · exact h.newGang

theorem Stays.emptyCore (h : Stays s t) : Stays s (t.emptyCore c) := h.keeps (.emptyCore ..)

theorem Stays.reserveCores {cs : List Nat} {again : Option Nat} (h : Stays s t) : Stays s (t.reserveCores kid cs again) := by
  unfold State.reserveCores
  extract_lets r
  have hr : Stays s r.2 := h.gangFor
  exact hr.foldl fun k => by
    split
    · refine .ite k ?_
      split
      · exact k.emptyCore.setCore.setGang.due
      · exact k
    · exact k

theorem execCoreLoad_stays (kid c : Nat) (s : State) : OutStays s (execCoreLoad kid c s) := by
  have h := Stays.refl s
  unfold execCoreLoad
  extract_lets k
  split
  · exact h
  · extract_lets s1 x1 x2 s2
    have h1 : Stays s s1 := h.dropReadCopies.setCore_wf fun _ => rfl
    have h2 : Stays s s2 := h1.elsewhere.setKernel
    exact .ite h (.ite h.due h2.due)

/-! ## Groups and Teams -/

theorem Memory.foldl_wf {α : Type} {f : Memory → α → Memory} (hf : ∀ m a, m.wf = true → (f m a).wf = true) (xs : List α) {m : Memory}
    (h : m.wf = true) : (xs.foldl f m).wf = true := by
  induction xs generalizing m with
  | nil => exact h
  | cons a xs ih => exact ih (hf m a h)

theorem Stays.formGroup {mk : Making} {index : Nat} {role : Role} (h : Stays s t) : Stays s (t.formGroup mk c index role) := by
  unfold State.formGroup
  split
  · extract_lets l rb core live made words pool1 pool2 start g s1 s2
    have hpool1 : core.pool.wf = true → pool1.wf = true := fun w => Memory.foldl_wf (fun m e => Memory.put_wf _ _) _ (Memory.clear_wf _ _ w)
    have hpool2 : core.pool.wf = true → pool2.wf = true := fun w =>
      Memory.foldl_wf (fun m e => Memory.foldl_wf (fun m e => Memory.put_wf _ _) _) _ (hpool1 w)
    have h1 : Stays s s1 := h.setCore_wf hpool2
    have h2 : Stays s s2 := h1.elsewhere.setKernel
    exact h2.openChunk
  · exact h

theorem Stays.holdRecords {ids : List Nat} (h : Stays s t) : Stays s (t.holdRecords die tid ids) := h.elsewhere

theorem Stays.formTeam {cs : List Nat} {room : Room} (h : Stays s t) : Stays s (t.formTeam kid k w cs room) := by
  unfold State.formTeam
  extract_lets l home r tid cont shared xyz e r2 s1 core pool bars rings s2 mk n per s3 s4
  have hr : Stays s r.2 := h.gangFor
  have h1 : Stays s s1 := hr.elsewhere
  have h2 : Stays s s2 := h1.setCore_wf fun w => Memory.put_wf _ _ (Memory.put_wf _ _ (Memory.clear_wf _ _ w))
  have h3 : Stays s s3 := h2.foldl fun k => k.formGroup
  have h4 : Stays s s4 := h3.modKernel
  split
  · exact h4.holdRecords
  · exact h4

theorem Stays.forceAll (h : Stays s t) : Stays s (t.forceAll kid) := h.elsewhere

theorem Stays.tryForm (h : Stays s t) : Stays s (t.tryForm kid k w).1 := by
  unfold State.tryForm
  split
  · exact h.formTeam
  · exact h.reserveCores
  · exact h

theorem Stays.popAgain (h : Stays s t) : Stays s (t.popAgain kid gid) := by
  unfold State.popAgain
  split
  · exact h.setGang.modKernel.endGang
  · exact h

theorem Stays.unforce {rs : List (Nat × ContRec)} (h : Stays s t) : Stays s (t.unforce kid die rs) := h.elsewhere

/-- The left state of a choice of two pairs. -/
theorem Stays.ite_fst {p : Prop} [Decidable p] {α : Type} {x y : State × α} (hx : Stays s x.1) (hy : Stays s y.1) :
    Stays s (if p then x else y).1 := by
  split
  · exact hx
  · exact hy

theorem Stays.foldl_fst {α β : Type} {f : State × β → α → State × β} {l : List α} {x : State × β} (h : Stays s x.1)
    (hf : ∀ {y a}, Stays s y.1 → Stays s (f y a).1) : Stays s (l.foldl f x).1 := by
  induction l generalizing x with
  | nil => exact h
  | cons a l ih => exact ih (hf h)

theorem Stays.formNext (h : Stays s t) : Stays s (t.formNext kid k).1 := by
  unfold State.formNext
  extract_lets r0 r
  have hr : Stays s r.1 := by
    unfold r
    split
    · exact .ite_fst h.tryForm.popAgain h.tryForm
    · exact .ite_fst (.ite_fst h.tryForm.modKernel h.tryForm) h
  refine .ite_fst hr (hr.foldl_fst fun k => .ite_fst k ?_)
  split
  · refine .ite_fst ?_ k.tryForm
    split
    · exact k.tryForm.unforce
    · exact k.tryForm
  · exact k

theorem Stays.dropIdle (h : Stays s t) : Stays s (t.dropIdle kid) := by
  unfold State.dropIdle
  split
  · exact h.foldl fun k => (k.foldl fun k => .ite k.dropImage k).endGang
  · exact h

theorem execTeamFormation_stays (kid : Nat) (s0 : State) : OutStays s0 (execTeamFormation kid s0) := by
  have h0 := Stays.refl s0
  unfold execTeamFormation
  split
  · exact h0
  · extract_lets s
    have h : Stays s0 s := .ite h0.forceAll h0
    exact .ite (Stays.ite h.due h) (.ite h.dropIdle.due (.ite h.due h.formNext.due))

/-! ## The dispatch of Kernels -/

theorem Stays.launchKernel {l : Launch} {code : List Tlb} (h : Stays s t) : Stays s (t.launchKernel part nd l code) := by
  unfold State.launchKernel
  extract_lets ctx kid k s1
  have h1 : Stays s s1 := h.elsewhere.setKernel
  split
  · exact h1.startNode.reserveCores.due
  · exact h.due

theorem Stays.checkKernel (h : Stays s t) : Stays s (t.checkKernel part nd) := by
  unfold State.checkKernel
  extract_lets ctx fail
  have hf (st : Nat) : Stays s (fail st) := h.startNode.endNode.due
  split
  · exact h.nodeWalk.due
  · exact hf _
  · split
    · exact (h.keeps (.await ..)).due
    · extract_lets bs l
      refine .ite (hf _) ?_
      split
      · exact hf _
      · split
        · exact h.nodeWalk.due
        · exact hf _
        · split
          · exact (h.keeps (.await ..)).due
          · refine .ite (hf _) ?_
            split
            · exact hf _
            · exact h.launchKernel

theorem execKernelDispatch_stays (part : Nat) (s : State) : OutStays s (execKernelDispatch part s) := by
  have h := Stays.refl s
  unfold execKernelDispatch
  extract_lets ns
  split
  · exact h.checkKernel
  · exact h

theorem execGathererTimeout_stays (die kid entry : Nat) (s : State) : OutStays s (execGathererTimeout die kid entry s) := by
  have h := Stays.refl s
  unfold execGathererTimeout
  split
  · exact h
  · extract_lets d ws last part s1
    have h1 : Stays s s1 := h.elsewhere
    exact .ite h (.ite h1.due h.due)

end

end Sys2Proof.Machine
end

section
/-! LEMMAS. The end, preemption and restoring of Kernels, and the queues' nodes, keep the device as an event must. -/
set_option Elab.async false

namespace Sys2Proof.Machine

section
variable {s t : State} {n kid gid c core slot q seq st ctx part cl : Nat} {nd : Node} {k : Kernel}

/-! ## The end of a Kernel -/

theorem execContRoomReserve_stays (c slot : Nat) (s : State) : OutStays s (execContRoomReserve c slot s) := by
  have h := Stays.refl s
  unfold execContRoomReserve
  split
  · exact h
  · split
    · exact h
    · exact .ite h (.ite (h.keeps (.reserveRoom ..)) h.due)

theorem Stays.demote (h : Stays s t) : Stays s (t.demote ctx n) := h.elsewhere

theorem Stays.kernelDone (h : Stays s t) : Stays s (t.kernelDone kid k st) := (h.elsewhere.keeps (.pruneHeirs _)).endNode

theorem execKernelComplete_stays (kid : Nat) (s : State) : OutStays s (execKernelComplete kid s) := by
  have h := Stays.refl s
  unfold execKernelComplete
  split
  · exact h
  · extract_lets s1 s2 s3
    have h1 : Stays s s1 := h.dropIdle.modKernel
    have h2 : Stays s s2 := h1.foldl fun k => k.foldl fun k => k.checkIn
    have h3 : Stays s s3 := .ite h.demote h
    exact .ite h2.due (.ite (.ite h.due h3.kernelDone.settleCtx) h)

theorem execKernelStopped_stays (kid : Nat) (s : State) : OutStays s (execKernelStopped kid s) := by
  have h := Stays.refl s
  unfold execKernelStopped
  split
  · exact h
  · extract_lets s1
    have h1 : Stays s s1 := h.elsewhere
    exact .ite h (.ite h.due h1.kernelDone.settleCtx)

/-! ## Preemption -/

theorem Stays.mapImages {f : Image → Image} (h : Stays s t) : Stays s (t.mapImages kid gid f) := h.modKernel

theorem Stays.haltGroup (h : Stays s t) : Stays s (t.haltGroup c slot) := by
  unfold State.haltGroup
  split
  · exact h
  · extract_lets s1
    have h1 : Stays s s1 := .ite (h.squash.foldl fun k => k.releaseSolo) (.ite h.squash h)
    exact h1.modGroup

theorem Stays.preemptGang (h : Stays s t) : Stays s (t.preemptGang kid gid) := by
  unfold State.preemptGang
  split
  · exact h
  · extract_lets s1 s2 s3
    have h1 : Stays s s1 := h.foldl fun k => .ite (k.foldl fun k => k.haltGroup) k
    have h3 : Stays s s3 := h1.mapImages.elsewhere
    exact .ite h3.due h

theorem Stays.preempt (h : Stays s t) : Stays s (t.preempt kid gid) := h.foldl fun k => k.preemptGang

theorem Stays.preemptCore (h : Stays s t) : Stays s (t.preemptCore c) := h.foldl fun k => k.preempt

theorem execQuantumExpiry_stays (kid gid : Nat) (s : State) : OutStays s (execQuantumExpiry kid gid s) := by
  have h := Stays.refl s
  unfold execQuantumExpiry
  split
  · exact .ite h.due (.ite h.preempt.due h.setGang.due)
  · exact h

/-! ## Saving and restoring -/

theorem Stays.saveImage {lrva : Nat} {i : Image} (h : Stays s t) : Stays s (t.saveImage ctx lrva i) := by
  unfold State.saveImage
  extract_lets k base s1 s2
  have h2 : Stays s s2 := h.rawPut.foldl fun k => k.rawPut
  exact h2.rawPut.foldl fun k => k.rawPut

theorem Stays.saveHeirs {x : Nat × Nat} (h : Stays s t) : Stays s (t.saveHeirs x) := h.elsewhere

theorem execImageSaveComplete_stays (kid gid : Nat) (s : State) : OutStays s (execImageSaveComplete kid gid s) := by
  have h := Stays.refl s
  unfold execImageSaveComplete
  split
  · extract_lets again s1 s2 s3 s4
    have h1 : Stays s s1 := h.dropReadCopies.foldl fun k => k.saveImage
    have h3 : Stays s s3 := h1.mapImages.elsewhere
    have h4 : Stays s s4 := (h3.saveHeirs.foldl fun k => k.emptyCore).keeps (.freeRings _)
    exact .ite h (.ite h.due (.ite (h.foldl fun k => k.checkIn).due h4.settleCtx.due))
  · exact h

theorem Stays.takeCores {x : Nat × Nat} (h : Stays s t) : Stays s (t.takeCores cl x) := by
  unfold State.takeCores
  split
  · extract_lets s1 s2
    have h2 : Stays s s2 := Stays.mapImages (h.foldl fun k => k.emptyCore.setCore)
    refine Stays.due ?_
    split
    · exact h2.setGang.modKernel
    · exact h2
  · exact h

theorem execImageRestore_stays (kid gid target : Nat) (s : State) : OutStays s (execImageRestore kid gid target s) := by
  have h := Stays.refl s
  unfold execImageRestore
  split
  · exact .ite h (.ite (h.foldl fun k => k.takeCores) h.due)
  · exact h

theorem Stays.loadImage {i : Image} (h : Stays s t) : Stays s (t.loadImage kid gid k i) := by
  unfold State.loadImage
  extract_lets base p old bars slots rings groups s1
  have h1 : Stays s s1 := h.setCore_wf fun _ => Memory.ofList_wf ..
  refine h1.foldl fun k => ?_
  extract_lets s2 s3
  have h2 : Stays s s2 := k.openChunk
  have h3 : Stays s s3 := .ite h2.modGroup.due h2
  exact h3.deliverCap.due

theorem Stays.moveHeirs (h : Stays s t) : Stays s (t.moveHeirs kid gid cl) := by
  unfold State.moveHeirs
  extract_lets mine s1
  have h1 : Stays s s1 := h.elsewhere
  exact h1.foldl fun k => k.foldl fun k => k.setCore

theorem Stays.mergeGang (h : Stays s t) : Stays s (t.mergeGang kid gid cl) := by
  unfold State.mergeGang
  split
  · split
    · exact h.elsewhere
    · exact h
  · exact h

theorem execRestoreComplete_stays (kid gid : Nat) (s : State) : OutStays s (execRestoreComplete kid gid s) := by
  have h := Stays.refl s
  unfold execRestoreComplete
  split
  · extract_lets s1 s2 s3
    have h1 : Stays s s1 := h.dropReadCopies.foldl fun k => k.loadImage
    have h3 : Stays s s3 := h1.mapImages.elsewhere
    exact .ite h (.ite h.due h3.moveHeirs.mergeGang)
  · exact h

theorem execDebugResume_stays (c slot : Nat) (s : State) : OutStays s (execDebugResume c slot s) := by
  have h := Stays.refl s
  unfold execDebugResume
  split
  · exact h
  · split
    · exact h.modGroup.openChunk
    · exact h

/-! ## The active set -/

theorem execActiveSetLeave_stays (c slot : Nat) (s : State) : OutStays s (execActiveSetLeave c slot s) := by
  have h := Stays.refl s
  unfold execActiveSetLeave
  extract_lets k again
  split
  · exact h
  · have ha (i : Option Nat) : Stays s (again i) := h.setCore.due
    refine .ite (ha _) ?_
    split
    · exact ha _
    · exact .ite h.setCore h.due

theorem execActiveSetPinExpiry_stays (s : State) : OutStays s (execActiveSetPinExpiry s) := by
  unfold execActiveSetPinExpiry
  extract_lets s1
  have h1 : Stays s s1 := (Stays.refl s).mapCores fun _ => rfl
  exact Stays.ite h1.due h1

theorem execYieldDemotionEnd_stays (c slot : Nat) (s : State) : OutStays s (execYieldDemotionEnd c slot s) := by
  have h := Stays.refl s
  unfold execYieldDemotionEnd
  split
  · exact .ite h h.due
  · exact h

/-! ## Queues -/

theorem Stays.deviceUnit {its : List BufItem} {op : Option Nat} (h : Stays s t) : Stays s (t.deviceUnit part its op) := h.keeps (.deviceUnit ..)
theorem Stays.touch (h : Stays s t) : Stays s (t.touch n) := h.keeps (.touch ..)

theorem Stays.queueWords (h : Stays s t) : Stays s (t.queueWords n) := h.deviceUnit.touch

theorem Stays.haltQueue (h : Stays s t) : Stays s (t.haltQueue n st) := .ite h.setQueue.queueWords h

theorem Stays.await {r : Req} (h : Stays s t) : Stays s (t.await n r) := h.keeps (.await ..)

theorem execTailWrite_stays (n : Nat) (s : State) : OutStays s (execTailWrite n s) := by
  have h := Stays.refl s
  unfold execTailWrite
  extract_lets q t d s1
  have h1 : Stays s s1 := h.setQueue
  exact .ite h (.ite h.await.due (.ite h.haltQueue.deviceUnit (.ite h (.ite h1.haltQueue h1.due))))

theorem execNodeFetch_stays (n : Nat) (s : State) : OutStays s (execNodeFetch n s) := by
  have h := Stays.refl s
  unfold execNodeFetch
  extract_lets q seq tail pa node skips s1 s2
  refine .ite h (.ite h.haltQueue (.ite h ?_))
  split
  · exact h.await.due
  · have h1 : Stays s s1 := h.elsewhere.setQueue.queueWords
    have h2 : Stays s s2 := .ite h1.endNode h1.admitNode
    exact h2.touch.due

theorem Stays.advanceDone {fuel : Nat} (h : Stays s t) : Stays s (t.advanceDone n fuel) := by
  induction fuel generalizing t with
  | zero => exact h
  | succ f ih =>
    unfold State.advanceDone
    extract_lets q seq
    split
    · exact .ite (ih h.elsewhere.setQueue) h
    · exact h

theorem Stays.settleQueue (h : Stays s t) : Stays s (t.settleQueue n) := by
  unfold State.settleQueue
  extract_lets q s1
  have h1 : Stays s s1 := h.setQueue.queueWords
  exact .ite (Stays.admitAll h1.elsewhere) h

theorem Stays.releaseHeld (h : Stays s t) : Stays s (t.releaseHeld q seq) := h.foldl fun k => by
  refine .ite ?_ k
  refine k.modKernel.mapCores fun e => ?_
  split <;> rfl

theorem execNodeComplete_stays (n seq : Nat) (s : State) : OutStays s (execNodeComplete n seq s) := by
  have h := Stays.refl s
  unfold execNodeComplete
  split
  · exact h
  · extract_lets q pa s1 s2 s3 code s4
    have h1 : Stays s s1 := h.deviceUnit.touch
    have h3 : Stays s s3 := h1.setNode.advanceDone.queueWords
    have h4 : Stays s s4 := .ite h3.haltQueue h3
    exact .ite h (.ite h.due h4.releaseHeld.admitAll.settleQueue.due)

theorem execJoinNode_stays (q seq : Nat) (s : State) : OutStays s (execJoinNode q seq s) := by
  have h := Stays.refl s
  unfold execJoinNode
  split
  · exact h
  · exact .ite h (.ite h.startNode.endNode h.due)

theorem execConditionalNode_stays (q seq : Nat) (s : State) : OutStays s (execConditionalNode q seq s) := by
  have h := Stays.refl s
  unfold execConditionalNode
  split
  · exact h
  · exact .ite h.admitNode (.ite h (.ite h.startNode.endNode h.due))

theorem execTimedNodeExpiry_stays (q seq : Nat) (s : State) : OutStays s (execTimedNodeExpiry q seq s) := by
  have h := Stays.refl s
  unfold execTimedNodeExpiry
  split
  · exact h
  · exact .ite h (.ite (Stays.ite h.startNode h).due (.ite h.endNode h.due))

theorem execTimedHoldLoad_stays (q seq : Nat) (s : State) : OutStays s (execTimedHoldLoad q seq s) := by
  have h := Stays.refl s
  unfold execTimedHoldLoad
  split
  · exact h
  · refine .ite h (.ite h.due ?_)
    split
    · exact Stays.ite h (.ite h.endNode h.due)
    · exact .ite (Stays.ite h.setNode.poolNode h.setNode.due) (Stays.ite h h.endNode)

theorem execWaittWake_stays (c slot : Nat) (s : State) : OutStays s (execWaittWake c slot s) := by
  have h := Stays.refl s
  unfold execWaittWake
  split
  · exact h
  · exact .ite h.modGroup (Stays.ite h.due h)

theorem Stays.engineImage (h : Stays s t) : Stays s (t.engineImage nd core) := by
  unfold State.engineImage
  extract_lets ctx q again
  split
  · exact h.nodeWalk.due
  · exact h.endNode
  · split
    · exact h.await.due
    · refine .ite h.endNode ?_
      split
      · exact h.endNode
      · exact h.enter

theorem execEngineNodeTake_stays (q seq : Nat) (s : State) : OutStays s (execEngineNodeTake q seq s) := by
  have h := Stays.refl s
  unfold execEngineNodeTake
  split
  · exact h
  · refine .ite h (.ite h.due ?_)
    split
    · exact Stays.endNode (.ite h.startNode h)
    · exact .ite (Stays.engineImage (.ite h.startNode h)) h.due

end

end Sys2Proof.Machine
end

section
/-! LEMMAS. Host windows and their commands, translation and its faults, and migrations keep the device as an event must. -/
set_option Elab.async false

namespace Sys2Proof.Machine

/-- Descriptors of which none is refused are as many as their images. -/
theorem filterMap_id_length {α β : Type} {f : α → Option β} {l : List α} (h : ¬ (l.map f).any (fun d => d.isNone) = true) :
    ((l.map f).filterMap id).length = l.length := by
  rw [List.filterMap_length_eq_length.mpr, List.length_map]
  intro d hd
  cases d with
  | some x => rfl
  | none => exact absurd (List.any_eq_true.mpr ⟨none, hd, rfl⟩) h

section
variable {s t : State} {n id c slot die st ctx part gr code : Nat} {o : Op} {nd : Node} {bs : List Byte}

/-! ## Windows -/

theorem Stays.setCapture {x : Capture} (h : Stays s t) : Stays s (t.setCapture die n x) := h.elsewhere

theorem Stays.startCommand (h : Stays s t) : Stays s (t.startCommand die) := .ite h h.elsewhere

theorem Stays.answer (h : Stays s t) : Stays s (t.answer die st bs) := h.elsewhere

theorem Stays.continueAs (h : Stays s t) : Stays s (t.continueAs die code) := h.elsewhere

theorem withCommand_stays {f : Nat → Window → State → State} (hf : ∀ die, Stays s (f die (s.window die) s)) :
    OutStays s (withCommand code f s) := by
  unfold withCommand
  split
  · exact hf _
  · exact .refl s

theorem execRegisterWrite_stays (die off size value : Nat) (s : State) : OutStays s (execRegisterWrite die off size value s) := by
  have h := Stays.refl s
  unfold execRegisterWrite
  extract_lets w old new i old' new' n s1
  have h1 : Stays s s1 := h.setCapture
  refine .ite h (.ite h.setWindow (.ite (Stays.ite h.startCommand h) (.ite h.setWindow (.ite (.ite h h.setWindow) (.ite h.setWindow ?_)))))
  exact .ite (Stays.ite h1.due h1) h

theorem execTdnextWrite_stays (die : Nat) (word : TdWord) (s : State) : OutStays s (execTdnextWrite die word s) :=
  OutStays.ite (Stays.refl s) (Stays.refl s).elsewhere

theorem execTdstatDiscClear_stays (die value : Nat) (s : State) : OutStays s (execTdstatDiscClear die value s) := (Stays.refl s).elsewhere

theorem execMcskipClear_stays (die value : Nat) (s : State) : OutStays s (execMcskipClear die value s) := (Stays.refl s).setWindow

/-- R408: the lease period is set within its bounds. -/
theorem execLperiodWrite_stays (die value : Nat) (s : State) : OutStays s (execLperiodWrite die value s) := by
  unfold execLperiodWrite
  extract_lets mins
  split
  case isTrue hm =>
    simp only [Bool.and_eq_true, decide_eq_true_eq] at hm
    obtain ⟨⟨_, hlo⟩, hhi⟩ := hm
    exact ⟨fun ⟨mem, caps, map, parts, records, _, _⟩ => ⟨mem, caps, map, parts, records, hlo, hhi⟩, id⟩
  case isFalse => exact .refl s

theorem execXflgWrite_stays (die value : Nat) (s : State) : OutStays s (execXflgWrite die value s) := by
  have h := Stays.refl s
  exact OutStays.ite h.setWindow.due h

theorem execXfheadWrite_stays (die value : Nat) (s : State) : OutStays s (execXfheadWrite die value s) := by
  have h := Stays.refl s
  exact OutStays.ite h.setWindow.due h

theorem execCaptureClear_stays (die unit : Nat) (s : State) : OutStays s (execCaptureClear die unit s) := (Stays.refl s).setCapture

theorem execMonitorSample_stays (die unit : Nat) (sample : Int) (s : State) : OutStays s (execMonitorSample die unit sample s) := by
  have h := Stays.refl s
  exact Stays.ite h.setCapture h

theorem execNclEnumeration_stays (base : Nat) (s : State) : OutStays s (execNclEnumeration base s) := by
  have h := Stays.refl s
  exact Stays.ite h.elsewhere h

theorem execHostRead_stays (req : HostReq) (n : Nat) (s : State) : OutStays s (execHostRead req n s) := by
  have h := Stays.refl s
  unfold execHostRead
  extract_lets pa off
  refine .ite h.elsewhere (.ite h (.ite h.elsewhere ?_))
  split
  · exact h.due
  · split
    · exact h.await.due
    · exact h.elsewhere

/-! ## Contexts -/

theorem execCreate_stays (s : State) : OutStays s (execCreate s) := withCommand_stays fun die => by
  have h := Stays.refl s
  refine .ite h.answer ?_
  split
  · exact h.setCtx.answer
  · exact h.answer

theorem execRead_stays (s : State) : OutStays s (execRead s) := withCommand_stays fun _ => (Stays.refl s).answer

theorem execSuspend_stays (s : State) : OutStays s (execSuspend s) := withCommand_stays fun die => by
  have h := Stays.refl s
  exact .ite (h.setCtx.foldl fun k => k.preemptGang).settleCtx.answer h.answer

theorem execResume_stays (s : State) : OutStays s (execResume s) := withCommand_stays fun die => by
  have h := Stays.refl s
  exact .ite h.setCtx.due.answer h.answer

theorem Stays.dropQueued (h : Stays s t) : Stays s (t.dropQueued ctx) := h.foldl fun k => by
  extract_lets s1 s2
  have h2 := Stays.elsewhere (u := s2) (t := s1) k.unregister
  split
  · exact h2.endNode
  · exact h2

theorem Stays.closeQueues (h : Stays s t) : Stays s (t.closeQueues ctx) := by
  unfold State.closeQueues
  extract_lets qs s1 s2
  have h1 : Stays s s1 := h.foldl fun k => .ite k k.setQueue.queueWords
  have h2 : Stays s s2 := h1.foldl fun k => k.endNode
  exact h2.foldl fun k => k.settleQueue

theorem Stays.killCtx (h : Stays s t) : Stays s (t.killCtx ctx) := by
  unfold State.killCtx
  extract_lets x s1 ks s2 s3
  have h2 : Stays s s2 := Stays.dropQueued (h.setCtx.foldl fun k => k.keeps (.stopping ..))
  have h3 : Stays s s3 := h2.foldl fun k => .ite k.settleIndex k
  exact h3.closeQueues.settleCtx

theorem execKill_stays (s : State) : OutStays s (execKill s) := withCommand_stays fun die => by
  have h := Stays.refl s
  extract_lets n
  split
  · exact h.killCtx.answer
  · exact h.killCtx.answer
  · exact h.killCtx.answer
  · exact h.answer

theorem Stays.destroyCtx (h : Stays s t) : Stays s (t.destroyCtx ctx) := by
  unfold State.destroyCtx
  extract_lets qs part s1 ks s2
  have h1 : Stays s s1 := h.foldl fun k => k.elsewhere.deviceUnit.touch
  have h2 : Stays s s2 := h1.elsewhere
  exact h2.foldl fun k => .ite k.setIndex.settleIndex k

theorem Stays.dropTlb {lo len : Nat} (h : Stays s t) : Stays s (t.dropTlb ctx lo len) := by
  unfold State.dropTlb
  extract_lets ts s1
  have h1 : Stays s s1 := h.elsewhere
  exact h1.foldl fun k => k.keeps (.squashOut ..)

theorem Stays.beginInval {lo len : Nat} {but : List Nat} (h : Stays s t) : Stays s (t.beginInval die ctx lo len but).1 :=
  h.dropTlb.foldl fun k => k.checkIn

theorem execDestroy_stays (s : State) : OutStays s (execDestroy s) := by
  have h := Stays.refl s
  unfold execDestroy
  split
  · extract_lets s1
    have h1 : Stays s s1 := h.elsewhere
    exact Stays.ite h1.destroyCtx.answer h1.answer
  · split
    · extract_lets n r
      have hr : Stays s r.1 := h.beginInval
      exact .ite h.answer (Stays.ite hr.destroyCtx.answer hr.elsewhere.continueAs.due)
    · exact Stays.ite h.due h

/-! ## Queues and Indexes -/

theorem execQopen_stays (s : State) : OutStays s (execQopen s) := by
  have h := Stays.refl s
  unfold execQopen
  split
  · exact Stays.ite h.answer h.due
  · exact withCommand_stays fun die => .ite h.answer (.ite h.answer h.setQueue.deviceUnit.touch.continueAs.due)

theorem execQclose_stays (s : State) : OutStays s (execQclose s) := withCommand_stays fun die => by
  have h := Stays.refl s
  exact .ite h.answer (.ite h.setQueue.queueWords.settleQueue.answer h.answer)

theorem execQresume_stays (s : State) : OutStays s (execQresume s) := withCommand_stays fun die => by
  have h := Stays.refl s
  exact .ite h.answer (.ite h.setQueue.queueWords.due.answer h.answer)

theorem execQread_stays (s : State) : OutStays s (execQread s) := withCommand_stays fun die => by
  have h := Stays.refl s
  exact .ite h.answer h.answer

theorem Stays.zeroSlots {x : Index} {g : Seg} (h : Stays s t) : Stays s (t.zeroSlots x g) := h.foldl fun k => k.deviceUnit

theorem execIcreate_stays (s : State) : OutStays s (execIcreate s) := by
  have h := Stays.refl s
  unfold execIcreate
  split
  · exact Stays.ite h.answer h.due
  · refine withCommand_stays fun die => .ite h.answer (.ite h.answer ?_)
    extract_lets i s1
    have h1 : Stays s s1 := h.setIndex.foldl fun k => k.zeroSlots
    exact .ite h1.answer h1.continueAs.due

theorem execIdestroy_stays (s : State) : OutStays s (execIdestroy s) := withCommand_stays fun die => by
  have h := Stays.refl s
  exact .ite h.setIndex.settleIndex.answer h.answer

theorem execIread_stays (s : State) : OutStays s (execIread s) := withCommand_stays fun _ => (Stays.refl s).answer

/-! ## Translation -/

theorem Stays.wakeHeld {x : Hold} (h : Stays s t) : Stays s (t.wakeHeld x) := h.mapCores fun _ => rfl

theorem Stays.unwant (h : Stays s t) : Stays s (t.unwant ctx gr) := h.elsewhere

theorem Stays.walkLeaf {w : Walk} {e : Tlb} (h : Stays s t) : Stays s (t.walkLeaf w e) := by
  unfold State.walkLeaf
  extract_lets s1 s2
  have h1 : Stays s s1 := h.elsewhere.tlbFill
  have h2 : Stays s s2 := h1.mapAllWaits
  exact .ite h2.unwant h2

theorem Stays.walkFault {acc : AccKind} {kind lvl eaddr : Nat} (h : Stays s t) : Stays s (t.walkFault ctx gr acc kind lvl eaddr) := by
  unfold State.walkFault
  extract_lets part s1 s2
  have h1 : Stays s s1 := h.elsewhere
  have h2 : Stays s s2 := h1.foldl fun k => (k.keeps (.squashOut ..)).modGroup
  exact .ite h2 h2.elsewhere

theorem execWalkComplete_stays (ctx va : Nat) (acc : AccKind) (s : State) : OutStays s (execWalkComplete ctx va acc s) := by
  have h := Stays.refl s
  unfold execWalkComplete
  split
  · exact h
  · refine .ite h.due ?_
    split
    · exact h.await.due
    · split
      · exact h.walkLeaf
      · exact h.walkFault

theorem execXfaultRecordWrite_stays (part : Nat) (s : State) : OutStays s (execXfaultRecordWrite part s) := by
  have h := Stays.refl s
  unfold execXfaultRecordWrite
  split
  · extract_lets w seq pa s1 s2
    have h2 : Stays s s2 := h.deviceUnit.touch.setWindow
    exact .ite h h2.elsewhere.due
  · exact h

theorem Stays.wakeFaulted (h : Stays s t) : Stays s (t.wakeFaulted ctx gr) := h.elsewhere.wakeHeld.unwant.due

theorem execXresolve_stays (s : State) : OutStays s (execXresolve s) := withCommand_stays fun die => by
  have h := Stays.refl s
  exact .ite h.answer (.ite h.answer (.ite h.wakeFaulted.answer h.answer))

theorem Stays.cutOp (h : Stays s t) : Stays s (t.cutOp id o st) := by
  unfold State.cutOp
  extract_lets rb o1
  refine .ite ?_ h.elsewhere.finishOp
  split
  · exact h.endSearch
  · exact h.endSearch

theorem Stays.failOp (h : Stays s t) : Stays s (t.failOp id o) := h.cutOp

theorem Stays.failNode (h : Stays s t) : Stays s (t.failNode nd) :=
  .ite h.setNode.skipAfter.admitNode (Stays.endNode (.ite h.startNode h)).admitAll

theorem execXfail_stays (s : State) : OutStays s (execXfail s) := withCommand_stays fun die => by
  have h := Stays.refl s
  extract_lets ctx va gr ops nodes gs s1 s2
  have h1 : Stays s s1 := h.foldl fun k => k.modGroup
  have h2 : Stays s s2 := h1.wakeFaulted.foldl fun k => k.failOp
  refine .ite h.answer (.ite h.answer (.ite h.answer (Stays.answer (h2.foldl fun k => ?_))))
  split
  · exact k.failNode
  · exact k

theorem Stays.startInval {w : Window} (h : Stays s t) : Stays s (t.startInval die w) := by
  unfold State.startInval
  extract_lets ctx va size r x
  have hx : Stays s x.1 := h.beginInval
  exact .ite h.answer (.ite h.answer (.ite h.answer (.ite hx.answer hx.elsewhere.continueAs.due)))

theorem execInval_stays (s : State) : OutStays s (execInval s) := by
  have h := Stays.refl s
  unfold execInval
  split
  · exact h.elsewhere.answer
  · split
    · exact h.startInval
    · exact Stays.ite h.due h

/-! ## Migrations -/

theorem execMigrate_stays (s : State) : OutStays s (execMigrate s) := withCommand_stays fun die => by
  have h := Stays.refl s
  refine .ite h.answer (.ite h.answer ?_)
  split
  · exact h.answer
  · exact .ite h.answer (.ite h.answer (.ite (h.foldl fun k => k.checkIn).continueAs.due h.elsewhere.continueAs.due))

variable {m m1 : Migration}

theorem Stays.copyFrame (h : Stays s t) : Stays s (t.copyFrame m) := h.foldl fun k => k.deviceUnit

theorem Stays.moveLeaf (h : Stays s t) : Stays s (t.moveLeaf m) := by
  unfold State.moveLeaf
  split
  · exact h.deviceUnit
  · exact h

theorem Stays.copyPoison (h : Stays s t) : Stays s (t.copyPoison m) := h.elsewhere

theorem Stays.forward (h : Stays s t) : Stays s (t.forward m) := by
  unfold State.forward
  extract_lets move s1
  have h1 : Stays s s1 := h.elsewhere
  exact (h1.foldl fun k => k.keeps (.tlbPut ..)).replay

theorem Stays.setMigration (h : Stays s t) : Stays s (t.setMigration m m1) := h.elsewhere

theorem Stays.migrationStep (h : Stays s t) : Stays s (t.migrationStep m) := by
  unfold State.migrationStep
  extract_lets again x x1 s1
  have ha {u : State} {m1 : Migration} (hu : Stays s u) : Stays s (again u m1) := hu.setMigration.due
  have hx : Stays s x.1 := h.beginInval
  have h1 : Stays s s1 := h.elsewhere
  split
  · exact ha h.copyFrame
  · exact ha h.copyPoison.moveLeaf
  · exact ha hx.elsewhere
  · exact h1.forward.answer.due

theorem execMigrationComplete_stays (die : Nat) (s : State) : OutStays s (execMigrationComplete die s) := by
  have h := Stays.refl s
  unfold execMigrationComplete
  split
  · exact h.migrationStep
  · exact Stays.ite h.due h

/-! ## The address map -/

/-- R358: a map that is judged fit is eight descriptors that pass the tests. -/
theorem State.judgeMap_legal {rs : List Region} (h : s.judgeMap bs = .inl rs) : rs.length = 8 ∧ mapOk rs = true := by
  unfold State.judgeMap at h
  extract_lets ds rs' at h
  split at h
  case isTrue => cases h
  case isFalse hnone =>
    split at h
    case isTrue => cases h
    case isFalse hok =>
      split at h
      case isTrue => cases h
      case isFalse =>
        rw [← Sum.inl.inj h]
        exact ⟨filterMap_id_length hnone, by simpa using hok⟩

/-- R358: a legal map may wait for the device to take it. -/
theorem Stays.setNewRegions {rs : List Region} (h : Stays s t) (hrs : rs.length = 8 ∧ mapOk rs = true) :
    Stays s { t with newRegions := some rs } :=
  h.trans ⟨fun ⟨mem, caps, map, parts, store⟩ => ⟨mem, caps, ⟨map.1, fun _ e => Option.some.inj e ▸ hrs⟩, parts, store⟩, id⟩

theorem execWrregion_stays (s : State) : OutStays s (execWrregion s) := withCommand_stays fun die => by
  have h := Stays.refl s
  refine .ite h.answer ?_
  split
  · exact h.await.continueAs.due
  · split
    case h_1 hrs => exact (h.setNewRegions (State.judgeMap_legal hrs)).continueAs.due
    case h_2 => exact h.answer

/-- R358: the map that waited takes effect. -/
theorem execMapTakeEffect_stays (s : State) : OutStays s (execMapTakeEffect s) := by
  have h := Stays.refl s
  unfold execMapTakeEffect
  split
  · exact h
  case h_2 rs hrs =>
    extract_lets s1
    have h1 : Stays s s1 :=
      ⟨fun ⟨mem, caps, map, parts, store⟩ => ⟨mem, caps, ⟨map.2 rs hrs, fun _ e => nomatch e⟩, parts, store⟩, fun hp => hp⟩
    refine .ite h.due ?_
    show Stays s _
    split
    · exact h1.answer
    · exact h1

/-! ## Lines and rows -/

theorem execRequestResend_stays (c slot : Nat) (s : State) : OutStays s (execRequestResend c slot s) := by
  have h := Stays.refl s
  unfold execRequestResend
  split
  · split
    · exact Stays.ite h.due h.modGroup
    · exact h
  · exact h

theorem execLineRebuild_stays (line : Nat) (bytes : List Byte) (s : State) : OutStays s (execLineRebuild line bytes s) := by
  have h := Stays.refl s
  unfold execLineRebuild
  extract_lets b s1
  have h1 : Stays s s1 := (h.setMem (Memory.put_wf _ _)).elsewhere
  exact .ite h (.ite h.due h1.replay)

theorem Stays.issueRefreshes {b : Nat} (h : Stays s t) : Stays s (t.issueRefreshes b n) := h.elsewhere

theorem execRefresh_stays (stack channel pc bank : Nat) (s : State) : OutStays s (execRefresh stack channel pc bank s) := by
  have h := Stays.refl s
  exact OutStays.ite h.issueRefreshes (.ite h.elsewhere h.due)

theorem execRefreshBackoff_stays (stack channel pc bank : Nat) (s : State) : OutStays s (execRefreshBackoff stack channel pc bank s) := by
  have h := Stays.refl s
  exact OutStays.ite h.due (.ite h.issueRefreshes h.elsewhere)

end

end Sys2Proof.Machine
end

section
/-! LEMMAS. Links, units and their leases, power, the configuration and the management port keep the device as an event must. -/
set_option Elab.async false

namespace Sys2Proof.Machine

section
variable {s t : State} {n c slot die ctx l u p reason bin detail src dst seq payload : Nat} {o : Op} {bs : List Byte}

/-! ## Records, capacity and Links -/

/-- R417: a record is kept while there is room for it. -/
theorem Stays.addRecord (h : Stays s t) : Stays s (t.addRecord u reason bin detail) := by
  unfold State.addRecord
  split
  · exact h.elsewhere
  case isFalse hroom =>
    refine h.trans ⟨fun ⟨mem, caps, map, parts, _, lperiod⟩ => ⟨mem, caps, map, parts, ?_, lperiod⟩, fun hp => hp⟩
    rw [List.length_append]
    exact Nat.lt_of_not_le hroom

theorem Stays.setUnit {x : HUnit} (h : Stays s t) : Stays s (t.setUnit u x) := h.elsewhere
theorem Stays.setLink {x : Link} (h : Stays s t) : Stays s (t.setLink l x) := h.elsewhere
theorem Stays.addScore (h : Stays s t) : Stays s (t.addScore u n) := h.keeps (.addScore ..)

theorem Stays.capToGroup {v : Nat} (h : Stays s t) : Stays s (t.capToGroup v c slot) := by
  unfold State.capToGroup
  split
  · exact .ite h.modGroup.deliverCap h.modGroup
  · exact h

theorem Stays.changeCtx (h : Stays s t) : Stays s (t.changeCtx ctx) := by
  unfold State.changeCtx
  extract_lets c v s1 mine s2 gs s3
  have h1 : Stays s s1 := h.setCtx
  have h2 : Stays s s2 := .ite h1 (h1.foldl fun k => k.arriveOther)
  have h3 : Stays s s3 := h2.foldl fun k => k.capToGroup
  exact h3.elsewhere

theorem Stays.recount {before : State} (h : Stays s t) : Stays s (t.recount before) := h.foldl fun k => k.changeCtx

theorem Stays.holdCrossing (h : Stays s t) : Stays s (t.holdCrossing l) := h.elsewhere

theorem Stays.cutLink {x : LinkState} (h : Stays s t) : Stays s (t.cutLink l x) := h.holdCrossing.setLink

theorem Stays.enterLink {x : LinkState} (h : Stays s t) : Stays s (t.enterLink l x) := h.setLink.recount

theorem Stays.retireLink (h : Stays s t) : Stays s (t.retireLink l) := h.cutLink.recount

theorem Stays.retireUnit (h : Stays s t) : Stays s (t.retireUnit u reason) := by
  unfold State.retireUnit
  extract_lets x s1 s2 s3 s4
  have h1 : Stays s s1 := h.setUnit.addRecord
  have h2 : Stays s s2 := h1.elsewhere
  have h3 : Stays s s3 := by
    unfold s3
    split
    · exact h2.cutLink
    · exact h2
  exact .ite h3.recount.preemptCore h3.recount

theorem Stays.resetPartition (h : Stays s t) : Stays s (t.resetPartition p) := by
  unfold State.resetPartition
  extract_lets s1 ls s2 leased ended s3
  have h1 : Stays s s1 := h.foldl fun k => by
    split
    · exact k.killCtx
    · exact k.killCtx
    · exact k.killCtx
    · exact k
  have h2 : Stays s s2 := Stays.due (h1.foldl fun k => k.cutLink)
  have h3 : Stays s s3 := h2.foldl fun k => k.setUnit
  exact h3.due.recount

theorem execLinkLock_stays (l : Nat) (s : State) : OutStays s (execLinkLock l s) := by
  have h := Stays.refl s
  unfold execLinkLock
  extract_lets x up
  have hup : Stays s up := h.setLink.recount
  split
  · exact Stays.ite hup h
  · exact Stays.ite hup.due hup
  · exact hup
  · exact h

theorem execTrainingTimeout_stays (l : Nat) (s : State) : OutStays s (execTrainingTimeout l s) := by
  have h := Stays.refl s
  exact OutStays.ite h (.ite h.due h.enterLink.due)

theorem execTrainingRetry_stays (l : Nat) (s : State) : OutStays s (execTrainingRetry l s) := by
  have h := Stays.refl s
  exact OutStays.ite h (.ite h.due h.enterLink.due)

theorem Stays.retrain (h : Stays s t) : Stays s (t.retrain l) := h.holdCrossing.enterLink.due

theorem execFlitReplay_stays (l : Nat) (s : State) : OutStays s (execFlitReplay l s) := by
  have h := Stays.refl s
  unfold execFlitReplay
  extract_lets k x same n s1
  have h1 : Stays s s1 := h.elsewhere.addScore
  exact .ite h (Stays.ite h1.retrain h1.setLink)

theorem execLockLoss_stays (l : Nat) (s : State) : OutStays s (execLockLoss l s) := by
  have h := Stays.refl s
  exact OutStays.ite h.retrain h

theorem execRetrainTimeout_stays (l : Nat) (s : State) : OutStays s (execRetrainTimeout l s) := by
  have h := Stays.refl s
  exact OutStays.ite h (.ite h.due h.cutLink.recount)

/-! ## Packets -/

theorem Stays.transmit (h : Stays s t) : Stays s (t.transmit src dst seq payload) := by
  unfold State.transmit
  refine .ite h ?_
  split
  · exact h
  · split
    · exact h.setLink
    · exact .ite h h.due

theorem execPacketArrival_stays (src dst seq payload : Nat) (s : State) : OutStays s (execPacketArrival src dst seq payload s) := by
  have h := Stays.refl s
  exact OutStays.ite h.setPair.due (.ite h.due h)

theorem execPacketAck_stays (src dst seq : Nat) (s : State) : OutStays s (execPacketAck src dst seq s) := by
  have h := Stays.refl s
  unfold execPacketAck
  extract_lets p parity holder
  split
  · exact h
  · extract_lets s1
    have h1 : Stays s s1 := h.setPair.sampled
    exact .ite h.due (Stays.ite h1.elsewhere h1)

theorem Stays.retireWay {w : List Nat} (h : Stays s t) : Stays s (t.retireWay w) := h.foldl fun k => .ite k k.retireLink.addRecord

theorem Stays.giveUp (h : Stays s t) : Stays s (t.giveUp src dst seq payload) := by
  unfold State.giveUp
  extract_lets a b s1 p s2
  have h2 : Stays s s2 := h.retireWay.setPair
  exact .ite (h.keeps (.loseModule ..)) (.ite h2.resetPartition.due h2.transmit.due)

theorem execResendTimeout_stays (src dst seq : Nat) (s : State) : OutStays s (execResendTimeout src dst seq s) := by
  have h := Stays.refl s
  unfold execResendTimeout
  extract_lets p
  split
  · exact h
  · extract_lets sent
    have hs (k : Nat) : Stays s (sent k) := h.setPair.transmit.due
    exact .ite (Stays.ite (hs _) h.due) (.ite h.due (Stays.ite h.giveUp (hs _)))

/-! ## Leases -/

theorem execLeaseDue_stays (u : Nat) (s : State) : OutStays s (execLeaseDue u s) := by
  have h := Stays.refl s
  exact OutStays.ite h (.ite h.retireUnit (.ite h (.ite h.due h.setUnit.due)))

theorem execLeasePreemptTimer_stays (s : State) : OutStays s (execLeasePreemptTimer s) := by
  unfold execLeasePreemptTimer
  extract_lets cs late s1
  have h1 : Stays s s1 := (Stays.refl s).foldl fun k => k.preemptCore
  exact Stays.ite h1 h1.due

theorem execLeaseTestingStart_stays (u : Nat) (s : State) : OutStays s (execLeaseTestingStart u s) := by
  have h := Stays.refl s
  exact OutStays.ite h (.ite h.due (.ite h.elsewhere h.setUnit.recount))

theorem Stays.leaseEnds {f : HUnit → HUnit} (h : Stays s t) : Stays s (t.leaseEnds u f) := h.setUnit.recount.due

theorem Stays.patternFailed (h : Stays s t) : Stays s (t.patternFailed u) := h.setUnit

theorem execPatternComplete_stays (u passBin : Nat) (s : State) : OutStays s (execPatternComplete u passBin s) := by
  have h := Stays.refl s
  unfold execPatternComplete
  extract_lets x failed s1 s1' y s2
  have hf : Stays s failed := h.patternFailed
  have h2 : Stays s s2 := hf.addRecord.setUnit
  refine .ite h (.ite h.retireUnit ?_)
  split
  · exact .ite hf.retireUnit (.ite h.setUnit.addRecord.leaseEnds h.leaseEnds)
  · exact .ite h.leaseEnds (.ite hf.retireUnit (Stays.ite h2.retireUnit h2))
  · exact .ite h.setUnit hf.retireUnit
  · exact .ite h.leaseEnds hf.retireUnit

theorem execPatrolComplete_stays (u : Nat) (rows : List Nat) (s0 : State) : OutStays s0 (execPatrolComplete u rows s0) := by
  have h0 := Stays.refl s0
  unfold execPatrolComplete
  extract_lets x met s mine y s1
  have h : Stays s0 s := .ite h0 h0.addScore
  have h1 : Stays s0 s1 := h.setUnit
  exact .ite h0 (.ite h.leaseEnds h1.elsewhere.due)

theorem execRowRepair_stays (u row : Nat) (s : State) : OutStays s (execRowRepair u row s) := by
  have h := Stays.refl s
  unfold execRowRepair
  extract_lets s1
  have h1 : Stays s s1 := h.elsewhere.replay
  exact .ite h (.ite h.due (Stays.ite h1.leaseEnds h1))

theorem execScoreHalving_stays (s : State) : OutStays s (execScoreHalving s) := by
  have h := Stays.refl s
  exact OutStays.ite h.due h.elsewhere.due

theorem execScorePersist_stays (s : State) : OutStays s (execScorePersist s) := by
  have h := Stays.refl s
  exact OutStays.ite h.due h.elsewhere.due

theorem execWatchdogExpiry_stays (die : Nat) (stack : Option Nat) (s : State) : OutStays s (execWatchdogExpiry die stack s) := by
  have h := Stays.refl s
  unfold execWatchdogExpiry
  split
  · exact h
  · refine Stays.foldl h fun k => ?_
    extract_lets s1 o
    have h1 := Stays.elsewhere (u := s1) k
    refine .ite h1.cutOp ?_
    split
    · exact h1.endSearch
    · exact h1.finishOp

theorem execReadrec_stays (s : State) : OutStays s (execReadrec s) := withCommand_stays fun die => by
  have h := Stays.refl s
  exact .ite h.answer h.answer

theorem execReadunit_stays (s : State) : OutStays s (execReadunit s) := withCommand_stays fun die => by
  have h := Stays.refl s
  exact .ite h.answer h.answer

/-! ## Power -/

/-- R36: power changes, and its caps stay legal. -/
theorem Stays.setPower {x : Power} (h : Stays s t)
    (hx : t.CapsLegal → capOk x.hostCap = true ∧ capOk x.mgmtCap = true ∧ capOk x.cap = true) : Stays s { t with power := x } :=
  h.trans ⟨fun ⟨mem, caps, map, parts, store⟩ => ⟨mem, hx caps, map, parts, store⟩, fun hp => hp⟩

/-- R71: a reset of the main domain leaves host memory, the partitions and the nonvolatile store, and the rest as at reset. -/
theorem Stays.mainReset {on : Bool} (h : Stays s t) : Stays s (t.mainReset on) :=
  h.trans ⟨fun ⟨mem, _, _, parts, store⟩ => ⟨hostCells_wf mem, ⟨rfl, rfl, rfl⟩, State.reset_mapLegal, parts, store⟩,
    fun _ _ he => nomatch he⟩

theorem Stays.shutDown (h : Stays s t) : Stays s (t.shutDown reason) := h.addRecord.mainReset

theorem execInputVoltageChange_stays (mv : Nat) (s : State) : OutStays s (execInputVoltageChange mv s) := by
  unfold execInputVoltageChange
  extract_lets p b shut same p1 s1
  have h1 : Stays s s1 := (Stays.refl s).setPower fun caps => caps
  exact .ite (Stays.ite h1.mainReset h1) (.ite (Stays.ite h1.due h1) (Stays.ite h1.due h1))

theorem execPowerFaultShutdown_stays (s : State) : OutStays s (execPowerFaultShutdown s) := by
  have h := Stays.refl s
  exact OutStays.ite h (.ite h.due h.shutDown)

theorem execMainRestart_stays (s : State) : OutStays s (execMainRestart s) := by
  have h := Stays.refl s
  exact OutStays.ite h (.ite h.due h.mainReset)

theorem execThermalTrip_stays (tenths : Nat) (s : State) : OutStays s (execThermalTrip tenths s) := by
  unfold execThermalTrip
  extract_lets p s1
  have h1 : Stays s s1 := (Stays.refl s).setPower fun caps => caps
  exact .ite h1.shutDown.due h1

theorem execPowerClamp_stays (s : State) : OutStays s (execPowerClamp s) := (Stays.refl s).setPower fun caps => caps

theorem execSetcap_stays (s : State) : OutStays s (execSetcap s) := withCommand_stays fun die => by
  have h := Stays.refl s
  extract_lets x p s1
  split
  case isTrue hx =>
    have h1 : Stays s s1 := h.setPower fun ⟨_, mgmt, cap⟩ => ⟨hx, mgmt, cap⟩
    exact h1.due.answer
  case isFalse => exact h.answer

/-- R36: the lower of two legal caps is legal. -/
theorem execCapTakeEffect_stays (s : State) : OutStays s (execCapTakeEffect s) := (Stays.refl s).setPower fun ⟨host, mgmt, _⟩ => by
  refine ⟨host, mgmt, ?_⟩
  dsimp only
  rcases min_choice s.power.hostCap s.power.mgmtCap with hmin | hmin
  · rw [hmin]; exact host
  · rw [hmin]; exact mgmt

/-! ## Partitions, collective groups and time -/

/-- R272: a partition configuration that is judged fit is eight descriptors that pass the tests. -/
theorem State.judgeParts_legal {ps : List Partition} (h : s.judgeParts bs = .inl ps) :
    ps.length = 8 ∧ ps.all (partOk ps) = true ∧ partsPairs ps = true ∧ sharesOk ps = true := by
  unfold State.judgeParts at h
  extract_lets ds ps' at h
  split at h
  case isTrue => cases h
  case isFalse hok =>
    split at h
    case isTrue => cases h
    case isFalse =>
      rw [← Sum.inl.inj h]
      simp only [Bool.or_eq_true, not_or, Bool.not_eq_true', Bool.not_eq_false] at hok
      obtain ⟨⟨⟨hnone, hall⟩, hpairs⟩, hshares⟩ := hok
      exact ⟨filterMap_id_length hnone, hall, hpairs, hshares⟩

theorem Stays.setParts {ps : List Partition} (h : Stays s t)
    (hps : ps.length = 8 ∧ ps.all (partOk ps) = true ∧ partsPairs ps = true ∧ sharesOk ps = true) : Stays s (t.setParts ps) := by
  unfold State.setParts
  extract_lets s1 lost
  have h1 : Stays s s1 := h.trans ⟨fun ⟨mem, caps, map, _, store⟩ => ⟨mem, caps, map, hps, store⟩, fun hp => hp⟩
  exact h1.recount.foldl fun k => k.preemptCore

theorem execWrpart_stays (s : State) : OutStays s (execWrpart s) := withCommand_stays fun die => by
  have h := Stays.refl s
  split
  case h_1 hps => exact (h.setParts (State.judgeParts_legal hps)).answer
  case h_2 => exact h.answer

theorem execWrcgrp_stays (s : State) : OutStays s (execWrcgrp s) := withCommand_stays fun die => by
  have h := Stays.refl s
  extract_lets n
  split
  · exact h.elsewhere.answer
  · exact h.answer

theorem execPpsEdge_stays (sec ns : Nat) (narrow : Bool) (s : State) : OutStays s (execPpsEdge sec ns narrow s) := by
  have h := Stays.refl s
  unfold execPpsEdge
  extract_lets e now d r s1 s2
  have h1 : Stays s s1 := h.elsewhere
  have h2 : Stays s s2 := by
    unfold s2
    split
    · exact h1.elsewhere
    · exact h1
  exact .ite h.due (.ite h.elsewhere h2.due)

theorem execPpsLoss_stays (s : State) : OutStays s (execPpsLoss s) := by
  have h := Stays.refl s
  exact OutStays.ite h (.ite h.elsewhere (Stays.ite h h.due))

/-! ## The management port -/

theorem Stays.reply (h : Stays s t) : Stays s (t.reply bs) := h.elsewhere

theorem withMessage_stays {code : Nat} {lens : List Nat} {main : Bool} {f : List Byte → State → State} (hf : ∀ ops, Stays s (f ops s)) :
    OutStays s (withMessage code lens main f s) := by
  have h := Stays.refl s
  unfold withMessage
  split
  · exact h
  · exact .ite h (.ite h.reply (.ite h.reply (hf _)))

theorem execMgmtReadrec_stays (s : State) : OutStays s (execMgmtReadrec s) := withMessage_stays fun ops => by
  have h := Stays.refl s
  exact .ite h.reply h.reply

theorem execReadscore_stays (s : State) : OutStays s (execReadscore s) := withMessage_stays fun _ => (Stays.refl s).reply

theorem execReadmon_stays (s : State) : OutStays s (execReadmon s) := withMessage_stays fun _ => (Stays.refl s).reply

theorem execResetpart_stays (s : State) : OutStays s (execResetpart s) := withMessage_stays fun ops => by
  have h := Stays.refl s
  exact .ite h.resetPartition.reply h.reply

theorem execDump_stays (s : State) : OutStays s (execDump s) := withMessage_stays fun ops => by
  have h := Stays.refl s
  exact .ite h.elsewhere.reply h.reply

theorem execReaddump_stays (s : State) : OutStays s (execReaddump s) := withMessage_stays fun ops => by
  have h := Stays.refl s
  exact .ite h.reply h.reply

theorem execMgmtSetcap_stays (s : State) : OutStays s (execMgmtSetcap s) := withMessage_stays fun ops => by
  have h := Stays.refl s
  extract_lets x p s1
  split
  case isTrue hx =>
    have h1 : Stays s s1 := h.setPower fun ⟨host, _, cap⟩ => ⟨host, hx, cap⟩
    exact h1.due.reply
  case isFalse => exact h.reply

theorem Stays.configure {kind : Nat} (h : Stays s t) : Stays s (t.configure kind bs) := by
  unfold State.configure
  split
  · refine .ite h.reply ?_
    split
    case h_1 hps => exact (h.setParts (State.judgeParts_legal hps)).reply
    case h_2 => exact h.reply
  · refine .ite h.reply (.ite h.reply ?_)
    split
    case h_1 hrs => exact (h.setNewRegions (State.judgeMap_legal hrs)).due.reply
    case h_2 => exact h.reply
  · refine .ite h.reply ?_
    extract_lets n
    split
    · exact h.elsewhere.reply
    · exact h.reply
  · exact h.reply

theorem execWrconf_stays (s : State) : OutStays s (execWrconf s) := withMessage_stays fun _ => (Stays.refl s).configure

theorem execMgmtUnknown_stays (s : State) : OutStays s (execMgmtUnknown s) := by
  have h := Stays.refl s
  unfold execMgmtUnknown
  split
  · exact h
  · exact Stays.ite h.reply h

theorem Stays.replyFree (h : Stays s t) : Stays s t.replyFree := h.elsewhere.reply

theorem execMctpControl_stays (s : State) : OutStays s (execMctpControl s) := by
  have h := Stays.refl s
  exact Stays.ite h.replyFree h

theorem execPldmMessage_stays (s : State) : OutStays s (execPldmMessage s) := by
  have h := Stays.refl s
  exact Stays.ite h (.ite h.replyFree h.reply)

end

end Sys2Proof.Machine
end

section
/-! LEMMAS. Every step keeps the invariant: an instruction at a time, and then the step. -/
set_option Elab.async false

namespace Sys2Proof.Machine

theorem execMmaRetire_stays (c : Nat) (mismatch : Bool) (s : State) : OutStays s (execMmaRetire c mismatch s) := by
  have h := Stays.refl s
  unfold execMmaRetire
  extract_lets k s1 k1
  split
  · exact h
  · refine .ite h.due (.ite ?_ h.retireMma)
    split
    · exact h.keeps (.mismatchAt ..)
    · have h1 : Stays s s1 := h.addScore
      clear_value s1
      refine .ite h1.setCore.due ?_
      split
      · exact h1.elsewhere.setCore.due
      · exact h1.setCore

theorem execCmdUnknown_stays (s : State) : OutStays s (execCmdUnknown s) := withCommand_stays fun _ => (Stays.refl s).answer

/-- What an event does keeps the device as an event must: each event by its own lemma. -/
theorem exec_event_stays (i : Instr) (s : State) (hi : i.isCode = false) : OutStays s (exec i s) := by
  cases i <;> unfold exec
  case chunkReady => exact execChunkReady_stays ..
  case commitBatch => exact execCommitBatch_stays ..
  case signatureBroadcast => exact execSignatureBroadcast_stays ..
  case differenceApply => exact execDifferenceApply_stays ..
  case loadReturn => exact execLoadReturn_stays ..
  case mmaRetire => exact execMmaRetire_stays ..
  case stwLanding => exact execStwLanding_stays ..
  case rwrLanding => exact execRwrLanding_stays ..
  case kWrite => exact execKWrite_stays ..
  case ringAtCommit => exact execRingAtCommit_stays ..
  case barrierEvent => exact execBarrierEvent_stays ..
  case barrierRelease => exact execBarrierRelease_stays ..
  case fenceWaitEnd => exact execFenceWaitEnd_stays ..
  case nclAck => exact execNclAck_stays ..
  case hostWrite => exact execHostWrite_stays ..
  case hostRead => exact execHostRead_stays ..
  case parityDifference => exact execParityDifference_stays ..
  case parityAck => exact execParityAck_stays ..
  case copy => exact execCopy_stays ..
  case copyRetire => exact execCopyRetire_stays ..
  case followOnMma => exact execFollowOnMma_stays ..
  case gather => exact execGather_stays ..
  case collRs | collAg => exact collRun_stays ..
  case collXorrs | collXorrb => exact collXor_stays ..
  case srch => exact execSrch_stays ..
  case scoreRequest => exact execScoreRequest_stays ..
  case expandRequest => exact execExpandRequest_stays ..
  case scoreReply => exact execScoreReply_stays ..
  case expandReply => exact execExpandReply_stays ..
  case refineRequest => exact execRefineRequest_stays ..
  case refineReply => exact execRefineReply_stays ..
  case merge => exact execMerge_stays ..
  case updInsert | updDelete | updLink => exact updWord_stays ..
  case reclaimInsert => exact execReclaimInsert_stays ..
  case publ => exact execPubl_stays ..
  case publication => exact execPublication_stays ..
  case redn => exact execRedn_stays ..
  case enq => exact execEnq_stays ..
  case mcast => exact execMcast_stays ..
  case operationComplete => exact execOperationComplete_stays ..
  case contRoomReserve => exact execContRoomReserve_stays ..
  case gathererTimeout => exact execGathererTimeout_stays ..
  case teamFormation => exact execTeamFormation_stays ..
  case debugResume => exact execDebugResume_stays ..
  case activeSetLeave => exact execActiveSetLeave_stays ..
  case yieldDemotionEnd => exact execYieldDemotionEnd_stays ..
  case kernelDispatch => exact execKernelDispatch_stays ..
  case coreLoad => exact execCoreLoad_stays ..
  case kernelComplete => exact execKernelComplete_stays ..
  case kernelStopped => exact execKernelStopped_stays ..
  case quantumExpiry => exact execQuantumExpiry_stays ..
  case imageSaveComplete => exact execImageSaveComplete_stays ..
  case imageRestore => exact execImageRestore_stays ..
  case restoreComplete => exact execRestoreComplete_stays ..
  case migrationComplete => exact execMigrationComplete_stays ..
  case tdnextWrite => exact execTdnextWrite_stays ..
  case tdstatDiscClear => exact execTdstatDiscClear_stays ..
  case mcskipClear => exact execMcskipClear_stays ..
  case lperiodWrite => exact execLperiodWrite_stays ..
  case xflgWrite => exact execXflgWrite_stays ..
  case xfheadWrite => exact execXfheadWrite_stays ..
  case captureClear => exact execCaptureClear_stays ..
  case registerWrite => exact execRegisterWrite_stays ..
  case tailWrite => exact execTailWrite_stays ..
  case nodeFetch => exact execNodeFetch_stays ..
  case nodeComplete => exact execNodeComplete_stays ..
  case engineNodeTake => exact execEngineNodeTake_stays ..
  case joinNode => exact execJoinNode_stays ..
  case conditionalNode => exact execConditionalNode_stays ..
  case timedNodeExpiry => exact execTimedNodeExpiry_stays ..
  case timedHoldLoad => exact execTimedHoldLoad_stays ..
  case waittWake => exact execWaittWake_stays ..
  case ppsEdge => exact execPpsEdge_stays ..
  case walkComplete => exact execWalkComplete_stays ..
  case xfaultRecordWrite => exact execXfaultRecordWrite_stays ..
  case requestResend => exact execRequestResend_stays ..
  case lineRebuild => exact execLineRebuild_stays ..
  case refresh => exact execRefresh_stays ..
  case refreshBackoff => exact execRefreshBackoff_stays ..
  case linkLock => exact execLinkLock_stays ..
  case trainingTimeout => exact execTrainingTimeout_stays ..
  case trainingRetry => exact execTrainingRetry_stays ..
  case flitReplay => exact execFlitReplay_stays ..
  case lockLoss => exact execLockLoss_stays ..
  case retrainTimeout => exact execRetrainTimeout_stays ..
  case packetArrival => exact execPacketArrival_stays ..
  case packetAck => exact execPacketAck_stays ..
  case resendTimeout => exact execResendTimeout_stays ..
  case leaseDue => exact execLeaseDue_stays ..
  case leaseTestingStart => exact execLeaseTestingStart_stays ..
  case patternComplete => exact execPatternComplete_stays ..
  case patrolComplete => exact execPatrolComplete_stays ..
  case rowRepair => exact execRowRepair_stays ..
  case monitorSample => exact execMonitorSample_stays ..
  case inputVoltageChange => exact execInputVoltageChange_stays ..
  case thermalTrip => exact execThermalTrip_stays ..
  case watchdogExpiry => exact execWatchdogExpiry_stays ..
  case wordNotInstruction => exact (execWordNotInstruction_keeps ..).stays
  case nclEnumeration => exact execNclEnumeration_stays ..
  case fusedSoftmax => exact (execFusedSoftmax_keeps s).stays
  case create => exact execCreate_stays ..
  case read => exact execRead_stays ..
  case suspend => exact execSuspend_stays ..
  case resume => exact execResume_stays ..
  case kill => exact execKill_stays ..
  case destroy => exact execDestroy_stays ..
  case qopen => exact execQopen_stays ..
  case qclose => exact execQclose_stays ..
  case qresume => exact execQresume_stays ..
  case qread => exact execQread_stays ..
  case icreate => exact execIcreate_stays ..
  case idestroy => exact execIdestroy_stays ..
  case iread => exact execIread_stays ..
  case inval => exact execInval_stays ..
  case migrate => exact execMigrate_stays ..
  case xresolve => exact execXresolve_stays ..
  case xfail => exact execXfail_stays ..
  case wrpart => exact execWrpart_stays ..
  case wrregion => exact execWrregion_stays ..
  case mapTakeEffect => exact execMapTakeEffect_stays ..
  case wrcgrp => exact execWrcgrp_stays ..
  case setcap => exact execSetcap_stays ..
  case capTakeEffect => exact execCapTakeEffect_stays ..
  case readrec => exact execReadrec_stays ..
  case readunit => exact execReadunit_stays ..
  case cmdUnknown => exact execCmdUnknown_stays ..
  case ppsLoss => exact execPpsLoss_stays ..
  case scoreHalving => exact execScoreHalving_stays ..
  case scorePersist => exact execScorePersist_stays ..
  case powerFaultShutdown => exact execPowerFaultShutdown_stays ..
  case mainRestart => exact execMainRestart_stays ..
  case powerClamp => exact execPowerClamp_stays ..
  case mgmtReadrec => exact execMgmtReadrec_stays ..
  case readscore => exact execReadscore_stays ..
  case readmon => exact execReadmon_stays ..
  case resetpart => exact execResetpart_stays ..
  case dump => exact execDump_stays ..
  case readdump => exact execReaddump_stays ..
  case mgmtSetcap => exact execMgmtSetcap_stays ..
  case wrconf => exact execWrconf_stays ..
  case mgmtUnknown => exact execMgmtUnknown_stays ..
  case mctpControl => exact execMctpControl_stays ..
  case pldmMessage => exact execPldmMessage_stays ..
  case codeFetchFault => exact (execCodeFetchFault_keeps s).stays
  case soloTimeout => exact execSoloTimeout_stays ..
  case activeSetPinExpiry => exact execActiveSetPinExpiry_stays ..
  case leasePreemptTimer => exact execLeasePreemptTimer_stays ..
  all_goals exact absurd hi.symm Bool.false_ne_true

theorem exec_stays (i : Instr) (s : State) : OutStays s (exec i s) := by
  cases hi : i.isCode with
  | true => exact (exec_code_keeps i s hi).stays
  | false => exact exec_event_stays i s hi

/-- One step keeps the invariant: time passes, an agent is chosen, and its instruction keeps it. -/
theorem step_stays {s t : State} (h : step s = .next t) : Stays s t := by
  have hpick : Stays s.tick s.pick.1 := (Keeps.pick s).stays
  have htick : Stays s s.tick := ⟨tick_inv, tick_pools⟩
  refine (htick.trans hpick).trans ?_
  unfold step at h
  split at h
  case h_1 => cases h
  case h_2 =>
    split at h
    case h_1 u i hp =>
      have hx := exec_stays i u
      rw [h] at hx
      rwa [hp]
    case h_2 u hp =>
      cases h
      rw [hp]
      exact .refl _

/-- Settles O58: time, the choice of the agent and every instruction keep the invariant. -/
theorem stepKeepsInv : Obligations.StepKeepsInv := fun _ _ hi h => (step_stays h).inv hi

end Sys2Proof.Machine
end

section
/-! LEMMAS. Rounding to a format (R41, R42, R44): what the kept bits are among the multiples of their last place, what codes stand for, and
that every finite value lies on the grid of those multiples. -/
set_option Elab.async false

namespace Sys2Proof.Machine

/-! ## Values at a scale -/

/-- The magnitude m * 2^e as a multiple of 2^z, for z ≤ e. -/
def scaled (z : Int) (m : Nat) (e : Int) : Nat := m * 2 ^ (e - z).toNat

theorem scaled_add {z q : Int} (h : z ≤ q) (m i : Nat) : scaled z m (q + i) = m * 2 ^ i * 2 ^ (q - z).toNat := by
  have hx : (q + i - z).toNat = i + (q - z).toNat := by omega
  rw [scaled, hx, Nat.pow_add, Nat.mul_assoc]

/-! ## Rounding to multiples -/

/-- The modes that round the magnitude of a sign toward zero, and those that round it away from zero (R44). -/
def Rm.Down (rm : Rm) (s : Bool) : Prop := rm = .rtz ∨ (rm = .rdn ∧ s = false) ∨ (rm = .rup ∧ s = true)
def Rm.Up (rm : Rm) (s : Bool) : Prop := (rm = .rdn ∧ s = true) ∨ (rm = .rup ∧ s = false)

/-- k * Q is what v rounds to among the multiples of Q. -/
structure RoundsTo (rm : Rm) (s : Bool) (v Q k : Nat) : Prop where
  below : v < k * Q + Q
  above : k * Q < v + Q
  down : rm.Down s → k * Q ≤ v
  up : rm.Up s → v ≤ k * Q
  near : rm = .rne ∨ rm = .rmm → 2 * (k * Q) ≤ 2 * v + Q ∧ 2 * v ≤ 2 * (k * Q) + Q
  even : rm = .rne → 2 * (k * Q) = 2 * v + Q ∨ 2 * v = 2 * (k * Q) + Q → k % 2 = 0
  away : rm = .rmm → 2 * v < 2 * (k * Q) + Q

/-- A multiple rounds to itself. -/
theorem RoundsTo.self (rm : Rm) (s : Bool) {Q : Nat} (hQ : 0 < Q) (k : Nat) : RoundsTo rm s (k * Q) Q k := by
  constructor <;> intros <;> omega

/-- A value rounds to itself exactly when it is a multiple. -/
theorem RoundsTo.mul_eq_iff_dvd {rm : Rm} {s : Bool} {v Q k : Nat} (h : RoundsTo rm s v Q k) : k * Q = v ↔ Q ∣ v := by
  refine ⟨fun hk => hk ▸ Nat.dvd_mul_left Q k, ?_⟩
  rintro ⟨j, rfl⟩
  have hlo : Q * j < Q * (k + 1) := by have := h.below; rwa [← Nat.succ_mul, Nat.mul_comm _ Q] at this
  have hhi : Q * k < Q * (j + 1) := by have := h.above; rwa [Nat.mul_comm k Q, ← Nat.mul_succ] at this
  have hjk : j = k := by
    have := Nat.lt_of_mul_lt_mul_left hlo
    have := Nat.lt_of_mul_lt_mul_left hhi
    omega
  rw [hjk, Nat.mul_comm]

/-- The same at a finer scale. -/
theorem RoundsTo.mul {rm : Rm} {s : Bool} {v Q k E : Nat} (hE : 0 < E) (h : RoundsTo rm s v Q k) : RoundsTo rm s (v * E) (Q * E) k := by
  have e : k * (Q * E) = k * Q * E := (Nat.mul_assoc ..).symm
  have lt {a b : Nat} (hab : a < b) : a * E < b * E := Nat.mul_lt_mul_of_pos_right hab hE
  have le {a b : Nat} (hab : a ≤ b) : a * E ≤ b * E := Nat.mul_le_mul_right E hab
  have eq {a b : Nat} (hab : a * E = b * E) : a = b := Nat.eq_of_mul_eq_mul_right hE hab
  obtain ⟨below, above, down, up, near, even, away⟩ := h
  have e2 : 2 * (k * Q * E) = 2 * (k * Q) * E := (Nat.mul_assoc ..).symm
  have v2 : 2 * (v * E) = 2 * v * E := (Nat.mul_assoc ..).symm
  constructor <;> rw [e]
  · rw [← Nat.add_mul]; exact lt below
  · rw [← Nat.add_mul]; exact lt above
  · exact fun hd => le (down hd)
  · exact fun hu => le (up hu)
  · rw [e2, v2, ← Nat.add_mul, ← Nat.add_mul]
    exact fun hn => ⟨le (near hn).1, le (near hn).2⟩
  · rw [e2, v2, ← Nat.add_mul, ← Nat.add_mul]
    exact fun hn ht => even hn (ht.imp eq eq)
  · rw [e2, v2, ← Nat.add_mul]
    exact fun ha => lt (away ha)

/-- The multiple below v is what v rounds to, where the mode does not round away from zero and no nearer one lies above. -/
theorem RoundsTo.floor {rm : Rm} {s : Bool} {a r P : Nat} (hr : r < P) (hup : r = 0 ∨ ¬rm.Up s)
    (hne : rm = .rne → 2 * r < P ∨ 2 * r = P ∧ a % 2 = 0) (hmm : rm = .rmm → 2 * r < P) : RoundsTo rm s (a * P + r) P a where
  below := by omega
  above := by omega
  down _ := by omega
  up hu := by have := hup.resolve_right (not_not_intro hu); omega
  near hn := by rcases hn with hn | hn <;> [have := hne hn; have := hmm hn] <;> omega
  even hn ht := by have := hne hn; omega
  away hm := by have := hmm hm; omega

/-- The multiple above v is what v rounds to, where the mode does not round toward zero and no nearer one lies below. -/
theorem RoundsTo.ceil {rm : Rm} {s : Bool} {a r P : Nat} (h0 : 0 < r) (hr : r < P) (hdown : ¬rm.Down s)
    (hne : rm = .rne → P < 2 * r ∨ 2 * r = P ∧ a % 2 = 1) (hmm : rm = .rmm → P ≤ 2 * r) :
    RoundsTo rm s (a * P + r) P (a + 1) := by
  have ha : (a + 1) * P = a * P + P := Nat.succ_mul ..
  constructor <;> rw [ha]
  case below => omega
  case above => omega
  case down => exact fun hd => absurd hd hdown
  case up => omega
  case near => intro hn; rcases hn with hn | hn <;> [have := hne hn; have := hmm hn] <;> omega
  case even => intro hn ht; have := hne hn; omega
  case away => intro hm; have := hmm hm; omega

/-- keepAbove keeps the quotient, and compares the remainder with half. -/
theorem keepAbove_eq (m sh : Nat) :
    (keepAbove m sh false).1 = m / 2 ^ sh ∧ ((keepAbove m sh false).2.1 = true ↔ m % 2 ^ sh = 0) ∧
      (keepAbove m sh false).2.2 = compare (2 * (m % 2 ^ sh)) (2 ^ sh) := by
  unfold keepAbove
  split
  case isTrue h =>
    subst h
    exact ⟨by simp, by simp [Nat.mod_one], by rw [Nat.pow_zero, Nat.mod_one]; rfl⟩
  case isFalse h0 =>
    obtain ⟨n, rfl⟩ : ∃ n, sh = n + 1 := ⟨sh - 1, by omega⟩
    have hp : 2 ^ (n + 1) = 2 * 2 ^ n := by rw [Nat.pow_succ, Nat.mul_comm]
    split
    case isTrue hfar =>
      have hm : m < 2 ^ n := Nat.lt_of_lt_of_le Nat.lt_log2_self (Nat.pow_le_pow_right (by omega) (by omega))
      have hmod : m % 2 ^ (n + 1) = m := Nat.mod_eq_of_lt (by omega)
      rw [hmod, Nat.div_eq_of_lt (by omega), Nat.compare_eq_lt.mpr (by omega)]
      simp
    case isFalse =>
      refine ⟨rfl, by simp, ?_⟩
      simp only [Nat.add_sub_cancel, Bool.false_eq_true, if_false]
      split
      · exact (Nat.compare_eq_lt.mpr (by omega)).symm
      · split
        · exact (Nat.compare_eq_eq.mpr (by omega)).symm
        · exact (Nat.compare_eq_gt.mpr (by omega)).symm

/-- Rounding up where roundsUp says so rounds as the mode names. -/
theorem roundsTo_div (rm : Rm) (s : Bool) (m : Nat) {P : Nat} (hP : 0 < P) (exact : Bool) (hx : exact = true ↔ m % P = 0) :
    RoundsTo rm s m P (if roundsUp rm s (m / P % 2 == 1) exact (compare (2 * (m % P)) P) then m / P + 1 else m / P) := by
  have hr := Nat.mod_lt m hP
  have hm : m / P * P + m % P = m := Nat.div_add_mod' m P
  conv => arg 3; rw [← hm]
  generalize m % P = r at hr hx
  generalize m / P = a
  cases exact with
  | true =>
    have h0 : r = 0 := hx.mp rfl
    exact RoundsTo.floor hr (.inl h0) (by omega) (by omega)
  | false =>
    have h0 : 0 < r := by
      by_contra h
      exact Bool.false_ne_true (hx.mpr (by omega))
    unfold roundsUp
    cases rm with
    | rtz => exact .floor hr (.inr (by simp [Rm.Up])) nofun nofun
    | rdn => cases s with
      | false => exact .floor hr (.inr (by simp [Rm.Up])) nofun nofun
      | true => exact .ceil h0 hr (by simp [Rm.Down]) nofun nofun
    | rup => cases s with
      | false => exact .ceil h0 hr (by simp [Rm.Down]) nofun nofun
      | true => exact .floor hr (.inr (by simp [Rm.Up])) nofun nofun
    | rne =>
      have hd : ¬Rm.rne.Down s := by simp [Rm.Down]
      have hu : r = 0 ∨ ¬Rm.rne.Up s := .inr (by simp [Rm.Up])
      rcases Nat.lt_trichotomy (2 * r) P with h | h | h
      · rw [Nat.compare_eq_lt.mpr h]
        exact .floor hr hu (fun _ => .inl h) nofun
      · rw [Nat.compare_eq_eq.mpr h]
        rcases Nat.mod_two_eq_zero_or_one a with ha | ha <;> rw [ha]
        · exact .floor hr hu (fun _ => .inr ⟨h, ha⟩) nofun
        · exact .ceil h0 hr hd (fun _ => .inr ⟨h, ha⟩) nofun
      · rw [Nat.compare_eq_gt.mpr h]
        exact .ceil h0 hr hd (fun _ => .inl h) nofun
    | rmm =>
      rcases Nat.lt_or_ge (2 * r) P with h | h
      · rw [Nat.compare_eq_lt.mpr h]
        exact .floor hr (.inr (by simp [Rm.Up])) nofun (fun _ => h)
      · have hc : compare (2 * r) P ≠ .lt := fun hc => absurd (Nat.compare_eq_lt.mp hc) (by omega)
        simp only [Bool.false_eq_true, if_false, bne_iff_ne.mpr hc, if_true]
        exact .ceil h0 hr (by simp [Rm.Down]) nofun (fun _ => h)

/-- The kept number of roundAt where it discards sh bits. -/
def keptBits (rm : Rm) (s : Bool) (m sh : Nat) : Nat :=
  let (kept, exact, cmp) := keepAbove m sh false
  if roundsUp rm s (kept % 2 == 1) exact cmp then kept + 1 else kept

theorem keptBits_roundsTo (rm : Rm) (s : Bool) (m sh : Nat) : RoundsTo rm s m (2 ^ sh) (keptBits rm s m sh) := by
  obtain ⟨hk, hx, hc⟩ := keepAbove_eq m sh
  simp only [keptBits, hk, hc]
  exact roundsTo_div rm s m (Nat.two_pow_pos sh) _ hx

/-- roundAt rounds to multiples of 2^q, and says whether the value is one. -/
theorem roundAt_roundsTo (rm : Rm) (s : Bool) (m : Nat) {e q z : Int} (he : z ≤ e) (hq : z ≤ q) :
    let r := roundAt rm s m e q false
    let Q := 2 ^ (q - z).toNat
    RoundsTo rm s (scaled z m e) Q r.1 ∧ (r.2 = true ↔ r.1 * Q = scaled z m e) := by
  intro r Q
  by_cases hqe : q ≤ e
  · have hr : r = (m * 2 ^ (e - q).toNat, true) := if_pos hqe
    have hv : scaled z m e = m * 2 ^ (e - q).toNat * Q := by
      have := scaled_add hq m (e - q).toNat
      rwa [Int.toNat_of_nonneg (by omega), add_sub_cancel] at this
    rw [hr, hv]
    exact ⟨.self _ _ (Nat.two_pow_pos _) _, by simp⟩
  · have hz : (q - z).toNat = (q - e).toNat + (e - z).toNat := by omega
    have hQ : Q = 2 ^ (q - e).toNat * 2 ^ (e - z).toNat := (congrArg (2 ^ ·) hz).trans (Nat.pow_add ..)
    have hr : r = (keptBits rm s m (q - e).toNat, (keepAbove m (q - e).toNat false).2.1) := if_neg hqe
    have hkept := (keptBits_roundsTo rm s m (q - e).toNat).mul (Nat.two_pow_pos (e - z).toNat)
    rw [hQ, hr]
    refine ⟨hkept, (keepAbove_eq m _).2.1.trans ?_⟩
    rw [scaled, hkept.mul_eq_iff_dvd, Nat.mul_dvd_mul_iff_right (Nat.two_pow_pos _), Nat.dvd_iff_mod_eq_zero]

/-! ## The nearest multiple, and the neighbours -/

/-- u lies on the grid of the multiples of Q as far as v can see it: it is one, or lies below one that is not above v. -/
def OnGrid (v Q u : Nat) : Prop := ∃ j, u = j * Q ∨ u < j * Q ∧ j * Q ≤ v

/-- How far a value lies from v. -/
def farFrom (v a : Nat) : Nat := ((a : Int) - v).natAbs

/-- Among the values on the grid, what v rounds to is the value that the mode names (R44). -/
theorem RoundsTo.best {rm : Rm} {s : Bool} {v Q k u : Nat} (h : RoundsTo rm s v Q k) (hu : OnGrid v Q u) :
    (rm = .rne ∨ rm = .rmm → farFrom v (k * Q) ≤ farFrom v u) ∧
      (rm = .rne → farFrom v (k * Q) = farFrom v u → u = k * Q ∨ k % 2 = 0) ∧
      (rm = .rmm → farFrom v (k * Q) = farFrom v u → u ≤ k * Q) ∧
      (rm.Down s → u ≤ v → u ≤ k * Q) ∧ (rm.Up s → v ≤ u → k * Q ≤ u) := by
  obtain ⟨j, hj⟩ := hu
  obtain ⟨below, above, down, up, near, even, away⟩ := h
  have hjk : j * Q = k * Q ∨ j * Q + Q ≤ k * Q ∨ k * Q + Q ≤ j * Q := by
    rcases Nat.lt_trichotomy j k with hlt | rfl | hgt
    · exact .inr (.inl (by rw [← Nat.succ_mul]; exact Nat.mul_le_mul_right Q hlt))
    · exact .inl rfl
    · exact .inr (.inr (by rw [← Nat.succ_mul]; exact Nat.mul_le_mul_right Q hgt))
  generalize j * Q = x at hj hjk
  generalize k * Q = w at *
  unfold farFrom
  refine ⟨fun hn => ?_, fun hn hf => ?_, fun hm hf => ?_, fun hd huv => ?_, fun hup hvu => ?_⟩
  · have := near hn
    omega
  · have := near (.inl hn)
    have := even hn
    omega
  · have := near (.inr hm)
    have := away hm
    omega
  · have := down hd
    omega
  · have := up hup
    omega

/-! ## Formats and their codes (R41) -/

/-- A format with room for a fraction, and for more exponents than those of zero and infinity. -/
structure FloatFmt.Proper (f : FloatFmt) : Prop where
  frac : 1 ≤ f.fracBits
  exp : 2 ≤ f.expBits

theorem proper_of_named {f : FloatFmt} (h : f = fmtF32 ∨ f = fmtF16 ∨ f = fmtBf16) : f.Proper := by
  rcases h with rfl | rfl | rfl <;> exact ⟨by decide, by decide⟩

section
variable {f : FloatFmt}

theorem FloatFmt.Proper.four_le (hp : f.Proper) : 4 ≤ 2 ^ f.expBits := Nat.pow_le_pow_right (n := 2) (by decide) hp.exp

/-- The fields of a code: sign, exponent, fraction. -/
theorem fields_of_code (f : FloatFmt) (s : Bool) {c r : Nat} (hc : c < 2 ^ f.expBits) (hr : r < 2 ^ f.fracBits) :
    let x := signBit f s + (c * 2 ^ f.fracBits + r)
    x % 2 ^ f.fracBits = r ∧ x / 2 ^ f.fracBits % 2 ^ f.expBits = c ∧ (x / 2 ^ (f.fracBits + f.expBits) % 2 == 1) = s := by
  intro x
  have hx : x = ((if s then 1 else 0) * 2 ^ f.expBits + c) * 2 ^ f.fracBits + r := by
    simp only [x, signBit, Nat.pow_add]
    cases s <;> simp only [Bool.false_eq_true, if_false, if_true] <;> ring
  have hdiv : x / 2 ^ f.fracBits = (if s then 1 else 0) * 2 ^ f.expBits + c := by
    rw [hx, Nat.mul_comm, Nat.mul_add_div (Nat.two_pow_pos _), Nat.div_eq_of_lt hr, Nat.add_zero]
  refine ⟨?_, ?_, ?_⟩
  · rw [hx, Nat.mul_comm, Nat.mul_add_mod, Nat.mod_eq_of_lt hr]
  · rw [hdiv, Nat.mul_comm, Nat.mul_add_mod, Nat.mod_eq_of_lt hc]
  · rw [Nat.pow_add, ← Nat.div_div_eq_div_mul, hdiv, Nat.mul_comm, Nat.mul_add_div (Nat.two_pow_pos _), Nat.div_eq_of_lt hc]
    cases s <;> rfl

/-- The code of k * 2^(qmin + i), a subnormal where k has no leading one. -/
theorem fdecode_code (hp : f.Proper) (s : Bool) {k i : Nat} (hk : k < 2 ^ (f.fracBits + 1)) (hn : i = 0 ∨ 2 ^ f.fracBits ≤ k)
    (hi : i + 3 ≤ 2 ^ f.expBits) : fdecode f (signBit f s + (i * 2 ^ f.fracBits + k)) = .fin s k (fmtQmin f + i) := by
  have hpow := Nat.two_pow_succ f.fracBits
  have hfour := hp.four_le
  by_cases hsub : k < 2 ^ f.fracBits
  · obtain rfl : i = 0 := hn.resolve_right (by omega)
    obtain ⟨h1, h2, h3⟩ := fields_of_code f s (Nat.two_pow_pos _) hsub
    simp only [fdecode, h1, h2, h3]
    rw [if_neg (by omega), if_pos trivial, Int.natCast_zero, Int.add_zero]
  · have hc : i * 2 ^ f.fracBits + k = (i + 1) * 2 ^ f.fracBits + (k - 2 ^ f.fracBits) := by rw [Nat.succ_mul]; omega
    obtain ⟨h1, h2, h3⟩ := fields_of_code f s (c := i + 1) (r := k - 2 ^ f.fracBits) (by omega) (by omega)
    rw [hc]
    simp only [fdecode, h1, h2, h3]
    rw [if_neg (by omega), if_neg (by omega), Nat.add_sub_of_le (by omega)]
    simp

/-- Every finite value is k * 2^(qmin + i) with k and i in the range of the format. -/
theorem fdecode_fin {x m : Nat} {s : Bool} {e : Int} (hp : f.Proper) (h : fdecode f x = .fin s m e) :
    ∃ i : Nat, e = fmtQmin f + i ∧ i + 3 ≤ 2 ^ f.expBits ∧ m < 2 ^ (f.fracBits + 1) := by
  have hfour := hp.four_le
  have hpow := Nat.two_pow_succ f.fracBits
  have hfrac : x % 2 ^ f.fracBits < 2 ^ f.fracBits := Nat.mod_lt _ (Nat.two_pow_pos _)
  have hexp : x / 2 ^ f.fracBits % 2 ^ f.expBits < 2 ^ f.expBits := Nat.mod_lt _ (Nat.two_pow_pos _)
  simp only [fdecode] at h
  split at h
  · split at h <;> cases h
  · split at h
    · cases h
      exact ⟨0, by simp, by omega, by omega⟩
    · rename_i hinf hsub
      cases h
      exact ⟨x / 2 ^ f.fracBits % 2 ^ f.expBits - 1, by omega, by omega, by omega⟩

/-! ## The rounding of a format -/

/-- The number that the bits of a rounded magnitude form, from kept bits k above 2^(qmin + j); a carry out of k steps the exponent. -/
def roundedCode (f : FloatFmt) (k j : Nat) : Nat := j * 2 ^ f.fracBits + k

/-- The least number that overflows: the code of infinity. -/
def infCode (f : FloatFmt) : Nat := (2 ^ f.expBits - 1) * 2 ^ f.fracBits

/-- roundMag by the kept bits: their code with the sign, or the overflow result. -/
theorem roundMag_eq (hp : f.Proper) {rm : Rm} {s exact : Bool} {m k j : Nat} {e : Int}
    (hq : max (e + m.log2 - f.fracBits) (fmtQmin f) = fmtQmin f + j) (hr : roundAt rm s m e (fmtQmin f + j) false = (k, exact))
    (hk : k ≤ 2 ^ (f.fracBits + 1)) (hn : j = 0 ∨ 2 ^ f.fracBits ≤ k) :
    let r := roundMag f rm s m e false
    if infCode f ≤ roundedCode f k j then r.bits = overflowBits f rm s ∧ r.conds.overflow = true ∧ r.conds.inexact = true
    else r.bits = signBit f s + roundedCode f k j ∧ r.conds.overflow = false ∧ r.conds.inexact = !exact := by
  have hpow := Nat.two_pow_succ f.fracBits
  have hpos : 0 < 2 ^ f.fracBits := Nat.two_pow_pos _
  have hfour := hp.four_le
  intro r
  have hinf (c x : Nat) (hx : x < 2 ^ f.fracBits) : infCode f ≤ c * 2 ^ f.fracBits + x ↔ 2 ^ f.expBits - 1 ≤ c := by
    rw [infCode, ← Nat.le_div_iff_mul_le hpos, Nat.mul_comm c, Nat.mul_add_div hpos, Nat.div_eq_of_lt hx, Nat.add_zero]
  simp only [r, roundMag, hq, hr, roundedCode]
  have ht1 : (fmtQmin f + (j : Int) + 1 - fmtQmin f).toNat = j + 1 := by omega
  have ht0 : (fmtQmin f + (j : Int) - fmtQmin f).toNat = j := by omega
  by_cases hcarry : k = 2 ^ (f.fracBits + 1)
  · have hc : j * 2 ^ f.fracBits + k = (j + 2) * 2 ^ f.fracBits + 0 := by rw [hcarry, hpow]; ring
    simp only [hcarry, if_true, Nat.lt_irrefl, if_false, ht1]
    rw [← hcarry]
    simp only [hc, hinf _ _ hpos]
    split <;> simp
  · simp only [hcarry, if_false]
    by_cases hsub : k < 2 ^ f.fracBits
    · obtain rfl : j = 0 := hn.resolve_right (by omega)
      have hfin : ¬infCode f ≤ 0 * 2 ^ f.fracBits + k := by rw [hinf _ _ hsub]; omega
      simp only [hsub, if_true, hfin, if_false]
      simp
    · have hc : j * 2 ^ f.fracBits + k = (j + 1) * 2 ^ f.fracBits + (k - 2 ^ f.fracBits) := by rw [Nat.succ_mul]; omega
      simp only [hsub, if_false, ht0, hc, hinf _ _ (show k - 2 ^ f.fracBits < 2 ^ f.fracBits by omega)]
      split <;> simp [Nat.add_assoc]

/-- The code of a finite result stands for the kept bits, a carry included. -/
theorem fdecode_roundedCode (hp : f.Proper) (s : Bool) {k j : Nat} (hk : k ≤ 2 ^ (f.fracBits + 1)) (hn : j = 0 ∨ 2 ^ f.fracBits ≤ k)
    (hfin : roundedCode f k j < infCode f) :
    ∃ k' i : Nat, fdecode f (signBit f s + roundedCode f k j) = .fin s k' (fmtQmin f + i) ∧ k' * 2 ^ i = k * 2 ^ j := by
  have hpow := Nat.two_pow_succ f.fracBits
  have hpos : 0 < 2 ^ f.fracBits := Nat.two_pow_pos _
  have hfour := hp.four_le
  have hexp (c : Nat) (hc : c * 2 ^ f.fracBits ≤ roundedCode f k j) : c < 2 ^ f.expBits - 1 :=
    Nat.lt_of_mul_lt_mul_right (Nat.lt_of_le_of_lt hc hfin)
  by_cases hcarry : k = 2 ^ (f.fracBits + 1)
  · have hc : roundedCode f k j = (j + 1) * 2 ^ f.fracBits + 2 ^ f.fracBits := by rw [roundedCode, hcarry, hpow]; ring
    have := hexp (j + 2) (by rw [hc]; apply Nat.le_of_eq; ring)
    refine ⟨2 ^ f.fracBits, j + 1, ?_, by rw [hcarry]; ring⟩
    rw [hc]
    exact fdecode_code hp s (by omega) (.inr (Nat.le_refl _)) (by omega)
  · refine ⟨k, j, fdecode_code hp s (by omega) hn ?_, rfl⟩
    rcases hn with rfl | hn
    · omega
    · have := hexp (j + 1) (by rw [roundedCode, Nat.succ_mul]; omega)
      omega

/-- The parity of the bits of a finite result is that of the kept bits. -/
theorem roundedCode_parity (hp : f.Proper) (s : Bool) (k j : Nat) : (signBit f s + roundedCode f k j) % 2 = k % 2 := by
  obtain ⟨n, hn⟩ : ∃ n, f.fracBits = n + 1 := ⟨f.fracBits - 1, by have := hp.frac; omega⟩
  have hs : signBit f s % 2 = 0 := by
    cases s
    · rfl
    · simp [signBit, hn, Nat.add_right_comm n 1, Nat.pow_succ]
  have hj : j * 2 ^ f.fracBits % 2 = 0 := by rw [hn, Nat.pow_succ, ← Nat.mul_assoc, Nat.mul_mod_left]
  rw [roundedCode]
  omega

/-- The last place of bits that are kept above 2^(qmin + j), at a scale 2^z. -/
def place (f : FloatFmt) (z : Int) (j : Nat) : Nat := 2 ^ j * 2 ^ (fmtQmin f - z).toNat

theorem place_eq {z : Int} (hz : z ≤ fmtQmin f) (j : Nat) : 2 ^ (fmtQmin f + j - z).toNat = place f z j := by
  have hx : (fmtQmin f + j - z).toNat = j + (fmtQmin f - z).toNat := by omega
  rw [hx, Nat.pow_add, place]

theorem scaled_place {z : Int} (hz : z ≤ fmtQmin f) (m j : Nat) : scaled z m (fmtQmin f + j) = m * place f z j := by
  rw [scaled, place_eq hz]

/-- What the rounding of m * 2^e to a format keeps: k multiples of 2^(qmin + j), at a scale 2^z. -/
structure KeptBits (f : FloatFmt) (rm : Rm) (s : Bool) (m : Nat) (e z : Int) (k j : Nat) (exact : Bool) : Prop where
  scale : z ≤ fmtQmin f
  exp : max (e + m.log2 - f.fracBits) (fmtQmin f) = fmtQmin f + j
  kept : roundAt rm s m e (fmtQmin f + j) false = (k, exact)
  rounds : RoundsTo rm s (scaled z m e) (place f z j) k
  exact_iff : exact = true ↔ k * place f z j = scaled z m e
  le : k ≤ 2 ^ (f.fracBits + 1)
  normal : j = 0 ∨ 2 ^ f.fracBits ≤ k
  normal_value : j = 0 ∨ 2 ^ f.fracBits * place f z j ≤ scaled z m e

section
variable {m j : Nat} {e z : Int} (he : z ≤ e) (hz : z ≤ fmtQmin f)
  (hj : max (e + m.log2 - f.fracBits) (fmtQmin f) = fmtQmin f + j)
include he hz hj

/-- The leading one of m lies at the place of the leading kept bit or below it. -/
theorem scaled_lt_place : scaled z m e < 2 ^ (f.fracBits + 1) * place f z j := by
  calc scaled z m e < 2 ^ (m.log2 + 1) * 2 ^ (e - z).toNat := Nat.mul_lt_mul_of_pos_right Nat.lt_log2_self (Nat.two_pow_pos _)
    _ ≤ 2 ^ (f.fracBits + 1) * place f z j := by
      rw [← place_eq hz, ← Nat.pow_add, ← Nat.pow_add]
      exact Nat.pow_le_pow_right (by decide) (by omega)

/-- It lies at that place where the exponent is not the least. -/
theorem place_le_scaled (hm : 0 < m) (hpos : 0 < j) : 2 ^ f.fracBits * place f z j ≤ scaled z m e := by
  have hx : f.fracBits + (fmtQmin f + j - z).toNat = m.log2 + (e - z).toNat := by omega
  rw [← place_eq hz, ← Nat.pow_add, hx, Nat.pow_add]
  exact Nat.mul_le_mul_right _ (Nat.log2_self_le (by omega))

end

theorem exists_kept (f : FloatFmt) (rm : Rm) (s : Bool) {m : Nat} {e z : Int} (hm : 0 < m) (he : z ≤ e) (hz : z ≤ fmtQmin f) :
    ∃ k j exact, KeptBits f rm s m e z k j exact := by
  obtain ⟨j, hj⟩ : ∃ j : Nat, max (e + m.log2 - f.fracBits) (fmtQmin f) = fmtQmin f + j :=
    ⟨(e + m.log2 - f.fracBits - fmtQmin f).toNat, by omega⟩
  obtain ⟨⟨k, exact⟩, hr⟩ : ∃ r, roundAt rm s m e (fmtQmin f + j) false = r := ⟨_, rfl⟩
  obtain ⟨hrounds, hexact⟩ := roundAt_roundsTo rm s m he (q := fmtQmin f + j) (by omega)
  rw [hr, place_eq hz] at hrounds hexact
  have hge : j = 0 ∨ 2 ^ f.fracBits * place f z j ≤ scaled z m e := j.eq_zero_or_pos.imp_right (place_le_scaled he hz hj hm)
  have hlow := hrounds.below
  have hhigh := hrounds.above.trans (Nat.add_lt_add_right (scaled_lt_place he hz hj) _)
  rw [← Nat.succ_mul] at hlow hhigh
  exact ⟨k, j, exact, hz, hj, hr, hrounds, hexact, Nat.le_of_lt_succ (Nat.lt_of_mul_lt_mul_right hhigh),
    hge.imp_right fun hge => Nat.le_of_lt_succ (Nat.lt_of_mul_lt_mul_right (Nat.lt_of_le_of_lt hge hlow)), hge⟩

section
variable {rm : Rm} {s exact : Bool} {m k j : Nat} {e z : Int} (h : KeptBits f rm s m e z k j exact)
include h

/-- A finite value whose last place lies below that of the result lies below the normal numbers of the result's exponent. -/
theorem KeptBits.lt_of_lt {x i : Nat} (hx : x < 2 ^ (f.fracBits + 1)) (hij : i < j) :
    scaled z x (fmtQmin f + i) < 2 ^ f.fracBits * place f z j := by
  rw [scaled_place h.scale, place, place, ← Nat.mul_assoc, ← Nat.mul_assoc]
  refine Nat.mul_lt_mul_of_pos_right ?_ (Nat.two_pow_pos _)
  calc x * 2 ^ i < 2 ^ (f.fracBits + 1) * 2 ^ i := Nat.mul_lt_mul_of_pos_right hx (Nat.two_pow_pos _)
    _ = 2 ^ f.fracBits * 2 ^ (i + 1) := by ring
    _ ≤ 2 ^ f.fracBits * 2 ^ j := Nat.mul_le_mul_left _ (Nat.pow_le_pow_right (by decide) hij)

/-- Every finite value of the format lies on the grid on which the result was rounded. -/
theorem KeptBits.onGrid {x i : Nat} (hx : x < 2 ^ (f.fracBits + 1)) :
    OnGrid (scaled z m e) (place f z j) (scaled z x (fmtQmin f + i)) := by
  rcases Nat.lt_or_ge i j with hij | hij
  · exact ⟨2 ^ f.fracBits, .inr ⟨h.lt_of_lt hx hij, h.normal_value.resolve_left (by omega)⟩⟩
  · obtain ⟨d, rfl⟩ := Nat.exists_eq_add_of_le hij
    exact ⟨x * 2 ^ d, .inl (by rw [scaled_place h.scale, place, place]; ring)⟩

/-- Where the kept bits reach the code of infinity, every finite value lies below the rounded one. -/
theorem KeptBits.lt_of_overflow {x i : Nat} (hinf : infCode f ≤ roundedCode f k j) (hx : x < 2 ^ (f.fracBits + 1))
    (hi : i + 3 ≤ 2 ^ f.expBits) : scaled z x (fmtQmin f + i) < scaled z m e := by
  rcases Nat.lt_or_ge i j with hij | hij
  · exact Nat.lt_of_lt_of_le (h.lt_of_lt hx hij) (h.normal_value.resolve_left (by omega))
  · have hpow := Nat.two_pow_succ f.fracBits
    have hle := h.le
    have hinf' : (j + 2) * 2 ^ f.fracBits ≤ j * 2 ^ f.fracBits + k :=
      (Nat.mul_le_mul_right _ (by omega)).trans hinf
    have hk : 2 ^ (f.fracBits + 1) ≤ k := by rw [Nat.add_mul] at hinf'; omega
    have hmax : 2 ^ f.expBits - 1 ≤ j + 2 := by
      refine Nat.le_of_mul_le_mul_right (hinf.trans ?_) (Nat.two_pow_pos f.fracBits)
      rw [roundedCode, Nat.add_mul]
      omega
    obtain rfl : i = j := by omega
    have habove := h.rounds.above
    have hxk : (x + 1) * place f z i ≤ k * place f z i :=
      Nat.mul_le_mul_right _ (by omega)
    rw [Nat.succ_mul] at hxk
    rw [scaled_place h.scale]
    omega

end

end

/-- Settles O5: the kept bits round the value on a grid that holds every finite value, and the code of the result stands for them. -/
theorem floatRounding : Obligations.FloatRounding := by
  intro f rm s m e z hf hm hze hzq r at_ v far down up
  have hp := proper_of_named hf
  obtain ⟨k, j, exact, h⟩ := exists_kept f rm s hm hze hzq
  have hr := roundMag_eq hp h.exp h.kept h.le h.normal
  by_cases hinf : infCode f ≤ roundedCode f k j
  · obtain ⟨hbits, hover, hinexact⟩ := (if_pos hinf).mp hr
    refine ⟨fun hno => absurd (hno.symm.trans hover) Bool.false_ne_true, fun _ => ⟨hbits, hinexact, fun x mx ex hx => ?_⟩⟩
    obtain ⟨i, rfl, hi, hmx⟩ := fdecode_fin hp hx
    exact h.lt_of_overflow hinf hmx hi
  · obtain ⟨hbits, hover, hinexact⟩ := (if_neg hinf).mp hr
    obtain ⟨k', i, hdec, hki⟩ := fdecode_roundedCode hp s h.le h.normal (Nat.lt_of_not_le hinf)
    refine ⟨fun _ => ⟨k', fmtQmin f + i, hbits ▸ hdec, by omega, ?_⟩,
      fun hyes => absurd (hover.symm.trans hyes) Bool.false_ne_true⟩
    have hw : at_ k' (fmtQmin f + i) = k * place f z j := by
      rw [place, ← Nat.mul_assoc, ← hki]
      exact scaled_add h.scale k' i
    have hodd : r.bits % 2 = k % 2 := hbits ▸ roundedCode_parity hp s k j
    intro w
    rw [show w = _ from hw, hinexact, hodd, Bool.not_eq_false']
    refine ⟨h.exact_iff, h.rounds.down, h.rounds.up, fun x mx ex hx => ?_⟩
    obtain ⟨n, rfl, _, hmx⟩ := fdecode_fin hp hx
    exact h.rounds.best (h.onGrid hmx)

end Sys2Proof.Machine
end

section
/-! LEMMAS. Float words: their verdict by the conditions that their lanes met, and the packed words as two elements in a format. -/
set_option Elab.async false

namespace Sys2Proof.Machine

section
variable {r : Issue → State → Nat → FRes} {is : Issue} {s : State} (e : (Nat → Nat) → Eff)

/-- No lane met an enabled condition: the results are written (R45). -/
theorem floatVerdict_go (h : condsOf r is s = none) : floatVerdict is (r is s) e = .go (e fun l => (r is s l).bits) := by
  unfold condsOf at h
  rw [floatVerdict, h]

/-- A lane met an enabled condition: FPE, with the value that names the lane and the conditions (R45). -/
theorem floatVerdict_trap {v : Nat} (h : condsOf r is s = some v) : floatVerdict is (r is s) e = .trap causeFPE v := by
  unfold condsOf at h
  rw [floatVerdict, h]

end

/-- A word whose body is the float verdict on its lanes' results writes them to v(d), or traps FPE (R45). -/
theorem floatV_of_issueWord {i : Instr} {dsc : Desc} {w : Bool} {d : Nat} {r : Issue → State → Nat → FRes}
    (h : ∀ s, exec i s = issueWord dsc (fun is s => floatVerdict is (r is s) (is.vResult w d)) s) : FloatV i dsc w d r := by
  refine ⟨writesV_of_performs fun s is hi hc hroom => ?_, fun s is hi hc => ?_⟩
  · rw [h]
    exact issueWord_go hi (floatVerdict_go _ hc) hroom
  · obtain ⟨v, hv⟩ := Option.ne_none_iff_exists'.mp hc
    simp only [hv, Option.getD_some]
    exact (h s).trans (issueWord_trap hi (floatVerdict_trap _ hv))

/-- Settles O6: each word is packedTwo with its operation and its format, whose body is the float verdict on the two elements of every lane. -/
theorem packedHalves : Obligations.PackedHalves := fun _ _ _ _ =>
  ⟨floatV_of_issueWord fun _ => rfl, floatV_of_issueWord fun _ => rfl, floatV_of_issueWord fun _ => rfl,
    floatV_of_issueWord fun _ => rfl, floatV_of_issueWord fun _ => rfl, floatV_of_issueWord fun _ => rfl,
    floatV_of_issueWord fun _ => rfl, floatV_of_issueWord fun _ => rfl⟩

end Sys2Proof.Machine
end

section
/-! LEMMAS. The collectives and REDN (R243, R247, R403): what each does once its command has left, Chunk by Chunk. -/
set_option Elab.async false

namespace Sys2Proof.Machine

/-- An operation that has left no longer starts. -/
theorem not_starting_of_left {o : Op} (h : o.state = .left) : o.starting = false := by rw [Op.starting, h]; rfl

section
variable {s : State} {id : Nat} {o : Op} (ho : s.op? id = some o) (hl : o.state = .left) (hu : o.units = 0)
include ho hl hu

/-! ## rs and ag (R243) -/

section
variable (i : Instr) (rs : Bool) (hrs : (cmdVar o.cmd == 0) = rs)

/-- The bytes that rs or ag writes in all: one member's elements, or every member's (R243). -/
def collTotal (g : CollGroup) (c : CollCmd) (rs : Bool) : Nat :=
  if rs then c.count * dtSize c.dtype else g.members * (c.count * dtSize c.dtype)

omit ho hl hu in
theorem collTotal_eq (g : CollGroup) (c : CollCmd) (rs : Bool) :
    (if rs then 1 else g.members) * c.count * dtSize c.dtype = collTotal g c rs := by
  cases rs
  · exact Nat.mul_assoc ..
  · simp [collTotal]

include hrs

theorem collRun_done (given : List (List Byte)) (hp : collTotal (s.collGroup (collCmd o.cmd).cgrp) (collCmd o.cmd) rs ≤ o.pos) :
    collRun id i given s = .next (s.finishOp id o 0) := by
  simp only [collRun, ho, not_starting_of_left hl, hl, hu, hrs, collTotal_eq]
  exact if_pos hp

theorem collRun_portsDown (given : List (List Byte)) (hp : o.pos < collTotal (s.collGroup (collCmd o.cmd).cgrp) (collCmd o.cmd) rs)
    (hd : s.portsUp (s.collGroup (collCmd o.cmd).cgrp) = false) : collRun id i given s = .next (s.due [i]) := by
  simp only [collRun, ho, not_starting_of_left hl, hl, hu, hrs, collTotal_eq, hd]
  exact if_neg (Nat.not_le.mpr hp)

theorem collRun_chunk (others : List (List Byte)) (hne : others ≠ []) :
    let c := collCmd o.cmd
    let g := s.collGroup c.cgrp
    let seg := c.count * dtSize c.dtype
    let n := min collStep (collTotal g c rs - o.pos)
    let len := min n (seg - o.pos % seg)
    let part (r : Nat) : Nat := addr64 c.src (if rs then r * seg + o.pos else o.pos % seg)
    let reads := if rs then (upFrom 0 g.members).map (fun r => (part r, len)) else [(part 0, len)]
    let t := s.afterRead id o (o.pas reads)
    let bs := collBytes t o g c others n
    let u := (if rs || decide (o.pos < seg) then g.others else []).foldl (fun v r =>
      v.contribute id o g r o.pos (v.vread o.pages (part r) len)) t
    o.pos < collTotal g c rs → s.portsUp g = true → Served s id o (2 * o.pos) (o.pas reads) →
    (∀ r ∈ reads, t.vpoison o.pages r.1 r.2 = false) →
    collRun id i others s = .next ({ u with fresh := u.fresh + 8 * n }.offerUnit id
      { o with pos := o.pos + bs.length, aux := others.map ofBytes }
      ((bs.zip (upFrom (addr64 c.dst o.pos) bs.length)).map (fun x : Byte × Nat => storeItem (o.pa x.2) [x.1]))) := by
  intro c g seg n len part reads t bs u hp hup hs hq
  have hgiven : others.isEmpty = false := List.isEmpty_eq_false_iff.mpr hne
  have hmore : ¬ collTotal g c rs ≤ o.pos := Nat.not_le.mpr hp
  simp only [collRun, ho, not_starting_of_left hl, hl, hu, hrs, collTotal_eq, hgiven]
  have hopen : ¬ (!s.portsUp g) = true := by rw [hup]; exact Bool.false_ne_true
  refine (if_neg hmore).trans ((if_neg hopen).trans ?_)
  exact congrArg Host.Outcome.next (opVreads_served hs hq _ _)

end

/-! ## xorrs and xorrb (R403) -/

section
variable (i : Instr) (rebuild : Bool) (others : List (List Byte))

theorem collXor_unacked (hp : (collCmd o.cmd).count ≤ o.pos) (hc : s.contributed id o = false) :
    collXor id i rebuild others s = .next (s.due [i]) := by
  simp only [collXor, ho, not_starting_of_left hl, hl, hu, hc]
  exact if_pos hp

theorem collXor_done (hp : (collCmd o.cmd).count ≤ o.pos) (hc : s.contributed id o = true) :
    let c := collCmd o.cmd
    let g := s.collGroup c.cgrp
    collXor id i rebuild others s = .next ((if rebuild && g.self != c.lost then s.sendHeld g c.lost else s).finishOp id o 0) := by
  simp only [collXor, ho, not_starting_of_left hl, hl, hu, hc]
  exact if_pos hp

/-- A member whose own block goes to nobody writes it from those that it takes. -/
theorem collXor_writes :
    let c := collCmd o.cmd
    let g := s.collGroup c.cgrp
    let stripe := c.src + o.pos
    let row := blockG g.self stripe
    let role := collRole g.self c.lost rebuild stripe
    let taken := role.1.map (collGiven s o g.self (collTaken g.self (rebuild && g.self == c.lost) c.src stripe))
    let s1 : State := { s with fresh := s.fresh + 8 * 4096 }
    o.pos < c.count → s.portsUp g = true → role.2 = none →
    collXor id i rebuild others s = .next (s1.offerUnit id { o with pos := o.pos + 1 } (s1.blockItems stripe row (xorAll taken))) := by
  dsimp only
  intro hp hup hr
  simp only [collXor, ho, not_starting_of_left hl, hl, hu, hup, hr]
  exact if_neg (Nat.not_le.mpr hp)

/-- Else it reads its block and sends it, with those that it takes, line by line. -/
theorem collXor_sends (r : Nat) :
    let c := collCmd o.cmd
    let g := s.collGroup c.cgrp
    let stripe := c.src + o.pos
    let row := blockG g.self stripe
    let role := collRole g.self c.lost rebuild stripe
    let taken := role.1.map (collGiven s o g.self (collTaken g.self (rebuild && g.self == c.lost) c.src stripe))
    let s1 : State := { s with fresh := s.fresh + 8 * 4096 }
    let t := s1.afterRead id o (s1.blockLines stripe row)
    let bs := xorAll (t.blockBytes stripe row :: taken)
    o.pos < c.count → s.portsUp g = true → role.2 = some r → Served s1 id o (2 * o.pos) (s1.blockLines stripe row) →
    (∀ pa ∈ t.blockLines stripe row, t.poisoned pa 64 = false) →
    collXor id i rebuild others s =
      .next ((((upFrom 0 64).foldl (fun v k => v.contribute id o g r (64 * stripe + k) ((bs.drop (64 * k)).take 64)) t).setOp id
        { o with pos := o.pos + 1 }).due [i]) := by
  dsimp only
  intro hp hup hr hs hq
  simp only [collXor, ho, not_starting_of_left hl, hl, hu, hup, hr]
  refine (if_neg (Nat.not_le.mpr hp)).trans (congrArg Host.Outcome.next ((opReads_served hs _ _).trans (if_neg ?_)))
  simpa using hq

end

/-! ## REDN (R247) -/

section
variable {dst count t : Nat} {srcs : List Nat} (ha : o.aux = dst :: count :: t :: srcs)
include ha

theorem execRedn_done (hp : count ≤ o.pos) : execRedn id s = .next (s.finishOp id o 0) := by
  simp only [execRedn, ho, not_starting_of_left hl, hl, hu, ha]
  exact if_pos hp

theorem execRedn_chunk :
    let n := min (255 * 32 / dtSize t) (count - o.pos)
    let reads := srcs.map (fun a => (a + o.pos * dtSize t, n * dtSize t))
    let v := s.afterRead id o (o.pas reads)
    let data := srcs.map (fun a => splitNums (dtSize t) n (v.vread o.pages (a + o.pos * dtSize t) (n * dtSize t)))
    o.pos < count → Served s id o (2 * o.pos) (o.pas reads) → (∀ r ∈ reads, v.vpoison o.pages r.1 r.2 = false) →
    execRedn id s = .next (v.offerUnit id { o with pos := o.pos + n } ((upFrom 0 n).foldl (fun acc e => acc ++
      ((toBytes (dtSize t) (sumLeaves t (data.map (fun x => x.getD e 0)))).zip (upFrom (dst + (o.pos + e) * dtSize t) (dtSize t))).map
        (fun x : Byte × Nat => storeItem (o.pa x.2) [x.1])) [])) := by
  dsimp only
  intro hp hs hq
  simp only [execRedn, ho, not_starting_of_left hl, hl, hu, ha]
  exact (if_neg (Nat.not_le.mpr hp)).trans (congrArg Host.Outcome.next (opVreads_served hs hq _ _))

end

end

/-- Settles O30: rs and ag are collRun, xorrs and xorrb are collXor, each by the rules above. -/
theorem reductionCommands : Obligations.ReductionCommands := fun _ _ o others ho hl hu =>
  have rs (hv : cmdVar o.cmd = 0) : (cmdVar o.cmd == 0) = true := by rw [hv]; rfl
  have ag (hv : cmdVar o.cmd = 1) : (cmdVar o.cmd == 0) = false := by rw [hv]; rfl
  ⟨fun hv hne => ⟨collRun_done ho hl hu _ true (rs hv) others, collRun_portsDown ho hl hu _ true (rs hv) others,
      collRun_chunk ho hl hu _ true (rs hv) others hne⟩,
    fun hv hne => ⟨collRun_done ho hl hu _ false (ag hv) others, collRun_portsDown ho hl hu _ false (ag hv) others,
      collRun_chunk ho hl hu _ false (ag hv) others hne⟩,
    ⟨collXor_unacked ho hl hu _ false others, collXor_done ho hl hu _ false others, collXor_writes ho hl hu _ false others,
      collXor_sends ho hl hu _ false others⟩,
    ⟨collXor_unacked ho hl hu _ true others, collXor_done ho hl hu _ true others, collXor_writes ho hl hu _ true others,
      collXor_sends ho hl hu _ true others⟩,
    fun _ _ _ _ ha => ⟨execRedn_done ho hl hu ha, execRedn_chunk ho hl hu ha⟩⟩

end Sys2Proof.Machine
end

section
/-! LEMMAS. Every step keeps every pool canonical. -/
set_option Elab.async false

namespace Sys2Proof.Machine

/-- Settles O59: a step keeps the pools on the way on which it keeps the invariant: time, the choice of the agent, the instruction. -/
theorem stepKeepsPools : Obligations.StepKeepsPools := fun _ _ hp h => (step_stays h).pools hp

end Sys2Proof.Machine
end

section
/-! LEMMAS. Scratchpad, window, pool and cache words (R202 to R205, R213): what each does once its own checks have passed. -/
set_option Elab.async false

namespace Sys2Proof.Machine

/-- A word whose own rules answer an effect under c completes with it. -/
theorem performs_of_issueWord {i : Instr} {d : Desc} {body : Issue → State → Verdict} {c : Issue → State → Prop} {e : Issue → State → Eff}
    (hx : ∀ s, exec i s = issueWord d body s) (hb : ∀ is s, c is s → body is s = .go (e is s)) : Performs i d c e :=
  fun s is hi hc hroom => (hx s).trans (issueWord_go hi (hb is s hc) hroom)

/-- A word whose own rules answer a trap under c takes it. -/
theorem traps_of_issueWord {i : Instr} {d : Desc} {body : Issue → State → Verdict} {c : Issue → State → Prop} {cause : Nat}
    {val : Issue → State → Nat} (hx : ∀ s, exec i s = issueWord d body s) (hb : ∀ is s, c is s → body is s = .trap cause (val is s)) :
    Traps i d c cause val :=
  fun s is hi hc => (hx s).trans (issueWord_trap hi (hb is s hc))

/-- A lane whose address is no multiple of the size traps ALIGN before any other check (R202). -/
theorem localFault_askew {is : Issue} {s : State} {els : List (Nat × Nat)} {n : Nat} (sp : LocalSpace) (write : Bool)
    (h : (badLane els (fun v => v % n != 0)).isSome) :
    localFault is s sp write els n = some (.trap causeALIGN ((badLane els (fun v => v % n != 0)).getD 0)) := by
  obtain ⟨l, hl⟩ := Option.isSome_iff_exists.mp h
  rw [localFault, hl, Option.getD_some]

section
variable {i : Instr} (sp : LocalSpace) {l d a : Nat} {x : Bool} {z : Size}

/-- R202: a local load that passes its checks leaves its registers pending with its data. -/
theorem performs_localLoad (hx : ∀ s, exec i s = localLoad sp l x d a z s) :
    Performs i (descLocal l x d a z) (localReady sp false x a z)
      (fun is s => pendingLoad is s l d (sizeRegs z) (localData sp x a z is s) false []) :=
  performs_of_issueWord hx fun is s ⟨hf, hb⟩ => by
    unfold Issue.locals at hf hb
    unfold Issue.spot at hb
    simp only [hf, hb, Bool.false_eq_true, if_false]
    rfl

/-- R203: a local store that passes its checks writes at once. -/
theorem performs_localStore (hx : ∀ s, exec i s = localStore sp l x d a z s) :
    Performs i (descLocal l x d a z) (localReady sp true x a z) (fun is s =>
      { pool := (is.locals s x a).map (fun e =>
          let p := is.spot s sp e.2 (sizeBytes z)
          (p.1, p.2.1, is.data s d (sizeBytes z) e.1)) }) :=
  performs_of_issueWord hx fun is s ⟨hf, hb⟩ => by
    unfold Issue.locals at hf hb
    unfold Issue.spot at hb
    simp only [hf, hb, Bool.false_eq_true, if_false]
    rfl

theorem traps_localLoad (hx : ∀ s, exec i s = localLoad sp l x d a z s) :
    Traps i (descLocal l x d a z) (fun is s => (badLane (is.locals s x a) (fun v => v % sizeBytes z != 0)).isSome) causeALIGN
      (fun is s => (badLane (is.locals s x a) (fun v => v % sizeBytes z != 0)).getD 0) :=
  traps_of_issueWord hx fun is s h => by
    have hf := localFault_askew (is := is) (s := s) sp false h
    unfold Issue.locals at hf ⊢
    simp only [hf]

theorem traps_localStore (hx : ∀ s, exec i s = localStore sp l x d a z s) :
    Traps i (descLocal l x d a z) (fun is s => (badLane (is.locals s x a) (fun v => v % sizeBytes z != 0)).isSome) causeALIGN
      (fun is s => (badLane (is.locals s x a) (fun v => v % sizeBytes z != 0)).getD 0) :=
  traps_of_issueWord hx fun is s h => by
    have hf := localFault_askew (is := is) (s := s) sp true h
    unfold Issue.locals at hf ⊢
    simp only [hf]

end

/-- R204: STW that passes its checks is held until the commit. -/
theorem performs_stw (l d a : Nat) (x : Bool) (z : Size) :
    Performs (.stw l x d a z) (descLocal l x d a z) (fun is s => localFault is s .window true (is.locals s x a) (sizeBytes z) = none)
      (fun is s => { acts := (is.locals s x a).map (fun e =>
        let p := is.spot s .window e.2 (sizeBytes z)
        .stw p.1 p.2.1 (is.data s d (sizeBytes z) e.1)) }) :=
  have hx (s : State) : exec (.stw l x d a z) s = execStw l x d a z s := rfl
  performs_of_issueWord hx fun is s hf => by
    unfold Issue.locals at hf
    simp only [hf]
    rfl

/-- R213: EVICT and CKIN that pass the checks of a load act on their lines at the commit. -/
theorem performs_cacheWord {i : Instr} {l a : Nat} {x : Bool} {act : Nat → AtCommit} (hx : ∀ s, exec i s = cacheWord l x a act s) :
    Performs i (descCache l x a) (fun is s => globalFault is s (is.elements s x a is.lanes) 1 .load isHost = none)
      (fun is s =>
        let els := is.elements s x a is.lanes
        { acts := (unionNat [] ((els.map (fun e => is.pa s e.2)).map lineNo)).map act, pages := usedPages is s els }) :=
  performs_of_issueWord hx fun is s hf => by simp only [hf]

/-- Settles O16: loads and stores of the three spaces by the rule that they share, STW by its own, and the cache words by theirs. -/
theorem localMemoryAndCacheWords : Obligations.LocalMemoryAndCacheWords :=
  ⟨fun l d a x z =>
    ⟨performs_localLoad .scratch fun _ => rfl, performs_localLoad .window fun _ => rfl, performs_localLoad .pool fun _ => rfl,
      performs_localStore .scratch fun _ => rfl, performs_localStore .pool fun _ => rfl, performs_stw l d a x z,
      traps_localLoad .scratch fun _ => rfl, traps_localStore .scratch fun _ => rfl⟩,
    fun _ _ _ _ => ⟨performs_of_issueWord (fun _ => rfl) fun _ _ _ => rfl, performs_cacheWord fun _ => rfl, performs_cacheWord fun _ => rfl⟩⟩

end Sys2Proof.Machine
end

section
/-! LEMMAS. Groups and pools of a core: what each update of the machine makes of a Group, and which updates leave a core's pool, Kernel and
launch record, by which its registers are found (R78). -/
set_option Elab.async false

namespace Sys2Proof.Machine

/-! ## Groups -/

section
variable {s : State} {c slot x : Nat} {g : Group}

/-- A core changed in anything but its Groups. -/
theorem State.group?_setCore_same {k : Core} (h : k.groups = (s.core c).groups := by rfl) : (s.setCore c k).group? x slot = s.group? x slot := by
  unfold State.group?
  by_cases hx : x = c
  · subst hx; rw [State.core_setCore_self, h]
  · rw [State.core_setCore_ne _ _ hx]

@[simp] theorem State.group?_poolPut {a : Nat} {bs : List Byte} : (s.poolPut x a bs).group? c slot = s.group? c slot :=
  State.group?_setCore_same

@[simp] theorem State.group?_setSpecial {off v : Nat} : (s.setSpecial c slot off v).group? c slot = s.group? c slot := State.group?_poolPut

@[simp] theorem State.group?_setGroup_self : (s.setGroup c slot g).group? c slot = some g := by
  unfold State.group? State.setGroup
  rw [State.core_setCore_self]
  exact Tab.get?_set_self ..

@[simp] theorem State.group?_modGroup_self {f : Group → Group} : (s.modGroup c slot f).group? c slot = (s.group? c slot).map f := by
  unfold State.modGroup
  split
  · next h => rw [State.group?_setGroup_self, h, Option.map_some]
  · next h => rw [h, Option.map_none]

@[simp] theorem State.group?_due {es : List Instr} : (s.due es).group? c slot = s.group? c slot := rfl

@[simp] theorem State.group?_restoreUndo {u : List Undo} : (s.restoreUndo u).group? c slot = s.group? c slot := by
  unfold State.restoreUndo
  induction u.reverse generalizing s with
  | nil => rfl
  | cons e r ih => rw [List.foldl_cons, ih, State.group?_poolPut]

@[simp] theorem State.group?_restoreTiles {ts : List Nat} : (s.restoreTiles x ts).group? c slot = s.group? c slot := by
  unfold State.restoreTiles
  induction ts generalizing s with
  | nil => rfl
  | cons t r ih => rw [List.foldl_cons, ih, State.group?_setCore_same]

/-- What an uncommitted Chunk holds elsewhere goes; the Groups stand. -/
@[simp] theorem State.group?_dropChunk {h : Group} : (s.dropChunk x slot h).group? c slot = s.group? c slot :=
  State.group?_setCore_same (s := s) (c := x) (k := (s.core x).dropMmas slot h.uid)

end

/-! ## Pools -/

/-- From s to t the pool, the Kernel and the launch record of core c stand: its registers are read alike. -/
structure SamePool (c : Nat) (s t : State) : Prop where
  pool : (t.core c).pool = (s.core c).pool
  kernel : (t.core c).kernel = (s.core c).kernel
  launch : t.launchAt c = s.launchAt c

section
variable {s t u : State} {c slot : Nat}

theorem SamePool.trans (h : SamePool c s t) (k : SamePool c t u) : SamePool c s u :=
  ⟨k.pool.trans h.pool, k.kernel.trans h.kernel, k.launch.trans h.launch⟩

/-- The launch record goes by the core's Kernel and the Kernels. -/
theorem State.launchAt_eq (s : State) (c : Nat) :
    s.launchAt c = (((s.core c).kernel.bind s.kernels.get?).map (·.launch)).getD Launch.empty := by
  unfold State.launchAt
  cases (s.core c).kernel with
  | none => rfl
  | some k => cases hk : s.kernels.get? k <;> simp [hk]

theorem State.launchAt_congr (h : (t.core c).kernel = (s.core c).kernel) (hk : t.kernels = s.kernels) : t.launchAt c = s.launchAt c := by
  rw [State.launchAt_eq, State.launchAt_eq, h, hk]

/-- Nothing of the core but its pool and its Kernel is read, and of the rest the Kernels. -/
theorem SamePool.of_core (hp : (t.core c).pool = (s.core c).pool) (hk : (t.core c).kernel = (s.core c).kernel)
    (hs : t.kernels = s.kernels := by rfl) : SamePool c s t := ⟨hp, hk, State.launchAt_congr hk hs⟩

theorem SamePool.refl (c : Nat) (s : State) : SamePool c s s := ⟨rfl, rfl, rfl⟩

/-- The core changed in anything but its pool and its Kernel. -/
theorem SamePool.setCore {k : Core} (hp : k.pool = (s.core c).pool := by rfl) (hk : k.kernel = (s.core c).kernel := by rfl) :
    SamePool c s (s.setCore c k) :=
  .of_core (by rw [State.core_setCore_self, hp]) (by rw [State.core_setCore_self, hk])

theorem SamePool.modGroup {f : Group → Group} : SamePool c s (s.modGroup c slot f) := by
  unfold State.modGroup
  split
  · exact SamePool.setCore
  · exact .refl c s

theorem SamePool.openChunk : SamePool c s (s.openChunk c slot) := by
  unfold State.openChunk
  split
  · exact SamePool.setCore
  · exact .refl c s

theorem SamePool.special (h : SamePool c s t) (off : Nat) : t.special c slot off = s.special c slot off := by
  unfold State.special State.poolNum
  rw [h.pool, h.launch]

theorem SamePool.uniformOf (h : SamePool c s t) : t.uniformOf c slot = s.uniformOf c slot := by
  unfold State.uniformOf
  rw [h.pool, h.launch]

/-! ## Special registers (R71, R78) -/

/-- A write of a special register leaves the core's Kernel and launch record. -/
theorem State.setSpecial_kernel (s : State) (c slot off x : Nat) : ((s.setSpecial c slot off x).core c).kernel = (s.core c).kernel := by
  unfold State.setSpecial State.poolPut32 State.poolPut
  rw [State.core_setCore_self]

theorem State.setSpecial_launchAt (s : State) (c slot off x : Nat) : (s.setSpecial c slot off x).launchAt c = s.launchAt c :=
  State.launchAt_congr (State.setSpecial_kernel ..) rfl

theorem State.setSpecial_pool (s : State) (c slot off x : Nat) : ((s.setSpecial c slot off x).core c).pool =
    (s.core c).pool.put (regBase (s.launchAt c) slot + off) (toBytes 4 x) := by
  unfold State.setSpecial State.poolPut32 State.poolPut
  rw [State.core_setCore_self]

theorem State.setSpecial_wf (off x : Nat) (h : Memory.wf (s.core c).pool = true) : Memory.wf ((s.setSpecial c slot off x).core c).pool = true := by
  rw [State.setSpecial_pool]
  exact Memory.put_wf _ _ h

/-- A special register that was written. -/
theorem State.special_setSpecial_self (off x : Nat) (h : Memory.wf (s.core c).pool = true) :
    (s.setSpecial c slot off x).special c slot off = x % 2 ^ 32 := by
  unfold State.special State.poolNum
  rw [State.setSpecial_pool, State.setSpecial_launchAt]
  exact Memory.num_put_self h _ _

/-- Another special register than the one that was written. -/
theorem State.special_setSpecial_of_apart {off off' : Nat} (x : Nat) (h : Memory.wf (s.core c).pool = true)
    (ha : off + 4 ≤ off' ∨ off' + 4 ≤ off) : (s.setSpecial c slot off x).special c slot off' = s.special c slot off' := by
  unfold State.special State.poolNum
  rw [State.setSpecial_pool, State.setSpecial_launchAt]
  exact Memory.num_put_of_disjoint h _ _ _ (by rw [toBytes_length]; omega)

end

end Sys2Proof.Machine
end

section
/-! LEMMAS. What a squash makes of a Group (R89, R100, R363), and a Chunk whose lanes it does not restore as they stood. -/
set_option Elab.async false

namespace Sys2Proof.Machine

section
variable {s : State} {c slot : Nat} {g : Group}

/-- R81, R100, R363: the Group stands at the start of its Chunk, with the accesses that were parked there to be made again. -/
theorem State.group?_undoChunk (h : s.group? c slot = some g) : (s.undoChunk c slot).group? c slot =
    some { g with lanes := g.chunk.lanes.map Lane.unparked, seq := Seq.empty, pend := [], chosen := none, state := .running, hold := .none,
                  inTrap := g.chunk.inTrap, chunk := freshChunk g.chunk.uniform (g.chunk.lanes.map Lane.unparked) g.chunk.inTrap } := by
  simp [State.undoChunk, h]

/-- The lanes of a squashed Group are those of its Chunk's start, outside the fault queues of the homes (R100, R363). -/
theorem State.squash_lanes (h : s.group? c slot = some g) (conflict : Bool) :
    ((s.squash c slot conflict).group? c slot).map (·.lanes) = some (g.chunk.lanes.map Lane.unparked) := by
  unfold State.squash
  split
  · next g' hg' =>
    cases h.symm.trans hg'
    extract_lets st n s1 k s2 base s3 solo s4
    have h2 : s2.group? c slot = s1.group? c slot := by
      unfold s2
      split
      · exact State.group?_setCore_same
      · rfl
    have h4 : (s4.group? c slot).map (·.lanes) = some (g.chunk.lanes.map Lane.unparked) := by
      simp [s4, s3, h2, s1, State.group?_undoChunk h]
    split
    · exact h4
    · exact h4
  · next hn => cases h.symm.trans hn

end

/-- Lanes of which the first makes an access that a home has in its fault queue (R363). -/
def parkedLanes : List Lane := { pc := 0, prio := 0, wait := .parked 0 } :: List.replicate 31 { pc := 0, prio := 0, wait := .none }

/-- A Group whose Chunk began with such lanes. -/
def parkedGroup : Group := { placedGroup with lanes := parkedLanes, chunk := freshChunk (List.replicate 256 0) parkedLanes none }

/-- The device with that Group on core 0. -/
def parkedStart : State := (State.reset.place 0).setGroup 0 0 parkedGroup

theorem parkedStart_pools : parkedStart.PoolsCanonical := by
  unfold State.PoolsCanonical
  decide +kernel

/-- Refutes O23: a Chunk may begin while an access of a lane is parked at its home. Its squash makes the access again, so that lane waits for
nothing after it (R363), and does not stand as it stood at the start. -/
theorem not_squashRestores : ¬ Obligations.SquashRestores := by
  intro hs
  have hg : parkedStart.group? 0 0 = some parkedGroup := State.group?_setGroup_self
  obtain ⟨⟨g', hg', hl, _⟩, _⟩ := hs parkedStart 0 0 false parkedGroup hg parkedStart_pools.core List.length_replicate rfl
    (by decide) (by decide)
  have hu := State.squash_lanes hg false
  rw [hg', Option.map_some, hl] at hu
  exact absurd hu (by decide)

end Sys2Proof.Machine
end

section
/-! LEMMAS. The commit of a Chunk that holds device stores and no other effect (R72, R90, R93, R98): what stands when it has taken its stamp and
its Group is about to go on. -/
set_option Elab.async false

namespace Sys2Proof.Machine

/-! ## A unit takes its stamp -/

/-- A table changed entry by entry, its keys as they were. -/
theorem Tab.get?_map {α : Type} (f : Nat × α → Nat × α) (hf : ∀ e, (f e).1 = e.1) (t : Tab α) (k : Nat) :
    Tab.get? (t.map f) k = (t.get? k).map (fun v => (f (k, v)).2) := by
  induction t with
  | nil => rfl
  | cons e r ih =>
    rw [List.map_cons]
    unfold Tab.get?
    by_cases he : e.1 = k
    · subst he
      simp [hf e]
    · simp only [hf e, he, if_false]
      exact ih

section
variable {s : State} {part die c slot : Nat} {items : List BufItem} {owner op : Option Nat} {cluster : Option (Nat × Nat)}

/-- R95: the write signature enters the cores' inboxes, and nothing else of a core changes. -/
theorem State.commitItems_core : ∃ inbox, (s.commitItems part die items owner op cluster).core c = { s.core c with inbox := inbox } := by
  have hk (f : Nat × Core → Nat × Core) (hf : ∀ e, (f e).1 = e.1) (hc : ∀ e, ∃ inbox, (f e).2 = { e.2 with inbox := inbox }) :
      ∃ inbox, Tab.getD (s.cores.map f) c Core.reset = { s.core c with inbox := inbox } := by
    unfold State.core Tab.getD
    rw [Tab.get?_map f hf]
    cases s.cores.get? c with
    | none => exact ⟨_, rfl⟩
    | some k => exact hc (c, k)
  refine hk _ (fun e => ?_) (fun e => ?_)
  · dsimp only
    split <;> rfl
  · dsimp only
    split
    · exact ⟨_, rfl⟩
    · exact ⟨_, rfl⟩

@[simp] theorem State.commitItems_group? : (s.commitItems part die items owner op cluster).group? c slot = s.group? c slot := by
  obtain ⟨inbox, h⟩ := State.commitItems_core (s := s) (part := part) (die := die) (c := c) (items := items) (owner := owner) (op := op)
    (cluster := cluster)
  unfold State.group?
  rw [h]

/-- What a stamped unit leaves of Kernels and Contexts: everything. -/
theorem State.commitItems_kernels_ctxs : (s.commitItems part die items owner op cluster).kernels = s.kernels ∧
    (s.commitItems part die items owner op cluster).ctxs = s.ctxs := by
  unfold State.commitItems
  dsimp only
  obtain ⟨ps, ag, h⟩ := sendAcross_only s (s.unitEnd die owner op cluster) (diffTag part (s.stamps.getD part 1)) (itemAddrs s.regions items)
  rw [h]
  obtain ⟨qs, ah, k⟩ := sendPackets_only (fun c => c) (fun _ => castTag part (s.stamps.getD part 1)) (s.unitEnd die owner op cluster)
    ((s.coresOf part).filter (fun c => dieOf c != endDie (s.unitEnd die owner op cluster))) { s with pairs := ps, agenda := s.agenda ++ ag }
  rw [k]
  exact ⟨rfl, rfl⟩

theorem SamePool.commitItems : SamePool c s (s.commitItems part die items owner op cluster) := by
  obtain ⟨inbox, h⟩ := State.commitItems_core (s := s) (part := part) (die := die) (c := c) (items := items) (owner := owner) (op := op)
    (cluster := cluster)
  exact .of_core (by rw [h]) (by rw [h]) State.commitItems_kernels_ctxs.1

end

/-! ## Stores only -/

/-- A device store (R199). -/
def BufItem.IsStore (it : BufItem) : Prop := ∃ sy near pa bytes, it = .store sy near pa bytes

section
variable {buf : List BufItem} (hb : ∀ it ∈ buf, it.IsStore)
include hb

theorem filter_needsStamp_stores : buf.filter needsStamp = buf :=
  List.filter_eq_self.mpr fun it h => by obtain ⟨_, _, _, _, rfl⟩ := hb it h; rfl

theorem filter_isCl_stores : buf.filter isCl = [] :=
  List.filter_eq_nil_iff.mpr fun it h => by obtain ⟨_, _, _, _, rfl⟩ := hb it h; exact Bool.false_ne_true

/-- Stores read no poison (R365). -/
theorem State.sound_stores (s : State) (before : List BufItem) : s.sound before buf = (buf, []) := by
  induction buf generalizing before with
  | nil => rfl
  | cons it r ih =>
    obtain ⟨_, _, _, _, rfl⟩ := hb it List.mem_cons_self
    simp only [State.sound, farPoison, ih fun x hx => hb x (List.mem_cons_of_mem _ hx)]

/-- Stores give no results. -/
theorem State.farResults_stores (s : State) (c : Nat) (m : Memory) : s.farResults c m buf = s := by
  induction buf generalizing m with
  | nil => rfl
  | cons it r ih =>
    obtain ⟨_, _, _, _, rfl⟩ := hb it List.mem_cons_self
    exact ih (fun x hx => hb x (List.mem_cons_of_mem _ hx)) _

theorem any_needsStamp_stores : buf.any needsStamp = !buf.isEmpty := by
  cases buf with
  | nil => rfl
  | cons it r =>
    obtain ⟨_, _, _, _, rfl⟩ := hb it List.mem_cons_self
    rfl

end

/-! ## The parts of a commit -/

/-- The stores of a Chunk, if there are any, take the next stamp of its sealed partition (R93, R96). -/
def State.stampStores (s : State) (c : Nat) (g : Group) : State :=
  if g.chunk.buf.any needsStamp then s.commitItems (s.sealedOf (s.ctx (s.ctxAt c)).part) (dieOf c) g.chunk.buf (some g.uid) none none else s

/-- chunkstat, the predictor and what the Chunk held at homes and tiles, after its commit (R72, R209, R227, R363). -/
def State.settleCommit (s : State) (c slot : Nat) (g : Group) : State :=
  let st := s.chunkstat c slot
  let s1 := if statSqcnt st = 0 then s.setCore c { s.core c with pred := lowerPredictor (s.core c).pred g.chunk.nearLines } else s
  (((s1.setSpecial c slot offChunkstat (statAfterCommit st)).modGroup c slot (fun g => { g with mismatch := false, failed := [] })).leavePlaces
    c slot g.uid).unparkGroup c slot g.uid

/-- A Kernel notes the stamp of its last unit. -/
def State.noteStamp (s : State) (kid stamp : Nat) : State :=
  match s.kernels.get? kid with
  | some k => { s with kernels := s.kernels.set kid { k with stamp := stamp } }
  | none => s

/-- A Chunk with stores only and no other effect, up to what its Group does next. -/
def State.commitStores (s : State) (c slot kid : Nat) (g : Group) : State :=
  let t := s.stampStores c g
  if g.chunk.buf.any needsStamp then (t.settleCommit c slot g).noteStamp kid (t.lastStamp (s.sealedOf (s.ctx (s.ctxAt c)).part))
  else t.settleCommit c slot g

section
variable {s t : State} {c slot kid uid stamp : Nat} {g : Group}

/-- R72, R90: what a commit is for a Chunk with stores only and no other effect. -/
theorem State.commitChunk_stores (hg : s.group? c slot = some g) (hk : (s.core c).kernel = some kid)
    (hb : ∀ it ∈ g.chunk.buf, it.IsStore) (ha : g.chunk.acts = []) :
    s.commitChunk c slot = ((s.commitStores c slot kid g).afterCommit c slot g.chunk.after).deliverCap c slot := by
  unfold State.commitChunk
  split
  case h_2 hn => exact absurd hk (hn g kid hg)
  next g' kid' hg' hk' =>
  cases hg.symm.trans hg'
  cases hk.symm.trans hk'
  extract_lets ch part far bad dev stamped s1 s2 stamp s3 s4 st k4 s5 s6 s7 s8 s9 s10
  have hfar : far = (g.chunk.buf, []) := by
    show s.sound [] (g.chunk.buf.filter needsStamp) = _
    rw [filter_needsStamp_stores hb, State.sound_stores hb]
  have hbad : bad = [] := congrArg Prod.snd hfar
  have hdev : dev = g.chunk.buf := congrArg Prod.fst hfar
  have h1 : s1 = s := by
    unfold s1
    rw [hdev, State.farResults_stores hb]
  have h2 : s2 = s.stampStores c g := by
    unfold s2
    rw [hdev, h1]
    rfl
  have h4 : s4 = s2 := by
    unfold s4 s3 ch
    rw [filter_isCl_stores hb, ha]
    rfl
  have h10 : s10 = s9 := by
    unfold s10 ch
    rw [ha]
    rfl
  rw [hbad]
  show s10.deliverCap c slot = _
  rw [h10]
  clear_value s4
  subst h4
  have h8 : s8 = s.commitStores c slot kid g := by
    unfold s8 State.commitStores
    rw [← h2]
    split
    · next h =>
      rw [show stamp = s2.lastStamp part from if_pos h]
      rfl
    · rfl
  unfold s9
  rw [h8]

/-! ## What the parts leave -/

theorem SamePool.setSpecial (h : SamePool c s t) (off x : Nat) : SamePool c (s.setSpecial c slot off x) (t.setSpecial c slot off x) := by
  refine ⟨?_, ?_, ?_⟩
  · rw [State.setSpecial_pool, State.setSpecial_pool, h.pool, h.launch]
  · rw [State.setSpecial_kernel, State.setSpecial_kernel, h.kernel]
  · rw [State.setSpecial_launchAt, State.setSpecial_launchAt, h.launch]

theorem SamePool.stampStores : SamePool c s (s.stampStores c g) := by
  unfold State.stampStores
  split
  · exact SamePool.commitItems
  · exact .refl c s

/-- R72: of the pool, a commit changes chunkstat. -/
theorem SamePool.settleCommit : SamePool c (s.setSpecial c slot offChunkstat (statAfterCommit (s.chunkstat c slot))) (s.settleCommit c slot g) := by
  unfold State.settleCommit
  extract_lets st k s1
  have h1 : SamePool c s s1 := by
    unfold s1
    split
    · exact SamePool.setCore
    · exact .refl c s
  exact (((h1.setSpecial _ _).trans SamePool.modGroup).trans SamePool.setCore).trans (.of_core rfl rfl)

/-- A Kernel that notes a stamp keeps its launch record (R302). -/
theorem SamePool.noteStamp : SamePool c s (s.noteStamp kid stamp) := by
  unfold State.noteStamp
  split
  · next k hk =>
    refine ⟨rfl, rfl, ?_⟩
    rw [State.launchAt_eq, State.launchAt_eq]
    show (((s.core c).kernel.bind (s.kernels.set kid { k with stamp := stamp }).get?).map (·.launch)).getD Launch.empty = _
    cases (s.core c).kernel with
    | none => rfl
    | some i =>
      simp only [Option.bind_some, Tab.get?_set]
      split
      · next hi => rw [hi, hk]; rfl
      · rfl
  · exact .refl c s

/-- R72: of the pool, a commit of stores changes chunkstat. -/
theorem SamePool.commitStores :
    SamePool c (s.setSpecial c slot offChunkstat (statAfterCommit (s.chunkstat c slot))) (s.commitStores c slot kid g) := by
  have hs : SamePool c s (s.stampStores c g) := .stampStores
  have h : SamePool c (s.setSpecial c slot offChunkstat (statAfterCommit (s.chunkstat c slot))) ((s.stampStores c g).settleCommit c slot g) := by
    have hst : s.chunkstat c slot = (s.stampStores c g).chunkstat c slot := (hs.special _).symm
    rw [hst]
    exact (hs.setSpecial _ _).trans .settleCommit
  unfold State.commitStores
  split
  · exact h.trans .noteStamp
  · exact h

/-- The Group goes on with its lanes and its Chunk; a mismatch and the addresses that failed are forgotten (R332, R351). -/
theorem State.group?_commitStores (hg : s.group? c slot = some g) :
    (s.commitStores c slot kid g).group? c slot = some { g with mismatch := false, failed := [] } := by
  have hs : (s.stampStores c g).group? c slot = some g := by
    unfold State.stampStores
    split
    · rw [State.commitItems_group?, hg]
    · exact hg
  have h : ((s.stampStores c g).settleCommit c slot g).group? c slot = some { g with mismatch := false, failed := [] } := by
    unfold State.settleCommit
    extract_lets st k s1
    have h1 : s1.group? c slot = some g := by
      unfold s1
      split
      · rw [State.group?_setCore_same, hs]
      · exact hs
    refine Eq.trans (State.group?_setCore_same (c := c)) ?_
    rw [State.group?_modGroup_self, State.group?_setSpecial, h1]
    rfl
  have hn (u : State) (n : Nat) : (u.noteStamp kid n).group? c slot = u.group? c slot := by
    unfold State.noteStamp
    split <;> rfl
  unfold State.commitStores
  split
  · rw [hn, h]
  · exact h

/-- What the end of a commit leaves beside cores, the homes' queues and the Kernels' stamps. -/
theorem State.settleCommit_frame :
    (s.settleCommit c slot g).stamps = s.stamps ∧ (s.settleCommit c slot g).diffs = s.diffs ∧
      (s.settleCommit c slot g).kernels = s.kernels ∧ (s.settleCommit c slot g).ctxs = s.ctxs ∧ (s.settleCommit c slot g).mem = s.mem := by
  have h (u : State) (f : Group → Group) (n : Nat) (hu : u.stamps = s.stamps ∧ u.diffs = s.diffs ∧ u.kernels = s.kernels ∧ u.ctxs = s.ctxs ∧
      u.mem = s.mem) : let v := (((u.setSpecial c slot offChunkstat n).modGroup c slot f).leavePlaces c slot g.uid).unparkGroup c slot g.uid
      v.stamps = s.stamps ∧ v.diffs = s.diffs ∧ v.kernels = s.kernels ∧ v.ctxs = s.ctxs ∧ v.mem = s.mem := by
    simpa [State.leavePlaces, State.unparkGroup] using hu
  unfold State.settleCommit
  extract_lets st k s1
  refine h s1 _ _ ?_
  unfold s1
  split <;> exact ⟨rfl, rfl, rfl, rfl, rfl⟩

theorem State.noteStamp_frame : (s.noteStamp kid stamp).stamps = s.stamps ∧ (s.noteStamp kid stamp).diffs = s.diffs ∧
    (s.noteStamp kid stamp).ctxs = s.ctxs ∧ (s.noteStamp kid stamp).mem = s.mem := by
  unfold State.noteStamp
  split <;> exact ⟨rfl, rfl, rfl, rfl⟩

/-- R93, R98: stores take the next stamp of their sealed partition, and their difference is on its way. -/
theorem State.commitStores_stamped (hs : g.chunk.buf.any needsStamp = true) :
    let part := s.sealedOf (s.ctx (s.ctxAt c)).part
    (s.commitStores c slot kid g).stamps = s.stamps.set part (s.stamps.getD part 1 + 1) ∧
    (s.commitStores c slot kid g).diffs = s.diffs ++
      [{ part := part, die := dieOf c, stamp := s.stamps.getD part 1, items := g.chunk.buf, owner := some g.uid, op := none, cluster := none,
         prot := s.protectedOf g.chunk.buf, rebuilt := false }] ∧
    (s.commitStores c slot kid g).mem = s.mem := by
  intro part
  unfold State.commitStores
  extract_lets t
  obtain ⟨nst, ndf, _, nm⟩ := State.noteStamp_frame (s := t.settleCommit c slot g) (kid := kid) (stamp := t.lastStamp part)
  obtain ⟨st, df, _, _, m⟩ := State.settleCommit_frame (s := t) (c := c) (slot := slot) (g := g)
  have ht : t = s.commitItems part (dieOf c) g.chunk.buf (some g.uid) none none := if_pos hs
  rw [if_pos hs, nst, ndf, nm, st, df, m, ht]
  exact ⟨rfl, rfl, (Keeps.commitItems ..).mem⟩

/-- A Chunk without stores takes no stamp (R96). -/
theorem State.commitStores_unstamped (hs : g.chunk.buf.any needsStamp = false) :
    (s.commitStores c slot kid g).stamps = s.stamps ∧ (s.commitStores c slot kid g).diffs = s.diffs ∧
      (s.commitStores c slot kid g).kernels = s.kernels ∧ (s.commitStores c slot kid g).ctxs = s.ctxs ∧
      (s.commitStores c slot kid g).mem = s.mem := by
  unfold State.commitStores State.stampStores
  rw [hs]
  exact State.settleCommit_frame

end

end Sys2Proof.Machine
end

section
/-! LEMMAS. The Group runs on after the commit of its stores: a fresh Chunk, chunkstat as R72 gives it, one difference under the next stamp. -/
set_option Elab.async false

namespace Sys2Proof.Machine

/-! ## chunkstat (R72) -/

/-- The fields of chunkstat after a commit: limlog 12, sqcnt 0, solo clear, and iovf as it was. -/
theorem statFields_statAfterCommit (x : Nat) : statLimlog (statAfterCommit x % 2 ^ 32) = 12 ∧ statSqcnt (statAfterCommit x % 2 ^ 32) = 0 ∧
    statSolo (statAfterCommit x % 2 ^ 32) = false ∧ statIovf (statAfterCommit x % 2 ^ 32) = statIovf x := by
  unfold statAfterCommit
  cases statIovf x <;> decide

section
variable {s : State} {c slot kid : Nat} {g : Group}

/-- chunkstat after a commit of stores, whatever the Group does next with its pool as it is. -/
theorem State.chunkstat_commitStores {t : State} (hw : Memory.wf (s.core c).pool = true) (ht : SamePool c (s.commitStores c slot kid g) t) :
    t.chunkstat c slot = statAfterCommit (s.chunkstat c slot) % 2 ^ 32 := by
  have h : SamePool c _ t := SamePool.commitStores.trans ht
  exact (h.special _).trans (State.special_setSpecial_self _ _ hw)

/-! ## The next Chunk -/

/-- R81: the next Chunk opens at the Group's present state. -/
theorem State.group?_openChunk (hg : s.group? c slot = some g) : (s.openChunk c slot).group? c slot =
    some { g with chunk := freshChunk (s.uniformOf c slot) g.lanes g.inTrap, seq := Seq.empty, chosen := none } := by
  simp [State.openChunk, hg]

theorem State.modGroup_only (s : State) (c slot : Nat) (f : Group → Group) : ∃ cs, s.modGroup c slot f = { s with cores := cs } := by
  unfold State.modGroup
  split
  · exact ⟨_, rfl⟩
  · exact ⟨s.cores, rfl⟩

/-- Opening a Chunk changes nothing but its Group. -/
theorem State.openChunk_only (s : State) (c slot : Nat) : ∃ cs, s.openChunk c slot = { s with cores := cs } := by
  unfold State.openChunk
  split
  · exact ⟨_, rfl⟩
  · exact ⟨s.cores, rfl⟩

/-- Without a capacity change nothing is delivered (R279). -/
theorem State.deliverCap_of_none (hg : s.group? c slot = some g) (hc : g.capPending = none) : s.deliverCap c slot = s := by
  simp only [State.deliverCap, hg, hc]

/-- The Group that runs on is Running, with its next Chunk open at its present state (R81, R321). -/
theorem State.group?_runOn (hg : s.group? c slot = some g) : (s.afterCommit c slot .run).group? c slot =
    some { g with state := .running, chunk := freshChunk ((s.afterCommit c slot .run).uniformOf c slot) g.lanes g.inTrap, seq := Seq.empty,
                  chosen := none } := by
  have hm : (s.modGroup c slot (fun g => { g with state := .running })).group? c slot = some { g with state := .running } := by
    rw [State.group?_modGroup_self, hg, Option.map_some]
  unfold State.afterCommit
  rw [State.group?_openChunk hm, SamePool.openChunk.uniformOf]

/-- Where a Group runs on, only its core has changed. -/
theorem State.runOn_only (s : State) (c slot : Nat) : ∃ cs, s.afterCommit c slot .run = { s with cores := cs } := by
  obtain ⟨cs, hm⟩ := s.modGroup_only c slot (fun g => { g with state := .running })
  obtain ⟨ds, ho⟩ := State.openChunk_only (s.modGroup c slot (fun g => { g with state := .running })) c slot
  exact ⟨ds, ho.trans (by rw [hm])⟩

theorem SamePool.runOn : SamePool c s (s.afterCommit c slot .run) := SamePool.modGroup.trans .openChunk

end

/-- Settles O22: the commit takes the stamp, puts the difference on its way and resets chunkstat; then the Group runs on, and no capacity change
is there to be delivered. -/
theorem chunkCommits : Obligations.ChunkCommits := by
  intro s c slot kid g hg hk hb ha hrun hcap hw part t some_
  have hcommit := State.commitChunk_stores hg hk hb ha
  rw [hrun] at hcommit
  have hgroup := State.group?_runOn (State.group?_commitStores (kid := kid) hg)
  have ht : t = (s.commitStores c slot kid g).afterCommit c slot .run := hcommit.trans (State.deliverCap_of_none hgroup hcap)
  clear_value t
  subst ht
  have hstat := State.chunkstat_commitStores (slot := slot) (kid := kid) (g := g) hw (SamePool.runOn (slot := slot))
  obtain ⟨hlim, hsq, hsolo, hiovf⟩ := statFields_statAfterCommit (s.chunkstat c slot)
  have hany : g.chunk.buf.any needsStamp = !g.chunk.buf.isEmpty := any_needsStamp_stores hb
  obtain ⟨cs, honly⟩ := (s.commitStores c slot kid g).runOn_only c slot
  rw [hstat]
  refine ⟨⟨_, hgroup, rfl, rfl, rfl, rfl⟩, ?_, fun hne => ?_, fun he => ?_, hlim, hsq, hsolo, hiovf⟩
  · rw [honly]
    cases hs : g.chunk.buf.any needsStamp with
    | true => exact (State.commitStores_stamped hs).2.2
    | false => exact (State.commitStores_unstamped hs).2.2.2.2
  · rw [honly]
    obtain ⟨hst, hdf, _⟩ := State.commitStores_stamped (s := s) (c := c) (slot := slot) (kid := kid) (g := g)
      (by rw [hany, List.isEmpty_eq_false_iff.mpr hne]; rfl)
    exact ⟨by rw [hst]; exact Tab.getD_set_self .., hdf⟩
  · rw [honly]
    obtain ⟨hst, hdf, _⟩ := State.commitStores_unstamped (s := s) (c := c) (slot := slot) (kid := kid) (g := g)
      (by rw [hany, List.isEmpty_iff.mpr (not_not.mp he)]; rfl)
    exact ⟨hst, hdf⟩

end Sys2Proof.Machine
end

section
/-! LEMMAS. What becomes of a Kernel that stops, and of those that are joined to it (R281, R311, R319). -/
set_option Elab.async false

namespace Sys2Proof.Machine

/-! ## Discarded Gangs and stopping -/

/-- The state and the status of a Kernel. -/
def State.fate (s : State) (kid : Nat) : Option (KState × Nat) := (s.kernels.get? kid).map (fun k => (k.state, k.status))

/-- What a stop with a status makes of it: a Kernel that stops already, or is done, keeps its own. -/
def stopFate (st : Nat) (f : KState × Nat) : KState × Nat := if f.1 = .stopping ∨ f.1 = .done then f else (.stopping, st)

theorem stopFate_stopFate (st : Nat) (f : KState × Nat) : stopFate st (stopFate st f) = stopFate st f := by
  unfold stopFate
  by_cases h : f.1 = .stopping ∨ f.1 = .done <;> simp [h]

section
variable {s : State} {c slot kid kid' n st : Nat}

theorem State.fate_congr {t : State} (h : t.kernels = s.kernels) : t.fate kid = s.fate kid := by unfold State.fate; rw [h]

theorem foldl_kernels {α : Type} {f : State → α → State} (hf : ∀ s a, (f s a).kernels = s.kernels) (xs : List α) :
    ∀ s : State, (xs.foldl f s).kernels = s.kernels := by
  induction xs with
  | nil => exact fun _ => rfl
  | cons a xs ih => exact fun s => (ih _).trans (hf s a)

/-- A discarded Gang leaves its Kernel's state and status, and other Kernels (R314). -/
theorem State.fate_discardGang (gid : Nat) (again : Bool) : (s.discardGang kid' gid again).fate kid = s.fate kid := by
  unfold State.discardGang
  split
  case h_2 => rfl
  next k hk =>
  split
  case h_2 => rfl
  next g _ =>
  extract_lets ts list s0 s2 s3 gs
  have h0 : s0.kernels = s.kernels := foldl_kernels (fun _ _ => by rfl) ts s
  have h2 : s2.kernels = s.kernels := by
    refine Eq.trans (foldl_kernels (fun s i => ?_) g.images s0) h0
    split
    · rfl
    · exact foldl_kernels (fun _ _ => by rfl) (s.core i.core).groups s
  have h3 : s3.kernels = s.kernels := by
    unfold s3
    split <;> exact h2
  show ((s3.kernels.set kid' { k with gangs := gs }).get? kid).map (fun k => (k.state, k.status)) = (s.kernels.get? kid).map _
  rw [h3, Tab.get?_set]
  split
  · next e => rw [e, hk]; rfl
  · rfl

theorem State.fate_discardKernel : (s.discardKernel kid').fate kid = s.fate kid := by
  have h (gs : List (Nat × Gang)) : ∀ s : State, (gs.foldl (fun s g => s.discardGang kid' g.1 false) s).fate kid = s.fate kid := by
    induction gs with
    | nil => exact fun _ => rfl
    | cons g r ih => exact fun s => (ih _).trans (State.fate_discardGang ..)
  unfold State.discardKernel
  split
  · exact h _ s
  · rfl

theorem State.settleSuspend_kernels (s : State) (ctx : Nat) : (s.settleSuspend ctx).kernels = s.kernels := by
  unfold State.settleSuspend
  dsimp only
  split <;> rfl

/-- R311: a Kernel enters Stopping with a status; other Kernels stand. -/
theorem State.fate_stopping : (s.stopping kid' st).fate kid = if kid' = kid then (s.fate kid).map (stopFate st) else s.fate kid := by
  have hd (x : Nat) : (s.discardKernel kid').fate x = s.fate x := State.fate_discardKernel
  unfold State.stopping
  extract_lets s1
  split
  · next k hk =>
    have hf : s.fate kid' = some (k.state, k.status) := by
      rw [← hd]
      exact congrArg (Option.map _) hk
    split
    · next hs =>
      rw [hd]
      split
      · next e =>
        rw [← e, hf, Option.map_some, stopFate, if_pos hs]
      · rfl
    · next hs =>
      refine Eq.trans (State.fate_congr (State.settleSuspend_kernels ..)) ?_
      show ((s1.kernels.set kid' _).get? kid).map (fun k => (k.state, k.status)) = _
      rw [Tab.get?_set]
      split
      · next e =>
        rw [if_pos e.symm, e, hf, Option.map_some, Option.map_some, stopFate, if_neg hs]
      · next e =>
        rw [if_neg (Ne.symm e), ← hd]
        rfl
  · next hk =>
    have hf : s.fate kid' = none := by
      rw [← hd]
      exact congrArg (Option.map _) hk
    rw [hd]
    split
    · next e => rw [← e, hf, Option.map_none]
    · rfl

/-- Kernels that stop together, each with its own fate (R319). -/
theorem State.fate_foldl_stopping (ks : List Nat) : ∀ s : State,
    (ks.foldl (fun s x => s.stopping x st) s).fate kid = if kid ∈ ks then (s.fate kid).map (stopFate st) else s.fate kid := by
  induction ks with
  | nil => exact fun _ => rfl
  | cons x r ih =>
    intro s
    rw [List.foldl_cons, ih, State.fate_stopping]
    by_cases hx : x = kid <;> by_cases hr : kid ∈ r <;>
      simp [hx, hr, Ne.symm, Function.comp_def, stopFate_stopFate]

/-! ## Stops on a fault -/

theorem mem_unionNat_of_mem {x : Nat} (b : List Nat) : ∀ {a : List Nat}, x ∈ a → x ∈ unionNat a b := by
  unfold unionNat
  induction b with
  | nil => exact id
  | cons y r ih =>
    intro a h
    refine ih ?_
    show x ∈ if a.contains y then a else a ++ [y]
    split
    · exact h
    · exact List.mem_append_left _ h

/-- A fault record is written outside the Kernels (R281). -/
theorem State.writeFault_kernels (s : State) (ctx : Nat) (bytes : Nat → List Byte) : (s.writeFault ctx bytes).kernels = s.kernels := by
  have ht (t : State) (pa : Nat) : (t.touch pa).kernels = t.kernels := by
    unfold State.touch
    split <;> rfl
  unfold State.writeFault
  extract_lets c pa s1
  rw [ht]
  unfold State.deviceUnit
  split
  · exact State.commitItems_kernels_ctxs.1
  · rfl

/-- The status of a Kernel that stops on a cause of a kind (R281, R311). -/
def stopStatus (kind seq : Nat) : Nat := if kind = kindConsumed then 0x12 * 2 ^ 24 else 0x11 * 2 ^ 24 + seq % 2 ^ 24

/-- R281, R311: a Running Kernel stops with the status of its cause. -/
theorem State.fate_stopKernel {k : Kernel} (hk : s.kernels.get? kid = some k) (hr : k.state = .running) (kind : Nat) (t : TrapInfo) :
    (s.stopKernel kid c slot kind t).fate kid = some (.stopping, stopStatus kind (s.ctx k.ctx).faultSeq) := by
  have hf : s.fate kid = some (.running, k.status) := by
    unfold State.fate
    rw [hk, Option.map_some, hr]
  have hgo : ¬ (k.state = .stopping ∨ k.state = .done) := by rw [hr]; decide
  have hin : kid ∈ s.joinedKernels kid := mem_unionNat_of_mem _ List.mem_cons_self
  simp only [State.stopKernel, hk, if_neg hgo]
  rw [State.fate_foldl_stopping, if_pos hin, State.fate_congr (State.writeFault_kernels ..), hf]
  rfl

/-- A Kernel that stops goes on stopping with its status, whichever Kernel stops after it. -/
theorem State.fate_stopKernel_of_stopping (h : s.fate kid = some (.stopping, n)) (kind : Nat) (t : TrapInfo) :
    (s.stopKernel kid' c slot kind t).fate kid = some (.stopping, n) := by
  unfold State.stopKernel
  split
  · split
    · exact h
    · extract_lets g team seq s1 st
      rw [State.fate_foldl_stopping, State.fate_congr (State.writeFault_kernels ..), h]
      split <;> rfl
  · exact h

theorem State.fate_modGroup (f : Group → Group) : (s.modGroup c slot f).fate kid = s.fate kid := State.fate_congr (State.modGroup_kernels ..)

theorem State.fate_openChunk : (s.openChunk c slot).fate kid = s.fate kid := by
  obtain ⟨cs, h⟩ := s.openChunk_only c slot
  exact State.fate_congr (by rw [h])

theorem State.fate_ite {p : Prop} [Decidable p] {t u : State} {f : Option (KState × Nat)} (ht : t.fate kid = f) (hu : u.fate kid = f) :
    (if p then t else u).fate kid = f := by
  split
  · exact ht
  · exact hu

theorem State.fate_enterTrap_of_stopping (h : s.fate kid = some (.stopping, n)) (t : TrapInfo) (lanes : List Nat) :
    (s.enterTrap c slot t lanes).fate kid = some (.stopping, n) := by
  unfold State.enterTrap
  split
  · exact State.fate_ite (State.fate_stopKernel_of_stopping h ..)
      (State.fate_ite (State.fate_stopKernel_of_stopping h ..) ((State.fate_modGroup _).trans h))
  · exact h

/-- A capacity change that is delivered wakes no Kernel that stops (R279). -/
theorem State.fate_deliverCap_of_stopping (h : s.fate kid = some (.stopping, n)) : (s.deliverCap c slot).fate kid = some (.stopping, n) := by
  unfold State.deliverCap
  split
  case h_2 => exact h
  split
  case h_2 => exact h
  refine State.fate_ite h (State.fate_ite ((State.fate_modGroup _).trans h) ?_)
  split
  · exact State.fate_openChunk.trans ((State.fate_modGroup _).trans (State.fate_enterTrap_of_stopping h _ _))
  · exact h

end

end Sys2Proof.Machine
end

section
/-! LEMMAS. Taking a trap at the commit that its Chunk ends with, and returning from one (R102, R257, R258, R279, R280). -/
set_option Elab.async false

namespace Sys2Proof.Machine

section
variable {s : State} {c slot kid : Nat} {g : Group} {lanes : List Nat}

/-! ## The commit of a Chunk that ends in a trap -/

/-- R87, R96: a complete Chunk that writes nothing at device scope, and waits for nothing, commits locally. -/
theorem execChunkReady_local (hg : s.group? c slot = some g) (hst : g.state = .committing) (hp : g.pend = [])
    (ho : ownsMma (s.core c) slot g.uid = false) (ha : s.accessWaits g = false) (hs : g.chunk.phase ≠ .soloRun)
    (hw : g.chunk.buf.any needsStamp = false) (hb : s.commitBlocked c g = false) :
    execChunkReady c slot s = .next (s.commitChunk c slot) := by
  simp [execChunkReady, hg, hst, hp, ho, ha, hs, hw, hb]

/-- The Group after the commit of an empty Chunk, before it takes its trap. -/
def State.beforeTrap (s : State) (c slot kid : Nat) (g : Group) : State :=
  (s.commitStores c slot kid g).modGroup c slot (fun g => { g with state := .running })

/-- R102: a Chunk without stores and effects that ends in a trap commits; then the trap is taken. -/
theorem State.commitChunk_trap {t : TrapInfo} (hg : s.group? c slot = some g) (hk : (s.core c).kernel = some kid)
    (hb : g.chunk.buf = []) (ha : g.chunk.acts = []) (hafter : g.chunk.after = .trap t lanes) :
    s.commitChunk c slot = ((s.beforeTrap c slot kid g).trapNow c slot t lanes).deliverCap c slot := by
  rw [State.commitChunk_stores hg hk (by rw [hb]; exact fun _ h => nomatch h) ha, hafter]
  rfl

theorem State.group?_beforeTrap (hg : s.group? c slot = some g) : (s.beforeTrap c slot kid g).group? c slot =
    some { g with mismatch := false, failed := [], state := .running } := by
  unfold State.beforeTrap
  rw [State.group?_modGroup_self, State.group?_commitStores hg]
  rfl

theorem SamePool.beforeTrap :
    SamePool c (s.setSpecial c slot offChunkstat (statAfterCommit (s.chunkstat c slot))) (s.beforeTrap c slot kid g) :=
  SamePool.commitStores.trans .modGroup

theorem State.beforeTrap_kernel : ((s.beforeTrap c slot kid g).core c).kernel = (s.core c).kernel :=
  SamePool.beforeTrap.kernel.trans (State.setSpecial_kernel ..)

theorem State.beforeTrap_launchAt : (s.beforeTrap c slot kid g).launchAt c = s.launchAt c :=
  SamePool.beforeTrap.launch.trans (State.setSpecial_launchAt ..)

theorem State.beforeTrap_wf (hw : Memory.wf (s.core c).pool = true) : Memory.wf ((s.beforeTrap c slot kid g).core c).pool = true :=
  SamePool.beforeTrap.pool ▸ State.setSpecial_wf _ _ hw

/-! ## The trap entry (R279, R280) -/

/-- The cause stands in trapcause, trapval and trappc (R73, R279). -/
def State.trapRegs (s : State) (c slot : Nat) (t : TrapInfo) : State :=
  ((s.setSpecial c slot offTrapcause (t.code * 256 + t.cause)).setSpecial c slot offTrapval t.val).setSpecial c slot offTrappc (t.pc / 4 * 4)

/-- Lanes with those of an entry at the trap entry, where they wait for nothing (R280). -/
def lanesAtTrap (pc : Nat) (lanes : List Nat) (ls : List Lane) : List Lane :=
  (ls.zip lanes32).map (fun x => if lanes.contains x.2 then { x.1 with pc := pc, wait := .none } else x.1)

theorem State.special_trapRegs (hw : Memory.wf (s.core c).pool = true) (t : TrapInfo) :
    (s.trapRegs c slot t).special c slot offTrapcause = (t.code * 256 + t.cause) % 2 ^ 32 ∧
      (s.trapRegs c slot t).special c slot offTrapval = t.val % 2 ^ 32 ∧
      (s.trapRegs c slot t).special c slot offTrappc = t.pc / 4 * 4 % 2 ^ 32 := by
  have h1 := State.setSpecial_wf (slot := slot) offTrapcause (t.code * 256 + t.cause) hw
  have h2 := State.setSpecial_wf (slot := slot) offTrapval t.val h1
  refine ⟨?_, ?_, State.special_setSpecial_self _ _ h2⟩
  · exact (State.special_setSpecial_of_apart _ h2 (by decide)).trans
      ((State.special_setSpecial_of_apart _ h1 (by decide)).trans (State.special_setSpecial_self _ _ hw))
  · exact (State.special_setSpecial_of_apart _ h2 (by decide)).trans (State.special_setSpecial_self _ _ h1)

theorem State.group?_trapRegs (t : TrapInfo) : (s.trapRegs c slot t).group? c slot = s.group? c slot := by
  simp [State.trapRegs]

section
variable (hg : s.group? c slot = some g) (hk : (s.core c).kernel = some kid) (hi : g.inTrap = none)
include hg hk hi

/-- R279, R280: in a Kernel with a trap entry the trap registers are written, and the lanes of the entry stand at the trap entry. -/
theorem State.enterTrap_entry (ht : (s.launchAt c).trapent ≠ 0xFFFFFFFF) (t : TrapInfo) : ∃ g',
    (s.enterTrap c slot t lanes).group? c slot = some g' ∧ SamePool c (s.trapRegs c slot t) (s.enterTrap c slot t lanes) ∧
      g'.state = .running ∧ g'.inTrap = some lanes ∧ g'.capPending = g.capPending ∧
      g'.lanes = lanesAtTrap (s.launchAt c).trapent lanes g.lanes := by
  have hr : (s.trapRegs c slot t).group? c slot = some g := (State.group?_trapRegs t).trans hg
  simp only [State.enterTrap, hg, hk, hi, Option.isSome_none, Bool.false_eq_true, if_false, if_neg ht]
  exact ⟨_, State.group?_modGroup_self.trans (congrArg (Option.map _) hr), SamePool.modGroup, rfl, rfl, rfl, rfl⟩

/-- R281: in a Kernel without a trap entry the Kernel stops. -/
theorem State.enterTrap_stops (ht : (s.launchAt c).trapent = 0xFFFFFFFF) (t : TrapInfo) :
    s.enterTrap c slot t lanes = s.stopKernel kid c slot kindFault t := by
  simp only [State.enterTrap, hg, hk, hi, Option.isSome_none, Bool.false_eq_true, if_false, if_pos ht]

end

/-- A lane of 32, changed by what stands at its number. -/
theorem getElem?_map_zip_lanes32 {α : Type} {ls : List Lane} (hl : ls.length = 32) (f : Lane × Nat → α) {l : Nat} {x : Lane}
    (hx : ls[l]? = some x) : ((ls.zip lanes32).map f)[l]? = some (f (x, l)) := by
  have h32 : l < 32 := hl ▸ (List.getElem?_eq_some_iff.mp hx).1
  have hn : lanes32[l]? = some l := by simp [lanes32, h32]
  rw [List.getElem?_map, List.getElem?_zip_eq_some (z := (x, l)).mpr ⟨hx, hn⟩, Option.map_some]

/-- R280: a lane of the entry stands at the trap entry, another where it stood. -/
theorem getElem?_lanesAtTrap {ls : List Lane} (hl : ls.length = 32) (pc : Nat) (lanes : List Nat) {l : Nat} {x : Lane}
    (hx : ls[l]? = some x) : (lanesAtTrap pc lanes ls)[l]? = some (if l ∈ lanes then { x with pc := pc, wait := .none } else x) := by
  unfold lanesAtTrap
  simpa only [List.contains_iff_mem] using getElem?_map_zip_lanes32 hl _ hx

/-- The launch record of a core's Kernel. -/
theorem State.launchAt_of_kernel {k : Kernel} (hk : (s.core c).kernel = some kid) (hks : s.kernels.get? kid = some k) :
    s.launchAt c = k.launch := by
  rw [State.launchAt_eq, hk, Option.bind_some, hks]
  rfl

section
variable {k : Kernel} {t : TrapInfo} (hg : s.group? c slot = some g) (hk : (s.core c).kernel = some kid) (hks : s.kernels.get? kid = some k)
  (hb : g.chunk.buf = []) (ha : g.chunk.acts = []) (hafter : g.chunk.after = .trap t lanes) (hi : g.inTrap = none)
include hg hk hks hb ha hafter hi

/-- R102, R279, R280: the commit of a Chunk that ends in a trap, in a Kernel with a trap entry. -/
theorem State.commitChunk_entersTrap (hw : Memory.wf (s.core c).pool = true) (hc : g.capPending = none)
    (ht : k.launch.trapent ≠ 0xFFFFFFFF) : ∃ g', (s.commitChunk c slot).group? c slot = some g' ∧ g'.state = .running ∧ g'.inTrap = some lanes ∧
      g'.lanes = lanesAtTrap k.launch.trapent lanes g.lanes ∧
      (s.commitChunk c slot).special c slot offTrapcause = (t.code * 256 + t.cause) % 2 ^ 32 ∧
      (s.commitChunk c slot).special c slot offTrapval = t.val % 2 ^ 32 ∧
      (s.commitChunk c slot).special c slot offTrappc = t.pc / 4 * 4 % 2 ^ 32 := by
  have hbg := State.group?_beforeTrap (kid := kid) hg
  have hbk : ((s.beforeTrap c slot kid g).core c).kernel = some kid := State.beforeTrap_kernel.trans hk
  have hbl : (s.beforeTrap c slot kid g).launchAt c = k.launch := State.beforeTrap_launchAt.trans (State.launchAt_of_kernel hk hks)
  obtain ⟨g', hg', hregs, hstate, hin, hcap, hlanes⟩ := State.enterTrap_entry (lanes := lanes) hbg hbk hi (hbl ▸ ht) t
  have hopen := State.group?_openChunk hg'
  have hpool := hregs.trans (.openChunk (slot := slot))
  obtain ⟨hcause, hval, hpc⟩ := State.special_trapRegs (slot := slot) (State.beforeTrap_wf (slot := slot) (kid := kid) (g := g) hw) t
  rw [State.commitChunk_trap hg hk hb ha hafter, State.trapNow, State.deliverCap_of_none hopen (hcap.trans hc)]
  exact ⟨_, hopen, hstate, hin, hlanes.trans (by rw [hbl]), (hpool.special _).trans hcause, (hpool.special _).trans hval,
    (hpool.special _).trans hpc⟩

/-- R281: the same in a Running Kernel without a trap entry: it stops with the status of a fault. -/
theorem State.commitChunk_stopsKernel (ht : k.launch.trapent = 0xFFFFFFFF) (hr : k.state = .running) :
    (s.commitChunk c slot).fate kid = some (.stopping, stopStatus kindFault (s.ctx k.ctx).faultSeq) := by
  have hbg := State.group?_beforeTrap (kid := kid) hg
  have hbk : ((s.beforeTrap c slot kid g).core c).kernel = some kid := State.beforeTrap_kernel.trans hk
  have hbl : (s.beforeTrap c slot kid g).launchAt c = k.launch := State.beforeTrap_launchAt.trans (State.launchAt_of_kernel hk hks)
  obtain ⟨_, _, hkernels, hctxs, _⟩ := State.commitStores_unstamped (s := s) (c := c) (slot := slot) (kid := kid) (g := g) (by rw [hb]; rfl)
  have hbks : (s.beforeTrap c slot kid g).kernels.get? kid = some k := by
    rw [State.beforeTrap, State.modGroup_kernels, hkernels, hks]
  have hbctx : (s.beforeTrap c slot kid g).ctx k.ctx = s.ctx k.ctx := by
    rw [State.ctx, State.beforeTrap, State.modGroup_ctxs, hctxs]
    rfl
  rw [State.commitChunk_trap hg hk hb ha hafter]
  refine State.fate_deliverCap_of_stopping ?_
  rw [State.trapNow, State.fate_openChunk, State.enterTrap_stops hbg hbk hi (by rw [hbl, ht]), State.fate_stopKernel hbks hr, hbctx]

end

/-! ## The return (R258) -/

/-- R258, R280: the lanes of the entry stand at trappc, as they stood before, and the trap entry has ended. -/
theorem State.group?_leaveTrap (hg : s.group? c slot = some g) (hl : g.lanes.length = 32) (lanes : List Nat) :
    ∃ g', (s.leaveTrap c slot lanes).group? c slot = some g' ∧ g'.inTrap = none ∧ ∀ l x, g.lanes[l]? = some x →
      g'.lanes[l]? = some (if l ∈ lanes then
        { x with pc := s.special c slot offTrappc / 4 * 4, wait := (g.trapWaits.get? l).getD x.wait } else x) := by
  unfold State.leaveTrap
  rw [State.group?_modGroup_self, hg]
  refine ⟨_, rfl, rfl, fun l x hx => ?_⟩
  simpa only [List.contains_iff_mem] using getElem?_map_zip_lanes32 hl _ hx

end

/-! ## TRAP (R257) -/

/-- The word of TRAP: t and the code stand in their fields. -/
theorem encode_trap (h : Bool) {code : Nat} (hc : code < 128) :
    ∃ w, encode (.trap h code) = some w ∧ bitAt w 21 = h ∧ field w 13 7 = code := by
  refine ⟨word 0x3E 0 h 0 code 0, rfl, ?_, ?_⟩
  · cases h <;> simp only [bitAt, word, Bool.toNat_false, Bool.toNat_true, beq_iff_eq, beq_eq_false_iff_ne] <;> omega
  · simp only [field, word]
    omega

/-- Settles O55: the ended Chunk commits locally, and at that commit the trap is taken or the Kernel stops; leaving is one change of the Group;
TRAP's word is an effect that ends its Chunk. -/
theorem trapAndReturn : Obligations.TrapAndReturn := by
  intro s c slot kid g k t lanes hg hk hks hw hlen
  refine ⟨fun hst hphase hafter hb ha hp hacc hmma hblocked hin hcap => ?_, State.group?_leaveTrap hg hlen lanes, fun h code hc => ?_⟩
  · have hexec : exec (.chunkReady c slot) s = .next (s.commitChunk c slot) :=
      execChunkReady_local hg hst hp hmma hacc (by rw [hphase]; decide) (by rw [hb]; rfl) hblocked
    refine ⟨fun ht hcause hcode hval hpc hpc4 => ?_, fun ht hr => ?_⟩
    · obtain ⟨g', hg', hstate, hinTrap, hlanes, h1, h2, h3⟩ := State.commitChunk_entersTrap hg hk hks hb ha hafter hin hw hcap ht
      refine ⟨_, g', hexec, hg', hstate, hinTrap, h1.trans ?_, h2.trans ?_, h3.trans ?_, fun l x hx => ?_⟩
      · omega
      · omega
      · omega
      · rw [hlanes, getElem?_lanesAtTrap hlen _ _ hx]
    · obtain ⟨k', hk', hfate⟩ := Option.map_eq_some_iff.mp (State.commitChunk_stopsKernel hg hk hks hb ha hafter hin ht hr)
      obtain ⟨hstate, hstatus⟩ := Prod.mk.inj hfate
      exact ⟨_, k', hexec, hk', hstate, hstatus⟩
  · obtain ⟨w, hw, ht, hf⟩ := encode_trap h hc
    have hx (s : State) : exec (.trap h code) s = execTrap h code s := rfl
    exact ⟨w, hw, ht, hf, performs_of_issueWord hx fun _ _ _ => rfl⟩

end Sys2Proof.Machine
end

section
/-! LEMMAS. What the order of Chunks asks of the machine around it (R86 to R97): no code word changes the device, a word without room ends its Chunk,
ended Chunks commit, the token passes. -/
set_option Elab.async false

namespace Sys2Proof.Machine

/-- Settles O60: what a code word does when it issues keeps the device around the cores. -/
theorem wordsKeepTheDevice : Obligations.WordsKeepTheDevice := by
  intro i s t hi h
  have hk : OutKeeps s (exec i s) := exec_code_keeps i s hi
  rw [h] at hk
  obtain ⟨h1, h2, h3, h4, h5, h6, h7, h8, h9, h10, h11, h12, h13, h14, h15, _⟩ : Keeps s t := hk
  exact ⟨h1, h2, h3, h4, h5, h6, h7, h8, h9, h10, h11, h12, h13, h14, h15⟩

/-! ## Words that do not fit (R86) -/

section
variable {s : State} {c slot : Nat} {g : Group} {after : After}

/-- R85, R86, R122: the Group of a Chunk that ends is Committing; words of an unfinished sequence leave the Chunk. -/
def Group.ended (g : Group) (after : After) (clk : Nat) : Group :=
  { g with state := .committing, chosen := none, seq := Seq.empty,
           chunk := { g.chunk with words := g.chunk.words - g.seq.n, after := after,
                                   phase := if g.chunk.phase = .soloRun then .soloRun else .ended, endClk := clk } }

theorem State.endChunk_eq (hg : s.group? c slot = some g) :
    s.endChunk c slot after = (s.setGroup c slot (g.ended after s.clk)).due [.chunkReady c slot] := by
  simp only [State.endChunk, hg]
  rfl

theorem State.group?_endChunk (hg : s.group? c slot = some g) :
    (s.endChunk c slot after).group? c slot = some (g.ended after s.clk) := by
  rw [State.endChunk_eq hg, State.group?_due, State.group?_setGroup_self]

end

/-- R86: a word for whose effect the Chunk has no room ends the Chunk before it. -/
theorem issueWord_noRoom {d : Desc} {s : State} {is : Issue} (h : Issues d s is) {body : Issue → State → Verdict} {e : Eff}
    (hb : body is s = .go e) (hr : ¬HasRoom is s e) : issueWord d body s = .next (s.endChunk is.core is.slot .run) := by
  rw [issueWord_settle h, hb]
  refine congrArg Host.Outcome.next (if_pos ?_)
  simp only [HasRoom, not_or, not_and_or, Nat.not_le] at hr
  simpa only [Bool.and_eq_true, Bool.or_eq_true, decide_eq_true_eq] using hr

/-- Settles O54: the Chunk's end is one change of its Group, and CHUNK_READY is due. -/
theorem wordsThatDoNotFit : Obligations.WordsThatDoNotFit := by
  intro i d c e body hx hb
  refine ⟨performs_of_issueWord hx hb, fun s is hi hc hr => ?_⟩
  have honly := (CoreOnly.refl is.core is.slot s).endChunk .run
  exact ⟨_, _, (hx s).trans (issueWord_noRoom hi (hb is s hc) hr), State.group?_endChunk hi.group, rfl, rfl, rfl, honly.outside,
    by rw [honly.core], honly.others⟩

/-! ## Ended Chunks (R87, R89, R96) -/

/-- Settles O21: CHUNK_READY by its branches. -/
theorem chunkReady : Obligations.ChunkReady := by
  intro s c slot g hg hst part complete solo writes
  have hready {t : State} (hx : execChunkReady c slot s = .next t) : exec (.chunkReady c slot) s = .next t := hx
  refine ⟨fun hn => hready ?_, fun ⟨hp, ho, ha⟩ hs hw => hready ?_, fun ⟨hp, ho, ha⟩ hs hw hb => hready ?_, fun ⟨hp, ho, ha⟩ hs hw hf => hready ?_⟩
  · have hwait : (!g.pend.isEmpty || ownsMma (s.core c) slot g.uid || s.accessWaits g) = true := by
      rw [← Bool.not_eq_false]
      simpa [complete, and_assoc] using hn
    simp [execChunkReady, hg, hst, hwait]
  · have hs : g.chunk.phase = .soloRun := hs
    simp [execChunkReady, hg, hst, hp, ho, ha, hs, hw, part]
  · exact execChunkReady_local hg hst hp ho ha hs hw hb
  · have hw : g.chunk.buf.any needsStamp = true := hw
    have hnone : s.offers.any (fun o => o.what == .chunk c slot g.uid) = false := by
      simpa using hf
    simp [execChunkReady, hg, hst, hp, ho, ha, show g.chunk.phase ≠ .soloRun from hs, hw, hnone, part]

end Sys2Proof.Machine
end

section
/-! LEMMAS. The token, the broadcasts and the end of a solo holding (R89, R94, R95, R97, R101). -/
set_option Elab.async false

namespace Sys2Proof.Machine

/-! ## COMMIT_BATCH (R94, R95) -/

section
variable {s : State} {part : Nat}

theorem execCommitBatch_solo (h : (s.solo.get? part).isSome) : execCommitBatch part s = .next (s.due [.commitBatch part]) := if_pos h

section
variable {d : Nat} (h : s.solo.get? part = none)
  (hd : (diesFrom (s.token.getD part 2)).find? (fun d => bitAt (s.part part).dmask d && s.arbiterBusy d &&
    (s.reaches (s.token.getD part 2) d || !bitAt (s.part part).dmask (s.token.getD part 2))) = some d)
include h hd

/-- R101: a Solo-wait Chunk of the die takes the token. -/
theorem execCommitBatch_startSolo {c slot uid : Nat} (hw : { s with token := s.token.set part d }.soloWaiting d = some (c, slot, uid)) :
    execCommitBatch part s = .next ({ s with token := s.token.set part d }.startSolo part c slot uid) := by
  simp only [execCommitBatch, h, hd, hw, Option.isSome_none, Bool.false_eq_true, if_false]

/-- R95: without one a batch is formed of the units that are open. -/
theorem execCommitBatch_batch (hw : { s with token := s.token.set part d }.soloWaiting d = none) :
    let s1 := { s with token := s.token.set part d }
    let t := (s1.batch part (sortOffers (s.offers.filter (fun o => o.die == d && s1.offerOpen o))) batchSize [] []).makeRooms d
    execCommitBatch part s = .next (if t.offers.any (fun o => bitAt (s.part part).dmask o.die) then t.due [.commitBatch part] else t) := by
  simp only [execCommitBatch, h, hd, hw, Option.isSome_none, Bool.false_eq_true, if_false]

end

end

/-! ## SIGNATURE_BROADCAST (R97) -/

/-- R97: of a core's Groups, those whose Chunk read a written sector are squashed. -/
theorem execSignatureBroadcast_here {s : State} {c : Nat} {b : Broadcast} {r : List Broadcast} (hi : (s.core c).inbox = b :: r)
    (hx : s.crossingTo c (castTag (s.partOfDie (dieOf c)) b.stamp) = false) :
    execSignatureBroadcast c s = .next (((s.core c).groups.filter (fun e => (e.2.chunk.phase == .opened || e.2.chunk.phase == .ended) &&
      sigHit e.2.chunk.reads b.sectors)).foldl (fun s e => s.squash c e.1 true) (s.setCore c { s.core c with inbox := r, seen := b.stamp })) := by
  simp only [execSignatureBroadcast, hi, hx, Bool.false_eq_true, if_false, List.foldl_filter]

theorem execSignatureBroadcast_onItsWay {s : State} {c : Nat} {b : Broadcast} {r : List Broadcast} (hi : (s.core c).inbox = b :: r)
    (hx : s.crossingTo c (castTag (s.partOfDie (dieOf c)) b.stamp) = true) :
    execSignatureBroadcast c s = .next (s.due [.signatureBroadcast c]) := by
  simp only [execSignatureBroadcast, hi, hx, if_true]

/-! ## SOLO_TIMEOUT (R89) -/

section
variable {s : State} {c slot : Nat} {g : Group}

@[simp] theorem State.restoreUndo_solo (u : List Undo) : (s.restoreUndo u).solo = s.solo := by
  unfold State.restoreUndo
  induction u.reverse generalizing s with
  | nil => rfl
  | cons e r ih => rw [List.foldl_cons, ih]; rfl

@[simp] theorem State.restoreTiles_solo (ts : List Nat) : (s.restoreTiles c ts).solo = s.solo := by
  unfold State.restoreTiles
  induction ts generalizing s with
  | nil => rfl
  | cons t r ih => rw [List.foldl_cons, ih]; rfl

/-- R89, R100: a squashed Chunk gives up the token. -/
theorem State.squash_solo (hg : s.group? c slot = some g) (conflict : Bool) :
    (s.squash c slot conflict).solo = s.solo.filter (fun e => e.2 != (c, slot, g.uid)) := by
  have hu : (s.undoChunk c slot).solo = s.solo.filter (fun e => e.2 != (c, slot, g.uid)) := by
    simp [State.undoChunk, hg, State.dropChunk]
  unfold State.squash
  split
  case h_2 hn => cases hg.symm.trans hn
  next g' hg' =>
  cases hg.symm.trans hg'
  extract_lets st n s1 k s2 base s3 solo s4
  have h4 : s4.solo = s1.solo := by
    unfold s4 s3 s2
    rw [State.modGroup_solo, State.setSpecial_solo]
    split <;> rfl
  split <;> exact h4.trans hu

end

/-- R89: one holding, which ends with the squash of its Chunk where 20 µs have passed. -/
theorem execSoloTimeout_one {s : State} {part c slot : Nat} {g : Group} (hs : s.solo = [(part, (c, slot, g.uid))])
    (hg : s.group? c slot = some g) :
    (g.chunk.soloNs + 20000 ≤ s.wall → execSoloTimeout s = .next ((s.squash c slot false).releaseSolo c slot g.uid part)) ∧
    (s.wall < g.chunk.soloNs + 20000 → execSoloTimeout s = .next (s.due [.soloTimeout])) := by
  refine ⟨fun h => ?_, fun h => ?_⟩
  · have hend : ((s.squash c slot false).releaseSolo c slot g.uid part).solo = [] := by
      simp [State.releaseSolo, State.squash_solo hg, hs]
    simp [execSoloTimeout, hs, hg, h, hend]
  · simp [execSoloTimeout, hs, hg, Nat.not_le.mpr h]

/-- Settles O24: COMMIT_BATCH, SIGNATURE_BROADCAST and SOLO_TIMEOUT by their branches. -/
theorem arbitersAndBroadcasts : Obligations.ArbitersAndBroadcasts := fun _ _ =>
  ⟨execCommitBatch_solo, fun _ _ _ _ h hd hw => execCommitBatch_startSolo h hd hw, fun _ h hd hw => execCommitBatch_batch h hd hw,
    fun _ _ _ hi hx => execSignatureBroadcast_here hi hx, fun _ _ _ hi hx => execSignatureBroadcast_onItsWay hi hx,
    fun _ _ _ hs hg => execSoloTimeout_one hs hg⟩

end Sys2Proof.Machine
end

section
/-! LEMMAS. The end of an engine's operation (R114, R237): its status word, its number, and what waits for it. -/
set_option Elab.async false

namespace Sys2Proof.Machine

/-! ## Timelines (R114) -/

theorem length_filter_ne_lt {xs : List Nat} {x : Nat} (h : x ∈ xs) : (xs.filter (· != x)).length < xs.length :=
  List.length_filter_lt_length_iff_exists.mpr ⟨x, h, by simp⟩

/-- The complete run moves up through the numbers beyond it: the numbers complete are the same, and the next one is not among them. -/
theorem advancePrefix_spec (fuel : Nat) : ∀ t : Timeline, t.beyond.length ≤ fuel →
    let u := advancePrefix fuel t
    t.count ≤ u.count ∧ u.assigned = t.assigned ∧ (∀ m, m ≤ u.count ∨ m ∈ u.beyond ↔ m ≤ t.count ∨ m ∈ t.beyond) ∧ u.count + 1 ∉ u.beyond := by
  induction fuel with
  | zero =>
    intro t h
    have hb : t.beyond = [] := List.length_eq_zero_iff.mp (by omega)
    exact ⟨le_rfl, rfl, fun _ => Iff.rfl, by rw [show (advancePrefix 0 t).beyond = [] from hb]; exact List.not_mem_nil⟩
  | succ n ih =>
    intro t h
    by_cases hc : t.count + 1 ∈ t.beyond
    · have hstep : advancePrefix (n + 1) t =
          advancePrefix n { t with count := t.count + 1, beyond := t.beyond.filter (· != t.count + 1) } := by
        simp [advancePrefix, hc]
      have hlen := length_filter_ne_lt hc
      obtain ⟨hle, hass, hmem, hnext⟩ := ih { t with count := t.count + 1, beyond := t.beyond.filter (· != t.count + 1) } (by dsimp only; omega)
      rw [hstep]
      refine ⟨Nat.le_of_succ_le hle, hass, fun m => (hmem m).trans ?_, hnext⟩
      simp only [List.mem_filter, bne_iff_ne]
      by_cases hm : m = t.count + 1
      · simp [hm, hc]
      · simp only [hm, ne_eq, not_false_eq_true, and_true]
        exact or_congr_left (by omega)
    · have hstep : advancePrefix (n + 1) t = t := by simp [advancePrefix, hc]
      rw [hstep]
      exact ⟨le_rfl, rfl, fun _ => Iff.rfl, hc⟩

/-- R114: a number completes; the count stands at the end of the complete run. -/
theorem Timeline.complete_spec (t : Timeline) (n : Nat) :
    let u := t.complete n
    t.count ≤ u.count ∧ u.assigned = t.assigned ∧
      (∀ m, m ≤ u.count ∨ m ∈ u.beyond ↔ m ≤ t.count ∨ m ∈ t.beyond ∨ m = n) ∧ (u.count + 1) ∉ u.beyond := by
  have h := advancePrefix_spec (t.beyond.length + 1) { t with beyond := t.beyond ++ [n] } (by simp)
  simpa only [Timeline.complete, List.mem_append, List.mem_singleton] using h

/-! ## Operations and timelines stand -/

/-- From s to t the operations and the counters of all timelines stand. -/
structure CountsStand (s t : State) : Prop where
  ops : t.ops = s.ops
  timelines : ∀ c, (t.ctx c).timelines = (s.ctx c).timelines

section
variable {s t u : State}

theorem CountsStand.refl (s : State) : CountsStand s s := ⟨rfl, fun _ => rfl⟩

theorem CountsStand.trans (h : CountsStand s t) (k : CountsStand t u) : CountsStand s u :=
  ⟨k.ops.trans h.ops, fun c => (k.timelines c).trans (h.timelines c)⟩

/-- Neither operations nor Contexts have changed. -/
theorem CountsStand.elsewhere (h : CountsStand s t) (ho : u.ops = t.ops := by rfl) (hc : u.ctxs = t.ctxs := by rfl) : CountsStand s u :=
  h.trans ⟨ho, fun c => by unfold State.ctx; rw [hc]⟩

theorem CountsStand.ite {p : Prop} [Decidable p] (ht : CountsStand s t) (hu : CountsStand s u) : CountsStand s (if p then t else u) := by
  split
  · exact ht
  · exact hu

theorem CountsStand.foldl {α : Type} {f : State → α → State} {l : List α} (h : CountsStand s t)
    (hf : ∀ {u a}, CountsStand s u → CountsStand s (f u a)) : CountsStand s (l.foldl f t) := by
  induction l generalizing t with
  | nil => exact h
  | cons a l ih => exact ih (hf h)

theorem State.ctx_setCtx (s : State) (c : Nat) (x : Ctx) (k : Nat) : (s.setCtx c x).ctx k = if k = c then x else s.ctx k := by
  unfold State.ctx State.setCtx Tab.getD
  rw [Tab.get?_set]
  split <;> rfl

/-- A Context changed in anything but its timelines. -/
theorem CountsStand.setCtx {c : Nat} {x : Ctx} (h : CountsStand s t) (hx : x.timelines = (t.ctx c).timelines := by rfl) :
    CountsStand s (t.setCtx c x) :=
  h.trans ⟨rfl, fun k => by
    rw [State.ctx_setCtx]
    split
    · next hk => rw [hx, hk]
    · rfl⟩

theorem State.commitItems_ops {part die : Nat} {items : List BufItem} {owner op : Option Nat} {cluster : Option (Nat × Nat)} :
    (s.commitItems part die items owner op cluster).ops = s.ops := by
  unfold State.commitItems
  dsimp only
  obtain ⟨ps, ag, h⟩ := sendAcross_only s (s.unitEnd die owner op cluster) (diffTag part (s.stamps.getD part 1)) (itemAddrs s.regions items)
  rw [h]
  obtain ⟨qs, ah, k⟩ := sendPackets_only (fun c => c) (fun _ => castTag part (s.stamps.getD part 1)) (s.unitEnd die owner op cluster)
    ((s.coresOf part).filter (fun c => dieOf c != endDie (s.unitEnd die owner op cluster))) { s with pairs := ps, agenda := s.agenda ++ ag }
  rw [k]

theorem CountsStand.deviceUnit {part : Nat} {items : List BufItem} {op : Option Nat} (h : CountsStand s t) :
    CountsStand s (t.deviceUnit part items op) :=
  .ite (h.elsewhere State.commitItems_ops State.commitItems_kernels_ctxs.2) h.elsewhere

theorem CountsStand.touch {pa : Nat} (h : CountsStand s t) : CountsStand s (t.touch pa) := .ite h h.elsewhere

theorem CountsStand.writeFault {ctx : Nat} {bytes : Nat → List Byte} (h : CountsStand s t) : CountsStand s (t.writeFault ctx bytes) :=
  (h.setCtx.deviceUnit).touch

theorem CountsStand.settleCtx {ctx : Nat} (h : CountsStand s t) : CountsStand s (t.settleCtx ctx) := by
  unfold State.settleCtx
  extract_lets c
  split
  · exact .ite h.setCtx h
  · exact .ite h.setCtx.writeFault h
  · exact h

theorem CountsStand.settleIndex {n : Nat} (h : CountsStand s t) : CountsStand s (t.settleIndex n) := .ite h.elsewhere h

theorem CountsStand.endNode {q seq status : Nat} (h : CountsStand s t) : CountsStand s (t.endNode q seq status) := by
  unfold State.endNode
  split
  · exact .ite h.elsewhere h
  · exact h

theorem CountsStand.afterOp {id : Nat} {o : Op} (h : CountsStand s t) : CountsStand s (t.afterOp id o) := by
  unfold State.afterOp
  extract_lets c x s1 s2
  have h1 : CountsStand s s1 := .ite (.ite h.elsewhere h.elsewhere) h
  have h2 : CountsStand s s2 := by
    unfold s2
    split
    · exact h1.endNode
    · exact h1
  split
  · exact h2.elsewhere
  · exact h2

/-- Parity differences change the pairs, what is sent of the parity, and what is due. -/
theorem State.parityOf_only (s : State) (m : Memory) (stamp : Nat) (prot : List Nat) (owner cluster : Option Nat) (it : BufItem) :
    ∃ ps sq pd ag, s.parityOf m stamp prot owner cluster it = { s with pairs := ps, paritySeq := sq, parity := pd, agenda := ag } := by
  have send (s : State) (g : CollGroup) (pa : Nat) (p : Bool) (d : List Byte) : ∃ ps sq pd ag,
      s.sendParity g stamp pa p owner cluster d = { s with pairs := ps, paritySeq := sq, parity := pd, agenda := ag } := by
    unfold State.sendParity
    extract_lets o q n s1
    have h1 : ∃ ps ag, s1 = { s with pairs := ps, agenda := ag } := by
      unfold s1
      split
      · exact ⟨_, _, rfl⟩
      · exact ⟨_, _, rfl⟩
    obtain ⟨ps, ag, h⟩ := h1
    rw [h]
    exact ⟨_, _, _, _, rfl⟩
  have sends (g : CollGroup) (rs : List (Nat × List Byte)) : ∀ t : State, ∃ ps sq pd ag, rs.foldl (fun t r =>
      t.sendParity g stamp r.1 (prot.contains (lineKey t.regions r.1)) owner cluster r.2) t =
        { t with pairs := ps, paritySeq := sq, parity := pd, agenda := ag } := by
    induction rs with
    | nil => exact fun t => ⟨_, _, _, _, rfl⟩
    | cons r rs ih =>
      intro t
      obtain ⟨_, _, _, _, h⟩ := send t g r.1 (prot.contains (lineKey t.regions r.1)) r.2
      obtain ⟨ps, sq, pd, ag, k⟩ := ih (t.sendParity g stamp r.1 (prot.contains (lineKey t.regions r.1)) owner cluster r.2)
      exact ⟨ps, sq, pd, ag, k.trans (by rw [h])⟩
  unfold State.parityOf
  split
  · split
    · exact ⟨_, _, _, _, rfl⟩
    · exact sends ..
  · exact ⟨_, _, _, _, rfl⟩

theorem CountsStand.rawPut {pa : Nat} {bs : List Byte} (h : CountsStand s t) : CountsStand s (t.rawPut pa bs) := by
  unfold State.rawPut
  extract_lets it u
  obtain ⟨_, _, _, _, hu⟩ := t.parityOf_only t.mem (t.lastStamp 0) [] none none it
  have h1 : CountsStand s u := h.elsewhere (by rw [show u = _ from hu]) (by rw [show u = _ from hu])
  exact h1.elsewhere

/-- R343: an arrival of an engine counts at a Barrier, or in the saved words of one. -/
theorem CountsStand.arriveOther {team b : Nat} (h : CountsStand s t) : CountsStand s (t.arriveOther team b) := by
  unfold State.arriveOther
  split
  · exact h
  · refine .ite h ?_
    extract_lets bar k
    split
    · extract_lets x r s1
      have h1 : CountsStand s s1 := h.rawPut
      refine .ite h (.ite ?_ h1)
      split
      · split
        · exact h1.foldl fun k => k.foldl fun k => by
            extract_lets a m
            exact .ite k.rawPut k
        · exact h1
      · exact h1
    · exact h.elsewhere

end

/-! ## Memory and pools stand -/

/-- From s to t device memory and every core's pool stand. -/
structure BytesStand (s t : State) : Prop where
  mem : t.mem = s.mem
  pools : t.cores.map (fun e => e.2.pool) = s.cores.map (fun e => e.2.pool)

section
variable {s t u : State}

theorem BytesStand.refl (s : State) : BytesStand s s := ⟨rfl, rfl⟩

theorem BytesStand.elsewhere (h : BytesStand s t) (hm : u.mem = t.mem := by rfl) (hc : u.cores = t.cores := by rfl) : BytesStand s u :=
  ⟨hm.trans h.mem, (congrArg (List.map _) hc).trans h.pools⟩

theorem BytesStand.ite {p : Prop} [Decidable p] (ht : BytesStand s t) (hu : BytesStand s u) : BytesStand s (if p then t else u) := by
  split
  · exact ht
  · exact hu

theorem BytesStand.commitItems {part die : Nat} {items : List BufItem} {owner op : Option Nat} {cluster : Option (Nat × Nat)}
    (h : BytesStand s t) : BytesStand s (t.commitItems part die items owner op cluster) := by
  refine ⟨(Keeps.commitItems ..).mem.trans h.mem, Eq.trans ?_ h.pools⟩
  unfold State.commitItems
  rw [List.map_map]
  refine List.map_congr_left fun e _ => ?_
  dsimp only [Function.comp]
  split <;> rfl

theorem BytesStand.deviceUnit {part : Nat} {items : List BufItem} {op : Option Nat} (h : BytesStand s t) :
    BytesStand s (t.deviceUnit part items op) := .ite h.commitItems h.elsewhere

theorem BytesStand.writeFault {ctx : Nat} {bytes : Nat → List Byte} (h : BytesStand s t) : BytesStand s (t.writeFault ctx bytes) := by
  unfold State.writeFault State.touch
  extract_lets c pa s1
  have h1 : BytesStand s s1 := h.elsewhere
  exact .ite h1.deviceUnit h1.deviceUnit.elsewhere

theorem BytesStand.settleCtx {ctx : Nat} (h : BytesStand s t) : BytesStand s (t.settleCtx ctx) := by
  unfold State.settleCtx
  extract_lets c
  have h1 {x : Ctx} : BytesStand s (t.setCtx ctx x) := h.elsewhere
  split
  · exact .ite h1 h
  · exact .ite h1.writeFault h
  · exact h

theorem BytesStand.settleIndex {n : Nat} (h : BytesStand s t) : BytesStand s (t.settleIndex n) := .ite h.elsewhere h

theorem BytesStand.endNode {q seq status : Nat} (h : BytesStand s t) : BytesStand s (t.endNode q seq status) := by
  unfold State.endNode
  split
  · exact .ite h.elsewhere h
  · exact h

theorem BytesStand.afterOp {id : Nat} {o : Op} (h : BytesStand s t) : BytesStand s (t.afterOp id o) := by
  unfold State.afterOp
  extract_lets c x s1 s2
  have h1 : BytesStand s s1 := .ite (.ite h.elsewhere h.elsewhere) h
  have h2 : BytesStand s s2 := by
    unfold s2
    split
    · exact h1.endNode
    · exact h1
  split
  · exact h2.elsewhere
  · exact h2

end

/-! ## OPERATION_COMPLETE (R237) -/

/-- What OPERATION_COMPLETE does once its number is complete: the operation is gone, and what waits for it goes on. -/
def State.dropOp (s : State) (id : Nat) (o : Op) : State :=
  let t := { s with ops := s.ops.erase id }.afterOp id o
  (match opIndex o with | some n => t.settleIndex n | none => t).settleCtx o.ctx

/-- The arrival of a finished command on its Team's Barrier (R237, R343). -/
def State.arriveFor (s : State) (o : Op) : State :=
  if cmdBaren o.cmd then (match o.team with | some t => s.arriveOther t (cmdBar o.cmd) | none => s) else s

/-- A number completes on a timeline. -/
def State.completeNum (s : State) (ctx q n : Nat) : State := s.setTimeline ctx q ((s.timeline ctx q).complete n)

section
variable {s : State} {id : Nat} {o : Op}

theorem execOperationComplete_done (ho : s.op? id = some o) (hs : o.state = .status) (hu : o.units = 0) :
    execOperationComplete id s = .next (((s.arriveFor o).completeNum o.ctx o.q o.num).dropOp id o) := by
  simp only [execOperationComplete, ho, hs, hu]
  rfl

theorem execOperationComplete_early (ho : s.op? id = some o) (h : o.state ≠ .status ∨ o.units ≠ 0) :
    execOperationComplete id s = .next s := by
  have hn : (decide (o.state ≠ .status) || decide (o.units ≠ 0)) = true := by simpa only [Bool.or_eq_true, decide_eq_true_eq] using h
  simp only [execOperationComplete, ho]
  exact if_pos hn

theorem State.dropOp_counts : CountsStand { s with ops := s.ops.erase id } (s.dropOp id o) := by
  have h : CountsStand { s with ops := s.ops.erase id } ({ s with ops := s.ops.erase id }.afterOp id o) := (CountsStand.refl _).afterOp
  unfold State.dropOp
  split
  · exact h.settleIndex.settleCtx
  · exact h.settleCtx

theorem State.dropOp_bytes : BytesStand s (s.dropOp id o) := by
  have h1 : BytesStand s { s with ops := s.ops.erase id } := (BytesStand.refl s).elsewhere
  have h := h1.afterOp (id := id) (o := o)
  unfold State.dropOp
  split
  · exact h.settleIndex.settleCtx
  · exact h.settleCtx

theorem State.arriveFor_counts : CountsStand s (s.arriveFor o) := by
  refine .ite ?_ (.refl s)
  split
  · exact (CountsStand.refl s).arriveOther
  · exact .refl s

theorem State.completeNum_timeline (ctx q n : Nat) : (s.completeNum ctx q n).timeline ctx q = (s.timeline ctx q).complete n := by
  unfold State.completeNum State.setTimeline State.timeline
  rw [State.ctx_setCtx, if_pos rfl]
  exact Tab.getD_set_self ..

theorem Tab.get?_erase {α : Type} (t : Tab α) (k j : Nat) : (t.erase k).get? j = if j = k then none else t.get? j := by
  induction t with
  | nil => simp [Tab.erase]
  | cons e r ih =>
    unfold Tab.erase at ih ⊢
    rw [List.filter_cons]
    by_cases he : e.1 = k
    · subst he
      by_cases hj : j = e.1
      · simpa [hj] using ih
      · simpa [hj, Tab.get?, Ne.symm hj] using ih
    · by_cases hj : e.1 = j
      · subst hj
        simp [he, Tab.get?]
      · simpa [he, hj, Tab.get?] using ih

/-- R237: the command ends: it leaves its queue, and its number completes. -/
theorem execOperationComplete_ends (ho : s.op? id = some o) (hs : o.state = .status) (hu : o.units = 0) :
    ∃ t, execOperationComplete id s = .next t ∧ t.op? id = none ∧ (∀ k, k ≠ id → t.op? k = s.op? k) ∧
      t.timeline o.ctx o.q = (s.timeline o.ctx o.q).complete o.num ∧
      (cmdBaren o.cmd = false → t.mem = s.mem ∧ t.cores.map (fun e => e.2.pool) = s.cores.map (fun e => e.2.pool)) := by
  have harr : CountsStand s (s.arriveFor o) := State.arriveFor_counts
  have hdrop : CountsStand _ (((s.arriveFor o).completeNum o.ctx o.q o.num).dropOp id o) := State.dropOp_counts
  have hops : (((s.arriveFor o).completeNum o.ctx o.q o.num).dropOp id o).ops = s.ops.erase id := hdrop.ops.trans (by
    rw [show ((s.arriveFor o).completeNum o.ctx o.q o.num).ops = s.ops from harr.ops])
  refine ⟨_, execOperationComplete_done ho hs hu, ?_, fun k hk => ?_, ?_, fun hb => ?_⟩
  · rw [State.op?, hops, Tab.get?_erase, if_pos rfl]
  · rw [State.op?, hops, Tab.get?_erase, if_neg hk]
    rfl
  · have h1 := congrArg (·.getD o.q Timeline.reset) (hdrop.timelines o.ctx)
    have h2 := congrArg (·.getD o.q Timeline.reset) (harr.timelines o.ctx)
    exact h1.trans ((State.completeNum_timeline ..).trans (congrArg (Timeline.complete · o.num) h2))
  · have hsame : s.arriveFor o = s := if_neg (by rw [hb]; exact Bool.false_ne_true)
    obtain ⟨hm, hp⟩ := State.dropOp_bytes (s := (s.arriveFor o).completeNum o.ctx o.q o.num) (id := id) (o := o)
    rw [hm, hp, hsame]
    exact ⟨rfl, rfl⟩

/-- R237: the status word of a finished command is its next engine Chunk. -/
theorem State.finishOp_writes (status : Nat) {va : Nat} (h : o.stva = some va) :
    (s.finishOp id o status).op? id = some { o with state := .status, status := status, wants := none, units := o.units + 1 } ∧
      (s.finishOp id o status).offers = s.offers ++
        [{ die := engineDie o.q o.inst, clk := s.clk, what := .engine id (putAt o.pages va (toBytes 4 status)) }] := by
  simp only [State.finishOp, h]
  exact ⟨Tab.get?_set_self .., rfl⟩

/-- R237: without a status word it completes. -/
theorem State.finishOp_silent (status : Nat) (h : o.stva = none) :
    (s.finishOp id o status).op? id = some { o with state := .status, status := status, wants := none } ∧
      (s.finishOp id o status).offers = s.offers ∧ (s.finishOp id o status).agenda = s.agenda ++ [.operationComplete id] := by
  simp only [State.finishOp, h]
  exact ⟨Tab.get?_set_self .., rfl, rfl⟩

end

/-- Settles O32: a command ends by its last unit; the complete run moves by `Timeline.complete_spec`. -/
theorem commandsComplete : Obligations.CommandsComplete :=
  ⟨fun _ _ _ ho => ⟨execOperationComplete_ends ho, execOperationComplete_early ho, fun status _ h => State.finishOp_writes status h,
    State.finishOp_silent⟩, fun t n _ _ _ _ => t.complete_spec n⟩

end Sys2Proof.Machine
end

section
/-! LEMMAS. What a word's effect makes of its Group (R86, R88, R122, R147): lanes, Chunk, and where the Chunk ends. -/
set_option Elab.async false

namespace Sys2Proof.Machine

/-! ## Lanes -/

/-- A lane that waits at no WAITM stays where it is when those parked at one are released (R192). -/
theorem getElem?_releaseWaitm {live : Nat} {mreg : Nat → Nat} {ls : List Lane} {l : Nat} {x : Lane} (hx : ls[l]? = some x)
    (hw : isWaitm x.wait = false) : (releaseWaitm live mreg ls)[l]? = some x := by
  unfold releaseWaitm
  extract_lets met
  have hmet : met x = false := by
    cases hx : x.wait with
    | waitm d => simp [hx, isWaitm] at hw
    | _ => simp [met, hx]
  rw [List.getElem?_map, hx, Option.map_some, hmet]
  rfl

/-- A lane of the entry stands at the next word, or where the word sent it. -/
theorem getElem?_moveLanes_mem {is : Issue} {e : Eff} {ls : List Lane} (h32 : ls.length = 32) (hs : e.stay = false) {l : Nat} {x : Lane}
    (hx : ls[l]? = some x) (hl : l ∈ is.lanes) : (moveLanes is e ls)[l]? =
      some { pc := ((e.pcs.find? (fun p => p.1 == l)).map (fun p => p.2)).getD (is.pc + 4), prio := e.prio.getD x.prio, wait := e.wait } := by
  unfold moveLanes
  rw [getElem?_map_zip_lanes32 h32 _ hx]
  simp [hl, hs]

/-- Another lane stands where it stood. -/
theorem getElem?_moveLanes_other {is : Issue} {e : Eff} {ls : List Lane} (h32 : ls.length = 32) {l : Nat} {x : Lane}
    (hx : ls[l]? = some x) (hl : l ∉ is.lanes) : (moveLanes is e ls)[l]? = some x := by
  unfold moveLanes
  rw [getElem?_map_zip_lanes32 h32 _ hx]
  simp [hl]

theorem mem_unionNat {x : Nat} (b : List Nat) : ∀ {a : List Nat}, x ∈ unionNat a b ↔ x ∈ a ∨ x ∈ b := by
  unfold unionNat
  induction b with
  | nil => simp
  | cons y r ih =>
    intro a
    rw [List.foldl_cons, ih]
    split
    · next hy =>
      have hy : y ∈ a := List.contains_iff_mem.mp hy
      by_cases hxy : x = y
      · simp [hxy, hy]
      · simp [hxy]
    · simp [or_assoc]

/-! ## The effect in its parts -/

/-- The machine when a word's writes of the pool have been made. -/
def State.putEff (s : State) (is : Issue) (e : Eff) : State :=
  e.raw.foldl (fun s w => s.poolPut is.core w.1 w.2) (e.pool.foldl (fun s w => s.poolPut w.1 w.2.1 w.2.2) s)

/-- The Chunk with the word (R86, R90). -/
def Chunk.took (ch : Chunk) (e : Eff) (undo : List Undo) : Chunk :=
  { ch with words := ch.words + 1, reads := unionNat ch.reads e.reads, writes := unionNat ch.writes e.writes,
            clw := unionNat ch.clw e.clw, pages := unionPages ch.pages e.pages, nearLines := ch.nearLines ++ e.near,
            tiles := unionNat ch.tiles e.tiles, buf := ch.buf ++ e.buf, acts := ch.acts ++ e.acts, undo := undo }

/-- The Group when its lanes have moved and its Chunk holds the word. -/
def Issue.moved (is : Issue) (e : Eff) (live : Nat) (mreg : Nat → Nat) (undo : List Undo) (g : Group) : Group :=
  let ls := releaseWaitm live mreg (moveLanes is e g.lanes)
  { g with
    lanes := ls, pend := closeMerged live ls ((countWindows is.lanes g.pend) ++ e.pend.toList), seq := Seq.empty, chosen := none,
    ydem := g.ydem - 1, chunk := is.g.chunk.took e undo }

/-- The machine when a word without rarer effects has taken effect, before its Chunk may end. -/
def State.tookEff (s : State) (is : Issue) (e : Eff) : State :=
  let t := s.putEff is e
  let u := t.modGroup is.core is.slot
    (is.moved e (t.liveMask is.core is.slot) (fun i => t.poolNum is.core (mAddr is.rb i) 4) (undoAfter s is.g.chunk.undo e))
  (e.pages.foldl (fun s p => s.tlbTouch is.core is.ctx p.1) u).tagLines is.core (e.reads ++ e.writes ++ e.clw ++ e.tags)

/-- Where the Chunk of a word ends (R86, R88, R192). -/
def State.closeWord (s : State) (c slot live : Nat) (ends : Option After) : State :=
  match ends with
  | some a => s.endChunk c slot a
  | none =>
    match s.group? c slot with
    | some g =>
      if g.state != .running then s
      else if 2 ^ statLimlog (s.chunkstat c slot) ≤ g.chunk.words then s.endChunk c slot .run
      else if live != 0 && (lanesOf live).all (fun l => (g.lanes[l]?.map (fun x => isWaitm x.wait || isBars x.wait)).getD true) then
        s.endChunk c slot .run
      else s
    | none => s

section
variable {s : State} {is : Issue} {e : Eff} {c slot live : Nat} {g : Group}

theorem applyEff_eq (h : e.post = id) :
    applyEff is e s = (s.tookEff is e).closeWord is.core is.slot ((s.putEff is e).liveMask is.core is.slot) e.ends := by
  unfold applyEff
  rw [h]
  rfl

theorem State.group?_putEff : (s.putEff is e).group? c slot = s.group? c slot := by
  have hraw (ws : List (Nat × List Byte)) : ∀ t : State, (ws.foldl (fun s w => s.poolPut is.core w.1 w.2) t).group? c slot = t.group? c slot := by
    induction ws with
    | nil => exact fun _ => rfl
    | cons w r ih => exact fun t => (ih _).trans State.group?_poolPut
  have hpool (ws : List (Nat × Nat × List Byte)) : ∀ t : State,
      (ws.foldl (fun s w => s.poolPut w.1 w.2.1 w.2.2) t).group? c slot = t.group? c slot := by
    induction ws with
    | nil => exact fun _ => rfl
    | cons w r ih => exact fun t => (ih _).trans State.group?_poolPut
  exact (hraw ..).trans (hpool ..)

/-- TLB entries and tags are no part of cores and Kernels. -/
theorem State.touched_frame (s : State) (ps : List (Nat × Nat)) (ctx : Nat) (x : List Nat) :
    let t := (ps.foldl (fun s p => s.tlbTouch c ctx p.1) s).tagLines c x
    t.cores = s.cores ∧ t.kernels = s.kernels := by
  have touch (t : State) (va : Nat) : (t.tlbTouch c ctx va).cores = t.cores ∧ (t.tlbTouch c ctx va).kernels = t.kernels := by
    unfold State.tlbTouch
    split
    · unfold State.tlbPut
      split
      · exact ⟨rfl, rfl⟩
      · extract_lets mine
        split
        · split <;> exact ⟨rfl, rfl⟩
        · exact ⟨rfl, rfl⟩
    · exact ⟨rfl, rfl⟩
  have touches : ∀ t : State, (ps.foldl (fun s p => s.tlbTouch c ctx p.1) t).cores = t.cores ∧
      (ps.foldl (fun s p => s.tlbTouch c ctx p.1) t).kernels = t.kernels := by
    induction ps with
    | nil => exact fun _ => ⟨rfl, rfl⟩
    | cons p r ih => exact fun t => ⟨(ih _).1.trans (touch t p.1).1, (ih _).2.trans (touch t p.1).2⟩
  exact touches s

theorem State.core_congr {t : State} (h : t.cores = s.cores) (c : Nat) : t.core c = s.core c := by unfold State.core; rw [h]

theorem State.group?_congr {t : State} (h : t.cores = s.cores) : t.group? c slot = s.group? c slot := by
  unfold State.group?; rw [State.core_congr h]

theorem State.group?_tookEff (hg : s.group? is.core is.slot = some g) : ∃ live mreg undo,
    (s.tookEff is e).group? is.core is.slot = some (is.moved e live mreg undo g) := by
  have h : (s.tookEff is e).group? is.core is.slot = _ := State.group?_congr (State.touched_frame _ e.pages is.ctx _).1
  rw [State.group?_modGroup_self, State.group?_putEff, hg] at h
  exact ⟨_, _, _, h⟩

/-- A word that writes no register leaves what the core's registers are read by. -/
theorem SamePool.tookEff (hp : e.pool = []) (hr : e.raw = []) : SamePool is.core s (s.tookEff is e) := by
  have hput : s.putEff is e = s := by
    unfold State.putEff
    rw [hp, hr]
    rfl
  unfold State.tookEff
  rw [hput]
  extract_lets t u
  obtain ⟨hc, hk⟩ := State.touched_frame (c := is.core) u e.pages is.ctx (e.reads ++ e.writes ++ e.clw ++ e.tags)
  have hu : SamePool is.core s u := .modGroup
  exact hu.trans (.of_core (congrArg Core.pool (State.core_congr hc _)) (congrArg Core.kernel (State.core_congr hc _)) hk)

theorem State.closeWord_cases (ends : Option After) : s.closeWord c slot live ends = s ∨ ∃ a, s.closeWord c slot live ends = s.endChunk c slot a := by
  unfold State.closeWord
  split
  · exact .inr ⟨_, rfl⟩
  split
  · split
    · exact .inl rfl
    split
    · exact .inr ⟨_, rfl⟩
    split
    · exact .inr ⟨_, rfl⟩
    · exact .inl rfl
  · exact .inl rfl

/-- R88: at the instruction limit the Chunk ends. -/
theorem State.closeWord_limit (hg : s.group? c slot = some g) (hs : g.state = .running)
    (hl : 2 ^ statLimlog (s.chunkstat c slot) ≤ g.chunk.words) : s.closeWord c slot live none = s.endChunk c slot .run := by
  simp [State.closeWord, hg, hs, hl]

end

/-- Settles O53: the Group is the moved one, or that one with its Chunk ended; the Chunk's end leaves lanes, buffers and sets. -/
theorem wordsAdvance : Obligations.WordsAdvance := by
  intro is s e hg h32 hrun hpost t
  obtain ⟨live, mreg, undo, hm⟩ := State.group?_tookEff (e := e) hg
  have ht : t = _ := applyEff_eq hpost
  have hend (a : After) := State.group?_endChunk (after := a) hm
  obtain ⟨g, hgt, hg'⟩ : ∃ g, t.group? is.core is.slot = some g ∧
      (g = is.moved e live mreg undo is.g ∨ ∃ a, g = (is.moved e live mreg undo is.g).ended a (s.tookEff is e).clk) := by
    rw [ht]
    rcases State.closeWord_cases (s := s.tookEff is e) (c := is.core) (slot := is.slot) e.ends with h | ⟨a, h⟩
    · exact ⟨_, (congrArg (·.group? is.core is.slot) h).trans hm, .inl rfl⟩
    · exact ⟨_, (congrArg (·.group? is.core is.slot) h).trans (hend a), .inr ⟨a, rfl⟩⟩
  have hlanes : g.lanes = releaseWaitm live mreg (moveLanes is e is.g.lanes) := by
    rcases hg' with rfl | ⟨a, rfl⟩ <;> rfl
  refine ⟨g, hgt, ?_, ?_, ?_, fun l x hx hl hw hs => ?_, fun l x hx hl hw => ?_, ?_, ?_, ?_, fun x => ?_, fun x => ?_, fun a ha => ?_,
    fun hends hpool hraw hlim => ?_⟩
  · rcases hg' with rfl | ⟨a, rfl⟩ <;> rfl
  · rcases hg' with rfl | ⟨a, rfl⟩ <;> rfl
  · rcases hg' with rfl | ⟨a, rfl⟩ <;> rfl
  · rw [hlanes]
    exact getElem?_releaseWaitm (getElem?_moveLanes_mem h32 hs hx hl) hw
  · rw [hlanes]
    exact getElem?_releaseWaitm (getElem?_moveLanes_other h32 hx hl) hw
  · rcases hg' with rfl | ⟨a, rfl⟩ <;> rfl
  · rcases hg' with rfl | ⟨a, rfl⟩ <;> rfl
  · rcases hg' with rfl | ⟨a, rfl⟩ <;> rfl
  · rw [← mem_unionNat]
    rcases hg' with rfl | ⟨a, rfl⟩ <;> rfl
  · rw [← mem_unionNat]
    rcases hg' with rfl | ⟨a, rfl⟩ <;> rfl
  · have hta : t = (s.tookEff is e).endChunk is.core is.slot a := by
      rw [ht, ha]
      rfl
    rw [hta] at hgt ⊢
    cases (hend a).symm.trans hgt
    exact ⟨rfl, rfl, by rw [State.endChunk_eq hm]; exact List.mem_append_right _ List.mem_cons_self⟩
  · have hta : t = (s.tookEff is e).endChunk is.core is.slot .run := by
      rw [ht, hends]
      refine State.closeWord_limit hm hrun ?_
      rw [show (s.tookEff is e).chunkstat is.core is.slot = s.chunkstat is.core is.slot from (SamePool.tookEff hpool hraw).special _]
      exact hlim
    rw [hta] at hgt
    cases (hend .run).symm.trans hgt
    exact ⟨rfl, rfl⟩

end Sys2Proof.Machine
end

section
/-! LEMMAS. Fences, register windows and the Barrier words (R110, R212, R214 to R220). -/
set_option Elab.async false

namespace Sys2Proof.Machine

/-- A word whose own rules answer a wait under c waits. -/
theorem waits_of_issueWord {i : Instr} {d : Desc} {body : Issue → State → Verdict} {c : Issue → State → Prop} {w : Issue → State → Wait}
    (hx : ∀ s, exec i s = issueWord d body s) (hb : ∀ is s, c is s → body is s = .wait (w is s)) : Waits i d c w :=
  fun s is hi hc => (hx s).trans (issueWord_wait hi (hb is s hc))

/-! ## RWR and ARVW (R214 to R216) -/

/-- The core that an RWR descriptor names (R214). -/
def rwrCore (m : Nat) (is : Issue) (s : State) : Nat := is.core / 4 * 4 + is.sRd s m % 4

/-- The descriptor's reserved fields are 0, and the core that it names runs the same Kernel (R214). -/
def RwrLegal (m : Nat) (is : Issue) (s : State) : Prop :=
  rwrResOk (is.sRd s m) = true ∧ (s.core (rwrCore m is s)).kernel = (s.core is.core).kernel

section
variable (d a m u : Nat)

/-- R214, R215: RWR ends the Chunk, and sends its lanes' register after the commit. -/
theorem performs_rwr :
    Performs (.rwr d a m) { descEnds with vd := opV d false, va := opV a false, vb := opS m false }
      (fun is s => (s.group? (rwrCore m is s) (field (is.sRd s m) 12 8)).map (fun g => g.uid) = some u ∧ RwrLegal m is s)
      (fun is s => { ends := some .run, acts := [.rwr (rwrCore m is s) (field (is.sRd s m) 12 8) u d (field (is.sRd s m) 19 16)
        (is.lanes.map (fun l => (l, is.vRd s a l)))] }) :=
  have hx (s : State) : exec (.rwr d a m) s = execRwr d a m s := rfl
  performs_of_issueWord hx fun is s ⟨hu, hres, hker⟩ => by
    obtain ⟨g, hg, hgu⟩ := Option.map_eq_some_iff.mp hu
    unfold rwrCore at *
    simp [hg, hgu, hres, hker]

theorem traps_rwr :
    Traps (.rwr d a m) { descEnds with vd := opV d false, va := opV a false, vb := opS m false }
      (fun is s => s.group? (rwrCore m is s) (field (is.sRd s m) 12 8) = none ∨ ¬RwrLegal m is s) causePROT (fun is s => is.sRd s m) :=
  have hx (s : State) : exec (.rwr d a m) s = execRwr d a m s := rfl
  traps_of_issueWord hx fun is s h => by
    unfold RwrLegal rwrCore at h
    dsimp only
    split
    · next g hg =>
      have hbad : ¬ (rwrResOk (is.sRd s m) && (s.core (is.core / 4 * 4 + is.sRd s m % 4)).kernel == (s.core is.core).kernel) = true := by
        simpa only [Bool.and_eq_true, beq_iff_eq] using h.resolve_left (by rw [hg]; exact Option.some_ne_none g)
      exact if_neg hbad
    · rfl

end

section
variable (l d a : Nat)

/-- R216: the counter has reached the threshold, which is read at issue. -/
theorem performs_arvw : Performs (.arvw l d a) { vec := false, vd := opS d false, look := some l }
    (fun is s => counterReached (is.g.arrival.getD a 0) (is.sRd s d) = true) (fun _ _ => {}) :=
  have hx (s : State) : exec (.arvw l d a) s = execArvw l d a s := rfl
  performs_of_issueWord hx fun _ _ h => if_pos h

theorem waits_arvw : Waits (.arvw l d a) { vec := false, vd := opS d false, look := some l }
    (fun is s => ¬counterReached (is.g.arrival.getD a 0) (is.sRd s d) = true) (fun is s => .arrival a (is.sRd s d)) :=
  have hx (s : State) : exec (.arvw l d a) s = execArvw l d a s := rfl
  waits_of_issueWord hx fun _ _ h => if_neg h

end

/-! ## Barriers (R217 to R220) -/

/-- The Barrier that a word names (R135, R217). -/
def barNamed (x : Bool) (a : Nat) (is : Issue) (s : State) : Nat := if x then a else is.sRd s a

section
variable {i : Instr} {x : Bool} {a : Nat} {is : Issue} {s : State} {k : Nat → Verdict}

theorem barOf_ok (h : barNamed x a is s ≤ 47) : barOf is s x a k = k (barNamed x a is s) := if_neg (Nat.not_lt.mpr h)

theorem barOf_above (h : ¬barNamed x a is s ≤ 47) : barOf is s x a k = .trap causePROT (0x100 + barNamed x a is s) :=
  if_pos (Nat.not_le.mp h)

/-- R217: a Barrier word ends the Chunk, and its event is made at the commit. -/
theorem performs_barWord {dsc : Desc} {op : Issue → State → BarOp} (hx : ∀ s, exec i s = barWord dsc x a op s) :
    Performs i dsc (fun is s => barNamed x a is s ≤ 47)
      (fun is s => { ends := some .run, acts := [.barrier (op is s) (barNamed x a is s) is.first is.lanes] }) :=
  performs_of_issueWord hx fun _ _ h => barOf_ok h

/-- R217: above 47 there is no Barrier. -/
theorem traps_barOf {dsc : Desc} {k : Issue → State → Nat → Verdict}
    (hx : ∀ s, exec i s = issueWord dsc (fun is s => barOf is s x a (k is s)) s) :
    Traps i dsc (fun is s => ¬barNamed x a is s ≤ 47) causePROT (fun is s => 0x100 + barNamed x a is s) :=
  traps_of_issueWord hx fun _ _ h => barOf_above h

end

section
variable (x : Bool) (a : Nat)

/-- R217, R341: the lanes of a BARW wait from the commit. -/
theorem performs_barw : Performs (.barw x a) (descBar x a) (fun is s => barNamed x a is s ≤ 47) (fun is s =>
    { ends := some .run, acts := [.barrier .wait (barNamed x a is s) is.first is.lanes], wait := .sent (barNamed x a is s) }) :=
  have hx (s : State) : exec (.barw x a) s = execBarw x a s := rfl
  performs_of_issueWord hx fun _ _ h => barOf_ok h

/-- The lanes of a BARS park at it (R220). -/
def barsParks (is : Issue) (s : State) : Eff := { stay := true, wait := .bars (barNamed x a is s) }

/-- The Barrier and place at which every live lane is parked, with those of this word (R220). -/
def barsTogether (is : Issue) (s : State) : Option (Nat × Nat) :=
  barsMet (s.liveMask is.core is.slot) (moveLanes is (barsParks x a is s) is.g.lanes)

theorem performs_bars_parks : Performs (.bars x a) (descBar x a) (fun is s => barNamed x a is s ≤ 47 ∧ barsTogether x a is s = none)
    (barsParks x a) :=
  have hx (s : State) : exec (.bars x a) s = execBars x a s := rfl
  performs_of_issueWord hx fun is s ⟨hb, hn⟩ => (barOf_ok hb).trans (by
    unfold barsTogether barsParks at hn
    simp only [hn]
    rfl)

theorem performs_bars_ends (k pc : Nat) :
    Performs (.bars x a) (descBar x a) (fun is s => barNamed x a is s ≤ 47 ∧ barsTogether x a is s = some (k, pc))
      (fun is s => barsEnds is.core is.slot (s.liveMask is.core is.slot) k pc (barsParks x a is s)) :=
  have hx (s : State) : exec (.bars x a) s = execBars x a s := rfl
  performs_of_issueWord hx fun is s ⟨hb, hn⟩ => (barOf_ok hb).trans (by
    unfold barsTogether barsParks at hn
    simp only [hn]
    rfl)

end

/-- Settles O18: the fences, RWR and ARVW, and the Barrier words, each by its own rule above. -/
theorem fenceAndBarrierWords : Obligations.FenceAndBarrierWords :=
  have fence {i : Instr} (k : FenceKind) (hx : ∀ s, exec i s = fenceWord k s) :
      Performs i descEnds always (fun _ _ => { ends := some (.fence k) }) := performs_of_issueWord hx fun _ _ _ => rfl
  have hara (x : Bool) (a : Nat) (s : State) : exec (.bara x a) s = barWord (descBar x a) x a (fun _ _ => .arrive) s := rfl
  have harw (x : Bool) (a : Nat) (s : State) : exec (.barw x a) s = execBarw x a s := rfl
  ⟨fun l d a m => ⟨fence .cl fun _ => rfl, fence .dv fun _ => rfl, fence .sy fun _ => rfl, fence .sv fun _ => rfl, performs_rwr d a m,
      traps_rwr d a m, performs_arvw l d a, waits_arvw l d a⟩,
    fun x _ a => ⟨performs_barWord fun _ => rfl, performs_barWord fun _ => rfl, performs_barWord fun _ => rfl, performs_barw x a,
      performs_barWord fun _ => rfl, performs_barWord fun _ => rfl, performs_bars_parks x a, performs_bars_ends x a,
      traps_barOf (hara x a), traps_barOf (harw x a)⟩⟩

end Sys2Proof.Machine
end

section
/-! LEMMAS. Fences end, and Barrier phases complete (R110 to R112, R337 to R342). -/
set_option Elab.async false

namespace Sys2Proof.Machine

/-! ## FENCE_WAIT_END (R110, R111) -/

section
variable {s : State} {c slot cl : Nat} {g : Group} {k : FenceKind}

theorem execFenceWaitEnd_over (hg : s.group? c slot = some g) (hst : g.state = .fenced k cl) (h : s.fenceOver cl g k = true) :
    let t := s.modGroup c slot (fun g => { g with state := .running })
    execFenceWaitEnd c slot s = .next (if k = .cl then t else t.dropReadCopies (clusterOf c)) := by
  simp only [execFenceWaitEnd, hg, hst, h, if_true]
  cases k <;> rfl

theorem execFenceWaitEnd_waits (hg : s.group? c slot = some g) (hst : g.state = .fenced k cl) (h : s.fenceOver cl g k = false) :
    execFenceWaitEnd c slot s = .next (s.due [.fenceWaitEnd c slot]) := by
  simp only [execFenceWaitEnd, hg, hst, h, Bool.false_eq_true, if_false]

/-- R110: every fence but FENCE.cl awaits the check-ins that it sent. -/
theorem State.fenceOver_release (h : g.release ≠ []) (hk : k ≠ .cl) : s.fenceOver cl g k = false := by
  have hr : g.release.isEmpty = false := List.isEmpty_eq_false_iff.mpr h
  cases k with
  | cl => exact absurd rfl hk
  | dv | sy | sv => simp [State.fenceOver, hr]

/-- R110: FENCE.sy awaits the Group's writes to host memory. -/
theorem State.fenceOver_ncl {id : Nat} {w : NclWrite} (h : s.ncl.get? id = some w) (hu : w.uid = g.uid) : s.fenceOver cl g .sy = false := by
  have hn : s.ncl.any (fun e => e.2.uid == g.uid) = true :=
    List.any_eq_true.mpr ⟨(id, w), Tab.mem_of_get? h, by simp [hu]⟩
  simp [State.fenceOver, hn]

end

/-! ## Arrivals (R337, R338) -/

section
variable (x : Barrier) (a d : Nat)

theorem Barrier.arrive_completes (h : x.expect ≤ x.arrived + a) :
    x.arrive a d = ({ x with nexp := x.nexp - d, ph := !x.ph, arrived := 0, expect := x.nexp - d }, true) := if_pos h

theorem Barrier.arrive_counts (h : x.arrived + a < x.expect) :
    x.arrive a d = ({ x with nexp := x.nexp - d, arrived := x.arrived + a }, false) := if_neg (Nat.not_le.mpr h)

/-- After arrivals fewer than are expected are counted, or nobody is expected (R337). -/
theorem Barrier.arrive_below : (x.arrive a d).1.arrived < (x.arrive a d).1.expect ∨ (x.arrive a d).1.expect = 0 := by
  by_cases h : x.expect ≤ x.arrived + a
  · rw [Barrier.arrive_completes x a d h]
    exact (Nat.eq_zero_or_pos (x.nexp - d)).symm
  · rw [Barrier.arrive_counts x a d (Nat.not_le.mp h)]
    exact .inl (Nat.not_le.mp h)

end

/-! ## The events of one clk (R339 to R341) -/

section
variable {s : State} {core bar n : Nat}

/-- R340: the events that reach a Barrier are applied in three steps. -/
theorem execBarrierEvent_applies :
    let ms := ((s.core core).barMsgs.getD bar []).take (max 1 n)
    let s1 := s.setCore core { s.core core with
      barMsgs := (s.core core).barMsgs.set bar (((s.core core).barMsgs.getD bar []).drop ms.length) }
    ms ≠ [] → (∀ m ∈ ms, s.msgArrived core m = true) →
      execBarrierEvent core bar n s = .next (((s1.barArrivals core bar ms).barInits core bar ms).barTests core bar ms) := by
  intro ms s1 hne hall
  have h1 : ms.isEmpty = false := List.isEmpty_eq_false_iff.mpr hne
  have h2 : (!ms.all (s.msgArrived core)) = false := by rw [List.all_eq_true.mpr hall]; rfl
  simp only [execBarrierEvent]
  rw [if_neg (by rw [h1]; exact Bool.false_ne_true), if_neg (by rw [h2]; exact Bool.false_ne_true)]

theorem execBarrierEvent_waits {m : BarMsg} (hm : m ∈ ((s.core core).barMsgs.getD bar []).take (max 1 n))
    (h : s.msgArrived core m = false) : execBarrierEvent core bar n s = .next (s.due [.barrierEvent core bar n]) := by
  have h1 : (((s.core core).barMsgs.getD bar []).take (max 1 n)).isEmpty = false := List.isEmpty_eq_false_iff.mpr (List.ne_nil_of_mem hm)
  have h2 : (((s.core core).barMsgs.getD bar []).take (max 1 n)).all (s.msgArrived core) = false :=
    List.all_eq_false.mpr ⟨m, hm, by rw [h]; exact Bool.false_ne_true⟩
  simp only [execBarrierEvent, h1, h2, Bool.false_eq_true, if_false, Bool.not_false, if_true]

/-- What the completion message makes of a wait (R341). -/
def freedWait (bar : Nat) (w : Wait) : Wait := if w = .freed bar then .none else w

/-- R112, R341: the completion message wakes the lanes that wait on this core, and drops the cluster's read copies. -/
theorem execBarrierRelease_here (h : s.crossingTo core (freeTag bar) = false) : execBarrierRelease core bar s =
    .next ((s.setCore core { s.core core with groups := (s.core core).groups.map (fun g => (g.1, g.2.mapWaits (freedWait bar))) }).dropReadCopies
      (clusterOf core)) := by
  have hw : (fun w : Wait => match w with | .freed x => if x = bar then .none else w | _ => w) = freedWait bar := by
    funext w
    cases w <;> simp [freedWait]
  refine (congrArg Host.Outcome.next (if_neg (by rw [h]; exact Bool.false_ne_true))).trans ?_
  exact congrArg (fun f : Wait → Wait => Host.Outcome.next ((s.setCore core { s.core core with
    groups := (s.core core).groups.map (fun g => (g.1, g.2.mapWaits f)) }).dropReadCopies (clusterOf core))) hw

theorem execBarrierRelease_onItsWay (h : s.crossingTo core (freeTag bar) = true) :
    execBarrierRelease core bar s = .next (s.due [.barrierRelease core bar]) := by
  simp only [execBarrierRelease, h, if_true]

/-- What the completion message changes: the waits on this core, and the cluster's read copies. -/
theorem execBarrierRelease_frame (h : s.crossingTo core (freeTag bar) = false) : ∃ t, execBarrierRelease core bar s = .next t ∧
    (t.core core).groups = (s.core core).groups.map (fun g => (g.1, g.2.mapWaits (freedWait bar))) ∧
    (t.core core).pool = (s.core core).pool ∧ (∀ k, k ≠ core → t.core k = s.core k) ∧ t = { s with cores := t.cores, clusters := t.clusters } := by
  have hc (k : Core) : ((s.setCore core k).dropReadCopies (clusterOf core)).core core = k := State.core_setCore_self s core k
  exact ⟨_, execBarrierRelease_here h, by rw [hc], by rw [hc], fun k hk => State.core_setCore_ne s _ hk, rfl⟩

end

/-- Settles O27: the fence's wait by its kinds, a Barrier's arrivals by the count, the events of a clk and the release by their branches. -/
theorem fencesAndBarriers : Obligations.FencesAndBarriers :=
  ⟨fun _ _ _ _ _ _ hg hst => ⟨execFenceWaitEnd_over hg hst, execFenceWaitEnd_waits hg hst, State.fenceOver_release,
      fun hk ⟨_, _, hn, hu⟩ => hk ▸ State.fenceOver_ncl hn hu⟩,
    fun x a d => ⟨x.arrive_completes a d, x.arrive_counts a d, fun _ => x.arrive_below a d⟩,
    fun _ _ _ _ => ⟨execBarrierEvent_applies, fun _ hm h => execBarrierEvent_waits hm h, execBarrierRelease_onItsWay,
      execBarrierRelease_frame⟩⟩

end Sys2Proof.Machine
end

section
/-! LEMMAS. Differences, host accesses and parity differences reach memory (R93, R98, R113, R360, R363, R402). -/
set_option Elab.async false

namespace Sys2Proof.Machine

/-! ## A difference reaches its homes (R98) -/

/-- From s to t nothing of cores, Contexts, Queues, stamps, regions and the differences on their way has changed. -/
structure HomesOnly (s t : State) : Prop where
  diffs : t.diffs = s.diffs
  cores : t.cores = s.cores
  ctxs : t.ctxs = s.ctxs
  queues : t.queues = s.queues
  stamps : t.stamps = s.stamps
  regions : t.regions = s.regions

section
variable {s t u : State}

theorem HomesOnly.refl (s : State) : HomesOnly s s := ⟨rfl, rfl, rfl, rfl, rfl, rfl⟩

theorem HomesOnly.trans (h : HomesOnly s t) (k : HomesOnly t u) : HomesOnly s u :=
  ⟨k.diffs.trans h.diffs, k.cores.trans h.cores, k.ctxs.trans h.ctxs, k.queues.trans h.queues, k.stamps.trans h.stamps,
    k.regions.trans h.regions⟩

/-- One item reaches its home: bytes, parity, poison, tail lines. -/
def State.applyItemOf (d : Diff) (s : State) (it : BufItem) : State :=
  let t := if d.rebuilt then s else s.parityOf s.mem d.stamp d.prot d.owner (d.cluster.map (fun x => x.1)) it
  let t1 := { t with mem := applyItem s.regions s.mem it }
  match itemSpan it with
  | some (pa, n) =>
    { t1 with poison := clearPoison s.regions t1.poison d.part d.stamp pa n
              agenda := t1.agenda ++ t1.tailsIn (d.op.isSome) pa n
              stop := if physOk pa then t1.stop else some pa }
  | none => t1

theorem State.applyItemOf_spec (d : Diff) (s : State) (it : BufItem) :
    HomesOnly s (s.applyItemOf d it) ∧ (s.applyItemOf d it).mem = applyItem s.regions s.mem it := by
  unfold State.applyItemOf
  extract_lets t t1
  have ht : HomesOnly s t := by
    unfold t
    split
    · exact .refl s
    · obtain ⟨_, _, _, _, h⟩ := s.parityOf_only s.mem d.stamp d.prot d.owner (d.cluster.map (fun x => x.1)) it
      rw [h]
      exact ⟨rfl, rfl, rfl, rfl, rfl, rfl⟩
  have h1 : HomesOnly s t1 := ht.trans ⟨rfl, rfl, rfl, rfl, rfl, rfl⟩
  split
  · exact ⟨h1.trans ⟨rfl, rfl, rfl, rfl, rfl, rfl⟩, rfl⟩
  · exact ⟨h1, rfl⟩

theorem State.foldl_applyItemOf (d : Diff) (its : List BufItem) : ∀ s : State,
    HomesOnly s (its.foldl (State.applyItemOf d) s) ∧ (its.foldl (State.applyItemOf d) s).mem = applyItems s.regions s.mem its := by
  induction its with
  | nil => exact fun s => ⟨.refl s, rfl⟩
  | cons it r ih =>
    intro s
    obtain ⟨h1, m1⟩ := State.applyItemOf_spec d s it
    obtain ⟨h2, m2⟩ := ih (s.applyItemOf d it)
    exact ⟨h1.trans h2, m2.trans (by rw [h1.regions, m1]; rfl)⟩

theorem State.sendNcl_spec (uid part : Nat) (pas : List Nat) : ∀ s : State,
    HomesOnly s (s.sendNcl uid part pas) ∧ (s.sendNcl uid part pas).mem = s.mem := by
  unfold State.sendNcl
  induction pas with
  | nil => exact fun s => ⟨.refl s, rfl⟩
  | cons pa r ih =>
    intro s
    obtain ⟨h, m⟩ := ih { s with nextId := s.nextId + 1, ncl := s.ncl.set s.nextId { uid := uid, part := part, pa := pa },
                                 agenda := s.agenda ++ [Instr.nclAck s.nextId] }
    exact ⟨⟨h.diffs, h.cores, h.ctxs, h.queues, h.stamps, h.regions⟩, m⟩

/-- R98: a difference is applied whole to memory, and is no longer on its way. -/
theorem State.applyDiff_spec (s : State) (d : Diff) :
    HomesOnly { s with diffs := s.diffs.erase d } (s.applyDiff d) ∧ (s.applyDiff d).mem = applyItems s.regions s.mem d.items := by
  unfold State.applyDiff
  extract_lets cl s1 s2
  obtain ⟨h1, m1⟩ := State.foldl_applyItemOf d d.items ({ s with diffs := s.diffs.erase d }.unparkReq (.diff d.part d.stamp))
  obtain ⟨h2, m2⟩ := State.sendNcl_spec (d.owner.getD 0) d.part (nclWrites d) s1
  have h12 := h1.trans h2
  have h : HomesOnly { s with diffs := s.diffs.erase d } s2 := ⟨h12.diffs, h12.cores, h12.ctxs, h12.queues, h12.stamps, h12.regions⟩
  have m : s2.mem = applyItems s.regions s.mem d.items := m2.trans m1
  split
  · split
    · exact ⟨h.trans ⟨rfl, rfl, rfl, rfl, rfl, rfl⟩, m⟩
    · exact ⟨h, m⟩
  · exact ⟨h, m⟩

theorem execDifferenceApply_first {part : Nat} {d : Diff} (hd : s.nextDiff part s.diffs [] = some d) :
    ∃ t, execDifferenceApply part s = .next t ∧ t.mem = applyItems s.regions s.mem d.items ∧ t.diffs = s.diffs.erase d ∧ t.cores = s.cores ∧
      t.ctxs = s.ctxs ∧ t.queues = s.queues ∧ t.stamps = s.stamps := by
  obtain ⟨h, m⟩ := State.applyDiff_spec s d
  exact ⟨_, by simp only [execDifferenceApply, hd], m, h.diffs, h.cores, h.ctxs, h.queues, h.stamps⟩

theorem execDifferenceApply_none {part : Nat} (h : s.diffs = []) : execDifferenceApply part s = .next s := by
  simp [execDifferenceApply, h, State.nextDiff]

end

/-! ## Host accesses (R93, R113) -/

section
variable {s : State} {pa : Nat} (ha : s.inAperture pa = false)
include ha

section
variable (hd : pa < 2 ^ 40)
include hd

theorem execHostWrite_device (sys : Bool) {die : Nat} (bytes : List Byte) (hl : s.laneDie (s.hostPart pa) pa = some die) :
    execHostWrite sys pa bytes s =
      .next { s with offers := s.offers ++ [{ die := die, clk := s.clk, what := .host [storeItem pa bytes] }]
                     agenda := s.agenda ++ [.commitBatch (s.hostPart pa)] } := by
  have hp : physOk pa = true := decide_eq_true (.inl hd)
  have hh : isHost pa = false := decide_eq_false (by omega)
  simp [execHostWrite, ha, hp, hh, hl]

theorem execHostWrite_waits (sys : Bool) (bytes : List Byte) (hl : s.laneDie (s.hostPart pa) pa = none) :
    execHostWrite sys pa bytes s = .next (s.due [.hostWrite sys pa bytes]) := by
  have hp : physOk pa = true := decide_eq_true (.inl hd)
  have hh : isHost pa = false := decide_eq_false (by omega)
  simp [execHostWrite, ha, hp, hh, hl]

theorem execHostRead_device (sys : Bool) {die : Nat} (n : Nat) (hl : s.laneDie (s.hostPart pa) pa = some die)
    (hw : ∀ a ∈ upFrom pa n, s.waits die a = false) :
    execHostRead { system := sys, pa := pa } n s = .next { s with hostData := s.readPhys pa n } := by
  have hp : physOk pa = true := decide_eq_true (.inl hd)
  have hh : isHost pa = false := decide_eq_false (by omega)
  have hn : (upFrom pa n).find? (s.waits die) = none := List.find?_eq_none.mpr fun a h => by rw [hw a h]; exact Bool.false_ne_true
  simp [execHostRead, ha, hp, hh, hl, hn]

end

section
variable (h1 : 2 ^ 49 ≤ pa) (h2 : pa < 2 ^ 50)
include h1 h2

theorem execHostWrite_host (sys : Bool) (bytes : List Byte) : ∃ t, execHostWrite sys pa bytes s = .next t ∧
    t = { s with mem := physPut s.regions s.mem pa bytes, agenda := t.agenda } := by
  have hp : physOk pa = true := decide_eq_true (.inr ⟨h1, h2⟩)
  have hh : isHost pa = true := decide_eq_true h1
  refine ⟨{ s with mem := physPut s.regions s.mem pa bytes, agenda := s.agenda ++ s.tailsIn false pa bytes.length }, ?_, rfl⟩
  simp [execHostWrite, ha, hp, hh]

theorem execHostRead_host (sys : Bool) (n : Nat) :
    execHostRead { system := sys, pa := pa } n s = .next { s with hostData := physBytes s.regions s.mem pa n } := by
  have hp : physOk pa = true := decide_eq_true (.inr ⟨h1, h2⟩)
  have hh : isHost pa = true := decide_eq_true h1
  simp [execHostRead, ha, hp, hh]

end

omit ha in
theorem execNclAck_some {id : Nat} {w : NclWrite} (h : s.ncl.get? id = some w) : execNclAck id s =
    .next (if (s.laneDie w.part w.pa).isSome then { s with ncl := s.ncl.erase id } else s.due [.nclAck id]) := by
  simp only [execNclAck, h]
  split <;> rfl

end

/-! ## Parity differences (R360, R402) -/

/-- Bytes of a stripe's block at different offsets have different keys (R401). -/
theorem stripeKey_inj {stripe g x y : Nat} (hx : x < 4096) (hy : y < 4096) (h : stripeKey stripe g x = stripeKey stripe g y) : x = y := by
  simp only [stripeKey, stripeLoc, field, Nat.reduceAdd, Nat.reduceSub, Nat.reducePow] at h
  omega

/-- Bytes XORed into a block from an offset. -/
def xorInto (stripe : Nat) (m : Memory) (off : Nat) (bytes : List Byte) : Memory :=
  (bytes.zip (upFrom off bytes.length)).foldl (fun m x => m.write (stripeKey stripe 7 x.2) (m.read (stripeKey stripe 7 x.2) ^^^ x.1)) m

theorem xorInto_cons (stripe : Nat) (m : Memory) (off : Nat) (b : Byte) (bs : List Byte) : xorInto stripe m off (b :: bs) =
    xorInto stripe (m.write (stripeKey stripe 7 off) (m.read (stripeKey stripe 7 off) ^^^ b)) (off + 1) bs := rfl

/-- A byte of another place stands. -/
theorem read_xorInto_other {stripe a : Nat} (bs : List Byte) : ∀ {m : Memory} {off : Nat}, m.wf = true →
    (∀ i, i < bs.length → a ≠ stripeKey stripe 7 (off + i)) → (xorInto stripe m off bs).read a = m.read a := by
  induction bs with
  | nil => exact fun _ _ => rfl
  | cons b bs ih =>
    intro m off hm ha
    rw [xorInto_cons, ih (Memory.write_wf _ _ hm) (fun i hi => by
      have h := ha (i + 1) (Nat.succ_lt_succ hi)
      rwa [Nat.add_comm i 1, ← Nat.add_assoc] at h), Memory.read_write _ _ _ hm, if_neg (show a ≠ stripeKey stripe 7 off from ha 0 (Nat.zero_lt_succ _))]

/-- R360: a byte of the difference is XORed into its place. -/
theorem read_xorInto {stripe : Nat} (bs : List Byte) : ∀ {m : Memory} {off i : Nat}, m.wf = true → off + bs.length ≤ 4096 → i < bs.length →
    (xorInto stripe m off bs).read (stripeKey stripe 7 (off + i)) = m.read (stripeKey stripe 7 (off + i)) ^^^ bs.getD i 0 := by
  induction bs with
  | nil => exact fun _ _ hi => absurd hi (Nat.not_lt_zero _)
  | cons b bs ih =>
    intro m off i hm hlen hi
    have hl : off + (bs.length + 1) ≤ 4096 := hlen
    have hi : i < bs.length + 1 := hi
    rw [xorInto_cons]
    cases i with
    | zero =>
      rw [read_xorInto_other bs (Memory.write_wf _ _ hm) (fun i hi he => by
        have := stripeKey_inj (by omega) (by omega) he
        omega), Memory.read_write _ _ _ hm, Nat.add_zero, if_pos rfl]
      rfl
    | succ i =>
      have hne : stripeKey stripe 7 (off + (i + 1)) ≠ stripeKey stripe 7 off := fun he => by
        have := stripeKey_inj (by omega) (by omega) he
        omega
      have h := ih (m := m.write (stripeKey stripe 7 off) (m.read (stripeKey stripe 7 off) ^^^ b)) (off := off + 1) (i := i)
        (Memory.write_wf _ _ hm) (by omega) (by omega)
      rw [show off + 1 + i = off + (i + 1) by omega, Memory.read_write _ _ _ hm, if_neg hne] at h
      exact h

section
variable {s : State} {src seq stripe off stamp : Nat} {bytes : List Byte}

/-- How far ahead of its turn a difference is, modulo 2^16 (R396). -/
def State.parityAhead (s : State) (src seq : Nat) : Nat := (seq % 2 ^ 16 + 2 ^ 16 - s.parityIn.getD src 0) % 2 ^ 16

theorem execParityDifference_duplicate (h : 2 ^ 15 ≤ s.parityAhead src seq) :
    execParityDifference src seq stripe off stamp bytes s = .next { s with parityAcks := s.parityAcks ++ [(src, seq)] } := if_pos h

theorem execParityDifference_early (h0 : 0 < s.parityAhead src seq) (h : s.parityAhead src seq < 256) :
    execParityDifference src seq stripe off stamp bytes s = .next (s.due [.parityDifference src seq stripe off stamp bytes]) := by
  unfold State.parityAhead at h0 h
  simp only [execParityDifference]
  rw [if_neg (by omega), if_neg (by omega), if_pos (by rw [decide_eq_true h0]; rfl)]

theorem execParityDifference_dropped (h0 : 256 ≤ s.parityAhead src seq) (h : s.parityAhead src seq < 2 ^ 15) :
    execParityDifference src seq stripe off stamp bytes s = .next s := by
  unfold State.parityAhead at h0 h
  simp only [execParityDifference]
  rw [if_neg (by omega), if_pos h0]

/-- R360, R402: a difference in its turn. -/
theorem execParityDifference_inTurn (h : seq % 2 ^ 16 = s.parityIn.getD src 0) (hw : s.stripeOnWay stripe = false) :
    execParityDifference src seq stripe off stamp bytes s = .next { s with
      parityIn := s.parityIn.set src ((s.parityIn.getD src 0 + 1) % 2 ^ 16), mem := xorInto stripe s.mem off bytes,
      parityAcks := s.parityAcks ++ [(src, seq)] } := by
  have h0 : (seq % 2 ^ 16 + 2 ^ 16 - s.parityIn.getD src 0) % 2 ^ 16 = 0 := by omega
  simp only [execParityDifference, h0, hw]
  rfl

theorem execParityDifference_applies (h : seq % 2 ^ 16 = s.parityIn.getD src 0) (hw : s.stripeOnWay stripe = false)
    (hm : Memory.wf s.mem = true) (hlen : off + bytes.length ≤ 4096) :
    ∃ t, execParityDifference src seq stripe off stamp bytes s = .next t ∧
      t.parityIn = s.parityIn.set src ((s.parityIn.getD src 0 + 1) % 2 ^ 16) ∧
      (∀ i, i < bytes.length → t.mem.read (stripeKey stripe 7 (off + i)) = s.mem.read (stripeKey stripe 7 (off + i)) ^^^ bytes.getD i 0) ∧
      (∀ a, (∀ i, i < bytes.length → a ≠ stripeKey stripe 7 (off + i)) → t.mem.read a = s.mem.read a) ∧
      t = { s with parityIn := t.parityIn, mem := t.mem, parityAcks := s.parityAcks ++ [(src, seq)] } :=
  ⟨_, execParityDifference_inTurn h hw, rfl, fun _ hi => read_xorInto bytes hm hlen hi, fun _ ha => read_xorInto_other bytes hm ha, rfl⟩

/-- R360, R111: the wait for a difference ends with its acknowledgement. -/
theorem execParityAck_ends {holder : Nat} (hl : s.rankLost holder = false)
    (ho : ∀ d ∈ s.parity, d.holder = holder → d.seq = seq → s.parityOpen d = true) :
    ∃ t, execParityAck holder seq s = .next t ∧ t.parity = s.parity.filter (fun d => !(d.holder == holder && d.seq == seq)) ∧ t.mem = s.mem := by
  have hany : s.parity.any (fun d => d.holder == holder && d.seq == seq && !s.parityOpen d) = false := by
    rw [List.any_eq_false]
    intro d hd h
    obtain ⟨⟨hh, hs⟩, hn⟩ : (d.holder = holder ∧ d.seq = seq) ∧ s.parityOpen d = false := by
      simpa only [Bool.and_eq_true, beq_iff_eq, Bool.not_eq_true'] using h
    exact Bool.false_ne_true (hn.symm.trans (ho d hd hh hs))
  unfold execParityAck
  rw [if_neg (by rw [hl]; exact Bool.false_ne_true), if_neg (by rw [hany]; exact Bool.false_ne_true)]
  extract_lets s1
  have h1 : s1.parity = s.parity ∧ s1.mem = s.mem := by
    unfold s1
    split <;> exact ⟨rfl, rfl⟩
  exact ⟨_, rfl, congrArg (List.filter _) h1.1, h1.2⟩

theorem execParityAck_lost {holder : Nat} (hl : s.rankLost holder = true) : execParityAck holder seq s = .next s := if_pos hl

end

/-- Settles O25: differences by `State.applyDiff_spec`, host accesses by where the address lies, parity differences by how far ahead they are. -/
theorem differencesReachMemory : Obligations.DifferencesReachMemory :=
  ⟨fun _ _ _ => ⟨execDifferenceApply_first, execDifferenceApply_none, fun sys _ _ bytes ha hd hl => execHostWrite_device ha hd sys bytes hl,
      fun sys _ bytes ha hd hl => execHostWrite_waits ha hd sys bytes hl, fun sys _ bytes ha h1 h2 => execHostWrite_host ha h1 h2 sys bytes,
      fun sys _ _ n ha hd hl hw => execHostRead_device ha hd sys n hl hw, fun sys _ n ha h1 h2 => execHostRead_host ha h1 h2 sys n,
      fun _ _ h => execNclAck_some h⟩,
    fun _ _ _ _ _ _ _ => ⟨execParityDifference_duplicate, execParityDifference_early, execParityDifference_dropped,
      fun h hw hm hlen _ => execParityDifference_applies h hw hm hlen, fun _ hl ho => execParityAck_ends hl ho,
      fun _ hl => execParityAck_lost hl⟩⟩

end Sys2Proof.Machine
end

section
/-! LEMMAS. How engine commands leave (R235, R236, R238, R239, R395): in order, judged at their leaving, then translated. -/
set_option Elab.async false

namespace Sys2Proof.Machine

/-! ## Leaving in order (R235, R289) -/

/-- The number of a command that leaves, and the machine: a node's command is numbered now (R289). -/
def State.numbered (s : State) (o : Op) : Nat × State := if o.num = 0 then s.assign o.ctx o.q else (o.num, s)

/-- A numbered command changes no more than a timeline's count of numbers. -/
theorem State.numbered_cases (s : State) (o : Op) : (s.numbered o).2 = s ∨ ∃ t, (s.numbered o).2 = s.setTimeline o.ctx o.q t := by
  unfold State.numbered
  split
  · exact .inr ⟨_, rfl⟩
  · exact .inl rfl

section
variable {s : State} {id : Nat} {o : Op} {self : Instr} {atLeave : State → Op → State × Op} {k2 : State → Op → State}

theorem leaveThen_held (ho : s.op? id = some o) (hq : o.state = .queued) (he : s.earlierQueued id o = true) :
    leaveThen id self atLeave k2 s = s.due [self] := by
  simp [leaveThen, ho, hq, he]

theorem leaveThen_first (ho : s.op? id = some o) (hq : o.state = .queued) (he : ¬s.earlierQueued id o = true) :
    let r := atLeave (s.numbered o).2 { o with state := .translating, num := (s.numbered o).1 }
    leaveThen id self atLeave k2 s =
      if o.nearby then k2 (r.1.setOp id r.2) r.2 else ((r.1.setOp id r.2).sendPacket o.core o.place (pushTag id)).due [self] := by
  simp only [leaveThen, ho, hq, he]
  rfl

theorem leaveThen_translating (ho : s.op? id = some o) (ht : o.state = .translating) :
    leaveThen id self atLeave k2 s = if s.crossing (pushTag id) then s.due [self] else k2 s o := by
  simp only [leaveThen, ho, ht, if_true]

end

/-! ## Commands that are judged at their leaving (R238) -/

/-- In every state like s, where the operation stands as o does, the word i makes it leave, with what judges it, the ranges that it names, and how
it goes on. -/
def LeavesBy (i : Instr) (id : Nat) (s : State) (o : Op) (judge : State → Op → Option Nat) (reqs : State → Op → List (Nat × Nat × AccKind))
    (k : State → Op → State) : Prop :=
  ∀ s' o', s'.op? id = some o' → o'.starting = true → o'.cmd = o.cmd → o'.aux = o.aux → s'.colls = s.colls →
    exec i s' = .next (leaveWith id i judge reqs k s')

/-- What a word makes of a queued command that is judged to end with x, or to go on (R235, R238, R395). -/
def LeavesJudged (s : State) (id : Nat) (o : Op) (i : Instr) (x : Option Nat) : Prop :=
  let o1 : Op := { o with state := .translating, num := (s.numbered o).1, status := x.getD 0 }
  (s.earlierQueued id o = true → exec i s = .next (s.due [i])) ∧
  (¬s.earlierQueued id o = true → o.nearby = true → s.crossing (pushTag id) = false → exec i s = exec i ((s.numbered o).2.setOp id o1)) ∧
  (¬s.earlierQueued id o = true → o.nearby = false →
    exec i s = .next ((((s.numbered o).2.setOp id o1).sendPacket o.core o.place (pushTag id)).due [i]))

section
variable {s : State} {id : Nat} {o : Op} {i : Instr} {judge : State → Op → Option Nat} {reqs : State → Op → List (Nat × Nat × AccKind)}
  {k : State → Op → State}

theorem LeavesBy.judged {x : Option Nat} (h : LeavesBy i id s o judge reqs k) (ho : s.op? id = some o) (hq : o.state = .queued)
    (hj : judge (s.numbered o).2 { o with state := .translating, num := (s.numbered o).1 } = x) : LeavesJudged s id o i x := by
  have hs : o.starting = true := by simp [Op.starting, hq]
  have hx : exec i s = .next (leaveWith id i judge reqs k s) := h s o ho hs rfl rfl rfl
  refine ⟨fun he => hx.trans (congrArg Host.Outcome.next (leaveThen_held ho hq he)), fun he hn hc => ?_, fun he hn => ?_⟩
  · rw [hx, leaveWith, leaveThen_first ho hq he, if_pos hn, hj]
    have ho1 {y : Op} {t : State} : (t.setOp id y).op? id = some y := Tab.get?_set_self ..
    have hframe : (s.numbered o).2.pairs = s.pairs ∧ (s.numbered o).2.colls = s.colls := by
      rcases s.numbered_cases o with e | ⟨t, e⟩ <;> rw [e] <;> exact ⟨rfl, rfl⟩
    rw [h ((s.numbered o).2.setOp id { o with state := .translating, num := (s.numbered o).1, status := x.getD 0 }) _ ho1 rfl rfl rfl hframe.2,
      leaveWith, leaveThen_translating ho1 rfl, if_neg]
    have hcross : ((s.numbered o).2.setOp id { o with state := .translating, num := (s.numbered o).1, status := x.getD 0 }).crossing (pushTag id) =
        s.crossing (pushTag id) := congrArg (fun ps : Tab Pair => ps.any _) hframe.1
    rw [hcross, hc]
    exact Bool.false_ne_true
  · rw [hx, leaveWith, leaveThen_first ho hq he, if_neg (by rw [hn]; exact Bool.false_ne_true), hj]

/-- A command that has left waits for its packet, then its addresses are translated (R236, R395). -/
theorem LeavesBy.translating (h : LeavesBy i id s o judge reqs k) (ho : s.op? id = some o) (ht : o.state = .translating) :
    exec i s = .next (if s.crossing (pushTag id) then s.due [i] else translateWith id i reqs k s o) := by
  rw [h s o ho (by simp [Op.starting, ht]) rfl rfl rfl, leaveWith, leaveThen_translating ho ht]

end

/-! ## The commands -/

section
variable (s : State) (id : Nat) (o : Op)

theorem leavesBy_copy : ∃ k, LeavesBy (.copy id) id s o
    (fun s x => ((copyBad x.cmd).map stFORMAT).or (s.followFault x (copyCmd o.cmd))) (fun _ _ => copyReqs (copyCmd o.cmd)) k :=
  ⟨_, fun s' o' ho hs hc _ _ => by
    change execCopy id s' = _
    simp only [execCopy, ho, hs, if_true, hc]
    rfl⟩

theorem leavesBy_gather : ∃ k, LeavesBy (.gather id) id s o (fun _ x => (gatherBad x.cmd).map stFORMAT)
    (fun _ _ => [((gatherCmd o.cmd).ilist, (gatherCmd o.cmd).n * (gatherCmd o.cmd).isize, .engRead)]) k :=
  ⟨_, fun s' o' ho hs hc _ _ => by
    change execGather id s' = _
    simp only [execGather, ho, hs, if_true, hc]
    rfl⟩

theorem leavesBy_redn : ∃ k, LeavesBy (.redn id) id s o (fun _ x => (rednBad x.cmd).map stFORMAT)
    (fun _ _ => [(cmdField o.cmd 127 64, 128, .engRead)]) k :=
  ⟨_, fun s' o' ho hs hc _ _ => by
    change execRedn id s' = _
    simp only [execRedn, ho, hs, if_true, hc]
    rfl⟩

theorem leavesBy_enq : ∃ k, LeavesBy (.enq id) id s o (fun _ x => (enqBad x.cmd).map stFORMAT)
    (fun _ _ => [(cmdField o.cmd 127 64, 64, .engRead)]) k :=
  ⟨_, fun s' o' ho hs hc _ _ => by
    change execEnq id s' = _
    simp only [execEnq, ho, hs, if_true, hc]
    rfl⟩

theorem leavesBy_mcast : ∃ k, LeavesBy (.mcast id) id s o (fun _ x => (mcastBad x.cmd).map stFORMAT)
    (fun _ _ => [((mcastCmd o.cmd).src, (mcastCmd o.cmd).len, .engRead)]) k :=
  ⟨_, fun s' o' ho hs hc _ _ => by
    change execMcast id s' = _
    simp only [execMcast, ho, hs, if_true, hc]
    rfl⟩

theorem leavesBy_collRun {i : Instr} (given : List (List Byte)) (hx : ∀ s, exec i s = collRun id i given s) :
    ∃ reqs k, LeavesBy i id s o State.collJudge reqs k :=
  ⟨_, _, fun s' o' ho hs hc ha hl => by
    have hg (n : Nat) : s'.collGroup n = s.collGroup n := by unfold State.collGroup; rw [hl]
    rw [hx]
    simp only [collRun, ho, hs, if_true, hc, ha, hg]
    rfl⟩

theorem leavesBy_collXor {i : Instr} (rebuild : Bool) (others : List (List Byte)) (hx : ∀ s, exec i s = collXor id i rebuild others s) :
    ∃ reqs k, LeavesBy i id s o State.collJudge reqs k :=
  ⟨_, _, fun s' o' ho hs _ _ _ => by
    rw [hx]
    simp only [collXor, ho, hs, if_true]
    rfl⟩

end

/-! ## Judging (R238, R241, R399) -/

section
variable {s : State} {o : Op}

/-- What a number leaves as it is: cores, Kernels and Teams, and of Contexts all but a timeline. -/
theorem State.numbered_frame : (s.numbered o).2.cores = s.cores ∧ (s.numbered o).2.kernels = s.kernels ∧ (s.numbered o).2.teams = s.teams ∧
    (s.numbered o).2.colls = s.colls ∧ (s.numbered o).2.parts = s.parts ∧ (s.numbered o).2.unreachable = s.unreachable := by
  rcases s.numbered_cases o with e | ⟨t, e⟩ <;> rw [e] <;> exact ⟨rfl, rfl, rfl, rfl, rfl, rfl⟩

theorem State.numbered_ctx (c : Nat) : ((s.numbered o).2.ctx c).part = (s.ctx c).part ∧ ((s.numbered o).2.ctx c).privl = (s.ctx c).privl := by
  rcases s.numbered_cases o with e | ⟨t, e⟩
  · rw [e]
    exact ⟨rfl, rfl⟩
  · rw [e, State.setTimeline, State.ctx_setCtx]
    split
    · next hc =>
      rw [hc]
      exact ⟨rfl, rfl⟩
    · exact ⟨rfl, rfl⟩

/-- R241: the check of a follow-on MMA does not hang on the command's number. -/
theorem State.followFault_numbered (c : CopyCmd) :
    (s.numbered o).2.followFault { o with state := .translating, num := (s.numbered o).1 } c = s.followFault o c := by
  obtain ⟨hc, hk, ht, _⟩ := State.numbered_frame (s := s) (o := o)
  unfold State.followFault State.launchAt State.core
  rw [hc, hk, ht]

/-- R399: nor do the checks of a COLL. -/
theorem State.collJudge_numbered :
    (s.numbered o).2.collJudge { o with state := .translating, num := (s.numbered o).1 } = s.collJudge o := by
  obtain ⟨_, _, _, hl, hp, hu⟩ := State.numbered_frame (s := s) (o := o)
  obtain ⟨hpart, hpriv⟩ := State.numbered_ctx (s := s) (o := o) o.ctx
  unfold State.collJudge collBad State.collFault State.collGroup State.nslOf State.part
  simp only [hl, hp, hu, hpart, hpriv]

end

/-- R235: the updates, searches and publications of a Context also wait for the commands sent earlier. -/
theorem exec_held {s : State} {id : Nat} {o : Op} (ho : s.op? id = some o) (hq : o.state = .queued) (he : s.earlierQueued id o = true) :
    ∀ i ∈ [Instr.srch id, .updInsert id, .updDelete id, .updLink id, .publ id], exec i s = .next (s.due [i]) := by
  have hs : o.starting = true := by simp [Op.starting, hq]
  have hupd (i : Instr) : updWord id i s = .next (s.due [i]) := by
    simp only [updWord, ho, hs, if_true]
    exact congrArg Host.Outcome.next (leaveThen_held ho hq he)
  have hsrch : execSrch id s = .next (s.due [.srch id]) := by
    simp only [execSrch, ho, hq, reduceCtorEq, if_false]
    exact congrArg Host.Outcome.next (leaveThen_held ho hq he)
  have hpubl : execPubl id s = .next (s.due [.publ id]) := congrArg Host.Outcome.next (leaveThen_held ho hq he)
  intro i hi
  simp only [List.mem_cons, List.not_mem_nil, or_false] at hi
  rcases hi with rfl | rfl | rfl | rfl | rfl
  · exact hsrch
  · exact hupd _
  · exact hupd _
  · exact hupd _
  · exact hpubl

/-! ## Translation (R236, R238) -/

/-- What becomes of a command that has left, by what its status address and its ranges are found to be. -/
def LeftAnswers (s : State) (id : Nat) (o : Op) (i : Instr) (reqs : List (Nat × Nat × AccKind)) : Prop :=
  let here (va : Option Nat) (ps : List Tlb) : Prop := s.statusAt o.ctx (cmdStaddr o.cmd) = .at_ va ps
  let there : Prop := s.crossing (pushTag id) = false
  (¬there → exec i s = .next (s.due [i])) ∧
  (∀ va ps, there → here va ps → o.status ≠ 0 → exec i s = .next (s.finishOp id { o with stva := va, pages := ps } o.status)) ∧
  (∀ va ps, there → here va ps → o.status = 0 → s.reach o.ctx reqs = .refused →
    exec i s = .next (s.finishOp id { o with stva := va, pages := ps } stPROT)) ∧
  (∀ va ps v acc, there → here va ps → o.status = 0 → s.reach o.ctx reqs = .missing v acc →
    exec i s = .next ((s.engineWalk id o v acc).due [i])) ∧
  (there → s.statusAt o.ctx (cmdStaddr o.cmd) = .refused → exec i s = .next (s.finishOp id { o with stva := none } (o.endsWith stPROT))) ∧
  (∀ va, there → s.statusAt o.ctx (cmdStaddr o.cmd) = .missing va → exec i s = .next ((s.engineWalk id o va .engWrite).due [i]))

theorem LeavesBy.answers {s : State} {id : Nat} {o : Op} {i : Instr} {judge : State → Op → Option Nat} {rs : List (Nat × Nat × AccKind)}
    {k : State → Op → State} (h : LeavesBy i id s o judge (fun _ _ => rs) k) (ho : s.op? id = some o) (ht : o.state = .translating) :
    LeftAnswers s id o i rs := by
  have hx := h.translating ho ht
  have hthere (hc : s.crossing (pushTag id) = false) : exec i s = .next (translateWith id i (fun _ _ => rs) k s o) := by
    rw [hx, hc]
    rfl
  refine ⟨fun hc => ?_, fun va ps hc hh hs => ?_, fun va ps hc hh hs hr => ?_, fun va ps v acc hc hh hs hr => ?_, fun hc hh => ?_, fun va hc hh => ?_⟩
  · rw [hx, Bool.of_not_eq_false hc]
    rfl
  all_goals rw [hthere hc]
  all_goals unfold translateWith
  · simp [hh, hs]
  · simp [hh, hs, hr]
  · simp [hh, hs, hr]
  · simp [hh]
  · simp [hh]

/-- Settles O28: each command leaves and is translated by the rule that all share, with what judges it and the ranges that it names. -/
theorem commandsLeave : Obligations.CommandsLeave := by
  refine ⟨fun s id o others ho hq => ⟨exec_held ho hq, ?_⟩, fun s id o ho ht => ?_⟩
  · obtain ⟨_, hcopy⟩ := leavesBy_copy s id o
    obtain ⟨_, hgather⟩ := leavesBy_gather s id o
    obtain ⟨_, hredn⟩ := leavesBy_redn s id o
    obtain ⟨_, henq⟩ := leavesBy_enq s id o
    obtain ⟨_, hmcast⟩ := leavesBy_mcast s id o
    have hfollow : LeavesJudged s id o (.copy id) (((copyBad o.cmd).map stFORMAT).or (s.followFault o (copyCmd o.cmd))) :=
      hcopy.judged ho hq (congrArg _ (State.followFault_numbered _))
    have hrun {i : Instr} (hx : ∀ s, exec i s = collRun id i others s) : LeavesJudged s id o i (s.collJudge o) := by
      obtain ⟨_, _, h⟩ := leavesBy_collRun s id o others hx
      exact h.judged ho hq State.collJudge_numbered
    have hxor {i : Instr} (rebuild : Bool) (hx : ∀ s, exec i s = collXor id i rebuild others s) : LeavesJudged s id o i (s.collJudge o) := by
      obtain ⟨_, _, h⟩ := leavesBy_collXor s id o rebuild others hx
      exact h.judged ho hq State.collJudge_numbered
    intro x hx
    simp only [List.mem_cons, List.not_mem_nil, or_false] at hx
    rcases hx with rfl | rfl | rfl | rfl | rfl | rfl | rfl | rfl | rfl
    · exact hfollow
    · exact hgather.judged ho hq rfl
    · exact hredn.judged ho hq rfl
    · exact henq.judged ho hq rfl
    · exact hmcast.judged ho hq rfl
    · exact hrun fun _ => rfl
    · exact hrun fun _ => rfl
    · exact hxor false fun _ => rfl
    · exact hxor true fun _ => rfl
  · obtain ⟨_, hcopy⟩ := leavesBy_copy s id o
    obtain ⟨_, hgather⟩ := leavesBy_gather s id o
    obtain ⟨_, hredn⟩ := leavesBy_redn s id o
    obtain ⟨_, henq⟩ := leavesBy_enq s id o
    obtain ⟨_, hmcast⟩ := leavesBy_mcast s id o
    intro here there cc gc mc node cases x hx
    simp only [cases, List.mem_cons, List.not_mem_nil, or_false] at hx
    rcases hx with rfl | rfl | rfl | rfl | rfl
    · exact hcopy.answers ho ht
    · exact hgather.answers ho ht
    · exact hredn.answers ho ht
    · exact henq.answers ho ht
    · exact hmcast.answers ho ht

end Sys2Proof.Machine
end

section
/-! LEMMAS. COPY and GATHER move their rows in engine Chunks (R93, R116, R205, R236, R240 to R242). -/
set_option Elab.async false

namespace Sys2Proof.Machine

/-! ## COPY (R240, R241) -/

section
variable {s : State} {id : Nat} {o : Op} (ho : s.op? id = some o)
include ho

/-- R240: a COPY that has been judged and translated runs. -/
theorem execCopy_translated {o1 : Op} (hg : o.gone s id) (ht : Translated s o (copyReqs (copyCmd o.cmd)) o1)
    (hw : s.copyWindows o1 (copyCmd o.cmd) = true) :
    execCopy id s = .next ((s.setOp id { o1 with state := .left }).due [.copy id]) := by
  simp only [execCopy, ho, gone_starting hg, if_true]
  rw [leaveWith_translated (reqs := fun _ _ => copyReqs (copyCmd o.cmd)) ho hg ht, if_pos hw]

theorem execCopy_left (hl : o.state = .left) (hu : o.units = 0) : execCopy id s = .next (s.copyRun id o) := by
  simp [execCopy, ho, not_starting_of_left hl, hl, hu]

omit ho in
/-- The pieces of the next engine Chunk of a COPY: at most 256, one to a sector (R93, R240). -/
def copyPieces (o : Op) : List Piece :=
  let c := copyCmd o.cmd
  pieces (fun p => rowLoc o c.swin (c.srcRow (p / c.len) + p % c.len)) (fun p => rowLoc o c.dwin (c.dstRow (p / c.len) + p % c.len))
    (fun p => c.len - p % c.len) 256 o.pos (c.rows * c.len)

omit ho in
theorem State.copyRun_moves (hp : o.pos < (copyCmd o.cmd).rows * (copyCmd o.cmd).len)
    (hr : (copyCmd o.cmd).dwin = true → s.registered id o.core (windowRows o.cmd) = true) :
    s.copyRun id o = s.movePieces id o (copyPieces o) (.copy id) := by
  have hreg : ¬((copyCmd o.cmd).dwin && !s.registered id o.core (windowRows o.cmd)) = true := by
    simpa using hr
  exact (if_neg (Nat.not_le.mpr hp)).trans (if_neg hreg)

omit ho in
theorem State.copyRun_done (hp : (copyCmd o.cmd).rows * (copyCmd o.cmd).len ≤ o.pos) : s.copyRun id o =
    (s.setOp id { o with state := .committing }).due [if (copyCmd o.cmd).fo then .followOnMma id else .copyRetire id] := if_pos hp

theorem execCopyRetire_ok (hc : o.state = .committing) (hs : o.status = 0) :
    execCopyRetire id s = .next (s.finishOp id o o.iovf.toNat) := by
  simp [execCopyRetire, ho, hc, hs, stOK]

/-- R226, R241: the follow-on MMA takes its place in the core's order. -/
theorem execFollowOnMma_placed {t : Nat} {x : Team} (hc : o.state = .committing) (ht : o.team = some t) (hx : s.teams.get? t = some x)
    (hb : tileBusy (s.core o.core) (copyCmd o.cmd).tile = false)
    (hn : ∀ g ∈ (s.core o.core).groups, (copyCmd o.cmd).tile ∉ g.2.chunk.tiles) (hh : s.followHeld id x (copyCmd o.cmd) = false) :
    execFollowOnMma id s = .next ((s.setCore o.core { s.core o.core with order := (s.core o.core).order ++
      [{ owner := (0, 0), follow := some id, tile := (copyCmd o.cmd).tile, act := (copyCmd o.cmd).act, slotIdx := (copyCmd o.cmd).slot,
         desc := (copyCmd o.cmd).fodesc, snap := (s.core x.home).pool.slice (x.scr 0) (256 * x.tscr), pc := 0, retries := 0 }] }).due
      [.mmaRetire o.core false]) := by
  have hnone : (s.core o.core).groups.any (fun g => g.2.chunk.tiles.contains (copyCmd o.cmd).tile) = false :=
    List.any_eq_false.mpr fun g hg h => hn g hg (List.contains_iff_mem.mp h)
  simp only [execFollowOnMma, ho, hc, hnone, hb, ht, Option.bind_some, hx, hh]
  rfl

end

/-! ## One engine Chunk of a transfer (R93, R116, R205) -/

/-- The addresses of memory that pieces read. -/
def piecesRead (ps : List Piece) : List Nat := ps.filterMap (fun p => match p.src with | .mem pa => some pa | .pool _ _ => none)

/-- The item that writes a piece at a physical address, with the bytes of its source. -/
def State.pieceItem (s : State) (p : Piece) : BufItem :=
  storeItem (match p.dst with | .mem pa => pa | .pool _ a => a) (s.locBytes p.src p.len)

/-- A piece of scratchpad lands (R205). -/
def State.landPiece (s : State) (p : Piece) : State :=
  match p.dst with | .pool c a => s.poolPut c a (s.locBytes p.src p.len) | .mem _ => s

section
variable {s : State} {id : Nat} {o : Op} {ps : List Piece} {again : Instr}

theorem opReads_asks {u : State} {n : Nat} {pas : List Nat} {k : State → State} (h : s.askAcross o.place (readTag id n) pas = some u) :
    s.opReads id o n pas again k = u.due [again] := by
  simp only [State.opReads, h]

theorem opReads_waits {n pa : Nat} {pas : List Nat} {k : State → State} (ha : s.askAcross o.place (readTag id n) pas = none)
    (h : pas.find? (s.waitsFor (.op id) o.die) = some pa) : s.opReads id o n pas again k = (s.await pa (.op id)).due [again] := by
  simp only [State.opReads, ha, h]

theorem foldl_add_len (ps : List Piece) : ∀ n : Nat, ps.foldl (fun n p => n + p.len) n = n + (ps.map (fun p => p.len)).sum := by
  induction ps with
  | nil => exact fun _ => rfl
  | cons p r ih => exact fun n => (ih _).trans (by rw [List.map_cons, List.sum_cons, Nat.add_assoc])

/-- The operation when a Chunk of pieces has been moved. -/
def Op.movedBy (o : Op) (ps : List Piece) : Op := { o with state := .left, pos := o.pos + (ps.map (fun p => p.len)).sum }

/-- The pieces that go to memory, as items with the bytes that t reads. -/
def State.memItems (t : State) (ps : List Piece) : List BufItem :=
  ps.filterMap (fun p => match p.dst with | .mem pa => some (storeItem pa (t.locBytes p.src p.len)) | .pool _ _ => none)

section
variable (h : Served s id o (2 * o.pos) (piecesRead ps))
include h

theorem movePieces_poisoned (hp : ∃ p ∈ ps, (s.afterRead id o (piecesRead ps)).piecePoison p = true) :
    s.movePieces id o ps again = (s.afterRead id o (piecesRead ps)).finishOp id o stUCE :=
  (opReads_served h again _).trans (if_pos (List.any_eq_true.mpr hp))

/-- R93, R116: what a Chunk whose reads are served, and find no poison, does. -/
theorem movePieces_served (hp : ∀ p ∈ ps, (s.afterRead id o (piecesRead ps)).piecePoison p = false) :
    let t := s.afterRead id o (piecesRead ps)
    let v := ps.foldl State.landPiece (t.setOp id (o.movedBy ps))
    s.movePieces id o ps again = if (t.memItems ps).isEmpty then v.due [again] else v.offerUnit id (o.movedBy ps) (t.memItems ps) := by
  have hany : (ps.any (s.afterRead id o (piecesRead ps)).piecePoison) = false :=
    List.any_eq_false.mpr fun p hm => by rw [hp p hm]; exact Bool.false_ne_true
  refine (opReads_served h again _).trans ((if_neg (by rw [hany]; exact Bool.false_ne_true)).trans ?_)
  rw [foldl_add_len, Nat.zero_add]
  rfl

end

/-- Pieces that go to memory land nowhere, and each is an item. -/
theorem State.memItems_of_mem {t : State} (hd : ∀ p ∈ ps, ∃ pa, p.dst = .mem pa) :
    t.memItems ps = ps.map t.pieceItem ∧ ∀ s : State, ps.foldl State.landPiece s = s := by
  induction ps with
  | nil => exact ⟨rfl, fun _ => rfl⟩
  | cons p r ih =>
    obtain ⟨pa, hpa⟩ := hd p List.mem_cons_self
    obtain ⟨hi, hl⟩ := ih fun q hq => hd q (List.mem_cons_of_mem _ hq)
    have hp : t.memItems (p :: r) = storeItem pa (t.locBytes p.src p.len) :: t.memItems r := by
      simp [State.memItems, hpa]
    refine ⟨?_, fun s => ?_⟩
    · rw [hp, hi, List.map_cons, State.pieceItem, hpa]
    · rw [List.foldl_cons, show s.landPiece p = s by simp [State.landPiece, hpa], hl]

/-- Pieces that go to scratchpad are no items; where they land, no more than pools changes. -/
theorem State.memItems_of_pool {t : State} (hd : ∀ p ∈ ps, ∃ c a, p.dst = .pool c a) :
    t.memItems ps = [] ∧ ∀ s : State, let v := ps.foldl State.landPiece s
      v.offers = s.offers ∧ v.mem = s.mem ∧ v.ops = s.ops ∧ v.agenda = s.agenda := by
  induction ps with
  | nil => exact ⟨rfl, fun _ => ⟨rfl, rfl, rfl, rfl⟩⟩
  | cons p r ih =>
    obtain ⟨c, a, hca⟩ := hd p List.mem_cons_self
    obtain ⟨hi, hl⟩ := ih fun q hq => hd q (List.mem_cons_of_mem _ hq)
    have hp : t.memItems (p :: r) = t.memItems r := by
      simp [State.memItems, hca]
    refine ⟨hp.trans hi, fun s => ?_⟩
    have hs : s.landPiece p = s.poolPut c a (s.locBytes p.src p.len) := by simp [State.landPiece, hca]
    have h := hl (s.landPiece p)
    rw [hs] at h
    rw [List.foldl_cons, hs]
    exact h

theorem movePieces_offers (h : Served s id o (2 * o.pos) (piecesRead ps)) (hne : ps ≠ [])
    (hp : ∀ p ∈ ps, (s.afterRead id o (piecesRead ps)).piecePoison p = false) (hd : ∀ p ∈ ps, ∃ pa, p.dst = .mem pa) :
    let t := s.afterRead id o (piecesRead ps)
    s.movePieces id o ps again = (t.setOp id (o.movedBy ps)).offerUnit id (o.movedBy ps) (ps.map t.pieceItem) := by
  intro t
  obtain ⟨hi, hl⟩ := State.memItems_of_mem (t := t) hd
  have hsome : (ps.map t.pieceItem).isEmpty = false := List.isEmpty_eq_false_iff.mpr (by simpa using hne)
  rw [movePieces_served h hp, hi, hl, if_neg (by rw [hsome]; exact Bool.false_ne_true)]

theorem movePieces_lands (h : Served s id o (2 * o.pos) (piecesRead ps))
    (hp : ∀ p ∈ ps, (s.afterRead id o (piecesRead ps)).piecePoison p = false) (hd : ∀ p ∈ ps, ∃ c a, p.dst = .pool c a) :
    ∃ u, s.movePieces id o ps again = u ∧ u.offers = s.offers ∧ u.mem = s.mem ∧ u.op? id = some (o.movedBy ps) ∧
      u.agenda = s.agenda ++ [again] := by
  obtain ⟨hi, hl⟩ := State.memItems_of_pool (t := s.afterRead id o (piecesRead ps)) hd
  obtain ⟨hoff, hmem, hops, hag⟩ := hl ((s.afterRead id o (piecesRead ps)).setOp id (o.movedBy ps))
  refine ⟨_, (movePieces_served h hp).trans (if_pos (by rw [hi]; rfl)), hoff, hmem, ?_, congrArg (· ++ [again]) hag⟩
  exact (congrArg (fun t : Tab Op => t.get? id) hops).trans (Tab.get?_set_self ..)

end

/-! ## GATHER (R242) -/

section
variable {s : State} {id : Nat} {o : Op} (ho : s.op? id = some o)
include ho

omit ho in
/-- R242: the index list is read, and every row's Page is translated. -/
theorem State.gatherLeave_reached {c : GatherCmd} {qs : List Tlb} (hs : Served s id o 1 (o.pas [(c.ilist, c.n * c.isize)])) :
    let t := s.afterRead id o (o.pas [(c.ilist, c.n * c.isize)])
    let idx := splitNums c.isize c.n (t.vread o.pages c.ilist (c.n * c.isize))
    t.vpoison o.pages c.ilist (c.n * c.isize) = false → t.reach o.ctx (gatherReqs c idx) = .ok qs →
    (c.dwin = true → ∀ i, i < c.n → t.winOk o.kernel o.core (c.dstRow i) c.rowlen = true) →
    s.gatherLeave id c o = (t.setOp id { o with state := .left, aux := idx, pages := addPages o.pages qs, wants := none }).due [.gather id] := by
  intro t idx hp hr hw
  have hwin : (!c.dwin || (upFrom 0 c.n).all (fun i => t.winOk o.kernel o.core (c.dstRow i) c.rowlen)) = true := by
    cases hd : c.dwin with
    | false => rfl
    | true => exact List.all_eq_true.mpr fun i hi => hw hd i (by have := (mem_upFrom c.n).mp hi; omega)
  refine (opVreads_served hs (fun r hm => by rw [List.mem_singleton.mp hm]; exact hp) _ _).trans ?_
  simp only
  rw [hr]
  exact if_pos hwin

/-- R236, R242: a GATHER that has been judged, and whose index list is translated and read, runs. -/
theorem execGather_translated {o1 : Op} {qs : List Tlb} :
    let c := gatherCmd o.cmd
    let n := c.n * c.isize
    o.gone s id → Translated s o [(c.ilist, n, .engRead)] o1 → Served s id o1 1 (o1.pas [(c.ilist, n)]) →
    let t := s.afterRead id o1 (o1.pas [(c.ilist, n)])
    let idx := splitNums c.isize c.n (t.vread o1.pages c.ilist n)
    t.vpoison o1.pages c.ilist n = false → t.reach o.ctx (gatherReqs c idx) = .ok qs →
    (c.dwin = true → ∀ i, i < c.n → t.winOk o.kernel o.core (c.dstRow i) c.rowlen = true) →
    execGather id s = .next ((t.setOp id { o1 with state := .left, aux := idx, pages := addPages o1.pages qs }).due [.gather id]) := by
  intro c n hg ht hs t idx hp hr hw
  have hleave := leaveWith_translated (reqs := fun _ _ => [(c.ilist, n, .engRead)]) ho hg ht (.gather id)
  obtain ⟨_, _, _, _, _, rfl⟩ := ht
  simp only [execGather, ho, gone_starting hg, if_true]
  exact congrArg Host.Outcome.next ((hleave _ _).trans (State.gatherLeave_reached hs hp hr hw))

section
variable (hl : o.state = .left) (hu : o.units = 0)
include hl hu

theorem execGather_moves : let c := gatherCmd o.cmd
    o.pos < c.n * c.rowlen → (c.dwin = true → s.registered id o.core (windowRows o.cmd) = true) →
    execGather id s = .next (s.movePieces id o (pieces (fun p => .mem (o.pa (c.srcRow o.aux (p / c.rowlen) + p % c.rowlen)))
      (fun p => rowLoc o c.dwin (c.dstRow (p / c.rowlen) + p % c.rowlen)) (fun p => c.rowlen - p % c.rowlen) 256 o.pos (c.n * c.rowlen))
      (.gather id)) := by
  intro c hp hr
  have hreg : ¬(c.dwin && !s.registered id o.core (windowRows o.cmd)) = true := by simpa using hr
  simp only [execGather, ho, not_starting_of_left hl, hl, hu]
  exact (if_neg (Nat.not_le.mpr hp)).trans (if_neg hreg)

theorem execGather_registers (hp : o.pos < (gatherCmd o.cmd).n * (gatherCmd o.cmd).rowlen) (hd : (gatherCmd o.cmd).dwin = true)
    (hr : s.registered id o.core (windowRows o.cmd) = false) :
    execGather id s = .next ((s.register id o.core (windowRows o.cmd)).due [.gather id]) := by
  have hreg : ((gatherCmd o.cmd).dwin && !s.registered id o.core (windowRows o.cmd)) = true := by rw [hd, hr]; rfl
  simp only [execGather, ho, not_starting_of_left hl, hl, hu]
  exact (if_neg (Nat.not_le.mpr hp)).trans (if_pos hreg)

theorem execGather_done (hp : (gatherCmd o.cmd).n * (gatherCmd o.cmd).rowlen ≤ o.pos) : execGather id s = .next (s.finishOp id o 0) := by
  simp only [execGather, ho, not_starting_of_left hl, hl, hu]
  exact if_pos hp

end

end

/-- Settles O29: COPY and GATHER by how far they have come, their engine Chunks by `movePieces_served`. -/
theorem copyAndGatherCommands : Obligations.CopyAndGatherCommands :=
  ⟨fun _ _ _ ho => ⟨fun _ hg ht hw => execCopy_translated ho hg ht hw,
      fun ⟨hl, hu⟩ hp hr => (execCopy_left ho hl hu).trans (congrArg _ (State.copyRun_moves hp hr)),
      fun ⟨hl, hu⟩ hp => (execCopy_left ho hl hu).trans (congrArg _ (State.copyRun_done hp)), execCopyRetire_ok ho,
      fun _ _ hc ht hx hb hn hh => execFollowOnMma_placed ho hc ht hx hb hn hh⟩,
    fun _ _ _ _ _ => ⟨fun _ => opReads_asks, fun _ => opReads_waits, movePieces_poisoned, movePieces_offers, movePieces_lands⟩,
    fun _ _ _ ho => ⟨fun _ _ => execGather_translated ho, execGather_moves ho, execGather_registers ho, execGather_done ho⟩⟩

end Sys2Proof.Machine
end

section
/-! LEMMAS. The encoding (R117 to R138), from words to instructions: every word that decodes is the word of what it decodes to. -/
set_option Elab.async false

namespace Sys2Proof
open Machine

/-- The fields of a word, but for its bit, fit their places (R118). -/
structure Fits (fn d a b : Nat) : Prop where
  fn : fn < 16
  d : d < 128
  a : a < 128
  b : b < 128

theorem bitAt_eq_of_toNat {x i : Nat} {t : Bool} (h : x / 2 ^ i % 2 = t.toNat) : bitAt x i = t := by
  cases t <;> simp_all [bitAt]

theorem toNat_bitAt (x i : Nat) : (bitAt x i).toNat = x / 2 ^ i % 2 := by
  unfold bitAt
  have := Nat.mod_two_eq_zero_or_one (x / 2 ^ i)
  rcases this with h | h <;> simp [h]

theorem fieldsOf_fits (w : Nat) : Fits (fieldsOf w).fn (fieldsOf w).d (fieldsOf w).a (fieldsOf w).b := by
  constructor <;> (simp only [fieldsOf, field]; omega)

theorem word_fieldsOf {w : Nat} : word (field w 31 26) (fieldsOf w).fn (fieldsOf w).t (fieldsOf w).d (fieldsOf w).a (fieldsOf w).b = w % 2 ^ 32 := by
  simp only [word, fieldsOf, field, toNat_bitAt]
  omega

theorem word_lt {M fn d a b : Nat} (t : Bool) (hM : M < 64) (hf : Fits fn d a b) : word M fn t d a b < 2 ^ 32 := by
  obtain ⟨h1, h2, h3, h4⟩ := hf
  have := t.toNat_lt
  simp only [word] at *
  omega

theorem field_word {M fn d a b : Nat} {t : Bool} (hM : M < 64) (hf : Fits fn d a b) : field (word M fn t d a b) 31 26 = M := by
  obtain ⟨h1, h2, h3, h4⟩ := hf
  have := t.toNat_lt
  simp only [word, field] at *
  omega

theorem fieldsOf_word {M fn d a b : Nat} {t : Bool} (hf : Fits fn d a b) : fieldsOf (word M fn t d a b) = ⟨fn, t, d, a, b⟩ := by
  obtain ⟨h1, h2, h3, h4⟩ := hf
  have ht := t.toNat_lt
  have hbit : bitAt (word M fn t d a b) 21 = t := bitAt_eq_of_toNat (by simp only [word] at *; omega)
  simp only [fieldsOf, hbit, Fields.mk.injEq, true_and]
  simp only [word, field] at *
  omega

/-- An answer that gives no instruction but those whose word is w. -/
def Decoded.Spells (d : Decoded) (w : Nat) : Prop := ∀ i, d = .ok i → i.isCode = true ∧ i.wf = true ∧ encode i = some w

@[simp] theorem spells_ok {i : Instr} {w : Nat} : (Decoded.ok i).Spells w ↔ i.isCode = true ∧ i.wf = true ∧ encode i = some w :=
  ⟨fun h => h i rfl, fun h _ hi => Decoded.ok.inj hi ▸ h⟩

@[simp] theorem spells_bad {r : IllReason} {w : Nat} : (Decoded.bad r).Spells w := fun _ h => nomatch h

@[simp] theorem spells_orRes {c : Bool} {i : Instr} {w : Nat} : (orRes c i).Spells w ↔ (c = true → (Decoded.ok i).Spells w) := by
  cases c <;> simp [orRes]

@[simp] theorem spells_orCode {c : Bool} {d : Decoded} {w : Nat} : (orCode c d).Spells w ↔ (c = true → d.Spells w) := by
  cases c <;> simp [orCode]

@[simp] theorem spells_orLook {l : Nat} {d : Decoded} {w : Nat} : (orLook l d).Spells w ↔ (l = 0 → d.Spells w) := by
  by_cases h : l = 0 <;> simp [orLook, h]

@[simp] theorem spells_withCode {α : Type} {o : Option α} {k : α → Decoded} {w : Nat} :
    (withCode o k).Spells w ↔ ∀ x, o = some x → (k x).Spells w := by
  cases o <;> simp [withCode]

/-! ## Codes (R132 to R136) -/

theorem icondCode_of {n : Nat} {c : ICond} (h : icondOf n = some c) : n = icondCode c := by
  unfold icondOf at h; split at h <;> cases h <;> rfl

theorem fcondCode_of {n : Nat} {c : FCond} (h : fcondOf n = some c) : n = fcondCode c := by
  unfold fcondOf at h; split at h <;> cases h <;> rfl

theorem fcvtCode_of {n : Nat} {c : FcvtKind} (h : fcvtOf n = some c) : n = fcvtCode c := by
  unfold fcvtOf at h; split at h <;> cases h <;> rfl

theorem redCode_of {n : Nat} {c : RedOp} (h : redOf n = some c) : n = redCode c := by
  unfold redOf at h; split at h <;> cases h <;> rfl

theorem shflCode_of {n : Nat} {c : ShflMode} (h : shflOf n = some c) : n = shflCode c := by
  unfold shflOf at h; split at h <;> cases h <;> rfl

theorem voteCode_of {n : Nat} {c : VoteMode} (h : voteOf n = some c) : n = voteCode c := by
  unfold voteOf at h; split at h <;> cases h <;> rfl

theorem scopeCode_of {n : Nat} {c : Scope} (h : scopeOf n = some c) : n = scopeCode c := by
  unfold scopeOf at h; split at h <;> cases h <;> rfl

theorem sizeCode_of {n : Nat} {z : Size} (h : sizeOf7 n = some z) : n = sizeCode z := by
  unfold sizeOf7 at h; split at h <;> cases h <;> rfl

theorem atomCode_of {n : Nat} {o : AtomOp} (h : atomOf n = some o) : n = atomCode o := by
  unfold atomOf at h; split at h <;> cases h <;> rfl

theorem levelCode_of {n : Nat} {v : Level} (h : levelOf n = some v) : n = levelCode v := by
  unfold levelOf at h; split at h <;> cases h <;> rfl

theorem intTyCode_intTyOf : ∀ n < 8, intTyCode (intTyOf n) = n := by decide

theorem placeCode_placeOf : ∀ n < 4, placeCode (placeOf n) = n := by decide

theorem actCode_actOf : ∀ n < 4, actCode (actOf n) = n := by decide

section
variable {i : Instr} {M fn d a b : Nat} {t : Bool}

theorem spells_of {v : Bool} {w w' : Nat} (hc : i.isCode = true) (hw : i.wf = v) (he : encode i = some w') (hv : v = true) (h : w' = w) :
    (Decoded.ok i).Spells w :=
  spells_ok.2 ⟨hc, hw.trans hv, he.trans (congrArg some h)⟩

/-- The form with three registers (R118). -/
theorem spells_dab (hf : Fits fn d a b) (hc : i.isCode = true) (hw : i.wf = (r7 d && r7 a && r7 b))
    (he : encode i = some (word M fn t d a b)) : (Decoded.ok i).Spells (word M fn t d a b) :=
  spells_of hc hw he (by simp [r7, hf.d, hf.a, hf.b]) rfl

/-- The form with three registers and no t bit (R118). -/
theorem spells_dab_plain (hf : Fits fn d a b) (hc : i.isCode = true) (hw : i.wf = (r7 d && r7 a && r7 b))
    (he : encode i = some (word M fn false d a b)) : (orRes (!t) i).Spells (word M fn t d a b) := by
  rw [spells_orRes, Bool.not_eq_true']
  rintro rfl
  exact spells_dab hf hc hw he

/-- The form with two registers (R118). -/
theorem spells_da (hf : Fits fn d a b) (hc : i.isCode = true) (hw : i.wf = (r7 d && r7 a))
    (he : encode i = some (word M fn t d a 0)) : (orRes (b == 0) i).Spells (word M fn t d a b) := by
  rw [spells_orRes, beq_iff_eq]
  rintro rfl
  exact spells_of hc hw he (by simp [r7, hf.d, hf.a]) rfl

/-- The form with two registers and no t bit (R118). -/
theorem spells_da_plain (hf : Fits fn d a b) (hc : i.isCode = true) (hw : i.wf = (r7 d && r7 a))
    (he : encode i = some (word M fn false d a 0)) : (orRes (b == 0 && !t) i).Spells (word M fn t d a b) := by
  rw [spells_orRes, Bool.and_eq_true, beq_iff_eq, Bool.not_eq_true']
  rintro ⟨rfl, rfl⟩
  exact spells_of hc hw he (by simp [r7, hf.d, hf.a]) rfl

/-- The form with two registers and a format slot (R118). -/
theorem spells_slot (hf : Fits fn d a b) (hc : i.isCode = true) (hw : i.wf = (r7 d && r7 a && is3 (b % 8)))
    (he : encode i = some (word M fn t d a (b % 8))) : (orRes (b / 8 == 0) i).Spells (word M fn t d a b) := by
  rw [spells_orRes, beq_iff_eq]
  intro hb
  rw [show b % 8 = b by omega] at *
  exact spells_of hc hw he (by simp [r7, is3, hf.d, hf.a]; omega) rfl

/-- The form with two registers, a format slot and no t bit (R118). -/
theorem spells_slot_plain (hf : Fits fn d a b) (hc : i.isCode = true) (hw : i.wf = (r7 d && r7 a && is3 (b % 8)))
    (he : encode i = some (word M fn false d a (b % 8))) : (orRes (b / 8 == 0 && !t) i).Spells (word M fn t d a b) := by
  rw [spells_orRes, Bool.and_eq_true, Bool.not_eq_true']
  rintro ⟨hb, rfl⟩
  exact spells_orRes.1 (spells_slot hf hc hw he) hb

/-- The form of a memory word (R133): b holds the codes that the instruction names. -/
theorem spells_lda {z : Nat} (hf : Fits fn d a b) (hc : i.isCode = true) (hw : i.wf = (isLook fn && r7 d && r7 a))
    (he : encode i = some (word M fn t d a z)) (hb : b = z) : (Decoded.ok i).Spells (word M fn t d a b) := by
  subst hb
  exact spells_of hc hw he (by simp [isLook, r7, hf.fn, hf.d, hf.a]) rfl

end

/-! ## What each major decodes to is spelled by its word -/

section
variable {fn d a b : Nat} {t : Bool} (hf : Fits fn d a b)
include hf

theorem decAdd_spells (w : Bool) : (decAdd w ⟨fn, t, d, a, b⟩).Spells (word (0x00 + w.toNat) fn t d a b) := by
  simp only [decAdd]
  split
  case h_10 => exact spells_bad
  case h_4 | h_5 => exact spells_da hf rfl rfl rfl
  all_goals exact spells_dab hf rfl rfl rfl

theorem decMul_spells (w : Bool) : (decMul w ⟨fn, t, d, a, b⟩).Spells (word (0x02 + w.toNat) fn t d a b) := by
  simp only [decMul]
  split
  case h_9 => exact spells_bad
  all_goals exact spells_dab hf rfl rfl rfl

theorem decLogic_spells (w : Bool) : (decLogic w ⟨fn, t, d, a, b⟩).Spells (word (0x04 + w.toNat) fn t d a b) := by
  simp only [decLogic]
  split
  case h_9 => exact spells_bad
  case h_4 => exact spells_da hf rfl rfl rfl
  all_goals exact spells_dab hf rfl rfl rfl

theorem decBits_spells (w : Bool) : (decBits w ⟨fn, t, d, a, b⟩).Spells (word (0x06 + w.toNat) fn t d a b) := by
  simp only [decBits]
  split
  case h_7 => exact spells_bad
  case h_1 | h_2 | h_3 => exact spells_da hf rfl rfl rfl
  all_goals exact spells_dab hf rfl rfl rfl

theorem iset_spells (w : Bool) : (withCode (icondOf fn) fun c => .ok (.iset w c t d a b)).Spells (word (0x08 + w.toNat) fn t d a b) := by
  refine spells_withCode.2 fun c hc => ?_
  obtain rfl := icondCode_of hc
  exact spells_dab hf rfl rfl rfl

theorem decMov_spells : (decMov ⟨fn, t, d, a, b⟩).Spells (word 0x0A fn t d a b) := by
  simp only [decMov]
  split
  case h_12 => exact spells_bad
  case h_1 => exact spells_da hf rfl rfl rfl
  case h_2 | h_3 | h_4 | h_5 | h_6 => exact spells_da_plain hf rfl rfl rfl
  all_goals exact spells_dab hf rfl rfl rfl

theorem decMovW_spells : (decMovW ⟨fn, t, d, a, b⟩).Spells (word 0x0B fn t d a b) := by
  simp only [decMovW]
  split
  · exact spells_da hf rfl rfl rfl
  · exact spells_dab hf rfl rfl rfl
  · exact spells_bad

theorem decScalar_spells : (decScalar ⟨fn, t, d, a, b⟩).Spells (word 0x0C fn t d a b) := by
  simp only [decScalar]
  split
  case h_12 => exact spells_bad
  case h_9 => exact spells_da_plain hf rfl rfl rfl
  all_goals exact spells_dab_plain hf rfl rfl rfl

theorem sset_spells : (withCode (icondOf fn) fun c => orRes (!t) (.sset c d a b)).Spells (word 0x0D fn t d a b) := by
  refine spells_withCode.2 fun c hc => ?_
  obtain rfl := icondCode_of hc
  exact spells_dab_plain hf rfl rfl rfl

theorem decFloat_spells : (decFloat ⟨fn, t, d, a, b⟩).Spells (word 0x10 fn t d a b) := by
  simp only [decFloat]
  split
  case h_8 => exact spells_bad
  case h_7 => exact spells_da hf rfl rfl rfl
  all_goals exact spells_dab hf rfl rfl rfl

theorem fset_spells : (withCode (fcondOf fn) fun c => .ok (.fset c t d a b)).Spells (word 0x11 fn t d a b) := by
  refine spells_withCode.2 fun c hc => ?_
  obtain rfl := fcondCode_of hc
  exact spells_dab hf rfl rfl rfl

theorem decSpecial_spells : (decSpecial ⟨fn, t, d, a, b⟩).Spells (word 0x12 fn t d a b) := by
  simp only [decSpecial]
  split
  case h_9 => exact spells_bad
  all_goals exact spells_da hf rfl rfl rfl

theorem decHalf_spells : (decHalf ⟨fn, t, d, a, b⟩).Spells (word 0x13 fn t d a b) := by
  simp only [decHalf]
  split
  case h_5 => exact spells_bad
  all_goals exact spells_dab hf rfl rfl rfl

theorem decBf_spells : (decBf ⟨fn, t, d, a, b⟩).Spells (word 0x14 fn t d a b) := by
  simp only [decBf]
  split
  case h_5 => exact spells_bad
  all_goals exact spells_dab hf rfl rfl rfl

theorem decFcvt_spells : (decFcvt ⟨fn, t, d, a, b⟩).Spells (word 0x20 fn t d a b) := by
  simp only [decFcvt]
  split
  · exact spells_slot_plain hf rfl rfl rfl
  · exact spells_slot_plain hf rfl rfl rfl
  · refine spells_withCode.2 fun c hc => ?_
    obtain rfl := fcvtCode_of hc
    exact spells_da hf rfl rfl rfl

/-- F2I and I2F (R170, R171): the code is an integer type. -/
theorem intTy_spells {i : IntTy → Instr} {M : Nat} (hc : ∀ y, (i y).isCode = true) (hw : ∀ y, (i y).wf = (r7 d && r7 a))
    (he : ∀ y, encode (i y) = some (word M (intTyCode y) t d a 0)) :
    (orRes (fn / 8 == 0 && b == 0) (i (intTyOf (fn % 8)))).Spells (word M fn t d a b) := by
  rw [spells_orRes, Bool.and_eq_true, beq_iff_eq]
  rintro ⟨hfn, hb⟩
  have hy : intTyCode (intTyOf (fn % 8)) = fn := by rw [intTyCode_intTyOf _ (by omega)]; omega
  exact spells_orRes.1 (spells_da hf (hc _) (hw _) ((he _).trans (by rw [hy]))) hb

theorem decPlane_spells : (decPlane ⟨fn, t, d, a, b⟩).Spells (word 0x23 fn t d a b) := by
  simp only [decPlane]
  split
  · exact spells_slot_plain hf rfl rfl rfl
  · exact spells_slot_plain hf rfl rfl rfl
  · exact spells_bad

theorem decScale_spells : (decScale ⟨fn, t, d, a, b⟩).Spells (word 0x24 fn t d a b) := by
  simp only [decScale]
  split
  · exact spells_slot hf rfl rfl rfl
  · exact spells_slot hf rfl rfl rfl
  · exact spells_bad

theorem shfl_spells : (withCode (shflOf fn) fun c => .ok (.shfl c t d a b)).Spells (word 0x28 fn t d a b) := by
  refine spells_withCode.2 fun c hc => ?_
  obtain rfl := shflCode_of hc
  exact spells_dab hf rfl rfl rfl

theorem putl_spells : (orCode (decide (fn < 2)) (.ok (.putl (fn == 1) t d a b))).Spells (word 0x29 fn t d a b) := by
  rw [spells_orCode, decide_eq_true_eq]
  intro h
  obtain rfl | rfl : fn = 0 ∨ fn = 1 := by omega
  · exact spells_dab hf rfl rfl rfl
  · exact spells_dab hf rfl rfl rfl

theorem vote_spells : (withCode (voteOf fn) fun c => orRes (!t && b == 0) (.vote c d a)).Spells (word 0x2A fn t d a b) := by
  refine spells_withCode.2 fun c hc => ?_
  obtain rfl := voteCode_of hc
  rw [Bool.and_comm]
  exact spells_da_plain hf rfl rfl rfl

theorem redl_spells : (withCode (redOf fn) fun c => orRes (b == 0) (.redl c t d a)).Spells (word 0x2B fn t d a b) := by
  refine spells_withCode.2 fun c hc => ?_
  obtain rfl := redCode_of hc
  exact spells_da hf rfl rfl rfl

theorem scanl_spells : (withCode (redOf fn) fun c => orRes (b == 0) (.scanl c t d a)).Spells (word 0x2C fn t d a b) := by
  refine spells_withCode.2 fun c hc => ?_
  obtain rfl := redCode_of hc
  exact spells_da hf rfl rfl rfl

theorem lpart_spells :
    (orCode (fn == 0) (orRes (!t && d == 0 && a == 0 && b / 8 == 0) (.lpart (b % 8)))).Spells (word 0x2D fn t d a b) := by
  simp only [spells_orCode, spells_orRes, Bool.and_eq_true, beq_iff_eq, Bool.not_eq_true']
  rintro rfl ⟨⟨⟨rfl, rfl⟩, rfl⟩, hb⟩
  rw [show b % 8 = b by omega]
  exact spells_of (v := is3 b) rfl rfl rfl (by simp [is3]; omega) rfl

theorem decCtl_spells : (decCtl ⟨fn, t, d, a, b⟩).Spells (word 0x33 fn t d a b) := by
  simp only [decCtl]
  split
  case h_6 => exact spells_bad
  case h_1 =>
    simp only [spells_orRes, Bool.and_eq_true, beq_iff_eq, Bool.not_eq_true']
    rintro ⟨⟨rfl, rfl⟩, rfl⟩
    exact spells_of (v := r7 a) rfl rfl rfl (by simp [r7, hf.a]) rfl
  all_goals
    simp only [spells_orRes, Bool.and_eq_true, beq_iff_eq, Bool.not_eq_true']
    rintro ⟨⟨⟨rfl, rfl⟩, rfl⟩, rfl⟩
    exact spells_of rfl rfl rfl rfl rfl

theorem decMask_spells : (decMask ⟨fn, t, d, a, b⟩).Spells (word 0x34 fn t d a b) := by
  simp only [decMask]
  split
  case h_4 => exact spells_bad
  all_goals
    simp only [spells_orRes, Bool.and_eq_true, beq_iff_eq, Bool.not_eq_true']
    rintro ⟨⟨rfl, rfl⟩, rfl⟩
    exact spells_of (v := r7 d) rfl rfl rfl (by simp [r7, hf.d]) rfl

theorem decGlobal_spells (st : Bool) : (decGlobal st ⟨fn, t, d, a, b⟩).Spells (word (0x38 + st.toNat) fn t d a b) := by
  simp only [decGlobal, spells_withCode]
  intro c hc z hz
  have hc := scopeCode_of hc
  have hz := sizeCode_of hz
  have h5 := toNat_bitAt b 5
  split <;> rename_i hbit <;> simp only [hbit, Bool.toNat_true, Bool.toNat_false] at h5
  case h_4 =>
    split
    · rename_i h64
      rw [beq_iff_eq] at h64
      rw [spells_orLook]
      rintro rfl
      exact spells_of (v := r7 d && r7 a) rfl rfl rfl (by simp [r7, hf.d, hf.a]) (congrArg (word _ _ _ _ _) (by omega))
    · exact spells_bad
  all_goals
    rw [spells_orRes, beq_iff_eq]
    intro h64
    exact spells_lda hf rfl rfl rfl (by omega)

theorem decLocal_spells : (decLocal ⟨fn, t, d, a, b⟩).Spells (word 0x3A fn t d a b) := by
  simp only [decLocal, spells_withCode]
  intro z hz
  have hz := sizeCode_of hz
  split
  case h_7 => exact spells_bad
  all_goals
    rw [spells_orRes, beq_iff_eq]
    intro h64
    exact spells_lda hf rfl rfl rfl (by omega)

theorem decAtom_spells : (decAtom ⟨fn, t, d, a, b⟩).Spells (word 0x3B fn t d a b) := by
  simp only [decAtom, spells_withCode]
  intro o ho
  have ho := atomCode_of ho
  have hp := placeCode_placeOf (b / 32) (by have := hf.b; omega)
  have h4 := toNat_bitAt b 4
  have hb : placeCode (placeOf (b / 32)) * 32 + (bitAt b 4).toNat * 16 + atomCode o = b := by omega
  split
  · exact spells_bad
  · rename_i hfadd
    rw [Bool.not_eq_true] at hfadd
    split
    · subst t
      rw [spells_orCode]
      intro hcas
      exact spells_of (v := isLook fn && r7 d && r7 a && !(bitAt b 4 && o == .fadd) && o != .cas) rfl rfl rfl
        (by rw [hfadd, hcas]; simp [isLook, r7, hf.fn, hf.d, hf.a]) (congrArg (word _ _ _ _ _) hb)
    · obtain rfl : t = false := by simp_all
      split
      · exact spells_bad
      · rename_i hlook
        rw [Bool.not_eq_true] at hlook
        exact spells_of (v := isLook fn && r7 d && r7 a && !(bitAt b 4 && o == .fadd) &&
          !((placeOf (b / 32) == .far || placeOf (b / 32) == .cl) && fn != 0)) rfl rfl rfl
          (by rw [hfadd, hlook]; simp [isLook, r7, hf.fn, hf.d, hf.a]) (congrArg (word _ _ _ _ _) hb)

/-- A fence (R214). -/
theorem fence_spells {i : Instr} {m : Nat} (hc : i.isCode = true) (hw : i.wf = true) (he : encode i = some (word 0x3C 0 false 0 0 m))
    (hb : b = m) : (if !t && d == 0 && a == 0 then orLook fn (.ok i) else .bad .resField).Spells (word 0x3C fn t d a b) := by
  split
  · rename_i h
    simp only [Bool.and_eq_true, beq_iff_eq, Bool.not_eq_true'] at h
    obtain ⟨⟨rfl, rfl⟩, rfl⟩ := h
    rw [spells_orLook]
    rintro rfl
    exact spells_of hc hw he rfl (by rw [hb])
  · exact spells_bad

/-- A Barrier word (R135): with a register, or with none. -/
theorem decBar_spells {i : Instr} {resOk v : Bool} {d' m : Nat} (hc : i.isCode = true) (hw : i.wf = v) (hv : barOk t a = true → v = true)
    (he : encode i = some (word 0x3C 0 t d' a m)) (hr : resOk = true → d = d' ∧ b = m) :
    (decBar ⟨fn, t, d, a, b⟩ resOk i).Spells (word 0x3C fn t d a b) := by
  simp only [decBar, spells_orCode]
  intro ha
  split
  · rename_i hres
    obtain ⟨rfl, rfl⟩ := hr hres
    rw [spells_orLook]
    rintro rfl
    exact spells_of hc hw he (hv (by simp [barOk, r7, hf.a, ha])) rfl
  · exact spells_bad

theorem decCache_spells : (decCache ⟨fn, t, d, a, b⟩).Spells (word 0x3C fn t d a b) := by
  simp only [decCache]
  have hm : b = 8 * (b / 8) + b % 8 := (Nat.div_add_mod b 8).symm
  have hd : r7 d = true := by simp [r7, hf.d]
  split <;> rename_i hs
  case h_1 =>
    split <;> rename_i hmod
    case h_5 => exact spells_bad
    all_goals exact fence_spells hf rfl rfl rfl (by omega)
  case h_2 | h_3 =>
    rw [spells_withCode]
    intro v hv
    have hv := levelCode_of hv
    rw [spells_orRes, beq_iff_eq]
    rintro rfl
    exact spells_of (v := isLook fn && r7 a) rfl rfl rfl (by simp [isLook, r7, hf.fn, hf.a]) (congrArg (word _ _ _ _ _) (by omega))
  case h_4 =>
    simp only [spells_orCode, spells_orRes, beq_iff_eq]
    rintro hmod rfl
    exact spells_of (v := isLook fn && r7 a) rfl rfl rfl (by simp [isLook, r7, hf.fn, hf.a]) (congrArg (word _ _ _ _ _) (by omega))
  case h_5 =>
    split
    · exact spells_bad
    · rename_i ht
      obtain rfl : t = false := Bool.eq_false_of_not_eq_true ht
      rw [spells_orLook]
      rintro rfl
      exact spells_of (v := r7 d && r7 a && is3 (b % 8)) rfl rfl rfl (by simp [r7, is3, hf.d, hf.a]; omega)
        (congrArg (word _ _ _ _ _) (by omega))
  case h_6 =>
    simp only [spells_orCode, spells_orRes, Bool.and_eq_true, beq_iff_eq, Bool.not_eq_true', decide_eq_true_eq]
    rintro ha ⟨rfl, hmod⟩
    exact spells_of (v := isLook fn && r7 d && decide (a < 16)) rfl rfl rfl (by simp [isLook, r7, hf.fn, hf.d, ha])
      (congrArg (word _ _ _ _ _) (by omega))
  case h_7 | h_11 | h_13 =>
    exact decBar_spells hf (v := r7 d && barOk t a) rfl rfl (fun h => by rw [hd, h]; rfl) rfl
      (fun h => ⟨rfl, by rw [beq_iff_eq] at h; omega⟩)
  case h_8 | h_9 | h_10 | h_12 =>
    exact decBar_spells hf (v := barOk t a) rfl rfl id rfl
      (fun h => by rw [Bool.and_eq_true, beq_iff_eq, beq_iff_eq] at h; exact ⟨h.2, by omega⟩)
  case h_14 => exact spells_bad

theorem decEngine_spells : (decEngine ⟨fn, t, d, a, b⟩).Spells (word 0x3D fn t d a b) := by
  simp only [decEngine]
  have hm : b = 8 * (b / 8) + b % 8 := (Nat.div_add_mod b 8).symm
  have hmod : b % 8 < 8 := Nat.mod_lt _ (by omega)
  have hd : r7 d = true := by simp [r7, hf.d]
  have ha : r7 a = true := by simp [r7, hf.a]
  have hfn : isLook fn = true := by simp [isLook, hf.fn]
  have h3 (n : Nat) : is3 (n % 8) = true := by simp [is3]; omega
  split <;> rename_i hs
  case h_11 => exact spells_bad
  case h_1 =>
    rw [spells_orCode]
    intro hq
    split
    · rename_i hb
      rw [beq_iff_eq] at hb
      rw [spells_orLook]
      rintro rfl
      obtain rfl : b = 0 := by omega
      have := hf.d
      exact spells_of (v := decide (d / 8 < 16) && is3 (d % 8) && isQueueCode a) rfl rfl rfl (by simp [hq, h3]; omega)
        (by rw [Nat.div_add_mod'])
    · exact spells_bad
  case h_2 | h_3 =>
    simp only [spells_orCode, spells_orRes, Bool.and_eq_true, beq_iff_eq, Bool.not_eq_true']
    rintro hq ⟨⟨hb, rfl⟩, rfl⟩
    exact spells_of (v := r7 d && isQueueCode a) rfl rfl rfl (by simp [hd, hq]) (congrArg (word _ _ _ _ _) (by omega))
  case h_4 =>
    simp only [spells_orRes, Bool.and_eq_true, beq_iff_eq]
    rintro ⟨rfl, rfl⟩
    exact spells_of (v := r7 a && is3 (b % 8)) rfl rfl rfl (by simp [ha, h3]) (congrArg (word _ _ _ _ _) (by omega))
  case h_5 =>
    split
    · rename_i hd
      rw [spells_orRes, beq_iff_eq]
      rintro rfl
      obtain rfl := beq_iff_eq.1 hd
      exact spells_of (v := r7 a && is3 (b % 8)) rfl rfl rfl (by simp [ha, h3]) (congrArg (word _ _ _ _ _) (by omega))
    · simp only [spells_orRes, Bool.and_eq_true, beq_iff_eq]
      rintro ⟨rfl, rfl⟩
      exact spells_of (v := r7 a && is3 (b % 8)) rfl rfl rfl (by simp [ha, h3]) (congrArg (word _ _ _ _ _) (by omega))
  case h_6 =>
    split
    · rename_i h
      simp only [Bool.and_eq_true, beq_iff_eq, Bool.not_eq_true'] at h
      obtain ⟨hb, rfl⟩ := h
      rw [spells_orLook]
      rintro rfl
      exact spells_of (v := r7 d && r7 a) rfl rfl rfl (by simp [hd, ha]) (congrArg (word _ _ _ _ _) (by omega))
    · exact spells_bad
  case h_7 =>
    simp only [spells_orRes, Bool.and_eq_true, beq_iff_eq, Bool.not_eq_true']
    rintro ⟨⟨rfl, hhi⟩, hbit⟩
    have h3bit := toNat_bitAt d 3
    rw [hbit, Bool.toNat_false] at h3bit
    have hq := actCode_actOf (d / 16 % 4) (by omega)
    have hdd : actCode (actOf (d / 16 % 4)) * 16 + d % 8 = d := by omega
    have hbb : 48 + b % 8 = b := by omega
    exact spells_of (v := isLook fn && is3 (d % 8) && r7 a && is3 (b % 8)) rfl rfl rfl (by simp [hfn, h3, ha]) (by rw [hdd, hbb])
  case h_8 =>
    simp only [spells_orRes, Bool.and_eq_true, beq_iff_eq, Bool.not_eq_true']
    rintro ⟨⟨⟨hb, rfl⟩, hdd⟩, rfl⟩
    have hdd : d % 8 = d := by omega
    have hbb : 56 = b := by omega
    exact spells_of (v := isLook fn && is3 (d % 8)) rfl rfl rfl (by simp [hfn, h3]) (by rw [hdd, hbb])
  case h_9 | h_10 =>
    simp only [spells_orRes, Bool.and_eq_true, beq_iff_eq, Bool.not_eq_true']
    rintro ⟨⟨hb, rfl⟩, haa⟩
    have haa : a % 8 = a := by omega
    exact spells_of (v := isLook fn && r7 d && is3 (a % 8)) rfl rfl rfl (by simp [hfn, hd, h3])
      (by rw [haa]; exact congrArg (word _ _ _ _ _) (by omega))

theorem decSystem_spells : (decSystem ⟨fn, t, d, a, b⟩).Spells (word 0x3E fn t d a b) := by
  simp only [decSystem]
  have hm : b = 8 * (b / 8) + b % 8 := (Nat.div_add_mod b 8).symm
  have hd : r7 d = true := by simp [r7, hf.d]
  have ha : r7 a = true := by simp [r7, hf.a]
  split <;> rename_i hs
  case h_9 => exact spells_bad
  case h_1 =>
    simp only [spells_orRes, Bool.and_eq_true, beq_iff_eq]
    rintro ⟨⟨rfl, hb⟩, rfl⟩
    exact spells_of (v := r7 a) rfl rfl rfl ha (congrArg (word _ _ _ _ _) (by omega))
  case h_3 =>
    simp only [spells_orCode, spells_orRes, Bool.and_eq_true, beq_iff_eq, decide_eq_true_eq]
    rintro h20 ⟨rfl, hb⟩
    exact spells_of (v := r7 d && decide (a ≤ 20)) rfl rfl rfl (by simp [hd, h20]) (congrArg (word _ _ _ _ _) (by omega))
  case h_4 =>
    simp only [spells_orCode, spells_orRes, Bool.and_eq_true, beq_iff_eq, Bool.not_eq_true', decide_eq_true_eq]
    rintro h20 ⟨⟨rfl, hb⟩, rfl⟩
    exact spells_of (v := r7 d && decide (a ≤ 20)) rfl rfl rfl (by simp [hd, h20]) (congrArg (word _ _ _ _ _) (by omega))
  case h_5 | h_6 =>
    simp only [spells_orRes, Bool.and_eq_true, beq_iff_eq, Bool.not_eq_true']
    rintro ⟨⟨⟨rfl, hb⟩, rfl⟩, rfl⟩
    exact spells_of (v := r7 d) rfl rfl rfl hd (congrArg (word _ _ _ _ _) (by omega))
  all_goals
    simp only [spells_orRes, Bool.and_eq_true, beq_iff_eq, Bool.not_eq_true']
    rintro ⟨⟨⟨⟨rfl, hb⟩, rfl⟩, rfl⟩, rfl⟩
    exact spells_of rfl rfl rfl rfl (congrArg (word _ _ _ _ _) (by omega))

end

/-! ## The B and H formats (R118) -/

theorem wordB_fields {w : Nat} (hw : w < 2 ^ 32) : wordB (field w 31 26) (field w 25 22) (bitAt w 21) (field w 20 0) = w := by
  simp only [wordB, field, toNat_bitAt]
  omega

theorem wordH_fields {w : Nat} (hw : w < 2 ^ 32) (hM : field w 31 26 = 0x3F) : wordH (field w 25 23) (field w 22 0) = w := by
  simp only [wordH, field] at *
  omega

theorem field_lt {w hi lo n : Nat} (h : hi + 1 - lo = n) : field w hi lo < 2 ^ n := h ▸ Nat.mod_lt _ (Nat.two_pow_pos _)

theorem decHint_spells {w : Nat} (hw : w < 2 ^ 32) (hM : field w 31 26 = 0x3F) : (decHint w).Spells w := by
  have hword := wordH_fields hw hM
  have hhi : decide (field w 15 0 < 2 ^ 16) = true := decide_eq_true (field_lt rfl)
  simp only [decHint]
  split <;> rename_i hk
  case h_6 => exact spells_bad
  all_goals rw [hk] at hword
  case h_1 =>
    rw [spells_orRes, beq_iff_eq]
    intro hr
    refine spells_of (v := r7 (field w 15 9) && is3 (field w 7 5) && decide (field w 3 0 < 16)) rfl rfl rfl ?_
      (Eq.trans (congrArg (wordH 0) ?_) hword)
    · simp only [r7, is3, Bool.and_eq_true, decide_eq_true_eq]
      exact ⟨⟨field_lt (n := 7) rfl, field_lt (n := 3) rfl⟩, field_lt (n := 4) rfl⟩
    · simp only [toNat_bitAt, field] at hr ⊢
      omega
  case h_2 =>
    rw [spells_orRes, beq_iff_eq]
    intro hr
    refine spells_of rfl rfl rfl hhi (Eq.trans (congrArg (wordH 1) ?_) hword)
    simp only [toNat_bitAt, field] at hr ⊢
    omega
  case h_3 =>
    rw [spells_orRes, beq_iff_eq]
    intro hr
    refine spells_of rfl rfl rfl hhi (Eq.trans (congrArg (wordH 2) ?_) hword)
    simp only [field] at hr ⊢
    omega
  case h_4 =>
    split
    · rename_i hr
      split
      · rename_i hc
        refine spells_of (v := decide (field w 3 0 < 4)) rfl rfl rfl (decide_eq_true hc) (Eq.trans (congrArg (wordH 3) ?_) hword)
        simp only [beq_iff_eq, field] at hr ⊢
        omega
      · exact spells_bad
    · exact spells_bad
  case h_5 =>
    rw [spells_orRes, beq_iff_eq]
    intro hr
    exact spells_of rfl rfl rfl rfl (by rw [← hword, hr])

theorem bra_spells {w : Nat} (hw : w < 2 ^ 32) {i : Instr} {M : Nat} (hM : field w 31 26 = M) (hc : i.isCode = true)
    (hi : i.wf = decide (field w 20 0 < 2 ^ 21)) (he : encode i = some (wordB M 0 false (field w 20 0))) :
    (orRes ((fieldsOf w).fn == 0 && !(fieldsOf w).t) i).Spells w := by
  simp only [spells_orRes, Bool.and_eq_true, beq_iff_eq, Bool.not_eq_true']
  rintro ⟨hfn, ht⟩
  have hword := wordB_fields hw
  rw [hM, show field w 25 22 = 0 from hfn, show bitAt w 21 = false from ht] at hword
  exact spells_of hc hi he (by simp [field]; omega) hword

theorem brc_spells {w : Nat} (hw : w < 2 ^ 32) (hM : field w 31 26 = 0x31) :
    (Decoded.ok (.brc (fieldsOf w).fn (fieldsOf w).t (field w 20 0))).Spells w := by
  have hword := wordB_fields hw
  rw [hM] at hword
  exact spells_of (v := decide ((fieldsOf w).fn < 16) && decide (field w 20 0 < 2 ^ 21)) rfl rfl rfl
    (by simp [(fieldsOf_fits w).fn, field]; omega) hword

/-- R117 to R138: the answer of the decoder is spelled by the word: what a word decodes to has that word. -/
theorem decode_spells {w : Nat} (hw : w < 2 ^ 32) : (decode w).Spells w := by
  have hf := fieldsOf_fits w
  have hword : word (field w 31 26) (fieldsOf w).fn (fieldsOf w).t (fieldsOf w).d (fieldsOf w).a (fieldsOf w).b = w :=
    word_fieldsOf.trans (Nat.mod_eq_of_lt hw)
  have key {dec : Decoded} {M : Nat} (hM : field w 31 26 = M)
      (h : dec.Spells (word M (fieldsOf w).fn (fieldsOf w).t (fieldsOf w).d (fieldsOf w).a (fieldsOf w).b)) : dec.Spells w := by
    subst hM
    rwa [hword] at h
  unfold decode
  simp only
  split <;> rename_i hM
  case h_1 => exact key hM (decAdd_spells hf false)
  case h_2 => exact key hM (decAdd_spells hf true)
  case h_3 => exact key hM (decMul_spells hf false)
  case h_4 => exact key hM (decMul_spells hf true)
  case h_5 => exact key hM (decLogic_spells hf false)
  case h_6 => exact key hM (decLogic_spells hf true)
  case h_7 => exact key hM (decBits_spells hf false)
  case h_8 => exact key hM (decBits_spells hf true)
  case h_9 => exact key hM (iset_spells hf false)
  case h_10 => exact key hM (iset_spells hf true)
  case h_11 => exact key hM (decMov_spells hf)
  case h_12 => exact key hM (decMovW_spells hf)
  case h_13 => exact key hM (decScalar_spells hf)
  case h_14 => exact key hM (sset_spells hf)
  case h_15 => exact key hM (decFloat_spells hf)
  case h_16 => exact key hM (fset_spells hf)
  case h_17 => exact key hM (decSpecial_spells hf)
  case h_18 => exact key hM (decHalf_spells hf)
  case h_19 => exact key hM (decBf_spells hf)
  case h_20 => exact key hM (decFcvt_spells hf)
  case h_21 => exact key hM (intTy_spells hf (i := fun y => .f2i y _ _ _) (fun _ => rfl) (fun _ => rfl) (fun _ => rfl))
  case h_22 => exact key hM (intTy_spells hf (i := fun y => .i2f y _ _ _) (fun _ => rfl) (fun _ => rfl) (fun _ => rfl))
  case h_23 => exact key hM (decPlane_spells hf)
  case h_24 => exact key hM (decScale_spells hf)
  case h_25 => exact key hM (shfl_spells hf)
  case h_26 => exact key hM (putl_spells hf)
  case h_27 => exact key hM (vote_spells hf)
  case h_28 => exact key hM (redl_spells hf)
  case h_29 => exact key hM (scanl_spells hf)
  case h_30 => exact key hM (lpart_spells hf)
  case h_31 => exact bra_spells hw hM rfl rfl rfl
  case h_32 => exact brc_spells hw hM
  case h_33 => exact bra_spells hw hM rfl rfl rfl
  case h_34 => exact key hM (decCtl_spells hf)
  case h_35 => exact key hM (decMask_spells hf)
  case h_36 => exact key hM (decGlobal_spells hf false)
  case h_37 => exact key hM (decGlobal_spells hf true)
  case h_38 => exact key hM (decLocal_spells hf)
  case h_39 => exact key hM (decAtom_spells hf)
  case h_40 => exact key hM (decCache_spells hf)
  case h_41 => exact key hM (decEngine_spells hf)
  case h_42 => exact key hM (decSystem_spells hf)
  case h_43 => exact decHint_spells hw hM
  case h_44 => exact spells_bad

end Sys2Proof
end

section
/-! The encoding (R117 to R138), from instructions to words: the word of every well-formed instruction decodes to it. -/
set_option Elab.async false

namespace Sys2Proof
open Machine
/-! ## Decoding the word of an instruction -/

/-- An instruction has a word, and the word decodes to it. -/
def Spelled (i : Instr) : Prop := ∃ w, encode i = some w ∧ w < 2 ^ 32 ∧ decode w = .ok i

/-- The words of the major M are decoded by dec from the fields below it (R118). -/
structure Major (M : Nat) (dec : Fields → Decoded) : Prop where
  lt : M < 64
  decodes : ∀ x, field x 31 26 = M → decode x = dec (fieldsOf x)

theorem major_add (w : Bool) : Major (0x00 + w.toNat) (decAdd w) := by
  cases w <;> exact ⟨by decide, fun x h => by unfold decode; rw [h]; rfl⟩

theorem major_mul (w : Bool) : Major (0x02 + w.toNat) (decMul w) := by
  cases w <;> exact ⟨by decide, fun x h => by unfold decode; rw [h]; rfl⟩

theorem major_logic (w : Bool) : Major (0x04 + w.toNat) (decLogic w) := by
  cases w <;> exact ⟨by decide, fun x h => by unfold decode; rw [h]; rfl⟩

theorem major_bits (w : Bool) : Major (0x06 + w.toNat) (decBits w) := by
  cases w <;> exact ⟨by decide, fun x h => by unfold decode; rw [h]; rfl⟩

theorem major_iset (w : Bool) : Major (0x08 + w.toNat) (fun f => withCode (icondOf f.fn) fun c => .ok (.iset w c f.t f.d f.a f.b)) := by
  cases w <;> exact ⟨by decide, fun x h => by unfold decode; rw [h]; rfl⟩

theorem major_mov : Major 0x0A decMov := ⟨by decide, fun x h => by unfold decode; rw [h]; rfl⟩

theorem major_movW : Major 0x0B decMovW := ⟨by decide, fun x h => by unfold decode; rw [h]; rfl⟩

theorem major_scalar : Major 0x0C decScalar := ⟨by decide, fun x h => by unfold decode; rw [h]; rfl⟩

theorem major_sset : Major 0x0D (fun f => withCode (icondOf f.fn) fun c => orRes (!f.t) (.sset c f.d f.a f.b)) := ⟨by decide, fun x h => by unfold decode; rw [h]; rfl⟩

theorem major_float : Major 0x10 decFloat := ⟨by decide, fun x h => by unfold decode; rw [h]; rfl⟩

theorem major_fset : Major 0x11 (fun f => withCode (fcondOf f.fn) fun c => .ok (.fset c f.t f.d f.a f.b)) := ⟨by decide, fun x h => by unfold decode; rw [h]; rfl⟩

theorem major_special : Major 0x12 decSpecial := ⟨by decide, fun x h => by unfold decode; rw [h]; rfl⟩

theorem major_half : Major 0x13 decHalf := ⟨by decide, fun x h => by unfold decode; rw [h]; rfl⟩

theorem major_bf : Major 0x14 decBf := ⟨by decide, fun x h => by unfold decode; rw [h]; rfl⟩

theorem major_fcvt : Major 0x20 decFcvt := ⟨by decide, fun x h => by unfold decode; rw [h]; rfl⟩

theorem major_f2i : Major 0x21 (fun f => orRes (f.fn / 8 == 0 && f.b == 0) (.f2i (intTyOf (f.fn % 8)) f.t f.d f.a)) := ⟨by decide, fun x h => by unfold decode; rw [h]; rfl⟩

theorem major_i2f : Major 0x22 (fun f => orRes (f.fn / 8 == 0 && f.b == 0) (.i2f (intTyOf (f.fn % 8)) f.t f.d f.a)) := ⟨by decide, fun x h => by unfold decode; rw [h]; rfl⟩

theorem major_plane : Major 0x23 decPlane := ⟨by decide, fun x h => by unfold decode; rw [h]; rfl⟩

theorem major_scale : Major 0x24 decScale := ⟨by decide, fun x h => by unfold decode; rw [h]; rfl⟩

theorem major_shfl : Major 0x28 (fun f => withCode (shflOf f.fn) fun c => .ok (.shfl c f.t f.d f.a f.b)) := ⟨by decide, fun x h => by unfold decode; rw [h]; rfl⟩

theorem major_putl : Major 0x29 (fun f => orCode (decide (f.fn < 2)) (.ok (.putl (f.fn == 1) f.t f.d f.a f.b))) := ⟨by decide, fun x h => by unfold decode; rw [h]; rfl⟩

theorem major_vote : Major 0x2A (fun f => withCode (voteOf f.fn) fun c => orRes (!f.t && f.b == 0) (.vote c f.d f.a)) := ⟨by decide, fun x h => by unfold decode; rw [h]; rfl⟩

theorem major_redl : Major 0x2B (fun f => withCode (redOf f.fn) fun c => orRes (f.b == 0) (.redl c f.t f.d f.a)) := ⟨by decide, fun x h => by unfold decode; rw [h]; rfl⟩

theorem major_scanl : Major 0x2C (fun f => withCode (redOf f.fn) fun c => orRes (f.b == 0) (.scanl c f.t f.d f.a)) := ⟨by decide, fun x h => by unfold decode; rw [h]; rfl⟩

theorem major_lpart : Major 0x2D (fun f => orCode (f.fn == 0) (orRes (!f.t && f.d == 0 && f.a == 0 && f.b / 8 == 0) (.lpart (f.b % 8)))) := ⟨by decide, fun x h => by unfold decode; rw [h]; rfl⟩

theorem major_ctl : Major 0x33 decCtl := ⟨by decide, fun x h => by unfold decode; rw [h]; rfl⟩

theorem major_mask : Major 0x34 decMask := ⟨by decide, fun x h => by unfold decode; rw [h]; rfl⟩

theorem major_global (st : Bool) : Major (0x38 + st.toNat) (decGlobal st) := by
  cases st <;> exact ⟨by decide, fun x h => by unfold decode; rw [h]; rfl⟩

theorem major_local : Major 0x3A decLocal := ⟨by decide, fun x h => by unfold decode; rw [h]; rfl⟩

theorem major_atom : Major 0x3B decAtom := ⟨by decide, fun x h => by unfold decode; rw [h]; rfl⟩

theorem major_cache : Major 0x3C decCache := ⟨by decide, fun x h => by unfold decode; rw [h]; rfl⟩

theorem major_engine : Major 0x3D decEngine := ⟨by decide, fun x h => by unfold decode; rw [h]; rfl⟩

theorem major_system : Major 0x3E decSystem := ⟨by decide, fun x h => by unfold decode; rw [h]; rfl⟩

section
variable {i : Instr} {M fn d a b : Nat} {t : Bool} {dec : Fields → Decoded} (hm : Major M dec)
include hm

theorem spelled_word (hf : Fits fn d a b) (he : encode i = some (word M fn t d a b)) (hd : dec ⟨fn, t, d, a, b⟩ = .ok i) : Spelled i :=
  ⟨_, he, word_lt t hm.lt hf, (hm.decodes _ (field_word hm.lt hf)).trans (by rw [fieldsOf_word hf, hd])⟩

theorem spelled_dab (hfn : fn < 16) (hw : (r7 d && r7 a && r7 b) = true) (he : encode i = some (word M fn t d a b))
    (hd : dec ⟨fn, t, d, a, b⟩ = .ok i) : Spelled i := by
  simp only [r7, Bool.and_eq_true, decide_eq_true_eq] at hw
  exact spelled_word hm ⟨hfn, hw.1.1, hw.1.2, hw.2⟩ he hd

theorem spelled_da (hfn : fn < 16) (hw : (r7 d && r7 a) = true) (he : encode i = some (word M fn t d a 0))
    (hd : dec ⟨fn, t, d, a, 0⟩ = .ok i) : Spelled i :=
  spelled_dab hm hfn (by rw [hw]; rfl) he hd

theorem spelled_slot {i : Nat → Instr} {c : Nat → Bool} (hfn : fn < 16) (hw : (r7 d && r7 a && is3 b) = true)
    (he : encode (i b) = some (word M fn t d a b)) (hc : c 0 = true)
    (hd : dec ⟨fn, t, d, a, b⟩ = orRes (c (b / 8)) (i (b % 8))) : Spelled (i b) := by
  simp only [r7, is3, Bool.and_eq_true, decide_eq_true_eq] at hw
  obtain ⟨⟨hdd, ha⟩, hb⟩ := hw
  rw [Nat.div_eq_of_lt hb, Nat.mod_eq_of_lt hb, hc] at hd
  exact spelled_word hm ⟨hfn, hdd, ha, by omega⟩ he hd

theorem spelled_lda (hb : b < 128) (hw : (isLook fn && r7 d && r7 a) = true) (he : encode i = some (word M fn t d a b))
    (hd : dec ⟨fn, t, d, a, b⟩ = .ok i) : Spelled i := by
  simp only [isLook, r7, Bool.and_eq_true, decide_eq_true_eq] at hw
  exact spelled_word hm ⟨hw.1.1, hw.1.2, hw.2, hb⟩ he hd

end

/-! ## Codes in the b field (R133 to R137) -/

theorem global_codes (q : Bool) (c : Scope) (z : Size) : let b := q.toNat * 32 + scopeCode c * 8 + sizeCode z
    b < 128 ∧ scopeOf (b / 8 % 4) = some c ∧ sizeOf7 (b % 8) = some z ∧ bitAt b 5 = q ∧ b / 64 = 0 := by
  cases q <;> cases c <;> cases z <;> decide

theorem size_codes {n : Nat} (hn : n < 8) (z : Size) : let b := n * 8 + sizeCode z
    b < 128 ∧ sizeOf7 (b % 8) = some z ∧ b / 8 % 8 = n ∧ b / 64 = 0 := by
  have hz : sizeCode z < 8 := by cases z <;> decide
  have hof : sizeOf7 (sizeCode z) = some z := by cases z <;> rfl
  refine ⟨by omega, ?_, by omega, by omega⟩
  rw [show (n * 8 + sizeCode z) % 8 = sizeCode z by omega, hof]

theorem atom_codes (p : Place) (w : Bool) (o : AtomOp) : let b := placeCode p * 32 + w.toNat * 16 + atomCode o
    b < 128 ∧ atomOf (b % 16) = some o ∧ placeOf (b / 32) = p ∧ bitAt b 4 = w := by
  have hp : placeCode p < 4 := by cases p <;> decide
  have ho : atomCode o < 16 := by cases o <;> decide
  have hpof : placeOf (placeCode p) = p := by cases p <;> rfl
  have hoof : atomOf (atomCode o) = some o := by cases o <;> rfl
  have hw := w.toNat_lt
  refine ⟨by omega, ?_, ?_, bitAt_eq_of_toNat (by omega)⟩
  · rw [show (placeCode p * 32 + w.toNat * 16 + atomCode o) % 16 = atomCode o by omega, hoof]
  · rw [show (placeCode p * 32 + w.toNat * 16 + atomCode o) / 32 = placeCode p by omega, hpof]

theorem act_codes (q : Act) {n : Nat} (hn : n < 8) : let d := actCode q * 16 + n
    d < 64 ∧ actOf (d / 16 % 4) = q ∧ d % 8 = n ∧ d / 64 = 0 ∧ bitAt d 3 = false := by
  have hq : actCode q < 4 := by cases q <;> decide
  have hof : actOf (actCode q) = q := by cases q <;> rfl
  refine ⟨by omega, ?_, by omega, by omega, bitAt_eq_of_toNat (by simp only [Bool.toNat_false]; omega)⟩
  rw [show (actCode q * 16 + n) / 16 % 4 = actCode q by omega, hof]

theorem level_codes (v : Level) : levelOf (levelCode v) = some v ∧ levelCode v < 8 := by cases v <;> decide

theorem intTy_codes (y : IntTy) : intTyCode y / 8 = 0 ∧ intTyOf (intTyCode y % 8) = y ∧ intTyCode y < 16 := by cases y <;> decide

/-- A word names its sub-operation in b[6:3] and the mod in b[2:0] (R135). -/
theorem sub_codes {n m : Nat} (hm : m < 8) : (8 * n + m) / 8 = n ∧ (8 * n + m) % 8 = m := ⟨by omega, by omega⟩

/-! ## Words of memory, engines and the system -/

section
variable {i : Instr} {l d a : Nat} {x : Bool}

/-- A word of global memory (R133), with its acquire or release bit q. -/
theorem spelled_global (q st : Bool) {c : Scope} {z : Size} (hw : (isLook l && r7 d && r7 a) = true)
    (he : encode i = some (word (0x38 + st.toNat) l x d a (q.toNat * 32 + scopeCode c * 8 + sizeCode z)))
    (hd : ∀ b, scopeOf (b / 8 % 4) = some c → sizeOf7 (b % 8) = some z → bitAt b 5 = q → b / 64 = 0 →
      decGlobal st ⟨l, x, d, a, b⟩ = .ok i) : Spelled i := by
  obtain ⟨hb, hc, hz, hbit, hres⟩ := global_codes q c z
  exact spelled_lda (major_global st) hb hw he (hd _ hc hz hbit hres)

/-- A word of local memory (R202). -/
theorem spelled_local (n : Nat) (hn : n < 8) {z : Size} (hw : (isLook l && r7 d && r7 a) = true)
    (he : encode i = some (word 0x3A l x d a (n * 8 + sizeCode z)))
    (hd : ∀ b, sizeOf7 (b % 8) = some z → b / 8 % 8 = n → b / 64 = 0 → decLocal ⟨l, x, d, a, b⟩ = .ok i) : Spelled i := by
  obtain ⟨hb, hz, hs, hres⟩ := size_codes hn z
  exact spelled_lda major_local hb hw he (hd _ hz hs hres)

/-- An atomic (R134): its codes answer to the operation, the place and the width. -/
theorem spelled_atom {p : Place} {w : Bool} {o : AtomOp} (hw : (isLook l && r7 d && r7 a) = true)
    (he : encode i = some (word 0x3B l x d a (placeCode p * 32 + w.toNat * 16 + atomCode o)))
    (hd : ∀ b, atomOf (b % 16) = some o → placeOf (b / 32) = p → bitAt b 4 = w → decAtom ⟨l, x, d, a, b⟩ = .ok i) : Spelled i := by
  obtain ⟨hb, ho, hp, hbit⟩ := atom_codes p w o
  exact spelled_lda major_atom hb hw he (hd _ ho hp hbit)

/-- PREF, EVICT and CKIN (R211 to R213): the sub-operation n and the mod m. -/
theorem spelled_level (n m : Nat) (hn : n < 8) (hm : m < 8) (hw : (isLook l && r7 a) = true)
    (he : encode i = some (word 0x3C l x 0 a (8 * n + m)))
    (hd : ∀ b, b / 8 = n → b % 8 = m → decCache ⟨l, x, 0, a, b⟩ = .ok i) : Spelled i := by
  simp only [isLook, r7, Bool.and_eq_true, decide_eq_true_eq] at hw
  exact spelled_word major_cache ⟨hw.1, by decide, hw.2, by omega⟩ he (hd _ (sub_codes hm).1 (sub_codes hm).2)

/-- A Barrier word (R135): an immediate is at most 47. -/
theorem spelled_bar (b : Nat) (hb : b < 128) (hdd : d < 128) (hw : barOk x a = true) (he : encode i = some (word 0x3C 0 x d a b))
    (hd : decCache ⟨0, x, d, a, b⟩ = orCode (!x || decide (a ≤ 47)) (.ok i)) : Spelled i := by
  obtain ⟨ha, hbar⟩ := Bool.and_eq_true_iff.1 hw
  exact spelled_word major_cache ⟨by decide, hdd, of_decide_eq_true ha, hb⟩ he (by rw [hd, hbar]; rfl)

theorem lt_of_isQueueCode (h : isQueueCode a = true) : a < 128 := by
  simp only [isQueueCode, decide_eq_true_eq] at h
  omega

/-- A word that names a queue (R136). -/
theorem spelled_queue (b : Nat) (hb : b < 128) (hdd : d < 128) (hw : isQueueCode a = true) (he : encode i = some (word 0x3D 0 x d a b))
    (hd : decEngine ⟨0, x, d, a, b⟩ = orCode (isQueueCode a) (.ok i)) : Spelled i := by
  exact spelled_word major_engine ⟨by decide, hdd, lt_of_isQueueCode hw, hb⟩ he (by rw [hd, hw]; rfl)

/-- A word of major 0x3D with the sub-operation n and the mod m (R136). -/
theorem spelled_engine (n m : Nat) (hn : n < 10) (hm : m < 8) (hl : l < 16) (hdd : d < 128) (ha : a < 128)
    (he : encode i = some (word 0x3D l x d a (8 * n + m)))
    (hd : ∀ b, b / 8 = n → b % 8 = m → decEngine ⟨l, x, d, a, b⟩ = .ok i) : Spelled i := by
  exact spelled_word major_engine ⟨hl, hdd, ha, by omega⟩ he (hd _ (sub_codes hm).1 (sub_codes hm).2)

/-- A word that names a special register (R137). -/
theorem spelled_special (b : Nat) (hb : b < 128) (hw : (r7 d && decide (a ≤ 20)) = true) (he : encode i = some (word 0x3E 0 x d a b))
    (hd : decSystem ⟨0, x, d, a, b⟩ = orCode (decide (a ≤ 20)) (.ok i)) : Spelled i := by
  obtain ⟨hdd, ha⟩ := Bool.and_eq_true_iff.1 hw
  have h20 : a ≤ 20 := of_decide_eq_true ha
  exact spelled_word major_system ⟨by decide, of_decide_eq_true hdd, by omega, hb⟩ he (by rw [hd, ha]; rfl)

end

/-! ## Words of the B and H formats -/

section
variable {i : Instr} {M m off : Nat} {neg : Bool}

theorem spelled_branch (hM : M < 64) (hm : m < 16) (hoff : off < 2 ^ 21) (he : encode i = some (wordB M m neg off))
    (hd : ∀ x, field x 31 26 = M → (fieldsOf x).fn = m → (fieldsOf x).t = neg → field x 20 0 = off → decode x = .ok i) : Spelled i := by
  have hneg := neg.toNat_lt
  refine ⟨_, he, by simp only [wordB]; omega, hd _ ?_ ?_ (bitAt_eq_of_toNat ?_) ?_⟩ <;> simp only [fieldsOf, field, wordB] <;> omega

theorem decode_hint {x : Nat} (h : field x 31 26 = 0x3F) : decode x = decHint x := by
  unfold decode
  rw [h]
  rfl

theorem spelled_hint {k p : Nat} (hk : k < 8) (hp : p < 2 ^ 23) (he : encode i = some (wordH k p))
    (hd : ∀ x, field x 25 23 = k → x % 2 ^ 23 = p → decHint x = .ok i) : Spelled i := by
  refine ⟨_, he, by simp only [wordH]; omega, (decode_hint ?_).trans (hd _ ?_ ?_)⟩ <;> simp only [field, wordH] <;> omega

theorem spelled_xpfx {f4s f4en sat zero : Bool} {f4 rm m : Nat} (hf : f4 < 128) (hr : rm < 8) (hm : m < 16) :
    Spelled (.xpfx f4s f4en f4 sat rm zero m) := by
  have h1 := f4s.toNat_lt
  have h2 := f4en.toNat_lt
  have h3 := sat.toNat_lt
  have h4 := zero.toNat_lt
  refine spelled_hint (by decide) (by omega) rfl (fun x hk hp => ?_)
  have e1 : bitAt x 17 = f4s := bitAt_eq_of_toNat (by omega)
  have e2 : bitAt x 16 = f4en := bitAt_eq_of_toNat (by omega)
  have e3 : bitAt x 8 = sat := bitAt_eq_of_toNat (by omega)
  have e4 : bitAt x 4 = zero := bitAt_eq_of_toNat (by omega)
  have e5 : field x 22 18 = 0 ∧ field x 15 9 = f4 ∧ field x 7 5 = rm ∧ field x 3 0 = m := by simp only [field]; omega
  obtain ⟨hres, e5, e6, e7⟩ := e5
  simp only [decHint, hk, hres, e1, e2, e3, e4, e5, e6, e7]
  rfl

theorem spelled_limm {hi : Bool} {v : Nat} (hv : v < 2 ^ 16) : Spelled (.limm hi v) := by
  have h1 := hi.toNat_lt
  refine spelled_hint (by decide) (by omega) rfl (fun x hk hp => ?_)
  have e1 : bitAt x 16 = hi := bitAt_eq_of_toNat (by omega)
  have e2 : field x 22 17 = 0 ∧ field x 15 0 = v := by simp only [field]; omega
  simp only [decHint, hk, e1, e2]
  rfl

theorem spelled_prio {v : Nat} (hv : v < 2 ^ 16) : Spelled (.prio v) := by
  refine spelled_hint (by decide) (by omega) rfl (fun x hk hp => ?_)
  have e : field x 22 16 = 0 ∧ field x 15 0 = v := by simp only [field]; omega
  simp only [decHint, hk, e]
  rfl

theorem spelled_shint {c : Nat} (hc : c < 4) : Spelled (.shint c) := by
  refine spelled_hint (by decide) (by omega) rfl (fun x hk hp => ?_)
  have e : field x 22 4 = 0 ∧ field x 3 0 = c := by simp only [field]; omega
  simp [decHint, hk, e, hc]

theorem spelled_chk : Spelled .chk := by
  refine spelled_hint (by decide) (by decide) rfl (fun x hk hp => ?_)
  have e : field x 22 0 = 0 := by simp only [field]; omega
  simp only [decHint, hk, e]
  rfl

end

/-- R117 to R137: a well-formed code word has a word, which decodes to it; by the form of its fields. -/
theorem spelled (i : Instr) (hc : i.isCode = true) (hw : i.wf = true) : Spelled i := by
  cases i
  case iadd | iaddc | isub | iminS | iminN | imaxS | imaxN => exact spelled_dab (major_add _) (by decide) hw rfl rfl
  case ineg | iabs => exact spelled_da (major_add _) (by decide) hw rfl rfl
  case imul | imulhS | imulhN | imad | idivS | idivN | iremS | iremN => exact spelled_dab (major_mul _) (by decide) hw rfl rfl
  case iand | ior | ixor | shl | shr | sra | rotl => exact spelled_dab (major_logic _) (by decide) hw rfl rfl
  case inot => exact spelled_da (major_logic _) (by decide) hw rfl rfl
  case clz | popc | brev => exact spelled_da (major_bits _) (by decide) hw rfl rfl
  case bfxS | bfxN | bfi => exact spelled_dab (major_bits _) (by decide) hw rfl rfl
  case iset w c _ _ _ _ => cases c <;> exact spelled_dab (major_iset w) (by decide) hw rfl rfl
  case mov w _ _ _ =>
    cases w
    · exact spelled_da major_mov (by decide) hw rfl rfl
    · exact spelled_da major_movW (by decide) hw rfl rfl
  case sel w _ _ _ _ =>
    cases w
    · exact spelled_dab major_mov (by decide) hw rfl rfl
    · exact spelled_dab major_movW (by decide) hw rfl rfl
  case movsSV | movsSK | movsKS | movsSM | movsMS => exact spelled_da major_mov (by decide) hw rfl rfl
  case lea c _ _ _ _ => cases c <;> exact spelled_dab major_mov (by decide) hw rfl rfl
  case sadd | ssub | smul | sand | sor | sxor | sshl | sshr | slea | srdl => exact spelled_dab major_scalar (by decide) hw rfl rfl
  case smov => exact spelled_da major_scalar (by decide) hw rfl rfl
  case sset c _ _ _ => cases c <;> exact spelled_dab major_sset (by decide) hw rfl rfl
  case fadd | fsub | fmul | ffma | fmin | fmax => exact spelled_dab major_float (by decide) hw rfl rfl
  case fclass => exact spelled_da major_float (by decide) hw rfl rfl
  case fset c _ _ _ _ => cases c <;> exact spelled_dab major_fset (by decide) hw rfl rfl
  case frcp | frsq | fsqrt | fexp2 | flog2 | fsin | fcos | ftanh => exact spelled_da major_special (by decide) hw rfl rfl
  case hadd2F16 | hmul2F16 | hfma2F16 | hmax2F16 => exact spelled_dab major_half (by decide) hw rfl rfl
  case hadd2Bf16 | hmul2Bf16 | hfma2Bf16 | hmax2Bf16 => exact spelled_dab major_bf (by decide) hw rfl rfl
  case fcvt c _ _ _ => cases c <;> exact spelled_da major_fcvt (by decide) hw rfl rfl
  case fcvtNp c _ _ _ =>
    cases c <;> exact spelled_slot (c := fun n => n == 0 && !false) major_fcvt (by decide) hw rfl rfl rfl
  case f2i y _ _ _ =>
    obtain ⟨hres, hy, hfn⟩ := intTy_codes y
    exact spelled_da major_f2i hfn hw rfl (by simp only [hres, hy]; rfl)
  case i2f y _ _ _ =>
    obtain ⟨hres, hy, hfn⟩ := intTy_codes y
    exact spelled_da major_i2f hfn hw rfl (by simp only [hres, hy]; rfl)
  case npack | nunpack => exact spelled_slot (c := fun n => n == 0 && !false) major_plane (by decide) hw rfl rfl rfl
  case scenc | scdec => exact spelled_slot (c := fun n => n == 0) major_scale (by decide) hw rfl rfl rfl
  case shfl c _ _ _ _ => cases c <;> exact spelled_dab major_shfl (by decide) hw rfl rfl
  case putl c _ _ _ _ => cases c <;> exact spelled_dab major_putl (by decide) hw rfl rfl
  case vote c _ _ => cases c <;> exact spelled_da major_vote (by decide) hw rfl rfl
  case redl c _ _ _ => cases c <;> exact spelled_da major_redl (by decide) hw rfl rfl
  case scanl c _ _ _ => cases c <;> exact spelled_da major_scanl (by decide) hw rfl rfl
  case lpart c => exact spelled_slot (i := .lpart) (d := 0) (a := 0) (b := c) (c := fun n => n == 0) major_lpart (by decide) hw rfl rfl rfl
  case brx => exact spelled_word major_ctl ⟨by decide, by decide, of_decide_eq_true hw, by decide⟩ rfl rfl
  case ret | exit | yield | nop => exact spelled_word major_ctl ⟨by decide, by decide, by decide, by decide⟩ rfl rfl
  case join | leave | waitm => exact spelled_word major_mask ⟨by decide, of_decide_eq_true hw, by decide, by decide⟩ rfl rfl
  case bra off | call off =>
    exact spelled_branch (by decide) (by decide) (of_decide_eq_true hw) rfl
      (fun x hM hm hn hoff => by unfold decode; rw [hM]; simp [hm, hn, hoff, orRes])
  case brc m neg off =>
    obtain ⟨hm, hoff⟩ := Bool.and_eq_true_iff.1 hw
    exact spelled_branch (by decide) (of_decide_eq_true hm) (of_decide_eq_true hoff) rfl
      (fun x hM hm hn hoff => by unfold decode; rw [hM]; simp [hm, hn, hoff])
  case xpfx f4s f4en f4 sat rm zero m =>
    obtain ⟨hfr, hm⟩ := Bool.and_eq_true_iff.1 hw
    obtain ⟨hf, hr⟩ := Bool.and_eq_true_iff.1 hfr
    exact spelled_xpfx (of_decide_eq_true hf) (of_decide_eq_true hr) (of_decide_eq_true hm)
  case limm hi v => exact spelled_limm (of_decide_eq_true hw)
  case prio v => exact spelled_prio (of_decide_eq_true hw)
  case shint c => exact spelled_shint (of_decide_eq_true hw)
  case chk => exact spelled_chk
  case ld => exact spelled_global false false hw rfl (fun b hc hz hbit hres => by simp only [decGlobal, hc, hz, hbit, hres]; rfl)
  case lda => exact spelled_global true false hw rfl (fun b hc hz hbit hres => by simp only [decGlobal, hc, hz, hbit, hres]; rfl)
  case st => exact spelled_global false true hw rfl (fun b hc hz hbit hres => by simp only [decGlobal, hc, hz, hbit, hres]; rfl)
  case stl =>
    exact spelled_global true true (l := 0) hw rfl (fun b hc hz hbit hres => by simp only [decGlobal, hc, hz, hbit, hres]; rfl)
  case lds => exact spelled_local 0 (by decide) hw rfl (fun b hz hs hres => by simp only [decLocal, hz, hs, hres]; rfl)
  case sts => exact spelled_local 1 (by decide) hw rfl (fun b hz hs hres => by simp only [decLocal, hz, hs, hres]; rfl)
  case ldw => exact spelled_local 2 (by decide) hw rfl (fun b hz hs hres => by simp only [decLocal, hz, hs, hres]; rfl)
  case stw => exact spelled_local 3 (by decide) hw rfl (fun b hz hs hres => by simp only [decLocal, hz, hs, hres]; rfl)
  case ldp => exact spelled_local 4 (by decide) hw rfl (fun b hz hs hres => by simp only [decLocal, hz, hs, hres]; rfl)
  case stp => exact spelled_local 5 (by decide) hw rfl (fun b hz hs hres => by simp only [decLocal, hz, hs, hres]; rfl)
  case atom l d a p w o =>
    obtain ⟨hw, hlook⟩ := Bool.and_eq_true_iff.1 hw
    obtain ⟨hw, hfadd⟩ := Bool.and_eq_true_iff.1 hw
    rw [Bool.not_eq_true'] at hlook hfadd
    exact spelled_atom hw rfl (fun b ho hp hbit => by simp only [decAtom, ho, hp, hbit, withCode, hfadd, hlook]; rfl)
  case red l d a p w o =>
    obtain ⟨hw, hcas⟩ := Bool.and_eq_true_iff.1 hw
    obtain ⟨hw, hfadd⟩ := Bool.and_eq_true_iff.1 hw
    rw [Bool.not_eq_true'] at hfadd
    exact spelled_atom hw rfl (fun b ho hp hbit => by simp only [decAtom, ho, hp, hbit, withCode, hfadd, hcas]; rfl)
  case fenceCl | fenceDv | fenceSy | fenceSv => exact spelled_word major_cache ⟨by decide, by decide, by decide, by decide⟩ rfl rfl
  case pref l x a v =>
    obtain ⟨hv, hlt⟩ := level_codes v
    exact spelled_level 1 _ (by decide) hlt hw rfl (fun b hs hm => by simp only [decCache, hs, hm, hv]; rfl)
  case evict l x a v =>
    obtain ⟨hv, hlt⟩ := level_codes v
    exact spelled_level 2 _ (by decide) hlt hw rfl (fun b hs hm => by simp only [decCache, hs, hm, hv]; rfl)
  case ckin => exact spelled_level 3 0 (by decide) (by decide) hw rfl (fun b hs hm => by simp only [decCache, hs, hm]; rfl)
  case rwr d a m =>
    obtain ⟨hda, hm⟩ := Bool.and_eq_true_iff.1 hw
    obtain ⟨hd, ha⟩ := Bool.and_eq_true_iff.1 hda
    have hm : m < 8 := of_decide_eq_true hm
    refine spelled_word major_cache (t := false) ⟨by decide, of_decide_eq_true hd, of_decide_eq_true ha, ?_⟩ rfl ?_
    · omega
    · simp only [decCache, show (32 + m) / 8 = 4 by omega, show (32 + m) % 8 = m by omega]
      rfl
  case arvw l d a =>
    obtain ⟨hld, ha⟩ := Bool.and_eq_true_iff.1 hw
    obtain ⟨hl, hd⟩ := Bool.and_eq_true_iff.1 hld
    have h16 : a < 16 := of_decide_eq_true ha
    refine spelled_word major_cache (t := false) ⟨of_decide_eq_true hl, of_decide_eq_true hd, by omega, ?_⟩ rfl ?_
    · decide
    · simp only [decCache, ha]
      rfl
  case bari x d a =>
    obtain ⟨hd, hbar⟩ := Bool.and_eq_true_iff.1 hw
    exact spelled_bar 48 (by decide) (of_decide_eq_true hd) hbar rfl (by simp only [decCache]; rfl)
  case bart x d a =>
    obtain ⟨hd, hbar⟩ := Bool.and_eq_true_iff.1 hw
    exact spelled_bar 80 (by decide) (of_decide_eq_true hd) hbar rfl (by simp only [decCache]; rfl)
  case barq x d a =>
    obtain ⟨hd, hbar⟩ := Bool.and_eq_true_iff.1 hw
    exact spelled_bar 96 (by decide) (of_decide_eq_true hd) hbar rfl (by simp only [decCache]; rfl)
  case bara => exact spelled_bar 56 (d := 0) (by decide) (by decide) hw rfl (by simp only [decCache]; rfl)
  case bard => exact spelled_bar 64 (d := 0) (by decide) (by decide) hw rfl (by simp only [decCache]; rfl)
  case barw => exact spelled_bar 72 (d := 0) (by decide) (by decide) hw rfl (by simp only [decCache]; rfl)
  case bars => exact spelled_bar 88 (d := 0) (by decide) (by decide) hw rfl (by simp only [decCache]; rfl)
  case waittl d a =>
    obtain ⟨hd, hq⟩ := Bool.and_eq_true_iff.1 hw
    exact spelled_queue 8 (by decide) (of_decide_eq_true hd) hq rfl (by simp only [decEngine]; rfl)
  case tlrd d a =>
    obtain ⟨hd, hq⟩ := Bool.and_eq_true_iff.1 hw
    exact spelled_queue 16 (by decide) (of_decide_eq_true hd) hq rfl (by simp only [decEngine]; rfl)
  case push x p f a =>
    obtain ⟨hpf, hq⟩ := Bool.and_eq_true_iff.1 hw
    obtain ⟨hp, hf⟩ := Bool.and_eq_true_iff.1 hpf
    have hp : p < 16 := of_decide_eq_true hp
    have hf : f < 8 := of_decide_eq_true hf
    refine spelled_queue (d := p * 8 + f) 0 (by decide) (by omega) hq rfl ?_
    simp only [decEngine, show (p * 8 + f) / 8 = p by omega, show (p * 8 + f) % 8 = f by omega]
    rfl
  case ringp x a m =>
    obtain ⟨ha, hm⟩ := Bool.and_eq_true_iff.1 hw
    exact spelled_engine 3 m (l := 0) (d := 0) (by decide) (of_decide_eq_true hm) (by decide) (by decide) (of_decide_eq_true ha) rfl
      (fun b hs hm => by simp only [decEngine, hs, hm]; rfl)
  case ringc x a m =>
    obtain ⟨ha, hm⟩ := Bool.and_eq_true_iff.1 hw
    exact spelled_engine 4 m (l := 0) (d := 0) (by decide) (of_decide_eq_true hm) (by decide) (by decide) (of_decide_eq_true ha) rfl
      (fun b hs hm => by simp only [decEngine, hs, hm]; rfl)
  case ringcRel x a m =>
    obtain ⟨ha, hm⟩ := Bool.and_eq_true_iff.1 hw
    exact spelled_engine 4 m (l := 0) (d := 1) (by decide) (of_decide_eq_true hm) (by decide) (by decide) (of_decide_eq_true ha) rfl
      (fun b hs hm => by simp only [decEngine, hs, hm]; rfl)
  case cont d a => exact spelled_dab major_engine (by decide) (by rw [show (r7 d && r7 a) = true from hw]; rfl) rfl (by simp only [decEngine]; rfl)
  case mma l q n a slot =>
    obtain ⟨hw, hslot⟩ := Bool.and_eq_true_iff.1 hw
    obtain ⟨hw, ha⟩ := Bool.and_eq_true_iff.1 hw
    obtain ⟨hl, hn⟩ := Bool.and_eq_true_iff.1 hw
    obtain ⟨hd, hq, hdn, hres, hbit⟩ := act_codes q (of_decide_eq_true hn)
    exact spelled_engine 6 slot (l := l) (by decide) (of_decide_eq_true hslot) (of_decide_eq_true hl) (by omega) (of_decide_eq_true ha) rfl
      (fun b hs hm => by simp only [decEngine, hs, hm, hq, hdn, hres, hbit]; rfl)
  case mzero l n =>
    obtain ⟨hl, hn⟩ := Bool.and_eq_true_iff.1 hw
    have hn : n < 8 := of_decide_eq_true hn
    exact spelled_engine 7 0 (d := n) (a := 0) (by decide) (by decide) (of_decide_eq_true hl) (by omega) (by decide) rfl
      (fun b hs hm => by simp only [decEngine, hs, hm, Nat.div_eq_of_lt hn, Nat.mod_eq_of_lt hn]; rfl)
  case mrd l d n =>
    obtain ⟨hld, hn⟩ := Bool.and_eq_true_iff.1 hw
    obtain ⟨hl, hd⟩ := Bool.and_eq_true_iff.1 hld
    have hn : n < 8 := of_decide_eq_true hn
    exact spelled_engine 8 0 (a := n) (by decide) (by decide) (of_decide_eq_true hl) (of_decide_eq_true hd) (by omega) rfl
      (fun b hs hm => by simp only [decEngine, hs, hm, Nat.div_eq_of_lt hn, Nat.mod_eq_of_lt hn]; rfl)
  case mwr l d n =>
    obtain ⟨hld, hn⟩ := Bool.and_eq_true_iff.1 hw
    obtain ⟨hl, hd⟩ := Bool.and_eq_true_iff.1 hld
    have hn : n < 8 := of_decide_eq_true hn
    exact spelled_engine 9 0 (a := n) (by decide) (by decide) (of_decide_eq_true hl) (of_decide_eq_true hd) (by omega) rfl
      (fun b hs hm => by simp only [decEngine, hs, hm, Nat.div_eq_of_lt hn, Nat.mod_eq_of_lt hn]; rfl)
  case trap => exact spelled_word major_system ⟨by decide, by decide, of_decide_eq_true hw, by decide⟩ rfl (by simp only [decSystem]; rfl)
  case tret | bkpt | synci => exact spelled_word major_system ⟨by decide, by decide, by decide, by decide⟩ rfl (by simp only [decSystem]; rfl)
  case waitt | capq => exact spelled_word major_system ⟨by decide, of_decide_eq_true hw, by decide, by decide⟩ rfl (by simp only [decSystem]; rfl)
  case sregr => exact spelled_special 16 (by decide) hw rfl (by simp only [decSystem]; rfl)
  case sregw => exact spelled_special 24 (by decide) hw rfl (by simp only [decSystem]; rfl)
  all_goals exact absurd hc Bool.false_ne_true

/-! ## The bytes of a word (R9, R117) -/

/-- Four little-endian bytes hold a word of 32 bits. -/
theorem ofBytes_toBytes_four {w : Nat} (hw : w < 2 ^ 32) : ofBytes (toBytes 4 w) = w := by
  simp only [toBytes, ofBytes, BitVec.toNat_ofNat]
  omega

theorem decodeBytes_toBytes {w : Nat} (hw : w < 2 ^ 32) : decodeBytes (toBytes 4 w) = some (decode w) :=
  congrArg (fun x => some (decode x)) (ofBytes_toBytes_four hw)

theorem decodeTableWord_of_ok {w : Nat} {i : Instr} (hw : w < 2 ^ 32) (hi : decode w = .ok i) : decodeTableWord 32 w = some i := by
  simp [decodeTableWord, decodeBytes_toBytes hw, hi]

end Sys2Proof

namespace Sys2Proof.Machine

/-- Settles O50: every row's word decodes to the instruction, by the form of its fields (`spelled`). -/
theorem decodeOfEncode : Obligations.DecodeOfEncode := by
  intro i hc hw
  obtain ⟨w, he, hlt, hd⟩ := spelled i hc hw
  exact ⟨w, he, hlt, hd, decodeTableWord_of_ok hlt hd, by rw [decodeBytes_toBytes hlt, hd]⟩

/-- Settles O51: each major's decoder reads every bit of the word (`decode_spells`). -/
theorem encodeOfDecode : Obligations.EncodeOfDecode := fun _ i hw hi => decode_spells hw i hi

/-- Settles O49: the decoder evaluates on each of the words. -/
theorem decodeWords : Obligations.DecodeWords := by
  unfold Obligations.DecodeWords
  decide

end Sys2Proof.Machine
end

section
/-! LEMMAS. Words that are no computation: EXIT, YIELD, CHK, SHINT and the hint words (R127 to R129, R189 to R192), the words of a sequence (R122 to R126), and words that
are no instruction or cannot be fetched (R117, R138). -/
set_option Elab.async false

namespace Sys2Proof.Machine

/-! ## EXIT and WAITM (R189, R192) -/

/-- The lanes that stay live when the entry exits (R189). -/
def exitLeaves (is : Issue) (s : State) : Nat := maskOf ((lanesOf (s.liveMask is.core is.slot)).filter (fun l => !is.lanes.contains l))

/-- R189: the entry's live bits are cleared. -/
def exitEff (is : Issue) (s : State) : Eff := { stay := true, raw := [(mAddr is.rb 0, toBytes 4 (exitLeaves is s))] }

theorem performs_exit_last :
    Performs .exit descControl (fun is s => exitLeaves is s = 0) (fun is s => { exitEff is s with ends := some .retire }) :=
  have hx (s : State) : exec .exit s = execExit s := rfl
  performs_of_issueWord hx fun _ _ h => if_pos h

theorem performs_exit : Performs .exit descControl (fun is s => exitLeaves is s ≠ 0 ∧ barsMet (exitLeaves is s) is.g.lanes = none) exitEff :=
  have hx (s : State) : exec .exit s = execExit s := rfl
  performs_of_issueWord hx fun is s ⟨hleft, hbars⟩ => (if_neg hleft).trans (by
    unfold exitLeaves at hbars
    simp only [hbars]
    rfl)

/-- Settles O10: each word's own rule, with EXIT by whether lanes are left and WAITM by whether it parks in Solo-run. -/
theorem frontierWords : Obligations.FrontierWords :=
  have hwaitm (d : Nat) (s : State) : exec (.waitm d) s = execWaitm d s := rfl
  fun d _ _ => ⟨performs_exit_last, performs_exit, performs_of_issueWord (fun _ => rfl) fun _ _ _ => rfl,
    performs_of_issueWord (fun _ => rfl) fun _ _ _ => rfl, performs_of_issueWord (fun _ => rfl) fun _ _ _ => rfl,
    performs_of_issueWord (fun _ => rfl) fun _ _ _ => rfl, performs_of_issueWord (hwaitm d) fun _ _ h => if_neg h,
    performs_of_issueWord (fun _ => rfl) fun _ _ _ => rfl, performs_of_issueWord (fun _ => rfl) fun _ _ _ => rfl,
    performs_of_issueWord (fun _ => rfl) fun _ _ _ => rfl⟩

/-! ## The words of a sequence (R122 to R126) -/

section
variable {s : State} {c slot pc : Nat} {lanes : List Nat} {g : Group} {f : Seq → Option Seq}

/-- R122: a hint word that the sequence does not take traps at the sequence's first word. -/
theorem hintWord_refused (hcur : s.cur = some (c, slot, pc, lanes)) (hg : s.group? c slot = some g) (hf : f g.seq = none) :
    hintWord f s = .next (s.trapAt c slot causeILL (illVal .sequence) (mkIssue s c slot pc lanes g).first lanes) := by
  simp only [hintWord, hcur, hg, hf]
  rfl

/-- R122, R324: a hint word that the sequence takes, and whose sequence fits the Chunk, counts as a word; the entry stays chosen. -/
theorem hintWord_joins (hcur : s.cur = some (c, slot, pc, lanes)) (hg : s.group? c slot = some g) {q : Seq} (hf : f g.seq = some q)
    (hfits : g.seq.n ≠ 0 ∨ ∃ n, s.seqLen c g.failed pc 4 = .got n ∧
      (g.chunk.words = 0 ∨ g.chunk.words + n ≤ 2 ^ statLimlog (s.chunkstat c slot))) :
    hintWord f s = .next ((stallOn (mkIssue s c slot pc lanes g) s).modGroup c slot (fun x =>
      { x with seq := { q with n := x.seq.n + 1, first := (mkIssue s c slot pc lanes g).first }, ydem := x.ydem - 1,
               pend := countWindows lanes x.pend, chunk := { x.chunk with words := x.chunk.words + 1 } })) := by
  simp only [hintWord, hcur, hg, hf]
  rcases hfits with hn | ⟨n, hlen, hroom⟩
  · simp [hn, Ahead.needs?]
  · by_cases hn : g.seq.n = 0
    · have hno : ¬(0 < g.chunk.words ∧ 2 ^ statLimlog (s.chunkstat c slot) < g.chunk.words + n) := by omega
      simp [hn, hlen, Ahead.needs?, Ahead.val?, hno]
    · simp [hn, Ahead.needs?]

end

/-- R123: an XPFX is taken once, before any LIMM. -/
def takeXpfx (x : Xpfx) (q : Seq) : Option Seq := if q.xp.isSome || !q.limms.isEmpty then none else some { q with xp := some x }

/-- R125: a LIMM is taken where fewer than two stand, none of them of the same half. -/
def takeLimm (hi : Bool) (v : Nat) (q : Seq) : Option Seq :=
  if decide (2 ≤ q.limms.length) || q.limms.any (fun x => x.1 == hi) then none else some { q with limms := q.limms ++ [(hi, v)] }

theorem exec_xpfx (f4s f4en : Bool) (f4 : Nat) (sat : Bool) (rm : Nat) (zero : Bool) (m : Nat) (s : State) :
    exec (.xpfx f4s f4en f4 sat rm zero m) s =
      hintWord (takeXpfx { f4s := f4s, f4en := f4en, f4 := f4, sat := sat, rm := rm, zero := zero, mask := m }) s := rfl

theorem exec_limm (hi : Bool) (v : Nat) (s : State) : exec (.limm hi v) s = hintWord (takeLimm hi v) s := rfl

theorem takeXpfx_first {x : Xpfx} {q : Seq} (hx : q.xp = none) (hl : q.limms = []) : takeXpfx x q = some { q with xp := some x } := by
  simp [takeXpfx, hx, hl]

theorem takeXpfx_again {x : Xpfx} {q : Seq} (h : q.xp.isSome ∨ q.limms ≠ []) : takeXpfx x q = none := by
  simpa [takeXpfx, or_iff_not_imp_left] using h

theorem takeLimm_room {hi : Bool} {v : Nat} {q : Seq} (hlen : q.limms.length < 2) (hne : ∀ x ∈ q.limms, x.1 ≠ hi) :
    takeLimm hi v q = some { q with limms := q.limms ++ [(hi, v)] } := by
  have hany : q.limms.any (fun x => x.1 == hi) = false := by simpa only [List.any_eq_false, beq_iff_eq] using hne
  simp [takeLimm, Nat.not_le.2 hlen, hany]

theorem takeLimm_full {hi : Bool} {v : Nat} {q : Seq} (h : 2 ≤ q.limms.length ∨ ∃ x ∈ q.limms, x.1 = hi) : takeLimm hi v q = none := by
  refine if_pos ?_
  simpa only [Bool.or_eq_true, decide_eq_true_eq, List.any_eq_true, beq_iff_eq] using h

/-- Settles O11: XPFX and LIMM are hint words, taken where R122 gives them a place. -/
theorem sequenceWords : Obligations.SequenceWords := fun s _ _ _ _ _ hcur hg =>
  ⟨fun f4s f4en sat zero f4 rm m =>
      ⟨fun hx hl hfits => (exec_xpfx f4s f4en f4 sat rm zero m s).trans (hintWord_joins hcur hg (takeXpfx_first hx hl) hfits),
        fun h => (exec_xpfx f4s f4en f4 sat rm zero m s).trans (hintWord_refused hcur hg (takeXpfx_again h))⟩,
    fun hi v => ⟨fun hlen hne hfits => (exec_limm hi v s).trans (hintWord_joins hcur hg (takeLimm_room hlen hne) hfits),
      fun h => (exec_limm hi v s).trans (hintWord_refused hcur hg (takeLimm_full h))⟩⟩

/-! ## What is no instruction (R117, R138, R279, R349) -/

section
variable {s : State} {c slot pc : Nat} {lanes : List Nat} {g : Group}

/-- A word without a form of its own does what its rules say. -/
theorem issueBare_settle (hcur : s.cur = some (c, slot, pc, lanes)) (hg : s.group? c slot = some g) (body : Issue → State → Verdict) :
    issueBare body s = .next (settle (mkIssue s c slot pc lanes g) (body (mkIssue s c slot pc lanes g) s) s) := by
  simp only [issueBare, hcur, hg]

theorem exec_wordNotInstruction (hcur : s.cur = some (c, slot, pc, lanes)) (hg : s.group? c slot = some g) (r : IllReason) :
    exec (.wordNotInstruction r) s = .next (s.trapAt c slot causeILL (illVal r) (mkIssue s c slot pc lanes g).first lanes) :=
  issueBare_settle hcur hg fun _ _ => .trap causeILL (illVal r)

end

/-- What the entry does whose word is not there (R117, R279, R349). -/
def fetchVerdict (is : Issue) (s : State) : Verdict :=
  match s.fetch is.core is.g.failed is.pc with
  | .failed => .trap causeXLATE (0xA0 + is.lanes.headD 0)
  | .untranslated => fetchHold is s is.pc
  | .waits _ => fetchHold is s is.pc
  | _ => .trap causePROT is.pc

theorem exec_codeFetchFault (s : State) : exec .codeFetchFault s = issueBare fetchVerdict s := rfl

section
variable {is : Issue} {s : State}

theorem fetchVerdict_refused (h : s.fetch is.core is.g.failed is.pc = .refused) : fetchVerdict is s = .trap causePROT is.pc := by
  simp only [fetchVerdict, h]

theorem fetchVerdict_failed (h : s.fetch is.core is.g.failed is.pc = .failed) :
    fetchVerdict is s = .trap causeXLATE (0xA0 + is.lanes.headD 0) := by
  simp only [fetchVerdict, h]

theorem fetchVerdict_untranslated (h : s.fetch is.core is.g.failed is.pc = .untranslated) :
    fetchVerdict is s = .walk (is.l.codebase + is.pc) .fetch := by
  simp only [fetchVerdict, fetchHold, h]

end

/-- Settles O13: by the outcome of the fetch. -/
theorem noInstruction : Obligations.NoInstruction := by
  intro s c slot pc lanes g r hcur hg is trap
  have hfault {v : Verdict} (hv : fetchVerdict is s = v) : exec .codeFetchFault s = .next (settle is v s) :=
    hv ▸ (exec_codeFetchFault s).trans (issueBare_settle hcur hg fetchVerdict)
  exact ⟨exec_wordNotInstruction hcur hg r, fun h => hfault (fetchVerdict_refused h), fun h => hfault (fetchVerdict_failed h),
    fun h => hfault (fetchVerdict_untranslated h)⟩

end Sys2Proof.Machine
end

section
/-! LEMMAS. The step of the device (log 3): which agent acts, and what it runs (R117, R138, R323 to R329). -/
set_option Elab.async false

namespace Sys2Proof.Machine

/-! ## What one step runs -/

section
variable {s t : State}

theorem step_of_stop {pa : Nat} (h : s.stop = some pa) : step s = .fault (.noSuchAddress pa) := by
  simp only [step, h]

/-- A step at which an agent acts runs its instruction on the state that it was picked in. -/
theorem step_of_pick {i : Instr} (hs : s.stop = none) (h : s.pick = (t, some i)) : step s = exec i t := by
  simp only [step, hs, h]

theorem pickEvent_of_due {k : Nat} {ev : Instr} (h : s.agenda[k]? = some ev) :
    s.pickEvent k = ({ s with agenda := s.agenda.eraseIdx k }, some ev) := by
  simp only [State.pickEvent, h]

theorem pick_of_sched_zero {r : List Nat} (h : s.sched = 0 :: r) : s.pick = ({ s.tick with sched := r } : State).pickAny := by
  simp only [State.pick, h]

theorem pick_of_sched_succ {r : List Nat} {k : Nat} (h : s.sched = (k + 1) :: r) :
    s.pick = ({ s.tick with sched := r } : State).pickEvent k := by
  simp only [State.pick, h]

/-- Where sched names no agent, events go first at even steps. -/
theorem pick_of_even (h : s.sched = []) (heven : s.steps % 2 = 0) (hne : s.agenda ≠ []) : s.pick = s.tick.pickEvent 0 := by
  obtain ⟨e, r, ha⟩ := List.exists_cons_of_ne_nil hne
  simp only [State.pick, h, heven, ha, if_true]

end

/-! ## The word of the entry that issues (R117, R138, R183, R323, R324) -/

/-- The turn is taken, and the entry is chosen (R323, R329). -/
def State.chose (s : State) (c slot pc : Nat) (lanes : List Nat) : State := { s.tookTurn c slot with cur := some (c, slot, pc, lanes) }

/-- A fused run stands at the entry's word, or what decides it is not there yet (R183). -/
def FusedHere (s : State) (c : Nat) (g : Group) (pc : Nat) : Prop :=
  g.seq.n = 0 ∧ ((s.fusedAt? c g.failed pc).isSome = true ∨ (s.fusedNeeds? c g.failed pc).isSome = true)

/-- What the chosen entry's place makes the step run (R117, R138, R183). -/
def State.runsAt (u : State) (c slot : Nat) (g : Group) (pc : Nat) : State × Option Instr :=
  match u.fetch c g.failed pc with
  | .word w =>
    let v := u.keepWord c slot pc w
    if g.seq.n = 0 && ((v.fusedAt? c g.failed pc).isSome || (v.fusedNeeds? c g.failed pc).isSome) then (v, some .fusedSoftmax)
    else match decode w with
      | .ok i => (v, some i)
      | .bad r => (v, some (.wordNotInstruction r))
  | _ => (u, some .codeFetchFault)

theorem pickIssue_eq {s : State} {c slot : Nat} {g : Group} {e : Entry} (hg : s.group? c slot = some g)
    (he : s.nextEntry c slot g = some e) :
    s.pickIssue c slot = (s.chose c slot (e.pc + 4 * g.seq.n) e.lanes).runsAt c slot g (e.pc + 4 * g.seq.n) := by
  simp only [State.pickIssue, hg, he]
  rfl

section
variable {u : State} {c slot pc w : Nat} {g : Group}

theorem runsAt_no_word (h : ∀ w, u.fetch c g.failed pc ≠ .word w) : u.runsAt c slot g pc = (u, some .codeFetchFault) := by
  unfold State.runsAt
  split
  · next w hw => exact absurd hw (h w)
  · rfl

variable (hw : u.fetch c g.failed pc = .word w)
include hw

theorem runsAt_fused (h : FusedHere (u.keepWord c slot pc w) c g pc) :
    u.runsAt c slot g pc = (u.keepWord c slot pc w, some .fusedSoftmax) := by
  simp only [State.runsAt, hw]
  exact if_pos (by simpa only [FusedHere, Bool.and_eq_true, Bool.or_eq_true, decide_eq_true_eq] using h)

theorem runsAt_instr {i : Instr} (h : ¬FusedHere (u.keepWord c slot pc w) c g pc) (hi : decode w = .ok i) :
    u.runsAt c slot g pc = (u.keepWord c slot pc w, some i) := by
  simp only [State.runsAt, hw, hi]
  exact if_neg (by simpa only [FusedHere, Bool.and_eq_true, Bool.or_eq_true, decide_eq_true_eq] using h)

theorem runsAt_no_instr {why : IllReason} (h : ¬FusedHere (u.keepWord c slot pc w) c g pc) (hi : decode w = .bad why) :
    u.runsAt c slot g pc = (u.keepWord c slot pc w, some (.wordNotInstruction why)) := by
  simp only [State.runsAt, hw, hi]
  exact if_neg (by simpa only [FusedHere, Bool.and_eq_true, Bool.or_eq_true, decide_eq_true_eq] using h)

end

/-- Settles O52: the agent that `State.pick` names, and what it runs. -/
theorem stepRunsTheWord : Obligations.StepRunsTheWord := by
  intro s
  obtain ⟨hclk, hwall, hsteps, _⟩ := s.tick_frame
  refine ⟨fun r c slot g e hstop hsched hissuer hg he => ?_, fun r k ev hstop hsched hev => ?_, fun ev rest hstop hsched heven hne hag => ?_,
    fun pa => step_of_stop, hclk, hwall, hsteps⟩
  · have hrun {v : State} {i : Instr} (h : (({ s.tick with sched := r } : State).chose c slot (e.pc + 4 * g.seq.n) e.lanes).runsAt c slot g
        (e.pc + 4 * g.seq.n) = (v, some i)) : step s = exec i v :=
      step_of_pick hstop ((pick_of_sched_zero hsched).trans (by simp only [State.pickAny, hissuer]; exact (pickIssue_eq hg he).trans h))
    refine ⟨fun w hw => ?_, fun h => hrun (runsAt_no_word h)⟩
    exact ⟨fun h i hi => hrun (runsAt_instr hw h hi), fun h why hi => hrun (runsAt_no_instr hw h hi), fun h => hrun (runsAt_fused hw h)⟩
  · exact step_of_pick hstop ((pick_of_sched_succ hsched).trans (pickEvent_of_due hev))
  · have hpick := (pick_of_even hsched heven hne).trans (pickEvent_of_due (k := 0) (by rw [hag]; rfl))
    rw [hag] at hpick
    exact step_of_pick hstop hpick

end Sys2Proof.Machine
end

section
/-! LEMMAS. Images leave their cores: what writing them to their slots and emptying the cores do to Kernels, Teams and cores (R275). -/
set_option Elab.async false

namespace Sys2Proof.Machine

/-- Kernels and Teams have not changed, nor the Kernel and the Groups of any core. -/
structure ImagesStand (s t : State) : Prop where
  kernels : t.kernels = s.kernels
  teams : t.teams = s.teams
  held : ∀ c, (t.core c).kernel = (s.core c).kernel ∧ (t.core c).groups = (s.core c).groups

section
variable {s t u : State}

theorem ImagesStand.refl (s : State) : ImagesStand s s := ⟨rfl, rfl, fun _ => ⟨rfl, rfl⟩⟩

theorem ImagesStand.trans (h : ImagesStand s t) (k : ImagesStand t u) : ImagesStand s u :=
  ⟨k.kernels.trans h.kernels, k.teams.trans h.teams, fun c => ⟨(k.held c).1.trans (h.held c).1, (k.held c).2.trans (h.held c).2⟩⟩

/-- Something else of the device has changed. -/
theorem ImagesStand.elsewhere (hk : t.kernels = s.kernels := by rfl) (ht : t.teams = s.teams := by rfl) (hc : t.cores = s.cores := by rfl) :
    ImagesStand s t :=
  ⟨hk, ht, fun c => by rw [State.core_congr hc]; exact ⟨rfl, rfl⟩⟩

theorem ImagesStand.ite {p : Prop} [Decidable p] (ht : ImagesStand s t) (hu : ImagesStand s u) : ImagesStand s (if p then t else u) := by
  split
  · exact ht
  · exact hu

theorem ImagesStand.gang? (h : ImagesStand s t) (kid gid : Nat) : t.gang? kid gid = s.gang? kid gid := by
  unfold State.gang?
  rw [h.kernels]

theorem ImagesStand.foldl {α : Type} {f : State → α → State} (hf : ∀ s a, ImagesStand s (f s a)) (xs : List α) :
    ∀ s, ImagesStand s (xs.foldl f s) := by
  induction xs with
  | nil => exact .refl
  | cons x xs ih => exact fun s => (hf s x).trans (ih _)

theorem State.commitItems_teams {part die : Nat} {items : List BufItem} {owner op : Option Nat} {cluster : Option (Nat × Nat)} :
    (s.commitItems part die items owner op cluster).teams = s.teams := by
  unfold State.commitItems
  dsimp only
  obtain ⟨ps, ag, h⟩ := sendAcross_only s (s.unitEnd die owner op cluster) (diffTag part (s.stamps.getD part 1)) (itemAddrs s.regions items)
  rw [h]
  obtain ⟨qs, ah, k⟩ := sendPackets_only (fun c => c) (fun _ => castTag part (s.stamps.getD part 1)) (s.unitEnd die owner op cluster)
    ((s.coresOf part).filter (fun c => dieOf c != endDie (s.unitEnd die owner op cluster))) { s with pairs := ps, agenda := s.agenda ++ ag }
  rw [k]

theorem ImagesStand.commitItems {part die : Nat} {items : List BufItem} {owner op : Option Nat} {cluster : Option (Nat × Nat)} :
    ImagesStand s (s.commitItems part die items owner op cluster) :=
  ⟨State.commitItems_kernels_ctxs.1, State.commitItems_teams, fun c => by
    obtain ⟨inbox, h⟩ := State.commitItems_core (s := s) (part := part) (die := die) (c := c) (items := items) (owner := owner) (op := op)
      (cluster := cluster)
    rw [h]
    exact ⟨rfl, rfl⟩⟩

theorem ImagesStand.writeFault {ctx : Nat} {bytes : Nat → List Byte} : ImagesStand s (s.writeFault ctx bytes) := by
  unfold State.writeFault
  extract_lets c pa s1
  have h1 : ImagesStand s s1 := .elsewhere
  have h2 (part : Nat) (items : List BufItem) : ImagesStand s1 (s1.deviceUnit part items) := .ite .commitItems .elsewhere
  exact (h1.trans (h2 ..)).trans (.ite (.refl _) .elsewhere)

/-- R270: a Context that settles loses no image and no Team by it. -/
theorem ImagesStand.settleCtx {ctx : Nat} : ImagesStand s (s.settleCtx ctx) := by
  unfold State.settleCtx
  extract_lets c
  split
  · exact .ite .elsewhere (.refl s)
  · exact .ite (ImagesStand.trans .elsewhere .writeFault) (.refl s)
  · exact .refl s

theorem ImagesStand.rawPut {pa : Nat} {bs : List Byte} : ImagesStand s (s.rawPut pa bs) := by
  unfold State.rawPut
  extract_lets it u
  obtain ⟨_, _, _, _, hu⟩ := s.parityOf_only s.mem (s.lastStamp 0) [] none none it
  have h1 : ImagesStand s u := by rw [show u = _ from hu]; exact .elsewhere
  exact h1.trans .elsewhere

theorem ImagesStand.saveImage {ctx lrva : Nat} {i : Image} : ImagesStand s (s.saveImage ctx lrva i) := by
  unfold State.saveImage
  extract_lets k base s1 s2
  have h1 : ImagesStand s s1 := .rawPut
  have h2 : ImagesStand s1 s2 := .foldl (fun _ _ => .rawPut) ..
  exact ((h1.trans h2).trans .rawPut).trans (.foldl (fun _ _ => .rawPut) ..)

/-! ## The cores are emptied -/

/-- A core holds no Kernel and no Group. -/
def State.Bare (s : State) (c : Nat) : Prop := (s.core c).kernel = none ∧ (s.core c).groups = []

theorem ImagesStand.bare (h : ImagesStand s t) {c : Nat} (hb : s.Bare c) : t.Bare c := ⟨(h.held c).1.trans hb.1, (h.held c).2.trans hb.2⟩

theorem State.bare_emptyCore_self (s : State) (c : Nat) : (s.emptyCore c).Bare c := by
  unfold State.Bare State.emptyCore
  dsimp only
  rw [State.core_setCore_self]
  exact ⟨rfl, rfl⟩

theorem State.Bare.emptyCore {c : Nat} (h : s.Bare c) (x : Nat) : (s.emptyCore x).Bare c := by
  by_cases hx : c = x
  · exact hx ▸ s.bare_emptyCore_self c
  · unfold State.Bare State.emptyCore
    dsimp only
    rw [State.core_setCore_ne _ _ hx]
    exact h

theorem State.Bare.emptyCores {c : Nat} (is : List Image) : ∀ {s : State}, s.Bare c → (is.foldl (fun s i => s.emptyCore i.core) s).Bare c := by
  induction is with
  | nil => exact id
  | cons i is ih => exact fun h => ih (h.emptyCore i.core)

theorem State.bare_emptyCores {i : Image} (is : List Image) (hi : i ∈ is) : ∀ s : State, (is.foldl (fun s i => s.emptyCore i.core) s).Bare i.core := by
  induction is with
  | nil => exact absurd hi (by simp)
  | cons j is ih =>
    intro s
    rcases List.mem_cons.1 hi with rfl | hi
    · exact .emptyCores is (s.bare_emptyCore_self _)
    · exact ih hi _

theorem State.emptyCores_kernels_teams (is : List Image) : ∀ s : State, (is.foldl (fun s i => s.emptyCore i.core) s).kernels = s.kernels ∧
    (is.foldl (fun s i => s.emptyCore i.core) s).teams = s.teams := by
  induction is with
  | nil => exact fun _ => ⟨rfl, rfl⟩
  | cons i is ih => exact fun s => ih (s.emptyCore i.core)

/-- What one change of every core makes of each. -/
theorem State.core_mapCores (f : Nat → Core → Core) (h : t.cores = s.cores.map (fun e => (e.1, f e.1 e.2))) (c : Nat)
    (hr : f c Core.reset = Core.reset) : t.core c = f c (s.core c) := by
  unfold State.core Tab.getD
  rw [h, Tab.get?_map (fun e => (e.1, f e.1 e.2)) (fun _ => rfl)]
  cases s.cores.get? c with
  | none => exact hr.symm
  | some k => rfl

theorem ImagesStand.freeRings : ImagesStand s s.freeRings :=
  ⟨rfl, rfl, fun c => by
    rw [State.core_mapCores (s := s) (t := s.freeRings) (fun c k => { k with rings := k.rings.filter (fun r => s.ringUsed r.1 c) }) rfl c rfl]
    exact ⟨rfl, rfl⟩⟩

/-! ## The images of a Gang -/

theorem State.gang?_mapImages {kid gid : Nat} {g : Gang} (f : Image → Image) (hg : s.gang? kid gid = some g) :
    (s.mapImages kid gid f).gang? kid gid = some { g with images := g.images.map f } := by
  obtain ⟨k, hk, hkg⟩ := Option.bind_eq_some_iff.1 hg
  unfold State.mapImages State.modKernel State.gang? State.setKernel
  simp only [hk, Tab.get?_set_self, Option.bind_some]
  rw [Tab.get?_map _ (fun e => by split <;> rfl), hkg]
  simp

/-! ## The quantum (R274) -/

variable {c slot kid gid : Nat} {k : Kernel} {g : Gang}

/-- Whether a Gang's quantum has expired: it stands on its cores, and its time is over. -/
def State.Expired (s : State) (k : Kernel) (g : Gang) : Prop :=
  g.images ≠ [] ∧ (∀ i ∈ g.images, i.state = .resident) ∧ g.started + (s.ctx k.ctx).quantum * 1000 ≤ s.wall

/-- Whether a Kernel node waits that the Gang has to make way for. -/
def State.hasRival (s : State) (k : Kernel) (g : Gang) : Bool :=
  s.nodes.any (fun n => n.pooled && n.kind == 1 && s.sealedOf (s.ctx (s.nodeCtx n)).part == s.sealedOf (s.ctx k.ctx).part &&
    decide (g.level ≤ n.level s.wall))

theorem State.hasRival_iff : s.hasRival k g = true ↔ ∃ n ∈ s.nodes, n.pooled = true ∧ n.kind = 1 ∧
    s.sealedOf (s.ctx (s.nodeCtx n)).part = s.sealedOf (s.ctx k.ctx).part ∧ g.level ≤ n.level s.wall := by
  simp [State.hasRival, and_assoc]

theorem State.gang?_of_kernel (hk : s.kernels.get? kid = some k) (hg : k.gangs.get? gid = some g) : s.gang? kid gid = some g := by
  simp [State.gang?, hk, hg]

theorem execQuantumExpiry_of_expired (hk : s.kernels.get? kid = some k) (hg : k.gangs.get? gid = some g) (he : s.Expired k g) :
    execQuantumExpiry kid gid s = .next ((if s.hasRival k g then s.preempt kid gid else s.setGang kid gid { g with started := s.wall }).due
      [.quantumExpiry kid gid]) := by
  obtain ⟨hne, hres, htime⟩ := he
  have hall : g.images.all (fun i => i.state == .resident) = true := by simpa using hres
  have hnot : (g.images.isEmpty || !g.images.all (fun i => i.state == .resident) ||
      decide (s.wall < g.started + (s.ctx k.ctx).quantum * 1000)) = false := by
    simp [hne, hall, htime]
  simp only [execQuantumExpiry, hk, s.gang?_of_kernel hk hg, hnot, Bool.false_eq_true, if_false]
  unfold State.hasRival
  split <;> rfl

/-! ## Save and restore (R275, R277) -/

theorem execImageSaveComplete_of_waits (hk : s.kernels.get? kid = some k) (hg : k.gangs.get? gid = some g)
    (hs : ∃ i ∈ g.images, i.state = .saving) (hw : s.saveWaits kid gid g = true) :
    execImageSaveComplete kid gid s = .next (s.due [.imageSaveComplete kid gid]) := by
  have hany : g.images.any (fun i => i.state == .saving) = true := by simpa using hs
  simp only [execImageSaveComplete, hk, s.gang?_of_kernel hk hg, hany, hw, Bool.not_true, Bool.false_eq_true, if_false, Bool.true_or, if_true]

/-- The device once the images of a Gang are written, and marked Saved. -/
def State.savedImages (s : State) (kid gid : Nat) (k : Kernel) (g : Gang) : State :=
  let t := g.images.foldl (fun s i => s.saveImage k.ctx k.lrva i) (s.dropReadCopies g.cluster)
  t.mapImages kid gid (fun i => { i with state := .saved, groups := (t.core i.core).groups })

/-- Its Teams are away then. -/
def State.teamsAway (s : State) (kid gid : Nat) : State :=
  { s with teams := s.teams.map (fun t => if t.2.kernel = kid ∧ t.2.gang = gid then (t.1, { t.2 with away := true }) else t) }

/-- The cores of a Gang are emptied, and the rings that nothing uses. -/
def State.emptiedFor (s : State) (kid gid : Nat) (g : Gang) : State :=
  (g.images.foldl (fun s i => s.emptyCore i.core) (s.saveHeirs (kid, gid))).freeRings

theorem execImageSaveComplete_of_ready (hk : s.kernels.get? kid = some k) (hg : k.gangs.get? gid = some g)
    (hs : ∃ i ∈ g.images, i.state = .saving) (hw : s.saveWaits kid gid g = false) (hr : ∀ i ∈ g.images, s.slotReached i = true)
    (hc : s.checkedOut g.cluster = []) :
    execImageSaveComplete kid gid s = .next (((((s.savedImages kid gid k g).teamsAway kid gid).emptiedFor kid gid g).settleCtx k.ctx).due
      [.imageRestore kid gid ((s.clustersFor k.ctx).headD 0)]) := by
  have hany : g.images.any (fun i => i.state == .saving) = true := by simpa using hs
  have hall : g.images.all s.slotReached = true := by simpa using hr
  simp only [execImageSaveComplete, hk, s.gang?_of_kernel hk hg, hany, hw, hall, hc, Bool.not_true, Bool.or_false, List.isEmpty_nil,
    Bool.false_eq_true, if_false]
  rfl

theorem State.gang?_savedImages (hg : s.gang? kid gid = some g) :
    ∃ g', (s.savedImages kid gid k g).gang? kid gid = some g' ∧ ∀ i ∈ g'.images, i.state = .saved := by
  unfold State.savedImages
  extract_lets t
  have ht : ImagesStand s t := ImagesStand.trans .elsewhere (.foldl (fun _ _ => .saveImage) ..)
  refine ⟨_, State.gang?_mapImages _ ((ht.gang? kid gid).trans hg), fun i hi => ?_⟩
  obtain ⟨j, _, rfl⟩ := List.mem_map.1 hi
  rfl

theorem State.away_of_teamsAway (x : Nat × Team) (hx : x ∈ (s.teamsAway kid gid).teams) (hk : x.2.kernel = kid) (hg : x.2.gang = gid) :
    x.2.away = true := by
  obtain ⟨y, _, rfl⟩ := List.mem_map.1 hx
  split at hk <;> split at hg <;> split <;> simp_all

theorem State.emptiedFor_kernels_teams : (s.emptiedFor kid gid g).kernels = s.kernels ∧ (s.emptiedFor kid gid g).teams = s.teams := by
  obtain ⟨hk, ht⟩ := State.emptyCores_kernels_teams g.images (s.saveHeirs (kid, gid))
  exact ⟨hk, ht⟩

theorem State.bare_emptiedFor {i : Image} (hi : i ∈ g.images) : (s.emptiedFor kid gid g).Bare i.core :=
  ImagesStand.freeRings.bare (State.bare_emptyCores g.images hi _)

/-- R275: a Gang that has been written has left its cores, and its Teams are away. -/
theorem imageSaveComplete_leaves (hk : s.kernels.get? kid = some k) (hg : k.gangs.get? gid = some g)
    (hs : ∃ i ∈ g.images, i.state = .saving) (hw : s.saveWaits kid gid g = false) (hr : ∀ i ∈ g.images, s.slotReached i = true)
    (hc : s.checkedOut g.cluster = []) : ∃ t, execImageSaveComplete kid gid s = .next t ∧
      (∃ g', t.gang? kid gid = some g' ∧ ∀ i ∈ g'.images, i.state = .saved) ∧
      (∀ i ∈ g.images, (t.core i.core).kernel = none ∧ (t.core i.core).groups = []) ∧
      (∀ x ∈ t.teams, x.2.kernel = kid → x.2.gang = gid → x.2.away = true) := by
  refine ⟨_, execImageSaveComplete_of_ready hk hg hs hw hr hc, ?_⟩
  generalize hu : (s.savedImages kid gid k g).teamsAway kid gid = u
  have hend : ImagesStand (u.emptiedFor kid gid g) (((u.emptiedFor kid gid g).settleCtx k.ctx).due
      [.imageRestore kid gid ((s.clustersFor k.ctx).headD 0)]) := ImagesStand.trans .settleCtx .elsewhere
  obtain ⟨hkern, hteams⟩ := u.emptiedFor_kernels_teams (kid := kid) (gid := gid) (g := g)
  refine ⟨?_, fun i hi => hend.bare (State.bare_emptiedFor hi), fun x hx => ?_⟩
  · obtain ⟨g', hg', hsaved⟩ := State.gang?_savedImages (k := k) (s.gang?_of_kernel hk hg)
    refine ⟨g', ?_, hsaved⟩
    rw [hend.gang?, State.gang?, hkern, ← hu]
    exact hg'
  · rw [hend.teams, hteams, ← hu] at hx
    exact State.away_of_teamsAway x hx

theorem execImageRestore_of_fits {cl : Nat} (hk : s.kernels.get? kid = some k) (hg : k.gangs.get? gid = some g)
    (hs : ∃ i ∈ g.images, i.state = .saved) (hlive : (s.ctx k.ctx).state = .live) (hcl : cl ∈ s.clustersFor k.ctx)
    (hfits : ∀ x ∈ s.joined kid gid, s.fitsOn cl x = true) :
    execImageRestore kid gid cl s = .next ((s.joined kid gid).foldl (fun s x => s.takeCores cl x) s) := by
  have hany : g.images.any (fun i => i.state == .saved) = true := by simpa using hs
  have hall : (s.joined kid gid).all (s.fitsOn cl) = true := by simpa using hfits
  have hgo : ((s.ctx k.ctx).state == .live && (s.clustersFor k.ctx).contains cl && (s.joined kid gid).all (s.fitsOn cl)) = true := by
    rw [hlive, hall, List.contains_iff_mem.2 hcl]
    rfl
  simp only [execImageRestore, hk, s.gang?_of_kernel hk hg, hany, hgo, Bool.not_true, Bool.false_eq_true, if_false, if_true]

/-- What execRestoreComplete leads to once nothing keeps it waiting. -/
theorem execRestoreComplete_of_drained (hk : s.kernels.get? kid = some k) (hg : k.gangs.get? gid = some g)
    (hs : ∃ i ∈ g.images, i.state = .restoring) (hb : ∀ i ∈ g.images, (s.core i.core).board = [])
    (ho : ∀ o ∈ s.ops, o.2.q ≤ 1 → ∀ i ∈ g.images, o.2.inst ≠ i.core) (hr : ∀ i ∈ g.images, s.slotReached i = true) :
    let s1 := (g.images.foldl (fun s i => s.loadImage kid gid k i) (s.dropReadCopies g.cluster)).mapImages kid gid
      (fun i => { i with state := .resident, groups := [] })
    let s2 : State := { s1 with teams := s1.teams.map (fun t =>
      if t.2.kernel = kid ∧ t.2.gang = gid then (t.1, t.2.movedTo g.cluster) else t) }
    execRestoreComplete kid gid s = .next ((s2.moveHeirs kid gid g.cluster).mergeGang kid gid g.cluster) := by
  have hany : g.images.any (fun i => i.state == .restoring) = true := by simpa using hs
  have hnot : g.images.any (fun i => !(s.core i.core).board.isEmpty || s.ops.any (fun e => decide (e.2.q ≤ 1) && e.2.inst == i.core)
      || !s.slotReached i) = false := by
    rw [List.any_eq_false]
    intro i hi
    have hops : s.ops.any (fun e => decide (e.2.q ≤ 1) && e.2.inst == i.core) = false := by
      rw [List.any_eq_false]
      intro o hmem
      simpa using fun hq => ho o hmem hq i hi
    simp [hb i hi, hops, hr i hi]
  simp only [execRestoreComplete, hk, s.gang?_of_kernel hk hg, hany, hnot, Bool.not_true, Bool.false_eq_true, if_false]

/-! ## Debugging, the active set, YIELD -/

/-- R263: the lanes of a Halted Group that stand at the BKPT move past it, and its Chunk opens. -/
theorem debugResume_runs {x : Group} {ls : List Nat} (hx : s.group? c slot = some x) (hh : x.state = .halted ls) :
    ∃ t y, execDebugResume c slot s = .next t ∧ t.group? c slot = some y ∧ y.state = .running ∧
      y.lanes = (x.lanes.zip lanes32).map (fun z => if ls.contains z.2 then { z.1 with pc := z.1.pc + 4 } else z.1) ∧
      t = { s with cores := t.cores } := by
  let past (g : Group) : Group := { g with state := .running, lanes := (g.lanes.zip lanes32).map (fun z =>
    if ls.contains z.2 then { z.1 with pc := z.1.pc + 4 } else z.1) }
  have hrun : execDebugResume c slot s = .next ((s.modGroup c slot past).openChunk c slot) := by
    simp only [execDebugResume, hx, hh]
    rfl
  have hpast : (s.modGroup c slot past).group? c slot = some (past x) := by simp [hx]
  obtain ⟨cs, hcs⟩ := s.modGroup_only c slot past
  obtain ⟨ds, hds⟩ := (s.modGroup c slot past).openChunk_only c slot
  exact ⟨_, _, hrun, State.group?_openChunk hpast, rfl, rfl, by rw [hds, hcs]⟩

theorem execActiveSetLeave_of_rested {a : Active} {i : Nat} (ha : (s.core c).active.find? (fun a => a.slot == slot) = some a)
    (hrest : s.mayRest c slot = true) (hi : a.idle = some i) (htime : i + 64 ≤ s.clk) (hpin : a.pin ≤ s.clk) :
    execActiveSetLeave c slot s = .next (s.setCore c { s.core c with active := (s.core c).active.filter (fun a => a.slot != slot) }) := by
  simp only [execActiveSetLeave, ha, hrest, hi, htime, hpin, Bool.not_true, Bool.false_eq_true, decide_true, Bool.and_self, if_false, if_true]

/-- R329: a pin that has run out ends. -/
def Active.unpinned (clk : Nat) (a : Active) : Active := if a.pin ≤ clk then { a with pin := 0 } else a

/-- The device once the pins that have run out end on every core. -/
def State.unpinned (s : State) : State :=
  { s with cores := s.cores.map (fun e => (e.1, { e.2 with active := e.2.active.map (Active.unpinned s.clk) })) }

theorem State.active_unpinned (s : State) (c : Nat) : (s.unpinned.core c).active = (s.core c).active.map (Active.unpinned s.clk) := by
  rw [State.core_mapCores (s := s) (t := s.unpinned) (fun _ k => { k with active := k.active.map (Active.unpinned s.clk) }) rfl c rfl]

theorem activeSetPinExpiry_unpins : ∃ t, execActiveSetPinExpiry s = .next t ∧
    (∀ c, (t.core c).active = (s.core c).active.map (fun a => if a.pin ≤ s.clk then { a with pin := 0 } else a)) ∧
    t = { s with cores := t.cores, agenda := t.agenda } := by
  have h : execActiveSetPinExpiry s = .next (if s.unpinned.cores.any (fun e => e.2.active.any (fun a => decide (0 < a.pin)))
    then s.unpinned.due [.activeSetPinExpiry] else s.unpinned) := rfl
  refine ⟨_, h, ?_⟩
  split <;> exact ⟨s.active_unpinned, rfl⟩

theorem execYieldDemotionEnd_eq {x : Group} (hx : s.group? c slot = some x) :
    execYieldDemotionEnd c slot s = .next (if x.ydem = 0 then s else s.due [.yieldDemotionEnd c slot]) := by
  simp only [execYieldDemotionEnd, hx]
  split <;> rfl

end

/-- Settles O37: each event's own lemma, under the Kernel and the Gang that the statement names. -/
theorem imagesAndGroups : Obligations.ImagesAndGroups := by
  intro s kid gid k g hk hg part expired rival
  refine ⟨fun he hr => ?_, fun he hr => ?_, fun hs hw hr hc _ => imageSaveComplete_leaves hk hg hs hw hr hc,
    fun hs hw => execImageSaveComplete_of_waits hk hg hs hw,
    fun cl hs hlive hcl hfits => execImageRestore_of_fits hk hg hs hlive hcl hfits,
    fun hs hb ho hr => execRestoreComplete_of_drained hk hg hs hb ho hr,
    fun c slot x ls hx hh => debugResume_runs hx hh,
    fun c slot a i ha hrest hi htime hpin => execActiveSetLeave_of_rested ha hrest hi htime hpin,
    activeSetPinExpiry_unpins,
    fun c slot x hx => execYieldDemotionEnd_eq hx⟩
  · refine (execQuantumExpiry_of_expired hk hg he).trans ?_
    rw [if_pos (State.hasRival_iff.2 hr)]
  · refine (execQuantumExpiry_of_expired hk hg he).trans ?_
    rw [if_neg (fun h => hr (State.hasRival_iff.1 h))]

end Sys2Proof.Machine
end

section
/-! LEMMAS. Loads return, landings and MMAs: what a register write, a ring slot and a store of a landing leave of the rest. -/
set_option Elab.async false

namespace Sys2Proof.Machine

/-! ## One bit of a number -/

theorem bitAt_eq_testBit (x i : Nat) : bitAt x i = x.testBit i := by
  rw [bitAt, Nat.testBit_eq_decide_div_mod_eq, beq_eq_decide]

/-- Above a clear bit, adding its power carries nothing. -/
theorem add_two_pow_div_two_pow_succ {x i : Nat} (h : bitAt x i = false) : (x + 2 ^ i) / 2 ^ (i + 1) = x / 2 ^ (i + 1) := by
  have heven : x / 2 ^ i % 2 ≠ 1 := by simpa [bitAt] using h
  rw [Nat.pow_succ, ← Nat.div_div_eq_div_mul, ← Nat.div_div_eq_div_mul, Nat.add_div_right _ (Nat.two_pow_pos i)]
  omega

theorem bitAt_add_two_pow {x i : Nat} (h : bitAt x i = false) (j : Nat) : bitAt (x + 2 ^ i) j = if j = i then true else bitAt x j := by
  rcases Nat.lt_trichotomy j i with hj | rfl | hj
  · rw [if_neg (by omega), bitAt_eq_testBit, bitAt_eq_testBit, Nat.add_comm, Nat.testBit_two_pow_add_gt hj]
  · rw [if_pos rfl, bitAt_eq_testBit, Nat.add_comm, Nat.testBit_two_pow_add_eq, ← bitAt_eq_testBit, h, Bool.not_false]
  · obtain ⟨k, rfl⟩ : ∃ k, j = i + 1 + k := ⟨j - (i + 1), by omega⟩
    rw [if_neg (by omega), bitAt, bitAt, Nat.pow_add, ← Nat.div_div_eq_div_mul, ← Nat.div_div_eq_div_mul, add_two_pow_div_two_pow_succ h]

theorem bitAt_sub_two_pow {x i : Nat} (h : bitAt x i = true) (j : Nat) : bitAt (x - 2 ^ i) j = if j = i then false else bitAt x j := by
  obtain ⟨y, rfl⟩ : ∃ y, x = 2 ^ i + y := Nat.exists_eq_add_of_le (Nat.ge_two_pow_of_testBit (bitAt_eq_testBit x i ▸ h))
  have hy : bitAt y i = false := by
    rw [bitAt_eq_testBit, Nat.testBit_two_pow_add_eq, ← bitAt_eq_testBit] at h
    simpa using h
  rw [Nat.add_sub_cancel_left, Nat.add_comm, bitAt_add_two_pow hy]
  split
  · next hj => rw [hj, hy]
  · rfl

/-- A number with one bit set or cleared. -/
def withBit (x i : Nat) (v : Bool) : Nat := if bitAt x i = v then x else if v then x + 2 ^ i else x - 2 ^ i

theorem bitAt_withBit (x i : Nat) (v : Bool) (j : Nat) : bitAt (withBit x i v) j = if j = i then v else bitAt x j := by
  unfold withBit
  by_cases h : bitAt x i = v
  · rw [if_pos h]
    split
    · next hj => rw [hj, h]
    · rfl
  · rw [if_neg h]
    cases v with
    | true => exact bitAt_add_two_pow (by simpa using h) j
    | false => exact bitAt_sub_two_pow (by simpa using h) j

/-! ## Rings (R253) -/

theorem Ring.setSlot_eq (r : Ring) (slot : Nat) (full : Bool) : r.setSlot slot full =
    if full then { r with ph := withBit r.ph slot (!bitAt r.cph slot) } else { r with cph := withBit r.cph slot (bitAt r.ph slot) } := rfl

/-- The slot becomes full or empty, and no other changes. -/
theorem Ring.full_setSlot (r : Ring) (slot : Nat) (full : Bool) (j : Nat) :
    (r.setSlot slot full).full j = if j = slot then full else r.full j := by
  rw [Ring.setSlot_eq]
  cases full with
  | true =>
    simp only [if_true, Ring.full, bitAt_withBit]
    split
    · next h => subst h; cases bitAt r.cph j <;> rfl
    · rfl
  | false =>
    simp only [Bool.false_eq_true, if_false, Ring.full, bitAt_withBit]
    split
    · next h => subst h; cases bitAt r.ph j <;> rfl
    · rfl

/-- One ring of a core gets a slot full or empty. -/
def State.setRingSlot (s : State) (core r slot : Nat) (full : Bool) : State :=
  let k := s.core core
  s.setCore core { k with rings := k.rings.set r ((k.ring r).setSlot slot full) }

theorem State.full_setRingSlot (s : State) (core r slot : Nat) (full : Bool) (j : Nat) :
    (((s.setRingSlot core r slot full).core core).ring r).full j = if j = slot then full else ((s.core core).ring r).full j := by
  unfold State.setRingSlot
  rw [State.core_setCore_self, Core.ring, Tab.getD_set_self, Ring.full_setSlot]

/-! ## Writes of the pool -/

section
variable {s : State} {c slot : Nat}

theorem State.group?_foldl_poolPut (ws : List (Nat × List Byte)) : ∀ s : State,
    (ws.foldl (fun s w => s.poolPut c w.1 w.2) s).group? c slot = s.group? c slot := by
  induction ws with
  | nil => exact fun _ => rfl
  | cons w ws ih => exact fun s => (ih _).trans State.group?_poolPut

theorem State.foldl_poolPut_only (ws : List (Nat × List Byte)) : ∀ s : State,
    ∃ cs, ws.foldl (fun s w => s.poolPut c w.1 w.2) s = { s with cores := cs } := by
  induction ws with
  | nil => exact fun s => ⟨s.cores, rfl⟩
  | cons w ws ih =>
    intro s
    obtain ⟨cs, h⟩ := ih (s.poolPut c w.1 w.2)
    exact ⟨cs, h⟩

/-! ## LOAD_RETURN (R130, R197) -/

/-- The device without the oldest long-latency word of a Group, its latency sampled. -/
def State.returned (s : State) (c slot : Nat) (p : Pend) (r : List Pend) : State :=
  (s.modGroup c slot (fun g => { g with pend := r })).sampled 1 p.chans (s.clk - p.since : Nat)

theorem execLoadReturn_of_pend {g : Group} {p : Pend} {r : List Pend} (hg : s.group? c slot = some g) (hp : g.pend = p :: r) :
    execLoadReturn c slot s = if s.crossing (loadTag c slot) then .next (s.due [.loadReturn c slot])
      else if p.uce then .next ((s.returned c slot p r).consumeUCE c slot p.pc)
      else .next (p.writes.foldl (fun s w => s.poolPut c w.1 w.2) (s.returned c slot p r)) := by
  simp only [execLoadReturn, hg, hp]
  rfl

theorem State.returned_eq (s : State) (c slot : Nat) (p : Pend) (r : List Pend) : s.returned c slot p r =
    { s with cores := (s.modGroup c slot (fun g => { g with pend := r })).cores,
             captures := (s.sampled 1 p.chans (s.clk - p.since : Nat)).captures } := by
  obtain ⟨cs, h⟩ := s.modGroup_only c slot (fun g => { g with pend := r })
  unfold State.returned
  rw [h]
  rfl

/-- A load that returns writes its registers, and nothing else of the device changes but the samples. -/
theorem loadReturn_writes {g : Group} {p : Pend} {r : List Pend} (hg : s.group? c slot = some g) :
    let t := p.writes.foldl (fun s w => s.poolPut c w.1 w.2) (s.returned c slot p r)
    t.group? c slot = some { g with pend := r } ∧
      (t.core c).pool = p.writes.foldl (fun m w => m.put w.1 w.2) (s.core c).pool ∧
      (∀ k, k ≠ c → t.core k = s.core k) ∧
      t = { s with cores := t.cores, captures := (s.sampled 1 p.chans (s.clk - p.since : Nat)).captures } := by
  intro t
  have hcores : (s.returned c slot p r).cores = (s.modGroup c slot (fun g => { g with pend := r })).cores := rfl
  have hmod := (CoreOnly.refl c slot s).modGroup (fun g => { g with pend := r })
  have hput := CoreOnly.foldl_raw p.writes (CoreOnly.refl c slot (s.returned c slot p r))
  have hpool : ((s.returned c slot p r).core c).pool = (s.core c).pool := by
    rw [State.core_congr hcores, hmod.core]
  refine ⟨?_, ?_, fun k hk => ?_, ?_⟩
  · rw [State.group?_foldl_poolPut, State.group?_congr hcores, State.group?_modGroup_self, hg]
    rfl
  · rw [hput.core, ← hpool]
  · rw [hput.others k hk, State.core_congr hcores, hmod.others k hk]
  · obtain ⟨cs, h⟩ := State.foldl_poolPut_only (c := c) p.writes (s.returned c slot p r)
    have ht : t = _ := h.trans (congrArg (fun u : State => { u with cores := cs }) (s.returned_eq c slot p r))
    rw [ht]

/-! ## Landings (R204, R215, R253, R333) -/

variable {id : Nat} {l : Landing}

theorem execStwLanding_eq {core a : Nat} {bytes : List Byte} (hl : s.landings.get? id = some l) (ha : l.act = .stw core a bytes) :
    execStwLanding id s = if s.landingWaits id l false || s.boardHits core a bytes.length then .next (s.due [.stwLanding id])
      else .next ((s.endLanding id).poolPut core a bytes) := by
  simp only [execStwLanding, hl, ha]

/-- A Team at whose home core a landing ends holds the block of an address. -/
def State.kBlockAt (s : State) (l : Landing) (a : Nat) : Bool :=
  s.teams.any (fun e => !e.2.away && e.2.home == l.target && decide (e.2.block ≤ a) && decide (a < e.2.block + 64))

theorem execKWrite_of_first {a v : Nat} (hl : s.landings.get? id = some l) (ha : l.act = .kwrite a v) (hw : s.landingWaits id l false = false) :
    execKWrite id s = .next (if s.kBlockAt l a then (s.endLanding id).poolPut32 l.target a v else s.endLanding id) := by
  simp only [execKWrite, hl, ha, hw, Bool.false_eq_true, if_false]
  rfl

/-- One register of an RWR enters the pool, and the undo entry of its sector (R215). -/
def State.rwrPut (s : State) (core slot rb d : Nat) (x : Nat × Nat) : State :=
  (s.poolPut32 core (vAddr rb d x.1) x.2).modGroup core slot (fun g =>
    { g with chunk := { g.chunk with undo := undoPatch core (vAddr rb d x.1) (toBytes 4 x.2) g.chunk.undo } })

/-- An arrival is counted. -/
def Group.arrived (ctr : Nat) (g : Group) : Group := { g with arrival := g.arrival.set ctr ((g.arrival.getD ctr 0 + 1) % 2 ^ 32) }

theorem execRwrLanding_of_group {core slot uid d ctr : Nat} {vals : List (Nat × Nat)} {g : Group} (hl : s.landings.get? id = some l)
    (ha : l.act = .rwr core slot uid d ctr vals) (hw : s.landingWaits id l true = false) (hg : s.group? core slot = some g) :
    execRwrLanding id s = if g.uid ≠ uid then .next (s.endLanding id)
      else .next ((vals.foldl (fun u x => u.rwrPut core slot (regBase (s.launchAt core) slot) d x) (s.endLanding id)).modGroup core slot
        (Group.arrived ctr)) := by
  have hg' : (s.endLanding id).group? core slot = some g := hg
  have hlaunch : (s.endLanding id).launchAt core = s.launchAt core := State.launchAt_congr rfl rfl
  simp only [execRwrLanding, hl, ha, hw, hg', hlaunch, Bool.false_eq_true, if_false]
  split <;> rfl

theorem State.rwrPuts_core {core slot rb d : Nat} (vals : List (Nat × Nat)) : ∀ {t : State} {p : Memory}, CoreOnly core slot s t p →
    CoreOnly core slot s (vals.foldl (fun s x => s.rwrPut core slot rb d x) t) (vals.foldl (fun m x => m.put (vAddr rb d x.1) (toBytes 4 x.2)) p) := by
  induction vals with
  | nil => exact id
  | cons x xs ih => exact fun h => ih ((h.poolPut _ _).modGroup _)

theorem State.rwrPuts_arrival {core slot rb d : Nat} (vals : List (Nat × Nat)) : ∀ {s : State} {g : Group}, s.group? core slot = some g →
    ∃ g', (vals.foldl (fun s x => s.rwrPut core slot rb d x) s).group? core slot = some g' ∧ g'.arrival = g.arrival := by
  induction vals with
  | nil => exact fun h => ⟨_, h, rfl⟩
  | cons x xs ih =>
    intro s g h
    have hx : (s.rwrPut core slot rb d x).group? core slot = some { g with chunk := { g.chunk with
        undo := undoPatch core (vAddr rb d x.1) (toBytes 4 x.2) g.chunk.undo } } := by
      simp [State.rwrPut, State.poolPut32, h]
    obtain ⟨g', hg', harr⟩ := ih hx
    exact ⟨g', hg', harr⟩

/-- R215: the registers of an RWR and its one arrival. -/
theorem rwrLanding_lands {core slot uid d ctr : Nat} {vals : List (Nat × Nat)} {g : Group} (hl : s.landings.get? id = some l)
    (ha : l.act = .rwr core slot uid d ctr vals) (hw : s.landingWaits id l true = false) (hg : s.group? core slot = some g)
    (hu : g.uid = uid) : ∃ t g', execRwrLanding id s = .next t ∧ t.group? core slot = some g' ∧
      g'.arrival = g.arrival.set ctr ((g.arrival.getD ctr 0 + 1) % 2 ^ 32) ∧
      (t.core core).pool = vals.foldl (fun m x => m.put (vAddr (regBase (s.launchAt core) slot) d x.1) (toBytes 4 x.2)) (s.core core).pool := by
  have hrun := execRwrLanding_of_group hl ha hw hg
  rw [if_neg (not_not.2 hu)] at hrun
  obtain ⟨g', hg', harr⟩ := State.rwrPuts_arrival (rb := regBase (s.launchAt core) slot) (d := d) vals (s := s.endLanding id) hg
  have hcore := (State.rwrPuts_core (rb := regBase (s.launchAt core) slot) (d := d) vals (CoreOnly.refl core slot (s.endLanding id))).modGroup
    (Group.arrived ctr)
  refine ⟨_, g'.arrived ctr, hrun, ?_, ?_, ?_⟩
  · rw [State.group?_modGroup_self, hg']
    rfl
  · rw [Group.arrived, harr]
  · rw [hcore.core]
    rfl

/-! ## Rings -/

/-- The copies that a core pushed before an effect left it ask for their ranges (R334). -/
def State.boarded (s : State) (id : Nat) (l : Landing) : State :=
  (s.unboarded id l.core).foldl (fun s e => s.register e.1 l.core (landingRows e.2.cmd)) s

theorem execRingAtCommit_of_ringp {core r slot : Nat} (hl : s.landings.get? id = some l) (ha : l.act = .ringp core r slot)
    (hw : s.landingWaits id l true = false) : execRingAtCommit id s =
      if !((s.boarded id l).unboarded id l.core).isEmpty then .next ((s.boarded id l).due [.ringAtCommit id])
      else .next (((s.boarded id l).endLanding id).setRingSlot core r slot true) := by
  simp only [execRingAtCommit, hl, ha, hw, Bool.false_eq_true, if_false]
  rfl

theorem execRingAtCommit_of_ringrel {core r slot : Nat} (hl : s.landings.get? id = some l) (ha : l.act = .ringrel core r slot)
    (hw : s.landingWaits id l true = false) : execRingAtCommit id s = .next ((s.endLanding id).setRingSlot core r slot false) := by
  simp only [execRingAtCommit, hl, ha, hw, Bool.false_eq_true, if_false]
  rfl

/-- A publication of a core that has no copy left to board, and a release, set their slot. -/
theorem execRingAtCommit_of_after {core r slot : Nat} {full : Bool} (hl : s.landings.get? id = some l)
    (ha : l.act = if full then .ringp core r slot else .ringrel core r slot) (hw : s.landingWaits id l true = false)
    (hb : full = true → s.unboarded id l.core = []) : execRingAtCommit id s = .next ((s.endLanding id).setRingSlot core r slot full) := by
  cases full with
  | true =>
    have hboarded : s.boarded id l = s := by rw [State.boarded, hb rfl, List.foldl_nil]
    rw [execRingAtCommit_of_ringp hl ha hw, hboarded, hb rfl]
    rfl
  | false => exact execRingAtCommit_of_ringrel hl ha hw

/-! ## MMAs (R227, R229, R241) -/

variable {m : MmaOp} {rest : List MmaOp}

/-- An MMA before which no tile's order holds a place. -/
theorem noPlaceBefore {k : Core} (hp : ∀ p ∈ k.places, p.tile = m.tile → p.before ≠ 0) :
    k.places.any (fun p => p.tile == m.tile && p.before == 0) = false := by
  rw [List.any_eq_false]
  intro p hmem
  simpa using hp p hmem

/-- Without a mismatch, or without a residue to judge, the first MMA retires. -/
theorem execMmaRetire_retires (ho : (s.core c).order = m :: rest) (hp : ∀ p ∈ (s.core c).places, p.tile = m.tile → p.before ≠ 0)
    {mismatch : Bool} (hm : (mismatch && mmaHasResidue m) = false) : execMmaRetire c mismatch s = .next (s.retireMma c m) := by
  simp only [execMmaRetire, ho, noPlaceBefore hp, hm, Bool.false_eq_true, if_false]

theorem execMmaRetire_squashes (ho : (s.core c).order = m :: rest) (hp : ∀ p ∈ (s.core c).places, p.tile = m.tile → p.before ≠ 0)
    (hm : mmaHasResidue m = true) (hf : m.follow = none) : execMmaRetire c true s = .next (s.mismatchAt c m.owner.1 m.pc 512) := by
  simp only [execMmaRetire, ho, noPlaceBefore hp, hm, hf, Bool.and_self, Bool.false_eq_true, if_false, if_true]

theorem execMmaRetire_again {op : Nat} (ho : (s.core c).order = m :: rest)
    (hp : ∀ p ∈ (s.core c).places, p.tile = m.tile → p.before ≠ 0) (hm : mmaHasResidue m = true) (hf : m.follow = some op)
    (hr : m.retries = 0) : execMmaRetire c true s =
      .next (((s.addScore c 512).setCore c { (s.addScore c 512).core c with order := { m with retries := 1 } :: rest }).due [.mmaRetire c false]) := by
  simp only [execMmaRetire, ho, noPlaceBefore hp, hm, hf, hr, Bool.and_self, Bool.false_eq_true, if_false, if_true]

end

/-! ## The statement's three parts -/

/-- R130, R197: the oldest long-latency word of a Group waits, raises UCE, or writes its registers. -/
theorem loadReturns (s : State) (c slot : Nat) (g : Group) (p : Pend) (r : List Pend) (hg : s.group? c slot = some g) (hp : g.pend = p :: r) :
    let s1 := (s.modGroup c slot (fun g => { g with pend := r })).sampled 1 p.chans (s.clk - p.since : Nat)
    let away : Bool := s.crossing (loadTag c slot)
    (away = true → exec (.loadReturn c slot) s = .next (s.due [.loadReturn c slot])) ∧
    (away = false → p.uce = true → exec (.loadReturn c slot) s = .next (s1.consumeUCE c slot p.pc)) ∧
    (away = false → p.uce = false → ∃ t, exec (.loadReturn c slot) s = .next t ∧
      t.group? c slot = some { g with pend := r } ∧
      (t.core c).pool = p.writes.foldl (fun m w => m.put w.1 w.2) (s.core c).pool ∧
      (∀ k, k ≠ c → t.core k = s.core k) ∧
      t = { s with cores := t.cores, captures := (s.sampled 1 p.chans (s.clk - p.since : Nat)).captures }) := by
  intro s1 away
  have hrun := execLoadReturn_of_pend hg hp
  refine ⟨fun ha => hrun.trans (if_pos ha), fun ha hu => ?_, fun ha hu => ⟨_, ?_, loadReturn_writes hg⟩⟩
  · exact hrun.trans ((if_neg (by simpa using ha)).trans (if_pos hu))
  · exact hrun.trans ((if_neg (by simpa using ha)).trans (if_neg (by simp [hu])))

/-- Settles O26: loads by loadReturns, each landing and each outcome of MMA_RETIRE by its own lemma. -/
theorem returnsAndLandings : Obligations.ReturnsAndLandings := by
  refine ⟨loadReturns, fun s id l hl => ?_, fun s c m rest ho hp => ?_⟩
  · intro s1 first after
    refine ⟨fun core a bytes ha => ⟨fun hf hb => ?_, fun hb => ?_⟩, fun core slot uid d ctr vals g ha hw hg => ⟨fun hu => ?_, fun hu => ?_⟩,
      fun a v ha hf => ⟨fun hk => ?_, fun hk => ?_⟩, fun core r slot ha hw => ?_, fun core r slot full ha hw hb => ?_⟩
    · exact (execStwLanding_eq hl ha).trans (if_neg (by simp [show s.landingWaits id l false = false from hf, hb]))
    · exact (execStwLanding_eq hl ha).trans (if_pos (by simp [hb]))
    · exact (execRwrLanding_of_group hl ha hw hg).trans (if_pos hu)
    · exact rwrLanding_lands hl ha hw hg hu
    · exact (execKWrite_of_first hl ha hf).trans (congrArg Host.Outcome.next (if_pos hk))
    · exact (execKWrite_of_first hl ha hf).trans (congrArg Host.Outcome.next (if_neg (ne_true_of_eq_false hk)))
    · intro s2 hs
      have hleft : (s.boarded id l).unboarded id l.core ≠ [] := hs
      exact (execRingAtCommit_of_ringp hl ha hw).trans (if_pos (by simpa using hleft))
    · refine ⟨_, execRingAtCommit_of_after hl ha hw hb, ?_, fun j hj => ?_, rfl⟩
      · rw [State.full_setRingSlot, if_pos rfl]
      · rw [State.full_setRingSlot, if_neg hj]
        rfl
  · exact ⟨execMmaRetire_retires ho hp (Bool.false_and _), fun hm => execMmaRetire_retires ho hp (by rw [hm]; rfl),
      execMmaRetire_squashes ho hp, fun op hm hf hr => execMmaRetire_again ho hp hm hf hr⟩

end Sys2Proof.Machine
end

section
/-! LEMMAS. Integer, move and scalar words (R150 to R162): a word whose body is one result writes it, and nothing else. -/
set_option Elab.async false

namespace Sys2Proof.Machine

/-! ## Words whose body is their result -/

section
variable {i : Instr} {dsc : Desc} {w : Bool} {d : Nat}

/-- A word whose body is a vector result writes it. -/
theorem writesV_of_issueWord {f : Issue → State → Nat → Nat}
    (h : ∀ s, exec i s = issueWord dsc (fun is s => .go (is.vResult w d (f is s))) s) : WritesV i dsc always w d f :=
  writesV_of_performs (performs_of_issueWord h fun _ _ _ => rfl)

/-- A word whose body is a mask result writes it. -/
theorem writesM_of_issueWord {f : Issue → State → Nat → Bool}
    (h : ∀ s, exec i s = issueWord dsc (fun is s => .go (is.mResult s d (f is s))) s) : WritesM i dsc always d f :=
  writesM_of_performs (performs_of_issueWord h fun _ _ _ => rfl)

/-- A word whose body is an s result writes it. -/
theorem writesS_of_issueWord {f : Issue → State → Nat}
    (h : ∀ s, exec i s = issueWord dsc (fun is s => .go (is.sResult d (f is s))) s) : WritesS i dsc always d f :=
  writesS_of_performs (performs_of_issueWord h fun _ _ _ => rfl)

end

/-- Settles O1: each word is `intTwo` or `intOne` with its operation, whose body is the operation's result in every active lane; the quotients and
remainders are `idivValue` and `iremValue`, branch by branch. -/
theorem integerWords : Obligations.IntegerWords := by
  refine ⟨fun w t d a b => ?_, fun w t d a => ?_, fun w t d a b => ?_⟩
  all_goals and_intros <;> exact writesV_of_issueWord fun _ => rfl

/-- Settles O2: each word is `intTwo` or `intCtl` with its operation; ISET alone has a mask result. -/
theorem logicShiftsAndBits : Obligations.LogicShiftsAndBits := by
  intro w t c d a b
  refine ⟨?_, ?_, ?_, ?_, ?_, ?_, ?_, ?_, ?_, ?_, writesM_of_issueWord fun _ => rfl⟩
  all_goals exact writesV_of_issueWord fun _ => rfl

/-! ## MOVS and the scalar words -/

section
variable {i : Instr} {vd va : List Opnd} {mdst : Option Nat} {closes : Bool} {body : Issue → State → Eff} {other : Eff}

/-- R159: MOVS with an active lane. -/
theorem performs_movs (hx : ∀ s, exec i s = movsWord vd va mdst closes body other s) :
    Performs i { vd := vd, va := va, mdst := mdst, closes := closes } (fun is _ => is.active ≠ []) body :=
  performs_of_issueWord hx fun _ _ h => congrArg Verdict.go (if_neg (by simpa using h))

/-- R159: MOVS without one. -/
theorem performs_movs_empty (hx : ∀ s, exec i s = movsWord vd va mdst closes body other s) :
    Performs i { vd := vd, va := va, mdst := mdst, closes := closes } (fun is _ => is.active = []) (fun _ _ => other) :=
  performs_of_issueWord hx fun _ _ h => congrArg Verdict.go (if_pos (by simpa using h))

end

/-- Settles O3: MOVS by whether a lane is active; SEL, LEA and the scalar words by their results. -/
theorem moveAndScalarWords : Obligations.MoveAndScalarWords := by
  refine ⟨fun w t c d a b => ?_, fun c d a b => ?_⟩
  · have hsv (s : State) : exec (.movsSV d a) s = execMovsSV d a s := rfl
    have hsk (s : State) : exec (.movsSK d a) s = execMovsSK d a s := rfl
    have hsm (s : State) : exec (.movsSM d a) s = execMovsSM d a s := rfl
    have hms (s : State) : exec (.movsMS d a) s = execMovsMS d a s := rfl
    have hks (s : State) : exec (.movsKS d a) s = execMovsKS d a s := rfl
    exact ⟨writesV_of_issueWord fun _ => rfl, writesV_of_issueWord fun _ => rfl,
      writesS_of_performs (performs_movs hsv), writesS_of_performs (performs_movs hsk), writesS_of_performs (performs_movs hsm),
      performs_movs hms, performs_movs hks, performs_movs_empty hsv, performs_movs_empty hsk, performs_movs_empty hsm,
      performs_movs_empty hms, performs_movs_empty hks⟩
  · refine ⟨?_, ?_, ?_, ?_, ?_, ?_, ?_, ?_, ?_, ?_, ?_, performs_of_issueWord (fun _ => rfl) fun _ _ _ => rfl⟩
    all_goals exact writesS_of_issueWord fun _ => rfl

end Sys2Proof.Machine
end

section
/-! LEMMAS. Float, cross-lane and conversion words (R163 to R182): each answers FPE or its result, and those that read a slot judge it first (R56). -/
set_option Elab.async false

namespace Sys2Proof.Machine

/-! ## Float words -/

/-- R45: what a word does whose lanes may have met conditions: FPE with their value, else its effect. -/
def fpeOr (v : Option Nat) (e : Eff) : Verdict :=
  match v with
  | some x => .trap causeFPE x
  | none => .go e

section
variable {i : Instr} {dsc : Desc} {v : Issue → State → Option Nat} {e : Issue → State → Eff}

/-- It completes where no lane met an enabled condition, and traps FPE where one did. -/
theorem performs_or_traps_fpe (hx : ∀ s, exec i s = issueWord dsc (fun is s => fpeOr (v is s) (e is s)) s) :
    Performs i dsc (fun is s => v is s = none) e ∧
      Traps i dsc (fun is s => v is s ≠ none) causeFPE (fun is s => (v is s).getD 0) := by
  refine ⟨performs_of_issueWord hx fun is s h => ?_, traps_of_issueWord hx fun is s h => ?_⟩
  · rw [h]
    rfl
  · obtain ⟨x, hv⟩ := Option.ne_none_iff_exists'.mp h
    rw [hv]
    rfl

theorem writesV_or_traps_fpe {w : Bool} {d : Nat} {f : Issue → State → Nat → Nat}
    (hx : ∀ s, exec i s = issueWord dsc (fun is s => fpeOr (v is s) (is.vResult w d (f is s))) s) :
    WritesV i dsc (fun is s => v is s = none) w d f ∧
      Traps i dsc (fun is s => v is s ≠ none) causeFPE (fun is s => (v is s).getD 0) :=
  (performs_or_traps_fpe hx).imp_left writesV_of_performs

theorem writesM_or_traps_fpe {d : Nat} {f : Issue → State → Nat → Bool}
    (hx : ∀ s, exec i s = issueWord dsc (fun is s => fpeOr (v is s) (is.mResult s d (f is s))) s) :
    WritesM i dsc (fun is s => v is s = none) d f ∧
      Traps i dsc (fun is s => v is s ≠ none) causeFPE (fun is s => (v is s).getD 0) :=
  (performs_or_traps_fpe hx).imp_left writesM_of_performs

end

/-- Settles O4: every word is the float verdict on its lanes' results, and FSET, whose result is a mask, the choice between FPE and its effect. -/
theorem floatWords : Obligations.FloatWords := by
  refine ⟨fun t c d a b => ⟨?_, ?_, ?_, ?_, ?_, ?_, ?_, writesM_or_traps_fpe fun _ => rfl⟩,
    fun t d a => ⟨?_, ?_, ?_, ?_, ?_, ?_, ?_, ?_⟩⟩
  all_goals exact floatV_of_issueWord fun _ => rfl

/-! ## Cross-lane words -/

/-- R180: REDL is the tree of each tile, under FPE. -/
theorem execRedl_eq (o : RedOp) (t : Bool) (d a : Nat) (s : State) :
    execRedl o t d a s = issueWord { descOne false t d a false with rm := redIsFloat o, mirror := false } (fun is s =>
      fpeOr (fpeVal is.l.fpen (redlConds o is.rm (is.tile s) is.active (is.srcA s true false t a)))
        (is.vResult false d (redlValue o is.rm (is.tile s) is.active (is.srcA s true false t a)))) s := by
  refine congrArg (issueWord _ · s) (funext₂ fun is s => ?_)
  dsimp only
  generalize fpeVal _ _ = v
  cases v <;> rfl

/-- A lane's result of SCANL. -/
def scanlRes (o : RedOp) (t : Bool) (a : Nat) (is : Issue) (s : State) (l : Nat) : FRes :=
  ((scanAll o is.rm (is.tile s) is.active (is.srcA s true false t a)).getD l none).getD { bits := 0 }

/-- R181: SCANL is the scan of each tile, under FPE. -/
theorem execScanl_eq (o : RedOp) (t : Bool) (d a : Nat) (s : State) :
    execScanl o t d a s = issueWord { descOne false t d a false with rm := redIsFloat o, mirror := false } (fun is s =>
      fpeOr (fpeVal is.l.fpen (lanes32.map (fun l => (l, condsBits (scanlRes o t a is s l).conds))))
        (is.vResult false d (fun l => (scanlRes o t a is s l).bits))) s := by
  refine congrArg (issueWord _ · s) (funext₂ fun is s => ?_)
  unfold scanlRes
  dsimp only
  generalize fpeVal _ _ = v
  cases v <;> rfl

section
variable {d a c : Nat}

/-- R179: VOTE.bal writes its bits to one s register, where a lane is active. -/
theorem execVote_bal (s : State) : exec (.vote .bal d a) s = issueWord { vd := opS d false, va := opM a } (fun is s =>
    .go (if is.active.isEmpty then {} else is.sResult d (is.mRd s a &&& maskOf is.active))) s := rfl

/-- R179: the other modes write a mask. -/
theorem writesM_vote {v : VoteMode} (hv : v ≠ .bal) : WritesM (.vote v d a) { vd := opM d, va := opM a, mdst := some d } always d
    (fun is s l => voteHolds v ((is.tileActive (is.tile s) l).map (bitAt (is.mRd s a)))) := by
  cases v with
  | bal => exact absurd rfl hv
  | any => exact writesM_of_issueWord fun _ => rfl
  | all => exact writesM_of_issueWord fun _ => rfl
  | eq => exact writesM_of_issueWord fun _ => rfl

/-- R182: an LPART of a code that names a tile size. -/
theorem performs_lpart (hc : c ∈ [1, 2, 3, 4, 5]) :
    Performs (.lpart c) {} always (fun is _ => if is.active.isEmpty then {} else { raw := [(is.rb + offLpart, toBytes 4 c)] }) :=
  have hx (s : State) : exec (.lpart c) s = execLpart c s := rfl
  performs_of_issueWord hx fun _ _ _ => if_neg (by fin_cases hc <;> decide)

/-- R182: one of another code. -/
theorem traps_lpart (hc : c ∈ [0, 6, 7]) : Traps (.lpart c) {} always causeILL (fun _ _ => illVal .code) :=
  have hx (s : State) : exec (.lpart c) s = execLpart c s := rfl
  traps_of_issueWord hx fun _ _ _ => if_pos (by fin_cases hc <;> decide)

end

/-- Under a condition that decides its effect, a word performs that one. -/
theorem Performs.congr {i : Instr} {dsc : Desc} {c c' : Issue → State → Prop} {e e' : Issue → State → Eff} (h : Performs i dsc c e)
    (hc : ∀ is s, c' is s → c is s ∧ e is s = e' is s) : Performs i dsc c' e' := fun s is hi h' hroom => by
  obtain ⟨hcond, he⟩ := hc is s h'
  rw [← he] at hroom ⊢
  exact h s is hi hcond hroom

/-- Settles O8: REDL and SCANL by their equations; VOTE by its mode, LPART by its code, and both by whether a lane is active. -/
theorem crossLaneWords : Obligations.CrossLaneWords := by
  intro t cm m v o d a b c dr src scan scanFpe redFpe
  obtain ⟨hredl, hredlTrap⟩ := writesV_or_traps_fpe (i := .redl o t d a) (execRedl_eq o t d a)
  obtain ⟨hscanl, hscanlTrap⟩ := writesV_or_traps_fpe (i := .scanl o t d a) (execScanl_eq o t d a)
  refine ⟨writesV_of_issueWord fun _ => rfl, performs_of_issueWord (fun _ => rfl) fun _ _ _ => rfl, writesM_vote,
    writesS_of_performs (performs_of_issueWord execVote_bal fun _ _ h => ?_), hredl, hredlTrap, hscanl, hscanlTrap,
    performs_of_issueWord execVote_bal fun _ _ h => ?_, fun hc => (performs_lpart hc).congr fun _ _ h => ?_,
    fun hc => (performs_lpart hc).congr fun _ _ h => ?_, traps_lpart⟩
  · exact congrArg Verdict.go (if_neg (by simpa using h))
  · exact congrArg Verdict.go (if_pos (by simpa using h))
  · exact ⟨trivial, if_pos (by simpa using h)⟩
  · exact ⟨trivial, if_neg (by simpa using h)⟩

/-! ## Conversions -/

section
variable {s : State} {is : Issue} {dsc : Desc} {slot : Nat}

/-- R172, R173: the slot of a plane word is the one of the Kernel that issues it. -/
theorem planeWord_eq (hi : Issues dsc s is) (desc : Slot → Desc) (body : Slot → Issue → State → Eff) :
    planeWord slot desc body s = issueWord (desc (is.l.slot slot)) (fun i s =>
      if slotBad (is.l.slot slot) [0] then .trap causeILL (slotVal slot) else .go (body (is.l.slot slot) i s)) s := by
  have hl : is.l = s.launchAt is.core := congrArg Issue.l hi.issue
  unfold planeWord
  rw [hi.cur, hl]

end

section
variable {i : Instr} {slot : Nat} {sl : Slot} {desc : Slot → Desc} {body : Slot → Issue → State → Eff}

/-- R56, R172, R173: a plane word on a slot of its kind. -/
theorem performs_planeWord (hx : ∀ s, exec i s = planeWord slot desc body s) :
    Performs i (desc sl) (fun is _ => is.l.slot slot = sl ∧ slotBad sl [0] = false) (body sl) := fun s is hi hc hroom => by
  obtain ⟨rfl, hgood⟩ := hc
  rw [hx, planeWord_eq hi]
  exact issueWord_go hi (if_neg (by simp [hgood])) hroom

/-- R56: on a slot of another kind. -/
theorem traps_planeWord (hx : ∀ s, exec i s = planeWord slot desc body s) :
    Traps i (desc sl) (fun is _ => is.l.slot slot = sl ∧ slotBad sl [0] = true) causeILL (fun _ _ => slotVal slot) := fun s is hi hc => by
  obtain ⟨rfl, hbad⟩ := hc
  rw [hx, planeWord_eq hi]
  exact issueWord_trap hi (if_pos hbad)

end

section
variable {i : Instr} {t : Bool} {d a slot : Nat} {f : Nat → Nat}

/-- R174, R175: a scale word on a slot of its kind, with scale codes. -/
theorem writesV_scaleWord (hx : ∀ s, exec i s = scaleWord t d a slot f s) :
    WritesV i { descOne false t d a false with rm := true }
      (fun is _ => slotBad (is.l.slot slot) [0, 1] = false ∧ (is.l.slot slot).scmode = true) false d
      (fun is s l => f (is.srcA s true false t a l)) :=
  writesV_of_performs (performs_of_issueWord hx fun _ _ h => if_neg (by simp [h.1, h.2]))

/-- R56, R174, R175: on another slot. -/
theorem traps_scaleWord (hx : ∀ s, exec i s = scaleWord t d a slot f s) :
    Traps i { descOne false t d a false with rm := true }
      (fun is _ => ¬(slotBad (is.l.slot slot) [0, 1] = false ∧ (is.l.slot slot).scmode = true)) causeILL (fun _ _ => slotVal slot) :=
  traps_of_issueWord hx fun _ _ h => if_pos (by simpa [or_iff_not_imp_left] using h)

end

/-- R171: what a lane of FCVT makes of its NPI element. -/
def npRes (c : Bool) (a slot : Nat) (is : Issue) (s : State) (l : Nat) : FRes :=
  npElement (is.l.slot slot) (if c then fmtBf16 else fmtF32) is.rm is.x.sat (is.vRd s a l)

/-- R56, R171: FCVT of NPI elements judges its slot first. -/
theorem exec_fcvtNp (c : Bool) (d a slot : Nat) (s : State) : exec (.fcvtNp c d a slot) s =
    issueWord { descOne false false d a false with rm := true, sat := true } (fun is s =>
      if slotBad (is.l.slot slot) [0, 1] then .trap causeILL (slotVal slot)
      else floatVerdict is (npRes c a slot is s) (is.vResult false d)) s := rfl

/-- Settles O7: the conversions are float verdicts; the plane and scale words judge their slot first. -/
theorem conversionWords : Obligations.ConversionWords := by
  refine ⟨fun t k c y d a slot => ?_, fun t d a slot sl => ?_⟩
  · exact ⟨floatV_of_issueWord fun _ => rfl,
      writesV_of_performs (performs_of_issueWord (exec_fcvtNp c d a slot) fun _ _ ⟨hgood, hc⟩ =>
        (if_neg (ne_true_of_eq_false hgood)).trans (floatVerdict_go (r := npRes c a slot) _ hc)),
      traps_of_issueWord (exec_fcvtNp c d a slot) fun _ _ h => if_pos (eq_true_of_ne_false h),
      floatV_of_issueWord fun _ => rfl, floatV_of_issueWord fun _ => rfl⟩
  · have hpack (s : State) : exec (.npack d a slot) s = execNpack d a slot s := rfl
    have hunpack (s : State) : exec (.nunpack d a slot) s = execNunpack d a slot s := rfl
    exact ⟨performs_planeWord hpack, traps_planeWord hpack, performs_planeWord hunpack, traps_planeWord hunpack,
      writesV_scaleWord fun _ => rfl, traps_scaleWord (f := scenc) fun _ => rfl, writesV_scaleWord fun _ => rfl,
      traps_scaleWord (f := scdec) fun _ => rfl⟩

end Sys2Proof.Machine
end

section
/-! LEMMAS. Branches, calls and returns (R185 to R188): the order of the checks on their targets, and then the call rows. -/
set_option Elab.async false

namespace Sys2Proof.Machine

/-! ## The targets of a branch (R185) -/

theorem firstBad_eq_none {ts : List (Nat × Nat)} {p : Nat → Bool} : firstBad ts p = none ↔ ∀ x ∈ ts, p x.2 = false := by
  simp [firstBad]

/-- A target is no multiple of four; a target's word would end beyond the code. -/
def askewTarget (x : Nat) : Bool := x % 4 != 0
def beyondCode (is : Issue) (x : Nat) : Bool := decide (is.l.codelen < x + 4)

/-- Some word, and a PRIO, stands at a target. -/
def WordStands (is : Issue) (s : State) (x : Nat) : Prop := ∃ w, s.fetch is.core is.g.failed x = .word w
def PrioStands (is : Issue) (s : State) (x : Nat) : Prop := ∃ w p, s.fetch is.core is.g.failed x = .word w ∧ decode w = .ok (.prio p)

/-- Every target is aligned and within the code. -/
def TargetsWithin (is : Issue) (ts : List (Nat × Nat)) : Prop := ∀ x ∈ ts, askewTarget x.2 = false ∧ beyondCode is x.2 = false

section
variable {is : Issue} {s : State} {ts : List (Nat × Nat)} {x l : Nat}

theorem PrioStands.wordStands (h : PrioStands is s x) : WordStands is s x := by
  obtain ⟨w, _, hw, _⟩ := h
  exact ⟨w, hw⟩

theorem prioAt_of_prio (h : PrioStands is s x) : prioAt is s x = some true := by
  obtain ⟨w, p, hw, hp⟩ := h
  simp only [prioAt, hw, hp]

theorem prioAt_of_other (hw : WordStands is s x) (h : ¬PrioStands is s x) : prioAt is s x = some false := by
  obtain ⟨w, hw⟩ := hw
  simp only [prioAt, hw]
  split
  · next p hp => exact absurd ⟨w, p, hw, hp⟩ h
  · rfl

/-- ALIGN comes first (R185). -/
theorem targetFault_askew (h : (firstBad ts askewTarget).isSome) :
    targetFault is s ts = some (.trap causeALIGN ((firstBad ts askewTarget).getD (0, 0)).2) := by
  obtain ⟨y, hy⟩ := Option.isSome_iff_exists.mp h
  unfold askewTarget at hy ⊢
  simp only [targetFault, hy, Option.getD_some]

/-- PROT comes next (R185). -/
theorem targetFault_beyond (ha : firstBad ts askewTarget = none) (h : (firstBad ts (beyondCode is)).isSome) :
    targetFault is s ts = some (.trap causePROT ((firstBad ts (beyondCode is)).getD (0, 0)).2) := by
  obtain ⟨y, hy⟩ := Option.isSome_iff_exists.mp h
  unfold askewTarget at ha
  unfold beyondCode at hy ⊢
  simp only [targetFault, ha, hy, Option.getD_some]

/-- Where a word stands at every target within the code, the first that is no PRIO decides (R185). -/
theorem targetFault_words (hin : TargetsWithin is ts) (hw : ∀ y ∈ ts, WordStands is s y.2) :
    targetFault is s ts = (firstBad ts (fun x => prioAt is s x == some false)).map (fun b => .trap causeILL b.2) := by
  have ha : firstBad ts (fun x => x % 4 != 0) = none := firstBad_eq_none.mpr fun y hy => (hin y hy).1
  have hb : firstBad ts (fun x => decide (is.l.codelen < x + 4)) = none := firstBad_eq_none.mpr fun y hy => (hin y hy).2
  have hf (p : Nat → Bool) (hp : ∀ x w, s.fetch is.core is.g.failed x = .word w → p x = false) : firstBad ts p = none :=
    firstBad_eq_none.mpr fun y hy => by
      obtain ⟨w, hw⟩ := hw y hy
      exact hp y.2 w hw
  have hn : firstBad ts (fun x => (prioAt is s x).isNone) = none := firstBad_eq_none.mpr fun y hy => by
    by_cases h : PrioStands is s y.2
    · rw [prioAt_of_prio h]
      rfl
    · rw [prioAt_of_other (hw y hy) h]
      rfl
  simp only [targetFault, ha, hb, hn]
  split
  · next hrefused => cases hrefused.symm.trans (hf _ fun x w h => by simp only [h])
  · split
    · next hfailed => cases hfailed.symm.trans (hf _ fun x w h => by simp only [h])
    · rfl

/-- Lanes whose targets are PRIOs within the code move (R185). -/
theorem targetFault_lands (hin : TargetsWithin is ts) (hp : ∀ y ∈ ts, PrioStands is s y.2) : targetFault is s ts = none := by
  rw [targetFault_words hin fun y hy => (hp y hy).wordStands, firstBad_eq_none.mpr fun y hy => by rw [prioAt_of_prio (hp y hy)]; rfl]
  rfl

/-- The lowest lane whose target is no PRIO traps ILL (R127, R185). -/
theorem targetFault_noPrio {u v : List (Nat × Nat)} (hin : TargetsWithin is (u ++ (l, x) :: v)) (hw : ∀ y ∈ u ++ (l, x) :: v, WordStands is s y.2)
    (hx : ¬PrioStands is s x) (hu : ∀ y ∈ u, PrioStands is s y.2) : targetFault is s (u ++ (l, x) :: v) = some (.trap causeILL x) := by
  have hbefore : firstBad u (fun x => prioAt is s x == some false) = none := firstBad_eq_none.mpr fun y hy => by
    rw [prioAt_of_prio (hu y hy)]
    rfl
  have hfirst : prioAt is s x = some false := prioAt_of_other (hw (l, x) (by simp)) hx
  have : firstBad (u ++ (l, x) :: v) (fun x => prioAt is s x == some false) = some (l, x) := by
    unfold firstBad at hbefore ⊢
    rw [List.find?_append, hbefore, Option.none_or, List.find?_cons_of_pos (by simp [hfirst])]
  rw [targetFault_words hin hw, this]
  rfl

end

/-- What R185 says of a word that moves lanes to targets ts: with every target at a PRIO, and free, it completes with e; else the first check
that fails traps. -/
def MovesOrTraps (i : Instr) (d : Desc) (ts : Issue → State → List (Nat × Nat)) (free : Issue → State → Prop) (e : Issue → State → Eff) : Prop :=
  Performs i d (fun is s => (TargetsWithin is (ts is s) ∧ ∀ x ∈ ts is s, PrioStands is s x.2) ∧ free is s) e ∧
  Traps i d (fun is s => (firstBad (ts is s) askewTarget).isSome) causeALIGN (fun is s => ((firstBad (ts is s) askewTarget).getD (0, 0)).2) ∧
  Traps i d (fun is s => firstBad (ts is s) askewTarget = none ∧ (firstBad (ts is s) (beyondCode is)).isSome) causePROT
    (fun is s => ((firstBad (ts is s) (beyondCode is)).getD (0, 0)).2) ∧
  ∀ l x, Traps i d (fun is s => TargetsWithin is (ts is s) ∧ (∀ y ∈ ts is s, WordStands is s y.2) ∧ ¬PrioStands is s x ∧
    ∃ u v, ts is s = u ++ (l, x) :: v ∧ ∀ y ∈ u, PrioStands is s y.2) causeILL (fun _ _ => x)

section
variable {i : Instr} {d : Desc} {ts : Issue → State → List (Nat × Nat)}

/-- A word that judges its targets, and then by its own rules. -/
def afterTargets (ts : Issue → State → List (Nat × Nat)) (own : Issue → State → Verdict) (is : Issue) (s : State) : Verdict :=
  (targetFault is s (ts is s)).getD (own is s)

/-- A word that judges its targets first, and completes by its own rules where it is free to, does what R185 says. -/
theorem movesOrTraps_of_issueWord {own : Issue → State → Verdict} {free : Issue → State → Prop} {e : Issue → State → Eff}
    (hx : ∀ s, exec i s = issueWord d (afterTargets ts own) s) (hown : ∀ is s, free is s → own is s = .go (e is s)) :
    MovesOrTraps i d ts free e := by
  refine ⟨performs_of_issueWord hx fun is s ⟨⟨hin, hp⟩, hfree⟩ => ?_, traps_of_issueWord hx fun is s h => ?_,
    traps_of_issueWord hx fun is s ⟨ha, hb⟩ => ?_, fun l x => traps_of_issueWord hx fun is s ⟨hin, hw, hno, u, v, hts, hu⟩ => ?_⟩
  · rw [afterTargets, targetFault_lands hin hp]
    exact hown is s hfree
  · rw [afterTargets, targetFault_askew h]
    rfl
  · rw [afterTargets, targetFault_beyond ha hb]
    rfl
  · rw [hts] at hin hw
    rw [afterTargets, hts, targetFault_noPrio hin hw hno hu]
    rfl

/-- A word without other rules moves its lanes once its targets are good. -/
theorem movesOrTraps_of_moveTo (hx : ∀ s, exec i s = issueWord d (fun is s => moveTo is s (ts is s)) s) :
    MovesOrTraps i d ts (fun _ _ => True) (fun is s => { pcs := ts is s }) :=
  movesOrTraps_of_issueWord (own := fun is s => .go { pcs := ts is s }) hx fun _ _ _ => rfl

/-- Once its targets are good, a word that its own rules stop traps. -/
theorem traps_afterTargets {own : Issue → State → Verdict} {c : Issue → State → Prop} {cause : Nat} {val : Issue → State → Nat}
    (hx : ∀ s, exec i s = issueWord d (afterTargets ts own) s) (hown : ∀ is s, c is s → own is s = .trap cause (val is s)) :
    Traps i d (fun is s => (TargetsWithin is (ts is s) ∧ ∀ x ∈ ts is s, PrioStands is s x.2) ∧ c is s) cause val :=
  traps_of_issueWord hx fun is s ⟨⟨hin, hp⟩, hc⟩ => by
    rw [afterTargets, targetFault_lands hin hp]
    exact hown is s hc

end

/-! ## CALL and RET (R187) -/

/-- The targets of a B-format word. -/
def branchTo (off : Nat) (is : Issue) (_ : State) : List (Nat × Nat) := is.lanes.map (fun l => (l, branchTarget is.pc off))

/-- CALL's own rule: a lane whose rows are full traps STACK. -/
def callOwn (off : Nat) (is : Issue) (s : State) : Verdict :=
  if is.lanes.any (fun l => is.depth s l == is.l.cdepth) then .trap causeSTACK is.l.cdepth
  else .go { pcs := branchTo off is s, pool := is.lanes.map (fun l =>
    (is.core, rowAddr is.rb is.l.regs (is.depth s l) l, toBytes 4 (is.pc + 4))) }

/-- R187: CALL judges its targets, then its lanes' rows. -/
theorem execCall_eq (off : Nat) (s : State) : execCall off s = issueWord descControl (afterTargets (branchTo off) (callOwn off)) s := by
  refine congrArg (issueWord descControl · s) (funext₂ fun is s => ?_)
  unfold afterTargets branchTo callOwn
  dsimp only
  cases targetFault is s _ <;> rfl

/-- Where the lanes that have been called return to. -/
def returnTo (is : Issue) (s : State) : List (Nat × Nat) :=
  (is.lanes.filter (fun l => is.depth s l != 0)).map (fun l => (l, is.row s (is.depth s l - 1) l))

/-- RET's own rule: a lane that has not been called traps STACK. -/
def retOwn (is : Issue) (s : State) : Verdict :=
  if (is.lanes.filter (fun l => is.depth s l != 0)).length ≠ is.lanes.length then .trap causeSTACK 0
  else .go { pcs := returnTo is s, pool := is.lanes.map (fun l =>
    (is.core, rowAddr is.rb is.l.regs (is.depth s l - 1) l, toBytes 4 0)) }

/-- R187: so does RET. -/
theorem execRet_eq (s : State) : execRet s = issueWord descControl (afterTargets returnTo retOwn) s := by
  refine congrArg (issueWord descControl · s) (funext₂ fun is s => ?_)
  unfold afterTargets returnTo retOwn
  dsimp only
  cases targetFault is s _ <;> rfl

theorem length_called_eq {is : Issue} {s : State} :
    (is.lanes.filter (fun l => is.depth s l != 0)).length = is.lanes.length ↔ ∀ l ∈ is.lanes, is.depth s l ≠ 0 := by
  simp [List.length_filter_eq_length_iff]

/-- Settles O9: each word judges its targets as R185 orders its checks, and then by its own rule: BRA, BRC and BRX have none, CALL and RET their
call rows. -/
theorem branches : Obligations.Branches := by
  intro off m a neg
  have hcall := movesOrTraps_of_issueWord (i := .call off) (execCall_eq off)
    (free := fun is s => is.lanes.any (fun l => is.depth s l == is.l.cdepth) = false) fun _ _ h => if_neg (ne_true_of_eq_false h)
  have hret := movesOrTraps_of_issueWord (i := .ret) execRet_eq (free := fun is s => ∀ l ∈ is.lanes, is.depth s l ≠ 0)
    fun _ _ h => if_neg (not_not_intro (length_called_eq.mpr h))
  exact ⟨movesOrTraps_of_moveTo fun _ => rfl, movesOrTraps_of_moveTo fun _ => rfl, movesOrTraps_of_moveTo fun _ => rfl,
    hcall, traps_afterTargets (execCall_eq off) fun _ _ h => if_pos h, hret,
    traps_afterTargets execRet_eq fun _ _ h => if_pos (mt length_called_eq.mp h)⟩

end Sys2Proof.Machine
end

section
/-! LEMMAS. The fused softmax run (R184) where a word of it is not there yet: how it waits follows how that word's fetch waits. -/
set_option Elab.async false

namespace Sys2Proof.Machine

/-! ## A fused run whose later words are not there yet (R184) -/

section
variable {s : State} {is : Issue} {off pa : Nat}

/-- A run of which a word is not there yet waits as that word's fetch does. -/
theorem exec_fusedSoftmax_needs (hi : Issues {} s is) (h : s.fusedLook is.core is.g.failed is.pc = .needs off) :
    exec .fusedSoftmax s = .next (settle is (fetchHold is s off) s) := by
  show execFusedSoftmax s = _
  rw [execFusedSoftmax, issueWord_settle hi]
  simp only [h]

/-- R366: a word whose bank is occupied is waited for there. -/
theorem fetchHold_of_waits (hf : s.fetch is.core is.g.failed off = .waits pa) (hp : s.parksAt is.req pa = false) :
    fetchHold is s off = .stall (s.await pa is.req) := by
  simp only [fetchHold, hf, hp, Bool.false_eq_true, if_false]

theorem State.parkLine_walks (s : State) (pa : Nat) (r : Req) : (s.parkLine pa r).walks = s.walks := by
  unfold State.parkLine
  dsimp only
  split_ifs <;> rfl

theorem State.delayAt_walks (s : State) (pa : Nat) (r : Req) : (s.delayAt pa r).walks = s.walks := by
  unfold State.delayAt
  dsimp only
  split_ifs <;> rfl

/-- A request that waits at its home or its bank asks for no walk. -/
theorem State.await_walks (s : State) (pa : Nat) (r : Req) : (s.await pa r).walks = s.walks := by
  unfold State.await
  split_ifs
  · exact s.parkLine_walks pa r
  · exact s.delayAt_walks pa r
  · rfl

/-- R351: the walk that is asked for stands in the walker's line. -/
theorem State.askWalk_walks_ne_nil (s : State) (ctx va die unit : Nat) (acc : AccKind) : (s.askWalk ctx va die unit acc).walks ≠ [] := by
  unfold State.askWalk
  dsimp only
  split_ifs with h
  · obtain ⟨w, hw, _⟩ := List.any_eq_true.mp h
    exact fun hnil => List.ne_nil_of_mem hw (List.map_eq_nil_iff.mp hnil)
  · simp

/-- R351: a word that awaits a walk has asked for it. -/
theorem State.awaitWalk_walks_ne_nil (c slot : Nat) (lanes : List Nat) (va : Nat) (acc : AccKind) (h : s.faulted = []) :
    (s.awaitWalk c slot lanes va acc).walks ≠ [] := by
  unfold State.awaitWalk
  simp only [h, List.contains_nil, Bool.false_eq_true, if_false]
  exact State.askWalk_walks_ne_nil _ _ _ _ _ _

end

/-- The first two words of a fused softmax run of v4 to v7. The core has fetched the first; a refresh occupies the bank that holds the second. -/
def refreshedRun : State :=
  let s := State.reset.place 0x40418205AE814200
  let t := s.setCore 0 { s.core 0 with icache := [(0, 0xAE814200)] }
  { t.issueRefreshes (bankOf (locOf t.regions (2 ^ 30))) 1 with cur := some (0, 0, 0, lanes32) }

/-- The entry that is about to issue the run. -/
def refreshedIssue : Issue := mkIssue refreshedRun 0 0 0 lanes32 placedGroup

/-- The hypotheses of the statement hold of it: it issues, and its second word, whose fetch waits, is needed. -/
theorem refreshedIssue_issues : Issues {} refreshedRun refreshedIssue := ⟨rfl, rfl, rfl, rfl, rfl⟩

theorem refreshedRun_needs : refreshedRun.fusedLook 0 [] 0 = .needs 4 := rfl

theorem refreshedRun_waits : refreshedRun.fetch 0 [] 4 = .waits (2 ^ 30 + 4) := rfl

/-- Refutes O12: a word of the run may be needed because its fetch waits at an occupied bank or at its home (R363, R366), and not for want of a
translation. Then no walk is asked for: the entry waits for that fetch. -/
theorem not_fusedSoftmax : ¬ Obligations.FusedSoftmax := by
  intro h
  obtain ⟨_, _, hneeds⟩ := h { vx := 4, vm := 5, vd := 6, vs := 7, xp := none, words := 7 }
  have hwalk := hneeds refreshedRun refreshedIssue 4 refreshedIssue_issues refreshedRun_needs
  rw [exec_fusedSoftmax_needs refreshedIssue_issues refreshedRun_needs, fetchHold_of_waits refreshedRun_waits rfl] at hwalk
  have hstall : (stallOn refreshedIssue (refreshedRun.await (2 ^ 30 + 4) refreshedIssue.req)).walks = [] := by
    rw [stallOn, State.modGroup_walks, State.await_walks]
    rfl
  exact State.awaitWalk_walks_ne_nil _ _ _ _ _ rfl ((congrArg State.walks (Host.Outcome.next.inj hwalk)).symm.trans hstall)

end Sys2Proof.Machine
end

section
/-! LEMMAS. Global loads, stores and atomics (R193 to R201, R206 to R210): what each does once its own checks have passed. -/
set_option Elab.async false

namespace Sys2Proof.Machine

/-! ## The checks of an address -/

section
variable {is : Issue} {s : State} {els : List (Nat × Nat)} {n : Nat} (acc : AccKind) (refuses : Nat → Bool)

/-- A lane whose address is no multiple of the size traps ALIGN before any other check (R194). -/
theorem globalFault_askew (h : (badLane els (fun v => v % n != 0)).isSome) :
    globalFault is s els n acc refuses = some (.trap causeALIGN ((badLane els (fun v => v % n != 0)).getD 0)) := by
  obtain ⟨l, hl⟩ := Option.isSome_iff_exists.mp h
  rw [globalFault, hl, Option.getD_some]

/-- Where every address is aligned, one above 2^57 traps PROT before any check of its Page (R194). -/
theorem globalFault_high (ha : badLane els (fun v => v % n != 0) = none) (h : (badLane els (fun v => decide (2 ^ 57 ≤ v))).isSome) :
    globalFault is s els n acc refuses = some (.trap causePROT ((badLane els (fun v => decide (2 ^ 57 ≤ v))).getD 0 + 32)) := by
  obtain ⟨l, hl⟩ := Option.isSome_iff_exists.mp h
  rw [globalFault, ha, hl, Option.getD_some]

end

/-! ## Loads -/

section
variable {i : Instr} {acq : Bool} {l d a : Nat} {x : Bool} {c : Scope} {z : Size} (hx : ∀ s, exec i s = loadWord acq l x d a c z s)
include hx

/-- R197: a load that passes its checks leaves its registers pending with what its scope reads. -/
theorem performs_load : Performs i (descLoad l x d a z) (loadReady x a c z) (loadEff acq l x d a c z) :=
  performs_of_issueWord hx fun is s ⟨hf, hw⟩ => by
    unfold Issue.away Issue.pas at hw
    simp only [hf, hw]
    rfl

/-- A load takes the trap of the check that its addresses fail. -/
theorem traps_load {p : Issue → State → Prop} {cause : Nat} {val : Issue → State → Nat}
    (hf : ∀ is s, p is s → globalFault is s (is.elements s x a is.active) (sizeBytes z) .load (fun pa => c == .cl && isHost pa) =
      some (.trap cause (val is s))) : Traps i (descLoad l x d a z) p cause val :=
  traps_of_issueWord hx fun is s h => by simp only [hf is s h]

end

/-! ## Stores -/

section
variable {x : Bool} {d a : Nat} {c : Scope} {z : Size} {is : Issue} {s : State}

/-- R199: a store that passes its checks buffers its items. -/
theorem storeBody_ready (h : storeReady x a c z is s) : storeBody x d a c z is s = .go (storeEff x d a c z is s) := by
  obtain ⟨hf, hw⟩ := h
  have hclear : (if c == .cl then clusterWriteWait is s (is.pas s x a)
      else (ownCheckedOut is s (is.pas s x a)).map (fun ln => .hold (s.checkIn (clusterOf is.core) ln))) = none := by
    split_ifs at hw ⊢
    · exact hw
    · rw [hw, Option.map_none]
  unfold Issue.pas at hclear
  simp only [storeBody, hf, hclear]
  rfl

/-- A store with a misaligned lane traps ALIGN. -/
theorem storeBody_askew (h : (badLane (is.elements s x a is.active) (fun v => v % sizeBytes z != 0)).isSome) :
    storeBody x d a c z is s =
      .trap causeALIGN ((badLane (is.elements s x a is.active) (fun v => v % sizeBytes z != 0)).getD 0) := by
  simp only [storeBody, globalFault_askew .store _ h]

/-- R200: an STL that opens its Chunk, and whose release does not end it first, stores and releases. -/
theorem performs_stl : Performs (.stl x d a c z) { descStore x d a z with closes := true }
    (fun is s => is.g.chunk.words ≤ is.g.seq.n ∧ (c = .cl ∨ is.g.chunk.phase ≠ .soloRun ∨ s.checkedOut (clusterOf is.core) = []) ∧
      storeReady x a c z is s)
    (fun is s => { storeEff x d a c z is s with
      post := fun t => (storeEff x d a c z is s).post (if c == .cl then t else t.release is.core is.slot) }) :=
  have hx (s : State) : exec (.stl x d a c z) s = execStl x d a c z s := rfl
  performs_of_issueWord hx fun is s ⟨hfirst, halone, hready⟩ => by
    have hstays : (c != .cl && is.g.chunk.phase == .soloRun && !(s.checkedOut (clusterOf is.core)).isEmpty) = false := by
      rcases halone with rfl | hp | ho
      · rfl
      · simp [hp]
      · simp [ho]
    simp only [Nat.not_lt.mpr hfirst, hstays, storeBody_ready hready, Bool.false_eq_true, if_false]

/-- R200: an STL behind other words of its Chunk ends that Chunk first. -/
theorem exec_stl_later (hi : Issues { descStore x d a z with closes := true } s is) (h : is.g.seq.n < is.g.chunk.words) :
    exec (.stl x d a c z) s = .next (s.endChunk is.core is.slot .run) := by
  change execStl x d a c z s = _
  rw [execStl, issueWord_settle hi, if_pos h, settle]

end

/-- Settles O15: LD and LDA by the rule of loads, ST by the body of stores, STL by whether it is the first word of its Chunk. -/
theorem globalMemoryWords : Obligations.GlobalMemoryWords :=
  ⟨fun _ _ _ _ _ _ =>
    ⟨performs_load fun _ => rfl, performs_load fun _ => rfl, traps_load (fun _ => rfl) fun _ _ => globalFault_askew _ _,
      traps_load (fun _ => rfl) fun _ _ => globalFault_askew _ _, traps_load (fun _ => rfl) fun _ _ h => globalFault_high _ _ h.1 h.2⟩,
    fun _ _ _ _ _ _ =>
    ⟨performs_of_issueWord (fun _ => rfl) fun _ _ => storeBody_ready, performs_stl, fun _ _ => exec_stl_later,
      traps_of_issueWord (fun _ => rfl) fun _ _ => storeBody_askew⟩⟩

/-! ## Atomics -/

/-- An ATOM whose own rules answer an effect where it is, or is not, its own Chunk completes with it (R86, R209). -/
theorem performs_atom {l d a : Nat} {p : Place} {w : Bool} {o : AtomOp} {alone : Bool} {c : Issue → State → Prop} {e : Issue → State → Eff}
    (hb : ∀ is s, c is s → atomBody true l d a p w o is s = .go (e is s)) :
    Performs (.atom l d a p w o) (descAtom l d a w o alone) (fun is s => atomAlone a p s = alone ∧ c is s) e :=
  fun s is hi ⟨halone, hc⟩ hroom => by
    change execAtom l d a p w o s = _
    rw [execAtom, halone]
    exact issueWord_go hi (hb is s hc) hroom

/-- The distinct sectors that an atomic's elements touch (R90). -/
def atomSectors (w : Bool) (a : Nat) (is : Issue) (s : State) : List Nat := sectorSet (is.pas s false a) (atomBits w / 8)

/-- Its elements carried out near, one after another (R207). -/
def nearResults (d a : Nat) (w : Bool) (o : AtomOp) (is : Issue) (s : State) : List BufItem × List (Nat × Nat) :=
  nearElements s is.g.chunk.buf o (atomBits w) (is.atoms s w o d a) [] []

/-- Whether an element of it meets poison (R365). -/
def atomPoison (a : Nat) (w : Bool) (is : Issue) (s : State) : Bool :=
  (is.pas s false a).any (fun pa => s.poisonedPast is.g.chunk.buf pa (atomBits w / 8))

/-- The result registers of an ATOM that is its own Chunk, as its undo rows and the zero policy take them (R82, R147). -/
def savedResult (d : Nat) (w : Bool) (is : Issue) (s : State) : List (Nat × Nat × List Byte) :=
  resultUndo is s d (if w then 2 else 1) ++ zeroWrites is d (if w then 2 else 1)

section
variable (l d a : Nat) (w : Bool) (o : AtomOp) (is : Issue) (s : State)

/-! What R207 and R208 make of an atomic at each place, without and with a result. -/

def nearRedEff : Eff :=
  { buf := (nearResults d a w o is s).1, reads := atomSectors w a is s, writes := atomSectors w a is s
    pages := usedPages is s (is.elements s false a is.active), near := unionNat [] ((is.pas s false a).map lineNo)
    post := fun t => learnHeld is.core (is.pas s false a)
      (if atomPoison a w is s then (t.unparkReq is.req).consumeUCE is.core is.slot is.first else t.unparkReq is.req) }

def nearAtomEff : Eff :=
  { pendingLoad is s l d (if w then 2 else 1)
      (fun lane => (((nearResults d a w o is s).2.find? (fun e => e.1 == lane)).map (fun e => e.2)).getD 0) (atomPoison a w is s)
      (is.pas s false a) with
    buf := (nearResults d a w o is s).1, reads := atomSectors w a is s, writes := atomSectors w a is s
    pages := usedPages is s (is.elements s false a is.active), near := unionNat [] ((is.pas s false a).map lineNo)
    post := fun t => learnHeld is.core (is.pas s false a)
      (((t.unparkReq is.req).request is.core is.slot (is.pas s false a)).due [.loadReturn is.core is.slot]) }

def farRedEff : Eff :=
  { writes := atomSectors w a is s, pages := usedPages is s (is.elements s false a is.active)
    buf := (is.atoms s w o d a).map (fun e => .farRed is.first e.2.1 o (atomBits w) e.2.2.1) }

def farAtomEff : Eff :=
  { pool := savedResult d w is s, reads := atomSectors w a is s, writes := atomSectors w a is s
    pages := usedPages is s (is.elements s false a is.active), ends := some .run, post := fun t => t.unparkReq is.req
    buf := (is.atoms s w o d a).map (fun e => .farAtom is.first e.2.1 o (atomBits w) e.2.2.1 e.2.2.2 (retAddr is d e.1)) }

def clRedEff : Eff :=
  { clw := atomSectors w a is s, pages := usedPages is s (is.elements s false a is.active), post := fun t => t.unparkReq is.req
    buf := (is.atoms s w o d a).map (fun e => .clRed e.2.1 o (atomBits w) e.2.2.1) }

def clAtomEff : Eff :=
  { pool := savedResult d w is s, clw := atomSectors w a is s, pages := usedPages is s (is.elements s false a is.active)
    post := fun t => t.unparkReq is.req, ends := some .run
    buf := (is.atoms s w o d a).map (fun e => .clAtom e.2.1 o (atomBits w) e.2.2.1 e.2.2.2 (retAddr is d e.1)) }

end

section
variable {l d a : Nat} {p : Place} {w : Bool} {o : AtomOp} {is : Issue} {s : State}

/-- R207: near, once no line of it waits. -/
theorem atomBody_near (ret : Bool) (h : atomAt w a p .near is s) (hw : lineWait is s (is.pas s false a) = none) :
    atomBody ret l d a p w o is s = .go (if ret then nearAtomEff l d a w o is s else nearRedEff d a w o is s) := by
  obtain ⟨hf, hp⟩ := h
  unfold Issue.pas at hp hw
  simp only [atomBody, hf, hp, hw]
  cases ret <;> rfl

/-- R208: far, once its lines have checked in; an ATOM is the first word of its Chunk, and its requests wait at no home. -/
theorem atomBody_far_red (h : atomAt w a p .far is s) (hin : ownCheckedOut is s (is.pas s false a) = none) :
    atomBody false l d a p w o is s = .go (farRedEff d a w o is s) := by
  obtain ⟨hf, hp⟩ := h
  unfold Issue.pas at hp hin
  simp only [atomBody, hf, hp, hin]
  rfl

theorem atomBody_far_atom (h : atomAt w a p .far is s) (hfirst : is.g.chunk.words ≤ is.g.seq.n)
    (hin : ownCheckedOut is s (is.pas s false a) = none) (hpark : parking is s (is.pas s false a) = none) :
    atomBody true l d a p w o is s = .go (farAtomEff d a w o is s) := by
  obtain ⟨hf, hp⟩ := h
  unfold Issue.pas at hp hin hpark
  simp only [atomBody, hf, hp, hin, hpark, Nat.not_lt.mpr hfirst]
  rfl

/-- R104, R207: at cluster scope, once its lines can check out; an ATOM is the first word of its Chunk. -/
theorem atomBody_cl_red (h : atomAt w a p .cl is s) (hw : clusterWriteWait is s (is.pas s false a) = none) :
    atomBody false l d a p w o is s = .go (clRedEff d a w o is s) := by
  obtain ⟨hf, hp⟩ := h
  unfold Issue.pas at hp hw
  simp only [atomBody, hf, hp, hw]
  rfl

theorem atomBody_cl_atom (h : atomAt w a p .cl is s) (hfirst : is.g.chunk.words ≤ is.g.seq.n)
    (hw : clusterWriteWait is s (is.pas s false a) = none) :
    atomBody true l d a p w o is s = .go (clAtomEff d a w o is s) := by
  obtain ⟨hf, hp⟩ := h
  unfold Issue.pas at hp hw
  simp only [atomBody, hf, hp, hw, Nat.not_lt.mpr hfirst]
  rfl

end

/-- Settles O17: the six bodies above, each under the descriptor of its word. -/
theorem atomics : Obligations.Atomics :=
  fun _ _ _ _ _ _ =>
    ⟨performs_of_issueWord (fun _ => rfl) fun _ _ h => atomBody_near false h.1 h.2,
      fun _ => performs_atom fun _ _ h => atomBody_near true h.1 h.2,
      performs_of_issueWord (fun _ => rfl) fun _ _ h => atomBody_far_red h.1 h.2,
      fun _ => performs_atom fun _ _ ⟨h, hfirst, hin, hpark⟩ => atomBody_far_atom h hfirst hin hpark,
      performs_of_issueWord (fun _ => rfl) fun _ _ h => atomBody_cl_red h.1 h.2,
      fun _ => performs_atom fun _ _ ⟨h, hfirst, hw⟩ => atomBody_cl_atom h hfirst hw⟩

end Sys2Proof.Machine
end

section
/-! LEMMAS. System words (R256 to R264): what each answers once its own checks have passed. -/
set_option Elab.async false

namespace Sys2Proof.Machine

section
variable (d a : Nat)

/-! ## Special registers (R259, R260) -/

/-- What SREGR writes beside its destination: a read of wtime takes the latch (R74). -/
def sregrLatch (is : Issue) (s : State) : List (Nat × List Byte) :=
  if a = 11 then [(is.rb + offWtimeh, toBytes 4 (wtimehLatch s))] else []

/-- The registers of the lanes that an SREGR to a vector register writes. -/
def sregrLanes (is : Issue) (s : State) : List (Nat × Nat × List Byte) :=
  is.lanes.foldl (fun acc l =>
    acc ++ (if sregWide a then [(is.core, vAddr is.rb d l, toBytes 4 (is.sreg s a l)), (is.core, vAddr is.rb (d + 1) l, toBytes 4 (is.sreg s a l / 2 ^ 32))]
      else [(is.core, vAddr is.rb d l, toBytes 4 (is.sreg s a l))])) []

/-- The effect of SREGR: to a scalar register, or to a vector register of every lane. -/
def sregrEff (x : Bool) (is : Issue) (s : State) : Eff :=
  if x then { raw := sregrLatch a is s ++ [(sAddr is.rb d, toBytes (if sregWide a then 8 else 4) (is.sreg s a (is.lanes.headD 0)))] }
  else { raw := sregrLatch a is s, pool := sregrLanes d a is s }

theorem performs_sregr (x : Bool) : Performs (.sregr x d a) { vec := false, vd := if x then opS d (sregWide a) else opV d (sregWide a) } always
    (sregrEff d a x) :=
  fun s is hi _ hroom => by
    show execSregr x d a s = _
    rw [execSregr]
    exact issueWord_go hi (by cases x <;> rfl) hroom

/-- R260: lpart takes the codes 1 to 5; iovf and trappc take any value. -/
theorem performs_sregw : Performs (.sregw d a) { descControl with vd := opS d false }
    (fun is s => a = 13 ∨ a = 17 ∨ (a = 9 ∧ is.sRd s d % 8 ∈ [1, 2, 3, 4, 5])) (fun is s => { ends := some .run, acts := [.sregw a (is.sRd s d)] }) :=
  have hx (s : State) : exec (.sregw d a) s = execSregw d a s := rfl
  performs_of_issueWord hx fun is s h => by
    rcases h with rfl | rfl | ⟨rfl, hc⟩
    · rfl
    · rfl
    · have hcode : is.sRd s d % 8 ≠ 0 ∧ is.sRd s d % 8 ≠ 6 ∧ is.sRd s d % 8 ≠ 7 := by
        simp only [List.mem_cons, List.not_mem_nil, or_false] at hc
        omega
      simp [hcode]

theorem traps_sregw : Traps (.sregw d a) { descControl with vd := opS d false } (fun _ _ => a ≠ 9 ∧ a ≠ 13 ∧ a ≠ 17) causePROT (fun _ _ => a) :=
  have hx (s : State) : exec (.sregw d a) s = execSregw d a s := rfl
  traps_of_issueWord hx fun is s ⟨h9, h13, h17⟩ => by simp [h9, h13, h17]

/-! ## Time (R261) -/

/-- The time that a WAITT names has come. -/
def waittLater (is : Issue) (s : State) : Prop := timeReached s.sec s.ns (is.sRd s (d + 1)) (is.sRd s d) = true

theorem performs_waitt : Performs (.waitt d) { vec := false, vd := opS d true } (fun is s => is.sRd s d < 10 ^ 9 ∧ waittLater d is s) (fun _ _ => {}) :=
  have hx (s : State) : exec (.waitt d) s = execWaitt d s := rfl
  performs_of_issueWord hx fun _ _ ⟨hns, hl⟩ => (if_neg (Nat.not_le.mpr hns)).trans (if_pos hl)

theorem waits_waitt : Waits (.waitt d) { vec := false, vd := opS d true } (fun is s => is.sRd s d < 10 ^ 9 ∧ ¬waittLater d is s)
    (fun is s => .time (is.sRd s (d + 1)) (is.sRd s d)) :=
  have hx (s : State) : exec (.waitt d) s = execWaitt d s := rfl
  waits_of_issueWord hx fun _ _ ⟨hns, hl⟩ => (if_neg (Nat.not_le.mpr hns)).trans (if_neg hl)

theorem traps_waitt : Traps (.waitt d) { vec := false, vd := opS d true } (fun is s => 10 ^ 9 ≤ is.sRd s d) causePROT (fun _ _ => 0x600) :=
  have hx (s : State) : exec (.waitt d) s = execWaitt d s := rfl
  traps_of_issueWord hx fun _ _ h => if_pos h

end

/-! ## Traps and breakpoints (R257, R258, R263) -/

theorem performs_tret : Performs .tret { vec := false } (fun is _ => is.g.inTrap.isSome)
    (fun is _ => { post := fun s => s.leaveTrap is.core is.slot is.lanes }) :=
  have hx (s : State) : exec .tret s = execTret s := rfl
  performs_of_issueWord hx fun is _ h => if_neg (by simpa [Option.isSome_iff_ne_none] using h)

theorem traps_tret : Traps .tret { vec := false } (fun is _ => is.g.inTrap.isNone) causePROT (fun _ _ => 0x500) :=
  have hx (s : State) : exec .tret s = execTret s := rfl
  traps_of_issueWord hx fun _ _ h => if_pos h

/-- R263: without dbg a BKPT is a NOP. -/
theorem performs_bkpt : Performs .bkpt { vec := false } (fun is s => (s.ctx is.ctx).dbg = false) (fun _ _ => {}) :=
  have hx (s : State) : exec .bkpt s = execBkpt s := rfl
  performs_of_issueWord hx fun _ _ h => if_neg (by simp [h])

/-- R263: with dbg the Chunk ends before it, and the Group halts. -/
theorem exec_bkpt_halts {s : State} {is : Issue} (hi : Issues { vec := false } s is) (h : (s.ctx is.ctx).dbg = true) :
    exec .bkpt s = .next (s.endChunk is.core is.slot (.halt is.lanes)) := by
  show execBkpt s = _
  rw [execBkpt, issueWord_settle hi, if_pos h]
  rfl

/-- Settles O14: SREGR and CAPQ by their effects, the other words by the cases of their own checks. -/
theorem systemWords : Obligations.SystemWords :=
  have htrap (h : Bool) (c : Nat) (s : State) : exec (.trap h c) s = execTrap h c s := rfl
  have hcapq (d : Nat) (s : State) : exec (.capq d) s = execCapq d s := rfl
  have hsynci (s : State) : exec .synci s = execSynci s := rfl
  fun h x c d a => ⟨performs_of_issueWord (htrap h c) fun _ _ _ => rfl, performs_tret, traps_tret, performs_sregr d a x, performs_sregw d a,
    traps_sregw d a, performs_waitt d, waits_waitt d, traps_waitt d, performs_of_issueWord (hcapq d) fun _ _ _ => rfl, performs_bkpt,
    fun _ _ => exec_bkpt_halts, performs_of_issueWord hsynci fun _ _ _ => rfl⟩

end Sys2Proof.Machine
end

section
/-! LEMMAS. PUSH, timelines, stage rings and CONT (R232 to R235, R250 to R255): what each answers once its own checks have passed. -/
set_option Elab.async false

namespace Sys2Proof.Machine

/-! ## PUSH and timelines (R232 to R234, R250, R251) -/

/-- The command that a PUSH reads from s0 to s15, or s16 to s31. -/
def pushCmd (x : Bool) (is : Issue) (s : State) : List Byte :=
  (upFrom 0 16).foldl (fun acc i => acc ++ toBytes 4 (is.sRd s ((if x then 16 else 0) + i))) []

/-- The timeline's count has come to the number that a WAITTL names. -/
def waittlDone (d a : Nat) (is : Issue) (s : State) : Prop := is.sPair s d ≤ (s.timeline is.ctx a).count

section
variable (x : Bool) (p f a d : Nat)

theorem performs_push : Performs (.push x p f a) { descControl with vd := opS (2 * p) true ++ opM f, mdst := some f }
    (fun is s => (pushFault s is.ctx is.g.role a (pushCmd x is s)).isNone)
    (fun is s => { ends := some .run, acts := [.push a (pushCmd x is s) (2 * p) f is.lanes] }) :=
  have hx (s : State) : exec (.push x p f a) s = execPush x p f a s := rfl
  performs_of_issueWord hx fun is s h => by
    rw [Option.isNone_iff_eq_none, pushCmd] at h
    simp only [h]
    rfl

/-- R233: the role is the first thing that is checked. -/
theorem traps_push_role : Traps (.push x p f a) { descControl with vd := opS (2 * p) true ++ opM f, mdst := some f }
    (fun is _ => is.g.role ≠ queueRole a) causeROLE (fun _ _ => a) :=
  have hx (s : State) : exec (.push x p f a) s = execPush x p f a s := rfl
  traps_of_issueWord hx fun is s h => by
    have hf (cmd : List Byte) : pushFault s is.ctx is.g.role a cmd = some (.trap causeROLE a) := if_pos (bne_iff_ne.mpr h)
    simp only [hf]

theorem performs_waittl : Performs (.waittl d a) { vec := false, vd := opS d true } (waittlDone d a)
    (fun is _ => { post := fun s => s.dropReadCopies (clusterOf is.core) }) :=
  have hx (s : State) : exec (.waittl d a) s = execWaittl d a s := rfl
  performs_of_issueWord hx fun _ _ h => if_pos h

theorem waits_waittl : Waits (.waittl d a) { vec := false, vd := opS d true } (fun is s => ¬waittlDone d a is s)
    (fun is s => .timeline a (is.sPair s d)) :=
  have hx (s : State) : exec (.waittl d a) s = execWaittl d a s := rfl
  waits_of_issueWord hx fun _ _ h => if_neg h

end

/-! ## Stage rings (R252, R253) -/

/-- The ring that a word names is declared, as ring h of core c, and has the slot. -/
def ringNamed (x : Bool) (a r h c : Nat) (is : Issue) (s : State) : Prop :=
  (is.team s).bind (fun t => t.ring? r) = some (h, c) ∧ ringSlot is s x a < ((s.core c).ring h).slots

section
variable {i : Instr} {x : Bool} {a r : Nat} {k : Issue → State → Nat → Nat → Nat → Verdict}

/-- The descriptor of the ring words. -/
def descRing (x : Bool) (a : Nat) : Desc := { vec := false, va := if x then [] else opS a false }

theorem performs_ringWord (hx : ∀ s, exec i s = ringWord x a r k s) (h c : Nat) {p : Issue → State → Prop} {e : Issue → State → Eff}
    (hk : ∀ is s, p is s → k is s h c (ringSlot is s x a) = .go (e is s)) :
    Performs i (descRing x a) (fun is s => ringNamed x a r h c is s ∧ p is s) e :=
  performs_of_issueWord hx fun is s ⟨⟨hr, hs⟩, hp⟩ => by
    simp only [hr, if_neg (Nat.not_le.mpr hs)]
    exact hk is s hp

theorem waits_ringWord (hx : ∀ s, exec i s = ringWord x a r k s) (h c : Nat) {p : Issue → State → Prop} {w : Issue → State → Wait}
    (hk : ∀ is s, p is s → k is s h c (ringSlot is s x a) = .wait (w is s)) :
    Waits i (descRing x a) (fun is s => ringNamed x a r h c is s ∧ p is s) w :=
  waits_of_issueWord hx fun is s ⟨⟨hr, hs⟩, hp⟩ => by
    simp only [hr, if_neg (Nat.not_le.mpr hs)]
    exact hk is s hp

/-- A ring that the Team does not declare. -/
theorem traps_ringWord_undeclared (hx : ∀ s, exec i s = ringWord x a r k s) :
    Traps i (descRing x a) (fun is s => (is.team s).bind (fun t => t.ring? r) = none) causePROT (fun _ _ => 0x900 + r) :=
  traps_of_issueWord hx fun is s h => by simp only [h]

end

/-- The slot of ring h of core c that a word names is full. -/
def ringFull (x : Bool) (a h c : Nat) (is : Issue) (s : State) : Bool := ((s.core c).ring h).full (ringSlot is s x a)

section
variable (x : Bool) (a r h c : Nat)

theorem performs_ringp : Performs (.ringp x a r) (descRing x a)
    (fun is s => ringNamed x a r h c is s ∧ ringFull x a h c is s = false) (fun is s => { acts := [.ringp c h (ringSlot is s x a)] }) :=
  performs_ringWord (fun s => show _ = execRingp x a r s from rfl) h c fun _ _ hf => if_neg (Bool.eq_false_iff.mp hf)

theorem waits_ringp : Waits (.ringp x a r) (descRing x a)
    (fun is s => ringNamed x a r h c is s ∧ ringFull x a h c is s = true) (fun is s => .ringEmpty r (ringSlot is s x a)) :=
  waits_ringWord (fun s => show _ = execRingp x a r s from rfl) h c fun _ _ hf => if_pos hf

theorem performs_ringc : Performs (.ringc x a r) (descRing x a)
    (fun is s => ringNamed x a r h c is s ∧ ringFull x a h c is s = true)
    (fun is _ => { post := fun s => s.dropReadCopies (clusterOf is.core) }) :=
  performs_ringWord (fun s => show _ = execRingc x a r s from rfl) h c fun _ _ hf => if_pos hf

theorem waits_ringc : Waits (.ringc x a r) (descRing x a)
    (fun is s => ringNamed x a r h c is s ∧ ringFull x a h c is s = false) (fun is s => .ringFull r (ringSlot is s x a)) :=
  waits_ringWord (fun s => show _ = execRingc x a r s from rfl) h c fun _ _ hf => if_neg (Bool.eq_false_iff.mp hf)

theorem performs_ringcRel : Performs (.ringcRel x a r) (descRing x a) (ringNamed x a r h c)
    (fun is s => { acts := [.ringrel c h (ringSlot is s x a)] }) :=
  fun s is hi hr => performs_ringWord (p := always) (fun s => show _ = execRingcRel x a r s from rfl) h c (fun _ _ _ => rfl) s is hi
    ⟨hr, trivial⟩

end

/-! ## CONT (R255) -/

/-- The descriptor of CONT. -/
def descCont (d a : Nat) : Desc :=
  { descControl with vd := [{ file := .v, num := d, count := 15, align := 1 }], va := opS a false }

/-- The entry of a CONT is a PRIO of the code (R255). -/
def contGood (a : Nat) (is : Issue) (s : State) : Prop :=
  is.sRd s a % 4 = 0 ∧ is.sRd s a + 4 ≤ is.l.codelen ∧ prioAt is s (is.sRd s a) = some true

/-- The Group's reserved room, or the store's free room, takes the records of all its lanes (R255). -/
def contRoom (is : Issue) (s : State) : Prop :=
  is.lanes.length ≤ s.roomOf is.core is.g.uid ∨ is.lanes.length ≤ (s.store (dieOf is.core)).free

theorem contRoom_iff {is : Issue} {s : State} :
    (decide (is.lanes.length ≤ s.roomOf is.core is.g.uid) || decide (is.lanes.length ≤ (s.store (dieOf is.core)).free)) = true ↔ contRoom is s := by
  simp only [contRoom, Bool.or_eq_true, decide_eq_true_eq]

section
variable (d a : Nat)

/-- What CONT sends: one record for each lane, and room reserved for them. -/
def contEff (is : Issue) (s : State) : Eff :=
  { ends := some .run
    acts := [.cont (dieOf is.core) ((s.core is.core).kernel.getD 0) (prioVal is s (is.sRd s a)) (is.lanes.map (fun l =>
      toBytes 4 (is.sRd s a) ++ (upFrom 0 15).foldl (fun acc i => acc ++ toBytes 4 (is.vRd s (d + i) l)) []))]
    post := fun s => s.reserveRoom (dieOf is.core) is.g.uid is.lanes.length }

theorem performs_cont : Performs (.cont d a) (descCont d a) (fun is s => contGood a is s ∧ contRoom is s) (contEff d a) :=
  have hx (s : State) : exec (.cont d a) s = execCont d a s := rfl
  performs_of_issueWord hx fun is s ⟨⟨halign, hlen, hprio⟩, hroom⟩ => by
    simp only [halign, if_neg (Nat.not_lt.mpr hlen), hprio, if_pos (contRoom_iff.mpr hroom), ne_eq, not_true, if_false]
    rfl

theorem waits_cont : Waits (.cont d a) (descCont d a) (fun is s => contGood a is s ∧ ¬contRoom is s) (fun is _ => .room is.lanes.length) :=
  have hx (s : State) : exec (.cont d a) s = execCont d a s := rfl
  waits_of_issueWord hx fun is s ⟨⟨halign, hlen, hprio⟩, hroom⟩ => by
    simp only [halign, if_neg (Nat.not_lt.mpr hlen), hprio, if_neg (mt contRoom_iff.mp hroom), ne_eq, not_true, if_false]

theorem traps_cont_askew : Traps (.cont d a) (descCont d a) (fun is s => is.sRd s a % 4 ≠ 0) causeALIGN (fun _ _ => 0) :=
  have hx (s : State) : exec (.cont d a) s = execCont d a s := rfl
  traps_of_issueWord hx fun _ _ h => if_pos h

end

/-- Settles O19: PUSH by its checks, the ring words by the slot that they name, CONT by its entry and the room of its store. -/
theorem queueAndContinuationWords : Obligations.QueueAndContinuationWords :=
  have htlrd (d a : Nat) (s : State) : exec (.tlrd d a) s = execTlrd d a s := rfl
  ⟨fun x p f a d r => ⟨performs_push x p f a, traps_push_role x p f a, performs_waittl a d, waits_waittl a d,
      performs_of_issueWord (htlrd d a) fun _ _ _ => rfl,
      fun h c => ⟨performs_ringp x a r h c, waits_ringp x a r h c, performs_ringc x a r h c, waits_ringc x a r h c, performs_ringcRel x a r h c⟩,
      traps_ringWord_undeclared fun s => show _ = execRingp x a r s from rfl⟩,
    fun d a => ⟨performs_cont d a, waits_cont d a, traps_cont_askew d a⟩⟩

end Sys2Proof.Machine
end

section
/-! LEMMAS. The matrix words (R222 to R231): what each answers once its own checks have passed, and what MZERO makes of its core's pool. -/
set_option Elab.async false

namespace Sys2Proof.Machine

theorem notMatrix_eq_false {is : Issue} (h : is.g.role = .matrix) : notMatrix is = false := by simp [notMatrix, h]

theorem notMatrix_eq_true {is : Issue} (h : is.g.role ≠ .matrix) : notMatrix is = true := by simpa [notMatrix] using h

/-! ## MMA (R222 to R226) -/

/-- The descriptors of the matrix words. -/
def descMma (l n a : Nat) : Desc := { vec := false, vd := opTile n, va := opS a false, look := some l }
def descMzero (l n : Nat) : Desc := { vec := false, vd := opTile n, look := some l }
def descTileWindow (l d n rows : Nat) : Desc := { vec := false, lim := .window, vd := opRange d rows, va := opTile n, look := some l }

/-- The words of an MMA's operand descriptor, and its fields (R223). -/
def mmaWords (a : Nat) (is : Issue) (s : State) : List Nat := (upFrom 0 4).map (fun i => is.sRd s (a + i))
def mmaOf (a : Nat) (is : Issue) (s : State) : MmaDesc := mmaDesc (mmaWords a is s)

/-- The checks of an MMA that may trap (R222 to R226). -/
def mmaLegal (a slot : Nat) (q : Act) (is : Issue) (s : State) (t : Team) : Prop :=
  a ≤ 28 ∧ is.g.role = .matrix ∧ slotBad (is.l.slot slot) [0, 1, 2, 3] = false ∧ pairOk q (is.l.slot slot) = true ∧
    mmaProt (mmaOf a is s) q (is.l.slot slot) (256 * t.tscr) = none

/-- No copy is about to write its operands, and its tile waits for nothing (R205, R227). -/
def mmaFree (n a slot : Nat) (q : Act) (is : Issue) (s : State) (t : Team) : Prop :=
  (actRanges (mmaOf a is s) q ++ weightRanges (mmaOf a is s) (is.l.slot slot) ++ scaleRanges (mmaOf a is s) (is.l.slot slot)).any
    (fun r => s.boardHits t.home (t.scr r.1) r.2) = false ∧ tileWait is s n true = none

/-- The place that an MMA takes in its core's order. -/
def mmaPlaced (n a slot : Nat) (q : Act) (t : Team) (is : Issue) (s : State) : MmaOp :=
  { owner := (is.slot, is.g.uid), follow := none, tile := n, act := q, slotIdx := slot, desc := mmaWords a is s,
    snap := (s.core t.home).pool.slice (t.scr 0) (256 * t.tscr), pc := is.first, retries := 0 }

section
variable (l n a slot : Nat) (q : Act)

theorem performs_mma (t : Team) : Performs (.mma l q n a slot) (descMma l n a)
    (fun is s => is.team s = some t ∧ mmaLegal a slot q is s t ∧ mmaFree n a slot q is s t)
    (fun is s => { tiles := [n], post := issueMma is (mmaPlaced n a slot q t is s) }) :=
  have hx (s : State) : exec (.mma l q n a slot) s = execMma l q n a slot s := rfl
  performs_of_issueWord hx fun is s ⟨hteam, ⟨ha, hrole, hslot, hpair, hprot⟩, hboard, htile⟩ => by
    unfold mmaOf mmaWords at hprot hboard
    simp only [hteam, if_neg (Nat.not_lt.mpr ha), notMatrix_eq_false hrole, hslot, hpair, hprot, hboard, htile, Bool.not_true,
      Bool.false_eq_true, if_false]
    rfl

theorem traps_mma_role : Traps (.mma l q n a slot) (descMma l n a)
    (fun is s => (is.team s).isSome ∧ a ≤ 28 ∧ is.g.role ≠ .matrix) causeROLE (fun _ _ => 1) :=
  have hx (s : State) : exec (.mma l q n a slot) s = execMma l q n a slot s := rfl
  traps_of_issueWord hx fun is s ⟨hteam, ha, hrole⟩ => by
    obtain ⟨t, ht⟩ := Option.isSome_iff_exists.mp hteam
    simp only [ht, if_neg (Nat.not_lt.mpr ha), notMatrix_eq_true hrole, if_true]

end

/-! ## MZERO, MRD and MWR (R230, R231) -/

section
variable (l n d : Nat) (w : TileWindow)

/-- The effect of MZERO: its place in the tile's order goes with its word. -/
def mzeroEff (is : Issue) : Eff := { tiles := [n], post := fun s => (zeroTile is n s).leavePlaces is.core is.slot is.g.uid }

theorem performs_mzero : Performs (.mzero l n) (descMzero l n) (fun is s => is.g.role = .matrix ∧ tileWait is s n false = none)
    (fun is _ => mzeroEff n is) :=
  have hx (s : State) : exec (.mzero l n) s = execMzero l n s := rfl
  performs_of_issueWord hx fun is s ⟨hrole, hwait⟩ => by
    simp only [notMatrix_eq_false hrole, hwait, Bool.false_eq_true, if_false]
    rfl

theorem traps_mzero_role : Traps (.mzero l n) (descMzero l n) (fun is _ => is.g.role ≠ .matrix) causeROLE (fun _ _ => 1) :=
  have hx (s : State) : exec (.mzero l n) s = execMzero l n s := rfl
  traps_of_issueWord hx fun _ _ h => if_pos (notMatrix_eq_true h)

/-- The sequence's immediate is a legal window w (R231). -/
def windowLegal (s : State) : Prop := windowOf (seqImm s) = w ∧ w.res = 0 ∧ w.row + w.n ≤ 64

/-- The registers of the lanes with the elements of the window (R231). -/
def mrdWrites (is : Issue) (s : State) : List (Nat × List Byte) :=
  (upFrom 0 w.n).foldl (fun acc r => acc ++ is.lanes.map (fun ln =>
    (vAddr is.rb (d + r) ln, (s.core is.core).pool.bytes (windowAddr (s.core is.core).poolpart n w r ln) 4))) []

/-- The elements of the window with the registers of the lanes (R231). -/
def mwrWrites (is : Issue) (s : State) : List (Nat × List Byte) :=
  (upFrom 0 w.n).foldl (fun acc r => acc ++ is.lanes.map (fun ln =>
    (windowAddr (s.core is.core).poolpart n w r ln, toBytes 4 (is.vRd s (d + r) ln)))) []

/-- The effect of MRD: its registers are pending with the window's elements. -/
def mrdEff (is : Issue) (s : State) : Eff :=
  { pool := (mrdWrites n d w is s).map (fun x => (is.core, x.1, (s.core is.core).pool.bytes x.1 4))
    pend := some { pc := is.first, regs := (upFrom d w.n).map (fun r => (.v, r)), win := if l = 0 then none else some (is.lanes, l),
                   writes := mrdWrites n d w is s, uce := false, since := s.clk, chans := [] }
    post := fun s => (s.due [.loadReturn is.core is.slot]).leavePlaces is.core is.slot is.g.uid }

theorem performs_mrd : Performs (.mrd l d n) (descTileWindow l d n w.n) (fun is s => windowLegal w s ∧ tileReady is s n = true)
    (mrdEff l n d w) :=
  fun s is hi ⟨⟨hw, hres, hrows⟩, hready⟩ hroom => by
    subst hw
    show execMrd l d n s = _
    rw [execMrd]
    refine issueWord_go hi ?_ hroom
    simp only [hres, if_neg (Nat.not_lt.mpr hrows), hready, ne_eq, not_true, if_false, Bool.not_true, Bool.false_eq_true]
    rfl

/-- The effect of MWR: the tile's checkpoint is taken, and the window's elements become the lanes' registers. -/
def mwrEff (is : Issue) (s : State) : Eff :=
  { tiles := [n]
    post := fun t => ((mwrWrites n d w is s).foldl (fun s x => s.poolPut is.core x.1 x.2) (takeCheckpoint is n t)).leavePlaces
      is.core is.slot is.g.uid }

theorem performs_mwr : Performs (.mwr l d n) (descTileWindow l d n w.n)
    (fun is s => windowLegal w s ∧ is.g.role = .matrix ∧ tileWait is s n false = none) (mwrEff n d w) :=
  fun s is hi ⟨⟨hw, hres, hrows⟩, hrole, hwait⟩ hroom => by
    subst hw
    show execMwr l d n s = _
    rw [execMwr]
    refine issueWord_go hi ?_ hroom
    simp only [hres, notMatrix_eq_false hrole, if_neg (Nat.not_lt.mpr hrows), hwait, ne_eq, not_true, if_false, Bool.false_eq_true]
    rfl

end

/-- Settles O20: each word by its own checks; MRD and MWR under the window that their sequence's immediate names. -/
theorem matrixWords : Obligations.MatrixWords :=
  fun l n a slot d q w => ⟨performs_mma l n a slot q, traps_mma_role l n a slot q, performs_mzero l n, traps_mzero_role l n,
    performs_mrd l n d w, performs_mwr l n d w⟩

/-! ## Parts of a memory -/

section
variable {m xs ys : Memory} {a n y : Nat}

theorem Memory.read_filter_keeps (p : Nat → Bool) (hp : p y = true) : Memory.read (m.filter (fun c => p c.1)) y = m.read y := by
  induction m with
  | nil => rfl
  | cons c r ih =>
    by_cases hc : p c.1 = true
    · rw [List.filter_cons_of_pos (p := fun c : Host.Cell => p c.1) hc, Memory.read, Memory.read, ih]
    · have hne : c.1 ≠ y := fun e => hc (e ▸ hp)
      rw [List.filter_cons_of_neg (p := fun c : Host.Cell => p c.1) hc, ih, Memory.read, if_neg hne]

theorem Memory.read_of_unlisted (h : ∀ c ∈ m, c.1 ≠ y) : m.read y = Memory.unlisted := by
  induction m with
  | nil => rfl
  | cons c r ih => rw [Memory.read, if_neg (h c List.mem_cons_self), ih fun x hx => h x (List.mem_cons_of_mem _ hx)]

theorem Memory.read_append_right (h : ∀ c ∈ xs, c.1 ≠ y) : (xs ++ ys : Memory).read y = Memory.read ys y := by
  induction xs with
  | nil => rfl
  | cons c r ih => rw [List.cons_append, Memory.read, if_neg (h c List.mem_cons_self), ih fun x hx => h x (List.mem_cons_of_mem _ hx)]

theorem Memory.read_append_left (h : ∀ c ∈ ys, c.1 ≠ y) : (xs ++ ys : Memory).read y = Memory.read xs y := by
  induction xs with
  | nil => exact Memory.read_of_unlisted h
  | cons c r ih => rw [List.cons_append, Memory.read, Memory.read, ih]

theorem Memory.read_clear_inside (h1 : a ≤ y) (h2 : y < a + n) : (m.clear a n).read y = Memory.unlisted :=
  Memory.read_of_unlisted fun c hc => by
    have := of_decide_eq_true (List.mem_filter.mp hc).2
    omega

theorem Memory.read_clear_outside (h : ¬(a ≤ y ∧ y < a + n)) : (m.clear a n).read y = m.read y :=
  Memory.read_filter_keeps (fun x => decide (x < a ∨ a + n ≤ x)) (decide_eq_true (by omega))

/-- A paste leaves the bytes outside its range. -/
theorem Memory.read_paste_outside (cells : Memory) (h : ¬(a ≤ y ∧ y < a + n)) : (m.paste a n cells).read y = m.read y := by
  have hbelow : ∀ c ∈ m.filter (fun c => decide (c.1 < a)), c.1 < a := fun c hc => of_decide_eq_true (List.mem_filter.mp hc).2
  have habove : ∀ c ∈ m.filter (fun c => decide (a + n ≤ c.1)), a + n ≤ c.1 := fun c hc => of_decide_eq_true (List.mem_filter.mp hc).2
  have hmid : ∀ c ∈ (cells.filter (fun c => decide (c.1 < n))).map (fun c => (a + c.1, c.2)), a ≤ c.1 ∧ c.1 < a + n := fun c hc => by
    obtain ⟨e, he, rfl⟩ := List.mem_map.mp hc
    have := of_decide_eq_true (List.mem_filter.mp he).2
    exact ⟨Nat.le_add_right .., Nat.add_lt_add_left this a⟩
  unfold Memory.paste
  rcases Nat.lt_or_ge y a with hy | hy
  · rw [Memory.read_append_left fun c hc => by have := habove c hc; omega, Memory.read_append_left fun c hc => by have := hmid c hc; omega]
    exact Memory.read_filter_keeps (fun x => decide (x < a)) (decide_eq_true hy)
  · have hy' : a + n ≤ y := by omega
    rw [Memory.read_append_right]
    · exact Memory.read_filter_keeps (fun x => decide (a + n ≤ x)) (decide_eq_true hy')
    · intro c hc
      rcases List.mem_append.mp hc with hc | hc
      · have := hbelow c hc; omega
      · have := hmid c hc; omega

/-- Four bytes that read as unlisted are the number 0. -/
theorem Memory.num_eq_zero (h : ∀ i, i < 4 → m.read (a + i) = Memory.unlisted) : m.num a 4 = 0 := by
  have h0 : m.read a = Memory.unlisted := h 0 (by decide)
  simp only [Memory.num, Memory.bytes, h0, h 1 (by decide), Nat.add_assoc, Nat.reduceAdd, h 2 (by decide), h 3 (by decide)]
  rfl

end

/-! ## MZERO clears its tile (R230) -/

/-- The pool of a core whose tile n a word of the Chunk zeroes: after the checkpoint copy, where the Chunk has not yet taken it. -/
def zeroedPool (is : Issue) (k : Core) (n : Nat) : Memory :=
  (if is.g.chunk.tiles.contains n then k.pool
    else k.pool.paste (ckptAddr k.poolpart n) 16384 (k.pool.slice (tileAddr k.poolpart n 0 0) 16384)).clear (tileAddr k.poolpart n 0 0) 16384

theorem zeroTile_pool (is : Issue) (n : Nat) (s : State) : ((zeroTile is n s).core is.core).pool = zeroedPool is (s.core is.core) n := by
  unfold zeroTile takeCheckpoint zeroedPool
  split
  · rw [State.core_setCore_self]
  · rw [State.core_setCore_self, State.core_setCore_self]

/-- The words of a core's Groups are no part of its pool or poolpart. -/
theorem zeroedPool_modGroup (is : Issue) (n c slot : Nat) (s : State) (f : Group → Group) :
    zeroedPool is ((s.modGroup c slot f).core c) n = zeroedPool is (s.core c) n := by
  unfold State.modGroup
  split
  · unfold State.setGroup
    rw [State.core_setCore_self]
    rfl
  · rfl

/-- The end of a Chunk leaves the pool. -/
theorem State.pool_closeWord (s : State) (c slot live : Nat) (ends : Option After) :
    ((s.closeWord c slot live ends).core c).pool = (s.core c).pool := by
  rcases State.closeWord_cases (s := s) (c := c) (slot := slot) (live := live) ends with h | ⟨a, h⟩
  · rw [h]
  · rw [h, ((CoreOnly.refl c slot s).endChunk a).core]

/-- After MZERO the core's pool is the one with its tile zeroed. -/
theorem pool_applyEff_mzero (n : Nat) (is : Issue) (s : State) :
    ((applyEff is (mzeroEff n is) s).core is.core).pool = zeroedPool is (s.core is.core) n := by
  obtain ⟨f, u, live, hu, h⟩ : ∃ f u live, u = (zeroTile is n (s.modGroup is.core is.slot f)).leavePlaces is.core is.slot is.g.uid ∧
      applyEff is (mzeroEff n is) s = (u.tagLines is.core []).closeWord is.core is.slot live none := ⟨_, _, _, rfl, rfl⟩
  have hplaces : (u.core is.core).pool = ((zeroTile is n (s.modGroup is.core is.slot f)).core is.core).pool := by
    rw [hu, State.leavePlaces, State.core_setCore_self]
  rw [h, State.tagLines_nil, State.pool_closeWord, hplaces, zeroTile_pool, zeroedPool_modGroup]

section
variable {is : Issue} {k : Core} {n y : Nat}

theorem zeroedPool_inside (h1 : tileAddr k.poolpart n 0 0 ≤ y) (h2 : y < tileAddr k.poolpart n 0 0 + 16384) :
    (zeroedPool is k n).read y = Memory.unlisted := Memory.read_clear_inside h1 h2

theorem zeroedPool_outside (h1 : ¬(tileAddr k.poolpart n 0 0 ≤ y ∧ y < tileAddr k.poolpart n 0 0 + 16384))
    (h2 : ¬(ckptAddr k.poolpart n ≤ y ∧ y < ckptAddr k.poolpart n + 16384)) : (zeroedPool is k n).read y = k.pool.read y := by
  unfold zeroedPool
  rw [Memory.read_clear_outside h1]
  split
  · rfl
  · exact Memory.read_paste_outside _ h2

/-- Every element of the tile is the word 0 (R230). -/
theorem zeroedPool_element {row col : Nat} (hr : row < 64) (hc : col < 64) : (zeroedPool is k n).num (tileAddr k.poolpart n row col) 4 = 0 :=
  Memory.num_eq_zero fun i hi => zeroedPool_inside (by unfold tileAddr; omega) (by unfold tileAddr; omega)

end

/-- Settles O56: the pool after MZERO is the one with the tile zeroed; the word 0 is zero as an integer and in FP32. -/
theorem mzeroClears : Obligations.MzeroClears := by
  intro l n s is p hi hrole hwait _ hroom
  refine ⟨_, performs_mzero l n s is hi ⟨hrole, hwait⟩ hroom, fun row col hr hc => ?_, fun a htile hckpt => ?_⟩
  · rw [pool_applyEff_mzero, zeroedPool_element hr hc]
    exact ⟨rfl, rfl, _, rfl⟩
  · rw [pool_applyEff_mzero, zeroedPool_outside htile hckpt]

end Sys2Proof.Machine
end

section
/-! LEMMAS. ENQ and MCAST (R248, R249, R287, R405, R406): what each does once its command has left and is translated. -/
set_option Elab.async false

namespace Sys2Proof.Machine

/-! ## ENQ (R248, R287) -/

/-- A Queue that an ENQ of the Context may write to (R248). -/
def EnqLegal (s : State) (o : Op) (n : Nat) : Prop := n < Config.nQueues ∧ (s.queue n).state = 1 ∧ (s.queue n).device = true ∧ (s.queue n).ctx = o.ctx

/-- Records between a Queue's tail and its done. -/
def Queue.filled (q : Queue) : Nat := (q.tail + 2 ^ 32 - q.done) % 2 ^ 32

section
variable {s : State} {id : Nat} {o o1 : Op}

theorem enqLegal_iff {n : Nat} :
    (decide (Config.nQueues ≤ n) || (s.queue n).state ≠ 1 || !(s.queue n).device || (s.queue n).ctx ≠ o.ctx) = false ↔ EnqLegal s o n := by
  simp [EnqLegal, and_assoc]

/-- An earlier ENQ of the Context holds it. -/
theorem enqueue_behind (h : s.enqAhead o = true) : s.enqueue id o = (s.setOp id { o with state := .left }).due [.enq id] := if_pos h

theorem enqueue_refused (h : s.enqAhead o = false) (hl : ¬EnqLegal s o (cmdField o.cmd 63 32)) : s.enqueue id o = s.finishOp id o stPROT :=
  (if_neg (Bool.eq_false_iff.mp h)).trans (if_pos (Bool.of_not_eq_false (mt enqLegal_iff.mp hl)))

/-- A full ring holds it. -/
theorem enqueue_full (h : s.enqAhead o = false) (hl : EnqLegal s o (cmdField o.cmd 63 32))
    (hf : 2 ^ (s.queue (cmdField o.cmd 63 32)).lgsize ≤ (s.queue (cmdField o.cmd 63 32)).filled) :
    s.enqueue id o = (s.setOp id { o with state := .left }).due [.enq id] :=
  (if_neg (Bool.eq_false_iff.mp h)).trans ((if_neg (Bool.eq_false_iff.mp (enqLegal_iff.mpr hl))).trans (if_pos hf))

/-- The record with its number and the new tail, as one engine Chunk. -/
theorem enqueue_placed (h : s.enqAhead o = false) (hl : EnqLegal s o (cmdField o.cmd 63 32)) :
    let q := s.queue (cmdField o.cmd 63 32)
    let node := cmdField o.cmd 127 64
    let t := s.afterRead id o (o.pas [(node, 64)])
    let seq := (q.tail + 1) % 2 ^ 32
    q.filled < 2 ^ q.lgsize → Served s id o 0 (o.pas [(node, 64)]) → t.vpoison o.pages node 64 = false →
    s.enqueue id o = (t.setQueue (cmdField o.cmd 63 32) { q with tail := seq }).offerUnit id { o with state := .left, pos := 1 }
      [storeItem (q.slotAddr seq) (withSeq (t.vread o.pages node 64) seq), storeItem q.ctl (toBytes 4 seq)] := by
  intro q node t seq hroom hserved hclean
  have hreads : ∀ r ∈ [(node, 64)], (s.afterRead id o (o.pas [(node, 64)])).vpoison o.pages r.1 r.2 = false := fun r hr => by
    rw [List.mem_singleton.mp hr]
    exact hclean
  exact (if_neg (Bool.eq_false_iff.mp h)).trans ((if_neg (Bool.eq_false_iff.mp (enqLegal_iff.mpr hl))).trans
    ((if_neg (Nat.not_le.mpr hroom)).trans (opVreads_served hserved hreads _ _)))

/-- An ENQ that has left and is translated is placed, held or refused. -/
theorem exec_enq_translated (ho : s.op? id = some o) (hg : o.gone s id) (ht : Translated s o [(cmdField o.cmd 127 64, 64, .engRead)] o1) :
    exec (.enq id) s = .next (s.enqueue id o1) := by
  change execEnq id s = _
  simp only [execEnq, ho, gone_starting hg, if_true]
  exact congrArg Host.Outcome.next (leaveWith_translated ho hg ht _ _ _)

/-! ## MCAST (R249, R405, R406) -/

/-- The Teams bound in a cluster (R405). -/
def State.boundIn (s : State) (o : Op) (c : McastCmd) (cl : Nat) : Tab Team := s.teams.filter (fun e => e.2.bound (o.kernel.getD 0) cl c)

/-- The Teams in which an MCAST lands, cluster by cluster. -/
def State.mcastTeams (s : State) (o : Op) (c : McastCmd) : Tab Team := c.clusters.foldl (fun acc cl => acc ++ s.boundIn o c cl) []

/-- Its range is registered on the home cores of the Teams (R205). -/
def State.mcastBoards (s : State) (id : Nat) (c : McastCmd) (ts : Tab Team) : State :=
  ts.foldl (fun s e => s.setCore e.2.home { s.core e.2.home with
    board := (s.core e.2.home).board ++ [{ op := id, lo := e.2.scr c.off, len := c.len }] }) s

/-- The bytes have crossed to the die, and every home core has room: the bound Teams are fixed. -/
theorem mcastBegin_registers (data : List Byte) :
    let c := mcastCmd o.cmd
    let ts := s.mcastTeams o c
    s.mcastAway id o c = none → (∀ e ∈ ts, (s.core e.2.home).board.length < boardSize) →
    s.mcastBegin id o data = ((s.mcastBoards id c ts).setOp id { o with
      state := .left, wants := none
      aux := (c.clusters.filter (fun cl => (s.boundIn o c cl).isEmpty)).length :: ofBytes data :: ts.map (fun e => e.1) }).due [.mcast id] := by
  intro c ts haway hroom
  have hany : ts.any (fun e => decide (boardSize ≤ (s.core e.2.home).board.length)) = false := by
    rw [List.any_eq_false]
    exact fun e he => by simpa using hroom e he
  unfold ts State.mcastTeams State.boundIn c at hany
  unfold c at haway
  simp only [State.mcastBegin, haway, hany]
  rfl

theorem multicast_outside (h : bitAt (s.part (s.sealedOf (s.ctx o.ctx).part)).dmask (mcastCmd o.cmd).die ≠ true) :
    s.multicast id o = s.finishOp id o stPROT := if_pos (by simpa using h)

theorem multicast_reads (h : bitAt (s.part (s.sealedOf (s.ctx o.ctx).part)).dmask (mcastCmd o.cmd).die = true) :
    let c := mcastCmd o.cmd
    let u := s.afterRead id o (o.pas [(c.src, c.len)])
    Served s id o 0 (o.pas [(c.src, c.len)]) → u.vpoison o.pages c.src c.len = false →
    s.multicast id o = u.mcastBegin id o (u.vread o.pages c.src c.len) := by
  intro c u hserved hclean
  have hreads : ∀ r ∈ [(c.src, c.len)], (s.afterRead id o (o.pas [(c.src, c.len)])).vpoison o.pages r.1 r.2 = false := fun r hr => by
    rw [List.mem_singleton.mp hr]
    exact hclean
  exact (if_neg (by simpa using h)).trans (opVreads_served hserved hreads _ _)

/-- An MCAST that has left and is translated reads its source. -/
theorem exec_mcast_translated (ho : s.op? id = some o) (hg : o.gone s id)
    (ht : Translated s o [((mcastCmd o.cmd).src, (mcastCmd o.cmd).len, .engRead)] o1) : exec (.mcast id) s = .next (s.multicast id o1) := by
  change execMcast id s = _
  simp only [execMcast, ho, gone_starting hg, if_true]
  exact congrArg Host.Outcome.next (leaveWith_translated ho hg ht _ _ _)

/-- An MCAST whose Teams are fixed lands in them, and the clusters skipped are counted (R406). -/
theorem exec_mcast_left (ho : s.op? id = some o) (hl : o.state = .left) : exec (.mcast id) s = .next (s.mcastLand id o) := by
  change execMcast id s = _
  simp only [execMcast, ho, not_starting_of_left hl, hl, Bool.false_eq_true, if_false, if_true]

end

/-- Settles O31: ENQ and MCAST by the branches of what each does once it is translated. -/
theorem enqueueAndMulticast : Obligations.EnqueueAndMulticast := by
  intro s id o o1 ho hg n q node c seq room mine t u inPart bound ts boarded
  refine ⟨fun ht ha => ?_, fun ht ha hm hr hs hp => ?_, fun ht ha hm hf => ?_, fun ht ha hm => ?_, fun ht hn => ?_, fun ht hn hs hp haw hb => ?_, ?_⟩
  case _ => rw [exec_enq_translated ho hg ht, enqueue_behind ha]
  case _ =>
    rw [exec_enq_translated ho hg ht]
    obtain ⟨va, ps, qs, -, -, rfl⟩ := ht
    exact congrArg _ (enqueue_placed ha hm hr hs hp)
  case _ =>
    rw [exec_enq_translated ho hg ht]
    obtain ⟨va, ps, qs, -, -, rfl⟩ := ht
    exact congrArg _ (enqueue_full ha hm hf)
  case _ =>
    rw [exec_enq_translated ho hg ht]
    obtain ⟨va, ps, qs, -, -, rfl⟩ := ht
    exact congrArg _ (enqueue_refused ha hm)
  case _ =>
    rw [exec_mcast_translated ho hg ht]
    obtain ⟨va, ps, qs, -, -, rfl⟩ := ht
    exact congrArg _ (multicast_outside hn)
  case _ =>
    rw [exec_mcast_translated ho hg ht]
    obtain ⟨va, ps, qs, -, -, rfl⟩ := ht
    exact congrArg _ ((multicast_reads hn hs hp).trans (mcastBegin_registers _ haw hb))
  case _ =>
    rintro v ids skipped data hleft rfl
    have hv : (s.setOp id o1).op? id = some o1 := Tab.get?_set_self ..
    rw [exec_mcast_left hv (by rw [hleft]), hleft]
    rfl

end Sys2Proof.Machine
end

section
/-! LEMMAS. Searches (R244, R377 to R386): how they leave, which message of a walk is served and what its service makes of the search, and MERGE. -/
set_option Elab.async false

namespace Sys2Proof.Machine

/-! ## The message that an event takes (R380) -/

/-- The event at place idx takes message m of its kind from the search's messages, and leaves r. -/
def Search.Takes (x : Search) (idx : Nat) (p : WalkMsg → Bool) (m : WalkMsg) (r : List WalkMsg) : Prop :=
  takeMsg p (if (x.msgs.filter p).length ≤ 1 then 0 else idx % (x.msgs.filter p).length) x.msgs = some (m, r)

/-- The slots of ids wait at no home, and none is poisoned (R363, R384). -/
def State.SlotsClean (s : State) (x : Search) (ids : List Nat) : Prop :=
  ids.findSome? (fun i => s.slotWaits (.op x.op) (s.index x.index) i (s.index x.index).stride) = none ∧
    ∀ i ∈ ids, s.slotPoison (s.index x.index) i (s.index x.index).stride = false

section
variable {s : State} {n idx : Nat} {x : Search} {m : WalkMsg} {r : List WalkMsg} {p : WalkMsg → Bool} {k : Search → WalkMsg → State}
  {out : Out}

theorem withMsg_served (hi : out = s.withMsg n idx p k) (hx : s.search? n = some x) (hb : x.bad = false) (ht : x.Takes idx p m r) (hs : s.serves n m = true) :
    out = .next (k { x with msgs := r } m) := by
  unfold Search.Takes at ht
  rw [hi]
  simp only [State.withMsg, hx, hb, ht, hs, Bool.false_eq_true, if_false, if_true]

theorem withMsg_waits (hi : out = s.withMsg n idx p k) (hx : s.search? n = some x) (hb : x.bad = false) (ht : x.Takes idx p m r) (hs : ¬s.serves n m = true) :
    out = .next (s.defer n { x with msgs := r } m) := by
  unfold Search.Takes at ht
  rw [hi]
  simp only [State.withMsg, hx, hb, ht, hs, Bool.false_eq_true, if_false]

/-- Slots that are clean are read. -/
theorem slotReads_clean {ids : List Nat} {k : State → State} (h : s.SlotsClean x ids) :
    s.slotReads n x m ids k = k (s.slotServed x.op (s.index x.index) ids (s.index x.index).stride) := by
  have hp : ids.any (fun i => s.slotPoison (s.index x.index) i (s.index x.index).stride) = false := by
    rw [List.any_eq_false]
    exact fun i hi => by simp [h.2 i hi]
  simp only [State.slotReads, h.1, hp, Bool.false_eq_true, if_false]

end

/-! ## Requests at their stacks, replies at the search's home (R380, R382) -/

section
variable {s : State} {n idx : Nat} {x : Search} {m : WalkMsg} {r : List WalkMsg} (hx : s.search? n = some x) (hb : x.bad = false)
include hx hb

/-- R380: one score reply for each id. -/
theorem exec_scoreRequest_served {st k : Nat} {ids : List Nat} (ht : x.Takes idx isScore (.score st ids k) r)
    (hs : s.serves n (.score st ids k) = true) (hc : s.SlotsClean x ids) :
    let y : Search := { x with msgs := r }
    let t := s.slotServed x.op (s.index x.index) ids (s.index x.index).stride
    exec (.scoreRequest n idx) s = .next (t.posted n r.length st (ids.foldl (fun z i => z.post false (t.scoreOf y i)) y)) :=
  (withMsg_served (show _ = execScoreRequest n idx s from rfl) hx hb ht hs).trans (congrArg Host.Outcome.next (slotReads_clean (x := { x with msgs := r }) hc))

/-- The adjacent ids that an expansion names, and those of them that its own stack holds (R380). -/
def State.adjacent (s : State) (x : Search) (id : Nat) : List Nat := (s.slotAdj (s.index x.index) id).filter (s.index x.index).valid

/-- R380: the expand reply, the scores of the stack's own ids, and a score request for every other stack. -/
theorem exec_expandRequest_served {st id k : Nat} (ht : x.Takes idx isExpand (.expand st id k) r)
    (hs : s.serves n (.expand st id k) = true) :
    let y : Search := { x with msgs := r }
    let ids := s.adjacent x id
    let own := ids.filter (fun i => idStack i == st)
    let t := s.slotServed x.op (s.index x.index) (id :: own) (s.index x.index).stride
    s.SlotsClean x (id :: own) → exec (.expandRequest n idx) s = .next (t.posted n r.length st
      ((forwards st ids).foldl (fun z f => z.post true (.score f.1 f.2 0))
        (own.foldl (fun z i => z.post false (t.scoreOf y i)) (y.post false (.expanded ids.length 0))))) :=
  fun hc => (withMsg_served (show _ = execExpandRequest n idx s from rfl) hx hb ht hs).trans (congrArg Host.Outcome.next (slotReads_clean (x := { x with msgs := r }) hc))

/-- R382: the full distance of a result. -/
theorem exec_refineRequest_served {st id k : Nat} (ht : x.Takes idx isRefine (.refine st id k) r)
    (hs : s.serves n (.refine st id k) = true) (hc : s.SlotsClean x [id]) :
    let y : Search := { x with msgs := r }
    let t := s.slotServed x.op (s.index x.index) [id] (s.index x.index).stride
    let d := (t.index x.index).distance x.query (t.slotVec (t.index x.index) id) 0
    exec (.refineRequest n idx) s = .next (t.posted n r.length st (y.post false (.refined id d 0))) :=
  (withMsg_served (show _ = execRefineRequest n idx s from rfl) hx hb ht hs).trans (congrArg Host.Outcome.next (slotReads_clean (x := { x with msgs := r }) hc))

/-- R379, R380: an id that neither list holds enters the candidates and, where it is visible, the results. -/
theorem exec_scoreReply_served {id d k : Nat} {vis : Bool} (ht : x.Takes idx isScored (.scored id d vis k) r)
    (hs : s.serves n (.scored id d vis k) = true) (hnew : ∀ e ∈ x.c ++ x.r, e.id ≠ id) :
    let e : Cand := { d := d, id := id, expanded := false }
    exec (.scoreReply n idx) s = .next (s.walkOn n { x with
      msgs := r, sc := x.sc - 1, c := enlist x.beam x.c e, r := if vis then enlist x.kr x.r e else x.r } r.length) := by
  have held : (x.c.any (fun c => c.id == id) || x.r.any (fun c => c.id == id)) = false := by
    rw [← List.any_append, List.any_eq_false]
    exact fun e he => by simp [hnew e he]
  refine (withMsg_served (show _ = execScoreReply n idx s from rfl) hx hb ht hs).trans (congrArg Host.Outcome.next ?_)
  simp only [held]
  rfl

theorem exec_expandReply_served {f k : Nat} (ht : x.Takes idx isExpanded (.expanded f k) r) (hs : s.serves n (.expanded f k) = true) :
    exec (.expandReply n idx) s = .next (s.walkOn n { x with msgs := r, ex := x.ex - 1, sc := x.sc + f } r.length) :=
  withMsg_served (show _ = execExpandReply n idx s from rfl) hx hb ht hs

/-- R382: the refined entry enters the final list, and with the last one the search is over. -/
theorem exec_refineReply_served {id d k : Nat} (ht : x.Takes idx isRefined (.refined id d k) r) (hs : s.serves n (.refined id d k) = true) :
    let z : Search := { x with msgs := r, rf := x.rf - 1, refined := enlist x.k x.refined { d := d, id := id, expanded := true } }
    exec (.refineReply n idx) s = .next (if z.rf = 0 then (s.setSearch n z).finishSearch n z else s.setSearch n z) :=
  withMsg_served (show _ = execRefineReply n idx s from rfl) hx hb ht hs

/-! ## MERGE (R386) -/

/-- R386, R394: the list of a completed search leaves on its tree's port. -/
theorem exec_merge_sends (ho : s.op? x.op = none) (hu : s.unreachable.contains (switchOf x.tport) = false)
    (hopen : s.nslOpen (x.home / 4) x.tport = true) : ∃ t, exec (.merge n) s = .next t ∧ t.search? n = none ∧
      t.merges = s.merges ++ [(x.tport, mergeBytes x ((if 0 < x.kc then x.refined else x.r).take x.k))] := by
  have herase : (s.searches.erase n).get? n = none := by rw [Tab.get?_erase, if_pos rfl]
  change ∃ t, execMerge n s = .next t ∧ _
  simp only [execMerge, hx, ho, hu, hopen, hb, Option.isSome_none, Bool.false_eq_true, if_false, Bool.not_true]
  exact ⟨_, rfl, herase, rfl⟩

end

/-! ## A search leaves (R377) -/

section
variable {s : State} {op : Nat} {o : Op}

/-- The snapshot that a search takes: pub, where it is below the one that the command names (R377). -/
def State.snapOf (s : State) (o : Op) : Nat :=
  let pub := (s.index (srchCmd o.cmd).index).pub
  if pub < (srchCmd o.cmd).snap then pub else (srchCmd o.cmd).snap

/-- A search that nothing is wrong with keeps its snapshot. -/
theorem srchLeave_sound (h : s.srchFault o = none) : srchLeave s o = (s, { o with aux := [s.snapOf o] }) := by
  simp only [srchLeave, h]
  rfl

theorem exec_srch_leaves (ho : s.op? op = some o) (hq : o.state = .queued) (hn : o.num ≠ 0) (he : s.earlierQueued op o = false)
    (hf : s.srchFault o = none) :
    let o1 : Op := { o with state := .translating, aux := [s.snapOf o] }
    exec (.srch op) s = .next (if o.nearby then (s.setOp op o1).startSearch op o1
      else ((s.setOp op o1).sendPacket o.core o.place (pushTag op)).due [.srch op]) := by
  intro o1
  have hnum : s.numbered o = (o.num, s) := if_neg hn
  have hleave : srchLeave s { o with state := .translating, num := o.num } = (s, o1) := srchLeave_sound hf
  change execSrch op s = _
  simp only [execSrch, ho, hq, reduceCtorEq, if_false]
  rw [leaveThen_first ho hq (by rw [he]; exact Bool.false_ne_true), hnum, hleave]

end

/-- Settles O33: each event by the message that it takes and whether it is served; SRCH by how it leaves. -/
theorem searches : Obligations.Searches := by
  intro s n idx x m r hx hb ix y from_ served clean read answer
  refine ⟨fun st ids k hf hm hs hc => ?_, fun st id k hf hm hs => ?_, fun id d vis k hf hm hs hnew => ?_, fun f k hf hm hs => ?_,
    fun st id k hf hm hs hc => ?_, fun id d k hf hm hs => ?_, fun hs => ?_, fun op o ho hq hn he hf => ?_, exec_merge_sends hx hb⟩
  · subst hm
    exact exec_scoreRequest_served hx hb hf hs hc
  · subst hm
    exact exec_expandRequest_served hx hb hf hs
  · subst hm
    exact exec_scoreReply_served hx hb hf hs hnew
  · subst hm
    exact exec_expandReply_served hx hb hf hs
  · subst hm
    exact exec_refineRequest_served hx hb hf hs hc
  · subst hm
    exact exec_refineReply_served hx hb hf hs
  · exact ⟨fun hf => withMsg_waits (show _ = execScoreRequest n idx s from rfl) hx hb hf hs,
      fun hf => withMsg_waits (show _ = execExpandRequest n idx s from rfl) hx hb hf hs,
      fun hf => withMsg_waits (show _ = execRefineRequest n idx s from rfl) hx hb hf hs,
      fun hf => withMsg_waits (show _ = execScoreReply n idx s from rfl) hx hb hf hs,
      fun hf => withMsg_waits (show _ = execExpandReply n idx s from rfl) hx hb hf hs,
      fun hf => withMsg_waits (show _ = execRefineReply n idx s from rfl) hx hb hf hs⟩
  · have h := exec_srch_leaves ho hq hn he hf
    exact ⟨fun hnear => by rw [h, hnear]; rfl, fun hfar => by rw [h, hfar]; rfl⟩

end Sys2Proof.Machine
end

section
/-! LEMMAS. Updates and publications of an Index (R245, R246, R372 to R375): what each does once it has left and what it reads is there. -/
set_option Elab.async false

namespace Sys2Proof.Machine

/-! ## Updates (R245, R372, R374) -/

/-- The slot of an update has been read, with what it is to hold: no earlier update of the slot is left, and nothing waits or is poisoned. -/
structure UpdReady (s : State) (id : Nat) (o : Op) (x : Index) (reads : List (Nat × Nat)) (t : State) : Prop where
  behind : s.updBehind o (updCmd o.cmd) = false
  waits : s.slotWaits (.op id) x (updCmd o.cmd).gid 8 = none
  served : Served s id o (2 * o.pos) (o.pas reads)
  clean : ∀ r ∈ reads, (s.afterRead id o (o.pas reads)).vpoison o.pages r.1 r.2 = false
  slot : t.slotPoison x (updCmd o.cmd).gid 8 = false

/-- The Index of an update, and the ranges that it reads. -/
def State.updIndex (s : State) (o : Op) : Index := s.index (updCmd o.cmd).index
def State.updReads (s : State) (o : Op) : List (Nat × Nat) := (updReqs (s.updIndex o) (cmdVar o.cmd) (updCmd o.cmd)).map (fun r => (r.1, r.2.1))

/-- The machine when they have been read. -/
def State.updServed (s : State) (id : Nat) (o : Op) : State :=
  (s.afterRead id o (o.pas (s.updReads o))).slotServed id (s.updIndex o) [(updCmd o.cmd).gid] 8

section
variable {s : State} {id : Nat} {o : Op} {i : Instr}

theorem updWord_left (ho : s.op? id = some o) (hl : o.state = .left) (hu : o.units = 0) (ha : o.aux = []) :
    updWord id i s = .next (s.updRun id o i) := by
  simp [updWord, ho, not_starting_of_left hl, hl, hu, ha]

/-- What an update makes of its slot, whose versions are ins and del, once all that it reads is there (R372, R374). -/
def State.updStep (t : State) (id : Nat) (o : Op) (x : Index) (ins del : Nat) : State :=
  let c := updCmd o.cmd
  let pa := x.slotPa c.gid
  if o.pos == 0 && t.slotPoison x c.gid 8 then t.finishOp id o stUCE
  else if cmdVar o.cmd = 0 then
    if o.pos = 0 && ins ≠ 0 && del = 0xFFFFFFFF then t.finishOp id o (stFORMAT 8)
    else if o.pos = 0 && ins ≠ 0 && !(decide (del ≤ x.pub) && decide (del ≤ t.minsnap c.index)) then
      (t.setOp id { o with aux := [1] }).due [.reclaimInsert id]
    else if o.pos < x.vb then
      t.offerUnit id { o with pos := o.pos + min (255 * 32) (x.vb - o.pos) }
        [storeItem (pa + 0x240 + o.pos) (t.vread o.pages (c.vec + o.pos) (min (255 * 32) (x.vb - o.pos)))]
    else if o.pos = x.vb then
      t.offerUnit id { o with pos := o.pos + 1 } (storeItem pa (toBytes 4 c.ver ++ toBytes 4 0xFFFFFFFF) :: adjItems t o c pa)
    else t.finishOp id o (stOK 0)
  else if o.pos = 1 then t.finishOp id o (stOK 0)
  else if cmdVar o.cmd = 1 then
    if ins = 0 || del ≠ 0xFFFFFFFF then t.finishOp id o (stFORMAT 8)
    else t.offerUnit id { o with pos := 1 } [storeItem (pa + 4) (toBytes 4 c.ver)]
  else if ins = 0 then t.finishOp id o (stFORMAT 8)
  else t.offerUnit id { o with pos := 1 } (adjItems t o c pa)

theorem updRun_ready (h : UpdReady s id o (s.updIndex o) (s.updReads o) (s.updServed id o)) : s.updRun id o i =
    (s.updServed id o).updStep id o (s.updIndex o) (s.slotIns (s.updIndex o) (updCmd o.cmd).gid) (s.slotDel (s.updIndex o) (updCmd o.cmd).gid) := by
  have hw := h.waits
  unfold State.updIndex at hw
  simp only [State.updRun, h.behind, hw, Bool.false_eq_true, if_false]
  exact opVreads_served h.served h.clean _ _

/-- An update that has left, and whose reads are there, takes its step. -/
theorem exec_upd_ready (hi : exec i s = updWord id i s) (ho : s.op? id = some o) (hl : o.state = .left) (hu : o.units = 0) (ha : o.aux = [])
    (h : UpdReady s id o (s.updIndex o) (s.updReads o) (s.updServed id o)) : exec i s = .next ((s.updServed id o).updStep id o (s.updIndex o)
      (s.slotIns (s.updIndex o) (updCmd o.cmd).gid) (s.slotDel (s.updIndex o) (updCmd o.cmd).gid)) := by
  rw [hi, updWord_left ho hl hu ha, updRun_ready h]

section
variable {x : Index} {ins del : Nat} {t : State} (hq : t.slotPoison x (updCmd o.cmd).gid 8 = false)

/-- R370, R374: versions, adjacency count and adjacency are one engine Chunk, once the vector is written. -/
theorem updStep_insert_versions (hv : cmdVar o.cmd = 0) (hp : o.pos = x.vb) (h0 : o.pos ≠ 0) :
    t.updStep id o x ins del = t.offerUnit id { o with pos := o.pos + 1 }
      (storeItem (x.slotPa (updCmd o.cmd).gid) (toBytes 4 (updCmd o.cmd).ver ++ toBytes 4 0xFFFFFFFF) ::
        adjItems t o (updCmd o.cmd) (x.slotPa (updCmd o.cmd).gid)) := by
  simp [State.updStep, hv, ← hp, h0]

include hq

/-- R374: an insert into a slot that no version holds begins with the vector. -/
theorem updStep_insert_vector (hv : cmdVar o.cmd = 0) (hp : o.pos = 0) (hvb : 0 < x.vb) :
    t.updStep id o x 0 del = t.offerUnit id { o with pos := min (255 * 32) x.vb }
      [storeItem (x.slotPa (updCmd o.cmd).gid + 0x240) (t.vread o.pages (updCmd o.cmd).vec (min (255 * 32) x.vb))] := by
  simp [State.updStep, hv, hp, hvb, hq]

/-- R372: an insert into a slot whose version may still be seen is held. -/
theorem updStep_insert_held (hv : cmdVar o.cmd = 0) (hp : o.pos = 0) (hi : ins ≠ 0) (hd : del ≠ 0xFFFFFFFF)
    (hr : ¬(del ≤ x.pub ∧ del ≤ t.minsnap (updCmd o.cmd).index)) :
    t.updStep id o x ins del = (t.setOp id { o with aux := [1] }).due [.reclaimInsert id] := by
  have hseen : x.pub < del ∨ t.minsnap (updCmd o.cmd).index < del := by omega
  simp [State.updStep, hv, hp, hi, hd, hq, hseen]

/-- R374: a delete gives the slot's version its end. -/
theorem updStep_delete (hv : cmdVar o.cmd = 1) (hp : o.pos = 0) (hi : ins ≠ 0) :
    t.updStep id o x ins 0xFFFFFFFF = t.offerUnit id { o with pos := 1 }
      [storeItem (x.slotPa (updCmd o.cmd).gid + 4) (toBytes 4 (updCmd o.cmd).ver)] := by
  simp [State.updStep, hv, hp, hi, hq]

/-- R374: a link replaces the adjacency. -/
theorem updStep_link (hv : cmdVar o.cmd = 2) (hp : o.pos = 0) (hi : ins ≠ 0) :
    t.updStep id o x ins del = t.offerUnit id { o with pos := 1 } (adjItems t o (updCmd o.cmd) (x.slotPa (updCmd o.cmd).gid)) := by
  simp [State.updStep, hv, hp, hi, hq]

end

/-- R372: a held insert goes on once its slot may be reclaimed. -/
theorem exec_reclaimInsert (ho : s.op? id = some o) (hl : o.state = .left) (ha : o.aux = [1]) :
    exec (.reclaimInsert id) s = .next (if s.slotDel (s.updIndex o) (updCmd o.cmd).gid ≤ (s.updIndex o).pub ∧
        s.slotDel (s.updIndex o) (updCmd o.cmd).gid ≤ s.minsnap (updCmd o.cmd).index
      then (s.setOp id { o with aux := [] }).due [.updInsert id] else s.due [.reclaimInsert id]) := by
  change execReclaimInsert id s = _
  simp only [execReclaimInsert, ho, hl, ha, ne_eq, not_true, decide_false, Bool.or_false, Bool.false_eq_true, if_false]
  unfold State.updIndex
  split <;> rfl

end

/-! ## Publications (R246, R375) -/

section
variable {s : State} {id n : Nat} {o : Op}

/-- A command that names no memory and no status address is translated with nothing. -/
theorem State.reach_nil (s : State) (ctx : Nat) : s.reach ctx [] = .ok [] := rfl

/-- A PUBL that nothing is wrong with, for a version above pub, becomes pending (R375). -/
theorem publLeave_pending (hb : publBad o.cmd = none) (hx : s.indexServes (cmdField o.cmd 71 64) o.ctx = true)
    (hv : (s.index (cmdField o.cmd 71 64)).pub < cmdField o.cmd 63 32) :
    publLeave id s o = (({ s with publs := s.publs ++ [(cmdField o.cmd 71 64, cmdField o.cmd 63 32, id)] } : State).due
      [.publication (cmdField o.cmd 71 64)], o) := by
  have hf : s.publFault o = none := by simp [State.publFault, hx, Nat.not_lt.mpr hv.le, Nat.ne_of_gt hv]
  simp only [publLeave, hb, hf]

/-- It leaves, and waits to be reached. -/
theorem exec_publ_pending (ho : s.op? id = some o) (hq : o.state = .queued) (hn : o.num ≠ 0) (he : s.earlierQueued id o = false)
    (hnear : o.nearby = true) (hs : o.status = 0) (hb : publBad o.cmd = none) (hx : s.indexServes (cmdField o.cmd 71 64) o.ctx = true)
    (hv : (s.index (cmdField o.cmd 71 64)).pub < cmdField o.cmd 63 32) (hst : cmdStaddr o.cmd = 0) (ha : o.aux = []) :
    let t := ({ s with publs := s.publs ++ [(cmdField o.cmd 71 64, cmdField o.cmd 63 32, id)] } : State).due [.publication (cmdField o.cmd 71 64)]
    exec (.publ id) s = .next ((t.setOp id { o with state := .translating }).setOp id
      { o with state := .left, stva := none, pages := [], wants := none }) := by
  intro t
  have hnum : s.numbered o = (o.num, s) := if_neg hn
  have hleave : publLeave id s { o with state := .translating, num := o.num } = (t, { o with state := .translating }) := publLeave_pending hb hx hv
  have hstatus (u : State) : u.statusAt o.ctx (cmdStaddr o.cmd) = .at_ none [] := if_pos hst
  change execPubl id s = _
  rw [execPubl, leaveThen_first ho hq (by rw [he]; exact Bool.false_ne_true), hnum, hleave, if_pos hnear]
  simp only [translateWith, hstatus, hs, State.reach_nil, ha]
  rfl

/-- The end of an operation is no change of an Index or of what is pending. -/
theorem State.finishOp_index (s : State) (id : Nat) (o : Op) (status : Nat) :
    (s.finishOp id o status).indexes = s.indexes ∧ (s.finishOp id o status).publs = s.publs := by
  cases h : o.stva <;> simp only [State.finishOp, h] <;> exact ⟨rfl, rfl⟩

/-- R237: an operation that is finished has its status, and nothing else is left for it to do. -/
theorem State.finishOp_status (s : State) (id : Nat) (o : Op) (status : Nat) :
    ∃ o', (s.finishOp id o status).op? id = some o' ∧ o'.state = .status ∧ o'.status = status := by
  cases h : o.stva with
  | none => exact ⟨_, (State.finishOp_silent status h).1, rfl, rfl⟩
  | some va => exact ⟨_, (State.finishOp_writes status h).1, rfl, rfl⟩

/-- The machine when pub has reached the only version that is pending. -/
def State.published (s : State) (n v : Nat) : State := { s.setIndex n { s.index n with pub := max (s.index n).pub v } with publs := [] }

section
variable {v : Nat} (ho : s.op? id = some o) (hl : o.state = .left) (hp : s.publs = [(n, v, id)])
include ho hl hp

/-- R375: pub becomes the version, and its PUBL completes. -/
theorem exec_publication_done (hd : s.updsDone n v = true) (hv : 0 < v) :
    exec (.publication n) s = .next ((s.published n v).finishOp id o 0) := by
  have hupds (ps : List (Nat × Nat × Nat)) : ({ s with publs := ps } : State).updsDone n v = true := hd
  change execPublication n s = _
  unfold execPublication
  simp only [hp, List.filter_cons, List.filter_nil, ho, hl, beq_self_eq_true, Bool.or_true, if_true, List.foldl_cons, List.foldl_nil, hupds,
    Nat.zero_max, List.isEmpty_cons, Bool.false_eq_true, if_false, Nat.pos_iff_ne_zero.mp hv, le_refl, decide_true, Bool.and_true, Bool.not_true, State.setIndex_publs]
  generalize hy : State.op? _ id = y
  obtain rfl : y = some o := hy.symm.trans ho
  simp only [hl, if_true]
  rfl

/-- R375: while an update is left at or below it, the version stays pending. -/
theorem exec_publication_waits (hd : s.updsDone n v = false) : exec (.publication n) s = .next (s.due [.publication n]) := by
  have hupds (ps : List (Nat × Nat × Nat)) : ({ s with publs := ps } : State).updsDone n v = false := hd
  have hsame : ({ s with publs := [(n, v, id)] } : State) = s := by rw [← hp]
  change execPublication n s = _
  unfold execPublication
  simp only [hp, List.filter_cons, List.filter_nil, ho, hl, beq_self_eq_true, Bool.or_true, if_true, List.foldl_cons, List.foldl_nil, hupds,
    List.isEmpty_cons, Bool.false_eq_true, if_false]
  rw [hsame]

end

end

/-- Settles O35: updates by the variant, the step and the slot's versions; PUBL as it becomes pending and as pub reaches it. -/
theorem indexUpdatesAndPublications : Obligations.IndexUpdatesAndPublications := by
  refine ⟨fun s id o ho hl hu ha => ?_, fun s id n o ho => ?_⟩
  · intro c x pa ins del held reads s0 t adj ready
    have step {i : Instr} (hi : exec i s = updWord id i s) (h : ready) : exec i s = .next (t.updStep id o x ins del) :=
      exec_upd_ready hi ho hl hu ha ⟨h.1, h.2.1, h.2.2.1, h.2.2.2.1, h.2.2.2.2⟩
    refine ⟨fun h hv hp h0 => ?_, fun h hv hp hi hvb => ?_, fun h hv hp hi hd hr => ?_, fun h hv hp hi hd => ?_, fun h hv hp hi => ?_,
      exec_reclaimInsert (s := held) (o := { o with aux := [1] }) (Tab.get?_set_self ..) hl rfl⟩
    · exact (step rfl h).trans (congrArg _ (updStep_insert_versions hv hp h0))
    · exact (step rfl h).trans (congrArg _ (by rw [hi]; exact updStep_insert_vector h.2.2.2.2 hv hp hvb))
    · exact (step rfl h).trans (congrArg _ (updStep_insert_held h.2.2.2.2 hv hp hi hd hr))
    · exact (step rfl h).trans (congrArg _ (by rw [hd]; exact updStep_delete h.2.2.2.2 hv hp hi))
    · exact (step rfl h).trans (congrArg _ (updStep_link h.2.2.2.2 hv hp hi))
  · intro v x
    refine ⟨fun hq hn he hnear hs hb hidx hx hv hst ha => ?_, fun hl hp hd hv hx => ?_, fun hl hp hd => exec_publication_waits ho hl hp hd⟩
    · subst hidx
      exact exec_publ_pending ho hq hn he hnear hs hb hx hv hst ha
    · obtain ⟨hi, hpubls⟩ := (s.published n v).finishOp_index id o 0
      refine ⟨_, exec_publication_done ho hl hp hd hv, ?_, hpubls, fun k hk => ?_, State.finishOp_status ..⟩
      · rw [State.index, hi]
        exact (congrArg Index.pub (Tab.getD_set_self ..)).trans (max_eq_right hx.le)
      · rw [State.index, hi]
        exact Tab.getD_set_of_ne _ _ _ hk

end Sys2Proof.Machine
end

section
/-! LEMMAS. TIMED_HOLD_LOAD (R299) and the room of the ready pool (R294): what it does at the lead time, and nodes of one number that the pool
counts one by one. -/
set_option Elab.async false

namespace Sys2Proof.Machine

/-- R299: at the lead time of a running node the next one, a Kernel that waits for nothing else, is dispatched once the pool, as it stands before
the timed node is held, has room. -/
theorem exec_timedHoldLoad_next {s : State} {q seq : Nat} {n m : Node} (hn : s.node? q seq = some n) (hr : n.state = .running)
    (hl : n.leadCome s = true) (hm : s.node? q ((seq + 1) % 2 ^ 32) = some m) (hk : m.kind = 1) (hw : m.state = .waiting)
    (hu : s.unmet m = [(q, seq)]) (hb : s.badWait m = none) :
    let s1 := s.setNode { n with state := .held }
    exec (.timedHoldLoad q seq) s = .next (if s.poolRoom m then s1.poolNode m else s1.due [.timedHoldLoad q seq]) := by
  have hlive : n.state.live = true := by rw [hr]; rfl
  have hpooled : n.pooled = false := by rw [Node.pooled, hr]
  change execTimedHoldLoad q seq s = _
  simp only [execTimedHoldLoad, hn, hm, hlive, hpooled, hl, hk, hw, hu, hb]
  simp

/-- R294, R296: a Kernel node that enters the pool makes its partition's dispatch due. -/
theorem poolNode_kernel_agenda {s : State} {n : Node} (hk : n.kind = 1) (hr : s.poolRoom n = true) (ha : s.agenda = []) :
    ∃ p, (s.poolNode n).agenda = [.kernelDispatch p] := by
  have hkind (st : NState) : ({ n with state := st } : Node).kind = 1 := hk
  have hevents (st : NState) : ∃ p, s.takeEvents { n with state := st } = [.kernelDispatch p] := by
    simp only [State.takeEvents, hkind, ha]
    exact ⟨_, rfl⟩
  obtain ⟨p, hp⟩ := hevents (.inPool s.wall s.steps)
  refine ⟨p, ?_⟩
  rw [State.poolNode, if_pos hr, State.due_agenda, hp]
  exact congrArg (· ++ [Instr.kernelDispatch p]) ha

/-! ## Nodes of one number -/

/-- A timed node that is running, with hold, and nodes of the same Queue and number in the ready pool. -/
def runningTimer : Node := { queue := 0, seq := 1, bytes := [], state := .running, status := 0, wants := none, read := false }
def pooledTwin : Node := { runningTimer with state := .inPool 0 0 }

/-- The Kernel node after it, in order (kind 1, ord 1). -/
def nextKernel : Node := { queue := 0, seq := 2, bytes := [0x01, 0x20], state := .waiting, status := 0, wants := none, read := false }

theorem nextKernel_awaits : nextKernel.awaits = [] := by decide +kernel

section
variable (k : Nat)

/-- A pool of k such twins. -/
def twinPool : State := { State.reset with nodes := runningTimer :: (List.replicate k pooledTwin ++ [nextKernel]), agenda := [] }

/-- The machine when the timed node, and with it every twin, is held. -/
def twinsHeld : State := (twinPool k).setNode { runningTimer with state := .held }

theorem twinPool_next : (twinPool k).node? 0 ((1 + 1) % 2 ^ 32) = some nextKernel := by
  have htwins : (List.replicate k pooledTwin).find? (fun n => n.queue == 0 && n.seq == (1 + 1) % 2 ^ 32) = none := List.find?_eq_none.mpr fun n hn => by
    rw [List.eq_of_mem_replicate hn]
    decide
  show (List.replicate k pooledTwin ++ [nextKernel]).find? (fun n => n.queue == 0 && n.seq == (1 + 1) % 2 ^ 32) = _
  rw [List.find?_append, htwins]
  rfl

theorem twinPool_unmet : (twinPool k).unmet nextKernel = [(0, 1)] := by
  have hfollows : nextKernel.follows = [(0, 1)] := by decide
  have hcount : ((twinPool k).queue 0).done = 0 := rfl
  have hnode : (twinPool k).node? 0 1 = some runningTimer := rfl
  have hdone : (twinPool k).seqDone 0 1 = false := by
    simp only [State.seqDone, hcount, hnode]
    decide
  simp [State.unmet, hfollows, nextKernel_awaits, hdone]

theorem twinPool_lead : runningTimer.leadCome (twinPool k) = true := by
  have hfld (hi lo : Nat) : runningTimer.fld hi lo = 0 := by simp [Node.fld, runningTimer, ofBytes, field]
  simp [Node.leadCome, hfld]

theorem twinPool_badWait : (twinPool k).badWait nextKernel = none := by simp [State.badWait, nextKernel_awaits]

/-- As many twins as the pool has entries fill it. -/
theorem twinPool_full (hk : poolSize ≤ k) : (twinPool k).poolRoom nextKernel = false := by
  let p (m : Node) : Bool := m.pooled && (twinPool k).nodePart m == (twinPool k).nodePart nextKernel
  have htwins : (List.replicate k pooledTwin).filter p = List.replicate k pooledTwin := List.filter_eq_self.mpr fun n hn => by
    rw [List.eq_of_mem_replicate hn]
    exact Bool.and_eq_true_iff.mpr ⟨rfl, beq_self_eq_true _⟩
  have hall : (twinPool k).nodes.filter p = List.replicate k pooledTwin := by
    show (runningTimer :: (List.replicate k pooledTwin ++ [nextKernel])).filter p = _
    rw [List.filter_cons_of_neg Bool.false_ne_true, List.filter_append, htwins]
    exact List.append_nil _
  refine decide_eq_false ?_
  show ¬((twinPool k).nodes.filter p).length < poolSize
  rw [hall, List.length_replicate]
  exact Nat.not_lt.mpr hk

theorem mem_twinPool {n : Node} (h : n ∈ (twinPool k).nodes) : n = runningTimer ∨ n = pooledTwin ∨ n = nextKernel := by
  rcases List.mem_cons.mp h with h | h
  · exact .inl h
  rcases List.mem_append.mp h with h | h
  · exact .inr (.inl (List.eq_of_mem_replicate h))
  · exact .inr (.inr (List.mem_singleton.mp h))

/-- With them held it is empty. -/
theorem twinsHeld_room : (twinsHeld k).poolRoom nextKernel = true := by
  have hnone : (twinsHeld k).nodes.filter (fun m => m.pooled && (twinsHeld k).nodePart m == (twinsHeld k).nodePart nextKernel) = [] :=
    List.filter_eq_nil_iff.mpr fun m hm => by
      obtain ⟨n, hn, rfl⟩ := List.mem_map.mp hm
      rcases mem_twinPool k hn with rfl | rfl | rfl
      · exact Bool.false_ne_true
      · exact Bool.false_ne_true
      · exact Bool.false_ne_true
  unfold State.poolRoom
  rw [hnone]
  rfl

end

/-- Refutes O43: TIMED_HOLD_LOAD tests the pool's room before it holds the timed node, the statement after it. They differ where nodes of that
node's Queue and number stand in the pool, which no rule of the statement excludes: the hold takes them out of a full pool. Then the Kernel
waits for room, and is not pooled. -/
theorem not_queuesAndNodes : ¬ Obligations.QueuesAndNodes := by
  intro h
  obtain ⟨-, -, -, -, -, -, -, -, -, hload, -⟩ := h (twinPool poolSize) 0 1 runningTimer
  have hlead := twinPool_lead poolSize
  have hkind : nextKernel.kind = 1 := by decide
  have hclaim := hload nextKernel ⟨rfl, rfl, rfl⟩ rfl hlead (twinPool_next poolSize) hkind rfl (twinPool_unmet _) (twinPool_badWait _)
  rw [exec_timedHoldLoad_next (s := twinPool poolSize) (q := 0) (seq := 1) (n := runningTimer) rfl rfl hlead
    (twinPool_next poolSize) hkind rfl (twinPool_unmet _) (twinPool_badWait _), twinPool_full _ le_rfl] at hclaim
  have hpool : (twinsHeld poolSize).due [.timedHoldLoad 0 1] = (twinsHeld poolSize).poolNode nextKernel :=
    (Host.Outcome.next.inj hclaim).trans (if_pos (twinsHeld_room _))
  obtain ⟨p, hp⟩ := poolNode_kernel_agenda hkind (twinsHeld_room _) rfl
  have hagenda : [Instr.timedHoldLoad 0 1] = [.kernelDispatch p] := (congrArg State.agenda hpool).trans hp
  exact absurd hagenda (by simp)

end Sys2Proof.Machine
end

section
/-! LEMMAS. Kernels and Teams: what each of their events does where its conditions are met (R255, R303, R308, R311 to R313, R316, R317). -/
set_option Elab.async false

namespace Sys2Proof.Machine

section
variable {s : State} {kid : Nat} {k : Kernel}

/-! ## Loading a core (R312) -/

/-- The core that a load leaves: its pool and predictor reset, poolpart that of the launch record. -/
def Core.loadedFor (x : Core) (poolpart : Nat) : Core := { x with pool := [], poolpart := poolpart, pred := [], icache := [], rot := 0, active := [] }

/-- R312: a core that a Kernel has taken is loaded, of the core and of the others nothing else changes, once no command that it issued is left. -/
theorem exec_coreLoad {c : Nat} (hk : s.kernels.get? kid = some k) (hc : (s.core c).kernel = some kid) (hp : (s.core c).poolpart = 0)
    (hb : (s.core c).board = []) (ho : ∀ o ∈ s.ops, o.2.q ≤ 1 → o.2.inst = c → o.2.kernel = none) :
    ∃ t, exec (.coreLoad kid c) s = .next t ∧ t.cores = (s.setCore c ((s.core c).loadedFor k.launch.poolpart)).cores ∧
      t = { s with cores := t.cores, clusters := t.clusters, kernels := t.kernels, fresh := t.fresh, agenda := t.agenda } := by
  have hops : s.ops.any (fun e => decide (e.2.q ≤ 1) && e.2.inst == c && e.2.kernel.isSome) = false := by
    rw [List.any_eq_false]
    intro e he h
    simp only [Bool.and_eq_true, decide_eq_true_eq, beq_iff_eq] at h
    obtain ⟨⟨hq, hi⟩, hs⟩ := h
    rw [ho e he hq hi] at hs
    exact absurd hs (by decide)
  have hmine : ¬((s.core c).kernel ≠ some kid || decide ((s.core c).poolpart ≠ 0)) = true := by simp [hc, hp]
  have hready : ¬(!(s.core c).board.isEmpty || s.ops.any (fun e => decide (e.2.q ≤ 1) && e.2.inst == c && e.2.kernel.isSome)) = true := by
    simp [hb, hops]
  change ∃ t, execCoreLoad kid c s = _ ∧ _
  unfold execCoreLoad
  simp only [hk]
  rw [if_neg hmine, if_neg hready]
  exact ⟨_, rfl, rfl, rfl⟩

/-! ## Forming Teams (R308, R314, R317) -/

/-- R308, R314: while a Kernel that runs or drains has a Team to form, one is formed, its partial Groups first where it drains without a Team;
where its Context is not Live, none is. -/
theorem exec_teamFormation (hk : s.kernels.get? kid = some k) (hst : k.state = .running ∨ k.state = .draining) :
    let f : State := if s.drainsNow kid k then s.forceAll kid else s
    f.teamsLeft kid k = true → exec (.teamFormation kid) s =
      .next ((if (f.ctx k.ctx).state ≠ .live then f else (f.formNext kid k).1).due [.teamFormation kid]) := by
  intro f hl
  have hrun : ¬(k.state ≠ .running ∧ k.state ≠ .draining) := fun h => hst.elim h.1 h.2
  change execTeamFormation kid s = _
  unfold execTeamFormation
  simp only [hk]
  change (if k.state ≠ .running ∧ k.state ≠ .draining then _ else if !f.teamsLeft kid k then _ else if (f.ctx k.ctx).state ≠ .live then _ else _) = _
  rw [if_neg hrun, hl, if_neg (by decide)]
  by_cases h : (f.ctx k.ctx).state ≠ .live
  · rw [if_pos h, if_pos h]
  · rw [if_neg h, if_neg h]

theorem ctx_ite_forceAll (b : Bool) (n : Nat) : (if b then s.forceAll kid else s).ctx n = s.ctx n := by
  cases b <;> rfl

/-! ## The Team that is formed (R307, R309) -/

theorem modKernel_teams (f : Kernel → Kernel) : (s.modKernel kid f).teams = s.teams := by
  unfold State.modKernel
  split <;> rfl

theorem openChunk_teams {c slot : Nat} : (s.openChunk c slot).teams = s.teams := by
  unfold State.openChunk
  split <;> rfl

theorem formGroup_teams (mk : Making) (c index : Nat) (role : Role) : (s.formGroup mk c index role).teams = s.teams := by
  unfold State.formGroup
  split
  · exact openChunk_teams
  · rfl

theorem gangFor_teams (cl : Nat) (again : Option Nat) : (s.gangFor kid cl again).2.teams = s.teams := by
  have hnew (k : Kernel) : (State.gangFor.newGang s kid cl k).2.teams = s.teams := modKernel_teams ..
  unfold State.gangFor
  split
  · rfl
  · split
    · rfl
    · split
      · split
        · exact modKernel_teams ..
        · exact hnew _
      · exact hnew _

theorem foldl_teams {α : Type} {f : State → α → State} (hf : ∀ s x, (f s x).teams = s.teams) (xs : List α) (s : State) :
    (xs.foldl f s).teams = s.teams := by
  induction xs generalizing s with
  | nil => rfl
  | cons x xs ih => exact (ih _).trans (hf s x)

/-- R306, R307: a Team of the grid is entered among the Teams, with the coordinates of its linear index and its home's room. -/
theorem formTeam_teams {lin : Nat} {cores : List Nat} {room : Room} (hx : 0 < k.launch.gridx) (hy : 0 < k.launch.gridy) :
    ∃ tid x, (s.formTeam kid k { lin := lin, recs := none, gang := none } cores room).teams = s.teams.set tid x ∧
      x.kernel = kid ∧ x.x = lin % k.launch.gridx ∧ x.y = lin / k.launch.gridx % k.launch.gridy ∧
      x.z = lin / (k.launch.gridx * k.launch.gridy) ∧ x.home = cores.headD 0 ∧ x.cores = cores ∧ x.block = room.block ∧
      x.barBase = room.base ∧ x.nbar = k.launch.nbar ∧ x.tscr = k.launch.tscr := by
  have hmx : max 1 k.launch.gridx = k.launch.gridx := Nat.max_eq_right hx
  have hmy : max 1 k.launch.gridy = k.launch.gridy := Nat.max_eq_right hy
  unfold State.formTeam
  extract_lets l home r tid cont shared xyz t source s1 core pool bars rings s2 mk n per s3 s4
  have hs3 : s3.teams = s2.teams := foldl_teams (fun _ _ => formGroup_teams ..) ..
  have hs4 : s4.teams = s.teams.set tid t := calc
    s4.teams = s3.teams := modKernel_teams ..
    _ = r.2.teams.set tid t := hs3
    _ = s.teams.set tid t := congrArg (·.set tid t) (gangFor_teams ..)
  refine ⟨tid, t, hs4, rfl, ?_, ?_, ?_, rfl, rfl, rfl, rfl, rfl, rfl⟩
  · exact congrArg (lin % ·) hmx
  · exact congrArg₂ (fun a b => lin / a % b) hmx hmy
  · exact congrArg₂ (fun a b => lin / (a * b)) hmx hmy

/-! ## The end of a Kernel (R311, R313) -/

theorem dropIdle_of_gangs_nil (hk : s.kernels.get? kid = some k) (hg : k.gangs = []) : s.dropIdle kid = s := by
  simp [State.dropIdle, hk, hg]

/-- R313: a drained Kernel that holds no cluster goes on to wait for its commands. -/
theorem exec_kernelComplete_drained (hk : s.kernels.get? kid = some k) (hd : s.drained kid k = true) (hc : k.clusters = [])
    (hg : k.gangs = []) : exec (.kernelComplete kid) s =
      .next ((s.modKernel kid (fun x => { x with state := .completing })).due [.kernelComplete kid]) := by
  change execKernelComplete kid s = _
  simp only [execKernelComplete, hk, hd, hc, dropIdle_of_gangs_nil hk hg]
  rfl

theorem drained_of_state_ne (h : k.state ≠ .draining) : s.drained kid k = false := by
  simp [State.drained, h]

theorem any_ops_eq_false (h : ∀ o ∈ s.ops, o.2.kernel ≠ some kid) : s.ops.any (fun e => e.2.kernel == some kid) = false := by
  simpa using h

/-- Whether an offer checks in a line of a cluster among those of a Kernel. -/
def Offer.checksIn (cls : List Nat) (o : Offer) : Bool := match o.what with | .checkin cl _ => cls.contains cl | _ => false

theorem checksIn_eq_false {cls : List Nat} {o : Offer} (h : ∀ cl ln, o.what = .checkin cl ln → cl ∉ cls) : o.checksIn cls = false := by
  unfold Offer.checksIn
  split
  · next cl ln hw => simpa using h cl ln hw
  · rfl

theorem exec_kernelComplete_completing (hk : s.kernels.get? kid = some k) (hst : k.state = .completing) :
    exec (.kernelComplete kid) s = if s.offers.any (Offer.checksIn k.clusters) || s.ops.any (fun e => e.2.kernel == some kid)
      then .next (s.due [.kernelComplete kid])
      else .next (((if k.launch.lchain then s.demote k.ctx k.launch.chain else s).kernelDone kid k 0).settleCtx k.ctx) := by
  change execKernelComplete kid s = _
  unfold execKernelComplete
  simp only [hk, drained_of_state_ne (s := s) (kid := kid) (hst ▸ (by decide) : k.state ≠ .draining), hst]
  rfl

/-- R311: a Stopping Kernel without images, none of whose commands has left, gives up its records and is Done with its status. -/
theorem exec_kernelStopped (hk : s.kernels.get? kid = some k) (hst : k.state = .stopping) (hg : ∀ g ∈ k.gangs, g.2.images = [])
    (ho : ∀ o ∈ s.ops, o.2.kernel = some kid → o.2.state = .queued) :
    let s1 : State := { s with stores := s.stores.map (fun d => (d.1, { d.2 with recs := d.2.recs.filter (fun r => r.2.kernel != kid) })) }
    exec (.kernelStopped kid) s = .next ((s1.kernelDone kid k k.status).settleCtx k.ctx) := by
  have hgangs : k.gangs.any (fun g => !g.2.images.isEmpty) = false := by simpa using hg
  have hops : s.ops.any (fun e => e.2.kernel == some kid && e.2.state != .queued) = false := by simpa using ho
  change execKernelStopped kid s = _
  simp only [execKernelStopped, hk, hst, hgangs, hops]
  rfl

/-! ## The gatherer (R255, R317) -/

theorem store_due_setStore (die : Nat) (d : ContStore) (is : List Instr) : ((s.setStore die d).due is).store die = d := Tab.getD_set_self ..

theorem find_last {es : List (Nat × Nat × Nat)} {entry m : Nat} (h : es = [(kid, entry, m)]) :
    ((es.find? (fun e => e.1 == kid && e.2.1 == entry)).map (fun e => e.2.2)).getD 0 = m := by
  simp [h]

/-- R317: 4,096 clk after the last record of a group, those that fill no Group make a partial one. -/
theorem exec_gathererTimeout {die entry : Nat} (hk : s.kernels.get? kid = some k) :
    let ws := (s.store die).waiting kid entry
    ws.length % 32 ≠ 0 → (s.store die).last = [(kid, entry, s.clk - 4096)] → 4096 ≤ s.clk → ∃ t,
      exec (.gathererTimeout die kid entry) s = .next t ∧ (t.store die).recs = (s.store die).recs ∧
      (t.store die).forced = (s.store die).forced ++ [(kid, (ws.drop (ws.length / 32 * 32)).map (fun r => r.1))] := by
  intro ws hw hlast hclk
  have hsome : ¬ws.isEmpty = true := fun h => hw (by rw [List.isEmpty_iff.mp h]; rfl)
  have hpart : ¬((ws.drop (ws.length / 32 * 32)).map (fun r => r.1)).isEmpty = true := by
    rw [List.isEmpty_iff, ← List.length_eq_zero_iff, List.length_map, List.length_drop]
    omega
  have hfind := find_last hlast
  have hold : (decide (s.clk - 4096 + 4096 ≤ s.clk) || s.drainsNow kid k) = true := by
    rw [decide_eq_true (Nat.sub_add_cancel hclk).le, Bool.true_or]
  change ∃ t, execGathererTimeout die kid entry s = _ ∧ _
  unfold execGathererTimeout
  simp only [hk]
  rw [if_neg hsome, hfind, if_pos hold, if_neg hpart]
  exact ⟨_, rfl, by rw [store_due_setStore], by rw [store_due_setStore]⟩

/-- The room that a lane's CONT waits for. -/
def Lane.roomWanted (x : Lane) : Option Nat := match x.wait with | .room n => some n | _ => none

/-- R255: a CONT that waits obtains its room once the store has it. -/
theorem exec_contRoomReserve {c slot n : Nat} {g : Group} (hg : s.group? c slot = some g) (hl : g.lanes.findSome? Lane.roomWanted = some n)
    (hr : s.roomOf c g.uid < n) (hf : n ≤ (s.store (dieOf c)).free) :
    exec (.contRoomReserve c slot) s = .next (s.reserveRoom (dieOf c) g.uid n) := by
  change execContRoomReserve c slot s = _
  unfold execContRoomReserve
  simp only [hg]
  change (match g.lanes.findSome? Lane.roomWanted with | none => _ | some n => _) = _
  simp only [hl, if_neg (Nat.not_le.mpr hr), if_pos hf]

/-! ## Reading a Kernel node (R303) -/

section
variable {n : Node} {part : Nat} {ps : List Tlb} (hp : s.reach (s.nodeCtx n) [(n.arg0, 192, .engRead)] = .ok ps)
  (hw : s.vwaits (s.nodeDie n) ps n.arg0 192 = none) (hpo : s.vpoison ps n.arg0 192 = false)
include hp hw hpo

/-- R303: a record with a bad field ends its node with that field's offset. -/
theorem checkKernel_bad {off : Nat} (hb : s.launchBad (s.nodeCtx n) (s.vread ps n.arg0 192) = some off) :
    s.checkKernel part n = ((s.startNode n).endNode n.queue n.seq (stFORMAT off)).due [.kernelDispatch part] := by
  simp [State.checkKernel, hp, hw, hpo, hb]

/-- R303: a good record whose code is there and begins as it must is launched. -/
theorem checkKernel_good {code : List Tlb} (hb : s.launchBad (s.nodeCtx n) (s.vread ps n.arg0 192) = none) :
    let l := launchOf (s.vread ps n.arg0 192)
    s.reach (s.nodeCtx n) [(l.codebase, l.codelen, .fetch)] = .ok code → s.vwaits (s.nodeDie n) code l.codebase l.codelen = none →
      s.vpoison code l.codebase l.codelen = false → s.codeBad code l = none → s.checkKernel part n = s.launchKernel part n l code := by
  intro l hc hcw hcp hcb
  simp [State.checkKernel, hp, hw, hpo, hb, hc, hcw, hcp, hcb, l]

end

/-- R296: the first Kernel node in pool order of a partition is read. -/
theorem exec_kernelDispatch {part : Nat} {n : Node} (h : firstNode s.wall (s.nodes.filter (fun n => n.pooled && n.kind == 1 &&
    (s.ctx (s.nodeCtx n)).part == part && (s.ctx (s.nodeCtx n)).state == .live)) = some n) :
    exec (.kernelDispatch part) s = .next (s.checkKernel part n) := by
  change execKernelDispatch part s = _
  simp only [execKernelDispatch, h]

end

/-- Settles O36, event by event. -/
theorem kernelsAndTeams : Obligations.KernelsAndTeams := by
  unfold Obligations.KernelsAndTeams
  intro s kid k hk again f
  refine ⟨?load, ?form, ?suspended, ?forced, ?team, ?drained, ?done, ?waits, ?stopped, ?gather, ?room, ?dispatch⟩
  case load =>
    intro c hc hp hb ho
    obtain ⟨t, ht, hcores, hframe⟩ := exec_coreLoad hk hc hp hb ho
    have hself : t.core c = (s.core c).loadedFor k.launch.poolpart :=
      (congrArg (fun cs : Tab Core => cs.getD c Core.reset) hcores).trans (State.core_setCore_self ..)
    refine ⟨t, ht, ?_, ?_, ?_, ?_, fun x hx => ?_, hframe⟩
    · rw [hself, Core.loadedFor]
    · rw [hself, Core.loadedFor]
    · rw [hself, Core.loadedFor]
    · rw [hself]; exact hc
    · exact (congrArg (fun cs : Tab Core => cs.getD x Core.reset) hcores).trans (State.core_setCore_ne _ _ hx)
  case form =>
    intro hst hl hlive
    have hf : (f.ctx k.ctx).state = .live := by rw [ctx_ite_forceAll]; exact hlive
    rw [exec_teamFormation hk hst hl, if_neg (not_not.mpr hf)]
  case suspended =>
    intro hst hl hlive
    have hf : (f.ctx k.ctx).state ≠ .live := by rw [ctx_ite_forceAll]; exact hlive
    rw [exec_teamFormation hk hst hl, if_pos hf]
  case forced =>
    intro hst ht
    have hnow : s.drainsNow kid k = true := by simpa [State.drainsNow, hst] using ht
    exact if_pos hnow
  case team => exact fun lin cores room hx hy => formTeam_teams hx hy
  case drained => exact exec_kernelComplete_drained hk
  case done =>
    intro hst ho hoff
    have hoffers : s.offers.any (Offer.checksIn k.clusters) = false :=
      List.any_eq_false.mpr fun o hm => by simp [checksIn_eq_false (hoff o hm)]
    rw [exec_kernelComplete_completing hk hst, hoffers, any_ops_eq_false ho]
    rfl
  case waits =>
    rintro hst ⟨o, ho, hko⟩
    have hops : s.ops.any (fun e => e.2.kernel == some kid) = true := List.any_eq_true.mpr ⟨o, ho, beq_iff_eq.mpr hko⟩
    rw [exec_kernelComplete_completing hk hst, hops, Bool.or_true]
    rfl
  case stopped => exact exec_kernelStopped hk
  case gather => exact fun die entry => exec_gathererTimeout hk
  case room => exact fun c slot g n hg hl hr hf => exec_contRoomReserve hg hl hr hf
  case dispatch =>
    intro part n hn ctx ps hp hw hpo l
    refine ⟨fun off hb => ?_, fun code hb hc hcw hcp hcb => ?_⟩
    · rw [exec_kernelDispatch hn, checkKernel_bad hp hw hpo hb]
    · rw [exec_kernelDispatch hn, checkKernel_good hp hw hpo hb hc hcw hcp hcb]

end Sys2Proof.Machine
end

section
/-! LEMMAS. What KILL and DESTROY leave of a Context (R270): the state of one that is killed, and what of one that is destroyed is gone. -/
set_option Elab.async false

namespace Sys2Proof.Machine

/-- What no part of a fold changes stands after it. -/
theorem foldl_stands {α β : Type} (field : State → β) {f : State → α → State} (hf : ∀ s a, field (f s a) = field s) (xs : List α) :
    ∀ s : State, field (xs.foldl f s) = field s := by
  induction xs with
  | nil => exact fun _ => rfl
  | cons a xs ih => exact fun s => (ih _).trans (hf s a)

/-! ## KILL (R270) -/

/-- The images of a discarded Gang leave their cores, and no Context changes (R314). -/
theorem State.discardGang_ctxs (s : State) (kid gid : Nat) (again : Bool) : (s.discardGang kid gid again).ctxs = s.ctxs := by
  unfold State.discardGang
  split
  case h_2 => rfl
  split
  case h_2 => rfl
  next g _ =>
  extract_lets ts list s0 s2 s3 gs
  have h0 : s0.ctxs = s.ctxs := foldl_stands State.ctxs (fun _ _ => by rfl) ts s
  have h2 : s2.ctxs = s.ctxs := by
    refine Eq.trans (foldl_stands State.ctxs (fun s i => ?_) g.images s0) h0
    split
    · rfl
    · exact foldl_stands State.ctxs (fun _ _ => by rfl) (s.core i.core).groups s
  show s3.ctxs = s.ctxs
  unfold s3
  split <;> exact h2

theorem State.discardKernel_ctxs (s : State) (kid : Nat) : (s.discardKernel kid).ctxs = s.ctxs := by
  unfold State.discardKernel
  split
  · exact foldl_stands State.ctxs (fun _ _ => State.discardGang_ctxs ..) _ s
  · rfl

/-- The Context of a number ends: Killing, or Dead already. -/
def State.CtxEnds (s : State) (n : Nat) : Prop := (s.ctx n).state = .killing ∨ (s.ctx n).state = .dead

section
variable {s t : State} {n c q seq st : Nat} {nd : Node}

/-- No Context has changed. -/
theorem State.CtxEnds.elsewhere (h : s.CtxEnds n) (hc : t.ctxs = s.ctxs := by rfl) : t.CtxEnds n := by
  unfold State.CtxEnds State.ctx
  rw [hc]
  exact h

theorem State.CtxEnds.ite {p : Prop} [Decidable p] (hs : s.CtxEnds n) (ht : t.CtxEnds n) : (if p then s else t).CtxEnds n := by
  split
  · exact hs
  · exact ht

theorem State.CtxEnds.foldl {α : Type} {f : State → α → State} {l : List α} (h : s.CtxEnds n)
    (hf : ∀ {u : State} {a}, u.CtxEnds n → (f u a).CtxEnds n) : (l.foldl f s).CtxEnds n := by
  induction l generalizing s with
  | nil => exact h
  | cons a l ih => exact ih (hf h)

/-- A Context is set: another one, or this one to a state in which it ends. -/
theorem State.CtxEnds.setCtx {x : Ctx} (h : s.CtxEnds n) (hx : n = c → x.state = .killing ∨ x.state = .dead) : (s.setCtx c x).CtxEnds n := by
  unfold State.CtxEnds
  rw [State.ctx_setCtx]
  split
  · next e => exact hx e
  · exact h

/-- A Context that ends is not Suspending, so it does not become Suspended. -/
theorem State.CtxEnds.settleSuspend (h : s.CtxEnds n) : (s.settleSuspend c).CtxEnds n := by
  unfold State.settleSuspend
  extract_lets x
  split
  case isTrue hs =>
    obtain ⟨hs, -⟩ := hs
    refine h.setCtx fun e => ?_
    rw [State.CtxEnds, e, hs] at h
    simp at h
  case isFalse => exact h

theorem State.CtxEnds.due {es : List Instr} (h : s.CtxEnds n) : (s.due es).CtxEnds n := h.elsewhere

theorem State.CtxEnds.deviceUnit {part : Nat} {items : List BufItem} {op : Option Nat} (h : s.CtxEnds n) :
    (s.deviceUnit part items op).CtxEnds n :=
  .ite (h.elsewhere State.commitItems_kernels_ctxs.2) h.elsewhere

theorem State.CtxEnds.touch {pa : Nat} (h : s.CtxEnds n) : (s.touch pa).CtxEnds n := .ite h h.elsewhere

theorem State.CtxEnds.writeFault {bytes : Nat → List Byte} (h : s.CtxEnds n) : (s.writeFault c bytes).CtxEnds n :=
  (h.setCtx fun e => e ▸ h).deviceUnit.touch

theorem State.CtxEnds.settleCtx (h : s.CtxEnds n) : (s.settleCtx c).CtxEnds n := by
  unfold State.settleCtx
  extract_lets x
  split
  · exact h.settleSuspend
  · exact .ite (h.setCtx fun _ => .inr rfl).writeFault h
  · exact h

theorem State.CtxEnds.discardKernel {kid : Nat} (h : s.CtxEnds n) : (s.discardKernel kid).CtxEnds n := h.elsewhere (State.discardKernel_ctxs ..)

theorem State.CtxEnds.stopping {kid : Nat} (h : s.CtxEnds n) : (s.stopping kid st).CtxEnds n := by
  have h1 : (s.discardKernel kid).CtxEnds n := h.discardKernel
  unfold State.stopping
  extract_lets s1
  split
  · exact .ite h1 (State.CtxEnds.due (State.CtxEnds.settleSuspend h1.elsewhere))
  · exact h1

theorem State.CtxEnds.endNode (h : s.CtxEnds n) : (s.endNode q seq st).CtxEnds n := by
  unfold State.endNode
  split
  · exact .ite h.elsewhere h
  · exact h

theorem State.CtxEnds.dropQueued (h : s.CtxEnds n) : (s.dropQueued c).CtxEnds n := h.foldl fun {u e} k => by
  extract_lets s1 s2
  have h2 : s2.CtxEnds n := k.elsewhere
  split
  · exact h2.endNode
  · exact h2

theorem State.CtxEnds.settleIndex (h : s.CtxEnds n) : (s.settleIndex c).CtxEnds n := .ite h.elsewhere h

/-! Nodes that are admitted as their Queues close (R288, R294). -/

theorem State.CtxEnds.await {pa : Nat} {r : Req} (h : s.CtxEnds n) : (s.await pa r).CtxEnds n :=
  .ite (.ite h (.ite h.elsewhere h.elsewhere)) (.ite (.ite h h.elsewhere) h)

theorem State.CtxEnds.nodeWalk {va : Nat} {acc : AccKind} (h : s.CtxEnds n) : (s.nodeWalk nd va acc).CtxEnds n :=
  .ite h.elsewhere (.ite h.elsewhere h.elsewhere)

theorem State.CtxEnds.skipAfter {count : Nat} (h : s.CtxEnds n) : (s.skipAfter q seq count).CtxEnds n := by
  unfold State.skipAfter
  extract_lets x s1
  have h1 : s1.CtxEnds n := h.elsewhere
  exact .ite h (h1.foldl fun k => .ite k.endNode k)

theorem State.CtxEnds.poolNode (h : s.CtxEnds n) : (s.poolNode nd).CtxEnds n := .ite h.elsewhere h

theorem State.CtxEnds.readPredicate (h : s.CtxEnds n) : (s.readPredicate nd).CtxEnds n := by
  unfold State.readPredicate
  extract_lets settle again
  have hs (st : Nat) (b : Bool) : (settle st b).CtxEnds n := .ite h.elsewhere (State.CtxEnds.skipAfter h.elsewhere)
  split
  · exact h.nodeWalk.elsewhere
  · exact hs ..
  · split
    · exact h.await.elsewhere
    · exact .ite (hs ..) (hs ..)

theorem State.CtxEnds.admitNode (h : s.CtxEnds n) : (s.admitNode nd).CtxEnds n := by
  unfold State.admitNode
  refine .ite h ?_
  split
  · exact h.endNode
  split
  · exact h.endNode
  split
  · exact h.endNode
  refine .ite h (.ite ?_ h.poolNode)
  extract_lets s1
  have h1 : s1.CtxEnds n := h.readPredicate
  split
  · exact .ite h1.poolNode h1
  · exact h1

theorem State.CtxEnds.admitAll (h : s.CtxEnds n) : s.admitAll.CtxEnds n := h.foldl fun k => by
  split
  · exact k.admitNode
  · exact k

theorem State.CtxEnds.queueWords (h : s.CtxEnds n) : (s.queueWords q).CtxEnds n := h.deviceUnit.touch

theorem State.CtxEnds.settleQueue (h : s.CtxEnds n) : (s.settleQueue q).CtxEnds n := by
  unfold State.settleQueue
  extract_lets x s1
  have h1 : s1.CtxEnds n := State.CtxEnds.queueWords h.elsewhere
  exact .ite (State.CtxEnds.admitAll h1.elsewhere) h

theorem State.CtxEnds.closeQueues (h : s.CtxEnds n) : (s.closeQueues c).CtxEnds n := by
  unfold State.closeQueues
  extract_lets qs s1 s2
  have h1 : s1.CtxEnds n := h.foldl fun k => .ite k (State.CtxEnds.queueWords k.elsewhere)
  have h2 : s2.CtxEnds n := h1.foldl fun k => k.endNode
  exact h2.foldl fun k => k.settleQueue

end

/-- R270: KILL makes a Context Killing; what it does then may at most let it die. -/
theorem State.killCtx_ends (s : State) (n : Nat) : (s.killCtx n).CtxEnds n := by
  unfold State.killCtx
  extract_lets x s1 ks s2 s3
  have h1 : s1.CtxEnds n := .inl (by rw [State.ctx_setCtx, if_pos rfl])
  have h2 : s2.CtxEnds n := State.CtxEnds.dropQueued (h1.foldl fun k => k.stopping)
  have h3 : s3.CtxEnds n := h2.foldl fun k => .ite k.settleIndex k
  exact h3.closeQueues.settleCtx

/-! ## DESTROY (R270) -/

section
variable {s : State} {n : Nat}

/-- What of the machine belongs to Contexts: the Contexts, their Kernels, translations and Queues. -/
def State.ctxParts (s : State) : Tab Ctx × Tab Kernel × List Tlb × Tab Queue := (s.ctxs, s.kernels, s.tlb, s.queues)

/-- Indexes drain, and nothing else of a Context changes (R373). -/
theorem State.foldl_drainIndexes_ctxParts (ks : List Nat) (s : State) : (ks.foldl (fun s k =>
    let x := s.index k
    if x.state = 1 ∧ x.ctx = n then (s.setIndex k { x with state := 2 }).settleIndex k else s) s).ctxParts = s.ctxParts := by
  have hsettle (t : State) (k : Nat) : (t.settleIndex k).ctxParts = t.ctxParts := by
    unfold State.settleIndex
    extract_lets x
    split <;> rfl
  refine foldl_stands State.ctxParts (fun s k => ?_) ks s
  extract_lets x
  split
  · exact hsettle ..
  · rfl

/-- Queues that become Free are no entries of the table, whatever is written to their control areas (R283). -/
theorem State.mem_foldl_freeQueues {part : Nat} {e : Nat × Queue} (qs : List Nat) : ∀ {s : State}, e ∈ (qs.foldl (fun s q =>
    let pa := (s.queue q).ctl + 0x44
    ({ s with queues := s.queues.erase q }.deviceUnit part [storeItem pa (toBytes 4 0)]).touch pa) s).queues → e ∈ s.queues ∧ e.1 ∉ qs := by
  induction qs with
  | nil => exact fun h => ⟨h, List.not_mem_nil⟩
  | cons q qs ih =>
    intro s h
    obtain ⟨hmem, hqs⟩ := ih h
    rw [(Keeps.touch ..).queues, (Keeps.deviceUnit ..).queues] at hmem
    obtain ⟨hmem, hq⟩ := List.mem_filter.mp hmem
    exact ⟨hmem, List.not_mem_cons_of_ne_of_not_mem (bne_iff_ne.mp hq) hqs⟩

/-- An entry that is none of a Context's Queues is Free, or another Context's. -/
theorem State.queue_not_of {e : Nat × Queue} (he : e ∈ s.queues) (hn : e.1 ∉ s.queuesOf n) (hs : e.2.state ≠ 0) : e.2.ctx ≠ n := by
  rintro rfl
  refine hn (List.mem_map_of_mem (List.mem_filter.mpr ⟨he, ?_⟩))
  simpa using hs

/-- R270: a destroyed Context is Free, and its Kernels, translations and Queues are gone. -/
theorem State.destroyCtx_frees (s : State) (n : Nat) : let t := s.destroyCtx n
    (t.ctx n).state = .free ∧ (∀ k ∈ t.kernels, k.2.ctx ≠ n) ∧ (∀ x ∈ t.tlb, x.ctx ≠ n) ∧
      (∀ q ∈ t.queues, q.2.state ≠ 0 → q.2.ctx ≠ n) := by
  unfold State.destroyCtx
  extract_lets qs part s1 ks s2 t
  have hparts : t.ctxParts = s2.ctxParts := State.foldl_drainIndexes_ctxParts ..
  simp only [State.ctxParts, Prod.mk.injEq] at hparts
  obtain ⟨hctxs, hkernels, htlb, hqueues⟩ := hparts
  refine ⟨?free, fun k hk => ?_, fun x hx => ?_, fun q hq => ?_⟩
  case free =>
    have herase : s2.ctxs.get? n = none := (Tab.get?_erase ..).trans (if_pos rfl)
    rw [State.ctx, hctxs, Tab.getD, herase]
    rfl
  · rw [hkernels] at hk
    exact bne_iff_ne.mp (List.mem_filter.mp hk).2
  · rw [htlb] at hx
    exact bne_iff_ne.mp (List.mem_filter.mp hx).2
  · rw [hqueues] at hq
    obtain ⟨hmem, hne⟩ := State.mem_foldl_freeQueues qs hq
    exact State.queue_not_of hmem hne

end

/-- Settles O42: KILL by the states that each of its parts leaves to the Context, DESTROY by what it filters. -/
theorem contextsEnd : Obligations.ContextsEnd := fun s n => ⟨s.killCtx_ends n, s.destroyCtx_frees n⟩

end Sys2Proof.Machine
end

section
/-! LEMMAS. The commands about Contexts, partitions and collective groups (R266 to R270, R272, R399): each runs on the window of its die. -/
set_option Elab.async false

namespace Sys2Proof.Machine

theorem upFrom_eq_range' (n : Nat) : ∀ a : Nat, upFrom a n = List.range' a n := by
  induction n with
  | zero => exact fun _ => rfl
  | succ n ih => exact fun a => congrArg (a :: ·) (ih (a + 1))

section
variable {s : State} {die : Nat}

/-! ## CREATE (R270) -/

section
variable (h : s.taken 1 = some die)
include h

theorem exec_create_bad (hb : s.ctxBad (ofBytes ((s.window die).opBytes 0x10 64)) = true) : exec .create s = .next (s.answer die 2 []) := by
  show execCreate s = _
  rw [execCreate, withCommand_taken h]
  exact congrArg Host.Outcome.next (if_pos hb)

theorem exec_create_free {k : Nat} (hb : s.ctxBad (ofBytes ((s.window die).opBytes 0x10 64)) = false) (hk : k < 256)
    (hfree : (s.ctx k).state = .free) (hlow : ∀ j, j < k → (s.ctx j).state ≠ .free) :
    exec .create s = .next ((s.setCtx k { ctxOf (ofBytes ((s.window die).opBytes 0x10 64)) with state := .live, enrolled := s.enrolled }).answer die 0
      (toBytes 1 k)) := by
  have hfind : (upFrom 0 256).find? (fun n => (s.ctx n).state == .free) = some k := by
    rw [upFrom_eq_range', List.find?_range'_eq_some]
    exact ⟨beq_iff_eq.mpr hfree, List.mem_range'_1.mpr ⟨Nat.zero_le k, by omega⟩, fun j _ hj => by simpa using hlow j hj⟩
  show execCreate s = _
  rw [execCreate, withCommand_taken h]
  simp only [hb, hfind]
  rfl

theorem exec_create_full (hb : s.ctxBad (ofBytes ((s.window die).opBytes 0x10 64)) = false) (hfull : ∀ k, k < 256 → (s.ctx k).state ≠ .free) :
    exec .create s = .next (s.answer die 3 []) := by
  have hfind : (upFrom 0 256).find? (fun n => (s.ctx n).state == .free) = none :=
    List.find?_eq_none.mpr fun k hk => by simpa using hfull k (by have := (mem_upFrom 256).mp hk; omega)
  show execCreate s = _
  rw [execCreate, withCommand_taken h]
  simp only [hb, hfind]
  rfl

end

/-! ## READ, SUSPEND, RESUME, KILL (R267, R269, R270) -/

theorem exec_read (h : s.taken 2 = some die) : let n := (s.window die).op 0x10 1
    exec .read s = .next (s.answer die 0 (if (s.ctx n).state = .free then Ctx.reset.bytes n else (s.ctx n).bytes n)) := by
  show execRead s = _
  exact withCommand_taken h _

theorem exec_suspend (h : s.taken 3 = some die) : let n := (s.window die).op 0x10 1
    let s1 := s.setCtx n { s.ctx n with state := .suspending }
    exec .suspend s = .next (if (s.ctx n).state = .live then
      (((s1.ctxGangs n).foldl (fun s g => s.preemptGang g.1 g.2) s1).settleCtx n).answer die 0 [] else s.answer die 1 []) := by
  show execSuspend s = _
  exact withCommand_taken h _

theorem exec_resume (h : s.taken 4 = some die) : let n := (s.window die).op 0x10 1
    exec .resume s = .next (if (s.ctx n).state = .suspended then
      ((s.setCtx n { s.ctx n with state := .live }).due [.kernelDispatch (s.ctx n).part]).answer die 0 [] else s.answer die 1 []) := by
  show execResume s = _
  exact withCommand_taken h _

theorem exec_kill (h : s.taken 5 = some die) : let n := (s.window die).op 0x10 1
    let c := s.ctx n
    exec .kill s = .next (if c.state = .live ∨ c.state = .suspending ∨ c.state = .suspended then (s.killCtx n).answer die 0 [] else s.answer die 1 []) := by
  intro n c
  show execKill s = _
  rw [execKill, withCommand_taken h]
  congr 1
  show (match c.state with | .live => _ | .suspending => _ | .suspended => _ | _ => _) = _
  cases c.state <;> rfl

/-! ## DESTROY (R270, R352) -/

theorem exec_destroy_taken (h : s.taken 6 = some die) (hi : s.invals = []) : let n := (s.window die).op 0x10 1
    let y := s.beginInval die n 0 (2 ^ 57) []
    exec .destroy s = .next (if s.mayDestroy n then
      (if y.1.invalDone y.2 then (y.1.destroyCtx n).answer die 0 []
        else (({ y.1 with invals := y.1.invals ++ [y.2] } : State).continueAs die 0x106).due [.destroy]) else s.answer die 1 []) := by
  intro n y
  show execDestroy s = _
  simp only [execDestroy, hi, List.find?_nil, h]
  cases hm : s.mayDestroy n <;> simp [n, y, cmdOK, cmdBUSY]

/-- An INVAL has taken effect where nothing is on its way. -/
theorem invalDone_of_idle (i : Inval) (hd : s.diffs = []) (ho : s.offers = []) (hp : s.ops = []) : s.invalDone i = true := by
  simp [State.invalDone, hd, ho, hp]

theorem exec_destroy_waited {i : Inval} (hg : s.goes = [(die, 0x106)]) (hi : s.invals = [i]) (hdie : i.die = die) (hdone : s.invalDone i = true)
    (hm : s.mayDestroy i.ctx = true) :
    exec .destroy s = .next ((({ s with invals := [] } : State).destroyCtx i.ctx).answer die 0 []) := by
  have hfind : s.invals.find? (fun i => s.goes.contains (i.die, 0x106) && s.invalDone i) = some i := by
    rw [hi, List.find?_cons_of_pos]
    simp [hg, hdie, hdone]
  have herase : s.invals.erase i = [] := by rw [hi, List.erase_cons_head]
  show execDestroy s = _
  simp only [execDestroy, hfind, herase]
  rw [hdie]
  exact congrArg Host.Outcome.next (if_pos hm)

/-! ## WRPART and WRCGRP (R272, R399) -/

theorem exec_wrpart_writes {ps : List Partition} (h : s.taken 0x40 = some die) (hj : s.judgeParts ((s.window die).opBytes 0x10 256) = .inl ps) :
    exec .wrpart s = .next ((s.setParts ps).answer die 0 []) := by
  show execWrpart s = _
  rw [execWrpart, withCommand_taken h, hj]
  rfl

theorem exec_wrpart_refuses {st : Nat} (h : s.taken 0x40 = some die) (hj : s.judgeParts ((s.window die).opBytes 0x10 256) = .inr st) :
    exec .wrpart s = .next (s.answer die st []) := by
  show execWrpart s = _
  rw [execWrpart, withCommand_taken h, hj]

theorem exec_wrcgrp_writes {g : CollGroup} (h : s.taken 0x42 = some die)
    (hj : s.judgeColl ((s.window die).op 0x10 1) ((s.window die).opBytes 0x18 16) = .inl g) :
    exec .wrcgrp s = .next (({ s with colls := s.colls.set ((s.window die).op 0x10 1) g } : State).answer die 0 []) := by
  show execWrcgrp s = _
  rw [execWrcgrp, withCommand_taken h]
  simp only [hj]
  rfl

end

end Sys2Proof.Machine
end

section
/-! LEMMAS. The commands about Queues and Indexes (R283, R292, R293, R368, R369, R373), and the obligation about the commands of the windows. -/
set_option Elab.async false

namespace Sys2Proof.Machine

/-- A store of the device changes no command that waits. -/
theorem State.deviceUnit_goes (s : State) (part : Nat) (items : List BufItem) (op : Option Nat) : (s.deviceUnit part items op).goes = s.goes := by
  unfold State.deviceUnit
  split
  · unfold State.commitItems
    dsimp only
    obtain ⟨ps, ag, h⟩ := sendAcross_only s (s.unitEnd (s.lowestDie part) none op none) (diffTag part (s.stamps.getD part 1)) (itemAddrs s.regions items)
    rw [h]
    obtain ⟨qs, ah, k⟩ := sendPackets_only (fun c => c) (fun _ => castTag part (s.stamps.getD part 1)) (s.unitEnd (s.lowestDie part) none op none)
      ((s.coresOf part).filter (fun c => dieOf c != endDie (s.unitEnd (s.lowestDie part) none op none))) { s with pairs := ps, agenda := s.agenda ++ ag }
    rw [k]
  · rfl

theorem State.touch_goes (s : State) (pa : Nat) : (s.touch pa).goes = s.goes := by
  unfold State.touch
  split <;> rfl

/-- No command that waits for its units is among codes below theirs. -/
theorem find?_waiting_none {goes : List (Nat × Nat)} {lo hi : Nat} (h : ∀ g ∈ goes, g.2 < 0x1000) (hlo : 0x1000 ≤ lo) :
    goes.find? (fun g => decide (lo ≤ g.2 ∧ g.2 < hi)) = none :=
  List.find?_eq_none.mpr fun g hg => by
    have := h g hg
    simp only [decide_eq_true_eq]
    omega

section
variable {s : State} {die : Nat}

/-! ## Opening a Queue (R283, R292) -/

/-- The Queue of a descriptor image (R283). -/
def queueOf (x : Nat) : Queue :=
  { Queue.reset with ctl := field x 255 192, qbase := field x 191 128, ctx := field x 63 56, lgsize := field x 55 51, device := bitAt x 50, state := 1 }

/-- What QOPEN makes of the machine: the Queue, the write of its control area, and the command that waits for it. -/
def State.opened (s : State) (die n : Nat) (q : Queue) : State :=
  ((((s.setQueue n q).deviceUnit (s.sealedOf (s.ctx q.ctx).part)
    [storeItem q.ctl (List.replicate 64 0 ++ toBytes 4 0 ++ toBytes 4 1 ++ List.replicate 56 0)] deviceOwn).touch q.ctl).continueAs die (0x1000 + n)).due
    [.qopen]

theorem Keeps.continueAs (s : State) (die code : Nat) : Keeps s (s.continueAs die code) :=
  .of_cores rfl rfl rfl rfl rfl rfl rfl rfl rfl rfl rfl rfl rfl rfl rfl rfl

theorem State.opened_keeps (s : State) (die n : Nat) (q : Queue) : Keeps (s.setQueue n q) (s.opened die n q) :=
  (((Keeps.deviceUnit ..).trans (Keeps.touch ..)).trans (Keeps.continueAs ..)).trans (Keeps.due ..)

theorem State.opened_goes (s : State) (die n : Nat) (q : Queue) : (s.opened die n q).goes = s.goes.filter (fun g => g.1 != die) ++ [(die, 0x1000 + n)] := by
  have hgoes : ((((s.setQueue n q).deviceUnit (s.sealedOf (s.ctx q.ctx).part)
      [storeItem q.ctl (List.replicate 64 0 ++ toBytes 4 0 ++ toBytes 4 1 ++ List.replicate 56 0)] deviceOwn).touch q.ctl).goes) = s.goes := by
    rw [State.touch_goes, State.deviceUnit_goes, State.setQueue_goes]
  exact congrArg (fun gs => gs.filter (fun g => g.1 != die) ++ [(die, 0x1000 + n)]) hgoes

theorem State.queue_setQueue_self (s : State) (n : Nat) (q : Queue) : (s.setQueue n q).queue n = q := Tab.getD_set_self ..
theorem State.queue_setQueue_ne (s : State) {n k : Nat} (q : Queue) (h : k ≠ n) : (s.setQueue n q).queue k = s.queue k := Tab.getD_set_of_ne _ _ _ h

section
variable (h : s.taken 0x10 = some die) (hw : ∀ g ∈ s.goes, g.2 < 0x1000)
include h hw

/-- A QOPEN that none is ahead of (R292): its tests, and then the Queue opens. -/
theorem exec_qopen : let n := (s.window die).op 0x10 2
    let x := ofBytes ((s.window die).opBytes 0x18 32)
    exec .qopen s = .next (if 1024 ≤ n ∨ s.queueBad x = true then s.answer die 2 [] else if (s.queue n).state ≠ 0 then s.answer die 1 []
      else s.opened die n (queueOf x)) := by
  intro n x
  have hcond : (decide (Config.nQueues ≤ n) || s.queueBad x) = true ↔ 1024 ≤ n ∨ s.queueBad x = true := by
    rw [Bool.or_eq_true, decide_eq_true_eq]
    rfl
  show execQopen s = _
  rw [execQopen, find?_waiting_none hw (lo := qopenCode 0) (Nat.le_refl _)]
  refine (withCommand_taken h _).trans (congrArg Host.Outcome.next ?_)
  exact if_congr hcond rfl rfl

theorem exec_qopen_opens (hn : (s.window die).op 0x10 2 < 1024) (hx : s.queueBad (ofBytes ((s.window die).opBytes 0x18 32)) = false)
    (hq : (s.queue ((s.window die).op 0x10 2)).state = 0) :
    exec .qopen s = .next (s.opened die ((s.window die).op 0x10 2) (queueOf (ofBytes ((s.window die).opBytes 0x18 32)))) := by
  rw [exec_qopen h hw, if_neg (by simp [hx, hn]), if_neg (not_not.mpr hq)]

end

theorem exec_qopen_waited {k : Nat} (hk : k < 1024) (hg : s.goes = [(die, 0x1000 + k)]) (hd : s.diffs = []) (ho : s.offers = []) :
    exec .qopen s = .next (s.answer die 0 []) := by
  have hfind : s.goes.find? (fun g => decide (qopenCode 0 ≤ g.2 ∧ g.2 < qopenCode Config.nQueues)) = some (die, 0x1000 + k) := by
    rw [hg, List.find?_cons_of_pos]
    exact decide_eq_true ⟨Nat.le_add_right .., Nat.add_lt_add_left hk _⟩
  have hstands (q : Queue) : s.areaStands q = true := by simp [State.areaStands, hd, ho]
  show execQopen s = _
  rw [execQopen, hfind]
  exact congrArg Host.Outcome.next (if_pos (hstands _))

/-! ## QCLOSE, QRESUME, QREAD (R292, R293) -/

theorem exec_qclose (h : s.taken 0x11 = some die) : let n := (s.window die).op 0x10 2
    let q := s.queue n
    n < 1024 → q.state = 1 ∨ q.state = 2 →
      exec .qclose s = .next ((((s.setQueue n { q with state := 3 }).queueWords n).settleQueue n).answer die 0 []) := by
  intro n q hn hq
  show execQclose s = _
  rw [execQclose, withCommand_taken h]
  exact congrArg Host.Outcome.next ((if_neg (Nat.not_le.mpr hn)).trans (if_pos (by simpa using hq)))

theorem exec_qresume (h : s.taken 0x12 = some die) : let n := (s.window die).op 0x10 2
    let q := s.queue n
    n < 1024 → exec .qresume s = .next (if q.state = 2 then
      (((s.setQueue n { q with state := 1, reason := 0 }).queueWords n).due [.nodeFetch n]).answer die 0 [] else s.answer die 1 []) := by
  intro n q hn
  show execQresume s = _
  rw [execQresume, withCommand_taken h]
  exact congrArg Host.Outcome.next (if_neg (Nat.not_le.mpr hn))

theorem exec_qread (h : s.taken 0x13 = some die) (hn : (s.window die).op 0x10 2 < 1024) :
    exec .qread s = .next (s.answer die 0 (s.queue ((s.window die).op 0x10 2)).bytes) := by
  show execQread s = _
  rw [execQread, withCommand_taken h]
  exact congrArg Host.Outcome.next (if_neg (Nat.not_le.mpr hn))

/-! ## Indexes (R368, R369, R373) -/

/-- The machine once an Index is Live and the units that zero its slots are on their way (R369). -/
def State.created (s : State) (m : Nat) (i : Index) : State := i.segs.foldl (fun s g => s.zeroSlots i g) (s.setIndex m i)

theorem State.created_keeps (s : State) (m : Nat) (i : Index) : Keeps (s.setIndex m i) (s.created m i) :=
  Keeps.foldl (fun s _ => Keeps.foldl (fun _ _ => Keeps.deviceUnit ..) _ s) ..

theorem State.created_index_self (s : State) (m : Nat) (i : Index) : (s.created m i).index m = i := by
  rw [State.index, (s.created_keeps m i).indexes]
  exact Tab.getD_set_self ..

theorem State.created_index_ne (s : State) {m k : Nat} (i : Index) (h : k ≠ m) : (s.created m i).index k = s.index k := by
  rw [State.index, (s.created_keeps m i).indexes]
  exact Tab.getD_set_of_ne _ _ _ h

/-- An ICREATE that none is ahead of (R369): its tests, and then the slots are zeroed. -/
theorem exec_icreate (h : s.taken 0x20 = some die) (hw : ∀ g ∈ s.goes, g.2 < 0x1000) : let m := (s.window die).op 0x10 1
    let x := ofBytes ((s.window die).opBytes 0x18 32)
    let segs := (upFrom 0 16).map (fun k => (k, ofBytes ((s.window die).opBytes (0x38 + 16 * k) 16)))
    let s1 := s.created m (indexOf x segs)
    exec .icreate s = .next (if s.indexBad m x segs then s.answer die 2 [] else if (s.index m).state ≠ 0 then s.answer die 1 []
      else if s1.zeroed m then s1.answer die 0 [] else (s1.continueAs die (0x2000 + m)).due [.icreate]) := by
  show execIcreate s = _
  rw [execIcreate, find?_waiting_none hw (lo := icreateCode 0) (by decide)]
  exact withCommand_taken h _

theorem exec_icreate_waited {k : Nat} (hk : k < 256) (hg : s.goes = [(die, 0x2000 + k)]) (ho : s.offers = []) :
    exec .icreate s = .next (s.answer die 0 []) := by
  have hfind : s.goes.find? (fun g => decide (icreateCode 0 ≤ g.2 ∧ g.2 < icreateCode Config.nIndexes)) = some (die, 0x2000 + k) := by
    rw [hg, List.find?_cons_of_pos]
    exact decide_eq_true ⟨Nat.le_add_right .., Nat.add_lt_add_left hk _⟩
  have hzeroed (n : Nat) : s.zeroed n = true := by simp [State.zeroed, ho]
  show execIcreate s = _
  rw [execIcreate, hfind]
  exact congrArg Host.Outcome.next (if_pos (hzeroed _))

theorem exec_idestroy (h : s.taken 0x21 = some die) : let m := (s.window die).op 0x10 1
    exec .idestroy s = .next (if (s.index m).state = 1 then ((s.setIndex m { s.index m with state := 2 }).settleIndex m).answer die 0 []
      else s.answer die 1 []) := by
  show execIdestroy s = _
  exact withCommand_taken h _

theorem exec_iread (h : s.taken 0x22 = some die) : exec .iread s = .next (s.answer die 0 (s.indexBytes ((s.window die).op 0x10 1))) := by
  show execIread s = _
  exact withCommand_taken h _

end

/-! ## The obligation -/

/-- Settles O41: each command by the lemma of its rule. -/
theorem windowCommands : Obligations.WindowCommands := by
  refine ⟨fun s die => ?contexts, fun s die => ?queues⟩
  case contexts =>
    refine ⟨exec_create_bad, fun k h hb ⟨hk, hfree, hlow⟩ => exec_create_free h hb hk hfree hlow, exec_create_full, exec_read, fun h hc => ?_,
      fun h hc => ?_, exec_resume, exec_kill, exec_destroy_taken, fun i hg hi hdie hd ho hp => exec_destroy_waited hg hi hdie (invalDone_of_idle i hd ho hp),
      fun ps => exec_wrpart_writes, fun st => exec_wrpart_refuses, fun g => exec_wrcgrp_writes⟩
    · rw [exec_suspend h, if_neg hc]
    · rw [exec_suspend h, if_pos hc]
  case queues =>
    refine ⟨fun h hbad => ?_, fun h hn hx hq => ?_, fun h hn hx hq => ?_, fun k => exec_qopen_waited, exec_qclose, exec_qresume, exec_qread,
      fun h hbad => ?_, fun h hx hi => ?_, fun h hx hi => ?_, fun k => exec_icreate_waited, exec_idestroy, exec_iread⟩
    · rw [exec_qopen h.1 h.2, if_pos hbad]
    · rw [exec_qopen h.1 h.2, if_neg (by simp [hx, hn]), if_pos hq]
    · have hk := s.opened_keeps die ((s.window die).op 0x10 2) (queueOf (ofBytes ((s.window die).opBytes 0x18 32)))
      refine ⟨_, exec_qopen_opens h.1 h.2 hn hx hq, ?_, fun k hne => ?_, State.opened_goes .., List.getLast?_concat .., hk.mem⟩
      · rw [State.queue, hk.queues]
        exact State.queue_setQueue_self ..
      · rw [State.queue, hk.queues]
        exact State.queue_setQueue_ne _ _ hne
    · rw [exec_icreate h.1 h.2, if_pos hbad]
    · rw [exec_icreate h.1 h.2, if_neg (by simp [hx]), if_pos hi]
    · refine ⟨?_, State.created_index_self .., fun k => State.created_index_ne s _, (State.created_keeps ..).mem⟩
      rw [exec_icreate h.1 h.2, if_neg (by simp [hx]), if_neg (not_not.mpr hi)]
      rfl

end Sys2Proof.Machine
end

section
/-! LEMMAS. Scores and retirement records (R413, R414, R416, R417), and the commands that read them (R269). -/
set_option Elab.async false

namespace Sys2Proof.Machine

section
variable {s : State} {die : Nat}

/-! ## Scores (R413) -/

theorem exec_scoreHalving_early (h : s.wall < s.hourly.1 + 86400000000000) : exec .scoreHalving s = .next (s.due [.scoreHalving]) := if_pos h

/-- The score of every unit halves, and its state stays. -/
theorem exec_scoreHalving_due (h : s.hourly.1 + 86400000000000 ≤ s.wall) : ∃ t, exec .scoreHalving s = .next t ∧
    (∀ v, (t.unit v).score = (s.unit v).score / 2 ∧ (t.unit v).state = (s.unit v).state) ∧ t.hourly.1 = s.hourly.1 + 86400000000000 ∧
    t.agenda = s.agenda ++ [.scoreHalving] := by
  refine ⟨_, if_neg (Nat.not_lt.mpr h), fun v => ?_, rfl, rfl⟩
  have hget : Tab.get? (s.units.map fun u => (u.1, { u.2 with score := u.2.score / 2 })) v =
      (s.units.get? v).map (fun u => { u with score := u.score / 2 }) :=
    Tab.get?_map (fun u => (u.1, { u.2 with score := u.2.score / 2 })) (fun _ => rfl) s.units v
  simp only [State.unit, State.due, Tab.getD, hget]
  cases s.units.get? v with
  | none => exact ⟨rfl, rfl⟩
  | some u => exact ⟨rfl, rfl⟩

theorem exec_scorePersist_early (h : s.wall < s.hourly.2 + 3600000000000) : exec .scorePersist s = .next (s.due [.scorePersist]) := if_pos h

theorem exec_scorePersist_due (h : s.hourly.2 + 3600000000000 ≤ s.wall) : ∃ t, exec .scorePersist s = .next t ∧ t.nvUnits = s.units ∧
    t.units = s.units ∧ t.hourly.2 = s.hourly.2 + 3600000000000 := ⟨_, if_neg (Nat.not_lt.mpr h), rfl, rfl, rfl⟩

/-! ## Records (R416, R417) -/

/-- While slots are left, a record of 64 bytes is appended, and stands under its number. -/
theorem State.addRecord_room (unit why bin detail : Nat) (h : s.records.length < 8192) : ∃ r, r.length = 64 ∧
    s.addRecord unit why bin detail = { s with records := s.records ++ [r] } ∧
    (s.addRecord unit why bin detail).record (s.records.length + 1) = r := by
  have hadd : s.addRecord unit why bin detail = { s with records := s.records ++
      [recordBytes (s.records.length + 1) unit why bin (if unit = unitModule then 0 else (s.unit unit).score) detail s.sec s.ns] } :=
    if_neg (Nat.not_le.mpr h)
  refine ⟨_, toBytes_length .., hadd, ?_⟩
  rw [hadd, State.record, if_neg (Nat.succ_ne_zero _), Nat.add_sub_cancel]
  exact (List.getD_append_right _ _ _ _ (Nat.le_refl _)).trans (by rw [Nat.sub_self]; rfl)

theorem State.addRecord_full (unit why bin detail : Nat) (h : 8192 ≤ s.records.length) :
    s.addRecord unit why bin detail = { s with overflow := s.overflow + 1 } := if_pos h

/-! ## READREC and READUNIT (R269) -/

theorem exec_readrec (h : s.taken 0x50 = some die) : let n := (s.window die).op 0x14 1
    exec .readrec s = .next (if n = 0 ∨ 8 < n then s.answer die 2 []
      else s.answer die 0 ((upFrom ((s.window die).op 0x10 4) n).foldl (fun a k => a ++ s.record k) [])) := by
  show execReadrec s = _
  rw [execReadrec, withCommand_taken h]
  exact congrArg Host.Outcome.next (if_congr (by simp) rfl rfl)

theorem exec_readunit (h : s.taken 0x51 = some die) : let u := (s.window die).op 0x10 2
    exec .readunit s = .next (if unitOk u then s.answer die 0 (toBytes 4 (s.unit u).word) else s.answer die 2 []) := by
  show execReadunit s = _
  exact withCommand_taken h _

end

end Sys2Proof.Machine
end

section
/-! LEMMAS. The management port (R33, R36, R417, R418, R420, R421): which messages are served, what each answers, and how packets become messages
and responses packets. The obligation about records and the port. -/
set_option Elab.async false

namespace Sys2Proof.Machine

/-! ## Messages (R420) -/

theorem ofBytes_take_one (bs : List Byte) : ofBytes (bs.take 1) = (bs.headD 0).toNat := by
  cases bs with
  | nil => rfl
  | cons b r => exact Nat.add_zero _

section
variable {s : State} {c : Byte} {ops : List Byte} {code : Nat} {lens : List Nat} {main : Bool} {f : List Byte → State → State}

/-- With the standby domain down no message is answered (R33). -/
theorem withMessage_down (h : s.power.standby = false) : withMessage code lens main f s = .next s := by
  unfold withMessage
  split
  · rfl
  · simp [h]

section
variable (hp : s.port = c :: ops) (hs : s.power.standby = true) (hc : c.toNat = code)
include hp hs hc

theorem withMessage_length (hl : ops.length ∉ lens) : withMessage code lens main f s = .next (s.reply [2]) := by
  simp [withMessage, hp, hs, hc, hl, mgmtINVALID]

theorem withMessage_busy (hl : ops.length ∈ lens) (hm : main = true) (hoff : s.power.main = false) :
    withMessage code lens main f s = .next (s.reply [1]) := by
  simp [withMessage, hp, hs, hc, hl, hm, hoff, mgmtBUSY]

theorem withMessage_served (hl : ops.length ∈ lens) (hm : main = true → s.power.main = true) :
    withMessage code lens main f s = .next (f ops s) := by
  have hmain : (main && !s.power.main) = false := by
    cases main with
    | false => rfl
    | true => rw [hm rfl]; rfl
  simp [withMessage, hp, hs, hc, hl, hmain]

end

/-- No message of any kind is answered while the standby domain is down (R33). -/
theorem exec_message_down (h : s.power.standby = false) (i : Instr) (hi : i ∈ [Instr.mgmtReadrec, .readscore, .readmon, .resetpart, .dump, .readdump,
    .mgmtSetcap, .wrconf, .mgmtUnknown, .mctpControl, .pldmMessage]) : exec i s = .next s := by
  have hunknown : execMgmtUnknown s = .next s := by
    unfold execMgmtUnknown
    split
    · rfl
    · simp [h]
  have hcontrol : execMctpControl s = .next s := by simp [execMctpControl, h]
  have hpldm : execPldmMessage s = .next s := by simp [execPldmMessage, h]
  simp only [List.mem_cons, List.not_mem_nil, or_false] at hi
  rcases hi with rfl | rfl | rfl | rfl | rfl | rfl | rfl | rfl | rfl | rfl | rfl
  · show execMgmtReadrec s = _
    exact withMessage_down h
  · show execReadscore s = _
    exact withMessage_down h
  · show execReadmon s = _
    exact withMessage_down h
  · show execResetpart s = _
    exact withMessage_down h
  · show execDump s = _
    exact withMessage_down h
  · show execReaddump s = _
    exact withMessage_down h
  · show execMgmtSetcap s = _
    exact withMessage_down h
  · show execWrconf s = _
    exact withMessage_down h
  · exact hunknown
  · exact hcontrol
  · exact hpldm

end

/-! ## Commands (R36, R417, R418, R420, R421) -/

section
variable {s : State} {ops : List Byte} {c : Byte} (hp : s.port = c :: ops) (hs : s.power.standby = true)
include hp hs

theorem exec_mgmtReadrec (hc : c = 1) (hl : ops.length = 5) : exec .mgmtReadrec s = .next (if ofBytes (ops.drop 4) = 0 ∨ 16 < ofBytes (ops.drop 4)
    then s.reply [2] else s.reply (0 :: (upFrom (ofBytes (ops.take 4)) (ofBytes (ops.drop 4))).foldl (fun a k => a ++ s.record k) [])) := by
  show execMgmtReadrec s = _
  refine Eq.trans (withMessage_served hp hs (congrArg BitVec.toNat hc) (List.mem_singleton.mpr hl) (by simp)) (congrArg Host.Outcome.next ?_)
  exact if_congr (by simp) rfl rfl

theorem exec_mgmtReadrec_invalid (hc : c = 1) (hbad : ops.length ≠ 5 ∨ ofBytes (ops.drop 4) = 0 ∨ 16 < ofBytes (ops.drop 4)) :
    exec .mgmtReadrec s = .next (s.reply [2]) := by
  by_cases hl : ops.length = 5
  · rw [exec_mgmtReadrec hp hs hc hl, if_pos (hbad.resolve_left (not_not.mpr hl))]
  · show execMgmtReadrec s = _
    exact withMessage_length hp hs (congrArg BitVec.toNat hc) (mt List.mem_singleton.mp hl)

theorem exec_readscore (hc : c = 2) (hl : ops.length = 2) :
    exec .readscore s = .next (if unitOk (ofBytes ops) then s.reply (0 :: toBytes 4 (s.unit (ofBytes ops)).word) else s.reply [2]) := by
  show execReadscore s = _
  refine Eq.trans (withMessage_served hp hs (congrArg BitVec.toNat hc) (List.mem_singleton.mpr hl) (by simp)) (congrArg Host.Outcome.next ?_)
  exact apply_ite s.reply ..

theorem exec_readmon (hc : c = 3) (hl : ops.length = 2) (hm : s.power.main = true) (hd : ofBytes (ops.take 1) < 4) (hu : ofBytes (ops.drop 1) < 32) :
    exec .readmon s = .next (s.reply (0 :: (s.capture (ofBytes (ops.take 1)) (ofBytes (ops.drop 1))).bytes)) := by
  show execReadmon s = _
  exact Eq.trans (withMessage_served hp hs (congrArg BitVec.toNat hc) (List.mem_singleton.mpr hl) fun _ => hm)
    (congrArg (fun bs => Host.Outcome.next (s.reply bs)) (if_pos ⟨hd, hu⟩))

theorem exec_readmon_busy (hc : c = 3) (hl : ops.length = 2) (hm : s.power.main = false) : exec .readmon s = .next (s.reply [1]) := by
  show execReadmon s = _
  exact withMessage_busy hp hs (congrArg BitVec.toNat hc) (List.mem_singleton.mpr hl) rfl hm

theorem exec_resetpart (hc : c = 4) (hl : ops.length = 1) (hm : s.power.main = true) :
    exec .resetpart s = .next (if ofBytes ops < 8 then (s.resetPartition (ofBytes ops)).reply [0] else s.reply [2]) := by
  show execResetpart s = _
  exact withMessage_served hp hs (congrArg BitVec.toNat hc) (List.mem_singleton.mpr hl) fun _ => hm

theorem exec_resetpart_busy (hc : c = 4) (hl : ops.length = 1) (hm : s.power.main = false) : exec .resetpart s = .next (s.reply [1]) := by
  show execResetpart s = _
  exact withMessage_busy hp hs (congrArg BitVec.toNat hc) (List.mem_singleton.mpr hl) rfl hm

/-- DUMP takes a new dump and answers (R417). -/
theorem exec_dump (hc : c = 5) (hl : ops.length = 1) (hm : s.power.main = true) (hd : ofBytes ops < 4) : ∃ t, exec .dump s = .next t ∧
    t.dump.isSome = true ∧ t.response = [0] ∧
    t = { s with dump := t.dump, fresh := t.fresh, port := [], response := [0], packetsOut := [[0]] } := by
  refine ⟨({ s with dump := some s.fresh, fresh := s.fresh + dumpBytes } : State).reply [0], ?_, rfl, rfl, rfl⟩
  show execDump s = _
  exact Eq.trans (withMessage_served hp hs (congrArg BitVec.toNat hc) (List.mem_singleton.mpr hl) fun _ => hm)
    (congrArg Host.Outcome.next (if_pos hd))

theorem exec_dump_busy (hc : c = 5) (hl : ops.length = 1) (hm : s.power.main = false) : exec .dump s = .next (s.reply [1]) := by
  show execDump s = _
  exact withMessage_busy hp hs (congrArg BitVec.toNat hc) (List.mem_singleton.mpr hl) rfl hm

/-- The bytes of a part of the dump (R421): of the last dump, or zeros where there is none. -/
def State.dumpPartAt (s : State) (off : Nat) : List Byte :=
  match s.dump with
  | some base => freeBytes (base + off) 256
  | none => List.replicate 256 0

theorem exec_readdump (hc : c = 6) (hl : ops.length = 4) : exec .readdump s = .next (if ofBytes ops % 256 ≠ 0 ∨ 262144 ≤ ofBytes ops then s.reply [2]
    else s.reply (0 :: s.dumpPartAt (ofBytes ops))) := by
  show execReaddump s = _
  refine Eq.trans (withMessage_served hp hs (congrArg BitVec.toNat hc) (List.mem_singleton.mpr hl) (by simp)) (congrArg Host.Outcome.next ?_)
  exact if_congr (by rw [Bool.or_eq_true, decide_eq_true_eq, decide_eq_true_eq]; rfl) rfl rfl

theorem exec_mgmtSetcap (hc : c = 7) (hl : ops.length = 2) : let x := ofBytes ops
    exec .mgmtSetcap s = .next (if x = 2400 ∨ x = 1600 ∨ x = 1000
      then (({ s with power := { s.power with mgmtCap := x } } : State).due [.capTakeEffect]).reply [0] else s.reply [2]) := by
  show execMgmtSetcap s = _
  refine Eq.trans (withMessage_served hp hs (congrArg BitVec.toNat hc) (List.mem_singleton.mpr hl) (by simp)) (congrArg Host.Outcome.next ?_)
  exact if_congr (capOk_iff _) rfl rfl

/-- Codes that are none are invalid. -/
theorem exec_mgmtUnknown (hc : c = 0 ∨ 9 ≤ c.toNat) : exec .mgmtUnknown s = .next (s.reply [2]) := by
  have hcode : (c.toNat == 0 || decide (9 ≤ c.toNat)) = true := by
    rcases hc with rfl | hc
    · rfl
    · simp [hc]
  show execMgmtUnknown s = _
  simp only [execMgmtUnknown, hp, hs, hcode]
  rfl

/-! ## WRCONF (R421) -/

/-- WRCONF of one of the lengths of its images: the kind, and then the image. -/
theorem exec_wrconf {n : Nat} (hc : c = 8) (hl : ops.length ∈ [257, 2049, 18]) (hk : (ops.headD 0).toNat = n) :
    exec .wrconf s = .next (s.configure n (ops.drop 1)) := by
  show execWrconf s = _
  refine Eq.trans (withMessage_served hp hs (congrArg BitVec.toNat hc) hl (by simp)) ?_
  rw [ofBytes_take_one, hk]

theorem exec_wrconf_parts {ps : List Partition} (hc : c = 8) (hl : ops.length = 257) (hk : ops.headD 0 = 0)
    (hj : s.judgeParts (ops.drop 1) = .inl ps) : exec .wrconf s = .next ((s.setParts ps).reply [0]) := by
  rw [exec_wrconf hp hs hc (n := 0) (by simp [hl]) (by rw [hk]; rfl)]
  simp only [State.configure, List.length_drop, hl, hj]
  rfl

theorem exec_wrconf_map {rs : List Region} (hc : c = 8) (hl : ops.length = 2049) (hk : ops.headD 0 = 1) (hm : s.power.main = true)
    (hj : s.judgeMap (ops.drop 1) = .inl rs) :
    exec .wrconf s = .next ((({ s with newRegions := some rs } : State).due [.mapTakeEffect]).reply [0]) := by
  rw [exec_wrconf hp hs hc (n := 1) (by simp [hl]) (by rw [hk]; rfl)]
  simp only [State.configure, List.length_drop, hl, hm, hj]
  rfl

theorem exec_wrconf_coll {g : CollGroup} (hc : c = 8) (hl : ops.length = 18) (hk : ops.headD 0 = 2)
    (hj : s.judgeColl (ofBytes ((ops.drop 1).take 1)) (ops.drop 2) = .inl g) :
    exec .wrconf s = .next (({ s with colls := s.colls.set (ofBytes ((ops.drop 1).take 1)) g } : State).reply [0]) := by
  rw [exec_wrconf hp hs hc (n := 2) (by simp [hl]) (by rw [hk]; rfl)]
  simp only [State.configure, List.length_drop, hl, List.drop_drop, hj]
  rfl

end

/-! ## MCTP control and PLDM (R33) -/

section
variable {s : State} (hs : s.power.standby = true)
include hs

/-- A free answer changes nothing but the port. -/
theorem exec_mctpControl : ∃ bs, ∃ t, exec .mctpControl s = .next t ∧
    t = { s with fresh := t.fresh, port := [], response := bs, packetsOut := t.packetsOut } :=
  ⟨_, _, congrArg Host.Outcome.next (if_pos hs), rfl⟩

theorem exec_pldmMessage_served (h : pldmType s.port = Config.pldmPlatform) : ∃ bs, ∃ t, exec .pldmMessage s = .next t ∧
    t = { s with fresh := t.fresh, port := [], response := bs, packetsOut := t.packetsOut } := by
  refine ⟨_, s.replyFree, ?_, rfl⟩
  show execPldmMessage s = _
  simp [execPldmMessage, hs, h]

theorem exec_pldmMessage_refused (h : pldmType s.port ≠ Config.pldmPlatform) : exec .pldmMessage s = .next (s.reply [Config.pldmUnsupported]) := by
  show execPldmMessage s = _
  simp [execPldmMessage, hs, h]

end

/-! ## Packets (R421) -/

theorem freeBytes_length (k : Nat) : ∀ n : Nat, (freeBytes n k).length = k := by
  induction k with
  | zero => exact fun _ => rfl
  | succ k ih => exact fun n => congrArg (· + 1) (ih (n + 1))

theorem State.dumpPartAt_length (s : State) (off : Nat) : (s.dumpPartAt off).length = 256 := by
  unfold State.dumpPartAt
  split
  · exact freeBytes_length ..
  · exact List.length_replicate

/-- The packets of a message hold its bytes in order, each at least one and at most the transmission unit. -/
theorem packetsOf_spec (n : Nat) : ∀ {bs : List Byte}, bs.length ≤ n →
    (packetsOf n bs).flatten = bs ∧ ∀ p ∈ packetsOf n bs, 0 < p.length ∧ p.length ≤ 64 := by
  induction n with
  | zero =>
    intro bs h
    obtain rfl := List.length_eq_zero_iff.mp (Nat.le_zero.mp h)
    exact ⟨rfl, fun _ hp => absurd hp List.not_mem_nil⟩
  | succ n ih =>
    intro bs h
    unfold packetsOf
    split
    case isTrue he =>
      obtain rfl := List.isEmpty_iff.mp he
      exact ⟨rfl, fun _ hp => absurd hp List.not_mem_nil⟩
    case isFalse he =>
      have hpos : 0 < bs.length := List.length_pos_iff.mpr fun e => he (List.isEmpty_iff.mpr e)
      obtain ⟨hflat, hlen⟩ := ih (bs := bs.drop mctpUnit) (by rw [List.length_drop, mctpUnit]; omega)
      refine ⟨by rw [List.flatten_cons, hflat, List.take_append_drop], fun p hp => ?_⟩
      rcases List.mem_cons.mp hp with rfl | hp
      · rw [List.length_take, mctpUnit]
        omega
      · exact hlen p hp

theorem State.reply_packets (s : State) (bs : List Byte) : (s.reply bs).response = bs ∧ (s.reply bs).packetsOut.foldl (· ++ ·) [] = bs ∧
    ∀ p ∈ (s.reply bs).packetsOut, 0 < p.length ∧ p.length ≤ 64 := by
  obtain ⟨hflat, hlen⟩ := packetsOf_spec bs.length (Nat.le_refl bs.length)
  refine ⟨rfl, ?_, hlen⟩
  show (packetsOf bs.length bs).foldl (fun acc p => acc ++ id p) [] = bs
  rw [foldl_append_flatMap, List.flatMap_id, List.nil_append, hflat]

/-- The four cases of a packet: too long by itself, too long with what stands, one of several, the last. -/
theorem State.receive_cases (s : State) (p : MsgPacket) : let all := (if p.first then [] else s.assembling) ++ p.bytes
    (64 < p.bytes.length → s.receive p = s) ∧
    (p.bytes.length ≤ 64 → 4096 < all.length → (s.receive p).assembling = [] ∧ (s.receive p).port = s.port) ∧
    (p.bytes.length ≤ 64 → all.length ≤ 4096 → p.last = false → s.receive p = { s with assembling := all }) ∧
    (p.bytes.length ≤ 64 → all.length ≤ 4096 → p.last = true → (s.receive p).assembling = [] ∧ (s.receive p).port = all ∧
      ∃ e, (s.receive p).agenda = s.agenda ++ [e]) := by
  intro all
  refine ⟨fun h => if_pos h, fun h hl => ?_, fun h hl he => ?_, fun h hl he => ?_⟩
  · have hr : s.receive p = { s with assembling := [] } := (if_neg (Nat.not_lt.mpr h)).trans (if_pos hl)
    rw [hr]
    exact ⟨rfl, rfl⟩
  · exact (if_neg (Nat.not_lt.mpr h)).trans ((if_neg (Nat.not_lt.mpr hl)).trans (if_neg (by simp [he])))
  · have hr : s.receive p = ({ s with assembling := [], port := all } : State).due [messageEvent p.kind (ofBytes (all.take 1))] :=
      (if_neg (Nat.not_lt.mpr h)).trans ((if_neg (Nat.not_lt.mpr hl)).trans (if_pos he))
    rw [hr]
    exact ⟨rfl, rfl, _, rfl⟩

/-! ## The obligation -/

/-- Settles O48: the store by the lemmas of its operations, each message of the port by the lemma of its command. -/
theorem recordsAndManagement : Obligations.RecordsAndManagement := by
  refine ⟨fun s die => ?store, fun s i h hi => exec_message_down h i hi, fun s c ops hp hs => ?port⟩
  case store =>
    refine ⟨exec_scoreHalving_early, exec_scoreHalving_due, exec_scorePersist_early, exec_scorePersist_due, State.addRecord_room, State.addRecord_full,
      fun h hn => ?_, fun h hn => ?_, fun h hlo hhi => ?_, exec_readunit⟩
    · rw [exec_readrec h, if_pos hn]
    · rw [exec_readrec h, if_neg (by omega), hn]
      rfl
    · rw [exec_readrec h, if_neg (by omega)]
  case port =>
    refine ⟨fun hc hl hlo hhi => ?_, exec_mgmtReadrec_invalid hp hs, exec_readscore hp hs, exec_readmon hp hs, exec_readmon_busy hp hs,
      fun hc hl hm hx => ?_, fun hc hl hm hx => ?_, exec_resetpart_busy hp hs, exec_dump hp hs, exec_dump_busy hp hs, fun hc hl hx hlt hd => ?_,
      fun hc hl hx hlt => ⟨s.dumpPartAt (ofBytes ops), s.dumpPartAt_length _, ?_⟩, fun hc hl hx => ?_, exec_mgmtSetcap hp hs,
      fun ps => exec_wrconf_parts hp hs, fun rs => exec_wrconf_map hp hs, fun g => exec_wrconf_coll hp hs, exec_mgmtUnknown hp hs,
      exec_mctpControl hs, exec_pldmMessage_served hs, s.reply_packets, s.receive_cases, exec_pldmMessage_refused hs⟩
    · rw [exec_mgmtReadrec hp hs hc hl, if_neg (by omega)]
    · rw [exec_resetpart hp hs hc hl hm, if_pos hx]
    · rw [exec_resetpart hp hs hc hl hm, if_neg (Nat.not_lt.mpr hx)]
    · rw [exec_readdump hp hs hc hl, if_neg (by omega), State.dumpPartAt, hd]
    · rw [exec_readdump hp hs hc hl, if_neg (by omega)]
    · rw [exec_readdump hp hs hc hl, if_pos hx]

end Sys2Proof.Machine
end

section
/-! LEMMAS. How a walk ends (R350, R351): in the TLBs that asked for it, or in a Faulted granule with its record. -/
set_option Elab.async false

namespace Sys2Proof.Machine

section
variable {s : State} {ctx va : Nat} {acc : AccKind} {w : Walk}

/-! ## A leaf (R351) -/

/-- A translation that is placed changes no core. -/
theorem State.tlbPut_cores (s : State) (t : Tlb) : (s.tlbPut t).cores = s.cores := by
  unfold State.tlbPut
  extract_lets mine
  split
  · rfl
  split
  · split <;> rfl
  · rfl

theorem State.tlbFill_cores (s : State) (us : List Nat) (t : Tlb) : (s.tlbFill us t).cores = s.cores :=
  foldl_stands State.cores (fun s u => by
    split
    · exact (State.tlbPut_cores ..).trans (State.tlbPut_cores ..)
    · exact State.tlbPut_cores ..) us s

/-- A TLB that holds nothing has room. -/
theorem State.tlbPut_empty {t : Tlb} (h : ∀ x ∈ s.tlb, x.unit ≠ t.unit) : s.tlbPut t = { s with tlb := s.tlb ++ [t] } := by
  have hat : s.tlbAt t.unit t.ctx t.va = none := List.find?_eq_none.mpr fun x hx => by simp [h x hx]
  have hmine : s.tlb.filter (fun x => x.unit == t.unit) = [] := List.filter_eq_nil_iff.mpr fun x hx => by simp [h x hx]
  have hsize : tlbSize t.unit = some 64 ∨ tlbSize t.unit = some 1024 ∨ tlbSize t.unit = none := by
    unfold tlbSize
    split
    · exact .inl rfl
    · split
      · exact .inr (.inl rfl)
      · exact .inr (.inr rfl)
  rcases hsize with hsize | hsize | hsize <;> simp [State.tlbPut, hat, hmine, hsize]

/-- A core's leaf goes to its own TLB and to its cluster's. -/
theorem State.tlbFill_core {c : Nat} (t : Tlb) (hc : c < 384) (h : s.tlb = []) :
    (s.tlbFill [c] t).tlb = [{ t with unit := c }, { t with unit := 384 + c / 4 }] := by
  have hown : s.tlbPut { t with unit := c } = { s with tlb := [{ t with unit := c }] } := by
    rw [State.tlbPut_empty (by simp [h]), h, List.nil_append]
  have hcluster : ({ s with tlb := [{ t with unit := c }] } : State).tlbPut { t with unit := 384 + c / 4 } =
      { s with tlb := [{ t with unit := c }, { t with unit := 384 + c / 4 }] } := State.tlbPut_empty fun x hx => by
    obtain rfl := List.mem_singleton.mp hx
    show c ≠ 384 + c / 4
    omega
  have hfill : s.tlbFill [c] t = (s.tlbPut { t with unit := c }).tlbPut { t with unit := 384 + c / 4 } := if_pos hc
  rw [hfill, hown, hcluster]

/-- What a walk's leaf makes of the TLBs is what filling them makes. -/
theorem State.walkLeaf_tlb (s : State) (w : Walk) (t : Tlb) :
    (s.walkLeaf w t).tlb = (({ s with walks := s.walks.erase w } : State).tlbFill w.units t).tlb := by
  unfold State.walkLeaf
  extract_lets s1 s2
  split <;> rfl

theorem State.group?_mapAllWaits (f : Nat → Group → Wait → Wait) (c slot : Nat) :
    (s.mapAllWaits f).group? c slot = (s.group? c slot).map (fun g => g.mapWaits (f c g)) := by
  have hcore : (s.mapAllWaits f).core c = { s.core c with groups := (s.core c).groups.map (fun g => (g.1, g.2.mapWaits (f c g.2))) } :=
    State.core_mapCores (fun c k => { k with groups := k.groups.map (fun g => (g.1, g.2.mapWaits (f c g.2))) }) rfl c rfl
  unfold State.group?
  rw [hcore]
  exact Tab.get?_map (fun g : Nat × Group => (g.1, g.2.mapWaits (f c g.2))) (fun _ => rfl) _ slot

/-- The lanes of the core that asked wait for the walk no longer (R350). -/
theorem State.walkLeaf_wakes (t : Tlb) {c slot : Nat} {g : Group} (hu : c ∈ w.units) (hc : s.ctxAt c = w.ctx) (hg : s.group? c slot = some g) :
    ∃ g', (s.walkLeaf w t).group? c slot = some g' ∧ ∀ l ∈ g'.lanes, l.wait ≠ .walk w.ctx w.gran := by
  unfold State.walkLeaf
  extract_lets s1 s2
  have hcores : s1.cores = s.cores := State.tlbFill_cores ..
  have h1 : s1.group? c slot = some g := (State.group?_congr hcores).trans hg
  have hunwant (u : State) : (u.unwant w.ctx w.gran).group? c slot = u.group? c slot := rfl
  refine ⟨g.mapWaits (fun x => if w.units.contains (coreTlb c) && x == .walk w.ctx w.gran && s.ctxAt c == w.ctx then .none else x), ?_,
    fun l hl => ?_⟩
  · split
    · rw [hunwant, State.group?_mapAllWaits, h1]
      rfl
    · rw [State.group?_mapAllWaits, h1]
      rfl
  · obtain ⟨l, -, rfl⟩ := List.mem_map.mp hl
    show (if _ then Wait.none else l.wait) ≠ _
    split
    · exact Wait.noConfusion
    · next hcond => exact fun hwait => hcond (by simp [coreTlb, hu, hc, hwait])

/-! ## A fault (R350) -/

theorem State.groupsWith_eq_nil {p : Nat → Group → Bool} (h : ∀ c ∈ s.cores, ∀ g ∈ c.2.groups, p c.1 g.2 = false) : s.groupsWith p = [] := by
  unfold State.groupsWith
  rw [foldl_append_flatMap, List.nil_append, List.flatMap_eq_nil_iff]
  exact fun c hc => by simpa using h c hc

/-- A granule on which no Group waits becomes Faulted, with one record, and nothing is squashed. -/
theorem State.walkFault_unused {gr kind lvl ea : Nat} (hn : ∀ c ∈ s.cores, ∀ g ∈ c.2.groups, g.2.onWalk ctx gr = false)
    (hf : s.faulted.contains (ctx, gr) = false) : let part := s.sealedOf (s.ctx ctx).part
    s.walkFault ctx gr acc kind lvl ea = { s with
      walks := s.walks.filter (fun w => !(w.ctx == ctx && w.gran == gr))
      faulted := s.faulted ++ [(ctx, gr)]
      xrecs := s.xrecs ++ [{ part := part, ctx := ctx, va := gr * 2 ^ 18, acc := accCode acc, lvl := lvl, kind := kind, eaddr := ea }]
      agenda := s.agenda ++ [.xfaultRecordWrite part] } := by
  intro part
  unfold State.walkFault
  extract_lets s1 s2
  have h2 : s2 = s1 := by
    unfold s2
    rw [State.groupsWith_eq_nil (s := s1) hn]
    rfl
  rw [h2]
  exact if_neg (by rw [show s1.faulted = s.faulted from rfl, hf]; exact Bool.false_ne_true)

/-! ## WALK_COMPLETE -/

section
variable (hw : s.walks.find? (fun w => w.ctx == ctx && w.gran == granOf va) = some w)
include hw

theorem exec_walkComplete_migrates (hm : s.migrates ctx va 1 = true) :
    exec (.walkComplete ctx va acc) s = .next (s.due [.walkComplete ctx va acc]) := by
  show execWalkComplete ctx va acc s = _
  simp only [execWalkComplete, hw, hm, Bool.or_true, if_true]

/-- The Context and the granule of the walk that is found. -/
theorem walk_found : w.ctx = ctx ∧ w.gran = granOf va := by simpa using List.find?_some hw

section
variable (hf : s.inFlight w = true) (hm : s.migrates ctx va 1 = false) (hn : walkWaits s w.die va 4 0 (s.ctx ctx).ptroot = none)
include hf hm hn

theorem exec_walkComplete_leaf {t : Tlb} (ht : s.walk ctx va = .leaf t) : exec (.walkComplete ctx va acc) s = .next (s.walkLeaf w t) := by
  show execWalkComplete ctx va acc s = _
  simp [execWalkComplete, hw, hf, hm, hn, ht]

theorem exec_walkComplete_fault {kind lvl ea : Nat} (ht : s.walk ctx va = .fault kind lvl ea) :
    exec (.walkComplete ctx va acc) s = .next (s.walkFault ctx (granOf va) acc kind lvl ea) := by
  show execWalkComplete ctx va acc s = _
  simp [execWalkComplete, hw, hf, hm, hn, ht, (walk_found hw).2]

end

end

end

end Sys2Proof.Machine
end

section
/-! LEMMAS. The translation-fault ring (R353), requests that are sent again and rebuilt lines (R361, R363), refresh (R366), and the obligation
about walks and lines. -/
set_option Elab.async false

namespace Sys2Proof.Machine

section
variable {s : State} {part die c slot line : Nat}

/-! ## The translation-fault ring (R353) -/

/-- A write of the device that is stamped at once becomes the newest difference, and the records that wait go on waiting. -/
theorem State.deviceUnit_stamped (items : List BufItem) (h : s.stampsNow part = true) :
    (∃ d, (s.deviceUnit part items).diffs = s.diffs ++ [d] ∧ d.part = part ∧ d.stamp = s.stamps.getD part 1 ∧ d.items = items) ∧
      (s.deviceUnit part items).xrecs = s.xrecs := by
  have hunit : s.deviceUnit part items = s.commitItems part (s.lowestDie part) items none none none := if_pos h
  rw [hunit]
  unfold State.commitItems
  extract_lets n sects cs src s1
  obtain ⟨ps, ag, hacross⟩ := sendAcross_only s src (diffTag part n) (itemAddrs s.regions items)
  obtain ⟨ps', ag', hcast⟩ := sendPackets_only (fun c => c) (fun _ => castTag part n) src (cs.filter (fun c => dieOf c != endDie src))
    { s with pairs := ps, agenda := s.agenda ++ ag }
  have h1 : s1 = { s with pairs := ps', agenda := s.agenda ++ ag ++ ag' } := by
    unfold s1
    rw [hacross, hcast]
  rw [h1]
  exact ⟨⟨_, rfl, rfl, rfl, rfl⟩, rfl⟩

/-- An address that is accessed changes at most whether the machine stops. -/
theorem State.touch_records (s : State) (pa : Nat) :
    (s.touch pa).diffs = s.diffs ∧ (s.touch pa).xrecs = s.xrecs := by
  unfold State.touch
  split <;> exact ⟨rfl, rfl⟩

/-- The ring once a record has been written: tail and number move on, and the record waits no more. -/
def State.ringMoved (s : State) (part die seq : Nat) (w : Window) (r : XRec) : State :=
  let s1 := s.setWindow die { w with xftail := (w.xftail + 1) % 2 ^ 32 }
  ({ s1 with xseq := s1.xseq.set part seq, xrecs := s1.xrecs.erase r } : State).due [.xfaultRecordWrite part]

theorem State.ringMoved_frame (s : State) (seq : Nat) (w : Window) (r : XRec) :
    (s.ringMoved part die seq w r).diffs = s.diffs ∧ (s.ringMoved part die seq w r).mem = s.mem := ⟨rfl, rfl⟩

theorem State.ringMoved_ring (s : State) (seq : Nat) (w : Window) (r : XRec) :
    ((s.ringMoved part die seq w r).window die).xftail = (w.xftail + 1) % 2 ^ 32 ∧ (s.ringMoved part die seq w r).xseq.getD part 0 = seq ∧
      (s.ringMoved part die seq w r).xrecs = s.xrecs.erase r :=
  ⟨congrArg Window.xftail (Tab.getD_set_self ..), Tab.getD_set_self .., rfl⟩

section
variable {r : XRec} (hr : s.xrecs.find? (fun r => r.part == part) = some r) (hd : s.firstDie part = some die)
include hr hd

theorem exec_xfaultRecordWrite_waits
    (h : (s.window die).xflg = 0 ∨ 2 ^ (s.window die).xflg ≤ seqAhead (s.window die).xftail (s.window die).xfhead) :
    exec (.xfaultRecordWrite part) s = .next s := by
  show execXfaultRecordWrite part s = _
  simp only [execXfaultRecordWrite, hr, hd]
  exact if_pos (by simpa using h)

/-- While the ring is set and has room, the oldest record is written at its tail. -/
theorem exec_xfaultRecordWrite_writes (hset : (s.window die).xflg ≠ 0)
    (hroom : seqAhead (s.window die).xftail (s.window die).xfhead < 2 ^ (s.window die).xflg) (hstamp : s.stampsNow part = true) :
    let w := s.window die
    let seq := s.xseq.getD part 0 + 1
    let pa := w.xfbase + 32 * (w.xftail % 2 ^ w.xflg)
    ∃ t d, exec (.xfaultRecordWrite part) s = .next t ∧
      t.diffs = s.diffs ++ [d] ∧ d.part = part ∧ d.stamp = s.stamps.getD part 1 ∧ d.items = [.store true false pa (r.bytes seq)] ∧
      (t.window die).xftail = (w.xftail + 1) % 2 ^ 32 ∧ t.xseq.getD part 0 = seq ∧ t.xrecs = s.xrecs.erase r ∧ t.mem = s.mem := by
  intro w seq pa
  obtain ⟨⟨d, hdiffs, hpart, hst, hitems⟩, hxrecs⟩ := State.deviceUnit_stamped [.store true false pa (r.bytes seq)] hstamp
  obtain ⟨htdiffs, htxrecs⟩ := (s.deviceUnit part [.store true false pa (r.bytes seq)]).touch_records pa
  have hkeeps : Keeps s ((s.deviceUnit part [.store true false pa (r.bytes seq)]).touch pa) := (Keeps.deviceUnit ..).trans (Keeps.touch ..)
  have hexec : exec (.xfaultRecordWrite part) s =
      .next (((s.deviceUnit part [.store true false pa (r.bytes seq)]).touch pa).ringMoved part die seq w r) := by
    show execXfaultRecordWrite part s = _
    simp only [execXfaultRecordWrite, hr, hd]
    exact if_neg (by simp [hset, hroom])
  generalize (s.deviceUnit part [.store true false pa (r.bytes seq)]).touch pa = t at hexec htdiffs htxrecs hkeeps
  obtain ⟨hmdiffs, hmmem⟩ := t.ringMoved_frame (part := part) (die := die) seq w r
  obtain ⟨htail, hseq, hmxrecs⟩ := t.ringMoved_ring (part := part) (die := die) seq w r
  refine ⟨_, d, hexec, hmdiffs.trans (htdiffs.trans hdiffs), hpart, hst, hitems, htail, hseq, ?_, hmmem.trans hkeeps.mem⟩
  rw [hmxrecs, htxrecs, hxrecs]

end

/-! ## REQUEST_RESEND (R363) -/

theorem exec_requestResend {g : Group} {since : Nat} (hg : s.group? c slot = some g) (hh : g.hold = .resend since) :
    exec (.requestResend c slot) s =
      .next (if s.wall < since + 1000 then s.due [.requestResend c slot] else s.setGroup c slot { g with hold := .none }) := by
  have hmod : s.modGroup c slot (fun g => { g with hold := .none }) = s.setGroup c slot { g with hold := .none } := by
    simp only [State.modGroup, hg]
  show execRequestResend c slot s = _
  simp only [execRequestResend, hg, hh, hmod]
  rfl

/-! ## LINE_REBUILD (R361) -/

theorem exec_lineRebuild {bytes : List (BitVec 8)} (hbad : s.badLines.contains line = true) (hgroup : s.groupBroken = false)
    (hstripe : s.stripeBusy line = false) (hlen : bytes.length = 64) :
    exec (.lineRebuild line bytes) s = .next (({ s with mem := s.mem.put (64 * line) bytes, badLines := s.badLines.filter (· != line) } : State).replay
      (· == line)) := by
  show execLineRebuild line bytes s = _
  simp only [execLineRebuild, hbad, hgroup, hstripe, hlen, Bool.not_true, Bool.or_self, Bool.false_eq_true, if_false, if_true]

/-- A rebuilt line holds its bytes, and no byte beside it changes. -/
theorem read_rebuilt {bytes : List (BitVec 8)} (hlen : bytes.length = 64) (hwf : Memory.wf s.mem = true) :
    (∀ i, i < 64 → (s.mem.put (64 * line) bytes).read (64 * line + i) = bytes.getD i 0) ∧
      ∀ a, (a < 64 * line ∨ 64 * line + 64 ≤ a) → (s.mem.put (64 * line) bytes).read a = s.mem.read a := by
  refine ⟨fun i hi => ?_, fun a ha => ?_⟩
  · rw [Memory.read_put _ _ _ hwf, if_pos (by omega), Nat.add_sub_cancel_left]
  · rw [Memory.read_put _ _ _ hwf, if_neg (by omega)]

/-! ## Refresh (R366) -/

section
variable {st ch pc bk : Nat}

theorem exec_refresh : let b := bankNo st ch pc bk
    let x := s.banks.getD b (0, 0)
    exec (.refresh st ch pc bk) s = .next (if x.1 ≤ s.wall then { s with banks := s.banks.set b (s.wall + 350 * (x.2 + 1), 0) }
      else if x.2 < 8 then { s with banks := s.banks.set b (x.1, x.2 + 1) } else s.due [.refresh st ch pc bk]) := by
  intro b x
  show execRefresh st ch pc bk s = _
  unfold execRefresh
  split
  · next h => rw [if_pos h]; rfl
  · next h =>
    rw [if_neg h]
    exact (apply_ite Host.Outcome.next _ _ _).symm

theorem exec_refreshBackoff : let b := bankNo st ch pc bk
    let x := s.banks.getD b (0, 0)
    exec (.refreshBackoff st ch pc bk) s = .next (if s.wall < x.1 then s.due [.refreshBackoff st ch pc bk]
      else if x.2 = 8 then { s with banks := s.banks.set b (s.wall + 350 * 9, 0) } else { s with banks := s.banks.set b (s.wall + 350, x.2) }) := by
  intro b x
  show execRefreshBackoff st ch pc bk s = _
  unfold execRefreshBackoff
  split
  · next h => rw [if_pos h]
  · next h =>
    rw [if_neg h]
    exact (apply_ite Host.Outcome.next _ _ _).symm

end

end

/-! ## The obligation -/

/-- Settles O38: each event by the lemma of its rule. -/
theorem walksAndLines : Obligations.WalksAndLines := by
  intro s ctx va acc gr
  refine ⟨fun w => exec_walkComplete_migrates, fun w hw hf hm hn => ⟨fun t ht => ⟨exec_walkComplete_leaf hw hf hm hn ht, fun c hc hu htlb => ?tlb,
    fun c slot g hu hc hg => ?lanes⟩, fun kind lvl ea ht hunused hnew => ?fault⟩, fun part r die hr hd => ⟨exec_xfaultRecordWrite_waits hr hd,
    exec_xfaultRecordWrite_writes hr hd⟩, fun c slot g since => exec_requestResend, fun line bytes hbad hgroup hstripe hlen hwf => ?rebuild,
    fun st ch pc bk => ⟨fun h => ?now, fun h hn => ?later, fun h hn => ?all, fun h hn => ?one⟩⟩
  case tlb =>
    rw [State.walkLeaf_tlb, hu]
    exact State.tlbFill_core (s := { s with walks := s.walks.erase w }) t hc htlb
  case lanes =>
    obtain ⟨hctx, hgran⟩ := walk_found hw
    have hwakes := State.walkLeaf_wakes (w := w) t (by simp [hu]) (hc.trans hctx.symm) hg
    rwa [hctx, hgran] at hwakes
  case fault =>
    rw [exec_walkComplete_fault hw hf hm hn ht, State.walkFault_unused hunused hnew]
  case rebuild =>
    obtain ⟨hline, hrest⟩ := read_rebuilt (s := s) (line := line) hlen hwf
    exact ⟨_, exec_lineRebuild hbad hgroup hstripe hlen, hline, hrest, fun hmem => by simp [State.replay] at hmem, rfl⟩
  case now => rw [exec_refresh, if_pos h]
  case later => rw [exec_refresh, if_neg (Nat.not_le.mpr h), if_pos hn]
  case all => rw [exec_refreshBackoff, if_neg (Nat.not_lt.mpr h), if_pos hn]
  case one => rw [exec_refreshBackoff, if_neg (Nat.not_lt.mpr h), if_neg hn]

end Sys2Proof.Machine
end

section
/-! LEMMAS. INVAL, XRESOLVE and XFAIL (R350, R352, R354): each runs on the window of its die. -/
set_option Elab.async false

namespace Sys2Proof.Machine

section
variable {s : State} {die : Nat}

/-- A command that waits alone is that of its die (R268). -/
theorem State.taken_alone {code : Nat} (h : s.goes = [(die, code)]) : s.taken code = some die := by simp [State.taken, h]

/-- No Page migrates where no migration is under way. -/
theorem State.migrates_none (ctx lo n : Nat) (h : s.migrations = []) : s.migrates ctx lo n = false := by simp [State.migrates, h]

/-! ## INVAL (R352) -/

/-- An INVAL that has been written begins, where none waits for its end. -/
theorem exec_inval_begins (h : s.goes = [(die, 0x30)]) : exec .inval s = .next (s.startInval die (s.window die)) := by
  have hwaits : s.invals.find? (fun i => s.goes.contains (i.die, invalOn) && s.invalDone i) = none :=
    List.find?_eq_none.mpr fun i _ => by simp [h, invalOn]
  show execInval s = _
  simp only [execInval, hwaits, State.taken_alone h]

/-- An INVAL that waits ends once nothing is on its way. -/
theorem exec_inval_ends {i : Inval} (h : s.goes = [(die, 0x130)]) (hi : s.invals = [i]) (hdie : i.die = die) (hdone : s.invalDone i = true) :
    exec .inval s = .next (({ s with invals := [] } : State).answer die 0 []) := by
  have hfind : s.invals.find? (fun i => s.goes.contains (i.die, invalOn) && s.invalDone i) = some i := by
    rw [hi, List.find?_cons_of_pos]
    simp [h, hdie, hdone, invalOn]
  have herase : s.invals.erase i = [] := by rw [hi, List.erase_cons_head]
  show execInval s = _
  simp only [execInval, hfind, herase, hdie]
  rfl

theorem State.startInval_free {w : Window} (hfree : (s.ctx (w.op 0x10 1)).state = .free) : s.startInval die w = s.answer die 1 [] := if_pos hfree

theorem State.startInval_known {w : Window} (hctx : (s.ctx (w.op 0x10 1)).state ≠ .free) (hva : w.op 0x18 8 < 2 ^ 57) (hsize : w.op 0x20 1 ≤ 3)
    (hm : s.migrations = []) : let r := invalRange (w.op 0x18 8) (w.op 0x20 1)
    let x := s.beginInval die (w.op 0x10 1) r.1 r.2 []
    s.startInval die w = if x.1.invalDone x.2 then x.1.answer die 0 []
      else (({ x.1 with invals := x.1.invals ++ [x.2] } : State).continueAs die 0x130).due [.inval] := by
  intro r x
  have hvalid : ¬(decide (3 < w.op 0x20 1) || (w.op 0x20 1 != 3 && decide (2 ^ 57 ≤ w.op 0x18 8))) = true := by
    simp only [Bool.or_eq_true, Bool.and_eq_true, decide_eq_true_eq]
    omega
  exact (if_neg hctx).trans ((if_neg hvalid).trans (if_neg (by rw [State.migrates_none _ _ _ hm]; exact Bool.false_ne_true)))

/-! ## XRESOLVE (R354) -/

section
variable (h : s.taken 0x32 = some die) (hctx : (s.ctx ((s.window die).op 0x10 1)).state ≠ .free) (hva : (s.window die).op 0x18 8 < 2 ^ 57)
include h hctx hva

theorem exec_xresolve : let ctx := (s.window die).op 0x10 1
    let gr := granOf ((s.window die).op 0x18 8)
    exec .xresolve s = .next (if s.faulted.contains (ctx, gr) then (s.wakeFaulted ctx gr).answer die 0 [] else s.answer die 1 []) := by
  show execXresolve s = _
  rw [execXresolve, withCommand_taken h]
  exact congrArg Host.Outcome.next ((if_neg hctx).trans (if_neg (Nat.not_le.mpr hva)))

end

/-! ## XFAIL (R354) -/

/-- With no command and no node on the granule, the Groups that wait there trap when they go on. -/
theorem exec_xfail (h : s.taken 0x33 = some die) (hctx : (s.ctx ((s.window die).op 0x10 1)).state ≠ .free)
    (hva : (s.window die).op 0x18 8 < 2 ^ 57) (hm : s.migrations = []) (hops : ∀ o ∈ s.ops, o.2.wants = none) (hnodes : ∀ n ∈ s.nodes, n.wants = none) :
    let ctx := (s.window die).op 0x10 1
    let gr := granOf ((s.window die).op 0x18 8)
    let told := (s.groupsWith (fun _ g => g.hold == .fault ctx gr)).foldl (fun s g =>
      s.modGroup g.1 g.2 (fun x => { x with failed := unionNat x.failed [gr] })) s
    s.faulted.contains (ctx, gr) = true → exec .xfail s = .next ((told.wakeFaulted ctx gr).answer die 0 []) := by
  intro ctx gr told hf
  have hbusy : ¬(!s.faulted.contains (ctx, gr) || s.migrates ctx ((s.window die).op 0x18 8) 1) = true := by
    rw [hf, State.migrates_none _ _ _ hm]
    exact Bool.false_ne_true
  have hnoOps : s.ops.filter (fun e => e.2.ctx == ctx && e.2.wants == some gr) = [] :=
    List.filter_eq_nil_iff.mpr fun o ho => by simp [hops o ho]
  have hnoNodes : s.nodes.filter (fun n => s.nodeCtx n == ctx && n.wants == some gr && n.state.live) = [] :=
    List.filter_eq_nil_iff.mpr fun n hn => by simp [hnodes n hn]
  show execXfail s = _
  rw [execXfail, withCommand_taken h]
  refine congrArg Host.Outcome.next ((if_neg hctx).trans ((if_neg (Nat.not_le.mpr hva)).trans ((if_neg hbusy).trans ?_)))
  dsimp only
  rw [hnoOps, hnoNodes]
  rfl

end

end Sys2Proof.Machine
end

section
/-! LEMMAS. MIGRATE and its steps (R355), WRREGION (R358), and the obligation about the commands of Pages. -/
set_option Elab.async false

namespace Sys2Proof.Machine

section
variable {s : State} {die : Nat}

/-! ## MIGRATE (R355) -/

theorem exec_migrate {t : Tlb} (h : s.taken 0x31 = some die) (hctx : (s.ctx ((s.window die).op 0x10 1)).state ≠ .free)
    (hva : (s.window die).op 0x18 8 < 2 ^ 57)
    (ht : s.tlb.find? (fun t => t.maps ((s.window die).op 0x10 1) ((s.window die).op 0x18 8)) = some t)
    (halign : (s.window die).op 0x20 8 % 2 ^ t.lg = 0) (hnew : (s.window die).op 0x20 8 < 2 ^ 40) (hm : s.migrations = []) (hout : s.outIn [t] = []) :
    let w := s.window die
    let ctx := w.op 0x10 1
    let part := s.sealedOf (s.ctx ctx).part
    let m : Migration := { die := die, ctx := ctx, va := t.va, lg := t.lg, old := t.frame, new := w.op 0x20 8, part := part,
                           bound := s.lastStamp part, step := 2, mark := 0, was := [] }
    exec .migrate s = .next ((({ s with migrations := [m] } : State).continueAs die 0x131).due [.migrationComplete die]) := by
  intro w ctx part m
  show execMigrate s = _
  rw [execMigrate, withCommand_taken h]
  refine congrArg Host.Outcome.next ((if_neg hctx).trans ((if_neg (Nat.not_le.mpr hva)).trans ?_))
  have hvalid : ¬(decide ((s.window die).op 0x20 8 % 2 ^ t.lg ≠ 0) || decide (2 ^ 40 ≤ (s.window die).op 0x20 8)) = true := by
    simp only [Bool.or_eq_true, decide_eq_true_eq]
    omega
  have hbusy : ¬(s.migrates (w.op 0x10 1) t.va (2 ^ t.lg) ||
      decide (migrationRanges ≤ (s.migrations.filter (fun m => m.die == die)).length)) = true := by
    simp [State.migrates_none _ _ _ hm, hm, migrationRanges]
  have hclean : ¬(!(s.outIn [t]).isEmpty) = true := by simp [hout]
  simp only [ht]
  refine (if_neg hvalid).trans ((if_neg hbusy).trans ((if_neg hclean).trans ?_))
  rw [hm]
  rfl

/-! ## The steps of a migration (R355) -/

/-- No request parks where no line is under repair and no Page migrates (R363). -/
theorem State.parks_of_idle (pa : Nat) (hb : s.badLines = []) (hm : s.migrations = []) (hr : s.rebuilding = []) (ho : s.offers = []) :
    s.parks pa = false := by simp [State.parks, State.computing, hb, hm, hr, ho]

/-- Where nothing is on its way and nothing is under repair, each step of a migration may be taken. -/
theorem migrationReady_of_idle {m : Migration} (hm : s.migrations = [m]) (hd : s.diffs = []) (hs : s.stampsNow m.part = true) (hb : s.badLines = [])
    (hr : s.rebuilding = []) (ho : s.offers = []) (hp : s.ops = []) : s.migrationReady m = true := by
  unfold State.migrationReady
  extract_lets n t still onFrame u
  have hparks (pa : Nat) : t.parks pa = false := State.parks_of_idle pa hb (by simp [t, hm]) hr ho
  have hdone (i : Inval) : u.invalDone i = true := invalDone_of_idle i (by simp [u, hd]) ho (by simp [u, hp])
  split
  · simp [still, hs, hd, hparks]
  · simp [still, hs, hd]
  · exact hs
  · simp [hdone]

theorem exec_migrationComplete {m : Migration} (hm : s.migrations = [m]) (hr : s.migrationReady m = true) :
    exec (.migrationComplete m.die) s = .next (s.migrationStep m) := by
  have hfind : s.migrations.find? (fun x => x.die == m.die && s.migrationReady x) = some m := by
    rw [hm, List.find?_cons_of_pos]
    simp [hr]
  show execMigrationComplete m.die s = _
  simp only [execMigrationComplete, hfind]

section
variable {m : Migration}

theorem State.migrationStep_copies (h : m.step = 2) :
    s.migrationStep m = ((s.copyFrame m).setMigration m { m with step := 3 }).due [.migrationComplete m.die] := by
  rw [State.migrationStep, h]
  rfl

theorem State.migrationStep_movesLeaf (h : m.step = 3) :
    s.migrationStep m = (((s.copyPoison m).moveLeaf m).setMigration m { m with step := 4 }).due [.migrationComplete m.die] := by
  rw [State.migrationStep, h]
  rfl

theorem State.migrationStep_drops (h : m.step = 4) : let y := s.beginInval m.die m.ctx m.va (2 ^ m.lg) []
    s.migrationStep m = (({ y.1 with invals := y.1.invals ++ [y.2] } : State).setMigration m
      { m with step := 5, was := s.tlb.filter (fun t => t.ctx == m.ctx && t.va == m.va) }).due [.migrationComplete m.die] := by
  rw [State.migrationStep, h]
  rfl

theorem State.migrationStep_forwards (h : m.step = 5) :
    let s1 : State := { s with invals := s.invals.filter (fun i => !(i.die == m.die && i.ctx == m.ctx && i.lo == m.va)) }
    s.migrationStep m = ((s1.forward m).answer m.die 0 []).due [.differenceApply m.part] := by
  rw [State.migrationStep, h]
  rfl

end

/-! ## WRREGION (R358) -/

section
variable (h : s.taken 0x41 = some die)
include h

theorem exec_wrregion_invalid (hpa : (s.window die).op 0x10 8 % 256 ≠ 0 ∨ physOk ((s.window die).op 0x10 8) = false) :
    exec .wrregion s = .next (s.answer die 2 []) := by
  show execWrregion s = _
  rw [execWrregion, withCommand_taken h]
  refine congrArg Host.Outcome.next (if_pos ?_)
  rcases hpa with hpa | hpa <;> simp [hpa]

theorem exec_wrregion_accepts {rs : List Region} (halign : (s.window die).op 0x10 8 % 256 = 0) (hfirst : physOk ((s.window die).op 0x10 8) = true)
    (hlast : physOk ((s.window die).op 0x10 8 + 2047) = true) (hwaits : ∀ a ∈ upFrom ((s.window die).op 0x10 8) 2048, s.waits 0 a = false)
    (hj : s.judgeMap (s.readPhys ((s.window die).op 0x10 8) 2048) = .inl rs) :
    exec .wrregion s = .next ((({ s with newRegions := some rs } : State).continueAs die 0x141).due [.mapTakeEffect]) := by
  have hfind : (upFrom ((s.window die).op 0x10 8) 2048).find? (s.waits 0) = none :=
    List.find?_eq_none.mpr fun a ha => by rw [hwaits a ha]; exact Bool.false_ne_true
  show execWrregion s = _
  rw [execWrregion, withCommand_taken h]
  refine congrArg Host.Outcome.next ((if_neg (by simp [halign, hfirst, hlast])).trans ?_)
  simp only [hfind, hj]

end

/-- Once no difference waits, the new map holds, and every cached line has gone. -/
theorem exec_mapTakeEffect {rs : List Region} (hn : s.newRegions = some rs) (hd : s.diffs = []) : ∃ t, exec .mapTakeEffect s = .next t ∧
    t.regions = rs ∧ t.newRegions = none ∧ t.clusters = [] ∧ t.mem = s.mem := by
  show ∃ t, execMapTakeEffect s = .next t ∧ _
  simp only [execMapTakeEffect, hn, hd, List.isEmpty_nil, Bool.not_true, Bool.false_eq_true, if_false]
  refine ⟨_, rfl, ?_⟩
  split <;> exact ⟨rfl, rfl, rfl, rfl⟩

end

/-! ## The obligation -/

/-- Settles O39: each command by the lemma of its rule, each step of a migration by what it does. -/
theorem pageCommands : Obligations.PageCommands := by
  intro s die w ctx va new pa gr known r x
  refine ⟨fun hg hk hsize hm => ?begins, fun i hg hi hdie hd ho hp => exec_inval_ends hg hi hdie (invalDone_of_idle i hd ho hp), fun hg hfree => ?free,
    fun h hk hf => ?resolved, fun h hk hf => ?unresolved, fun h hk hf hm hops hnodes => exec_xfail h hk.1 hk.2 hm hops hnodes hf,
    fun t h hk ht halign hnew hm hout => exec_migrate h hk.1 hk.2 ht halign hnew hm hout, fun m hm hdie => ?steps, exec_wrregion_invalid,
    fun rs h => exec_wrregion_accepts h, fun rs => exec_mapTakeEffect⟩
  case begins => rw [exec_inval_begins hg, State.startInval_known hk.1 hk.2 hsize hm]
  case free => rw [exec_inval_begins hg, State.startInval_free hfree]
  case resolved => rw [exec_xresolve h hk.1 hk.2, if_pos hf]
  case unresolved => rw [exec_xresolve h hk.1 hk.2, if_neg (by rw [hf]; exact Bool.false_ne_true)]
  case steps =>
    subst hdie
    intro ready on y s1
    refine ⟨migrationReady_of_idle hm, fun hr hstep => ?_, fun hr hstep => ?_, fun hr hstep => ?_, fun hr hstep => ?_⟩
    · rw [exec_migrationComplete hm hr, State.migrationStep_copies hstep]
    · rw [exec_migrationComplete hm hr, State.migrationStep_movesLeaf hstep]
    · rw [exec_migrationComplete hm hr, State.migrationStep_drops hstep]
    · rw [exec_migrationComplete hm hr, State.migrationStep_forwards hstep]

end Sys2Proof.Machine
end

section
/-! LEMMAS. The key order of entries (R379) is a linear order of distances and ids, and what a list becomes when an entry enters it. -/
set_option Elab.async false

namespace Sys2Proof.Machine

/-! ## Key order (R379) -/

/-- The order of distances: the class (negative infinity, finite, infinity, NaN) first, then the value in units of the smallest subnormal. -/
def FVal.place : FVal → Int ×ₗ Int
  | .inf true => toLex (-1, 0)
  | .fin s m e => toLex (0, alignTo s m e (fmtQmin fmtF32))
  | .inf false => toLex (1, 0)
  | .nan _ _ => toLex (2, 0)

/-- Distance first, then id. -/
def Cand.key (c : Cand) : (Int ×ₗ Int) ×ₗ Nat := toLex ((fdecode fmtF32 c.d).place, c.id)

/-- A mantissa moves to a lower exponent by a power of two. -/
theorem alignTo_lower (s : Bool) (m : Nat) {z e0 e : Int} (h0 : z ≤ e0) (h : e0 ≤ e) :
    alignTo s m e z = alignTo s m e e0 * 2 ^ (e0 - z).toNat := by
  have hpow : (e - z).toNat = (e - e0).toNat + (e0 - z).toNat := by omega
  simp only [alignTo, hpow, pow_add]
  split <;> ring

/-- Finite values compare as their multiples of one power of two. -/
theorem fcmpVal_fin_lt_iff {sa sb : Bool} {ma mb : Nat} {z ea eb : Int} (ha : z ≤ ea) (hb : z ≤ eb) :
    fcmpVal (.fin sa ma ea) (.fin sb mb eb) = .lt ↔ alignTo sa ma ea z < alignTo sb mb eb z := by
  have hz : z ≤ min ea eb := le_min ha hb
  rw [fcmpVal, compare_lt_iff_lt, alignTo_lower sa ma hz (min_le_left ..), alignTo_lower sb mb hz (min_le_right ..)]
  exact (mul_lt_mul_iff_of_pos_right (by positivity)).symm

/-- R379: numbers by value, NaN after every number. -/
theorem distLess_iff_place_lt (a b : Nat) : distLess a b = true ↔ (fdecode fmtF32 a).place < (fdecode fmtF32 b).place := by
  have low {x m : Nat} {s : Bool} {e : Int} (h : fdecode fmtF32 x = .fin s m e) : fmtQmin fmtF32 ≤ e := by
    obtain ⟨i, rfl, _⟩ := fdecode_fin (proper_of_named (.inl rfl)) h
    omega
  unfold distLess
  generalize ha : fdecode fmtF32 a = x
  generalize hb : fdecode fmtF32 b = y
  cases x with
  | nan => rcases y with _ | (_ | _) | _ <;> simp [isNanVal, FVal.place, Prod.Lex.toLex_lt_toLex]
  | inf s => rcases s with _ | _ <;> rcases y with _ | (_ | _) | _ <;> simp [isNanVal, fcmpVal, FVal.place, Prod.Lex.toLex_lt_toLex]
  | fin s m e =>
    cases y with
    | nan => simp [isNanVal, FVal.place, Prod.Lex.toLex_lt_toLex]
    | inf t => rcases t with _ | _ <;> simp [isNanVal, fcmpVal, FVal.place, Prod.Lex.toLex_lt_toLex]
    | fin t n g => simp [isNanVal, FVal.place, Prod.Lex.toLex_lt_toLex, fcmpVal_fin_lt_iff (low ha) (low hb)]

theorem keyBefore_iff_key_lt (a b : Cand) : keyBefore a b = true ↔ a.key < b.key := by
  rw [Cand.key, Cand.key, Prod.Lex.toLex_lt_toLex, keyBefore, Bool.or_eq_true, Bool.and_eq_true, Bool.not_eq_true', ← Bool.not_eq_true,
    distLess_iff_place_lt, distLess_iff_place_lt, decide_eq_true_eq, not_lt, le_iff_lt_or_eq]
  constructor
  · rintro (h | ⟨h | h, hid⟩)
    · exact .inl h
    · exact .inl h
    · exact .inr ⟨h, hid⟩
  · rintro (h | ⟨h, hid⟩)
    · exact .inl h
    · exact .inr ⟨.inr h, hid⟩

theorem keyBefore_eq_false_iff (a b : Cand) : keyBefore b a = false ↔ a.key ≤ b.key := by
  rw [← Bool.not_eq_true, keyBefore_iff_key_lt, not_lt]

/-! ## An entry enters a list -/

/-- In key order: no later entry comes before an earlier one. -/
def InKeyOrder (l : List Cand) : Prop := l.Pairwise (fun a b => keyBefore b a = false)

theorem insertCand_perm (c : Cand) (l : List Cand) : (insertCand c l).Perm (c :: l) := by
  induction l with
  | nil => exact .refl _
  | cons x r ih =>
    unfold insertCand
    split
    · exact .refl _
    · exact (ih.cons x).trans (.swap c x r)

theorem InKeyOrder.insertCand {l : List Cand} (c : Cand) (h : InKeyOrder l) : InKeyOrder (insertCand c l) := by
  induction l with
  | nil => exact List.pairwise_singleton ..
  | cons x r ih =>
    obtain ⟨hx, hr⟩ := List.pairwise_cons.mp h
    unfold Machine.insertCand
    split
    case isTrue hc =>
      have hcx : c.key < x.key := (keyBefore_iff_key_lt c x).mp hc
      refine List.pairwise_cons.mpr ⟨fun f hf => (keyBefore_eq_false_iff c f).mpr ?_, h⟩
      rcases List.mem_cons.mp hf with rfl | hf
      · exact hcx.le
      · exact hcx.le.trans ((keyBefore_eq_false_iff x f).mp (hx f hf))
    case isFalse hc =>
      refine List.pairwise_cons.mpr ⟨fun f hf => ?_, ih hr⟩
      rcases List.mem_cons.mp ((insertCand_perm c r).mem_iff.mp hf) with rfl | hf
      · exact Bool.eq_false_iff.mpr hc
      · exact hx f hf

/-- R379: an id that the list holds already is not taken again. -/
theorem enlist_of_mem (cap : Nat) {l : List Cand} {c : Cand} (h : ∃ f ∈ l, f.id = c.id) : enlist cap l c = l :=
  if_pos (by simpa using h)

/-- R379: another entry takes its place, and what lies beyond the capacity is given up. -/
theorem enlist_of_new (cap : Nat) {l : List Cand} {c : Cand} (h : ∀ f ∈ l, f.id ≠ c.id) : enlist cap l c = (insertCand c l).take cap :=
  if_neg (by simpa using h)

/-! ## The obligation -/

/-- Settles O34: by whether the list holds the id; the sorted list with the new entry is a permutation of both, cut at the capacity. -/
theorem mergeRule : Obligations.MergeRule := by
  intro cap l c hids hlen u
  by_cases hnew : ∀ f ∈ l, f.id ≠ c.id
  · have hu : u = (insertCand c l).take cap := enlist_of_new cap hnew
    have hperm := insertCand_perm c l
    have hall : ((insertCand c l).map (fun e => e.id)).Nodup :=
      (hperm.map _).nodup_iff.mpr (List.nodup_cons.mpr ⟨by simpa using hnew, hids⟩)
    rw [hu]
    refine ⟨hall.sublist ((List.take_sublist ..).map _), List.length_take_le .., fun e he => ?_, fun hroom e he => ?_, fun hsorted => ?_⟩
    · exact List.mem_cons.mp (hperm.mem_iff.mp (List.mem_of_mem_take he))
    · rw [List.take_of_length_le (by simpa [hperm.length_eq] using hroom)]
      exact hperm.mem_iff.mpr (List.mem_cons.mpr (he.symm.imp_left And.left))
    · exact (InKeyOrder.insertCand c hsorted).sublist (List.take_sublist ..)
  · have hu : u = l := enlist_of_mem cap (by simpa using hnew)
    rw [hu]
    refine ⟨hids, hlen, fun e he => .inr he, fun _ e he => ?_, id⟩
    exact he.elim id fun h => absurd h.2 hnew

end Sys2Proof.Machine
end

section
/-! LEMMAS. The Link state table (R392), and what a Link that is cut leaves. -/
set_option Elab.async false

namespace Sys2Proof.Machine

section
variable {s : State} {l : Nat}

@[simp] theorem State.link_setLink_self (s : State) (l : Nat) (x : Link) : (s.setLink l x).link l = x := Tab.getD_set_self ..

theorem State.link_setLink_of_ne (s : State) {l m : Nat} (x : Link) (h : m ≠ l) : (s.setLink l x).link m = s.link m :=
  Tab.getD_set_of_ne _ _ _ h

/-! ## Lock and training (R392) -/

/-- R392: the Link is Up from now on, with nothing queued behind it. -/
def State.linkUp (s : State) (l : Nat) : State := (s.setLink l { state := .up, replays := 0, queued := [], since := s.wall }).recount s

theorem exec_linkLock_degraded (h : (s.link l).state = .degraded) : exec (.linkLock l) s = .next (s.linkUp l) := by
  show execLinkLock l s = _
  simp only [execLinkLock, h, State.linkUp]

theorem exec_linkLock_training (h : (s.link l).state = .training) :
    exec (.linkLock l) s = .next (if s.wall ≤ (s.link l).since + 100000000 then s.linkUp l else s) := by
  show execLinkLock l s = _
  simp only [execLinkLock, h, trainNs]
  rfl

theorem exec_linkLock_retraining (h : (s.link l).state = .retraining) : exec (.linkLock l) s =
    .next (if s.wall ≤ (s.link l).since + 64000 then (s.linkUp l).due (arrivals (s.link l).queued) else s.linkUp l) := by
  show execLinkLock l s = _
  simp only [execLinkLock, h, retrainNs]
  rfl

theorem exec_linkLock_retired (h : (s.link l).state = .retired) : exec (.linkLock l) s = .next s := by
  show execLinkLock l s = _
  simp only [execLinkLock, h]

/-- A timer acts once its time has come, and waits until then. -/
theorem next_due_of_lt {a b : Nat} (t : State) (i : Instr) :
    (if a < b then Host.Outcome.next (s.due [i]) else .next t : Out) = .next (if b ≤ a then t else s.due [i]) := by
  rcases Nat.lt_or_ge a b with h | h
  · rw [if_pos h, if_neg (Nat.not_le.mpr h)]
  · rw [if_neg (Nat.not_lt.mpr h), if_pos h]

theorem exec_trainingTimeout (h : (s.link l).state = .training) : exec (.trainingTimeout l) s =
    .next (if (s.link l).since + 100000000 ≤ s.wall then (s.enterLink l .down).due [.trainingRetry l] else s.due [.trainingTimeout l]) :=
  (if_neg (not_not_intro h)).trans (next_due_of_lt ..)

theorem exec_trainingRetry (h : (s.link l).state = .down) : exec (.trainingRetry l) s =
    .next (if (s.link l).since + 1000000000 ≤ s.wall then (s.enterLink l .training).due [.trainingTimeout l] else s.due [.trainingRetry l]) :=
  (if_neg (not_not_intro h)).trans (next_due_of_lt ..)

theorem exec_trainingRetry_other (h : (s.link l).state ≠ .down) : exec (.trainingRetry l) s = .next s := if_pos h

/-! ## Replays and Retraining (R392) -/

/-- R392, R413: a replay scores, counts on or from 1, and the eighth in a row begins Retraining. -/
theorem exec_flitReplay (h : (s.link (laneLink l)).state = .up) :
    let x := s.link (laneLink l)
    let scored : State := { s with fresh := s.fresh + 1 }.addScore (laneUnit l) 1
    ∃ n, (n = 1 ∨ n = x.replays + 1) ∧
      exec (.flitReplay l) s = .next (if 8 ≤ n then scored.retrain (laneLink l) else scored.setLink (laneLink l) { x with replays := n }) := by
  intro x scored
  refine ⟨if (Config.freeByte s.fresh).toNat % 2 == 1 then x.replays + 1 else 1, ?_, if_neg (not_not_intro h)⟩
  split
  · exact .inr rfl
  · exact .inl rfl

theorem exec_flitReplay_other (h : (s.link (laneLink l)).state ≠ .up) : exec (.flitReplay l) s = .next s := if_pos h

theorem exec_lockLoss (h : (s.link (laneLink l)).state = .up) : exec (.lockLoss l) s = .next (s.retrain (laneLink l)) := if_pos h

theorem exec_lockLoss_other (h : (s.link (laneLink l)).state ≠ .up) : exec (.lockLoss l) s = .next s := if_neg h

theorem exec_retrainTimeout (h : (s.link l).state = .retraining) : exec (.retrainTimeout l) s =
    .next (if (s.link l).since + 64000 ≤ s.wall then (s.cutLink l .degraded).recount s else s.due [.retrainTimeout l]) :=
  (if_neg (not_not_intro h)).trans (next_due_of_lt ..)

/-! ## A Link that is cut (R392, R393) -/

theorem State.link_cutLink_self (s : State) (l : Nat) (x : LinkState) :
    (s.cutLink l x).link l = { state := x, replays := 0, queued := [], since := s.wall } := State.link_setLink_self ..

theorem State.link_cutLink_of_ne (s : State) {l m : Nat} (x : LinkState) (h : m ≠ l) : (s.cutLink l x).link m = s.link m :=
  (State.link_setLink_of_ne _ _ h).trans (State.link_setLink_of_ne _ _ h)

theorem State.mem_agenda_of_mem_cutLink {x : LinkState} {i : Instr} (h : i ∈ (s.cutLink l x).agenda) : i ∈ s.agenda := List.mem_of_mem_filter h

/-- R392: no packet that is left on its way crosses the boundary that was cut. -/
theorem State.not_mem_way_of_mem_cutLink {x : LinkState} {src dst seq p : Nat} {w : List Nat}
    (h : .packetArrival src dst seq p ∈ (s.cutLink l x).agenda) (hw : s.packetWay src dst = some w) : l ∉ w := by
  have hkept := List.of_mem_filter h
  simpa only [hw, Option.any_some, Bool.not_eq_true', List.contains_eq_mem, decide_eq_false_iff_not] using hkept

end

end Sys2Proof.Machine
end

section
/-! LEMMAS. End-to-end delivery (R395 to R397): arrival, acknowledgement, resends, and what is sent. -/
set_option Elab.async false

namespace Sys2Proof.Machine

section
variable {s : State} {src dst n payload : Nat}

@[simp] theorem State.pair_setPair_self (s : State) (src dst : Nat) (p : Pair) : (s.setPair src dst p).pair src dst = p := Tab.getD_set_self ..

/-- The table of pairs tells pairs of end points apart. -/
theorem pairKey_ne {a b src dst : Nat} (hne : (a, b) ≠ (src, dst)) (hb : b < 2 ^ 17) (hdst : dst < 2 ^ 17) : pairKey a b ≠ pairKey src dst := by
  intro h
  unfold pairKey at h
  exact hne (Prod.ext_iff.mpr ⟨by dsimp only; omega, by dsimp only; omega⟩)

/-! ## Arrival (R396) -/

/-- R396: an early packet is held. -/
def Pair.holding (p : Pair) (n payload : Nat) : Pair := { p with early := p.early ++ [(n, payload)] }

/-- R396: the packet held with the number expected is delivered, and the next number is expected. -/
def Pair.delivering (p : Pair) (e : Nat × Nat) : Pair :=
  { p with early := p.early.filter (fun x => x.1 != e.1), delivered := p.delivered ++ [e.2], expect := (p.expect + 1) % 2 ^ 16 }

theorem Pair.drain_of_none {p : Pair} (h : p.early.find? (fun e => e.1 == p.expect) = none) (k : Nat) : p.drain k = (p, []) := by
  cases k with
  | zero => rfl
  | succ k => simp only [Pair.drain, h]

theorem Pair.drain_of_some {p : Pair} {e : Nat × Nat} (h : p.early.find? (fun e => e.1 == p.expect) = some e) (k : Nat) :
    p.drain (k + 1) = (((p.delivering e).drain k).1, e.1 :: ((p.delivering e).drain k).2) := by
  simp only [Pair.drain, h, Pair.delivering]

/-- R396: within the window a packet that is not held yet is held, and what is then in order is delivered and acknowledged. -/
theorem exec_packetArrival_window {r : Pair × List Nat} (hn : n < 2 ^ 16) (hd : (n + 2 ^ 16 - (s.pair src dst).expect) % 2 ^ 16 < 256)
    (hnew : ∀ e ∈ (s.pair src dst).early, e.1 ≠ n) (hr : ((s.pair src dst).holding n payload).drain 256 = r) :
    exec (.packetArrival src dst n payload) s = .next ((s.setPair src dst r.1).due (r.2.map (fun k => .packetAck src dst k))) := by
  have hany : (s.pair src dst).early.any (fun e => e.1 == n) = false := by simpa using hnew
  show execPacketArrival src dst n payload s = _
  simp only [execPacketArrival, Nat.mod_eq_of_lt hn, packetWindow, hd, if_true, hany, Bool.false_eq_true, if_false]
  rw [← hr, Pair.holding]

theorem exec_packetArrival_expected (hn : n < 2 ^ 16) (he : (s.pair src dst).expect = n) (hearly : (s.pair src dst).early = []) :
    exec (.packetArrival src dst n payload) s = .next ((s.setPair src dst { s.pair src dst with
      delivered := (s.pair src dst).delivered ++ [payload], expect := (n + 1) % 2 ^ 16 }).due [.packetAck src dst n]) := by
  refine exec_packetArrival_window (r := (_, [n])) hn (by omega) (by simp [hearly]) ?_
  rw [Pair.drain_of_some (e := (n, payload)) (by simp [Pair.holding, hearly, he]),
    Pair.drain_of_none (by simp [Pair.delivering, Pair.holding, hearly])]
  simp [Pair.delivering, Pair.holding, hearly, he]

theorem exec_packetArrival_early (hn : n < 2 ^ 16) (h0 : 0 < (n + 2 ^ 16 - (s.pair src dst).expect) % 2 ^ 16)
    (hd : (n + 2 ^ 16 - (s.pair src dst).expect) % 2 ^ 16 < 256) (hearly : (s.pair src dst).early = []) :
    exec (.packetArrival src dst n payload) s = .next ((s.setPair src dst { s.pair src dst with early := [(n, payload)] }).due []) := by
  have hne : n ≠ (s.pair src dst).expect := by omega
  refine exec_packetArrival_window (r := (_, [])) hn hd (by simp [hearly]) ?_
  rw [Pair.drain_of_none (by simp [Pair.holding, hearly, hne])]
  simp [Pair.holding, hearly]

/-- R396: the packet expected, with the next one held: both are delivered and acknowledged in order. -/
theorem exec_packetArrival_closes {other : Nat} (hn : n < 2 ^ 16 - 2) (he : (s.pair src dst).expect = n)
    (hearly : (s.pair src dst).early = [(n + 1, other)]) : exec (.packetArrival src dst n payload) s =
      .next ((s.setPair src dst { s.pair src dst with
        early := [], delivered := (s.pair src dst).delivered ++ [payload, other], expect := n + 2 }).due
          [.packetAck src dst n, .packetAck src dst (n + 1)]) := by
  have hmod : (n + 1) % 65536 = n + 1 := Nat.mod_eq_of_lt (by omega)
  have hmod' : (n + 1 + 1) % 65536 = n + 2 := Nat.mod_eq_of_lt (by omega)
  refine exec_packetArrival_window (r := (_, [n, n + 1])) (by omega) (by omega) (by simp [hearly]) ?_
  rw [Pair.drain_of_some (e := (n, payload)) (by simp [Pair.holding, hearly, he]),
    Pair.drain_of_some (e := (n + 1, other)) (by simp [Pair.delivering, Pair.holding, hearly, he, hmod]),
    Pair.drain_of_none (by simp [Pair.delivering, Pair.holding, hearly])]
  simp [Pair.delivering, Pair.holding, hearly, he, hmod, hmod']

theorem exec_packetArrival_behind (hn : n < 2 ^ 16) (hd : 2 ^ 15 ≤ (n + 2 ^ 16 - (s.pair src dst).expect) % 2 ^ 16) :
    exec (.packetArrival src dst n payload) s = .next (s.due [.packetAck src dst n]) := by
  have hout : ¬ (n + 2 ^ 16 - (s.pair src dst).expect) % 2 ^ 16 < 256 := by omega
  show execPacketArrival src dst n payload s = _
  simp only [execPacketArrival, Nat.mod_eq_of_lt hn, packetWindow, hout, hd, if_true, if_false]

theorem exec_packetArrival_far (hn : n < 2 ^ 16) (hd : 256 ≤ (n + 2 ^ 16 - (s.pair src dst).expect) % 2 ^ 16)
    (hd' : (n + 2 ^ 16 - (s.pair src dst).expect) % 2 ^ 16 < 2 ^ 15) : exec (.packetArrival src dst n payload) s = .next s := by
  show execPacketArrival src dst n payload s = _
  simp only [execPacketArrival, Nat.mod_eq_of_lt hn, packetWindow, Nat.not_lt.mpr hd, Nat.not_le.mpr hd', if_false]

/-! ## Acknowledgement (R394, R395) -/

theorem find_copy {cs : List (Nat × Nat × Nat × Nat)} (h : ∃ c ∈ cs, c.1 = n) : ∃ c, cs.find? (fun c => c.1 == n) = some c :=
  Option.isSome_iff_exists.mp (List.find?_isSome.mpr (by simpa using h))

/-- R394: an acknowledgement waits for the way. -/
theorem exec_packetAck_closed (h : ∃ c ∈ (s.pair src dst).copies, c.1 = n) (hway : s.wayOpen src dst = false) :
    exec (.packetAck src dst n) s = .next (s.due [.packetAck src dst n]) := by
  obtain ⟨c, hc⟩ := find_copy h
  show execPacketAck src dst n s = _
  simp only [execPacketAck, hc, hway, Bool.not_false, if_true]

/-- R395: an acknowledgement frees the source's copy, and changes no other pair. -/
theorem exec_packetAck_open (h : ∃ c ∈ (s.pair src dst).copies, c.1 = n) (hway : s.wayOpen src dst = true) :
    ∃ t, exec (.packetAck src dst n) s = .next t ∧ t.pairs =
      (s.setPair src dst { s.pair src dst with copies := (s.pair src dst).copies.filter (fun c => c.1 != n) }).pairs := by
  obtain ⟨c, hc⟩ := find_copy h
  show ∃ t, execPacketAck src dst n s = .next t ∧ _
  simp only [execPacketAck, hc, hway, Bool.not_true, Bool.false_eq_true, if_false]
  refine ⟨_, rfl, ?_⟩
  split <;> rfl

/-! ## Sending and resending (R395 to R397) -/

section
variable {y k at_ : Nat} (hcopies : (s.pair src dst).copies = [(n, y, k, at_)])
include hcopies

theorem exec_resendTimeout_unsent (hu : (s.pair src dst).unsent = [n]) : exec (.resendTimeout src dst n) s =
    .next (((s.setPair src dst { s.pair src dst with copies := [(n, y, k, s.wall)], unsent := [] }).transmit src dst n y).due
      [.resendTimeout src dst n]) := by
  show execResendTimeout src dst n s = _
  simp [execResendTimeout, hcopies, hu, packetWindow]

theorem exec_resendTimeout_early (hu : (s.pair src dst).unsent = []) (ht : s.wall < at_ + 20000) :
    exec (.resendTimeout src dst n) s = .next (s.due [.resendTimeout src dst n]) := by
  show execResendTimeout src dst n s = _
  simp [execResendTimeout, hcopies, hu, resendNs, ht]

theorem exec_resendTimeout_again (hu : (s.pair src dst).unsent = []) (ht : at_ + 20000 ≤ s.wall) (hk : k < 64) :
    exec (.resendTimeout src dst n) s =
      .next (((s.setPair src dst { s.pair src dst with copies := [(n, y, k + 1, s.wall)], unsent := [] }).transmit src dst n y).due
        [.resendTimeout src dst n]) := by
  show execResendTimeout src dst n s = _
  simp [execResendTimeout, hcopies, hu, resendNs, maxResends, Nat.not_lt.mpr ht, Nat.not_le.mpr hk]

theorem exec_resendTimeout_last (hu : (s.pair src dst).unsent = []) (ht : at_ + 20000 ≤ s.wall) (hk : 64 ≤ k) :
    exec (.resendTimeout src dst n) s = .next (s.giveUp src dst n y) := by
  show execResendTimeout src dst n s = _
  simp [execResendTimeout, hcopies, hu, resendNs, maxResends, Nat.not_lt.mpr ht, hk]

end

/-- R395, R396: what is sent is numbered, and kept. -/
theorem State.pair_sendPacket (s : State) (src dst payload : Nat) : (s.sendPacket src dst payload).pair src dst =
    { s.pair src dst with
      next := ((s.pair src dst).next + 1) % 2 ^ 16
      copies := (s.pair src dst).copies ++ [((s.pair src dst).next, payload, 0, s.wall)]
      unsent := (s.pair src dst).unsent ++ [(s.pair src dst).next] } := State.pair_setPair_self ..

end

/-! ## The obligation -/

/-- Settles O46: the rows of the Link state table and of the packet window, each by the lemma of its rule. -/
theorem linksAndPackets : Obligations.LinksAndPackets := by
  refine ⟨fun s l => ?links, fun s src dst n payload hn => ?packets⟩
  case links =>
    intro x k y up scored
    refine ⟨exec_linkLock_degraded, exec_linkLock_training, exec_linkLock_retraining, exec_trainingTimeout, exec_trainingRetry,
      fun hy hlt => ?counts, fun hy hseven => ?eighth, exec_lockLoss, fun hy => ⟨exec_lockLoss_other hy, exec_flitReplay_other hy⟩,
      fun hx ht => (exec_retrainTimeout hx).trans (by rw [if_pos ht]), fun into => ?cut,
      fun hx ht => (exec_retrainTimeout hx).trans (by rw [if_neg (Nat.not_le.mpr ht)]),
      fun hx => ⟨exec_linkLock_retired hx, exec_trainingRetry_other (by rw [hx]; exact LinkState.noConfusion)⟩⟩
    case counts =>
      obtain ⟨n, hn, hexec⟩ := exec_flitReplay hy
      have hfew : ¬ 8 ≤ n := by change _ ∨ n = y.replays + 1 at hn; omega
      exact ⟨n, hn, hexec.trans (by rw [if_neg hfew])⟩
    case eighth =>
      obtain ⟨n, rfl | rfl, hexec⟩ := exec_flitReplay hy
      · exact .inl hexec
      · have height8 : 8 ≤ y.replays + 1 := by omega
        exact .inr (hexec.trans (by rw [if_pos height8]; rfl))
    case cut =>
      exact ⟨State.link_cutLink_self .., fun m => State.link_cutLink_of_ne s into, rfl, fun i => State.mem_agenda_of_mem_cutLink,
        fun src dst seq p h w => State.not_mem_way_of_mem_cutLink h⟩
  case packets =>
    intro p ahead
    refine ⟨exec_packetArrival_expected hn, fun h0 hd _ => exec_packetArrival_early hn h0 hd,
      fun m other he hlt hm => ?closes, exec_packetArrival_behind hn, exec_packetArrival_far hn, exec_packetAck_closed,
      fun h hway => ?acked, fun y k at_ hc => ?resent, ?sent⟩
    case closes =>
      subst hm
      exact exec_packetArrival_closes hlt he
    case acked =>
      obtain ⟨t, ht, hpairs⟩ := exec_packetAck_open h hway
      have hpair (a b : Nat) : t.pair a b = (s.setPair src dst { p with copies := p.copies.filter (fun c => c.1 != n) }).pair a b :=
        congrArg (fun ps : Tab Pair => ps.getD (pairKey a b) Pair.reset) hpairs
      exact ⟨t, ht, (hpair src dst).trans (State.pair_setPair_self ..), fun a b hne _ hb _ hdst =>
        (hpair a b).trans (Tab.getD_set_of_ne _ _ _ (pairKey_ne hne hb hdst))⟩
    case resent =>
      exact ⟨exec_resendTimeout_unsent hc, exec_resendTimeout_early hc, exec_resendTimeout_again hc, exec_resendTimeout_last hc⟩
    case sent =>
      have h := s.pair_sendPacket src dst payload
      exact ⟨congrArg Pair.copies h, congrArg Pair.next h, congrArg Pair.unsent h, rfl⟩

end Sys2Proof.Machine
end

section
/-! LEMMAS. The scored units stand (R407) when Contexts meet a capacity change (R279, R415) and when Gangs are pre-empted (R274, R275). -/
set_option Elab.async false

namespace Sys2Proof.Machine

section
variable {s : State} {c slot : Nat} {g : Group}

/-! ## Groups and Chunks -/

theorem ite_units {p : Prop} [Decidable p] {t u : State} (ht : p → t.units = s.units) (hu : ¬p → u.units = s.units) :
    (if p then t else u).units = s.units := by
  split
  · next h => exact ht h
  · next h => exact hu h

theorem State.openChunk_units (s : State) (c slot : Nat) : (s.openChunk c slot).units = s.units := by
  obtain ⟨cs, h⟩ := s.openChunk_only c slot
  rw [h]

theorem State.restoreUndo_units (s : State) (u : List Undo) : (s.restoreUndo u).units = s.units :=
  foldl_stands State.units (fun _ _ => by rfl) u.reverse s

theorem State.restoreTiles_units (s : State) (c : Nat) (ts : List Nat) : (s.restoreTiles c ts).units = s.units :=
  foldl_stands State.units (fun _ _ => by rfl) ts s

theorem State.undoChunk_units (s : State) (c slot : Nat) : (s.undoChunk c slot).units = s.units := by
  unfold State.undoChunk
  split
  · simp only [State.modGroup_units, State.poolPut_units, State.restoreTiles_units, State.restoreUndo_units, State.dropChunk]
  · rfl

theorem State.squash_units (s : State) (c slot : Nat) (conflict : Bool) : (s.squash c slot conflict).units = s.units := by
  unfold State.squash
  split
  · extract_lets st n s1 k s2 base s3 solo s4
    have h2 : s2.units = s.units := by
      unfold s2
      split <;> exact s.undoChunk_units c slot
    have h4 : s4.units = s.units := (State.modGroup_units ..).trans h2
    split <;> exact h4
  · rfl

/-- R279, R280: a trap that is entered in a Kernel with a trap entry changes its Group and its registers. -/
theorem State.enterTrap_units (hg : s.group? c slot = some g) (hi : g.inTrap = none) (ht : (s.launchAt c).trapent ≠ 0xFFFFFFFF)
    (t : TrapInfo) (lanes : List Nat) : (s.enterTrap c slot t lanes).units = s.units := by
  unfold State.enterTrap
  split
  · next g' _ hg' _ =>
    cases hg.symm.trans hg'
    simp only [hi, Option.isSome_none, Bool.false_eq_true, if_false, if_neg ht, State.modGroup_units, State.setSpecial_units]
  · rfl

/-! ## Capacity changes (R279, R415) -/

theorem State.deliverCap_units (s : State) (c slot : Nat) : (s.deliverCap c slot).units = s.units := by
  unfold State.deliverCap
  split
  case h_2 => rfl
  next g hg =>
  split
  case h_2 => rfl
  refine ite_units (fun _ => rfl) fun hfree => ite_units (fun _ => State.modGroup_units ..) fun ht => ?_
  have hi : g.inTrap = none := by
    simp only [Bool.or_eq_true, not_or, Option.not_isSome_iff_eq_none] at hfree
    exact hfree.1.1.1
  split
  · exact (State.openChunk_units ..).trans ((State.modGroup_units ..).trans (State.enterTrap_units hg hi ht ..))
  · rfl

theorem State.capToGroup_units (s : State) (v c slot : Nat) : (s.capToGroup v c slot).units = s.units := by
  unfold State.capToGroup
  split
  · extract_lets s1
    have h1 : s1.units = s.units := State.modGroup_units ..
    exact ite_units (fun _ => (State.deliverCap_units ..).trans h1) fun _ => h1
  · rfl

theorem State.rawPut_units (s : State) (pa : Nat) (bs : List Byte) : (s.rawPut pa bs).units = s.units := by
  obtain ⟨_, _, _, _, h⟩ := s.parityOf_only s.mem (s.lastStamp 0) [] none none (storeItem pa bs)
  simp only [State.rawPut, h]

theorem State.arriveOther_units (s : State) (team b : Nat) : (s.arriveOther team b).units = s.units := by
  unfold State.arriveOther
  split
  · rfl
  refine ite_units (fun _ => rfl) fun _ => ?_
  extract_lets bar k
  split
  · extract_lets x r s1
    have h1 : s1.units = s.units := s.rawPut_units ..
    refine ite_units (fun _ => rfl) fun _ => ite_units (fun _ => ?_) fun _ => h1
    split
    · split
      · exact (foldl_stands State.units (fun s (i : Image) => foldl_stands State.units (fun s e =>
          ite_units (fun _ => State.rawPut_units ..) fun _ => rfl) i.groups s) _ s1).trans h1
      · exact h1
    · exact h1
  · rfl

theorem State.changeCtx_units (s : State) (ctx : Nat) : (s.changeCtx ctx).units = s.units := by
  unfold State.changeCtx
  extract_lets c v s1 mine s2 gs s3
  have h2 : s2.units = s.units := by
    refine ite_units (fun _ => rfl) fun _ => ?_
    exact foldl_stands State.units (fun s t => s.arriveOther_units t c.capbar) _ s1
  exact (foldl_stands State.units (fun s g => s.capToGroup_units v g.1 g.2) gs s2).trans h2

@[simp] theorem State.recount_units (s before : State) : (s.recount before).units = s.units :=
  foldl_stands State.units (fun s c => s.changeCtx_units c) _ s

/-! ## Pre-emption (R274, R275) -/

theorem State.haltGroup_units (s : State) (c slot : Nat) : (s.haltGroup c slot).units = s.units := by
  unfold State.haltGroup
  split
  · rfl
  next g _ =>
  extract_lets s1
  have h1 : s1.units = s.units := by
    have hq : (s.squash c slot false).units = s.units := s.squash_units c slot false
    exact ite_units (fun _ => (foldl_stands State.units (fun _ _ => by rfl) _ _).trans hq) fun _ => ite_units (fun _ => hq) fun _ => rfl
  exact (State.modGroup_units ..).trans h1

theorem State.mapImages_units (s : State) (kid gid : Nat) (f : Image → Image) : (s.mapImages kid gid f).units = s.units := by
  unfold State.mapImages State.modKernel
  split <;> rfl

theorem State.preemptGang_units (s : State) (kid gid : Nat) : (s.preemptGang kid gid).units = s.units := by
  unfold State.preemptGang
  split
  · rfl
  next g _ =>
  refine ite_units (fun _ => ?_) fun _ => rfl
  extract_lets s1 s2 s3
  have h1 : s1.units = s.units := foldl_stands State.units (fun s (i : Image) =>
    ite_units (fun _ => foldl_stands State.units (fun s (e : Nat × Group) => s.haltGroup_units i.core e.1) _ s) fun _ => rfl) g.images s
  exact (s1.mapImages_units kid gid _).trans h1

theorem State.preempt_units (s : State) (kid gid : Nat) : (s.preempt kid gid).units = s.units :=
  foldl_stands State.units (fun s (g : Nat × Nat) => s.preemptGang_units g.1 g.2) _ s

@[simp] theorem State.preemptCore_units (s : State) (c : Nat) : (s.preemptCore c).units = s.units :=
  foldl_stands State.units (fun s (g : Nat × Nat) => s.preempt_units g.1 g.2) _ s

end

end Sys2Proof.Machine
end

section
/-! LEMMAS. Leases (R408 to R412), from the request to the end, and retirement (R409, R413). -/
set_option Elab.async false

namespace Sys2Proof.Machine

theorem unitClass_eq_zero_iff (u : Nat) : unitClass u = 0 ↔ u < 4096 := by
  unfold unitClass
  omega

section
variable {s : State} {u : Nat}

@[simp] theorem State.unit_setUnit_self (s : State) (u : Nat) (x : HUnit) : (s.setUnit u x).unit u = x := Tab.getD_set_self ..

theorem State.unit_congr {s t : State} (h : t.units = s.units) (u : Nat) : t.unit u = s.unit u :=
  congrArg (fun us : Tab HUnit => us.getD u HUnit.reset) h

/-- R417: a record changes nothing but the store of records. -/
theorem State.addRecord_only (s : State) (unit why bin detail : Nat) :
    ∃ rs n, s.addRecord unit why bin detail = { s with records := rs, overflow := n } := by
  unfold State.addRecord
  split
  · exact ⟨_, _, rfl⟩
  · exact ⟨_, _, rfl⟩

theorem State.addRecord_units (s : State) (unit why bin detail : Nat) : (s.addRecord unit why bin detail).units = s.units := by
  obtain ⟨_, _, h⟩ := s.addRecord_only unit why bin detail
  rw [h]

/-! ## Retirement (R409, R413) -/

/-- R409, R413: a unit that retires is Retired. -/
theorem State.unit_retireUnit_state (s : State) (u why : Nat) : ((s.retireUnit u why).unit u).state = .retired := by
  unfold State.retireUnit
  extract_lets x s1 s2 s3 s4
  have h1 : s1.units = s.units.set u { x with state := .retired } := State.addRecord_units ..
  have h3 : s3.units = s1.units := by
    unfold s3
    split
    · rfl
    · rfl
  have h4 : s4.units = s1.units := (State.recount_units ..).trans h3
  have hr (t : State) (ht : t.units = s1.units) : (t.unit u).state = .retired := by
    rw [State.unit_congr (ht.trans h1) u (s := s.setUnit u { x with state := .retired }), State.unit_setUnit_self]
  split
  · exact hr _ ((State.preemptCore_units ..).trans h4)
  · exact hr _ h4

/-! ## LEASE_DUE (R408, R409) -/

theorem exec_leaseDue_retires (hok : unitOk u = true) (hr : (s.unit u).state ≠ .retired) (hb : (s.unit u).state ≠ .rebuild)
    (hs : 8192 ≤ (s.unit u).score) : exec (.leaseDue u) s = .next (s.retireUnit u 2) := by
  show execLeaseDue u s = _
  simp [execLeaseDue, hok, hr, hb, scoreRetire, hs, whyScore]

section
variable (hok : unitOk u = true) (hstate : (s.unit u).state = .inService) (hscore : (s.unit u).score < 8192) (hclass : unitClass u ≠ 4)
  (hspare : s.spareUsed u = false)
include hok hstate hscore hclass hspare

theorem exec_leaseDue_requests (hdue : s.isDue u = true) (hbusy : s.scopeBusy u = false) : exec (.leaseDue u) s =
    .next ((s.setUnit u { s.unit u with state := .requested, requestedAt := s.wall }).due
      ((if u < 4096 then [.leasePreemptTimer] else []) ++ [.leaseTestingStart u])) := by
  show execLeaseDue u s = _
  simp [execLeaseDue, hok, hstate, scoreRetire, Nat.not_le.mpr hscore, hclass, hspare, hdue, hbusy, unitClass_eq_zero_iff]

theorem exec_leaseDue_waits (hdue : s.isDue u = false) : exec (.leaseDue u) s = .next (s.due [.leaseDue u]) := by
  show execLeaseDue u s = _
  simp [execLeaseDue, hok, hstate, scoreRetire, Nat.not_le.mpr hscore, hclass, hspare, hdue]

end

/-- R408, R409: due by score or by period. -/
theorem State.isDue_iff (hstate : (s.unit u).state = .inService) :
    s.isDue u = true ↔ 1024 ≤ (s.unit u).score ∨ (s.unit u).leasedAt + s.lperiod * 60000000000 ≤ s.wall := by
  simp only [State.isDue, hstate, beq_self_eq_true, Bool.true_and, Bool.or_eq_true, decide_eq_true_eq]
  rfl

/-! ## LEASE_PREEMPT_TIMER (R409) -/

/-- The cores that are Requested. -/
def State.requestedCores (s : State) : List Nat :=
  (s.units.filter (fun e => unitClass e.1 == 0 && e.2.state == .requested)).map (fun e => e.1)

theorem exec_leasePreemptTimer_all (h : ∀ c ∈ s.requestedCores, (s.unit c).requestedAt + 50000000 ≤ s.wall) :
    exec .leasePreemptTimer s = .next (s.requestedCores.foldl (fun s c => s.preemptCore c) s) := by
  let late (c : Nat) : Bool := decide ((s.unit c).requestedAt + leasePreemptNs ≤ s.wall)
  have hlate : ∀ c ∈ s.requestedCores, late c = true := fun c hc => decide_eq_true (h c hc)
  have hall : s.requestedCores.all late = true := List.all_eq_true.mpr hlate
  have hfilter : s.requestedCores.filter late = s.requestedCores := List.filter_eq_self.mpr hlate
  refine (congrArg Host.Outcome.next (if_pos hall)).trans ?_
  exact congrArg (fun cs => Host.Outcome.next (cs.foldl (fun s c => s.preemptCore c) s)) hfilter

/-! ## LEASE_TESTING_START (R409 to R411) -/

section
variable (hstate : (s.unit u).state = .requested)
include hstate

theorem exec_leaseTestingStart_begins (himage : u < 4096 → s.imageOn u = false) (hclass : unitClass u ≠ 3) (hfree : s.spareFree u = true) :
    exec (.leaseTestingStart u) s = .next ((s.setUnit u { s.unit u with state := .testing }).recount s) := by
  have hcore : (unitClass u = 0 && s.imageOn u) = false := by simpa [unitClass_eq_zero_iff] using himage
  show execLeaseTestingStart u s = _
  simp [execLeaseTestingStart, hstate, hcore, hfree, hclass]

theorem exec_leaseTestingStart_waits (h : (u < 4096 ∧ s.imageOn u = true) ∨ s.spareFree u = false) :
    exec (.leaseTestingStart u) s = .next (s.due [.leaseTestingStart u]) := by
  have hwait : ((unitClass u = 0 && s.imageOn u) || !s.spareFree u) = true := by simpa [unitClass_eq_zero_iff] using h
  show execLeaseTestingStart u s = _
  simp only [execLeaseTestingStart, hstate, hwait, if_true, ne_eq, not_true_eq_false, if_false]

/-- R411, log 107: of a channel the window of the lease's number is pinned, and corrected events of its rows count anew. -/
theorem exec_leaseTestingStart_channel (hclass : unitClass u = 3) : ∃ t, exec (.leaseTestingStart u) s = .next t ∧
    t.unit u = { s.unit u with state := .testing, window := some ((s.unit u).leases % 2048) } ∧
    ∀ r ∈ t.rowEvents, channelOf r.1 ≠ unitNum u := by
  have hfree : s.spareFree u = true := by simp [State.spareFree, hclass]
  show ∃ t, execLeaseTestingStart u s = .next t ∧ _
  simp only [execLeaseTestingStart, hstate, hfree, hclass, ne_eq, not_true_eq_false, if_false, if_true, Bool.not_true, Bool.or_false,
    OfNat.ofNat_ne_zero, decide_false, Bool.false_and, Bool.false_eq_true]
  refine ⟨_, rfl, State.unit_setUnit_self .., fun r hr => ?_⟩
  have hkept : r ∈ s.rowEvents.filter (fun e => channelOf e.1 != unitNum u) := hr
  exact bne_iff_ne.mp (List.mem_filter.mp hkept).2

end

/-! ## PATTERN_COMPLETE (R409 to R411) -/

section
variable (hstate : (s.unit u).state = .testing) (hscore : (s.unit u).score < 8192)
include hstate hscore

/-- R410: what a core's patterns show: its bin, a higher one with a record, or that it fails at each. -/
theorem exec_patternComplete_core (hu : u < 4096) (bin : Nat) : exec (.patternComplete u bin) s = .next
    (if 2 < bin then (s.patternFailed u).retireUnit u 1
      else if (s.unit u).bin < bin then ((s.setUnit u { s.unit u with bin := bin }).addRecord u 3 bin 0).leaseEnds u id
      else s.leaseEnds u id) := by
  have hclass : unitClass u = 0 := (unitClass_eq_zero_iff u).mpr hu
  show execPatternComplete u bin s = _
  simp [execPatternComplete, hstate, scoreRetire, Nat.not_le.mpr hscore, hclass, apply_ite Host.Outcome.next, whyPattern, whyBin]

theorem exec_patternComplete_lane (hclass : unitClass u = 1) (bin : Nat) : exec (.patternComplete u bin) s =
    .next (if bin = 0 then s.leaseEnds u id else (s.patternFailed u).retireUnit u 1) := by
  show execPatternComplete u bin s = _
  simp [execPatternComplete, hstate, scoreRetire, Nat.not_le.mpr hscore, hclass, apply_ite Host.Outcome.next, whyPattern]

theorem exec_patternComplete_channel (hclass : unitClass u = 3) :
    exec (.patternComplete u 0) s = .next (s.setUnit u { s.unit u with window := none }) := by
  show execPatternComplete u 0 s = _
  simp [execPatternComplete, hstate, scoreRetire, Nat.not_le.mpr hscore, hclass]

section
variable (hclass : unitClass u = 2)
include hclass

theorem exec_patternComplete_port_passes : exec (.patternComplete u 0) s = .next (s.leaseEnds u id) := by
  show execPatternComplete u 0 s = _
  simp [execPatternComplete, hstate, scoreRetire, Nat.not_le.mpr hscore, hclass]

/-- R410: a port whose spare has been used retires with the next lane that fails. -/
theorem exec_patternComplete_port_retires {lane : Nat} (hl : lane ≠ 0) (hf : (s.unit u).failed ≠ 0) :
    exec (.patternComplete u lane) s = .next ((s.patternFailed u).retireUnit u 1) := by
  show execPatternComplete u lane s = _
  simp [execPatternComplete, hstate, scoreRetire, Nat.not_le.mpr hscore, hclass, hl, hf, whyPattern]

/-- R410: the first lane that fails scores, and its spare takes its place. -/
theorem exec_patternComplete_port_spare {lane : Nat} (hl : lane ≠ 0) (hf : (s.unit u).failed = 0) (hlow : (s.unit u).score < 4096) :
    ∃ t, exec (.patternComplete u lane) s = .next t ∧ t.unit u = { s.unit u with score := (s.unit u).score + 4096, failed := lane } ∧
      t = { s with units := t.units, records := t.records, overflow := t.overflow } := by
  have hsum : min 65535 ((s.unit u).score + 4096) = (s.unit u).score + 4096 := by omega
  obtain ⟨rs, n, hrec⟩ := (s.patternFailed u).addRecord_only u whyLane 0 (lane - 1)
  have hunit : ((s.patternFailed u).addRecord u whyLane 0 (lane - 1)).unit u = { s.unit u with score := (s.unit u).score + 4096 } := by
    rw [State.unit_congr (State.addRecord_units ..), State.patternFailed, State.unit_setUnit_self, hsum]
  have hlt : ¬ 8192 ≤ (s.unit u).score + 4096 := by omega
  show ∃ t, execPatternComplete u lane s = .next t ∧ _
  simp only [execPatternComplete, hstate, scoreRetire, Nat.not_le.mpr hscore, hclass, ne_eq, not_true_eq_false, if_false, hl, hf, hunit,
    State.unit_setUnit_self, hlt]
  refine ⟨_, rfl, State.unit_setUnit_self .., ?_⟩
  rw [hrec]
  rfl

end

end

end

end Sys2Proof.Machine
end

section
/-! LEMMAS. Patrol and row repair (R411, R412), the watchdog (R419), and the leases as a whole. -/
set_option Elab.async false

namespace Sys2Proof.Machine

section
variable {s : State} {u : Nat}

/-! ## PATROL_COMPLETE (R411 to R413) -/

section
variable (hstate : (s.unit u).state = .testing) (hclass : unitClass u = 3)
include hstate hclass

theorem exec_patrolComplete_pinned (rows : List Nat) (hw : (s.unit u).window.isSome = true) : exec (.patrolComplete u rows) s = .next s := by
  show execPatrolComplete u rows s = _
  simp only [execPatrolComplete, hstate, hclass, hw, ne_eq, not_true_eq_false, decide_false, Bool.or_true, if_true]

variable (hw : (s.unit u).window = none)
include hw

theorem exec_patrolComplete_clean (hrows : s.rowsToRepair u [] = []) : exec (.patrolComplete u []) s = .next (s.leaseEnds u id) := by
  show execPatrolComplete u [] s = _
  simp [execPatrolComplete, hstate, hclass, hw, hrows]

/-- R412: a channel under rebuild, with rows to repair. -/
def State.underRepair (s : State) (u : Nat) (mine : List Nat) : State :=
  let s1 := s.setUnit u { s.unit u with state := .rebuild }
  { s1 with rebuilding := unionNat s1.rebuilding mine }.due (mine.map (fun r => .rowRepair u r))

theorem exec_patrolComplete_met {o : Nat} (ho : channelOf o = unitNum u) (hrows : (s.addScore u 1).rowsToRepair u [o] ≠ []) :
    exec (.patrolComplete u [o]) s = .next ((s.addScore u 1).underRepair u ((s.addScore u 1).rowsToRepair u [o])) := by
  show execPatrolComplete u [o] s = _
  simp only [execPatrolComplete, hstate, hclass, hw, ne_eq, not_true_eq_false, decide_false, Bool.or_self, Option.isSome_none,
    Bool.false_eq_true, if_false, List.filter_cons, List.filter_nil, ho, beq_self_eq_true, if_true, List.isEmpty_cons, List.length_singleton,
    List.isEmpty_eq_false_iff.mpr hrows]
  rfl

end

theorem State.unit_addScore_score (s : State) (u n : Nat) : ((s.addScore u n).unit u).score = min 65535 ((s.unit u).score + n) := by
  unfold State.addScore
  extract_lets x sc s1
  have h1 : s1.unit u = { x with score := sc } := State.unit_setUnit_self s u _
  split
  · exact congrArg HUnit.score h1
  · exact congrArg HUnit.score h1

theorem State.addScore_rowEvents (s : State) (u n : Nat) : (s.addScore u n).rowEvents = s.rowEvents := by
  unfold State.addScore
  dsimp only
  split <;> rfl

theorem State.underRepair_spec (s : State) {mine : List Nat} {row : Nat} (h : row ∈ mine) : let t := s.underRepair u mine
    (t.unit u).state = .rebuild ∧ (t.unit u).score = (s.unit u).score ∧ row ∈ t.rebuilding ∧ .rowRepair u row ∈ t.agenda ∧
      t.records = s.records := by
  intro t
  have hu : t.unit u = { s.unit u with state := .rebuild } := State.unit_setUnit_self s u _
  exact ⟨by rw [hu], by rw [hu], (mem_unionNat _).mpr (.inr h),
    List.mem_append_right _ (List.mem_map_of_mem h), rfl⟩

/-- R412: a row with one corrected event in the lease is to be repaired when the patrol meets another. -/
theorem State.mem_rowsToRepair_of_second {o : Nat} (ho : channelOf (rowId o) = unitNum u) (he : s.rowEvents.get? (rowId o) = some 1) :
    rowId o ∈ s.rowsToRepair u [o] := by
  have hin : rowId o ∈ s.rowEvents.map (fun e => e.1) := List.mem_map.mpr ⟨_, Tab.mem_of_get? he, rfl⟩
  have hcount : s.rowEvents.getD (rowId o) 0 = 1 := by rw [Tab.getD, he]; rfl
  refine List.mem_filter.mpr ⟨mem_unionNat_of_mem _ (mem_unionNat_of_mem _ hin), ?_⟩
  simp [ho, hcount]

/-! ## ROW_REPAIR (R412) -/

/-- R363, R412: the row is no longer rebuilt, and what was parked for its lines is replayed. -/
def State.rowDone (s : State) (row : Nat) : State :=
  ({ s with rebuilding := s.rebuilding.filter (· != row) } : State).replay (fun ln => rowId (ln / 4) == row)

theorem exec_rowRepair_waits {row : Nat} (hr : s.rebuilding.contains row = true) (hb : ∃ ln ∈ s.badLines, rowId (ln / 4) = row) :
    exec (.rowRepair u row) s = .next (s.due [.rowRepair u row]) := by
  have hany : s.badLines.any (fun ln => rowId (ln / 4) == row) = true := by simpa using hb
  show execRowRepair u row s = _
  simp only [execRowRepair, hr, hany, Bool.not_true, Bool.false_eq_true, if_false, if_true]

theorem exec_rowRepair_done {row : Nat} (hr : s.rebuilding.contains row = true) (hb : ∀ ln ∈ s.badLines, rowId (ln / 4) ≠ row) :
    exec (.rowRepair u row) s = .next (if (s.unit u).state = .rebuild ∧ ∀ r ∈ (s.rowDone row).rebuilding, channelOf r ≠ unitNum u
      then (s.rowDone row).leaseEnds u id else s.rowDone row) := by
  have hany : s.badLines.any (fun ln => rowId (ln / 4) == row) = false := by simpa using hb
  show execRowRepair u row s = _
  simp only [execRowRepair, hr, hany, Bool.not_true, Bool.false_eq_true, if_false]
  exact congrArg Host.Outcome.next (if_congr (by simp [State.rowDone]) rfl rfl)

theorem State.not_mem_rebuilding_rowDone (s : State) (row : Nat) : row ∉ (s.rowDone row).rebuilding := by
  intro h
  exact bne_iff_ne.mp (List.of_mem_filter (p := (· != row)) h) rfl

/-- R363: what is parked for a line of the row is ready, but for the device's reads, which are made again. -/
theorem State.parked_rowDone {row : Nat} {e : Park} (he : e ∈ (s.rowDone row).parked) (hrow : rowId (e.line / 4) = row) :
    e.ready = true ∧ .other ∉ e.reqs := by
  obtain ⟨p, _, hp⟩ := List.mem_map.mp (List.mem_of_mem_filter he)
  split at hp
  · subst hp
    exact ⟨rfl, fun h => bne_iff_ne.mp (List.of_mem_filter (p := (· != Req.other)) h) rfl⟩
  · next hother =>
    subst hp
    exact absurd (beq_iff_eq.mpr hrow) hother

/-! ## WATCHDOG_EXPIRY (R419) -/

theorem exec_watchdogExpiry_idle (die : Nat) {k : Nat} (h : ∀ o ∈ s.ops, (opIndex o.2).isSome = true → o.2.inst ≠ k) :
    exec (.watchdogExpiry die (some k)) s = .next s := by
  have hnone : s.ops.filter (fun e => (opIndex e.2).isSome && e.2.inst == k && (e.2.state == .translating || e.2.state == .left)) = [] := by
    refine List.filter_eq_nil_iff.mpr fun e he hhit => ?_
    simp only [Bool.and_eq_true, beq_iff_eq] at hhit
    exact h e he hhit.1.1 hhit.1.2
  show execWatchdogExpiry die (some k) s = _
  simp only [execWatchdogExpiry, hnone, List.foldl_nil]

/-- R419: the one command of the controller ends with UCE. -/
theorem exec_watchdogExpiry_one (die : Nat) {k id : Nat} {o : Op} (hops : s.ops = [(id, o)]) (hx : (opIndex o).isSome = true)
    (hk : o.inst = k) (hl : o.state = .left) (hoffers : s.offers = []) (hpubls : s.publs = []) (hsearches : s.searches = []) :
    exec (.watchdogExpiry die (some k)) s = .next (s.finishOp id { o with units := 0 } (0x06 * 2 ^ 24)) := by
  have hsame : ({ s with offers := [], publs := [], searches := [] } : State) = s := by rw [← hoffers, ← hpubls, ← hsearches]
  have hnone : s.search? id = none := by rw [State.search?, hsearches]; rfl
  have hhit : s.ops.filter (fun e => (opIndex e.2).isSome && e.2.inst == k && (e.2.state == .translating || e.2.state == .left)) = [(id, o)] := by
    simp [hops, hx, hk, hl]
  have hleft : ¬ o.state = .translating := by rw [hl]; exact OpState.noConfusion
  show execWatchdogExpiry die (some k) s = _
  simp only [execWatchdogExpiry, hhit, hoffers, hpubls, hsearches, List.filter_nil, List.map_nil, List.foldl_cons, List.foldl_nil, hsame, hnone,
    hleft, if_false]
  rfl

end

/-! ## The obligation -/

/-- Settles O47: each event of a lease by the lemma of its rule. -/
theorem leases : Obligations.Leases := by
  intro s u hok x
  refine ⟨exec_leaseDue_retires hok, fun hx hlow hdue hclass hspare hbusy => ?requested, fun hx hlow hearly hclass hspare => ?notDue,
    fun h => exec_leasePreemptTimer_all h, exec_leaseTestingStart_begins, fun hx hfree => exec_leaseTestingStart_waits hx (.inr hfree),
    exec_leaseTestingStart_channel, fun hx hu himage => exec_leaseTestingStart_waits hx (.inl ⟨hu, himage⟩),
    fun bin hx hs hu hle h2 => ?same, fun bin hx hs hu hlt h2 => ?higher, fun bin hx hs hu h2 => ?fails,
    fun bin hx hs hclass => exec_patternComplete_lane hx hs hclass bin,
    fun lane hx hs hclass => ⟨fun hl => hl ▸ exec_patternComplete_port_passes hx hs hclass,
      exec_patternComplete_port_retires hx hs hclass, exec_patternComplete_port_spare hx hs hclass⟩,
    exec_patternComplete_channel, fun hx hclass => exec_patrolComplete_pinned hx hclass [], exec_patrolComplete_clean,
    fun o hx hclass hw hrow ho he => ?second, fun row => exec_rowRepair_waits,
    fun row hr hb => ⟨exec_rowRepair_done hr hb, s.not_mem_rebuilding_rowDone row, rfl, fun e => State.parked_rowDone⟩,
    s.unit_retireUnit_state u, fun die k => exec_watchdogExpiry_idle die, fun die k id o => exec_watchdogExpiry_one die, fun die => rfl⟩
  case requested => exact exec_leaseDue_requests hok hx hlow hclass hspare ((State.isDue_iff hx).mpr hdue) hbusy
  case notDue =>
    have hnot : ¬ s.isDue u = true := fun h => by
      rcases (State.isDue_iff hx).mp h with h | h
      · exact Nat.not_le.mpr hlow h
      · exact Nat.not_le.mpr hearly h
    exact exec_leaseDue_waits hok hx (Nat.lt_trans hlow (by decide)) hclass hspare (Bool.eq_false_iff.mpr hnot)
  case same => rw [exec_patternComplete_core hx hs hu, if_neg (Nat.not_lt.mpr h2), if_neg (Nat.not_lt.mpr hle)]
  case higher => rw [exec_patternComplete_core hx hs hu, if_neg (Nat.not_lt.mpr h2), if_pos hlt]
  case fails => rw [exec_patternComplete_core hx hs hu, if_pos h2]
  case second =>
    have hmem : rowId o ∈ (s.addScore u 1).rowsToRepair u [o] :=
      State.mem_rowsToRepair_of_second hrow (by rw [State.addScore_rowEvents]; exact he)
    obtain ⟨hstate, hscore, hrebuild, hdue, hrecords⟩ := (s.addScore u 1).underRepair_spec (u := u) hmem
    exact ⟨_, exec_patrolComplete_met hx hclass hw ho (List.ne_nil_of_mem hmem), hstate, hscore.trans (s.unit_addScore_score u 1), hrebuild,
      hdue, hrecords.trans (Keeps.addScore s u 1).records⟩

end Sys2Proof.Machine
end
